-- ==== Sys2Proof/Word.lean ====
section
/-! DEFINITION. The word types of the DZ8640 (R3: registers are 32 bits wide) and the plainest arithmetic on them. -/

namespace Sys2Proof

/-- One byte. -/
abbrev Byte := BitVec 8

/-- One register word (R3). -/
abbrev Word := BitVec 32

/-- A 64-bit word: a timebase tick, a DRAM address, a host address, a SECDED data word (R106). -/
abbrev Word64 := BitVec 64

end Sys2Proof
end

