-- ==== Sys2Proof/Syntax.lean ====
section
/-! DEFINITION. The commands of the DZ8640 block: one constructor of `Instr` for each row of spec/opcode_table.json,
with the operands that the row's rule gives it, and the plain data those operands are made of. -/

namespace Sys2Proof

/-- Who writes a register: the host through BAR0 (R3, R22, R23), or the device's own firmware cores ("written by the
Dispatcher, and by the host only inside a maintenance session"). -/
inductive Writer where
  | host
  | firmware
  deriving DecidableEq, Repr

/-- The three kinds of session (R463, R464): KIND 1 host, 2 management port, 3 maintenance. -/
inductive Session where
  | host
  | port
  | maint
  deriving DecidableEq, Repr

/-- The interface on which a handshake message arrives (R464): PCIe configuration space or UDP to MGT_PORT. -/
inductive Side where
  | pcie
  | mgtPort
  deriving DecidableEq, Repr

/-- Width of a host access (R3). Only 32 bits is served. -/
inductive Width where
  | w8
  | w16
  | w32
  | w64
  deriving DecidableEq, Repr

/-- Whose rings carry a command (R325, R326): the session that issued it and the TAG of its ring entry. -/
structure Issue where
  via : Session
  tag : BitVec 16
  deriving DecidableEq, Repr

/-- One sensor register write of a settings request (R182, R326): 16-bit register address and 1 to 4 value bytes. -/
structure SensorReg where
  addr  : BitVec 16
  bytes : List Byte
  deriving DecidableEq, Repr

/-- The payload of SENSOR_REQ (R182, R326). -/
structure SensorRequest where
  context  : Fin 16
  target   : BitVec 32
  writes   : List SensorReg
  /-- readback fields 0 to 3 that the request sets, `none` where the mask bit is clear -/
  expected : List (Option Word)
  deriving DecidableEq, Repr

/-- Outcome of the packet checks on one CSI-2 packet (R160, R164). -/
structure PacketCheck where
  /-- a header single-bit error was corrected -/
  eccFixed : Bool
  /-- a header error could not be corrected -/
  eccBad   : Bool
  /-- payload CRC-16 error -/
  crcBad   : Bool
  deriving DecidableEq, Repr

/-- A CAN frame on the bus (R291, R301). `id` holds a base identifier in bits [28:18]. -/
structure CanFrame where
  xtd  : Bool
  fdf  : Bool
  brs  : Bool
  esi  : Bool
  rtr  : Bool
  id   : BitVec 29
  dlc  : BitVec 4
  data : List Byte
  deriving DecidableEq, Repr

/-- Which of ISO 11898-1's error-counting rules a bus error meets (R293): the usual count of its side; the heavy one of a
receiver (a bit error while it sends an active error or overload flag, a dominant bit first after its error flag); or one of
the two cases in which a transmitter's error does not count (an error-passive acknowledgement error, a stuff error in
arbitration). -/
inductive CanErr where
  | usual
  | heavy
  | exempt
  deriving DecidableEq, Repr

/-- One Adenal flit (R334), with the outcome of its CRC (R335) computed by the machine from `bytes`. -/
structure Flit where
  /-- the 272 bytes of the flit, CRC included -/
  bytes : List Byte
  deriving DecidableEq, Repr

/-- A ring instant (R344): timebase tick and sixteenths of a tick. -/
structure Instant where
  tick : Word64
  fine : BitVec 4
  deriving DecidableEq, Repr

/-- PTP messages, received and sent (R414). -/
inductive PtpKind where
  | announce
  | sync
  | followUp
  | delayReq
  | delayResp
  | pdelayReq
  | pdelayResp
  | pdelayFollowUp
  deriving DecidableEq, Repr

/-- A PTP message and what it tells the Link clerk (R414 to R416): the MAC that received it and how many root cycles ago its
start-frame delimiter came, its profile (true 802.1AS) and domain number, its kind and sequence number; the grandmaster
identity of the domain as the clerk knows it with this message, the time that the message carries, its correction added, in
64.32 ticks, and the clerk's rate estimate. -/
structure PtpReport where
  port     : Fin 2
  age      : Nat
  as_      : Bool
  number   : BitVec 8
  kind     : PtpKind
  seq      : BitVec 16
  gm       : Word64
  /-- the time of the origin or of the reception that it reports; of a one-step Pdelay_Resp the turnaround -/
  time     : BitVec 96
  /-- a two-step message, whose time follows in a Follow_Up -/
  twoStep  : Bool
  rate     : Word
  /-- announceReceiptTimeout of the domain, in ticks -/
  timeout  : Nat
  deriving DecidableEq, Repr

/-- The payload of QUEUE_CTL (R326): queue 0 to 7, or 8 for the Sorter host path. -/
structure QueueCtl where
  queue  : BitVec 8
  enable : BitVec 8
  ring   : Word64
  size   : Word
  cring  : Word64
  deriving DecidableEq, Repr

/-- What a port's training step found (R339). -/
structure TrainResult where
  ok       : Bool
  reversed : Bool
  polarity : BitVec 24
  deriving DecidableEq, Repr

/-- The memories protected by SECDED (R106): DRAM, the staging store, the tile banks (address tile × 2^21 + bank × 2^20 +
byte, bank 1 the activation bank), and the assembler's tables (R219; (handoff × 2 + slot) × 2^16 + byte). -/
inductive Space where
  | dram
  | stage
  | bank
  | table
  deriving DecidableEq, Repr

/-- A 64-bit word (byte address / 8) whose stored code word holds an error: one bit, or uncorrectable (R106, R107). -/
structure EccMark where
  space  : Space
  word   : Nat
  double : Bool
  deriving DecidableEq, Repr

/-- One device's snapshot record, 64 bytes (R363). -/
abbrev SnapRecord := List Byte

/-- What a host write carries: its value, and the W1C bits that hardware sets in the cycle of the write (R5). -/
structure HostWrite where
  value : BitVec 64
  sets  : Word
  deriving DecidableEq, Repr

/-- A host read: its width, and the events of an RC counter that fall in its cycle (R3, R5). -/
structure HostRead where
  width : Width
  inc   : BitVec 32
  deriving DecidableEq, Repr

/-- What the NoC did to the flits of a stream of the loader, image words first and state words after them: how many arrived with
a single-bit error, and the byte offset in the stream of the first word that arrived uncorrectable (R106, R107). -/
structure FlitErrors where
  fixed : Nat
  bad   : Option Nat
  deriving DecidableEq, Repr

/-- A copy instance that is complete: its number, the NoC flits of it that arrived with a single-bit error, and whether one
arrived uncorrectable (R106, R107). -/
structure CopyEnd where
  inst     : Nat
  nocFixed : Nat
  nocBad   : Bool
  deriving DecidableEq, Repr

/-- A refresh slot: its channel, whether the channel's MR4 readout is above 85 °C, the words of any memory whose stored code
words have come to hold an error, and what the NoC will do to the flits of the loader's next stream (R106, R114; log
entry 154). -/
structure RefreshSlot where
  channel : Fin 24
  hot     : Bool
  upsets  : List EccMark
  flits   : FlitErrors
  deriving DecidableEq, Repr

/-- A pop of a postmark: its MAC, and whether a frame of that MAC's transmit ring gets its stamp in the same cycle (R419). -/
structure PostmarkPop where
  mac   : Fin 2
  sends : Bool
  deriving DecidableEq, Repr

/-- What a rise of PORST_N finds: the straps RING_SLOT[2:0] (R473), and the bytes of the flash that an external programmer has
written since the last boot, by their addresses (R461). -/
structure PorstRise where
  slot    : BitVec 3
  flashed : List (Nat × Byte)
  deriving DecidableEq, Repr

/-- A host access to the window: its width (R3), and the value of a write. -/
structure WindowOp where
  width : Width
  value : Option Word
  deriving DecidableEq, Repr

/-- An error on a CAN bus: whether the controller was the transmitter, and which of ISO 11898-1's counting rules applies. -/
structure BusError where
  transmitting : Bool
  kind         : CanErr
  deriving DecidableEq, Repr

/-- A write of a W1C register: its value, and the bits that hardware sets in the cycle of the write (R5). -/
structure W1cWrite where
  value : Word
  sets  : Word
  deriving DecidableEq, Repr

/-- The job that an ABORT names, and the device that sent it (R351). -/
structure AbortedJob where
  source : Fin 8
  jobId  : BitVec 16
  deriving DecidableEq, Repr

/-- A port that loses block lock, and whether a neighbour's bypass has changed (R339, R367). -/
structure LockLoss where
  port   : Fin 2
  bypass : Bool
  deriving DecidableEq, Repr

/-- The commands and events of the block, in the order of spec/opcode_table.json. Each docstring names the row's rule. -/
inductive Instr where
  /-- HOST_REGISTER_WRITE (R3, R5) -/
  | hostRegisterWrite (off : BitVec 26) (width : Width) (value : HostWrite)
  /-- CLOSED_RANGE_ACCESS (R23) -/
  | closedRangeAccess (off : BitVec 26) (isWrite : Bool)
  /-- RC_READ (R3, R5) -/
  | rcRead (off : BitVec 26) (read : HostRead)
  /-- DAY_BOUNDARY (R15) -/
  | dayBoundary
  /-- OP_POINT_REQUEST (R14) -/
  | opPointRequest (by_ : Writer) (value : Word)
  /-- OP_POINT_CHANGE (R14) -/
  | opPointChange
  /-- INTERCALARY_SLOT_START (R312) -/
  | intercalarySlotStart
  /-- SOLVE_START (R220) -/
  | solveStart
  /-- SOLVE_PHASE_END (R220): `ecc` is the cycle of the phase at which an uncorrectable error is found (R231) -/
  | solvePhaseEnd (ecc : Option Nat)
  /-- QP_ITERATION_END (R224) -/
  | qpIterationEnd (ecc : Option Nat)
  /-- SOLVE_DEADLINE (R228) -/
  | solveDeadline
  /-- SOLVE_COMMIT (R234) -/
  | solveCommit
  /-- SOLVER_ENABLE (R235) -/
  | solverEnable (by_ : Writer)
  /-- SOLVER_DISABLE (R494) -/
  | solverDisable (by_ : Writer)
  /-- SOLVER_LIMIT_WRITE (R235): SLV_DEADLINE when `maxIter` is false, SLV_MAX_ITER when it is true -/
  | solverLimitWrite (by_ : Writer) (maxIter : Bool) (value : Word)
  /-- MODEL_LOAD (R215) -/
  | modelLoad (by_ : Writer) (value : Word)
  /-- LOAD_MODEL (R215) -/
  | loadModel (i : Issue) (addr : Word64)
  /-- MODEL_LOAD_COMPLETE (R214) -/
  | modelLoadComplete
  /-- REG_CMD_REGISTER (R57) -/
  | regCmdRegister (by_ : Writer)
  /-- REG_CMD_RETIRE (R64) -/
  | regCmdRetire (by_ : Writer) (handle : BitVec 6)
  /-- REGISTER (R57) -/
  | register (i : Issue) (addr : Word64)
  /-- RETIRE (R64) -/
  | retire (i : Issue) (handle : BitVec 8)
  /-- REGISTRATION_COMPLETE (R491) -/
  | registrationComplete
  /-- HANDLE_RETIRED (R64) -/
  | handleRetired (handle : Fin 64)
  /-- JOB_DOORBELL (R307) -/
  | jobDoorbell (queue : Fin 8) (tail : Word)
  /-- JOB_FETCH (R495) -/
  | jobFetch (queue : Fin 8)
  /-- STANDING_RELEASE (R306) -/
  | standingRelease (entry : Fin 16)
  /-- JOB_DISPATCH (R308) -/
  | jobDispatch
  /-- LOAD_START (R62) -/
  | loadStart
  /-- LOAD_COMPLETE (R66) -/
  | loadComplete
  /-- COPY_IN (R492): instance `inst` of schedule record `rec` of the job whose partition starts at column `col` -/
  | copyIn (col : Fin 12) (rec : Nat) (inst : Nat)
  /-- COPY_OUT (R492) -/
  | copyOut (col : Fin 12) (rec : Nat) (inst : Nat)
  /-- COMMIT (R100) -/
  | commit (col : Fin 12) (rec : Nat) (inst : Nat)
  /-- SEND (R488) -/
  | send (col : Fin 12) (rec : Nat) (inst : Nat)
  /-- ROUTE_DELIVERY (R34) -/
  | routeDelivery (col : Fin 12)
  /-- STAGE_START (R126) -/
  | stageStart (col : Fin 12) (rec : Nat) (inst : Nat)
  /-- STAGE_END (R137) -/
  | stageEnd (col : Fin 12) (tile : Nat)
  /-- COPY_COMPLETE (R492) -/
  | copyComplete (col : Fin 12) (rec : Nat) (copy : CopyEnd)
  /-- COPY_DUE (R36) -/
  | copyDue (col : Fin 12) (rec : Nat) (inst : Nat)
  /-- JOB_LAST_CYCLE (R37) -/
  | jobLastCycle (col : Fin 12)
  /-- JOB_END (R37) -/
  | jobEnd (col : Fin 12)
  /-- PARTITION_RELEASE (R37) -/
  | partitionRelease (col : Fin 12)
  /-- REFRESH (R114) -/
  | refresh (slot : RefreshSlot)
  /-- WINDOW_ACCESS (R115): window byte `off` -/
  | windowAccess (off : BitVec 24) (access : WindowOp)
  /-- MEM_TRAINING_COMPLETE (R445): the capacities found, GiB per channel, channels 0 to 23 -/
  | memTrainingComplete (caps : List Nat)
  /-- RECEIVER_ENABLE (R189) -/
  | receiverEnable (by_ : Writer) (rx : Fin 12) (value : Word)
  /-- STREAM_ENABLE (R189) -/
  | streamEnable (by_ : Writer) (stream : Fin 16) (value : Word)
  /-- CONTEXT_ENABLE (R171) -/
  | contextEnable (by_ : Writer) (ctx : Fin 16) (value : Word)
  /-- FRAME_START (R162) -/
  | frameStart (stream : Fin 16)
  /-- LINE_LANDED (R161): the pixels of one active line, right-justified as sent -/
  | lineLanded (stream : Fin 16) (pixels : List (BitVec 16)) (chk : PacketCheck)
  /-- EMBEDDED_LINE (R185) -/
  | embeddedLine (stream : Fin 16) (bytes : List Byte) (chk : PacketCheck)
  /-- FRAME_END (R164) -/
  | frameEnd (stream : Fin 16)
  /-- STRIPE_START (R168) -/
  | stripeStart (pipe : Fin 2)
  /-- STRIPE_END (R169) -/
  | stripeEnd (pipe : Fin 2)
  /-- ABSENT_TIMEOUT (R188) -/
  | absentTimeout (ctx : Fin 16)
  /-- SENSOR_REQ (R182) -/
  | sensorReq (i : Issue) (req : SensorRequest)
  /-- SENSOR_WRITE (R182) -/
  | sensorWrite (bus : Fin 4)
  /-- SENSOR_WRITE_COMPLETE (R183) -/
  | sensorWriteComplete (bus : Fin 4)
  /-- LATCH_POINT (R181) -/
  | latchPoint (ctx : Fin 16)
  /-- QUEUE_TAIL_WRITE (R191) -/
  | queueTailWrite (by_ : Writer) (queue : Fin 8) (value : Word)
  /-- QUEUE_ENABLE (R206) -/
  | queueEnable (by_ : Writer) (queue : Fin 8) (value : Word)
  /-- BATCH_STREAM_ENABLE (R206) -/
  | batchStreamEnable (by_ : Writer) (bs : Fin 4) (value : Word)
  /-- ENGINE_TAKE (R205) -/
  | engineTake
  /-- DECODE_END (R195) -/
  | decodeEnd (engine : Fin 8)
  /-- BUDGET_EXPIRY (R201) -/
  | budgetExpiry (engine : Fin 8)
  /-- BATCH_CLOSE (R196) -/
  | batchClose (bs : Fin 4)
  /-- MEASUREMENT_CUTOFF (R237) -/
  | measurementCutoff
  /-- SERVO_PERIOD_START (R259) -/
  | servoPeriodStart
  /-- SERVO_COMPUTE (R252) -/
  | servoCompute
  /-- TRACE_RECORD (R261) -/
  | traceRecord
  /-- SERVO_CHECK (R386): whether each channel's proof-axis command met its ROM value (R393) -/
  | servoCheck (proofEngine : Bool) (proofChecker : Bool)
  /-- COMMAND_RELEASE (R387) -/
  | commandRelease
  /-- SERVO_ENABLE (R254) -/
  | servoEnable (by_ : Writer) (value : Word)
  /-- SERVO_CONFIG_WRITE (R267): SRV_PERIOD when `limits` is false, SRV_LIMITS when it is true -/
  | servoConfigWrite (by_ : Writer) (limits : Bool) (value : Word)
  /-- AXIS_COMMIT (R265) -/
  | axisCommit (by_ : Writer) (axis : Fin 64) (value : Word)
  /-- FAULT_CLEAR (R243) -/
  | faultClear (by_ : Writer) (axis : Fin 64)
  /-- TRACE_ARM (R263) -/
  | traceArm (by_ : Writer)
  /-- TRACE_FORCE (R263) -/
  | traceForce (by_ : Writer)
  /-- TRACE_DATA_READ (R264) -/
  | traceDataRead (by_ : Writer)
  /-- SLOT_BOUNDARY (R272) -/
  | slotBoundary
  /-- UP_FRAME (R274): the code groups received, the delimiter first (R269), the bit-times from the down delimiter leaving
  to the up delimiter arriving (R281), and whether an uncorrectable error met the frame on its path to the latch (R238) -/
  | upFrame (lane : Fin 16) (groups : List (BitVec 10)) (rtd : BitVec 9) (eccBad : Bool)
  /-- LANE_ENABLE (R286) -/
  | laneEnable (by_ : Writer) (lane : Fin 16) (value : Word)
  /-- ENUM (R286) -/
  | enumLane (by_ : Writer) (lane : Fin 16)
  /-- SERVICE_REQUEST (R289) -/
  | serviceRequest (by_ : Writer) (lane : Fin 16) (value : Word)
  /-- SERVICE_TIMEOUT (R289) -/
  | serviceTimeout (lane : Fin 16)
  /-- CAN_RX_FRAME (R297): `age` ticks have passed since the start-of-frame edge (R296) -/
  | canRxFrame (ctl : Fin 4) (frame : CanFrame) (age : Nat)
  /-- CAN_TX_DONE (R296) -/
  | canTxDone (ctl : Fin 4) (age : Nat)
  /-- CAN_ARBITRATION_LOST (R294) -/
  | canArbitrationLost (ctl : Fin 4)
  /-- CAN_BUS_ERROR (R293) -/
  | canBusError (ctl : Fin 4) (error : BusError)
  /-- CAN_RECOVERY_COMPLETE (R293) -/
  | canRecoveryComplete (ctl : Fin 4)
  /-- CAN_RECOVER (R293) -/
  | canRecover (by_ : Writer) (ctl : Fin 4)
  /-- CAN_TX_REQUEST (R295) -/
  | canTxRequest (by_ : Writer) (ctl : Fin 4) (value : Word)
  /-- CAN_TX_ABORT (R294) -/
  | canTxAbort (by_ : Writer) (ctl : Fin 4) (value : Word)
  /-- BIT_TIMING_WRITE (R292): NBT when `data` is false, DBT when it is true -/
  | bitTimingWrite (by_ : Writer) (ctl : Fin 4) (data : Bool) (value : Word)
  /-- SET_DAY (R311) -/
  | setDay (i : Issue) (dayUs : Word) (slotUs : Word) (solverUs : Word)
  /-- SET_MODE (R310) -/
  | setMode (i : Issue) (mode : BitVec 8) (shares : List Byte)
  /-- SET_STANDING (R495) -/
  | setStanding (i : Issue) (entry : BitVec 8) (enable : BitVec 8) (client : BitVec 8) (addr : Word64)
  /-- READ_LEDGER (R328) -/
  | readLedger (i : Issue) (addr : Word64)
  /-- QUEUE_CTL (R328) -/
  | queueCtl (i : Issue) (q : QueueCtl)
  /-- SET_OP_POINT (R366) -/
  | setOpPoint (i : Issue) (point : BitVec 8)
  /-- CLOSE (R329) -/
  | close (i : Issue)
  /-- HANDOFF (R305) -/
  | handoff (i : Issue) (index : BitVec 8) (slot0 : Word64) (slot1 : Word64)
  /-- UPDATE_WRITE (R462) -/
  | updateWrite (i : Issue) (offset : Word) (addr : Word64) (len : Word)
  /-- UPDATE_COMMIT (R459) -/
  | updateCommit (i : Issue)
  /-- UPDATE_CONFIRM (R462) -/
  | updateConfirm (i : Issue)
  /-- READ_LOG (R497) -/
  | readLog (i : Issue) (first : Word) (count : BitVec 16) (addr : Word64)
  /-- FUSE_BLOW (R468) -/
  | fuseBlow (i : Issue) (field : BitVec 8) (slot : BitVec 8) (addr : Word64)
  /-- CORE_RESTART (R448) -/
  | coreRestart (i : Issue) (core : BitVec 8)
  /-- HEARTBEAT (R329) -/
  | heartbeat
  /-- HOST_LOST (R330) -/
  | hostLost
  /-- COUNTERFOIL_RUN_START (R373) -/
  | counterfoilRunStart
  /-- COUNTERFOIL_RUN_END (R373): whether an uncorrectable error was met in the local store (R374), and the words of the
  input slots, by address in the form of R178, that the run has read (R106, R108) -/
  | counterfoilRunEnd (ecc : Bool) (words : List Word64)
  /-- COMPARATOR_DECISION (R375) -/
  | comparatorDecision
  /-- BINDING_EXPIRY (R383) -/
  | bindingExpiry (k : Fin 16)
  /-- BINDING_ENABLE (R371) -/
  | bindingEnable (by_ : Writer) (k : Fin 16) (value : Word)
  /-- LATCH_CLEAR (R398) -/
  | latchClear (by_ : Writer) (value : W1cWrite)
  /-- SAFETY_FORCE (R394) -/
  | safetyForce (by_ : Writer)
  /-- TEN_ARM (R397) -/
  | tenArm (by_ : Writer) (value : Word)
  /-- SAFETY_CONFIG_WRITE (R402): SAF_SRV_CFG when `proof` is false, SAF_PROOF_CFG when it is true -/
  | safetyConfigWrite (by_ : Writer) (proof : Bool) (value : Word)
  /-- SAFETY_FRAME_REPEAT (R399) -/
  | safetyFrameRepeat
  /-- FLIT_RECEIVED (R336): port 0 EAST, 1 WEST -/
  | flitReceived (port : Fin 2) (flit : Flit)
  /-- ACK_TIMEOUT (R336) -/
  | ackTimeout (port : Fin 2)
  /-- TRAINING_STEP (R339) -/
  | trainingStep (port : Fin 2) (r : TrainResult)
  /-- PORT_ENABLE (R339) -/
  | portEnable (by_ : Writer) (port : Fin 2) (value : Word)
  /-- PORT_RETRAIN (R339) -/
  | portRetrain (by_ : Writer) (port : Fin 2)
  /-- RING_ENABLE (R368) -/
  | ringEnable (by_ : Writer) (value : Word)
  /-- RING_RESET_START (R341): by a write of RNG_CTL.RESET, or by both ports reaching ACTIVE -/
  | ringResetStart (byWrite : Option Writer)
  /-- RESET_TOKEN (R341): the master's time carried, the hop delays summed so far and the one measured here (units of
  0.625 ns), the slots of positions 0 to p − 1, whether the token comes from another master, and whether the probe
  round trips differed by more than 2 units (R343) -/
  | resetToken (time : Instant) (hopSum : Nat) (hop : BitVec 16) (slots : List (BitVec 3)) (probeBad : Bool)
      (masterOfs : BitVec 96) (masterRate : Word)
  /-- RING_RESET_TIMEOUT (R343) -/
  | ringResetTimeout
  /-- ARRIVE (R352) -/
  | arrive (seq : Word) (vote : BitVec 2)
  /-- RELEASE (R353) -/
  | release (seq : Word) (at_ : Instant) (vote : BitVec 2)
  /-- BARRIER_RELEASE (R344) -/
  | barrierRelease
  /-- BARRIER_TIMEOUT (R353) -/
  | barrierTimeout
  /-- BCAST (R351) -/
  | bcast (body : List Byte)
  /-- SNAP (R363): a write of RNG_CTL.SNAP at the master, or the message with its capture instant -/
  | snap (byWrite : Option Writer) (at_ : Instant)
  /-- COLLECT (R363) -/
  | collect (records : List SnapRecord)
  /-- ABORT (R354) -/
  | abort (job : AbortedJob) (cause : Byte)
  /-- READY (R356) -/
  | ready (peer : Fin 8) (channel : Fin 64) (inst : Nat)
  /-- RING_TRANSFER_MESSAGE (R358) -/
  | ringTransferMessage (peer : Fin 8) (channel : Fin 64) (inst : Nat) (payload : List Byte)
  /-- TICK_READ (R406) -/
  | tickRead (by_ : Writer)
  /-- TIME_STEP (R405): a write of TIM_STEP_HI -/
  | timeStep (by_ : Writer) (value : Word)
  /-- RATE_WRITE (R407) -/
  | rateWrite (by_ : Writer) (value : Word)
  /-- TIME_UPDATE_APPLY (R407) -/
  | timeUpdateApply
  /-- ETH_RX_FRAME (R411): the frame from its destination address, and the root cycles since the timestamp point -/
  | ethRxFrame (mac : Fin 2) (frame : List Byte) (age : Nat)
  /-- ETH_TX_FRAME (R413) -/
  | ethTxFrame (mac : Fin 2)
  /-- POSTMARK_POP (R419) -/
  | postmarkPop (by_ : Writer) (pop : PostmarkPop)
  /-- MAC_CTL_WRITE (R421) -/
  | macCtlWrite (by_ : Writer) (mac : Fin 2) (value : Word)
  /-- ETH_LINK_UP (R421) -/
  | ethLinkUp (mac : Fin 2)
  /-- PTP_MESSAGE (R415) -/
  | ptpMessage (r : PtpReport)
  /-- ANNOUNCE_TIMEOUT (R416) -/
  | announceTimeout
  /-- SLEW_END (R416) -/
  | slewEnd
  /-- PORST_RISE (R444): MASTER_SEL and RING_SLOT sampled (R473), and the bytes of the flash that an external programmer has
  written since the last boot (R461) -/
  | porstRise (masterSel : Bool) (rise : PorstRise)
  /-- PORST_FALL (R476) -/
  | porstFall
  /-- PLL_LOCK (R435) -/
  | pllLock
  /-- PLL_LOSS (R435) -/
  | pllLoss
  /-- SEQUENCE_SLOT (R428) -/
  | sequenceSlot
  /-- SYSRST (R440) -/
  | sysrst
  /-- VMON (R440): the monitor of R440's list, and its reading in mV -/
  | vmon (monitor : Fin 6) (mv : BitVec 16)
  /-- THERM (R440) -/
  | therm (sensor : Fin 24) (reading : BitVec 16)
  /-- WDT (R450) -/
  | wdt
  /-- PWR_RST_CMD (R440) -/
  | pwrRstCmd (by_ : Writer) (value : Word)
  /-- PCIE_RESET (R441) -/
  | pcieReset
  /-- RESET_RELEASE (R442) -/
  | resetRelease
  /-- TILE_GROUP_SWITCH (R432) -/
  | tileGroupSwitch (group : Fin 12)
  /-- TEMP_SAMPLE (R453) -/
  | tempSample (sensor : Fin 24) (reading : BitVec 16)
  /-- CORE_WATCHDOG_EXPIRY (R448) -/
  | coreWatchdogExpiry (core : Fin 4)
  /-- CORE_CTL_RESTART (R448) -/
  | coreCtlRestart (by_ : Writer) (value : Word)
  /-- CORE_RESUME (R448), and the bytes of the core's partition in the SRAM that have changed since its boot, by their offsets -/
  | coreResume (core : Fin 4) (changed : List (Nat × Byte))
  /-- EVENT_ACCEPT (R455) -/
  | eventAccept
  /-- HELLO (R464) -/
  | hello (side : Side) (kind : Byte) (nc : BitVec 128)
  /-- RESPONSE (R464) -/
  | response (side : Side) (mac : BitVec 256)
  /-- MGT_COMMAND_DATAGRAM (R465) -/
  | mgtCommandDatagram (datagram : List Byte)
  /-- MAINTENANCE_TIMEOUT (R466) -/
  | maintenanceTimeout
  /-- HELLO_LOCKOUT_END (R466) -/
  | helloLockoutEnd (side : Side)
  /-- LOSS_OF_BLOCK_LOCK (R339) -/
  | lossOfBlockLock (loss : LockLoss)
  /-- FIRMWARE_LOAD_END (R444) -/
  | firmwareLoadEnd
  deriving DecidableEq, Repr

end Sys2Proof
end

