-- ==== Sys2Proof/Machine/Tab.lean ====
section
/-! DEFINITION. Sparse tables: the one canonical form in which memories, registers and the numbered parts of the
machine are held. A table is a list of (key, value) pairs, keys strictly rising, with no entry equal to what its
default function gives for the key; so equal tables are equal lists. -/

namespace Sys2Proof.Machine

/-- A sparse table from natural numbers. -/
abbrev Tab (α : Type) := List (Nat × α)

/-- The value at `k`; an unlisted key reads as `d k`. -/
def tget {α : Type} (d : Nat → α) (t : Tab α) (k : Nat) : α :=
  match t with
  | [] => d k
  | (k', v) :: r => if k' = k then v else tget d r k

/-- Remove every entry at `k`. -/
def terase {α : Type} (k : Nat) (t : Tab α) : Tab α :=
  match t with
  | [] => []
  | (k', v) :: r => if k' = k then terase k r else (k', v) :: terase k r

/-- Put (k, v) before the first key above `k`. -/
def tinsert {α : Type} (k : Nat) (v : α) (t : Tab α) : Tab α :=
  match t with
  | [] => [(k, v)]
  | (k', v') :: r => if k < k' then (k, v) :: (k', v') :: r else (k', v') :: tinsert k v r

/-- Set the value at `k`, keeping the canonical form: writing the default removes the entry. -/
def tset {α : Type} [DecidableEq α] (d : Nat → α) (k : Nat) (v : α) (t : Tab α) : Tab α :=
  if v = d k then terase k t else tinsert k v (terase k t)

/-- Keys strictly rising. -/
def tsorted {α : Type} (t : Tab α) : Bool :=
  match t with
  | [] => true
  | (k, _) :: r => r.all (fun e => k < e.1) && tsorted r

/-- No entry equals its default. -/
def tnodefault {α : Type} [DecidableEq α] (d : Nat → α) (t : Tab α) : Bool :=
  t.all (fun e => e.2 ≠ d e.1)

/-- The canonical form. -/
def twf {α : Type} [DecidableEq α] (d : Nat → α) (t : Tab α) : Bool :=
  tsorted t && tnodefault d t

end Sys2Proof.Machine
end

