-- ==== Sys2Proof/Machine/Regs.lean ====
section
/-! DEFINITION. The register map: the BAR0 offset of every register of the manual under the manual's own name, and one
row of attributes for each (offset, how many, the reset value, which bits software writes and how). CAN FD memories,
the event log, the snapshot records, the fuse words and the version block are words of this map as well. -/

namespace Sys2Proof.Machine

namespace Reg

/-- FAB_ID (02_fabric_and_almanac): Format version, mesh size, enabled columns, grade -/
abbrev FAB_ID : Nat := 0x100000
/-- FAB_COL_MAP0 (02_fabric_and_almanac): Physical column of logical columns 0 to 7 -/
abbrev FAB_COL_MAP0 : Nat := 0x100004
/-- FAB_COL_MAP1 (02_fabric_and_almanac): Physical column of logical columns 8 to 11 in [15:0]; [31:16] reserved -/
abbrev FAB_COL_MAP1 : Nat := 0x100008
/-- FAB_OP_CTL (02_fabric_and_almanac): Requested fabric operating point -/
abbrev FAB_OP_CTL : Nat := 0x100010
/-- FAB_OP_STAT (02_fabric_and_almanac): Current operating point and pending change -/
abbrev FAB_OP_STAT : Nat := 0x100014
/-- FAB_REG_ADDR_LO (02_fabric_and_almanac): DRAM address of the image to register, bits [31:0]; a multiple of 64 -/
abbrev FAB_REG_ADDR_LO : Nat := 0x100020
/-- FAB_REG_ADDR_HI (02_fabric_and_almanac): DRAM address of the image to register, bits [63:32] -/
abbrev FAB_REG_ADDR_HI : Nat := 0x100024
/-- FAB_REG_CMD (02_fabric_and_almanac): Register or retire a handle -/
abbrev FAB_REG_CMD : Nat := 0x100028
/-- FAB_LOAD_STAT (02_fabric_and_almanac): Result of the last registration or load -/
abbrev FAB_LOAD_STAT : Nat := 0x100030
/-- FAB_LOAD_OFFSET (02_fabric_and_almanac): Image byte offset of the record or field that caused the last refusal or failure, under R489; 0xFFFF_FFFF when the cause lies in no byte of the image -/
abbrev FAB_LOAD_OFFSET : Nat := 0x100034
/-- FAB_LOAD_TIME (02_fabric_and_almanac): Duration of the last load in timebase ticks of 10 ns -/
abbrev FAB_LOAD_TIME : Nat := 0x100038
/-- FAB_HELD (02_fabric_and_almanac): Bit n set when logical column n is held; [31:12] reserved -/
abbrev FAB_HELD : Nat := 0x100040
/-- FAB_COLn_OWNER (02_fabric_and_almanac): Owner of logical column n -/
abbrev FAB_COLn_OWNER (n : Nat) : Nat := 0x100100 + 0x10 * n
/-- FAB_COLn_STALL (02_fabric_and_almanac): Fabric cycles held under R36 for the partition whose first column is n -/
abbrev FAB_COLn_STALL (n : Nat) : Nat := 0x100104 + 0x10 * n
/-- FAB_COLn_SAT (03_number_formats_and_quantisation): Saturation events of jobs whose partition begins at logical column n -/
abbrev FAB_COLn_SAT (n : Nat) : Nat := 0x100108 + 0x10 * n
/-- MEM_POP (04_scratchpad_and_dram): Trained population -/
abbrev MEM_POP : Nat := 0xD00000
/-- MEM_USABLE (04_scratchpad_and_dram): Data capacity in MiB, rounded down -/
abbrev MEM_USABLE : Nat := 0xD00004
/-- MEM_REGION_B (04_scratchpad_and_dram): The MiB that holds the first byte of region B, under R484; 0 when there is none -/
abbrev MEM_REGION_B : Nat := 0xD00008
/-- MEM_REF_STAT (04_scratchpad_and_dram): Bit n set while channel n (n = 0 to 23) refreshes at 1.952 µs; [31:24] reserved -/
abbrev MEM_REF_STAT : Nat := 0xD00010
/-- MEM_CE_COUNT (04_scratchpad_and_dram): Corrected single-bit errors -/
abbrev MEM_CE_COUNT : Nat := 0xD00020
/-- MEM_UE_COUNT (04_scratchpad_and_dram): Uncorrectable errors -/
abbrev MEM_UE_COUNT : Nat := 0xD00024
/-- MEM_CRCW_COUNT (04_scratchpad_and_dram): CRC_WEIGHT errors -/
abbrev MEM_CRCW_COUNT : Nat := 0xD00028
/-- MEM_ERR_ADDR_LO (04_scratchpad_and_dram): Captured address, bits [31:0] -/
abbrev MEM_ERR_ADDR_LO : Nat := 0xD00030
/-- MEM_ERR_ADDR_HI (04_scratchpad_and_dram): Captured address, bits [63:32] -/
abbrev MEM_ERR_ADDR_HI : Nat := 0xD00034
/-- MEM_ERR_INFO (04_scratchpad_and_dram): Captured error -/
abbrev MEM_ERR_INFO : Nat := 0xD00038
/-- MEM_WIN_PAGE (04_scratchpad_and_dram): Window target -/
abbrev MEM_WIN_PAGE : Nat := 0xD00040
/-- MEM_WIN_STAT (04_scratchpad_and_dram): Window access faults -/
abbrev MEM_WIN_STAT : Nat := 0xD00044
/-- CAM_RXr_CTL (07_camera_and_image_pipeline): Enable, lane count, deskew -/
abbrev CAM_RXr_CTL (r : Nat) : Nat := 0x300000 + 0x20 * r
/-- CAM_RXr_STAT (07_camera_and_image_pipeline): PHY and packet errors, CODE -/
abbrev CAM_RXr_STAT (r : Nat) : Nat := 0x300004 + 0x20 * r
/-- CAM_STRs_CTL (07_camera_and_image_pipeline): Enable, receiver, virtual channel, data type -/
abbrev CAM_STRs_CTL (s : Nat) : Nat := 0x300400 + 0x20 * s
/-- CAM_STRs_BUF (07_camera_and_image_pipeline): BUF_BASE, staging-store byte address -/
abbrev CAM_STRs_BUF (s : Nat) : Nat := 0x300404 + 0x20 * s
/-- CAM_STRs_GEOM (07_camera_and_image_pipeline): [31:16] PITCH / 64, [15:0] DEPTH -/
abbrev CAM_STRs_GEOM (s : Nat) : Nat := 0x300408 + 0x20 * s
/-- CAM_STRs_SIZE (07_camera_and_image_pipeline): [31:16] HEIGHT, [15:0] WIDTH -/
abbrev CAM_STRs_SIZE (s : Nat) : Nat := 0x30040C + 0x20 * s
/-- CAM_STRs_FRAME (07_camera_and_image_pipeline): Frame number of the last frame start -/
abbrev CAM_STRs_FRAME (s : Nat) : Nat := 0x300410 + 0x20 * s
/-- CAM_STRs_ERR (07_camera_and_image_pipeline): Stream errors, CODE -/
abbrev CAM_STRs_ERR (s : Nat) : Nat := 0x300414 + 0x20 * s
/-- ISP_PIPEp_STAT (07_camera_and_image_pipeline): [31] BUSY, [3:0] context in service -/
abbrev ISP_PIPEp_STAT (p : Nat) : Nat := 0x200000 + 0x8 * p
/-- ISP_PIPEp_SWITCH (07_camera_and_image_pipeline): Context switches under R169 -/
abbrev ISP_PIPEp_SWITCH (p : Nat) : Nat := 0x200004 + 0x8 * p
/-- ISP_CTXc_CTL (07_camera_and_image_pipeline): Enable, pipeline, mode, stream, CFA, stripe -/
abbrev ISP_CTXc_CTL (c : Nat) : Nat := 0x200100 + 0x20 * c
/-- ISP_CTXc_PARAM (07_camera_and_image_pipeline): Staging-store address of the parameter block -/
abbrev ISP_CTXc_PARAM (c : Nat) : Nat := 0x200104 + 0x20 * c
/-- ISP_CTXc_SENS (07_camera_and_image_pipeline): Sensor delay, latch point, bus -/
abbrev ISP_CTXc_SENS (c : Nat) : Nat := 0x200108 + 0x20 * c
/-- ISP_CTXc_FRZ (07_camera_and_image_pipeline): [27:24] FROZEN_COUNT, [15:0] ABSENT_MS -/
abbrev ISP_CTXc_FRZ (c : Nat) : Nat := 0x20010C + 0x20 * c
/-- ISP_CTXc_STAT (07_camera_and_image_pipeline): Sticky context flags, CODE -/
abbrev ISP_CTXc_STAT (c : Nat) : Nat := 0x200110 + 0x20 * c
/-- ISP_CTXc_FRAME (07_camera_and_image_pipeline): Frame number of the last committed frame -/
abbrev ISP_CTXc_FRAME (c : Nat) : Nat := 0x200114 + 0x20 * c
/-- ISP_CTXc_CORRUPT (07_camera_and_image_pipeline): Corrupt frames under R166 -/
abbrev ISP_CTXc_CORRUPT (c : Nat) : Nat := 0x200118 + 0x20 * c
/-- SRT_BSb_GEOM (08_sorter): [31:16] ROWS, 1 to 512; [15:0] ROW_LEN, 1 to 32 768 -/
abbrev SRT_BSb_GEOM (b : Nat) : Nat := 0x400000 + 0x20 * b
/-- SRT_BSb_CFG (08_sorter): Enable, FMT, FILL -/
abbrev SRT_BSb_CFG (b : Nat) : Nat := 0x400004 + 0x20 * b
/-- SRT_BSb_CLOSE (08_sorter): CLOSE_US, day offset in µs -/
abbrev SRT_BSb_CLOSE (b : Nat) : Nat := 0x400008 + 0x20 * b
/-- SRT_BSb_SLOT0 (08_sorter): Staging-store byte address of slot 0, a multiple of 64 -/
abbrev SRT_BSb_SLOT0 (b : Nat) : Nat := 0x40000C + 0x20 * b
/-- SRT_BSb_SLOT1 (08_sorter): Staging-store byte address of slot 1 -/
abbrev SRT_BSb_SLOT1 (b : Nat) : Nat := 0x400010 + 0x20 * b
/-- SRT_BSb_STAT (08_sorter): [23:16] CODE; [0] CFG_ERR, slot too small for R193 -/
abbrev SRT_BSb_STAT (b : Nat) : Nat := 0x400014 + 0x20 * b
/-- SRT_Qq_BASE_LO (08_sorter): DRAM ring address [31:0], a multiple of 32 -/
abbrev SRT_Qq_BASE_LO (q : Nat) : Nat := 0x400100 + 0x40 * q
/-- SRT_Qq_BASE_HI (08_sorter): DRAM ring address [63:32] -/
abbrev SRT_Qq_BASE_HI (q : Nat) : Nat := 0x400104 + 0x40 * q
/-- SRT_Qq_CTL (08_sorter): Enable, stream, SIZE -/
abbrev SRT_Qq_CTL (q : Nat) : Nat := 0x400108 + 0x40 * q
/-- SRT_Qq_TAIL (08_sorter): Next entry the submitter will write -/
abbrev SRT_Qq_TAIL (q : Nat) : Nat := 0x40010C + 0x40 * q
/-- SRT_Qq_HEAD (08_sorter): Next entry an engine will take -/
abbrev SRT_Qq_HEAD (q : Nat) : Nat := 0x400110 + 0x40 * q
/-- SRT_Qq_BUDGET (08_sorter): [31:24] MULT; [23:0] BUDGET_MIN in cycles -/
abbrev SRT_Qq_BUDGET (q : Nat) : Nat := 0x400114 + 0x40 * q
/-- SRT_Qq_AVG (08_sorter): A_q in cycles -/
abbrev SRT_Qq_AVG (q : Nat) : Nat := 0x400118 + 0x40 * q
/-- SRT_Qq_CORRUPT (08_sorter): Corrupt samples under R200 -/
abbrev SRT_Qq_CORRUPT (q : Nat) : Nat := 0x40011C + 0x40 * q
/-- SRT_Qq_HOSTED (08_sorter): Samples posted to the host path -/
abbrev SRT_Qq_HOSTED (q : Nat) : Nat := 0x400120 + 0x40 * q
/-- SRT_Qq_STAT (08_sorter): [23:16] CODE -/
abbrev SRT_Qq_STAT (q : Nat) : Nat := 0x400124 + 0x40 * q
/-- SRT_HP_CTL (08_sorter): Host-path enable, RET_Q, ring address -/
abbrev SRT_HP_CTL : Nat := 0x400300
/-- SRT_HP_HEAD (08_sorter): Next entry the host will read -/
abbrev SRT_HP_HEAD : Nat := 0x400304
/-- SRT_HP_TAIL (08_sorter): Next entry the device will write -/
abbrev SRT_HP_TAIL : Nat := 0x400308
/-- SRT_HP_DROP (08_sorter): Samples dropped under R203 -/
abbrev SRT_HP_DROP : Nat := 0x40030C
/-- SLV_CTL (09_assembler_and_dynamics_solver): Enable -/
abbrev SLV_CTL : Nat := 0x500000
/-- SLV_STAT (09_assembler_and_dynamics_solver): Busy, phase, enable result -/
abbrev SLV_STAT : Nat := 0x500004
/-- SLV_DEADLINE (09_assembler_and_dynamics_solver): [23:0] DEADLINE in 10 ns ticks; [31:24] reserved -/
abbrev SLV_DEADLINE : Nat := 0x500008
/-- SLV_MAX_ITER (09_assembler_and_dynamics_solver): [9:0] MAX_ITER; [31:10] reserved -/
abbrev SLV_MAX_ITER : Nat := 0x50000C
/-- SLV_MODEL_ADDR_LO (09_assembler_and_dynamics_solver): DRAM address of the model image, bits [31:0]; a multiple of 64 -/
abbrev SLV_MODEL_ADDR_LO : Nat := 0x500010
/-- SLV_MODEL_ADDR_HI (09_assembler_and_dynamics_solver): Bits [63:32] -/
abbrev SLV_MODEL_ADDR_HI : Nat := 0x500014
/-- SLV_MODEL_CMD (09_assembler_and_dynamics_solver): [0] LOAD; [31:1] reserved -/
abbrev SLV_MODEL_CMD : Nat := 0x500018
/-- SLV_MODEL_STAT (09_assembler_and_dynamics_solver): Model load result -/
abbrev SLV_MODEL_STAT : Nat := 0x50001C
/-- SLV_SOLVE (09_assembler_and_dynamics_solver): SOLVE of the last committed record -/
abbrev SLV_SOLVE : Nat := 0x500020
/-- SLV_LAST_CYCLES (09_assembler_and_dynamics_solver): Cycles from solve start to commit of the last record -/
abbrev SLV_LAST_CYCLES : Nat := 0x500024
/-- SLV_MAX_CYCLES (09_assembler_and_dynamics_solver): Largest such figure since last read -/
abbrev SLV_MAX_CYCLES : Nat := 0x500028
/-- SLV_EARLY_COUNT (09_assembler_and_dynamics_solver): Records with EARLY -/
abbrev SLV_EARLY_COUNT : Nat := 0x50002C
/-- SLV_STALE_COUNT (09_assembler_and_dynamics_solver): Records with STALE -/
abbrev SLV_STALE_COUNT : Nat := 0x500030
/-- SLV_INVALID_COUNT (09_assembler_and_dynamics_solver): Records with INVALID -/
abbrev SLV_INVALID_COUNT : Nat := 0x500034
/-- SLV_PIVOT_COUNT (09_assembler_and_dynamics_solver): Pivots floored, including those in abandoned solves -/
abbrev SLV_PIVOT_COUNT : Nat := 0x500038
/-- SLV_SAT_COUNT (09_assembler_and_dynamics_solver): Saturation events, including those in abandoned solves -/
abbrev SLV_SAT_COUNT : Nat := 0x50003C
/-- SLV_TABLE_REFUSED (09_assembler_and_dynamics_solver): Front slots not taken under R219 -/
abbrev SLV_TABLE_REFUSED : Nat := 0x500040
/-- SLV_ECC_COUNT (09_assembler_and_dynamics_solver): Errors under R231 -/
abbrev SLV_ECC_COUNT : Nat := 0x500044
/-- SRV_CTL (10_servo_engine): [31] ENABLE, at the next period start -/
abbrev SRV_CTL : Nat := 0x600000
/-- SRV_STAT (10_servo_engine): Running state, SOLVER_LOST, CODE -/
abbrev SRV_STAT : Nat := 0x600004
/-- SRV_PERIOD (10_servo_engine): [6:0] PERIOD_US -/
abbrev SRV_PERIOD : Nat := 0x600008
/-- SRV_LIMITS (10_servo_engine): [15:8] AGE_LIMIT, [7:0] INV_LIMIT -/
abbrev SRV_LIMITS : Nat := 0x60000C
/-- SRV_PERIOD_NUM (10_servo_engine): Periods since enable, wrapping -/
abbrev SRV_PERIOD_NUM : Nat := 0x600010
/-- SRV_REC_SOLVE (10_servo_engine): SOLVE of the last accepted record -/
abbrev SRV_REC_SOLVE : Nat := 0x600014
/-- SRV_INV_RUN (10_servo_engine): INV_RUN -/
abbrev SRV_INV_RUN : Nat := 0x600018
/-- SRV_SAT_COUNT (10_servo_engine): Saturation events -/
abbrev SRV_SAT_COUNT : Nat := 0x600020
/-- SRV_MISS_COUNT (10_servo_engine): Missing measurements, per axis and cutoff -/
abbrev SRV_MISS_COUNT : Nat := 0x600024
/-- SRV_REFUSED_COUNT (10_servo_engine): Records refused -/
abbrev SRV_REFUSED_COUNT : Nat := 0x600028
/-- SRV_TRC_CTL (10_servo_engine): ARM, FORCE, node count -/
abbrev SRV_TRC_CTL : Nat := 0x600100
/-- SRV_TRC_TRIG (10_servo_engine): [31:28] SRC -/
abbrev SRV_TRC_TRIG : Nat := 0x600104
/-- SRV_TRC_LEVEL (10_servo_engine): Signed level for node 0 -/
abbrev SRV_TRC_LEVEL : Nat := 0x600108
/-- SRV_TRC_POST (10_servo_engine): [12:0] POST -/
abbrev SRV_TRC_POST : Nat := 0x60010C
/-- SRV_TRC_STAT (10_servo_engine): Trace state -/
abbrev SRV_TRC_STAT : Nat := 0x600110
/-- SRV_TRC_STAMP_LO (10_servo_engine): Trigger period stamp, [31:0] -/
abbrev SRV_TRC_STAMP_LO : Nat := 0x600118
/-- SRV_TRC_STAMP_HI (10_servo_engine): Trigger period stamp, [63:32] -/
abbrev SRV_TRC_STAMP_HI : Nat := 0x60011C
/-- SRV_TRC_ADDR (10_servo_engine): [12:0] word index -/
abbrev SRV_TRC_ADDR : Nat := 0x600120
/-- SRV_TRC_DATA (10_servo_engine): Trace word under R264 -/
abbrev SRV_TRC_DATA : Nat := 0x600124
/-- SRV_TRC_NODEj (10_servo_engine): [9:4] AXIS, [3:0] SIG -/
abbrev SRV_TRC_NODEj (j : Nat) : Nat := 0x600140 + 0x4 * j
/-- SRV_AXISn_CTL (10_servo_engine): Mode, source, ramp, COMMIT -/
abbrev SRV_AXISn_CTL (n : Nat) : Nat := 0x601000 + 0x100 * n
/-- SRV_AXISn_STAT (10_servo_engine): Axis state -/
abbrev SRV_AXISn_STAT (n : Nat) : Nat := 0x601004 + 0x100 * n
/-- SRV_AXISn_BIND (10_servo_engine): Lane or CAN FD binding -/
abbrev SRV_AXISn_BIND (n : Nat) : Nat := 0x601008 + 0x100 * n
/-- SRV_AXISn_RAMP (10_servo_engine): [31:0] RAMP_STEP, unsigned, the whole word (R256) -/
abbrev SRV_AXISn_RAMP (n : Nat) : Nat := 0x60100C + 0x100 * n
/-- SRV_AXISn_SC_POS (10_servo_engine): Scaler, counts to POS block -/
abbrev SRV_AXISn_SC_POS (n : Nat) : Nat := 0x601010 + 0x100 * n
/-- SRV_AXISn_SC_VEL (10_servo_engine): Scaler, VEL measured to VEL block -/
abbrev SRV_AXISn_SC_VEL (n : Nat) : Nat := 0x601014 + 0x100 * n
/-- SRV_AXISn_SC_EP (10_servo_engine): Scaler, position error to Q1.15 -/
abbrev SRV_AXISn_SC_EP (n : Nat) : Nat := 0x601018 + 0x100 * n
/-- SRV_AXISn_SC_FFV (10_servo_engine): Scaler, VEL target to Q1.15 -/
abbrev SRV_AXISn_SC_FFV (n : Nat) : Nat := 0x60101C + 0x100 * n
/-- SRV_AXISn_SC_FFI (10_servo_engine): Scaler, TAU target to Q1.15 -/
abbrev SRV_AXISn_SC_FFI (n : Nat) : Nat := 0x601020 + 0x100 * n
/-- SRV_AXISn_SC_EXT (10_servo_engine): Scaler, VEL target to POS step per period -/
abbrev SRV_AXISn_SC_EXT (n : Nat) : Nat := 0x601024 + 0x100 * n
/-- SRV_AXISn_FEXP (10_servo_engine): [20:16] F_TAU, [12:8] F_POS, [4:0] F_VEL -/
abbrev SRV_AXISn_FEXP (n : Nat) : Nat := 0x601028 + 0x100 * n
/-- SRV_AXISn_LOC_POS (10_servo_engine): Local POS target, POS block -/
abbrev SRV_AXISn_LOC_POS (n : Nat) : Nat := 0x60102C + 0x100 * n
/-- SRV_AXISn_LOC_VEL (10_servo_engine): Local VEL target, VEL block -/
abbrev SRV_AXISn_LOC_VEL (n : Nat) : Nat := 0x601030 + 0x100 * n
/-- SRV_AXISn_LOC_TAU (10_servo_engine): Local TAU target, TAU block -/
abbrev SRV_AXISn_LOC_TAU (n : Nat) : Nat := 0x601034 + 0x100 * n
/-- SRV_AXISn_MISS (10_servo_engine): [7:0] MISS_LIMIT, in cutoffs or CAN FD runs -/
abbrev SRV_AXISn_MISS (n : Nat) : Nat := 0x601038 + 0x100 * n
/-- SRV_AXISn_Ss_B01 (10_servo_engine): [31:16] B0, [15:0] B1 -/
abbrev SRV_AXISn_Ss_B01 (n : Nat) (s : Nat) : Nat := 0x601040 + 0x100 * n + 0x20 * s
/-- SRV_AXISn_Ss_B23 (10_servo_engine): [31:16] B2, [15:0] B3 -/
abbrev SRV_AXISn_Ss_B23 (n : Nat) (s : Nat) : Nat := 0x601044 + 0x100 * n + 0x20 * s
/-- SRV_AXISn_Ss_A12 (10_servo_engine): [31:16] A1, [15:0] A2 -/
abbrev SRV_AXISn_Ss_A12 (n : Nat) (s : Nat) : Nat := 0x601048 + 0x100 * n + 0x20 * s
/-- SRV_AXISn_Ss_A3 (10_servo_engine): [31:16] A3, [8] ORDER, [2:0] SH -/
abbrev SRV_AXISn_Ss_A3 (n : Nat) (s : Nat) : Nat := 0x60104C + 0x100 * n + 0x20 * s
/-- SRV_AXISn_Ss_LIM (10_servo_engine): [31:16] U_MAX, [15:0] U_MIN -/
abbrev SRV_AXISn_Ss_LIM (n : Nat) (s : Nat) : Nat := 0x601050 + 0x100 * n + 0x20 * s
/-- SRV_AXISn_CMD (10_servo_engine): [15:0] command of the last period -/
abbrev SRV_AXISn_CMD (n : Nat) : Nat := 0x6010C0 + 0x100 * n
/-- SRV_LANEl_CTL (11_courier_lanes_and_can_fd): Enable, ENUM -/
abbrev SRV_LANEl_CTL (l : Nat) : Nat := 0x608000 + 0x40 * l
/-- SRV_LANEl_STAT (11_courier_lanes_and_can_fd): State, drives, faults -/
abbrev SRV_LANEl_STAT (l : Nat) : Nat := 0x608004 + 0x40 * l
/-- SRV_LANEl_RTD (11_courier_lanes_and_can_fd): [8:0] RTD in bit-times -/
abbrev SRV_LANEl_RTD (l : Nat) : Nat := 0x608008 + 0x40 * l
/-- SRV_LANEl_ID01 (11_courier_lanes_and_can_fd): [31:16] ID of drive 1, [15:0] ID of drive 0 -/
abbrev SRV_LANEl_ID01 (l : Nat) : Nat := 0x60800C + 0x40 * l
/-- SRV_LANEl_ID23 (11_courier_lanes_and_can_fd): Drives 3 and 2 -/
abbrev SRV_LANEl_ID23 (l : Nat) : Nat := 0x608010 + 0x40 * l
/-- SRV_LANEl_SVC (11_courier_lanes_and_can_fd): Request in the layout of SVC_DN; OP 0b11 discarded -/
abbrev SRV_LANEl_SVC (l : Nat) : Nat := 0x608014 + 0x40 * l
/-- SRV_LANEl_SVC_RES (11_courier_lanes_and_can_fd): [31] BUSY, [30] DONE, [29] TIMEOUT, [15:0] SVC_UP -/
abbrev SRV_LANEl_SVC_RES (l : Nat) : Nat := 0x608018 + 0x40 * l
/-- SRV_LANEl_UP_STAMP_LO (11_courier_lanes_and_can_fd): R283, [31:0] -/
abbrev SRV_LANEl_UP_STAMP_LO (l : Nat) : Nat := 0x60801C + 0x40 * l
/-- SRV_LANEl_UP_STAMP_HI (11_courier_lanes_and_can_fd): R283, [63:32] -/
abbrev SRV_LANEl_UP_STAMP_HI (l : Nat) : Nat := 0x608020 + 0x40 * l
/-- SRV_LANEl_CRC_ERR (11_courier_lanes_and_can_fd): Bad up frames, CRC -/
abbrev SRV_LANEl_CRC_ERR (l : Nat) : Nat := 0x608024 + 0x40 * l
/-- SRV_LANEl_CODE_ERR (11_courier_lanes_and_can_fd): Bad up frames, coding -/
abbrev SRV_LANEl_CODE_ERR (l : Nat) : Nat := 0x608028 + 0x40 * l
/-- SRV_LANEl_NO_UP (11_courier_lanes_and_can_fd): Slots under R284 -/
abbrev SRV_LANEl_NO_UP (l : Nat) : Nat := 0x60802C + 0x40 * l
/-- CAN_Cc_CTL (11_courier_lanes_and_can_fd): Control -/
abbrev CAN_Cc_CTL (c : Nat) : Nat := 0x700000 + 0x40000 * c
/-- CAN_Cc_STAT (11_courier_lanes_and_can_fd): State, overflows -/
abbrev CAN_Cc_STAT (c : Nat) : Nat := 0x700004 + 0x40000 * c
/-- CAN_Cc_NBT (11_courier_lanes_and_can_fd): [31:24] NBRP, [23:16] NTSEG1, [14:8] NTSEG2, [6:0] NSJW -/
abbrev CAN_Cc_NBT (c : Nat) : Nat := 0x700008 + 0x40000 * c
/-- CAN_Cc_DBT (11_courier_lanes_and_can_fd): [28:24] DBRP, [23] TDC, [21:16] DTSEG1, [12:8] DTSEG2, [4:0] DSJW -/
abbrev CAN_Cc_DBT (c : Nat) : Nat := 0x70000C + 0x40000 * c
/-- CAN_Cc_ERRCNT (11_courier_lanes_and_can_fd): [24:16] TEC, [7:0] REC -/
abbrev CAN_Cc_ERRCNT (c : Nat) : Nat := 0x700010 + 0x40000 * c
/-- CAN_Cc_TX_REQ (11_courier_lanes_and_can_fd): Bit b requests buffer b; reads pending -/
abbrev CAN_Cc_TX_REQ (c : Nat) : Nat := 0x700014 + 0x40000 * c
/-- CAN_Cc_TX_ABORT (11_courier_lanes_and_can_fd): Bit b aborts buffer b -/
abbrev CAN_Cc_TX_ABORT (c : Nat) : Nat := 0x700018 + 0x40000 * c
/-- CAN_Cc_TX_DONE (11_courier_lanes_and_can_fd): Bit b set when buffer b is sent -/
abbrev CAN_Cc_TX_DONE (c : Nat) : Nat := 0x70001C + 0x40000 * c
/-- CAN_Cc_RX_HEAD (11_courier_lanes_and_can_fd): [5:0] next entry software reads -/
abbrev CAN_Cc_RX_HEAD (c : Nat) : Nat := 0x700020 + 0x40000 * c
/-- CAN_Cc_RX_TAIL (11_courier_lanes_and_can_fd): [5:0] next entry the controller writes -/
abbrev CAN_Cc_RX_TAIL (c : Nat) : Nat := 0x700024 + 0x40000 * c
/-- CAN_Cc_TXE_HEAD (11_courier_lanes_and_can_fd): [4:0] next event entry software reads -/
abbrev CAN_Cc_TXE_HEAD (c : Nat) : Nat := 0x700028 + 0x40000 * c
/-- CAN_Cc_TXE_TAIL (11_courier_lanes_and_can_fd): [4:0] next event entry written -/
abbrev CAN_Cc_TXE_TAIL (c : Nat) : Nat := 0x70002C + 0x40000 * c
/-- CAN_Cc_REPLACED (11_courier_lanes_and_can_fd): Under R298 -/
abbrev CAN_Cc_REPLACED (c : Nat) : Nat := 0x700030 + 0x40000 * c
/-- CAN_Cc_RX_LOST (11_courier_lanes_and_can_fd): Under R297 -/
abbrev CAN_Cc_RX_LOST (c : Nat) : Nat := 0x700034 + 0x40000 * c
/-- CAN_Cc_BUSOFF_COUNT (11_courier_lanes_and_can_fd): Under R293 -/
abbrev CAN_Cc_BUSOFF_COUNT (c : Nat) : Nat := 0x700038 + 0x40000 * c
/-- CAN_Cc_FILTf_ID (11_courier_lanes_and_can_fd): [31] EN, [30] XTD, [28:0] FILT_ID -/
abbrev CAN_Cc_FILTf_ID (c : Nat) (f : Nat) : Nat := 0x700100 + 0x40000 * c + 0x8 * f
/-- CAN_Cc_FILTf_MASK (11_courier_lanes_and_can_fd): [28:0] MASK -/
abbrev CAN_Cc_FILTf_MASK (c : Nat) (f : Nat) : Nat := 0x700104 + 0x40000 * c + 0x8 * f
/-- CAN_Cc_AXIS_TABLE (11_courier_lanes_and_can_fd): 256 entries of 16 bytes -/
abbrev CAN_Cc_AXIS_TABLE (c : Nat) (i : Nat) : Nat := 0x701000 + 0x40000 * c + 0x4 * i
/-- CAN_Cc_TX_BUF (11_courier_lanes_and_can_fd): 32 entries of 80 bytes -/
abbrev CAN_Cc_TX_BUF (c : Nat) (i : Nat) : Nat := 0x702000 + 0x40000 * c + 0x4 * i
/-- CAN_Cc_RX_FIFO (11_courier_lanes_and_can_fd): 64 entries of 80 bytes -/
abbrev CAN_Cc_RX_FIFO (c : Nat) (i : Nat) : Nat := 0x703000 + 0x40000 * c + 0x4 * i
/-- CAN_Cc_TXE_FIFO (11_courier_lanes_and_can_fd): 32 entries of 16 bytes -/
abbrev CAN_Cc_TXE_FIFO (c : Nat) (i : Nat) : Nat := 0x705000 + 0x40000 * c + 0x4 * i
/-- DEV_ID (12_jobs_and_host_interface): [31:16] 0x8640, [3:0] grade as FAB_ID.GRADE -/
abbrev DEV_ID : Nat := 0x0
/-- DEV_STATUS (12_jobs_and_host_interface): Dispatcher state -/
abbrev DEV_STATUS : Nat := 0x4
/-- SESSION_STAT (12_jobs_and_host_interface): [31] OPEN, [29:28] KIND, [27] LEDGER_READ, [15:0] EPOCH, bits [15:0] of the ledger's 32-bit EPOCH (R320) -/
abbrev SESSION_STAT : Nat := 0x8
/-- HEARTBEAT (12_jobs_and_host_interface): Any write restarts the heartbeat timer -/
abbrev HEARTBEAT : Nat := 0xC
/-- HB_MS (12_jobs_and_host_interface): [9:0] timeout in ms; values below 10 act as 10, above 1 000 as 1 000 -/
abbrev HB_MS : Nat := 0x10
/-- DAY_NUM (12_jobs_and_host_interface): Day boundaries since start, wrapping -/
abbrev DAY_NUM : Nat := 0x14
/-- DAY_US (12_jobs_and_host_interface): Day length in effect -/
abbrev DAY_US : Nat := 0x18
/-- SLOT_US (12_jobs_and_host_interface): Intercalary slot in effect -/
abbrev SLOT_US : Nat := 0x1C
/-- SOLVER_US (12_jobs_and_host_interface): Solver period in effect -/
abbrev SOLVER_US : Nat := 0x20
/-- CMDQ_BASE_LO (12_jobs_and_host_interface): Command ring host address [31:0], a multiple of 64 -/
abbrev CMDQ_BASE_LO : Nat := 0x30
/-- CMDQ_BASE_HI (12_jobs_and_host_interface): [63:32] -/
abbrev CMDQ_BASE_HI : Nat := 0x34
/-- CMDQ_CTL (12_jobs_and_host_interface): [31] EN, [15:0] SIZE in entries -/
abbrev CMDQ_CTL : Nat := 0x38
/-- CMDQ_HEAD (12_jobs_and_host_interface): Next entry the Dispatcher fetches -/
abbrev CMDQ_HEAD : Nat := 0x3C
/-- CMPL_BASE_LO (12_jobs_and_host_interface): Command completion ring [31:0], a multiple of 64 -/
abbrev CMPL_BASE_LO : Nat := 0x40
/-- CMPL_BASE_HI (12_jobs_and_host_interface): [63:32]; the ring has CMDQ_CTL.SIZE entries of 32 bytes -/
abbrev CMPL_BASE_HI : Nat := 0x44
/-- CMPL_TAIL (12_jobs_and_host_interface): Next entry the Dispatcher writes -/
abbrev CMPL_TAIL : Nat := 0x48
/-- JQq_STAT (12_jobs_and_host_interface): [31] EN, [15:0] HEAD -/
abbrev JQq_STAT (q : Nat) : Nat := 0x100 + 0x10 * q
/-- JQq_DONE (12_jobs_and_host_interface): [15:0] JOB_ID of the last completion -/
abbrev JQq_DONE (q : Nat) : Nat := 0x104 + 0x10 * q
/-- JQq_DROP (12_jobs_and_host_interface): Jobs dropped under R331 -/
abbrev JQq_DROP (q : Nat) : Nat := 0x108 + 0x10 * q
/-- HOST_DISCARD (12_jobs_and_host_interface): Completions and results discarded under R331 -/
abbrev HOST_DISCARD : Nat := 0x200
/-- LOCK_SKIP (12_jobs_and_host_interface): Outputs skipped under R306 -/
abbrev LOCK_SKIP : Nat := 0x204
/-- CMDQ_TAIL (12_jobs_and_host_interface): Doorbell: next command entry written -/
abbrev CMDQ_TAIL : Nat := 0xF000
/-- CMPL_HEAD (12_jobs_and_host_interface): Doorbell: next completion entry the host reads -/
abbrev CMPL_HEAD : Nat := 0xF004
/-- JQq_TAIL (12_jobs_and_host_interface): Doorbell: next job descriptor written -/
abbrev JQq_TAIL (q : Nat) : Nat := 0xF010 + 0x8 * q
/-- JQq_CHEAD (12_jobs_and_host_interface): Doorbell: next job completion the host reads -/
abbrev JQq_CHEAD (q : Nat) : Nat := 0xF014 + 0x8 * q
/-- RNG_CTL (13_ring_and_determinism): Enable, reset, snapshot, EXPECT -/
abbrev RNG_CTL : Nat := 0x900000
/-- RNG_STAT (13_ring_and_determinism): Ring state, position, size, reason. Its reset is that of its fields, SIZE 1 (R369; log
entry 183) -/
abbrev RNG_STAT : Nat := 0x900004
/-- RNG_SLOT_MAP (13_ring_and_determinism): Position q in [4q+3:4q]: [3] valid, [2:0] slot -/
abbrev RNG_SLOT_MAP : Nat := 0x900008
/-- RNG_TIMING (13_ring_and_determinism): [31:16] hop delay to position p − 1 in units of 0.625 ns; [3:0] FINE -/
abbrev RNG_TIMING : Nat := 0x90000C
/-- RNG_BARRIER_TIMEOUT (13_ring_and_determinism): [15:0] BARRIER_TIMEOUT in µs -/
abbrev RNG_BARRIER_TIMEOUT : Nat := 0x900010
/-- RNG_PORT_OWNER (13_ring_and_determinism): [31] EAST held, [30] WEST held, [15:0] JOB_ID -/
abbrev RNG_PORT_OWNER : Nat := 0x900014
/-- RNG_BARRIER_SEQ (13_ring_and_determinism): Barriers released since the last ring reset -/
abbrev RNG_BARRIER_SEQ : Nat := 0x900018
/-- RNG_BARRIER_LATE (13_ring_and_determinism): Under R353 -/
abbrev RNG_BARRIER_LATE : Nat := 0x90001C
/-- RNG_RESET_COUNT (13_ring_and_determinism): Ring resets completed -/
abbrev RNG_RESET_COUNT : Nat := 0x900020
/-- RNG_Pp_CTL (13_ring_and_determinism): Port enable, retrain -/
abbrev RNG_Pp_CTL (p : Nat) : Nat := 0x900100 + 0x40 * p
/-- RNG_Pp_STAT (13_ring_and_determinism): Training state, lanes -/
abbrev RNG_Pp_STAT (p : Nat) : Nat := 0x900104 + 0x40 * p
/-- RNG_Pp_RETRY (13_ring_and_determinism): Retries under R336 -/
abbrev RNG_Pp_RETRY (p : Nat) : Nat := 0x900108 + 0x40 * p
/-- RNG_Pp_CRC_ERR (13_ring_and_determinism): Flits failing R335 -/
abbrev RNG_Pp_CRC_ERR (p : Nat) : Nat := 0x90010C + 0x40 * p
/-- RNG_Pp_RETRAIN (13_ring_and_determinism): Entries to RETRAIN -/
abbrev RNG_Pp_RETRAIN (p : Nat) : Nat := 0x900110 + 0x40 * p
/-- RNG_SNAPq (13_ring_and_determinism): 64-byte snapshot record of position q, under R363; master only -/
abbrev RNG_SNAPq (q : Nat) (i : Nat) : Nat := 0x900400 + 0x40 * q + 0x4 * i
/-- SAF_CTL (14_safety): [31] ENABLE RW; [30] FORCE W1S, reads 0 -/
abbrev SAF_CTL : Nat := 0xA00000
/-- SAF_LATCH (14_safety): Latch bits of R394; [31:12] reserved -/
abbrev SAF_LATCH : Nat := 0xA00004
/-- SAF_CMP_STAT (14_safety): Comparator state -/
abbrev SAF_CMP_STAT : Nat := 0xA00008
/-- SAF_TEN_ARM (14_safety): [15:0] arm TENn; reads the arms -/
abbrev SAF_TEN_ARM : Nat := 0xA0000C
/-- SAF_TEN_STAT (14_safety): [31:16] HELD, [15:0] output states -/
abbrev SAF_TEN_STAT : Nat := 0xA00010
/-- SAF_SF_CFG (14_safety): Safety frame -/
abbrev SAF_SF_CFG : Nat := 0xA00014
/-- SAF_SF_ID (14_safety): [31] XTD, [28:0] identifier -/
abbrev SAF_SF_ID : Nat := 0xA00018
/-- SAF_SF_SEQ (14_safety): SEQ of the last frame -/
abbrev SAF_SF_SEQ : Nat := 0xA0001C
/-- SAF_SRV_CFG (14_safety): [3:0] SRV_PERSIST -/
abbrev SAF_SRV_CFG : Nat := 0xA00020
/-- SAF_PROOF_CFG (14_safety): [7:0] PROOF_DAYS, values above 251 act as 251 -/
abbrev SAF_PROOF_CFG : Nat := 0xA00024
/-- SAF_DISAGREE_COUNT (14_safety): Under R379 -/
abbrev SAF_DISAGREE_COUNT : Nat := 0xA00030
/-- SAF_REPLAY_OK_COUNT (14_safety): Under R381 -/
abbrev SAF_REPLAY_OK_COUNT : Nat := 0xA00034
/-- SAF_SRV_DISAGREE_COUNT (14_safety): Under R387 -/
abbrev SAF_SRV_DISAGREE_COUNT : Nat := 0xA00038
/-- SAF_WARN_COUNT (14_safety): Under R390 -/
abbrev SAF_WARN_COUNT : Nat := 0xA0003C
/-- SAF_CHKk_CTL (14_safety): Binding control -/
abbrev SAF_CHKk_CTL (k : Nat) : Nat := 0xA00400 + 0x40 * k
/-- SAF_CHKk_CAM (14_safety): [15:0] bit c names context c -/
abbrev SAF_CHKk_CAM (k : Nat) : Nat := 0xA00404 + 0x40 * k
/-- SAF_CHKk_OFFSET (14_safety): First byte of the region in the slot, a multiple of 8 -/
abbrev SAF_CHKk_OFFSET (k : Nat) : Nat := 0xA00408 + 0x40 * k
/-- SAF_CHKk_LEN (14_safety): LEN in bytes -/
abbrev SAF_CHKk_LEN (k : Nat) : Nat := 0xA0040C + 0x40 * k
/-- SAF_CHKk_TOL (14_safety): TOL, FP32 -/
abbrev SAF_CHKk_TOL (k : Nat) : Nat := 0xA00410 + 0x40 * k
/-- SAF_CHKk_MAXOUT (14_safety): MAXOUT in elements or pixels -/
abbrev SAF_CHKk_MAXOUT (k : Nat) : Nat := 0xA00414 + 0x40 * k
/-- SAF_CHKk_GAP (14_safety): MAX_GAP_US -/
abbrev SAF_CHKk_GAP (k : Nat) : Nat := 0xA00418 + 0x40 * k
/-- SAF_CHKk_PROG_LO (14_safety): Program address [31:0], a multiple of 64 -/
abbrev SAF_CHKk_PROG_LO (k : Nat) : Nat := 0xA0041C + 0x40 * k
/-- SAF_CHKk_PROG_HI (14_safety): [63:32] -/
abbrev SAF_CHKk_PROG_HI (k : Nat) : Nat := 0xA00420 + 0x40 * k
/-- SAF_CHKk_PROOF_LO (14_safety): Proof block address [31:0], a multiple of 64 -/
abbrev SAF_CHKk_PROOF_LO (k : Nat) : Nat := 0xA00424 + 0x40 * k
/-- SAF_CHKk_PROOF_HI (14_safety): [63:32] -/
abbrev SAF_CHKk_PROOF_HI (k : Nat) : Nat := 0xA00428 + 0x40 * k
/-- SAF_CHKk_STAT (14_safety): Binding state -/
abbrev SAF_CHKk_STAT (k : Nat) : Nat := 0xA0042C + 0x40 * k
/-- SAF_CHKk_LAST_LO (14_safety): Timebase tick of the last release, [31:0] -/
abbrev SAF_CHKk_LAST_LO (k : Nat) : Nat := 0xA00430 + 0x40 * k
/-- SAF_CHKk_LAST_HI (14_safety): [63:32] -/
abbrev SAF_CHKk_LAST_HI (k : Nat) : Nat := 0xA00434 + 0x40 * k
/-- SAF_AXn_TOL (14_safety): [23:0] TOL_AX in units of 2^−23 -/
abbrev SAF_AXn_TOL (n : Nat) : Nat := 0xA01000 + 0x8 * n
/-- SAF_AXn_STAT (14_safety): [31] DISAGREE in the last period; [3:0] RUN -/
abbrev SAF_AXn_STAT (n : Nat) : Nat := 0xA01004 + 0x8 * n
/-- TIM_TICK_LO (15_time_and_ethernet): TICK [31:0]; latches under R406 -/
abbrev TIM_TICK_LO : Nat := 0x800000
/-- TIM_TICK_HI (15_time_and_ethernet): TICK [63:32] -/
abbrev TIM_TICK_HI : Nat := 0x800004
/-- TIM_NT_LO (15_time_and_ethernet): Integer part of NT, [31:0] -/
abbrev TIM_NT_LO : Nat := 0x800008
/-- TIM_NT_HI (15_time_and_ethernet): [63:32] -/
abbrev TIM_NT_HI : Nat := 0x80000C
/-- TIM_FRAC (15_time_and_ethernet): FRAC -/
abbrev TIM_FRAC : Nat := 0x800010
/-- TIM_RATE (15_time_and_ethernet): Signed RATE under R405 -/
abbrev TIM_RATE : Nat := 0x800014
/-- TIM_STEP_LO (15_time_and_ethernet): Step [31:0] -/
abbrev TIM_STEP_LO : Nat := 0x800018
/-- TIM_STEP_HI (15_time_and_ethernet): Step [63:32]; the write applies the step -/
abbrev TIM_STEP_HI : Nat := 0x80001C
/-- TIM_SWITCH_MAX (15_time_and_ethernet): [15:0] SWITCH_MAX in ns -/
abbrev TIM_SWITCH_MAX : Nat := 0x800020
/-- TIM_STAT (15_time_and_ethernet): Domain state -/
abbrev TIM_STAT : Nat := 0x800024
/-- TIM_DOMd_CFG (15_time_and_ethernet): [31] EN, [24] PROFILE (0 default, 1 802.1AS), [17:16] PORTS mask, [7:0] DOMAIN -/
abbrev TIM_DOMd_CFG (d : Nat) : Nat := 0x800030 + 0x10 * d
/-- TIM_DOMd_GM_LO (15_time_and_ethernet): Grandmaster identity [31:0] -/
abbrev TIM_DOMd_GM_LO (d : Nat) : Nat := 0x800034 + 0x10 * d
/-- TIM_DOMd_GM_HI (15_time_and_ethernet): [63:32] -/
abbrev TIM_DOMd_GM_HI (d : Nat) : Nat := 0x800038 + 0x10 * d
/-- TIM_DOMd_OFS (15_time_and_ethernet): Signed offset of the domain from NT, in 1/256 ns -/
abbrev TIM_DOMd_OFS (d : Nat) : Nat := 0x80003C + 0x10 * d
/-- ETH_Mm_CTL (15_time_and_ethernet): [31] EN, [30:28] SPEED, [15:0] MGT_PORT -/
abbrev ETH_Mm_CTL (m : Nat) : Nat := 0x801000 + 0x1000 * m
/-- ETH_Mm_TXCOR (15_time_and_ethernet): Signed TXCOR -/
abbrev ETH_Mm_TXCOR (m : Nat) : Nat := 0x801008 + 0x1000 * m
/-- ETH_Mm_RXCOR (15_time_and_ethernet): Signed RXCOR -/
abbrev ETH_Mm_RXCOR (m : Nat) : Nat := 0x80100C + 0x1000 * m
/-- ETH_Mm_PM_STAT (15_time_and_ethernet): Postmark queue state -/
abbrev ETH_Mm_PM_STAT (m : Nat) : Nat := 0x801010 + 0x1000 * m
/-- ETH_Mm_PM_POP (15_time_and_ethernet): Any write pops under R419 -/
abbrev ETH_Mm_PM_POP (m : Nat) : Nat := 0x801014 + 0x1000 * m
/-- ETH_Mm_PM_DATAi (15_time_and_ethernet): Words 0 to 5 of the popped entry -/
abbrev ETH_Mm_PM_DATAi (m : Nat) (i : Nat) : Nat := 0x801020 + 0x1000 * m + 0x4 * i
/-- ETH_Mm_PM_LOST (15_time_and_ethernet): Under R418 -/
abbrev ETH_Mm_PM_LOST (m : Nat) : Nat := 0x801040 + 0x1000 * m
/-- ETH_Mm_RX_OTHER (15_time_and_ethernet): Under R411 -/
abbrev ETH_Mm_RX_OTHER (m : Nat) : Nat := 0x801044 + 0x1000 * m
/-- ETH_Mm_RULE_DROP (15_time_and_ethernet): Under R412 -/
abbrev ETH_Mm_RULE_DROP (m : Nat) : Nat := 0x801048 + 0x1000 * m
/-- ETH_Mm_TX_DROP (15_time_and_ethernet): Under R413 -/
abbrev ETH_Mm_TX_DROP (m : Nat) : Nat := 0x80104C + 0x1000 * m
/-- ETH_Mm_TXR_BASE_LO (15_time_and_ethernet): Transmit ring host address [31:0], a multiple of 64 -/
abbrev ETH_Mm_TXR_BASE_LO (m : Nat) : Nat := 0x801050 + 0x1000 * m
/-- ETH_Mm_TXR_BASE_HI (15_time_and_ethernet): [63:32] -/
abbrev ETH_Mm_TXR_BASE_HI (m : Nat) : Nat := 0x801054 + 0x1000 * m
/-- ETH_Mm_TXR_CTL (15_time_and_ethernet): [31] EN, [15:0] SIZE in entries -/
abbrev ETH_Mm_TXR_CTL (m : Nat) : Nat := 0x801058 + 0x1000 * m
/-- ETH_Mm_TXR_HEAD (15_time_and_ethernet): Next entry the MAC fetches -/
abbrev ETH_Mm_TXR_HEAD (m : Nat) : Nat := 0x80105C + 0x1000 * m
/-- ETH_Mm_RULEr_MATCH (15_time_and_ethernet): [31] EN, [30] UDP, [15:0] ETYPE; r from 0 to 7 -/
abbrev ETH_Mm_RULEr_MATCH (m : Nat) (r : Nat) : Nat := 0x801080 + 0x1000 * m + 0x10 * r
/-- ETH_Mm_RULEr_PORT (15_time_and_ethernet): [15:0] UDP destination port -/
abbrev ETH_Mm_RULEr_PORT (m : Nat) (r : Nat) : Nat := 0x801084 + 0x1000 * m + 0x10 * r
/-- ETH_Mm_RULEr_SRT (15_time_and_ethernet): [10:8] QUEUE, [7:0] DECODE as in R191 -/
abbrev ETH_Mm_RULEr_SRT (m : Nat) (r : Nat) : Nat := 0x801088 + 0x1000 * m + 0x10 * r
/-- PWR_BOOT_STAT (16_power_clocks_and_reset): Boot stage -/
abbrev PWR_BOOT_STAT : Nat := 0xB00000
/-- PWR_RST_CAUSE (16_power_clocks_and_reset): Bits of R440; [31:8] reserved; kept through a warm reset -/
abbrev PWR_RST_CAUSE : Nat := 0xB00004
/-- PWR_RST_CFG (16_power_clocks_and_reset): [0] PCIE_FULL -/
abbrev PWR_RST_CFG : Nat := 0xB00008
/-- PWR_RST_CMD (16_power_clocks_and_reset): Writing 0x5253_5443 asserts reset of source CMD; other values ignored -/
abbrev PWR_RST_CMD : Nat := 0xB0000C
/-- PWR_DOM_STAT0 (16_power_clocks_and_reset): Bit d set while domain d, 0 to 31, is on; bits 29 and 30 read 1 whenever their rail is up -/
abbrev PWR_DOM_STAT0 : Nat := 0xB00010
/-- PWR_DOM_STAT1 (16_power_clocks_and_reset): Bits [3:0] for domains 32 to 35; bits 2 and 3 read 1 whenever their rails are up -/
abbrev PWR_DOM_STAT1 : Nat := 0xB00014
/-- PWR_TG_CTL (16_power_clocks_and_reset): [11:0] tile group g on under R432 -/
abbrev PWR_TG_CTL : Nat := 0xB00018
/-- PWR_SEQ_TIME (16_power_clocks_and_reset): µs from PORST_N rise to the end of the last start sequence -/
abbrev PWR_SEQ_TIME : Nat := 0xB0001C
/-- PWR_BALLAST (16_power_clocks_and_reset): [11:0] bit g set while group g's ballast draws current -/
abbrev PWR_BALLAST : Nat := 0xB00020
/-- CLK_PLL_STAT (16_power_clocks_and_reset): [31] LOCKED; [15:0] lock count since POR -/
abbrev CLK_PLL_STAT : Nat := 0xB00100
/-- CLK_GATE (16_power_clocks_and_reset): [27:0] bit d set while internal domain d runs -/
abbrev CLK_GATE : Nat := 0xB00104
/-- CLK_EXT_STAT (16_power_clocks_and_reset): [11:0] bit d − 28 set while external domain d has a clock -/
abbrev CLK_EXT_STAT : Nat := 0xB00108
/-- CLK_XOVR0 (16_power_clocks_and_reset): R437, destination domains 0 to 31 -/
abbrev CLK_XOVR0 : Nat := 0xB00110
/-- CLK_XOVR1 (16_power_clocks_and_reset): [7:0] destination domains 32 to 39 -/
abbrev CLK_XOVR1 : Nat := 0xB00114
/-- CLK_XOVR_COUNT (16_power_clocks_and_reset): Pulses lost under R437 -/
abbrev CLK_XOVR_COUNT : Nat := 0xB00118
/-- MGT_CORE_CTL (17_management_and_security): [3:0] bit c restarts core c; reads 0 -/
abbrev MGT_CORE_CTL : Nat := 0xC00000
/-- MGT_CORE_STAT (17_management_and_security): Core states -/
abbrev MGT_CORE_STAT : Nat := 0xC00004
/-- MGT_CORE_RESTARTS (17_management_and_security): Core restarts of any cause -/
abbrev MGT_CORE_RESTARTS : Nat := 0xC00008
/-- MGT_CORE_LOST (17_management_and_security): Postbox writes discarded under R449 -/
abbrev MGT_CORE_LOST : Nat := 0xC0000C
/-- MGT_TEMP_WARN (17_management_and_security): [15:0] TEMP_WARN, signed, 0.125 °C -/
abbrev MGT_TEMP_WARN : Nat := 0xC00010
/-- MGT_TEMP_MAX (17_management_and_security): [20:16] hottest sensor, [15:0] its reading -/
abbrev MGT_TEMP_MAX : Nat := 0xC00014
/-- MGT_ACCEPT_NEXT (17_management_and_security): Next acceptance number -/
abbrev MGT_ACCEPT_NEXT : Nat := 0xC00020
/-- MGT_LOG_OLDEST (17_management_and_security): Oldest acceptance number held -/
abbrev MGT_LOG_OLDEST : Nat := 0xC00024
/-- MGT_EVT_LOST (17_management_and_security): Under R456 -/
abbrev MGT_EVT_LOST : Nat := 0xC00028
/-- MGT_TEMPi (17_management_and_security): [15:0] reading -/
abbrev MGT_TEMPi (i : Nat) : Nat := 0xC00100 + 0x4 * i
/-- MGT_VMONv (17_management_and_security): [15:0] mV -/
abbrev MGT_VMONv (v : Nat) : Nat := 0xC00180 + 0x4 * v
/-- MGT_PMONp (17_management_and_security): [19:0] count -/
abbrev MGT_PMONp (p : Nat) : Nat := 0xC001A0 + 0x4 * p
/-- MGT_FUSEw (17_management_and_security): R467 -/
abbrev MGT_FUSEw (w : Nat) : Nat := 0xC00200 + 0x4 * w
/-- MGT_LOG (17_management_and_security): Log records under R457 -/
abbrev MGT_LOG (i : Nat) : Nat := 0xC10000 + 0x4 * i
/-- ETH_TXR_TAIL (15_time_and_ethernet): Transmit ring tail doorbell -/
abbrev ETH_TXR_TAIL (m : Nat) : Nat := 0xF060 + 0x8 * m
/-- MGT_VERSION (17_management_and_security): Version block of core c, words at 0x00 to 0x3C (R452) -/
abbrev MGT_VERSION (c : Nat) (i : Nat) : Nat := 0x400 + 0x40 * c + 0x4 * i
/-- MGT_ROLLBACK (17_management_and_security): ROLLBACK count in [6:0] (R452) -/
abbrev MGT_ROLLBACK : Nat := 0x500

end Reg

/-- One row of the register map: the registers at base + i × stride + j × stride2 for i below count and j below count2.
`rw` are the bits a write stores, `w1c` the bits that a written 1 clears, `rc` a register that a read clears. -/
structure RegRow where
  base    : Nat
  count   : Nat
  stride  : Nat
  count2  : Nat
  stride2 : Nat
  count3  : Nat
  stride3 : Nat
  reset   : Word
  rw      : Word
  w1c     : Word
  rc      : Bool
  wo      : Bool
  deriving DecidableEq, Repr

/-- Whether `off` is one of the row's registers. -/
def RegRow.has (r : RegRow) (off : Nat) : Bool :=
  r.base ≤ off &&
    (let a := (off - r.base) / r.stride
     let x := (off - r.base) % r.stride
     let b := x / r.stride2
     let y := x % r.stride2
     let c := y / r.stride3
     a < r.count && b < r.count2 && c < r.count3 && y % r.stride3 = 0)

/-- The register rows of 02_fabric_and_almanac.md. -/
def regRowsFabricAnd : List RegRow := [
  ⟨0x100000, 1, 0x10000000, 1, 0x10000000, 1, 0x10000000, 0x0100CD81, 0x00000000, 0x00000000, false, false⟩,
  ⟨0x100004, 1, 0x10000000, 1, 0x10000000, 1, 0x10000000, 0x76543210, 0x00000000, 0x00000000, false, false⟩,
  ⟨0x100008, 1, 0x10000000, 1, 0x10000000, 1, 0x10000000, 0x0000BA98, 0x00000000, 0x00000000, false, false⟩,
  ⟨0x100010, 1, 0x10000000, 1, 0x10000000, 1, 0x10000000, 0x00000000, 0x00000003, 0x00000000, false, false⟩,
  ⟨0x100014, 1, 0x10000000, 1, 0x10000000, 1, 0x10000000, 0x00000000, 0x00000000, 0x00000000, false, false⟩,
  ⟨0x100020, 1, 0x10000000, 1, 0x10000000, 1, 0x10000000, 0x00000000, 0xFFFFFFFF, 0x00000000, false, false⟩,
  ⟨0x100024, 1, 0x10000000, 1, 0x10000000, 1, 0x10000000, 0x00000000, 0xFFFFFFFF, 0x00000000, false, false⟩,
  ⟨0x100028, 1, 0x10000000, 1, 0x10000000, 1, 0x10000000, 0x00000000, 0x00000000, 0x00000000, false, true⟩,
  ⟨0x100030, 1, 0x10000000, 1, 0x10000000, 1, 0x10000000, 0x00000000, 0x00000000, 0x00000000, false, false⟩,
  ⟨0x100034, 1, 0x10000000, 1, 0x10000000, 1, 0x10000000, 0x00000000, 0x00000000, 0x00000000, false, false⟩,
  ⟨0x100038, 1, 0x10000000, 1, 0x10000000, 1, 0x10000000, 0x00000000, 0x00000000, 0x00000000, false, false⟩,
  ⟨0x100040, 1, 0x10000000, 1, 0x10000000, 1, 0x10000000, 0x00000000, 0x00000000, 0x00000000, false, false⟩,
  ⟨0x100100, 1, 0x10000000, 1, 0x10000000, 12, 0x10, 0x00000000, 0x00000000, 0x00000000, false, false⟩,
  ⟨0x100104, 1, 0x10000000, 1, 0x10000000, 12, 0x10, 0x00000000, 0x00000000, 0x00000000, true, false⟩]

/-- The register rows of 03_number_formats_and_quantisation.md. -/
def regRowsNumberFormats : List RegRow := [
  ⟨0x100108, 1, 0x10000000, 1, 0x10000000, 12, 0x10, 0x00000000, 0x00000000, 0x00000000, true, false⟩]

/-- The register rows of 04_scratchpad_and_dram.md. -/
def regRowsScratchpadAnd : List RegRow := [
  ⟨0xD00000, 1, 0x10000000, 1, 0x10000000, 1, 0x10000000, 0x00000000, 0x00000000, 0x00000000, false, false⟩,
  ⟨0xD00004, 1, 0x10000000, 1, 0x10000000, 1, 0x10000000, 0x00000000, 0x00000000, 0x00000000, false, false⟩,
  ⟨0xD00008, 1, 0x10000000, 1, 0x10000000, 1, 0x10000000, 0x00000000, 0x00000000, 0x00000000, false, false⟩,
  ⟨0xD00010, 1, 0x10000000, 1, 0x10000000, 1, 0x10000000, 0x00000000, 0x00000000, 0x00000000, false, false⟩,
  ⟨0xD00020, 1, 0x10000000, 1, 0x10000000, 1, 0x10000000, 0x00000000, 0x00000000, 0x00000000, true, false⟩,
  ⟨0xD00024, 1, 0x10000000, 1, 0x10000000, 1, 0x10000000, 0x00000000, 0x00000000, 0x00000000, true, false⟩,
  ⟨0xD00028, 1, 0x10000000, 1, 0x10000000, 1, 0x10000000, 0x00000000, 0x00000000, 0x00000000, true, false⟩,
  ⟨0xD00030, 1, 0x10000000, 1, 0x10000000, 1, 0x10000000, 0x00000000, 0x00000000, 0x00000000, false, false⟩,
  ⟨0xD00034, 1, 0x10000000, 1, 0x10000000, 1, 0x10000000, 0x00000000, 0x00000000, 0x00000000, false, false⟩,
  ⟨0xD00038, 1, 0x10000000, 1, 0x10000000, 1, 0x10000000, 0x00000000, 0x00000000, 0x80000000, false, false⟩,
  ⟨0xD00040, 1, 0x10000000, 1, 0x10000000, 1, 0x10000000, 0x00000000, 0x000000FF, 0x00000000, false, false⟩,
  ⟨0xD00044, 1, 0x10000000, 1, 0x10000000, 1, 0x10000000, 0x00000000, 0x00000000, 0x00000003, false, false⟩]

/-- The register rows of 07_camera_and_image_pipeline.md. -/
def regRowsCameraAnd : List RegRow := [
  ⟨0x300000, 1, 0x10000000, 1, 0x10000000, 12, 0x20, 0x00000000, 0x8000000F, 0x00000000, false, false⟩,
  ⟨0x300004, 1, 0x10000000, 1, 0x10000000, 12, 0x20, 0x00000000, 0x00000000, 0x0000001F, false, false⟩,
  ⟨0x300400, 1, 0x10000000, 1, 0x10000000, 16, 0x20, 0x00000000, 0x800F0F3F, 0x00000000, false, false⟩,
  ⟨0x300404, 1, 0x10000000, 1, 0x10000000, 16, 0x20, 0x00000000, 0xFFFFFFFF, 0x00000000, false, false⟩,
  ⟨0x300408, 1, 0x10000000, 1, 0x10000000, 16, 0x20, 0x00000000, 0xFFFFFFFF, 0x00000000, false, false⟩,
  ⟨0x30040C, 1, 0x10000000, 1, 0x10000000, 16, 0x20, 0x00000000, 0xFFFFFFFF, 0x00000000, false, false⟩,
  ⟨0x300410, 1, 0x10000000, 1, 0x10000000, 16, 0x20, 0x00000000, 0x00000000, 0x00000000, false, false⟩,
  ⟨0x300414, 1, 0x10000000, 1, 0x10000000, 16, 0x20, 0x00000000, 0x00000000, 0x0000001F, false, false⟩,
  ⟨0x200000, 1, 0x10000000, 1, 0x10000000, 2, 0x8, 0x00000000, 0x00000000, 0x00000000, false, false⟩,
  ⟨0x200004, 1, 0x10000000, 1, 0x10000000, 2, 0x8, 0x00000000, 0x00000000, 0x00000000, true, false⟩,
  ⟨0x200100, 1, 0x10000000, 1, 0x10000000, 16, 0x20, 0x00000000, 0xE0FC01FF, 0x00000000, false, false⟩,
  ⟨0x200104, 1, 0x10000000, 1, 0x10000000, 16, 0x20, 0x00000000, 0xFFFFFFFF, 0x00000000, false, false⟩,
  ⟨0x200108, 1, 0x10000000, 1, 0x10000000, 16, 0x20, 0x00000000, 0xF800FFFF, 0x00000000, false, false⟩,
  ⟨0x20010C, 1, 0x10000000, 1, 0x10000000, 16, 0x20, 0x00000000, 0x0F00FFFF, 0x00000000, false, false⟩,
  ⟨0x200110, 1, 0x10000000, 1, 0x10000000, 16, 0x20, 0x00000000, 0x00000000, 0x0000001F, false, false⟩,
  ⟨0x200114, 1, 0x10000000, 1, 0x10000000, 16, 0x20, 0x00000000, 0x00000000, 0x00000000, false, false⟩,
  ⟨0x200118, 1, 0x10000000, 1, 0x10000000, 16, 0x20, 0x00000000, 0x00000000, 0x00000000, true, false⟩]

/-- The register rows of 08_sorter.md. -/
def regRowsSorter : List RegRow := [
  ⟨0x400000, 1, 0x10000000, 1, 0x10000000, 4, 0x20, 0x00000000, 0xFFFFFFFF, 0x00000000, false, false⟩,
  ⟨0x400004, 1, 0x10000000, 1, 0x10000000, 4, 0x20, 0x00000000, 0x8003FFFF, 0x00000000, false, false⟩,
  ⟨0x400008, 1, 0x10000000, 1, 0x10000000, 4, 0x20, 0x00000000, 0xFFFFFFFF, 0x00000000, false, false⟩,
  ⟨0x40000C, 1, 0x10000000, 1, 0x10000000, 4, 0x20, 0x00000000, 0xFFFFFFFF, 0x00000000, false, false⟩,
  ⟨0x400010, 1, 0x10000000, 1, 0x10000000, 4, 0x20, 0x00000000, 0xFFFFFFFF, 0x00000000, false, false⟩,
  ⟨0x400014, 1, 0x10000000, 1, 0x10000000, 4, 0x20, 0x00000000, 0x00000000, 0x00000001, false, false⟩,
  ⟨0x400100, 1, 0x10000000, 1, 0x10000000, 8, 0x40, 0x00000000, 0xFFFFFFFF, 0x00000000, false, false⟩,
  ⟨0x400104, 1, 0x10000000, 1, 0x10000000, 8, 0x40, 0x00000000, 0xFFFFFFFF, 0x00000000, false, false⟩,
  ⟨0x400108, 1, 0x10000000, 1, 0x10000000, 8, 0x40, 0x00000000, 0x8003FFFF, 0x00000000, false, false⟩,
  ⟨0x40010C, 1, 0x10000000, 1, 0x10000000, 8, 0x40, 0x00000000, 0xFFFFFFFF, 0x00000000, false, false⟩,
  ⟨0x400110, 1, 0x10000000, 1, 0x10000000, 8, 0x40, 0x00000000, 0x00000000, 0x00000000, false, false⟩,
  ⟨0x400114, 1, 0x10000000, 1, 0x10000000, 8, 0x40, 0x00000000, 0xFFFFFFFF, 0x00000000, false, false⟩,
  ⟨0x400118, 1, 0x10000000, 1, 0x10000000, 8, 0x40, 0x00000000, 0x00000000, 0x00000000, false, false⟩,
  ⟨0x40011C, 1, 0x10000000, 1, 0x10000000, 8, 0x40, 0x00000000, 0x00000000, 0x00000000, true, false⟩,
  ⟨0x400120, 1, 0x10000000, 1, 0x10000000, 8, 0x40, 0x00000000, 0x00000000, 0x00000000, true, false⟩,
  ⟨0x400124, 1, 0x10000000, 1, 0x10000000, 8, 0x40, 0x00000000, 0x00000000, 0x00000000, false, false⟩,
  ⟨0x400300, 1, 0x10000000, 1, 0x10000000, 1, 0x10000000, 0x00000000, 0x800007FF, 0x00000000, false, false⟩,
  ⟨0x400304, 1, 0x10000000, 1, 0x10000000, 1, 0x10000000, 0x00000000, 0xFFFFFFFF, 0x00000000, false, false⟩,
  ⟨0x400308, 1, 0x10000000, 1, 0x10000000, 1, 0x10000000, 0x00000000, 0x00000000, 0x00000000, false, false⟩,
  ⟨0x40030C, 1, 0x10000000, 1, 0x10000000, 1, 0x10000000, 0x00000000, 0x00000000, 0x00000000, true, false⟩]

/-- The register rows of 09_assembler_and_dynamics_solver.md. -/
def regRowsAssemblerAnd : List RegRow := [
  ⟨0x500000, 1, 0x10000000, 1, 0x10000000, 1, 0x10000000, 0x00000000, 0x80000000, 0x00000000, false, false⟩,
  ⟨0x500004, 1, 0x10000000, 1, 0x10000000, 1, 0x10000000, 0x00000000, 0x00000000, 0x00000000, false, false⟩,
  ⟨0x500008, 1, 0x10000000, 1, 0x10000000, 1, 0x10000000, 0x00000000, 0x00FFFFFF, 0x00000000, false, false⟩,
  ⟨0x50000C, 1, 0x10000000, 1, 0x10000000, 1, 0x10000000, 0x00000000, 0x000003FF, 0x00000000, false, false⟩,
  ⟨0x500010, 1, 0x10000000, 1, 0x10000000, 1, 0x10000000, 0x00000000, 0xFFFFFFFF, 0x00000000, false, false⟩,
  ⟨0x500014, 1, 0x10000000, 1, 0x10000000, 1, 0x10000000, 0x00000000, 0xFFFFFFFF, 0x00000000, false, false⟩,
  ⟨0x500018, 1, 0x10000000, 1, 0x10000000, 1, 0x10000000, 0x00000000, 0x00000000, 0x00000000, false, true⟩,
  ⟨0x50001C, 1, 0x10000000, 1, 0x10000000, 1, 0x10000000, 0x00000000, 0x00000000, 0x00000000, false, false⟩,
  ⟨0x500020, 1, 0x10000000, 1, 0x10000000, 1, 0x10000000, 0x00000000, 0x00000000, 0x00000000, false, false⟩,
  ⟨0x500024, 1, 0x10000000, 1, 0x10000000, 1, 0x10000000, 0x00000000, 0x00000000, 0x00000000, false, false⟩,
  ⟨0x500028, 1, 0x10000000, 1, 0x10000000, 1, 0x10000000, 0x00000000, 0x00000000, 0x00000000, true, false⟩,
  ⟨0x50002C, 1, 0x10000000, 1, 0x10000000, 1, 0x10000000, 0x00000000, 0x00000000, 0x00000000, true, false⟩,
  ⟨0x500030, 1, 0x10000000, 1, 0x10000000, 1, 0x10000000, 0x00000000, 0x00000000, 0x00000000, true, false⟩,
  ⟨0x500034, 1, 0x10000000, 1, 0x10000000, 1, 0x10000000, 0x00000000, 0x00000000, 0x00000000, true, false⟩,
  ⟨0x500038, 1, 0x10000000, 1, 0x10000000, 1, 0x10000000, 0x00000000, 0x00000000, 0x00000000, true, false⟩,
  ⟨0x50003C, 1, 0x10000000, 1, 0x10000000, 1, 0x10000000, 0x00000000, 0x00000000, 0x00000000, true, false⟩,
  ⟨0x500040, 1, 0x10000000, 1, 0x10000000, 1, 0x10000000, 0x00000000, 0x00000000, 0x00000000, true, false⟩,
  ⟨0x500044, 1, 0x10000000, 1, 0x10000000, 1, 0x10000000, 0x00000000, 0x00000000, 0x00000000, true, false⟩]

/-- The register rows of 10_servo_engine.md. -/
def regRowsServoEngine : List RegRow := [
  ⟨0x600000, 1, 0x10000000, 1, 0x10000000, 1, 0x10000000, 0x00000000, 0x80000000, 0x00000000, false, false⟩,
  ⟨0x600004, 1, 0x10000000, 1, 0x10000000, 1, 0x10000000, 0x00000000, 0x00000000, 0x40000001, false, false⟩,
  ⟨0x600008, 1, 0x10000000, 1, 0x10000000, 1, 0x10000000, 0x00000001, 0x0000007F, 0x00000000, false, false⟩,
  ⟨0x60000C, 1, 0x10000000, 1, 0x10000000, 1, 0x10000000, 0x00000101, 0x0000FFFF, 0x00000000, false, false⟩,
  ⟨0x600010, 1, 0x10000000, 1, 0x10000000, 1, 0x10000000, 0x00000000, 0x00000000, 0x00000000, false, false⟩,
  ⟨0x600014, 1, 0x10000000, 1, 0x10000000, 1, 0x10000000, 0x00000000, 0x00000000, 0x00000000, false, false⟩,
  ⟨0x600018, 1, 0x10000000, 1, 0x10000000, 1, 0x10000000, 0x00000000, 0x00000000, 0x00000000, false, false⟩,
  ⟨0x600020, 1, 0x10000000, 1, 0x10000000, 1, 0x10000000, 0x00000000, 0x00000000, 0x00000000, true, false⟩,
  ⟨0x600024, 1, 0x10000000, 1, 0x10000000, 1, 0x10000000, 0x00000000, 0x00000000, 0x00000000, true, false⟩,
  ⟨0x600028, 1, 0x10000000, 1, 0x10000000, 1, 0x10000000, 0x00000000, 0x00000000, 0x00000000, true, false⟩,
  ⟨0x600100, 1, 0x10000000, 1, 0x10000000, 1, 0x10000000, 0x00000000, 0x0000001F, 0x00000000, false, false⟩,
  ⟨0x600104, 1, 0x10000000, 1, 0x10000000, 1, 0x10000000, 0x00000000, 0xF0000000, 0x00000000, false, false⟩,
  ⟨0x600108, 1, 0x10000000, 1, 0x10000000, 1, 0x10000000, 0x00000000, 0xFFFFFFFF, 0x00000000, false, false⟩,
  ⟨0x60010C, 1, 0x10000000, 1, 0x10000000, 1, 0x10000000, 0x00000000, 0x00001FFF, 0x00000000, false, false⟩,
  ⟨0x600110, 1, 0x10000000, 1, 0x10000000, 1, 0x10000000, 0x00000000, 0x00000000, 0x00000000, false, false⟩,
  ⟨0x600118, 1, 0x10000000, 1, 0x10000000, 1, 0x10000000, 0x00000000, 0x00000000, 0x00000000, false, false⟩,
  ⟨0x60011C, 1, 0x10000000, 1, 0x10000000, 1, 0x10000000, 0x00000000, 0x00000000, 0x00000000, false, false⟩,
  ⟨0x600120, 1, 0x10000000, 1, 0x10000000, 1, 0x10000000, 0x00000000, 0x00001FFF, 0x00000000, false, false⟩,
  ⟨0x600124, 1, 0x10000000, 1, 0x10000000, 1, 0x10000000, 0x00000000, 0x00000000, 0x00000000, false, false⟩,
  ⟨0x600140, 1, 0x10000000, 1, 0x10000000, 16, 0x4, 0x00000000, 0x000003FF, 0x00000000, false, false⟩,
  ⟨0x601000, 1, 0x10000000, 1, 0x10000000, 64, 0x100, 0x00000000, 0x000000F7, 0x00000000, false, false⟩,
  ⟨0x601004, 1, 0x10000000, 1, 0x10000000, 64, 0x100, 0x00000000, 0x00000000, 0x80000001, false, false⟩,
  ⟨0x601008, 1, 0x10000000, 1, 0x10000000, 64, 0x100, 0x00000000, 0x8F3FFFFF, 0x00000000, false, false⟩,
  ⟨0x60100C, 1, 0x10000000, 1, 0x10000000, 64, 0x100, 0x00000000, 0xFFFFFFFF, 0x00000000, false, false⟩]

/-- The register rows of 10_servo_engine.md (continued). -/
def regRowsServoEngine1 : List RegRow := [
  ⟨0x601010, 1, 0x10000000, 1, 0x10000000, 64, 0x100, 0x00000000, 0xFFFFFFFF, 0x00000000, false, false⟩,
  ⟨0x601014, 1, 0x10000000, 1, 0x10000000, 64, 0x100, 0x00000000, 0xFFFFFFFF, 0x00000000, false, false⟩,
  ⟨0x601018, 1, 0x10000000, 1, 0x10000000, 64, 0x100, 0x00000000, 0xFFFFFFFF, 0x00000000, false, false⟩,
  ⟨0x60101C, 1, 0x10000000, 1, 0x10000000, 64, 0x100, 0x00000000, 0xFFFFFFFF, 0x00000000, false, false⟩,
  ⟨0x601020, 1, 0x10000000, 1, 0x10000000, 64, 0x100, 0x00000000, 0xFFFFFFFF, 0x00000000, false, false⟩,
  ⟨0x601024, 1, 0x10000000, 1, 0x10000000, 64, 0x100, 0x00000000, 0xFFFFFFFF, 0x00000000, false, false⟩,
  ⟨0x601028, 1, 0x10000000, 1, 0x10000000, 64, 0x100, 0x00000000, 0x001F1F1F, 0x00000000, false, false⟩,
  ⟨0x60102C, 1, 0x10000000, 1, 0x10000000, 64, 0x100, 0x00000000, 0xFFFFFFFF, 0x00000000, false, false⟩,
  ⟨0x601030, 1, 0x10000000, 1, 0x10000000, 64, 0x100, 0x00000000, 0xFFFFFFFF, 0x00000000, false, false⟩,
  ⟨0x601034, 1, 0x10000000, 1, 0x10000000, 64, 0x100, 0x00000000, 0xFFFFFFFF, 0x00000000, false, false⟩,
  ⟨0x601038, 1, 0x10000000, 1, 0x10000000, 64, 0x100, 0x00000000, 0x000000FF, 0x00000000, false, false⟩,
  ⟨0x601040, 1, 0x10000000, 64, 0x100, 3, 0x20, 0x00000000, 0xFFFFFFFF, 0x00000000, false, false⟩,
  ⟨0x601044, 1, 0x10000000, 64, 0x100, 3, 0x20, 0x00000000, 0xFFFFFFFF, 0x00000000, false, false⟩,
  ⟨0x601048, 1, 0x10000000, 64, 0x100, 3, 0x20, 0x00000000, 0xFFFFFFFF, 0x00000000, false, false⟩,
  ⟨0x60104C, 1, 0x10000000, 64, 0x100, 3, 0x20, 0x00000000, 0xFFFF0107, 0x00000000, false, false⟩,
  ⟨0x601050, 1, 0x10000000, 64, 0x100, 3, 0x20, 0x00000000, 0xFFFFFFFF, 0x00000000, false, false⟩,
  ⟨0x6010C0, 1, 0x10000000, 1, 0x10000000, 64, 0x100, 0x00000000, 0x00000000, 0x00000000, false, false⟩]

/-- The register rows of 11_courier_lanes_and_can_fd.md. -/
def regRowsCourierLanes : List RegRow := [
  ⟨0x608000, 1, 0x10000000, 1, 0x10000000, 16, 0x40, 0x00000000, 0x80000000, 0x00000000, false, false⟩,
  ⟨0x608004, 1, 0x10000000, 1, 0x10000000, 16, 0x40, 0x00000000, 0x00000000, 0x1F000000, false, false⟩,
  ⟨0x608008, 1, 0x10000000, 1, 0x10000000, 16, 0x40, 0x00000000, 0x00000000, 0x00000000, false, false⟩,
  ⟨0x60800C, 1, 0x10000000, 1, 0x10000000, 16, 0x40, 0x00000000, 0x00000000, 0x00000000, false, false⟩,
  ⟨0x608010, 1, 0x10000000, 1, 0x10000000, 16, 0x40, 0x00000000, 0x00000000, 0x00000000, false, false⟩,
  ⟨0x608014, 1, 0x10000000, 1, 0x10000000, 16, 0x40, 0x00000000, 0x00000000, 0x00000000, false, true⟩,
  ⟨0x608018, 1, 0x10000000, 1, 0x10000000, 16, 0x40, 0x00000000, 0x00000000, 0x00000000, false, false⟩,
  ⟨0x60801C, 1, 0x10000000, 1, 0x10000000, 16, 0x40, 0x00000000, 0x00000000, 0x00000000, false, false⟩,
  ⟨0x608020, 1, 0x10000000, 1, 0x10000000, 16, 0x40, 0x00000000, 0x00000000, 0x00000000, false, false⟩,
  ⟨0x608024, 1, 0x10000000, 1, 0x10000000, 16, 0x40, 0x00000000, 0x00000000, 0x00000000, true, false⟩,
  ⟨0x608028, 1, 0x10000000, 1, 0x10000000, 16, 0x40, 0x00000000, 0x00000000, 0x00000000, true, false⟩,
  ⟨0x60802C, 1, 0x10000000, 1, 0x10000000, 16, 0x40, 0x00000000, 0x00000000, 0x00000000, true, false⟩,
  ⟨0x700000, 1, 0x10000000, 1, 0x10000000, 4, 0x40000, 0x40000000, 0xF0000000, 0x00000000, false, false⟩,
  ⟨0x700004, 1, 0x10000000, 1, 0x10000000, 4, 0x40000, 0x00000000, 0x00000000, 0x30000000, false, false⟩,
  ⟨0x700008, 1, 0x10000000, 1, 0x10000000, 4, 0x40000, 0x00000000, 0xFFFF7F7F, 0x00000000, false, false⟩,
  ⟨0x70000C, 1, 0x10000000, 1, 0x10000000, 4, 0x40000, 0x00000000, 0x1FBF1F1F, 0x00000000, false, false⟩,
  ⟨0x700010, 1, 0x10000000, 1, 0x10000000, 4, 0x40000, 0x00000000, 0x00000000, 0x00000000, false, false⟩,
  ⟨0x700014, 1, 0x10000000, 1, 0x10000000, 4, 0x40000, 0x00000000, 0x00000000, 0x00000000, false, false⟩,
  ⟨0x700018, 1, 0x10000000, 1, 0x10000000, 4, 0x40000, 0x00000000, 0x00000000, 0x00000000, false, false⟩,
  ⟨0x70001C, 1, 0x10000000, 1, 0x10000000, 4, 0x40000, 0x00000000, 0x00000000, 0xFFFFFFFF, false, false⟩,
  ⟨0x700020, 1, 0x10000000, 1, 0x10000000, 4, 0x40000, 0x00000000, 0x0000003F, 0x00000000, false, false⟩,
  ⟨0x700024, 1, 0x10000000, 1, 0x10000000, 4, 0x40000, 0x00000000, 0x00000000, 0x00000000, false, false⟩,
  ⟨0x700028, 1, 0x10000000, 1, 0x10000000, 4, 0x40000, 0x00000000, 0x0000001F, 0x00000000, false, false⟩,
  ⟨0x70002C, 1, 0x10000000, 1, 0x10000000, 4, 0x40000, 0x00000000, 0x00000000, 0x00000000, false, false⟩]

/-- The register rows of 11_courier_lanes_and_can_fd.md (continued). -/
def regRowsCourierLanes1 : List RegRow := [
  ⟨0x700030, 1, 0x10000000, 1, 0x10000000, 4, 0x40000, 0x00000000, 0x00000000, 0x00000000, true, false⟩,
  ⟨0x700034, 1, 0x10000000, 1, 0x10000000, 4, 0x40000, 0x00000000, 0x00000000, 0x00000000, true, false⟩,
  ⟨0x700038, 1, 0x10000000, 1, 0x10000000, 4, 0x40000, 0x00000000, 0x00000000, 0x00000000, true, false⟩,
  ⟨0x700100, 1, 0x10000000, 4, 0x40000, 32, 0x8, 0x00000000, 0xDFFFFFFF, 0x00000000, false, false⟩,
  ⟨0x700104, 1, 0x10000000, 4, 0x40000, 32, 0x8, 0x00000000, 0x1FFFFFFF, 0x00000000, false, false⟩,
  ⟨0x701000, 1, 0x10000000, 4, 0x40000, 256, 0x10, 0x00000000, 0xFFFFFFFF, 0x00000000, false, false⟩,
  ⟨0x701004, 1, 0x10000000, 4, 0x40000, 256, 0x10, 0x00000000, 0xFFFFFFFF, 0x00000000, false, false⟩,
  ⟨0x701008, 1, 0x10000000, 4, 0x40000, 256, 0x10, 0x00000000, 0x80000000, 0x00000000, false, false⟩,
  ⟨0x70100C, 1, 0x10000000, 4, 0x40000, 256, 0x10, 0x00000000, 0x00000000, 0x00000000, false, false⟩,
  ⟨0x702000, 4, 0x40000, 32, 0x50, 1, 0x4, 0x00000000, 0xFFFFFFFF, 0x00000000, false, false⟩,
  ⟨0x702004, 4, 0x40000, 32, 0x50, 1, 0x4, 0x00000000, 0xC01F000F, 0x00000000, false, false⟩,
  ⟨0x702008, 4, 0x40000, 32, 0x50, 2, 0x4, 0x00000000, 0x00000000, 0x00000000, false, false⟩,
  ⟨0x702010, 4, 0x40000, 32, 0x50, 16, 0x4, 0x00000000, 0xFFFFFFFF, 0x00000000, false, false⟩,
  ⟨0x703000, 1, 0x10000000, 4, 0x40000, 1280, 0x4, 0x00000000, 0x00000000, 0x00000000, false, false⟩,
  ⟨0x705000, 1, 0x10000000, 4, 0x40000, 128, 0x4, 0x00000000, 0x00000000, 0x00000000, false, false⟩]

/-- The register rows of 12_jobs_and_host_interface.md. -/
def regRowsJobsAnd : List RegRow := [
  ⟨0x0, 1, 0x10000000, 1, 0x10000000, 1, 0x10000000, 0x86400001, 0x00000000, 0x00000000, false, false⟩,
  ⟨0x4, 1, 0x10000000, 1, 0x10000000, 1, 0x10000000, 0x00000000, 0x00000000, 0x00000000, false, false⟩,
  ⟨0x8, 1, 0x10000000, 1, 0x10000000, 1, 0x10000000, 0x00000000, 0x00000000, 0x00000000, false, false⟩,
  ⟨0xC, 1, 0x10000000, 1, 0x10000000, 1, 0x10000000, 0x00000000, 0x00000000, 0x00000000, false, true⟩,
  ⟨0x10, 1, 0x10000000, 1, 0x10000000, 1, 0x10000000, 0x00000064, 0x000003FF, 0x00000000, false, false⟩,
  ⟨0x14, 1, 0x10000000, 1, 0x10000000, 1, 0x10000000, 0x00000000, 0x00000000, 0x00000000, false, false⟩,
  ⟨0x18, 1, 0x10000000, 1, 0x10000000, 1, 0x10000000, 0x00004E20, 0x00000000, 0x00000000, false, false⟩,
  ⟨0x1C, 1, 0x10000000, 1, 0x10000000, 1, 0x10000000, 0x000007D0, 0x00000000, 0x00000000, false, false⟩,
  ⟨0x20, 1, 0x10000000, 1, 0x10000000, 1, 0x10000000, 0x0000007D, 0x00000000, 0x00000000, false, false⟩,
  ⟨0x30, 1, 0x10000000, 1, 0x10000000, 1, 0x10000000, 0x00000000, 0xFFFFFFFF, 0x00000000, false, false⟩,
  ⟨0x34, 1, 0x10000000, 1, 0x10000000, 1, 0x10000000, 0x00000000, 0xFFFFFFFF, 0x00000000, false, false⟩,
  ⟨0x38, 1, 0x10000000, 1, 0x10000000, 1, 0x10000000, 0x00000000, 0x8000FFFF, 0x00000000, false, false⟩,
  ⟨0x3C, 1, 0x10000000, 1, 0x10000000, 1, 0x10000000, 0x00000000, 0x00000000, 0x00000000, false, false⟩,
  ⟨0x40, 1, 0x10000000, 1, 0x10000000, 1, 0x10000000, 0x00000000, 0xFFFFFFFF, 0x00000000, false, false⟩,
  ⟨0x44, 1, 0x10000000, 1, 0x10000000, 1, 0x10000000, 0x00000000, 0xFFFFFFFF, 0x00000000, false, false⟩,
  ⟨0x48, 1, 0x10000000, 1, 0x10000000, 1, 0x10000000, 0x00000000, 0x00000000, 0x00000000, false, false⟩,
  ⟨0x100, 1, 0x10000000, 1, 0x10000000, 8, 0x10, 0x00000000, 0x00000000, 0x00000000, false, false⟩,
  ⟨0x104, 1, 0x10000000, 1, 0x10000000, 8, 0x10, 0x00000000, 0x00000000, 0x00000000, false, false⟩,
  ⟨0x108, 1, 0x10000000, 1, 0x10000000, 8, 0x10, 0x00000000, 0x00000000, 0x00000000, true, false⟩,
  ⟨0x200, 1, 0x10000000, 1, 0x10000000, 1, 0x10000000, 0x00000000, 0x00000000, 0x00000000, true, false⟩,
  ⟨0x204, 1, 0x10000000, 1, 0x10000000, 1, 0x10000000, 0x00000000, 0x00000000, 0x00000000, true, false⟩,
  ⟨0xF000, 1, 0x10000000, 1, 0x10000000, 1, 0x10000000, 0x00000000, 0x00000000, 0x00000000, false, true⟩,
  ⟨0xF004, 1, 0x10000000, 1, 0x10000000, 1, 0x10000000, 0x00000000, 0x00000000, 0x00000000, false, true⟩,
  ⟨0xF010, 1, 0x10000000, 1, 0x10000000, 8, 0x8, 0x00000000, 0x00000000, 0x00000000, false, true⟩]

/-- The register rows of 12_jobs_and_host_interface.md (continued). -/
def regRowsJobsAnd1 : List RegRow := [
  ⟨0xF014, 1, 0x10000000, 1, 0x10000000, 8, 0x8, 0x00000000, 0x00000000, 0x00000000, false, true⟩]

/-- The register rows of 13_ring_and_determinism.md. -/
def regRowsRingAnd : List RegRow := [
  ⟨0x900000, 1, 0x10000000, 1, 0x10000000, 1, 0x10000000, 0x20000000, 0xA000000F, 0x00000000, false, false⟩,
  ⟨0x900004, 1, 0x10000000, 1, 0x10000000, 1, 0x10000000, 0x00001000, 0x00000000, 0x00000000, false, false⟩,
  ⟨0x900008, 1, 0x10000000, 1, 0x10000000, 1, 0x10000000, 0x00000000, 0x00000000, 0x00000000, false, false⟩,
  ⟨0x90000C, 1, 0x10000000, 1, 0x10000000, 1, 0x10000000, 0x00000000, 0x00000000, 0x00000000, false, false⟩,
  ⟨0x900010, 1, 0x10000000, 1, 0x10000000, 1, 0x10000000, 0x000003E8, 0x0000FFFF, 0x00000000, false, false⟩,
  ⟨0x900014, 1, 0x10000000, 1, 0x10000000, 1, 0x10000000, 0x00000000, 0x00000000, 0x00000000, false, false⟩,
  ⟨0x900018, 1, 0x10000000, 1, 0x10000000, 1, 0x10000000, 0x00000000, 0x00000000, 0x00000000, false, false⟩,
  ⟨0x90001C, 1, 0x10000000, 1, 0x10000000, 1, 0x10000000, 0x00000000, 0x00000000, 0x00000000, true, false⟩,
  ⟨0x900020, 1, 0x10000000, 1, 0x10000000, 1, 0x10000000, 0x00000000, 0x00000000, 0x00000000, true, false⟩,
  ⟨0x900100, 1, 0x10000000, 1, 0x10000000, 2, 0x40, 0x00000000, 0x80000000, 0x00000000, false, false⟩,
  ⟨0x900104, 1, 0x10000000, 1, 0x10000000, 2, 0x40, 0x00000000, 0x00000000, 0x00000000, false, false⟩,
  ⟨0x900108, 1, 0x10000000, 1, 0x10000000, 2, 0x40, 0x00000000, 0x00000000, 0x00000000, true, false⟩,
  ⟨0x90010C, 1, 0x10000000, 1, 0x10000000, 2, 0x40, 0x00000000, 0x00000000, 0x00000000, true, false⟩,
  ⟨0x900110, 1, 0x10000000, 1, 0x10000000, 2, 0x40, 0x00000000, 0x00000000, 0x00000000, true, false⟩,
  ⟨0x900400, 1, 0x10000000, 8, 0x40, 16, 0x4, 0x00000000, 0x00000000, 0x00000000, false, false⟩]

/-- The register rows of 14_safety.md. -/
def regRowsSafety : List RegRow := [
  ⟨0xA00000, 1, 0x10000000, 1, 0x10000000, 1, 0x10000000, 0x00000000, 0x80000000, 0x00000000, false, false⟩,
  ⟨0xA00004, 1, 0x10000000, 1, 0x10000000, 1, 0x10000000, 0x00000800, 0x00000000, 0x00000FFF, false, false⟩,
  ⟨0xA00008, 1, 0x10000000, 1, 0x10000000, 1, 0x10000000, 0x80000000, 0x00000000, 0x00000000, false, false⟩,
  ⟨0xA0000C, 1, 0x10000000, 1, 0x10000000, 1, 0x10000000, 0x00000000, 0x00000000, 0x00000000, false, false⟩,
  ⟨0xA00010, 1, 0x10000000, 1, 0x10000000, 1, 0x10000000, 0x00000000, 0x00000000, 0x00000000, false, false⟩,
  ⟨0xA00014, 1, 0x10000000, 1, 0x10000000, 1, 0x10000000, 0x00000000, 0xF00000FF, 0x00000000, false, false⟩,
  ⟨0xA00018, 1, 0x10000000, 1, 0x10000000, 1, 0x10000000, 0x00000000, 0x9FFFFFFF, 0x00000000, false, false⟩,
  ⟨0xA0001C, 1, 0x10000000, 1, 0x10000000, 1, 0x10000000, 0x00000000, 0x00000000, 0x00000000, false, false⟩,
  ⟨0xA00020, 1, 0x10000000, 1, 0x10000000, 1, 0x10000000, 0x00000002, 0x0000000F, 0x00000000, false, false⟩,
  ⟨0xA00024, 1, 0x10000000, 1, 0x10000000, 1, 0x10000000, 0x00000032, 0x000000FF, 0x00000000, false, false⟩,
  ⟨0xA00030, 1, 0x10000000, 1, 0x10000000, 1, 0x10000000, 0x00000000, 0x00000000, 0x00000000, true, false⟩,
  ⟨0xA00034, 1, 0x10000000, 1, 0x10000000, 1, 0x10000000, 0x00000000, 0x00000000, 0x00000000, true, false⟩,
  ⟨0xA00038, 1, 0x10000000, 1, 0x10000000, 1, 0x10000000, 0x00000000, 0x00000000, 0x00000000, true, false⟩,
  ⟨0xA0003C, 1, 0x10000000, 1, 0x10000000, 1, 0x10000000, 0x00000000, 0x00000000, 0x00000000, true, false⟩,
  ⟨0xA00400, 1, 0x10000000, 1, 0x10000000, 16, 0x40, 0x00000000, 0x8FFC0000, 0x00000000, false, false⟩,
  ⟨0xA00404, 1, 0x10000000, 1, 0x10000000, 16, 0x40, 0x00000000, 0x0000FFFF, 0x00000000, false, false⟩,
  ⟨0xA00408, 1, 0x10000000, 1, 0x10000000, 16, 0x40, 0x00000000, 0xFFFFFFFF, 0x00000000, false, false⟩,
  ⟨0xA0040C, 1, 0x10000000, 1, 0x10000000, 16, 0x40, 0x00000000, 0xFFFFFFFF, 0x00000000, false, false⟩,
  ⟨0xA00410, 1, 0x10000000, 1, 0x10000000, 16, 0x40, 0x00000000, 0xFFFFFFFF, 0x00000000, false, false⟩,
  ⟨0xA00414, 1, 0x10000000, 1, 0x10000000, 16, 0x40, 0x00000000, 0xFFFFFFFF, 0x00000000, false, false⟩,
  ⟨0xA00418, 1, 0x10000000, 1, 0x10000000, 16, 0x40, 0x00000000, 0xFFFFFFFF, 0x00000000, false, false⟩,
  ⟨0xA0041C, 1, 0x10000000, 1, 0x10000000, 16, 0x40, 0x00000000, 0xFFFFFFFF, 0x00000000, false, false⟩,
  ⟨0xA00420, 1, 0x10000000, 1, 0x10000000, 16, 0x40, 0x00000000, 0xFFFFFFFF, 0x00000000, false, false⟩,
  ⟨0xA00424, 1, 0x10000000, 1, 0x10000000, 16, 0x40, 0x00000000, 0xFFFFFFFF, 0x00000000, false, false⟩]

/-- The register rows of 14_safety.md (continued). -/
def regRowsSafety1 : List RegRow := [
  ⟨0xA00428, 1, 0x10000000, 1, 0x10000000, 16, 0x40, 0x00000000, 0xFFFFFFFF, 0x00000000, false, false⟩,
  ⟨0xA0042C, 1, 0x10000000, 1, 0x10000000, 16, 0x40, 0x00000000, 0x00000000, 0x10000000, false, false⟩,
  ⟨0xA00430, 1, 0x10000000, 1, 0x10000000, 16, 0x40, 0x00000000, 0x00000000, 0x00000000, false, false⟩,
  ⟨0xA00434, 1, 0x10000000, 1, 0x10000000, 16, 0x40, 0x00000000, 0x00000000, 0x00000000, false, false⟩,
  ⟨0xA01000, 1, 0x10000000, 1, 0x10000000, 64, 0x8, 0x00000000, 0x00FFFFFF, 0x00000000, false, false⟩,
  ⟨0xA01004, 1, 0x10000000, 1, 0x10000000, 64, 0x8, 0x00000000, 0x00000000, 0x00000000, false, false⟩]

/-- The register rows of 15_time_and_ethernet.md. -/
def regRowsTimeAnd : List RegRow := [
  ⟨0x800000, 1, 0x10000000, 1, 0x10000000, 1, 0x10000000, 0x00000000, 0x00000000, 0x00000000, false, false⟩,
  ⟨0x800004, 1, 0x10000000, 1, 0x10000000, 1, 0x10000000, 0x00000000, 0x00000000, 0x00000000, false, false⟩,
  ⟨0x800008, 1, 0x10000000, 1, 0x10000000, 1, 0x10000000, 0x00000000, 0x00000000, 0x00000000, false, false⟩,
  ⟨0x80000C, 1, 0x10000000, 1, 0x10000000, 1, 0x10000000, 0x00000000, 0x00000000, 0x00000000, false, false⟩,
  ⟨0x800010, 1, 0x10000000, 1, 0x10000000, 1, 0x10000000, 0x00000000, 0x00000000, 0x00000000, false, false⟩,
  ⟨0x800014, 1, 0x10000000, 1, 0x10000000, 1, 0x10000000, 0x00000000, 0xFFFFFFFF, 0x00000000, false, false⟩,
  ⟨0x800018, 1, 0x10000000, 1, 0x10000000, 1, 0x10000000, 0x00000000, 0x00000000, 0x00000000, false, true⟩,
  ⟨0x80001C, 1, 0x10000000, 1, 0x10000000, 1, 0x10000000, 0x00000000, 0x00000000, 0x00000000, false, true⟩,
  ⟨0x800020, 1, 0x10000000, 1, 0x10000000, 1, 0x10000000, 0x000003E8, 0x0000FFFF, 0x00000000, false, false⟩,
  ⟨0x800024, 1, 0x10000000, 1, 0x10000000, 1, 0x10000000, 0x00000000, 0x00000000, 0xE0000000, false, false⟩,
  ⟨0x800030, 1, 0x10000000, 1, 0x10000000, 2, 0x10, 0x00000000, 0x810300FF, 0x00000000, false, false⟩,
  ⟨0x800034, 1, 0x10000000, 1, 0x10000000, 2, 0x10, 0x00000000, 0x00000000, 0x00000000, false, false⟩,
  ⟨0x800038, 1, 0x10000000, 1, 0x10000000, 2, 0x10, 0x00000000, 0x00000000, 0x00000000, false, false⟩,
  ⟨0x80003C, 1, 0x10000000, 1, 0x10000000, 2, 0x10, 0x00000000, 0x00000000, 0x00000000, false, false⟩,
  ⟨0x801000, 1, 0x10000000, 1, 0x10000000, 2, 0x1000, 0x00000000, 0xF000FFFF, 0x00000000, false, false⟩,
  ⟨0x801008, 1, 0x10000000, 1, 0x10000000, 2, 0x1000, 0x00000000, 0xFFFFFFFF, 0x00000000, false, false⟩,
  ⟨0x80100C, 1, 0x10000000, 1, 0x10000000, 2, 0x1000, 0x00000000, 0xFFFFFFFF, 0x00000000, false, false⟩,
  ⟨0x801010, 1, 0x10000000, 1, 0x10000000, 2, 0x1000, 0x00000000, 0x00000000, 0x80000000, false, false⟩,
  ⟨0x801014, 1, 0x10000000, 1, 0x10000000, 2, 0x1000, 0x00000000, 0x00000000, 0x00000000, false, true⟩,
  ⟨0x801020, 1, 0x10000000, 2, 0x1000, 6, 0x4, 0x00000000, 0x00000000, 0x00000000, false, false⟩,
  ⟨0x801040, 1, 0x10000000, 1, 0x10000000, 2, 0x1000, 0x00000000, 0x00000000, 0x00000000, true, false⟩,
  ⟨0x801044, 1, 0x10000000, 1, 0x10000000, 2, 0x1000, 0x00000000, 0x00000000, 0x00000000, true, false⟩,
  ⟨0x801048, 1, 0x10000000, 1, 0x10000000, 2, 0x1000, 0x00000000, 0x00000000, 0x00000000, true, false⟩,
  ⟨0x80104C, 1, 0x10000000, 1, 0x10000000, 2, 0x1000, 0x00000000, 0x00000000, 0x00000000, true, false⟩]

/-- The register rows of 15_time_and_ethernet.md (continued). -/
def regRowsTimeAnd1 : List RegRow := [
  ⟨0x801050, 1, 0x10000000, 1, 0x10000000, 2, 0x1000, 0x00000000, 0xFFFFFFFF, 0x00000000, false, false⟩,
  ⟨0x801054, 1, 0x10000000, 1, 0x10000000, 2, 0x1000, 0x00000000, 0xFFFFFFFF, 0x00000000, false, false⟩,
  ⟨0x801058, 1, 0x10000000, 1, 0x10000000, 2, 0x1000, 0x00000000, 0x8000FFFF, 0x00000000, false, false⟩,
  ⟨0x80105C, 1, 0x10000000, 1, 0x10000000, 2, 0x1000, 0x00000000, 0x00000000, 0x00000000, false, false⟩,
  ⟨0x801080, 1, 0x10000000, 2, 0x1000, 8, 0x10, 0x00000000, 0xC000FFFF, 0x00000000, false, false⟩,
  ⟨0x801084, 1, 0x10000000, 2, 0x1000, 8, 0x10, 0x00000000, 0x0000FFFF, 0x00000000, false, false⟩,
  ⟨0x801088, 1, 0x10000000, 2, 0x1000, 8, 0x10, 0x00000000, 0x000007FF, 0x00000000, false, false⟩,
  ⟨0xF060, 1, 0x10000000, 1, 0x10000000, 2, 0x8, 0x00000000, 0x00000000, 0x00000000, false, true⟩]

/-- The register rows of 16_power_clocks_and_reset.md. -/
def regRowsPowerClocks : List RegRow := [
  ⟨0xB00000, 1, 0x10000000, 1, 0x10000000, 1, 0x10000000, 0x00000000, 0x00000000, 0x00000000, false, false⟩,
  ⟨0xB00004, 1, 0x10000000, 1, 0x10000000, 1, 0x10000000, 0x00000001, 0x00000000, 0x000000FF, false, false⟩,
  ⟨0xB00008, 1, 0x10000000, 1, 0x10000000, 1, 0x10000000, 0x00000000, 0x00000001, 0x00000000, false, false⟩,
  ⟨0xB0000C, 1, 0x10000000, 1, 0x10000000, 1, 0x10000000, 0x00000000, 0x00000000, 0x00000000, false, true⟩,
  ⟨0xB00010, 1, 0x10000000, 1, 0x10000000, 1, 0x10000000, 0x60000000, 0x00000000, 0x00000000, false, false⟩,
  ⟨0xB00014, 1, 0x10000000, 1, 0x10000000, 1, 0x10000000, 0x0000000C, 0x00000000, 0x00000000, false, false⟩,
  ⟨0xB00018, 1, 0x10000000, 1, 0x10000000, 1, 0x10000000, 0x00000FFF, 0x00000FFF, 0x00000000, false, false⟩,
  ⟨0xB0001C, 1, 0x10000000, 1, 0x10000000, 1, 0x10000000, 0x00000000, 0x00000000, 0x00000000, false, false⟩,
  ⟨0xB00020, 1, 0x10000000, 1, 0x10000000, 1, 0x10000000, 0x00000000, 0x00000000, 0x00000000, false, false⟩,
  ⟨0xB00100, 1, 0x10000000, 1, 0x10000000, 1, 0x10000000, 0x00000000, 0x00000000, 0x00000000, false, false⟩,
  ⟨0xB00104, 1, 0x10000000, 1, 0x10000000, 1, 0x10000000, 0x00000000, 0x00000000, 0x00000000, false, false⟩,
  ⟨0xB00108, 1, 0x10000000, 1, 0x10000000, 1, 0x10000000, 0x00000000, 0x00000000, 0x00000000, false, false⟩,
  ⟨0xB00110, 1, 0x10000000, 1, 0x10000000, 1, 0x10000000, 0x00000000, 0x00000000, 0xFFFFFFFF, false, false⟩,
  ⟨0xB00114, 1, 0x10000000, 1, 0x10000000, 1, 0x10000000, 0x00000000, 0x00000000, 0x000000FF, false, false⟩,
  ⟨0xB00118, 1, 0x10000000, 1, 0x10000000, 1, 0x10000000, 0x00000000, 0x00000000, 0x00000000, true, false⟩]

/-- The register rows of 17_management_and_security.md. -/
def regRowsManagementAnd : List RegRow := [
  ⟨0xC00000, 1, 0x10000000, 1, 0x10000000, 1, 0x10000000, 0x00000000, 0x00000000, 0x00000000, false, false⟩,
  ⟨0xC00004, 1, 0x10000000, 1, 0x10000000, 1, 0x10000000, 0x00000000, 0x00000000, 0x00000000, false, false⟩,
  ⟨0xC00008, 1, 0x10000000, 1, 0x10000000, 1, 0x10000000, 0x00000000, 0x00000000, 0x00000000, true, false⟩,
  ⟨0xC0000C, 1, 0x10000000, 1, 0x10000000, 1, 0x10000000, 0x00000000, 0x00000000, 0x00000000, true, false⟩,
  ⟨0xC00010, 1, 0x10000000, 1, 0x10000000, 1, 0x10000000, 0x00000320, 0x0000FFFF, 0x00000000, false, false⟩,
  ⟨0xC00014, 1, 0x10000000, 1, 0x10000000, 1, 0x10000000, 0x00000000, 0x00000000, 0x00000000, false, false⟩,
  ⟨0xC00020, 1, 0x10000000, 1, 0x10000000, 1, 0x10000000, 0x00000000, 0x00000000, 0x00000000, false, false⟩,
  ⟨0xC00024, 1, 0x10000000, 1, 0x10000000, 1, 0x10000000, 0x00000000, 0x00000000, 0x00000000, false, false⟩,
  ⟨0xC00028, 1, 0x10000000, 1, 0x10000000, 1, 0x10000000, 0x00000000, 0x00000000, 0x00000000, true, false⟩,
  ⟨0xC00100, 1, 0x10000000, 1, 0x10000000, 24, 0x4, 0x00000000, 0x00000000, 0x00000000, false, false⟩,
  ⟨0xC00180, 1, 0x10000000, 1, 0x10000000, 6, 0x4, 0x00000000, 0x00000000, 0x00000000, false, false⟩,
  ⟨0xC001A0, 1, 0x10000000, 1, 0x10000000, 4, 0x4, 0x00000000, 0x00000000, 0x00000000, false, false⟩,
  ⟨0xC00200, 1, 0x10000000, 1, 0x10000000, 64, 0x4, 0x00000000, 0x00000000, 0x00000000, false, false⟩,
  ⟨0xC10000, 1, 0x10000000, 1, 0x10000000, 16384, 0x4, 0x00000000, 0x00000000, 0x00000000, false, false⟩,
  ⟨0x400, 1, 0x10000000, 4, 0x40, 16, 0x4, 0x00000000, 0x00000000, 0x00000000, false, false⟩,
  ⟨0x500, 1, 0x10000000, 1, 0x10000000, 1, 0x10000000, 0x00000000, 0x00000000, 0x00000000, false, false⟩]

/-- Every row of the register map. -/
def regRows : List RegRow :=
  regRowsFabricAnd ++
  regRowsNumberFormats ++
  regRowsScratchpadAnd ++
  regRowsCameraAnd ++
  regRowsSorter ++
  regRowsAssemblerAnd ++
  regRowsServoEngine ++
  regRowsServoEngine1 ++
  regRowsCourierLanes ++
  regRowsCourierLanes1 ++
  regRowsJobsAnd ++
  regRowsJobsAnd1 ++
  regRowsRingAnd ++
  regRowsSafety ++
  regRowsSafety1 ++
  regRowsTimeAnd ++
  regRowsTimeAnd1 ++
  regRowsPowerClocks ++
  regRowsManagementAnd

/-- The row that names the register at `off`, if any (R25). -/
def regRowAt (off : Nat) : Option RegRow := regRows.find? (fun r => r.has off)

/-- The Reset column of the register at `off`; 0 where no register is named. A register whose reset is 'Fuse' reads its
fuse value through the machine's own home of the fuses, words 0x00C0_0200 on (R467). -/
def regReset (off : Nat) : Word :=
  match regRowAt off with
  | some r => r.reset
  | none => 0

end Sys2Proof.Machine
end

