-- ==== Sys2Proof/Machine/State.lean ====
section
/-! DEFINITION. The state of the DZ8640 as plain data: every register (one home, `State.regs`), every memory, and the
working state of each block that the manual's rules speak of; the reasons a step can stop; and the state after reset. -/

namespace Sys2Proof.Machine

/-! ### Time -/

/-- The clock. `root` counts 4.8 GHz root cycles since the release of device reset (R12, R345); `tick` is TICK (R404),
`ofs` is OFS as 64.32 fixed point (R405). -/
structure Clock where
  root : Nat
  tick : Word64
  ofs  : BitVec 96
  deriving DecidableEq, Repr

/-! ### Errors held in memories (R106) -/

/-- A checked read: its bytes, and what the read found. -/
structure ReadResult where
  bytes  : List Byte
  /-- words with a corrected single-bit error (R106) -/
  fixed  : Nat
  /-- byte address of the first uncorrectable word (R107) -/
  bad    : Option Nat
  deriving DecidableEq, Repr

/-- The last write of a bank byte: the fabric cycle in which it was served, the port that wrote (0 array, 1 vector unit,
2 landing buffer, 3 copy engine, 4 host window, R95), and the value before that cycle (R96). -/
structure BankNote where
  cycle  : Nat
  port   : Nat
  before : Byte
  deriving DecidableEq, Repr

/-! ### What the device puts on its interfaces -/

/-- A ring control message (R351). -/
inductive RingMsg where
  | reset   (time : Instant) (hopSum : Nat) (slots : List (BitVec 3)) (ofs : BitVec 96) (rate : Word)
  | arrive  (seq : Word) (vote : BitVec 2)
  | release (seq : Word) (at_ : Instant) (vote : BitVec 2)
  | bcast   (body : List Byte)
  | snap    (at_ : Instant)
  | collect (records : List SnapRecord)
  | abort   (source : Nat) (jobId : BitVec 16) (cause : Byte)
  | ready   (dest : Nat) (channel : Nat) (inst : Nat)
  deriving DecidableEq, Repr

/-- One thing sent: an MSI-X vector (R327), a datagram of the management port (R465), a message of the PCIe capability
(R464), the 40 code groups of a down frame (R269, R272), the end of a lane's
transmission after so many characters of the frame in progress (R280), a CAN frame (R291), an Ethernet frame (R413), a ring control message, flit or transfer,
a sensor bus write (R182). -/
inductive Out where
  | msix (vector : Nat)
  | mgtDatagram (bytes : List Byte)
  | pcieMessage (bytes : List Byte)
  | downFrame (lane : Nat) (groups : List (BitVec 10))
  | downStop (lane : Nat) (chars : Nat)
  | canFrame (ctl : Nat) (frame : CanFrame)
  | ethFrame (mac : Nat) (bytes : List Byte)
  /-- a PTP message of the Link clerk: its kind, domain number and sequence number, and the network time that it carries or
  that the clerk records of its sending (R414, R417) -/
  | ptpMessage (mac : Nat) (kind : PtpKind) (number : BitVec 8) (seq : BitVec 16) (stamp : BitVec 96)
  | ringControl (port : Nat) (msg : RingMsg)
  | ringFlit (port : Nat) (bytes : List Byte)
  | ringTransfer (port : Nat) (peer channel inst : Nat) (payload : List Byte)
  | sensorBus (bus : Nat) (w : SensorReg)
  deriving DecidableEq, Repr

/-! ### The Almanac image (R38 to R55) -/

/-- The fields of the image header that the machine uses after registration (R38). -/
structure AlmHeader where
  imageLen  : Nat
  tileCount : Nat
  opPoint   : Nat
  ringSize  : Nat
  ringPos   : Nat
  schedLen  : Nat
  buildId   : Word64
  hdrCrc    : Word
  imgCrc    : Word
  deriving DecidableEq, Repr

/-- A descriptor of a stage program (R486): its type, its byte offset in the program and its bytes. Fields are read from
the bytes by the operator rules. -/
structure Desc where
  dtype  : Nat
  offset : Nat
  bytes  : List Byte
  deriving DecidableEq, Repr

/-- A tile record (R43). -/
structure TileRec where
  tile      : Nat
  offset    : Nat
  recLen    : Nat
  stageId   : Nat
  arrayFmt  : Nat
  vectorFmt : Nat
  wBase     : Nat
  wSize     : Nat
  aBase     : Nat
  aSize     : Nat
  progLen   : Nat
  hashSel   : Word
  arithCtl  : Word
  prog      : List Desc
  /-- whether the descriptors exactly fill PROG_LEN (R486) -/
  filled    : Bool
  deriving DecidableEq, Repr

/-- A route record (R47). -/
structure RouteRec where
  offset  : Nat
  id      : Nat
  srcTile : Nat
  srcBuf  : Nat
  dstBuf  : Nat
  dstTile : Nat
  width   : Nat
  latency : Nat
  deriving DecidableEq, Repr

/-- A schedule record (R48). -/
structure SchedRec where
  offset : Nat
  first  : Nat
  period : Nat
  repeat_ : Nat
  tile   : Nat
  action : Nat
  buf    : Nat
  desc   : Nat
  step   : Nat
  length : Nat
  due    : Nat
  deriving DecidableEq, Repr

/-- A boundary record (R53). -/
structure BoundRec where
  offset : Nat
  kind   : Nat
  index  : Nat
  base   : Nat
  len    : Nat
  deriving DecidableEq, Repr

/-- A state record (R55). -/
structure StateRec where
  offset : Nat
  tile   : Nat
  bank   : Nat
  base   : Nat
  len    : Nat
  save   : Nat
  deriving DecidableEq, Repr

/-- An image as the loader configures the tiles from it (R57, R58). -/
structure Image where
  hdr    : AlmHeader
  tiles  : List TileRec
  routes : List RouteRec
  sched  : List SchedRec
  bounds : List BoundRec
  states : List StateRec
  deriving DecidableEq, Repr

/-- What is recorded for a handle at registration (R57, R58). -/
structure HandleInfo where
  hdr      : AlmHeader
  addr     : Word64
  bounds   : List BoundRec
  /-- total LEN of the state records (R66) -/
  stateLen : Nat
  /-- the state records, for the overlap rule of R322 -/
  states   : List StateRec
  /-- a retirement waits for the last job (R64) -/
  retiring : Bool
  deriving DecidableEq, Repr

/-! ### Handoffs (R17, R100, R305) -/

/-- A two-slot handoff: its slot addresses in the form of R178, the number of commits, which slot is in front, the
instant of the last commit, and the locks on each slot (R306). -/
structure Handoff where
  slot0    : Word64
  slot1    : Word64
  commits  : Nat
  front    : Bool
  commitAt : Nat
  locks0   : Nat
  locks1   : Nat
  deriving DecidableEq, Repr

/-- A handoff nothing has committed to. Its first commit fills slot 0 (DESIGN CHOICE, log entry 5). -/
def Handoff.reset : Handoff := ⟨0, 0, 0, true, 0, 0, 0⟩

/-! ### Jobs (chapter 12) -/

/-- A declared input (R303): NEW, SRC, INDEX. -/
structure InputSpec where
  new   : Bool
  src   : Nat
  index : Nat
  deriving DecidableEq, Repr

/-- A job descriptor (R303). -/
structure JobDesc where
  jobId        : BitVec 16
  handle       : Fin 64
  baseCol      : Nat
  level        : Nat
  replay       : Bool
  lateOk       : Bool
  residentSafe : Bool
  nin          : Nat
  restartLimit : Nat
  deadlineUs   : Nat
  releaseUs    : Nat
  dramBase     : Word64
  stateBase    : Word64
  stateAlt     : Word64
  resultLen    : Nat
  inputs       : List InputSpec
  resultSrc    : Word64
  resultAddr   : Word64
  deriving DecidableEq, Repr

/-- A descriptor of zeros. -/
def JobDesc.zero : JobDesc :=
  ⟨0, 0, 0, 0, false, false, false, 0, 0, 0, 0, 0, 0, 0, 0, [], 0, 0⟩

/-- Bytes of a copy on their way: to a tile bank, or to the external side. -/
inductive Piece where
  | bank (tile bank addr : Nat) (bytes : List Byte)
  | ext (space : Space) (addr : Nat) (bytes : List Byte)
  deriving DecidableEq, Repr

/-- A copy in flight (R492): record and instance, what lands when it is complete, the partition cycle by which it must
have landed (R36). -/
structure Flight where
  rec_       : Nat
  inst       : Nat
  tile       : Nat
  pieces     : List Piece
  dueCycle   : Nat
  /-- a weight block: whether its CRC and BLOCK_LEN agree (R105) -/
  weight     : Option Bool
  /-- absolute DRAM address of the block's first payload byte (R485) -/
  extAddr    : Nat
  /-- the external side: 0 staging store, 1 DRAM region A, 2 DRAM region B, 3 another -/
  side       : Nat
  /-- the instants at which the tile's NoC port and the partition's share of that side can have moved it, the copies
  before it served first (R492) -/
  tileDone   : Nat
  sideDone   : Nat
  /-- ADVANCE: page-table address, positions written, and the largest position plus 1 (R153) -/
  advance    : Option (Nat × Nat × Nat)
  /-- a ring transfer: peer, channel, transfer instance, and whether it has been sent or has arrived (R356) -/
  ring       : Option (Nat × Nat × Nat × Bool)
  deriving DecidableEq, Repr

/-- An operator instance that runs (R137); it ends at a partition cycle. -/
structure OpFlight where
  tile  : Nat
  rec_  : Nat
  inst  : Nat
  endCycle : Nat
  deriving DecidableEq, Repr

/-- A word in flight on a route (R34, R488). -/
structure WordFlight where
  tile    : Nat
  bank    : Nat
  addr    : Nat
  data    : List Byte
  /-- partition cycle at which it is available -/
  cycle   : Nat
  deriving DecidableEq, Repr

/-- The run of one partition: from its image's load to its release. -/
structure Run where
  image    : Image
  /-- instant of partition cycle 0 -/
  cycle0   : Nat
  /-- root cycles held so far, and the instant the present hold began (R36) -/
  heldTot  : Nat
  heldFrom : Option Nat
  copies   : List Flight
  ops      : List OpFlight
  words    : List WordFlight
  /-- schedule instances already begun: (record, instance) -/
  begun    : List (Nat × Nat)
  /-- saturation events of the partition's tiles (R91) -/
  sat      : Nat
  /-- page tables that ADVANCE copies grew: (header address, positions counted, largest position plus 1) (R152, R153) -/
  grown    : List (Nat × Nat × Nat)
  /-- D and KV_LEN that each paged copy descriptor's first instance read from its page table: (tile, descriptor offset,
  D, KV_LEN) (R151) -/
  tables   : List (Nat × Nat × Nat × Nat)
  /-- receiving instances issued on each (peer, channel), and sending ones (R356) -/
  rxCount  : Tab Nat
  txCount  : Tab Nat
  /-- READY notes received: key peer × 64 + channel, count (R356) -/
  readyGot : Tab Nat
  /-- attention: V of each head as instance 0 found it, by record (R142) -/
  visible  : List (Nat × List Nat)
  /-- instant at which the state save is done (R66) -/
  saveAt   : Nat
  deriving DecidableEq, Repr

/-- Where a job stands. -/
inductive JobStage where
  /-- fetched or released, not yet dispatched -/
  | waiting
  /-- dispatched, its load waiting or running -/
  | loading
  /-- ring job, loaded, at its start barrier (R354) -/
  | startBarrier
  | running
  /-- last cycle reached, state being saved (R37) -/
  | saving
  /-- ended normally, its checked outputs not all decided (R317) -/
  | deciding
  /-- ring job at its accept barrier (R354) -/
  | acceptBarrier
  /-- failed, waiting for its restart (R313) -/
  | restart
  /-- a disagreement waits for its replay (R379) -/
  | replay
  deriving DecidableEq, Repr

/-- A job. -/
structure Job where
  uid        : Nat
  client     : Nat
  /-- host queue, or standing entry -/
  queue      : Option (Fin 8)
  entry      : Option Nat
  desc       : JobDesc
  stage      : JobStage
  /-- instant at which it became ready -/
  readyAt    : Option Nat
  /-- became ready before the present slot start (R312), or is slot work -/
  beforeSlot : Bool
  /-- inputs taken at dispatch: handoff key, slot (false 0, true 1) (R306) -/
  taken      : List (Nat × Bool)
  /-- handoff outputs already met in this run, and whether the back slot was then locked (R306) -/
  outs       : List (Nat × Bool)
  restarts   : Nat
  isReplay   : Bool
  /-- proof frame of this binding (R389) -/
  proof      : Option (Fin 16)
  /-- codes of its own run, bit code − 1 (R10) -/
  codes      : BitVec 16
  /-- state generation restored: false STATE_BASE, true STATE_ALT (R302) -/
  gen        : Bool
  /-- the SET_STANDING that made the job's entry, by its number in the entry -/
  setNo      : Nat
  dispatchAt : Nat
  firstWait  : Option Nat
  dispatchTick : Word64
  endTick    : Word64
  endAt      : Nat
  /-- columns held from baseCol -/
  width      : Nat
  held       : Bool
  run        : Option Run
  /-- bindings decided for this run, and whether each agreed -/
  decided    : List (Fin 16 × Bool)
  /-- own vote at the accept barrier (R354) -/
  vote       : BitVec 2
  /-- ports held: EAST, WEST (R359) -/
  ports      : Bool × Bool
  /-- a host loss fell while the job was on the device: its completion and result are discarded (R331) -/
  lost       : Bool
  deriving DecidableEq, Repr

/-- A standing-table entry. `gen` is its current state generation (R302). -/
structure Standing where
  enabled : Bool
  client  : Nat
  desc    : JobDesc
  gen     : Bool
  /-- the day of its last release: one release follows each day boundary -/
  relDay  : Option Word
  /-- how many SET_STANDING commands have set the entry -/
  setNo   : Nat
  deriving DecidableEq, Repr

/-- An empty standing entry. -/
def Standing.reset : Standing := ⟨false, 8, JobDesc.zero, false, none, 0⟩

/-- A host ring that QUEUE_CTL sets (R326): job rings 0 to 7, and 8 the Sorter host path. -/
structure RingCfg where
  ring  : Word64
  size  : Nat
  cring : Word64
  ctail : Nat
  deriving DecidableEq, Repr

/-- A ring not set up. -/
def RingCfg.reset : RingCfg := ⟨0, 0, 0, 0⟩

/-- One client's account of the dispatch ledger (R320, R321). -/
structure Account where
  waitUs       : Nat
  engineColUs  : Nat
  jobsDone     : Nat
  higherWaited : Nat
  restarts     : Nat
  replays      : Nat
  deadlines    : Nat
  dropped      : Nat
  hostDiscarded : Nat
  lastJobId    : BitVec 16
  deriving DecidableEq, Repr

/-- An empty account. -/
def Account.reset : Account := ⟨0, 0, 0, 0, 0, 0, 0, 0, 0, 0⟩

/-- The dispatch ledger's header and accounts (R320). -/
structure Ledger where
  seq       : Word
  epoch     : Word
  /-- TICK at the last ledger read -/
  readStamp : Word64
  lostStamp : Word64
  hostLost  : Bool
  closed    : Bool
  accounts  : Tab Account
  /-- (J, H) pairs already counted in HIGHER_WAITED, by job uid and run (R321) -/
  pairs     : List (Nat × Nat × Nat)
  deriving DecidableEq, Repr

/-- Pending day settings (R311) and mode (R310). -/
structure DaySettings where
  dayUs    : Nat
  slotUs   : Nat
  solverUs : Nat
  deriving DecidableEq, Repr

/-- The day's state: when it began, whether the slot runs, settings that wait for the boundary. -/
structure Day where
  /-- the day's start, the instant it names before any round-up to a fabric cycle (R344); a device that takes the ring's day
  may have it before its own root cycle 0 -/
  start      : Int
  inSlot     : Bool
  pending    : Option DaySettings
  pendMode   : Option (Bool × List Byte)
  /-- shares mode in effect, and the shares (R310) -/
  sharesMode : Bool
  shares     : List Byte
  /-- the instant at which shares mode was entered, and the engine time of each client since then in runs that have
  released their partition, root cycles × columns -/
  sharesAt   : Nat
  used       : Tab Nat
  /-- servo PERIOD_US in effect (R258); SRV_PERIOD holds the written value -/
  periodUs   : Nat
  deriving DecidableEq, Repr

/-- What the loader's stream engine serves, one at a time (R62, R491): a job's load, or a registration with the command
to complete. -/
inductive LoadReq where
  | load (uid : Nat)
  | registration (addr : Word64) (issue : Option Issue)
  deriving DecidableEq, Repr

/-- A command of the command ring, from its fetch to the writing of its completion entry, which goes in ring order
(R325): its TAG, and its entry once it has completed. -/
structure CmdSlot where
  issue : Issue
  op    : Nat
  entry : Option (List Byte)
  /-- a host loss fell while the command was pending: its completion is discarded (R331) -/
  lost  : Bool
  deriving DecidableEq, Repr

/-- The Dispatcher's state outside its registers. -/
structure Dispatcher where
  nextUid  : Nat
  jobs     : List Job
  handles  : Tab (Option HandleInfo)
  standing : Tab Standing
  handoffs : Tab Handoff
  /-- commits already taken by a queue or entry: key (source × 2^16 + handoff) (R306) -/
  takenBy  : Tab Nat
  rings    : Tab RingCfg
  loads    : List LoadReq
  /-- the request in service, the instant its service began and the instant it is done -/
  active   : Option (LoadReq × Nat × Nat)
  ledger   : Ledger
  /-- a READ_LEDGER has completed in this host session (R328) -/
  ledgerRead : Bool
  /-- host memory writes are discarded, from a host loss to the ledger read (R331) -/
  discarding : Bool
  /-- completions kept while the Dispatcher core is stopped (R449): ring key and bytes -/
  kept     : List (Nat × List Byte)
  /-- ring commands not yet completed, oldest first -/
  cmds     : List CmdSlot
  deriving DecidableEq, Repr

/-! ### Cameras and image pipelines (chapter 7) -/

/-- A frame being received on a stream: its number, the lines that have come, and its embedded line (R162, R163). -/
structure RxFrame where
  number   : Word
  stamp    : Word64
  lines    : Nat
  embedded : Option (List Byte)
  deriving DecidableEq, Repr

/-- A camera stream: its frame counter, the frame in progress, and the frame (number and stamp) and line that each slot of the
line ring holds (R161, R165). -/
structure Stream where
  started : Bool
  counter : Word
  frame   : Option RxFrame
  slots   : Tab (Option (Word × Word64 × Nat))
  deriving DecidableEq, Repr

/-- A stream that has had no frame. -/
def Stream.reset : Stream := ⟨false, 0, none, []⟩

/-- A frame in a context (R166 to R170): its parameter snapshot, its processing and what the record will carry. -/
structure CtxFrame where
  number    : Word
  stamp     : Word64
  param     : List Byte
  /-- lines that have come so far, those of them that did not land, and whether the frame has ended -/
  lines     : Nat
  gone      : List Nat
  ended     : Bool
  corrupt   : Bool
  overrun   : Bool
  noEmb     : Bool
  mismatch  : Bool
  late      : Bool
  captured  : List (Option Word)
  expected  : List Word
  /-- the CRC-32C of the landed words, before its final inversion (R186) -/
  crc       : Word
  /-- stripes ready and not begun, with the instants at which they became ready; stripes made ready or abandoned so far;
  the stripe in a pipeline -/
  ready     : List (Nat × Nat)
  decided   : Nat
  running   : Option Nat
  /-- whether a stripe has begun, and the outputs and taps then found locked (R306): 0 display to 6 tap 3 -/
  begun     : Bool
  skipped   : List Nat
  hist      : Tab Nat
  zones     : Tab Nat
  deriving DecidableEq, Repr

/-- A queued settings request (R182, R183). -/
structure SensorJob where
  issue   : Issue
  req     : SensorRequest
  order   : Nat
  started : Bool
  deriving DecidableEq, Repr

/-- A frame that was committed when its last stripe ended, before its frame end (R170), and the repeat run and hash before it:
it can still turn out corrupt (R164, R187). -/
structure EarlyFrame where
  number   : Word
  stamp    : Word64
  lastHash : Option Word
  run      : Nat
  deriving DecidableEq, Repr

/-- A context: the frame in progress, the frozen-frame run, reports, its sensor's pending and governing writes. -/
structure Ctx where
  frames    : List CtxFrame
  lastHash  : Option Word
  run       : Nat
  frozen    : Bool
  absent    : Bool
  /-- instant of the last frame start or of the enable (R188) -/
  seenAt    : Nat
  /-- the number of the last frame start, the latch points still to come with their frames, oldest first, and the frame
  whose latch point was the last to pass (R181) -/
  lastFrame : Option Word
  latches   : List (Word × Nat)
  latched   : Option Word
  requests  : List SensorJob
  /-- completed writes not yet latched: the fields they set, target frame, and the tick of completion -/
  written   : List (List (Option Word) × Word × Word64)
  /-- per governed frame: (frame, expected fields, late) -/
  governs   : List (Word × List (Option Word) × Bool)
  /-- EXPECTED in effect for fields 0 to 3 -/
  expected  : List Word
  /-- the last write of ISP_CTXc_PARAM: its pipeline cycle and the value before it (R172) -/
  paramPrev : Option (Nat × Word)
  /-- the last committed frame, when its frame end had not come and it was not corrupt -/
  early     : Option EarlyFrame
  deriving DecidableEq, Repr

/-- A context at reset. -/
def Ctx.reset : Ctx :=
  ⟨[], none, 0, false, false, 0, none, [], none, [], [], [], [0xFFFFFFFF, 0xFFFFFFFF, 0xFFFFFFFF, 0xFFFFFFFF], none, none⟩

/-- An image pipeline: the stripe in service (context, stripe, end instant), the number and stamp of its frame, the last
context served, and the context that holds it in frame mode (R168). -/
structure Pipe where
  busy    : Option (Nat × Nat × Nat)
  frame   : Word × Word64
  lastCtx : Option Nat
  locked  : Option Nat
  deriving DecidableEq, Repr

/-- A pipeline at reset. -/
def Pipe.reset : Pipe := ⟨none, (0, 0), none, none⟩

/-- Cameras, contexts, pipelines, and the order in which sensor requests were submitted. -/
structure Camera where
  streams : Tab Stream
  ctxs    : Tab Ctx
  pipes   : Tab Pipe
  orders  : Nat
  /-- the request whose writes each bus carries: (context, order) -/
  buses   : Tab (Option (Nat × Nat))
  deriving DecidableEq, Repr

/-! ### Sorter (chapter 8) -/

/-- A sample descriptor (R191). -/
structure Sample where
  id     : BitVec 24
  decode : BitVec 8
  inLen  : Nat
  inAddr : Word64
  outLen : Nat
  inCrc  : Word
  stamp  : Word64
  deriving DecidableEq, Repr

/-- A sample on an engine: its queue and order, its budget and the instants at which it decodes and expires. -/
structure Decoding where
  queue   : Nat
  order   : Nat
  sample  : Sample
  startAt : Nat
  cycles  : Nat
  budget  : Option Nat
  descBad : Bool
  deriving DecidableEq, Repr

/-- A segment of an open batch (R194), with its elements. -/
structure Segment where
  id     : BitVec 24
  flags  : Nat
  row    : Nat
  start  : Nat
  queue  : Nat
  stamp  : Word64
  elems  : List Word
  /-- LEN, which for an element-free segment is 0 -/
  len    : Nat
  deriving DecidableEq, Repr

/-- An open batch (R193 to R196). -/
structure Batch where
  number : Word
  row    : Nat
  offset : Nat
  inRow  : Nat
  segs   : List Segment
  /-- last day whose close instant it has met -/
  closedDay : Option Nat
  deriving DecidableEq, Repr

/-- A batch stream at enable. -/
def Batch.reset : Batch := ⟨0, 0, 0, 0, [], none⟩

/-- The Sorter: engines, open batches, the queue each engine last served (R205), samples taken so far, the host-path entries. -/
structure Sorter where
  engines : Tab (Option Decoding)
  batches : Tab Batch
  lastQ   : Tab Nat
  orders  : Nat
  deriving DecidableEq, Repr

/-! ### Solver (chapter 9) -/

/-- A joint of the model (R213). -/
structure Joint where
  parent : Nat
  type   : Nat
  axis   : Nat
  frameRot : List Word
  framePos : List Word
  jaxis  : List Word
  mass   : Word
  com    : List Word
  inertia : List Word
  qMin   : Word
  qMax   : Word
  tauMax : Word
  deriving DecidableEq, Repr

/-- A robot model (R212). -/
structure Model where
  ndof    : Nat
  nf      : Nat
  torqueRows : Bool
  limitRows  : Bool
  floorM  : Word
  floorDls : Word
  floorH  : Word
  lambda2 : Word
  tolStep : Word
  tolFeas : Word
  tolDual : Word
  reg     : Word
  gravity : Word
  fpoint  : List Nat
  joints  : List Joint
  deriving DecidableEq, Repr

/-- A task row (R216). -/
structure TaskRow where
  kind   : Nat
  body   : Nat
  dir    : Nat
  point  : List Word
  weight : Word
  target : Word
  error  : Word
  deriving DecidableEq, Repr

/-- The task table (R216). -/
structure TaskTable where
  frame   : Word
  valid   : Bool
  stamp   : Word64
  count   : Nat
  baseRot : List Word
  baseVel : List Word
  rows    : List TaskRow
  /-- a table has been taken from a committed slot -/
  taken   : Bool
  deriving DecidableEq, Repr

/-- A force binding (R217). -/
structure ForceBind where
  body  : Nat
  point : List Word
  dir   : List Word
  deriving DecidableEq, Repr

/-- A constraint row (R217). -/
structure ConRow where
  kind  : Nat
  body  : Nat
  point : List Word
  dir   : List Word
  bound : Word
  idx   : List Nat
  coef  : List Word
  cj    : Word
  deriving DecidableEq, Repr

/-- The constraint table (R217). -/
structure ConTable where
  frame : Word
  valid : Bool
  stamp : Word64
  count : Nat
  nfb   : Nat
  binds : List ForceBind
  rows  : List ConRow
  taken : Bool
  deriving DecidableEq, Repr

/-- The table in use before any has been taken (R219). -/
def TaskTable.empty : TaskTable := ⟨0, false, 0, 0, List.replicate 9 0, List.replicate 6 0, [], false⟩
/-- The table in use before any has been taken (R219). -/
def ConTable.empty : ConTable := ⟨0, false, 0, 0, 0, [], [], false⟩

/-- What one axis gives the assembler at a solve start (R241). -/
structure AxisMeas where
  q       : Word
  qd      : Word
  missing : Bool
  stamp   : Option Word64
  deriving DecidableEq, Repr

/-- One axis entry of a result record (R234). -/
structure AxisEntry where
  tau   : Word
  pos   : Word
  vel   : Word
  valid : Bool
  deriving DecidableEq, Repr

/-- An axis entry of zeros. -/
def AxisEntry.zero : AxisEntry := ⟨0, 0, 0, false⟩

/-- The result record (R234). -/
structure Record where
  solve       : Word
  flags       : BitVec 16
  status      : Nat
  age         : Nat
  frame       : Word
  frameValid  : Bool
  stamp       : Word64
  commitStamp : Word64
  iter        : Nat
  phase1Iter  : Nat
  pivotFirst  : Byte
  pivotCount  : Nat
  satCount    : Nat
  working     : Nat
  notes       : Byte
  fTau        : Nat
  fPos        : Nat
  fVel        : Nat
  missing     : Word64
  sourceSolve : Word
  axes        : Tab AxisEntry
  x           : List Word
  deriving DecidableEq, Repr

/-- Everything a solve's arithmetic depends on, captured at its start (R220, R496). -/
structure SolveInput where
  model    : Model
  task     : TaskTable
  con      : ConTable
  meas     : List AxisMeas
  /-- solver period in µs -/
  periodUs : Nat
  /-- actuated torques and X of the previous record, when there is one of this model (R215, R220) -/
  prevTau  : Option (List Word)
  prevX    : Option (List Word)
  deriving DecidableEq, Repr

/-- How a solve that has left its phases will commit. -/
inductive SolveEnd where
  /-- still solving -/
  | none
  /-- a fresh record with this STATUS -/
  | fresh (status : Nat)
  /-- a copied payload: code bits and STATUS (R229 to R231) -/
  | copied (codes : BitVec 16) (status : Nat)
  deriving DecidableEq, Repr

/-- What the assembler builds (chapter 9), as the integers that its Q32 quantities stand for: M by row, h, the Jacobian row
and drift term of each task row, the constraint matrix A by row, the bounds b, and J_c by row. -/
structure Assembled where
  mm      : List (List Int)
  bias    : List Int
  jac     : List (List Int)
  drift   : List Int
  rows    : List (List Int)
  bounds  : List Int
  contact : List (List Int)
  deriving DecidableEq, Repr

/-- A factorisation LDLᵀ (R221): the columns of L so far, each by row with its part below the unit diagonal, D, and the
columns whose pivot was raised to the floor (R222). -/
structure Factor where
  lower   : List (List Int)
  diag    : List Int
  floored : List Nat
  deriving DecidableEq, Repr

/-- The results of a solve's phases 2 to 5 (R220): what the assembler built, the factor of M and q̈₀, Δq of each degree of
freedom with the factor of the DLS matrix, H and g with the factor of H. -/
structure Work where
  asm   : Assembled
  factM : Factor
  acc0  : List Int
  factD : Factor
  dq    : List Int
  hess  : List (List Int)
  grad  : List Int
  factH : Factor
  deriving DecidableEq, Repr

/-- A factorisation of no columns. -/
def Factor.empty : Factor := ⟨[], [], []⟩

/-- The results of a solve that has finished none of its phases. -/
def Work.empty : Work := ⟨⟨[], [], [], [], [], [], []⟩, Factor.empty, [], Factor.empty, [], [], [], Factor.empty⟩

/-- The solve in progress. -/
structure Solve where
  input      : SolveInput
  number     : Word
  startRoot  : Nat
  startTick  : Word64
  /-- solver cycles from the start at which the present phase or iteration began -/
  cycle      : Nat
  /-- phase of R220, 1 to 8 -/
  phase      : Nat
  /-- effective deadline in solver cycles (R233), and SLV_MAX_ITER, as the solve found them at its start -/
  deadline   : Nat
  maxIter    : Nat
  work       : Work
  x          : List Word
  feasible   : Option (List Word)
  working    : List Nat
  iter       : Nat
  phase1Iter : Nat
  pivotFirst : Byte
  pivotCount : Nat
  satCount   : Nat
  notes      : Byte
  missing    : Word64
  ending     : SolveEnd
  /-- cycle at which the record commits -/
  commitAt   : Nat
  deriving DecidableEq, Repr

/-- The solver's state outside its registers. -/
structure Solver where
  current  : Option Model
  /-- accepted model, with the instant its load completed (R215) -/
  pending  : Option (Model × Nat)
  /-- model load in progress: image address, end instant, command to complete -/
  loading  : Option (Word64 × Nat × Option Issue)
  task     : TaskTable
  con      : ConTable
  solve    : Option Solve
  nextNum  : Word
  lastStart : Option Nat
  /-- last two committed records with their commit instants, newest first (R17) -/
  records  : List (Nat × Record)
  /-- the last committed record came from the model in effect (R215) -/
  prevOk   : Bool
  deriving DecidableEq, Repr

/-! ### Servo engine (chapter 10) and its checker (R385 to R387) -/

/-- One compensator's histories, newest first: e[k−1..k−3] and u[k−1..k−3], and its last output. -/
structure Stage where
  e : List Int
  u : List Int
  out : Int
  deriving DecidableEq, Repr

/-- A stage with all histories 0 (R254). -/
def Stage.zero : Stage := ⟨[0, 0, 0], [0, 0, 0], 0⟩

/-- An axis of the servo engine. Q1.15, Q32 and Q1.23 quantities are held as the integers they stand for. -/
structure Axis where
  latchPos : Word
  latchVel : BitVec 16
  latchCur : BitVec 16
  /-- stamp of the frame that gave the latch, none before a good measurement (R241) -/
  stamp    : Option Word64
  /-- the last cutoff found the measurement missing -/
  missing  : Bool
  /-- the first-slot cutoff of this period found it missing (R242) -/
  missedPeriod : Bool
  tgtPos   : Int
  tgtVel   : Int
  tgtTau   : Int
  /-- targets have been accepted; the axis has targets: accepted ones, or q of its first good measurement (R245) -/
  accepted : Bool
  hasTgt   : Bool
  rPos     : Int
  armed    : Bool
  ramping  : Bool
  /-- the ramp's last period is the present one (R256) -/
  rampLast : Bool
  rho      : Int
  stages   : List Stage
  cmd      : Int
  clamped  : Bool
  /-- quantities of the last computed period: q, r_pos or ρ, ff_v, ff_i, v_meas, i_meas, as the cascade took them -/
  refs     : List Int
  /-- e_p, e_v, e_i of the last computed period, and its feed-forward terms ff_v, ff_i, for the trace (R262) -/
  errs     : List Int
  ffs      : List Int
  /-- this period computed the axis, and the histories before its step (R386) -/
  stepped  : Bool
  before   : List Stage
  /-- checker: its own histories and command of the last period in Q1.23 (R385, R386) -/
  cStages  : List Stage
  cCmd     : Int
  agree    : Bool
  lastRel  : Int
  /-- the command loaded at sc 896, and the one that down frames of this period carry (R260) -/
  buf      : Int
  carry    : Int
  /-- CAN FD axis: run count, and whether the axis runs in this period -/
  runs     : Nat
  runsNow  : Bool
  /-- targets were accepted at this period's start (R247) -/
  newTgt   : Bool
  /-- mode and torque enable as sampled at the period start (R259) -/
  mode     : Nat
  ten      : Bool
  /-- the servo cycle in which COMMIT was written (R265) -/
  commitAt : Nat
  /-- instant of the axis's last cutoff, of its last run for a CAN FD axis (R239) -/
  cutAt    : Nat
  /-- the servo cycle in which the axis last entered fault (R5) -/
  faultAt  : Option Nat
  /-- the saturation events of scaling the present latch have been counted (R248) -/
  counted  : Bool
  deriving DecidableEq, Repr

/-- Three stages with all histories 0. -/
def Stage.three : List Stage := [Stage.zero, Stage.zero, Stage.zero]

/-- An axis at reset. -/
def Axis.reset : Axis :=
  { latchPos := 0, latchVel := 0, latchCur := 0, stamp := none, missing := true, missedPeriod := true, tgtPos := 0,
    tgtVel := 0, tgtTau := 0, accepted := false, hasTgt := false, rPos := 0, armed := false, ramping := false,
    rampLast := false, rho := 0, stages := Stage.three, cmd := 0, clamped := false, refs := [0, 0, 0, 0, 0, 0],
    errs := [0, 0, 0], ffs := [0, 0], stepped := false, before := Stage.three, cStages := Stage.three, cCmd := 0, agree := false,
    lastRel := 0, buf := 0, carry := 0, runs := 0, runsNow := false, newTgt := false, mode := 0, ten := false,
    commitAt := 0, cutAt := 0, faultAt := none, counted := false }

/-- The trace buffer's state outside its registers (R261, R263). -/
structure Trace where
  buf      : Tab Word
  /-- recording starts at the next period start -/
  armNext  : Bool
  next     : Nat
  forced   : Bool
  postLeft : Nat
  prevNode0 : Option Int
  deriving DecidableEq, Repr

/-- The servo engine. -/
structure Servo where
  axes      : Tab Axis
  /-- active configuration sets, keyed by register offset (R265) -/
  active    : Tab Word
  /-- start instant of the present period, and its tick -/
  start     : Nat
  startTick : Word64
  /-- instants of the last cutoff and of the last slot boundary -/
  cutoffAt  : Nat
  slotAt    : Nat
  /-- periods since the enable, without the wrap of SRV_PERIOD_NUM (R251) -/
  periods   : Nat
  /-- SOLVE of the record taken at the last period start -/
  lastSolve : Option Word
  /-- events since the last trace record for the trace trigger: saturation, refusal, fault, missing -/
  satNow    : Bool
  refusedNow : Bool
  faultNow  : Bool
  missNow   : Bool
  /-- consecutive proof-axis mismatches (R393) -/
  proofRun  : Nat
  trace     : Trace
  deriving DecidableEq, Repr

/-! ### Courier lanes (chapter 11) -/

/-- Enumeration in progress (R286): the drive asked next or now, the slot of the request in flight, the first slot of the
next request, the round trips measured in consecutive slots, and the frames seen in place. -/
structure Enum where
  drive    : Nat
  sentSlot : Option Nat
  nextSlot : Nat
  /-- requests are over: the round trip is measured -/
  measure  : Bool
  rtds     : List Nat
  lastSlot : Nat
  /-- the ALIGN write goes in the next down frame -/
  writeAlign : Bool
  inPlace  : Nat
  deriving DecidableEq, Repr

/-- A frame received without error whose measurement a later cutoff may take: the data (of an up frame its 39 data
characters), the instant at which it was complete, its stamp, and whether an uncorrectable error met it on its path (R238,
R239). -/
structure Heard where
  bytes  : List Byte
  doneAt : Nat
  stamp  : Word64
  bad    : Bool
  deriving DecidableEq, Repr

/-- A courier lane. -/
structure Lane where
  /-- the good up frames that a cutoff may still take, newest first -/
  heard    : List Heard
  enum     : Option Enum
  /-- service request in flight: its word and the slot in which it went -/
  svc      : Option (Word × Nat)
  /-- request written and waiting for the next down frame -/
  svcNext  : Option Word
  /-- running disparity of the transmitter, true when it is positive, and of the receiver once it has one (R269) -/
  txDisp   : Bool
  rxDisp   : Option Bool
  /-- start of the down frame in progress, none when the lane has sent none since its enable -/
  startAt  : Option Nat
  deriving DecidableEq, Repr

/-- A lane at reset: its transmitter starts at negative running disparity. -/
def Lane.reset : Lane := ⟨[], none, none, none, false, none, none⟩

/-! ### CAN FD (chapter 11) -/

/-- A frame that waits for or is in transmission: the safety frame, an axis command (entry), or a software buffer. -/
inductive CanSource where
  | safety
  | axis (entry : Nat)
  | buffer (index : Nat)
  deriving DecidableEq, Repr

/-- A CAN FD controller: the frame in transmission, whether a lost arbitration waits for the end of the frame on the bus,
pending axis frames, the pending safety frame, the good measurement frames of each entry that a cutoff may still take, and
whether the receive and transmit event FIFOs are full, which their indices alone do not tell from empty. -/
structure Can where
  sending : Option (CanSource × CanFrame)
  waiting : Bool
  axisTx  : Tab (Option CanFrame)
  safety  : Option CanFrame
  meas    : Tab (List Heard)
  rxFull  : Bool
  txeFull : Bool
  deriving DecidableEq, Repr

/-- A controller at reset. -/
def Can.reset : Can := ⟨none, false, [], none, [], false, false⟩

/-! ### Ring (chapter 13) -/

/-- A DATA or CONTROL flit before it is sent: all but its SEQ, ACK and CRC (R334). -/
structure FlitBody where
  control : Bool
  route   : Byte
  channel : Nat
  len     : Nat
  msg     : Nat
  index   : Nat
  payload : List Byte
  deriving DecidableEq, Repr

/-- A ring port's link state (R336, R337). -/
structure RingPort where
  txSeq    : BitVec 12
  /-- flits that wait for a place among the 512 or for the port to be ACTIVE, control ahead of data (R338, R339) -/
  queue    : List FlitBody
  /-- unacknowledged flits, oldest first -/
  unacked  : List (List Byte)
  rxNext   : BitVec 12
  nakSent  : Bool
  /-- consecutive retries of the oldest flit -/
  retries  : Nat
  /-- instant at which ACK_SEQ last advanced -/
  ackAt    : Nat
  /-- failures of EQ in a row, and of RETRAIN -/
  eqFails  : Nat
  retrainFails : Nat
  deriving DecidableEq, Repr

/-- A port at reset. -/
def RingPort.reset : RingPort := ⟨0, [], [], 0, false, 0, 0, 0, 0⟩

/-- The ring's state outside its registers. -/
structure Ring where
  ports     : Tab RingPort
  enabledAt : Nat
  /-- ring reset in progress since -/
  resetAt   : Option Nat
  /-- ARRIVE held for this device (sequence, vote) -/
  heldArrive : Option (Word × BitVec 2)
  /-- this device has arrived at the present barrier, with its vote, and since when -/
  arrived   : Option (BitVec 2 × Nat)
  /-- the job whose barrier that is, and whether it is its start barrier (R354) -/
  barrierOf : Option (Nat × Bool)
  /-- release instant scheduled, with its vote -/
  releaseAt : Option (Instant × BitVec 2)
  /-- at the master: the barriers whose ARRIVE or RELEASE has not returned, oldest first, each with the instant at which it
  left (R353) -/
  lapOpen   : List (Nat × Word)
  /-- the captured snapshot record that waits for COLLECT (R363) -/
  snap      : Option SnapRecord
  /-- operating points requested by each device (R436) -/
  points    : Tab Nat
  deriving DecidableEq, Repr

/-! ### Safety (chapter 14) -/

/-- A check binding's state outside its registers. -/
structure Binding where
  enabled  : Bool
  /-- instant of the last release or of the enable (R383) -/
  since    : Nat
  gap      : Bool
  persist  : Bool
  proofFailed : Bool
  /-- proof frame escalated to slot work (R390) -/
  proofSlot : Bool
  /-- a proof frame has been dispatched since it last fell due (R390) -/
  proofSent : Bool
  deriving DecidableEq, Repr

/-- A binding at reset. -/
def Binding.reset : Binding := ⟨false, 0, false, false, false, false, false⟩

/-- A counterfoil run (R373): the job and binding it serves, its times, whether its program or store failed, its
output. -/
structure CfRun where
  uid     : Nat
  binding : Fin 16
  dispatchAt : Nat
  startAt : Option Nat
  endAt   : Nat
  ended   : Bool
  bad     : Bool
  values  : List (List Word)
  deriving DecidableEq, Repr

/-- The safety subsystem outside its registers. -/
structure Safety where
  bindings : Tab Binding
  runs     : List CfRun
  cfFreeAt : Nat
  /-- per latch bit, the torque-enable outputs it dropped -/
  dropped  : Tab (BitVec 16)
  /-- instant of the last queued safety frame -/
  frameAt  : Option Nat
  deriving DecidableEq, Repr

/-! ### Time and Ethernet (chapter 15) -/

/-- A tracked PTP domain (R415). -/
structure Domain where
  rate      : Word
  timeout   : Nat
  lastAnn   : Nat
  /-- the domain has locked since its enable (R416) -/
  locked    : Bool
  /-- the two-step Sync whose Follow_Up is awaited: its sequence number and receive stamp (R414) -/
  sync      : Option (BitVec 16 × BitVec 96)
  /-- receive stamp less origin time of the last Sync, in 2^−32 tick -/
  lag       : Option Int
  /-- mean path delay of the default profile, in 2^−32 tick -/
  delay     : Int
  deriving DecidableEq, Repr

/-- A domain at reset. -/
def Domain.reset : Domain := ⟨0, 0, 0, false, none, none, 0⟩

/-- A port's peer delay (802.1AS, R414): the answered request's sequence number, the time of its reception at the peer and the
stamp of the answer here; and the mean delay, in 2^−32 tick. -/
structure PeerDelay where
  met   : Option (BitVec 16 × BitVec 96 × BitVec 96)
  delay : Int
  deriving DecidableEq, Repr

/-- A peer delay at reset. -/
def PeerDelay.reset : PeerDelay := ⟨none, 0⟩

/-- The Link clerk's record of a message that it sent: the last of its port, kind and domain number, with its sequence number
and transmit stamp (R417). -/
structure PtpSent where
  port   : Nat
  kind   : PtpKind
  number : BitVec 8
  seq    : BitVec 16
  stamp  : BitVec 96
  deriving DecidableEq, Repr

/-- The clock as it ran until a step of OFS or a change of RATE: what it showed at that instant, the change left out. -/
structure PastClock where
  until_ : Nat
  tick   : Word64
  ofs    : BitVec 96
  rate   : Word
  deriving DecidableEq, Repr

/-- A time update that a ring applies at an instant (R407). -/
inductive TimeUpdate where
  | step (ticks : Word64)
  | rate (value : Word)
  deriving DecidableEq, Repr

/-- Time state outside its registers. -/
structure TimeState where
  /-- step accepted, applied at the next tick (R405) -/
  stepNext : Option Word64
  updates  : List (Instant × TimeUpdate)
  domains  : Tab Domain
  /-- slew after a domain switch: its end instant and the rate that follows (R416) -/
  slew     : Option (Nat × Word)
  /-- a switch was refused: RATE holds until a switch is made or a domain is enabled anew (R416) -/
  holding  : Bool
  peers    : Tab PeerDelay
  sent     : List PtpSent
  /-- past runs of the clock, newest first, for the stamps of frames still coming in (R410) -/
  past     : List PastClock
  deriving DecidableEq, Repr

/-- An Ethernet MAC outside its registers. -/
structure Mac where
  linkUp   : Bool
  bufNext  : Nat
  postmarks : List (List Byte)
  deriving DecidableEq, Repr

/-- A MAC at reset. -/
def Mac.reset : Mac := ⟨false, 0, []⟩

/-! ### Power, clocks and reset (chapter 16) -/

/-- A clock-domain crossing for control pulses (R437). -/
structure Crossing where
  openUntil : Nat
  /-- the register write that waits for the acknowledgement: its offset, its value, and the W1C bits set in its cycle -/
  waiting   : Option (Nat × Word × Word)
  /-- until its first handshake after a reset of one side it takes nothing (R439) -/
  blindTo   : Nat
  deriving DecidableEq, Repr

/-- A crossing at rest. -/
def Crossing.reset : Crossing := ⟨0, none, 0⟩

/-- A power sequence in progress: up or down, the slot it is in, when that slot began, and the slots to do. -/
structure Sequence where
  up      : Bool
  slots   : List Nat
  slotAt  : Nat
  deriving DecidableEq, Repr

/-- A column range's ballast (R426): its level in mA at an instant, and whether it falls. -/
structure Ballast where
  level   : Nat
  at_     : Nat
  width   : Nat
  falling : Bool
  deriving DecidableEq, Repr

/-- A ballast with no level. -/
def Ballast.reset : Ballast := ⟨0, 0, 0, false⟩

/-- Power and reset state outside its registers. -/
structure Power where
  /-- PORST_N high -/
  porst     : Bool
  masterSel : Bool
  ringSlot  : BitVec 3
  locked    : Bool
  /-- instant of the rise of PORST_N -/
  riseAt    : Nat
  /-- domains 23 and 26 run from the internal 25 MHz oscillator (R434) -/
  osc       : Bool
  /-- warm reset in progress, and whether its sequence has ended and the hold stands -/
  inReset   : Bool
  holding   : Bool
  /-- sources that still stand (R442) -/
  standing  : BitVec 8
  seq       : Option Sequence
  firmwareAt : Option Nat
  /-- crossings out of the host's domain (R437 to R439): of control pulses, by destination domain 0 to 39; of the values of
  registers, by 64 + offset -/
  crossings : Tab Crossing
  ballast   : Tab Ballast
  bypassClosed : Bool
  /-- instant at which memory training is over: 4.2 ms after the last memory group's slot (R444) -/
  trainAt   : Option Nat
  /-- tile groups that switch at this day boundary, with the starts of their slots (R432) -/
  tgs       : List (Nat × Nat)
  deriving DecidableEq, Repr

/-! ### Management and security (chapter 17) -/

/-- An event on its way to the log (R454 to R457). -/
structure LogEvent where
  source : Nat
  /-- instant of arrival, an edge of the management clock -/
  arrive : Nat
  stamp  : Word64
  code   : Byte
  event  : BitVec 16
  d0     : Word
  d1     : Word
  d2     : Word
  deriving DecidableEq, Repr

/-- An open session (R464 to R466). -/
structure SessionInfo where
  id     : BitVec 16
  key    : List Byte
  seq    : Word
  side   : Side
  usedAt : Nat
  deriving DecidableEq, Repr

/-- A handshake between HELLO and RESPONSE. -/
structure Handshake where
  kind  : Byte
  nc    : BitVec 128
  nd    : BitVec 128
  epoch : Word
  deriving DecidableEq, Repr

/-- Sessions, handshakes, failures and lockouts. -/
structure Sessions where
  host     : Option SessionInfo
  port     : Option SessionInfo
  maint    : Option SessionInfo
  hsPcie   : Option Handshake
  hsPort   : Option Handshake
  failPcie : Nat
  failPort : Nat
  /-- lockout ends at -/
  lockPcie : Option Nat
  lockPort : Option Nat
  nextId   : BitVec 16
  /-- instant of the last HEARTBEAT or of the host session's opening (R329) -/
  beatAt   : Nat
  deriving DecidableEq, Repr

/-- Management state outside its registers. -/
structure Mgmt where
  events    : List LogEvent
  /-- sources whose next accepted record carries LOST (R456) -/
  lost      : List Nat
  /-- per core: the instant its restart is over -/
  resumeAt  : Tab Nat
  /-- 32 KiB data RAM of each core, core × 2^15 + byte (R447) -/
  coreRam   : Tab Byte
  /-- warned sensors (R453) -/
  warned    : List Nat
  /-- since when every sensor has been 5 °C below the throttle threshold (R436) -/
  coolSince : Option Nat
  /-- firmware bank running: false A, true B -/
  bankB     : Bool
  /-- host loss that fell due while the Dispatcher was stopped (R451) -/
  lossDue   : Bool
  /-- an update in progress: bytes of the inactive bank written -/
  updating  : Bool
  /-- while the Dispatcher is stopped: the Postbox registers as they stood when it stopped (R449) -/
  heldBox   : Option (Tab Word)
  /-- the always-on SRAM: what each core's partition holds of the image that it was loaded with (R447), and the SHA-256 taken
  of it at boot (R448) -/
  sram      : Tab (List Byte)
  digest    : Tab (List Byte)
  /-- the last service of the device watchdog before the Postmaster stopped (R450) -/
  servedAt  : Nat
  deriving DecidableEq, Repr

/-! ### The whole state -/

/-- How often the contents of each kind of memory have been lost since the power-on that State.reset stands for: DRAM, the
retained arrays (banks and staging store, R431), and the assembler's tables. After a loss an unlisted byte reads as a free
value of that loss. -/
structure Losses where
  dram   : Nat
  arrays : Nat
  tables : Nat
  deriving DecidableEq, Repr

/-- The state of the device. -/
structure State where
  /-- commands waiting, first in, first out -/
  pending  : List Instr
  clk      : Clock
  /-- every register, keyed by BAR0 offset; an unlisted one holds its Reset value -/
  regs     : Tab Word
  /-- fuse words 0 to 63 (R467) -/
  fuses    : Tab Word
  dram     : Tab Byte
  stage    : Tab Byte
  banks    : Tab Byte
  /-- assembler table memory: handoff 0 and 1, slot: key (handoff × 2 + slot) × 2^16 + byte (R216, R217) -/
  tables   : Tab Byte
  /-- host memory, where the rings and results lie (R325) -/
  hostMem  : Tab Byte
  /-- SPI NOR flash behind the device (R458) -/
  flash    : Tab Byte
  /-- the last write of each bank byte that this or the last fabric cycle wrote (R95, R96) -/
  bankLog  : Tab (Option BankNote)
  marks    : List EccMark
  /-- the instant at which the captured error was found (R109) -/
  errAt    : Nat
  losses   : Losses
  /-- per DRAM channel: the next granule of its patrol scrub, and the end of its last refresh slot ("Refresh and
  scrub") -/
  scrub    : Tab Nat
  refresh  : Tab Nat
  /-- what the NoC does to the flits of the loader's next stream (R106; the model's own, log entry 131) -/
  flits    : FlitErrors
  disp     : Dispatcher
  day      : Day
  cam      : Camera
  srt      : Sorter
  slv      : Solver
  srv      : Servo
  lanes    : Tab Lane
  cans     : Tab Can
  ring     : Ring
  saf      : Safety
  tim      : TimeState
  macs     : Tab Mac
  pwr      : Power
  mgt      : Mgmt
  sess     : Sessions
  /-- data returned by the last host read (R3) -/
  pcieData : Word
  /-- what the device has put on its interfaces, oldest first -/
  outbox   : List Out
  /-- the model's counter behind free values -/
  freeCtr  : Nat
  deriving DecidableEq, Repr

/-- The reasons a step can stop with a fault. There are none: the manual lets the device go on after every command, so no
meaning raises a fault, and nothing is made safe or unsafe by one. -/
inductive Fault where
  deriving DecidableEq, Repr

/-- The reasons a step can refuse a command. -/
inductive Refusal where
  /-- A command with no meaning yet, by its mnemonic. Safe: the model stops. No arm of exec answers it. -/
  | notModelled (mnemonic : String)
  deriving DecidableEq, Repr

/-- The fuse words of a part as shipped. The manual gives their layout (R467) and not their values; the model's part is
a DZ8640-A whose columns 0 to 11 map to physical columns 0 to 11, with DEVICE_ID 1 and every lock clear
(DESIGN CHOICE, log entry 4). -/
def fuseShipped (w : Nat) : Word :=
  if w = 24 then 0x00000010
  else if w = 25 then 0x00000001
  else if w = 29 then 0x76543210
  else if w = 30 then 0x0000BA98
  else 0

/-- The machine right after reset: every register at its Reset value, memories with nothing listed, nothing in
progress, SAFE_N and every torque-enable output low (R394, R396, R480), TICK 0 (R404). -/
def State.reset : State where
  pending := []
  clk := ⟨0, 0, 0⟩
  regs := []
  fuses := []
  dram := []
  stage := []
  banks := []
  tables := []
  hostMem := []
  flash := []
  bankLog := []
  marks := []
  errAt := 0
  losses := ⟨0, 0, 0⟩
  scrub := []
  refresh := []
  flits := ⟨0, none⟩
  disp := ⟨0, [], [], [], [], [], [], [], none, ⟨0, 0, 0, 0, false, false, [], []⟩, false, false, [], []⟩
  day := ⟨0, false, none, none, false, [], 0, [], 1⟩
  cam := ⟨[], [], [], 0, []⟩
  srt := ⟨[], [], [], 0⟩
  slv := ⟨none, none, none, TaskTable.empty, ConTable.empty, none, 0, none, [], false⟩
  srv := ⟨[], [], 0, 0, 0, 0, 0, none, false, false, false, false, 0, ⟨[], false, 0, false, 0, none⟩⟩
  lanes := []
  cans := []
  ring := ⟨[], 0, none, none, none, none, none, [], none, []⟩
  saf := ⟨[], [], 0, [], none⟩
  tim := ⟨none, [], [], none, false, [], [], []⟩
  macs := []
  pwr := ⟨false, false, 0, false, 0, true, false, false, 0, none, none, [], [], true, none, []⟩
  mgt := ⟨[], [], [], [], [], none, false, false, false, none, [], [], 0⟩
  sess := ⟨none, none, none, none, none, 0, 0, none, none, 1, 0⟩
  pcieData := 0
  outbox := []
  freeCtr := 0

end Sys2Proof.Machine
end

