-- ==== Sys2Proof/Config.lean ====
section
/-! DEFINITION. What an implementation fixes and the values that the manual leaves open. Each open value is an opaque
constant without a body: nothing can be proved of its value, so whatever is proved holds for every value. -/

namespace Sys2Proof.Config

open Sys2Proof.Machine

/-- The events that blocks report to the arbiter (R454). The manual names the events and does not number them. -/
inductive Ev where
  /-- R23, R324: closed access, or a Postbox write without a session -/
  | hostAccess
  /-- R64, R69, R215, R289: a command register written while busy -/
  | regOverrun
  /-- R466: a failed RESPONSE -/
  | responseFail
  /-- R465: a COMMAND discarded -/
  | portDiscard
  /-- R448: a core that fails its digest check -/
  | coreFailed
  /-- R449: a core watchdog expiry -/
  | coreWatchdog
  /-- R453: a temperature above TEMP_WARN -/
  | tempWarn
  /-- R342: the step of a ring reset -/
  | ringStep
  /-- R350: an absent slot -/
  | ringBypassed
  /-- R367: the ring breaks -/
  | ringBroken
  /-- R445: a population refused -/
  | memFail
  /-- R394: a latch bit set -/
  | latch (bit : Nat)
  /-- R243: an axis enters fault -/
  | axisFault
  /-- R418: the postmark queue overflows -/
  | postmarkOverflow
  /-- R416: a switch of domains -/
  | domainSwitched
  /-- R416: a switch not made -/
  | holdover
  /-- R379: a disagreement -/
  | disagreement
  /-- R381: an agreeing replay -/
  | replayAgreed
  /-- R402: a safety field with 0 reserved -/
  | safetyFieldZero
  /-- R297: a receive FIFO overflows -/
  | canRxOverflow
  deriving DecidableEq, Repr

/-- [14:0] of EVENT for each event (R457): the manual gives no numbers. -/
opaque eventNumber : Ev → BitVec 15

/-- A DETAIL word that no rule states (R457): event, word, and the model's counter. -/
opaque eventDetail : Ev → Nat → Nat → Word

/-- The DETAIL of a command that is refused for a cause to which the manual gives no reason number (R311, R326): by OP and
the model's counter. -/
opaque unstatedReason : Nat → Nat → Nat

/-- The CODE of a command that the manual says is refused without saying with which code (R459, R462): by OP and the
model's counter. -/
opaque unstatedCode : Nat → Nat → Nat

/-- Which of the unassigned handles a registration assigns (R57), by the model's counter: the manual does not say. -/
opaque handlePick : Nat → Nat

/-- What a DRAM data address above the trained capacity reads as: the manual gives no value (R112). -/
opaque absentByte : Nat → Byte

/-- What a byte of a memory reads as after the n-th loss of its contents, until it is written (R431, R440, R480): space
0 DRAM, 1 staging store, 2 tile banks, 3 assembler tables. -/
opaque lostByte : Nat → Nat → Nat → Byte

/-- The captured address of an uncorrectable NoC flit, by the model's counter: R109 gives an address to each other SOURCE. -/
opaque nocAddress : Nat → Word64

/-- A byte that a copy reads from an input its job does not declare (R487), by the model's counter and its offset: no rule
gives that input a slot. -/
opaque undeclaredByte : Nat → Nat → Byte

/-- A readback field that no embedded line gave: the frame had none, or the field's WIDTH is not 1 to 4, or it lies beyond
the line's end (R180, R185); by the model's counter. -/
opaque uncaptured : Nat → Word

/-- d of R192: the cycles that a DEFLATE sample spends resolving back-references, by its encoded bytes. -/
opaque backrefCycles : List Byte → Nat

/-- Cycles until the fault of a corrupt sample is found (R200), by the model's counter: the manual gives no figure. -/
opaque faultCycles : Nat → Nat

/-- An extrapolated position reference whose sum leaves the 32-bit block (R247), by the exact sum: the manual states no
result. -/
opaque rposBeyond : Int → BitVec 32

/-- [15:0] at bytes 8 and 9 of the transmit event of a safety frame, which is neither a buffer nor an axis frame (R301), by
the model's counter. -/
opaque safetyEventTag : Nat → BitVec 16

/-- The output of a counterfoil run (R373), FP32 bit patterns element by element (for FMT INDEX the channel values of each
pixel): a function of the program's bytes and of the bytes of the input slots, by input and offset. R373 says that FP16
products are exact and FP32 sums round to nearest with ties to even; which network they form, the program says, whose layout
the manual does not give. -/
opaque counterfoilOutput : List Byte → (Nat → Nat → Byte) → List (List Word)

/-- What ISO 11898-1 leaves open when a good frame finds REC above 127: a value from 119 to 127, by the model's counter. -/
opaque goodRec : Nat → Nat

/-- Round trip of the control-pulse crossing into clock domain d, in root cycles (R437): a fixed latency that the manual
does not state. -/
opaque crossingRoundTrip : Nat → Nat

/-- The nonce N_d of the true random generator (R464), by the model's counter. -/
opaque trng : Nat → BitVec 128

/-- µs from PLL start to lock; at most 50 (R435). -/
opaque pllLockUs : Nat → Nat

/-- Current of one tile in mA while it works, by logical tile (R426): the manual gives no figures. -/
opaque tileCurrent : Nat → Nat

/-- The count of a process monitor, a ring oscillator at a corner of the die, in a millisecond (R453): by monitor and
millisecond. -/
opaque processCount : Nat → Nat → BitVec 20

/-! ### The solver's arithmetic (R496)

The manual fixes the operations and the quantities of this arithmetic and leaves its sequence of elementary operations to the
device. The model has a sequence of its own (Machine/Dynamics.lean, Machine/Qp.lean); a device's value of a quantity differs
from it by a free value of few bits, which depends on what the solve captured at its start and on nothing else. -/

/-- The quantities that chapter 9 defines: M, h, a Jacobian row, a drift term, a row of A, a bound, a row of J_c, a row of L
and a pivot of each factorisation, q̈₀, Δq, H, g, the step p, a multiplier, a torque, x_i × T. -/
inductive Quantity where
  | mass
  | bias
  | jacobian
  | drift
  | row
  | bound
  | contact
  | lower (fact : Nat)
  | pivot (fact : Nat)
  | warm
  | deltaQ
  | hessian
  | gradient
  | step
  | multiplier
  | torque
  | velocity
  deriving DecidableEq, Repr

/-- How many low-order bits of a quantity may differ between devices (R496): the manual gives no number. The model lets at most
half of a word's bits differ. -/
opaque lowBits : Nat

/-- The difference of a device's value from the model's own, in low-order bits: by quantity, the iterate and working set at
which it is formed, and its index. -/
opaque lowOrder : SolveInput → Quantity → List Int → Nat → Int

/-- The quotient by a pivot of 0, which a floor of 0 lets pass: R210 says that no divisor is 0. -/
opaque zeroQuotient : Int → Int

/-- Columns of a factorisation tested within the first cycles of its phase (R222, R229). -/
opaque columnsDone : SolveInput → Nat → Nat → Nat

/-- Saturation events of a device's sequence beyond those of the model's own, in a phase or in the iteration that follows so
many others (R211). -/
opaque moreSat : SolveInput → Nat → Nat → Nat

/-- The current in mA that the tiles of a column draw at an instant at which they work (R426): no rule gives it. -/
opaque tileDraw : Nat → Nat → Nat

/-- Whether the condition of a change holds on every other device of the ring at a day boundary: 0 for SET_DAY (R311), 1 for
the operating point (R14). No message of the ring tells it (R366). -/
opaque othersMeet : Nat → Int → Bool

/-- How many of a phase's or an iteration's saturation events fall within its first cycles (R229): phase, iterations
completed, cycles. -/
opaque satWithin : SolveInput → Nat → Nat → Nat → Nat

end Sys2Proof.Config
end

