-- ==== Sys2Proof/Machine/Bits.lean ====
section
/-! DEFINITION. Fields of words, little-endian byte order (R3), wrapping comparison (R6) and the check codes of the
manual: CRC-32C (chapter 2), CRC-32 (R335), the CRC-16 of R271. -/

namespace Sys2Proof.Machine

/-! ### Fields -/

/-- Bit `i` of a word. -/
def bit (w : Word) (i : Nat) : Bool := w.getLsbD i

/-- Field [hi:lo] of a word, as a number. -/
def fld (w : Word) (hi lo : Nat) : Nat := w.toNat / 2 ^ lo % 2 ^ (hi + 1 - lo)

/-- The word with bits [hi:lo] set and no other. -/
def maskOf (hi lo : Nat) : Word := BitVec.ofNat 32 ((2 ^ (hi + 1 - lo) - 1) * 2 ^ lo)

/-- The word with field [hi:lo] replaced by `v`. -/
def setFld (w : Word) (hi lo : Nat) (v : Nat) : Word :=
  (w &&& ~~~(maskOf hi lo)) ||| (BitVec.ofNat 32 (v * 2 ^ lo) &&& maskOf hi lo)

/-- The word with bit `i` set or cleared. -/
def setBit (w : Word) (i : Nat) (v : Bool) : Word := setFld w i i v.toNat

/-- A number as a word. -/
def word (n : Nat) : Word := BitVec.ofNat 32 n

/-- An integer as a word, two's complement. -/
def wordI (n : Int) : Word := BitVec.ofInt 32 n

/-- The low word of 64 bits. -/
def lo32 (v : Word64) : Word := v.truncate 32

/-- The high word of 64 bits. -/
def hi32 (v : Word64) : Word := (v >>> 32).truncate 32

/-- 64 bits from a high and a low word. -/
def join64 (hi lo : Word) : Word64 := (hi ++ lo)

/-- The number of set bits of a number, over its lowest `n` bits. -/
def popCount (v : Nat) : Nat → Nat
  | 0 => 0
  | n + 1 => (if v.testBit n then 1 else 0) + popCount v n

/-- `min` of a sum with the largest value of a counter that holds. -/
def satAdd (top a b : Nat) : Nat := min top (a + b)

/-- a / b rounded up. -/
def divUp (a b : Nat) : Nat := (a + b - 1) / b

/-! ### Wrapping order (R6) -/

/-- R6: value `a` is later than `b`, both of width `w`. -/
def later (w a b : Nat) : Bool :=
  let d := (a + 2 ^ w - b % 2 ^ w) % 2 ^ w
  decide (1 ≤ d) && decide (d + 1 ≤ 2 ^ (w - 1))

/-! ### Byte order -/

/-- The number that bytes spell, least significant first. -/
def leNat : List Byte → Nat
  | [] => 0
  | b :: r => b.toNat + 256 * leNat r

/-- The `n` bytes of a number, least significant first. -/
def leBytes : Nat → Nat → List Byte
  | 0, _ => []
  | n + 1, v => BitVec.ofNat 8 v :: leBytes n (v / 256)

/-- The number that bytes spell, most significant first. -/
def beNat (bs : List Byte) : Nat := leNat bs.reverse

/-- The `n` bytes of a number, most significant first. -/
def beBytes (n v : Nat) : List Byte := (leBytes n v).reverse

/-- `n` bytes of a list from offset `o`; bytes past its end read 0. -/
def slice (bs : List Byte) (o n : Nat) : List Byte :=
  let t := (bs.drop o).take n
  t ++ List.replicate (n - t.length) 0

/-- The little-endian field of `n` bytes at offset `o`. -/
def leAt (bs : List Byte) (o n : Nat) : Nat := leNat (slice bs o n)

/-- The little-endian word at offset `o`. -/
def wordAt (bs : List Byte) (o : Nat) : Word := word (leAt bs o 4)

/-- The byte at offset `o`. -/
def byteAt (bs : List Byte) (o : Nat) : Nat := leAt bs o 1

/-- The four bytes of a word. -/
def wordBytes (w : Word) : List Byte := leBytes 4 w.toNat

/-- The bytes of ASCII text. -/
def ascii (t : String) : List Byte := t.toList.map (fun c => BitVec.ofNat 8 c.toNat)

/-! ### Check codes -/

/-- One bit of a reflected 32-bit CRC with reflected polynomial `p`. -/
def crcBit (p c : Word) : Word := if c.getLsbD 0 then (c >>> 1) ^^^ p else c >>> 1

/-- One byte of a reflected 32-bit CRC. -/
def crcByte (p c : Word) (b : Byte) : Word :=
  let c := c ^^^ b.zeroExtend 32
  crcBit p (crcBit p (crcBit p (crcBit p (crcBit p (crcBit p (crcBit p (crcBit p c)))))))

/-- A reflected 32-bit CRC with initial value and final XOR of ones. -/
def crcRefl (p : Word) (bs : List Byte) : Word := ~~~(bs.foldl (crcByte p) 0xFFFFFFFF)

/-- CRC-32C: polynomial 0x1EDC_6F41 reflected (chapter 2, "The Almanac image"). -/
def crc32c (bs : List Byte) : Word := crcRefl 0x82F63B78 bs

/-- CRC-32 of a flit: polynomial 0x04C1_1DB7 reflected (R335). -/
def crc32 (bs : List Byte) : Word := crcRefl 0xEDB88320 bs

/-- One bit of the CRC-16 of R271: polynomial 0x8BB7, not reflected. -/
def crc16Bit (c : BitVec 16) : BitVec 16 := if c.getLsbD 15 then (c <<< 1) ^^^ 0x8BB7 else c <<< 1

/-- One byte of the CRC-16 of R271. -/
def crc16Byte (c : BitVec 16) (b : Byte) : BitVec 16 :=
  let c := c ^^^ (b.zeroExtend 16 <<< 8)
  crc16Bit (crc16Bit (crc16Bit (crc16Bit (crc16Bit (crc16Bit (crc16Bit (crc16Bit c)))))))

/-- CRC-16 with polynomial 0x8BB7, initial value 0xFFFF, no reflection and no final XOR (R271, R400). -/
def crc16 (bs : List Byte) : BitVec 16 := bs.foldl crc16Byte 0xFFFF

end Sys2Proof.Machine
end

