-- ==== Sys2Proof/Machine/Fixed.lean ====
section
/-! DEFINITION. Fixed-point arithmetic: rounding to nearest with ties to even and saturation (R209, R248), and the Q32
operations of the assembler and solver (R208 to R211), which count their saturation events. -/

namespace Sys2Proof.Machine

/-! ### Rounding and saturation -/

/-- v / d rounded to nearest with ties to even. -/
def rneDiv (v : Int) (d : Nat) : Int :=
  let fl := v / d
  let r := 2 * (v % d)
  if r < d then fl else if (d : Int) < r then fl + 1 else if fl % 2 = 0 then fl else fl + 1

/-- Saturation to a signed width; one event when it limits. -/
def satTo (bits : Nat) (v : Int) : Int × Nat :=
  let top : Int := 2 ^ (bits - 1) - 1
  if top < v then (top, 1) else if v < -top - 1 then (-top - 1, 1) else (v, 0)

/-- Signed 16 bits at [lo + 15:lo] of a word. -/
def s16 (w : Word) (lo : Nat) : Int := (BitVec.ofNat 16 (fld w (lo + 15) lo)).toInt

/-! ### Q32 operations that count their saturation events (R208 to R211) -/

/-- A computation that counts saturation events. -/
abbrev Counted (α : Type) := StateM Nat α

/-- A value limited to 32 bits. -/
def sat32 (v : Int) : Counted Int := fun n => let r := satTo 32 v; (r.1, n + r.2)

/-- One addition of the 80-bit accumulator: a sum outside its range becomes the nearer limit (R208). -/
def accAdd (a v : Int) : Counted Int := fun n =>
  let top : Int := 2 ^ 79 - 1
  let x := a + v
  if top < x then (top, n + 1) else if x < -top then (-top, n + 1) else (x, n)

/-- The accumulator after some exact products at one binary point, in ascending order (R208). -/
def accSum (vs : List Int) : Counted Int := vs.foldlM accAdd 0

/-- A value at binary point `from_` narrowed to 32 bits at `to_`: shifted, rounded to nearest with ties to even, saturated
(R209). -/
def narrow (v : Int) (from_ to_ : Nat) : Counted Int :=
  sat32 (if to_ ≤ from_ then rneDiv v (2 ^ (from_ - to_)) else v * 2 ^ (to_ - from_))

/-- The products of two lists, in ascending index order. -/
def products (xs ys : List Int) : List Int := (xs.zip ys).map (fun p => p.1 * p.2)

/-- A dot product of values at `fa` with values at `fb`, narrowed to `fc` (R208, R209). -/
def dotQ (fa fb fc : Nat) (xs ys : List Int) : Counted Int := do
  narrow (← accSum (products xs ys)) (fa + fb) fc

/-- A product narrowed to `fc`. -/
def mulQ (fa fb fc : Nat) (x y : Int) : Counted Int := dotQ fa fb fc [x] [y]

/-- The largest binary point of some terms. -/
def topPoint (terms : List (Int × Nat)) : Nat := terms.foldl (fun p t => max p t.2) 0

/-- A sum of terms at different binary points: all aligned exactly, the sum rounded once into `fc` (R209). -/
def sumQ (fc : Nat) (terms : List (Int × Nat)) : Counted Int := do
  let p := topPoint terms
  narrow (← accSum (terms.map (fun t => t.1 * 2 ^ (p - t.2)))) p fc

/-- A ratio of integers on the grid 2^−`fq`, rounded once (R209, R210). R210 knows no divisor 0; a model whose floor is 0 can
bring one, and the quotient is then a free value. -/
def roundRatio (n d : Int) (fq : Nat) : Int :=
  let n := if d < 0 then -n else n
  if d = 0 then Config.zeroQuotient n else rneDiv (n * 2 ^ fq) d.natAbs

/-- The same, saturated (R210). -/
def ratioQ (n d : Int) (fq : Nat) : Counted Int := sat32 (roundRatio n d fq)

/-- A quotient of values at the binary points `fa` and `fd` on the grid of `fq` (R210). -/
def quotQ (a : Int) (fa : Nat) (d : Int) (fd fq : Nat) : Counted Int := ratioQ (a * 2 ^ fd) (d * 2 ^ fa) fq

/-- Sum of two vectors at one binary point. -/
def addV (f : Nat) (xs ys : List Int) : Counted (List Int) := (xs.zip ys).mapM (fun p => sumQ f [(p.1, f), (p.2, f)])

/-- A vector's component. -/
def at0 (v : List Int) (i : Nat) : Int := v.getD i 0

/-- The cross product of vectors at `fa` and `fb`, narrowed to `fc`. -/
def crossQ (fa fb fc : Nat) (a b : List Int) : Counted (List Int) :=
  [(1, 2), (2, 0), (0, 1)].mapM (fun p => dotQ fa fb fc [at0 a p.1, -at0 a p.2] [at0 b p.2, at0 b p.1])

/-- A matrix times a vector. -/
def matVec (fa fb fc : Nat) (m : List (List Int)) (v : List Int) : Counted (List Int) := m.mapM (fun r => dotQ fa fb fc r v)

/-- Column `j` of a matrix. -/
def colOf (m : List (List Int)) (j : Nat) : List Int := m.map (fun r => at0 r j)

/-- The transpose of a matrix of `n` columns. -/
def transposeM (n : Nat) (m : List (List Int)) : List (List Int) := (List.range n).map (colOf m)

/-- A product of 3 × 3 matrices. -/
def matMul (fa fb fc : Nat) (a b : List (List Int)) : Counted (List (List Int)) :=
  a.mapM (fun r => (List.range 3).mapM (fun j => dotQ fa fb fc r (colOf b j)))

/-- What a computation yields, its events aside. -/
def valueOf {α : Type} (c : Counted α) : α := (c 0).1

/-- The saturation events of a computation. -/
def eventsOf {α : Type} (c : Counted α) : Nat := (c 0).2

/-- Words as the integers they stand for. -/
def intsOf (ws : List Word) : List Int := ws.map (·.toInt)

/-- A 3 × 3 matrix from nine entries, row by row. -/
def rowsOf3 (v : List Int) : List (List Int) := [v.take 3, (v.drop 3).take 3, (v.drop 6).take 3]

end Sys2Proof.Machine
end

