-- ==== Sys2Proof/Machine/Dynamics.lean ====
section
/-! DEFINITION. What the assembler builds (chapter 9): the tree's kinematics, M by the composite-rigid-body method, h, the
Jacobian rows with their drift terms, the constraint rows with their bounds, and J_c. The order of the elementary operations
and the blocks of intermediate values are the model's own, as R496 leaves them open (DESIGN CHOICE, log entry 156). Spatial
quantities are taken about the world's origin in world axes. -/

namespace Sys2Proof.Machine

open Sys2Proof.Config

/-! ### Blocks and low-order bits -/

/-- F of a block of the model (R207). -/
def fOf (i : SolveInput) (block : Nat) : Nat := i.model.fpoint.getD block 0

/-- Block ROT. -/
abbrev Blk.rot : Nat := 0
/-- Block LEN. -/
abbrev Blk.len : Nat := 1
/-- Block MASS. -/
abbrev Blk.mass : Nat := 2
/-- Block INER. -/
abbrev Blk.iner : Nat := 3
/-- Block MM. -/
abbrev Blk.mm : Nat := 4
/-- Block TAU. -/
abbrev Blk.tau : Nat := 5
/-- Block JAC. -/
abbrev Blk.jac : Nat := 6
/-- Block ACC. -/
abbrev Blk.acc : Nat := 7
/-- Block X. -/
abbrev Blk.x : Nat := 8
/-- Block WGT. -/
abbrev Blk.wgt : Nat := 9
/-- Block HQP. -/
abbrev Blk.hqp : Nat := 10
/-- Block LAM. -/
abbrev Blk.lam : Nat := 11
/-- Block DLS. -/
abbrev Blk.dls : Nat := 12
/-- Block POS. -/
abbrev Blk.pos : Nat := 13
/-- Block VEL. -/
abbrev Blk.vel : Nat := 14
/-- Block COEF. -/
abbrev Blk.coef : Nat := 15

/-- The difference of a quantity from the model's own value: less than 2^`lowBits` in magnitude, and of no more than the 16
low-order bits (R496; DESIGN CHOICE, log entry 74). -/
def lowDiff (i : SolveInput) (q : Quantity) (at_ : List Int) (k : Nat) : Int :=
  let m : Int := 2 ^ (lowBits % 17) - 1
  max (-m) (min m (lowOrder i q at_ k))

/-- A final quantity, in the block that R207 names for it: the model's value with the device's low-order bits. -/
def settled (i : SolveInput) (q : Quantity) (at_ : List Int) (k : Nat) (v : Int) : Counted Int := sat32 (v + lowDiff i q at_ k)

/-- The constant n / d in a block. -/
def constQ (i : SolveInput) (b : Nat) (n : Int) (d : Nat) : Int := (satTo 32 (rneDiv (n * 2 ^ fOf i b) d)).1

/-! ### Joints -/

/-- Degrees of freedom of a joint type; `none` for an unknown one (R213). -/
def typeDof (t : Nat) : Option Nat :=
  match t with
  | 1 => some 1
  | 2 => some 1
  | 3 => some 6
  | _ => none

/-- The first degree of freedom of joint `j`. -/
def dofOf (m : Model) (j : Nat) : Nat := ((m.joints.take j).map (fun x => (typeDof x.type).getD 0)).sum

/-- n: the QP variables. -/
def qpVars (i : SolveInput) : Nat := i.model.ndof + i.model.nf

/-- The measurement of a joint: of the axis that drives it. An unactuated joint has none, and stands at 0 (DESIGN CHOICE, log
entry 156). -/
def jointMeas (i : SolveInput) (j : Joint) : AxisMeas :=
  if j.axis = 0xFF then ⟨0, 0, false, none⟩ else (i.meas[j.axis]?).getD ⟨0, 0, false, none⟩

/-- A body of the tree in the world: its rotation (ROT) and origin (LEN), the motion columns of its joint (angular and linear
parts, JAC) from degree of freedom `dof` on, its velocity (VEL) and velocity-product acceleration (ACC), angular and linear at
the world's origin, and its mass (MASS), first moment and inertia about the world's origin (INER). -/
structure Body where
  parent : Nat
  dof    : Nat
  rot    : List (List Int)
  org    : List Int
  cols   : List (List Int × List Int)
  w      : List Int
  v      : List Int
  aw     : List Int
  av     : List Int
  mass   : Int
  first  : List Int
  iner   : List (List Int)
  deriving DecidableEq, Repr

/-- A vector of zeros. -/
def zero3 : List Int := [0, 0, 0]

/-- Unit vector `k` scaled by `one`. -/
def unit3 (one : Int) (k : Nat) : List Int := [0, 1, 2].map (fun j => if j = k then one else 0)

/-- The world, the parent of joint 0. -/
def worldBody (i : SolveInput) : Body :=
  { parent := 0xFF, dof := 0, rot := [0, 1, 2].map (unit3 (constQ i Blk.rot 1 1)), org := zero3, cols := [], w := zero3,
    v := zero3, aw := zero3, av := zero3, mass := 0, first := zero3, iner := [zero3, zero3, zero3] }

/-! ### Rotations -/

/-- π/2 in units of 2^−61. -/
def halfPi61 : Int := 3622009729038561421

/-- A polynomial in `y` (ROT) by Horner's rule, constant term first. -/
def hornerQ (i : SolveInput) (y : Int) : List Int → Counted Int
  | [] => pure 0
  | c :: r => do
    let t ← mulQ (fOf i Blk.rot) (fOf i Blk.rot) (fOf i Blk.rot) y (← hornerQ i y r)
    sumQ (fOf i Blk.rot) [(c, fOf i Blk.rot), (t, fOf i Blk.rot)]

/-- cos θ and sin θ in block ROT of an angle in block POS: the angle less the nearest multiple of π/2, and a Taylor
polynomial. -/
def cosSin (i : SolveInput) (angle : Int) : Counted (Int × Int) := do
  let fp := fOf i Blk.pos
  let fr := fOf i Blk.rot
  let k := rneDiv (angle * 2 ^ 61) (halfPi61 * 2 ^ fp).toNat
  let r ← narrow (angle * 2 ^ (61 - fp) - k * halfPi61) 61 fr
  let r2 ← mulQ fr fr fr r r
  let c := fun n d => constQ i Blk.rot n d
  let u ← mulQ fr fr fr r2 (← hornerQ i r2 [c (-1) 2, c 1 24, c (-1) 720, c 1 40320])
  let t ← mulQ fr fr fr r2 (← hornerQ i r2 [c (-1) 6, c 1 120, c (-1) 5040, c 1 362880])
  let cs ← sumQ fr [(1, 0), (u, fr)]
  let sn ← sumQ fr [(r, fr), (r * t, fr + fr)]
  pure (match k % 4 with
    | 0 => (cs, sn)
    | 1 => (-sn, cs)
    | 2 => (-cs, -sn)
    | _ => (sn, -cs))

/-- Rotation by an angle about a unit axis: cos · 1 + sin · [a]× + (1 − cos) a aᵀ. -/
def rodrigues (i : SolveInput) (a : List Int) (c s : Int) : Counted (List (List Int)) := do
  let fr := fOf i Blk.rot
  let b ← a.mapM (fun x => sumQ fr [(x, fr), (-(x * c), fr + fr)])
  let skew : List (List Int) := [[0, -at0 a 2, at0 a 1], [at0 a 2, 0, -at0 a 0], [-at0 a 1, at0 a 0, 0]]
  [0, 1, 2].mapM (fun j => [0, 1, 2].mapM (fun k =>
    sumQ fr [(if j = k then c else 0, fr), (s * at0 (skew.getD j []) k, fr + fr), (at0 b j * at0 a k, fr + fr)]))

/-! ### The tree -/

/-- The sum over a joint's columns of column × rate, angular and linear, in block VEL. -/
def jointRate (i : SolveInput) (cols : List (List Int × List Int)) (rates : List Int) : Counted (List Int × List Int) := do
  let part := fun (f : List Int × List Int → List Int) =>
    [0, 1, 2].mapM (fun k => dotQ (fOf i Blk.jac) (fOf i Blk.vel) (fOf i Blk.vel) (cols.map (fun c => at0 (f c) k)) rates)
  pure (← part (·.1), ← part (·.2))

/-- Mass, first moment and inertia of joint `j`'s body about the world's origin. -/
def bodyInertia (i : SolveInput) (j : Joint) (rot : List (List Int)) (org : List Int) :
    Counted (Int × List Int × List (List Int)) := do
  let fr := fOf i Blk.rot
  let fl := fOf i Blk.len
  let fi := fOf i Blk.iner
  let p ← addV fl org (← matVec fr fl fl rot (intsOf j.com))
  let h ← p.mapM (fun x => mulQ (fOf i Blk.mass) fl fi j.mass.toInt x)
  let e := intsOf j.inertia
  let ic : List (List Int) :=
    [[at0 e 0, at0 e 3, at0 e 4], [at0 e 3, at0 e 1, at0 e 5], [at0 e 4, at0 e 5, at0 e 2]]
  let t ← matMul fr fi fi rot ic
  let world ← matMul fi fr fi t (transposeM 3 rot)
  let hp ← dotQ fi fl fi h p
  let all ← [0, 1, 2].mapM (fun a => [0, 1, 2].mapM (fun b =>
    sumQ fi [(at0 (world.getD a []) b, fi), (if a = b then hp else 0, fi), (-(at0 h a * at0 p b), fi + fl)]))
  pure (j.mass.toInt, h, all)

/-- The frame and motion columns of joint `j` under its parent: rotation, origin, columns. -/
def jointFrame (i : SolveInput) (j : Joint) (p : Body) : Counted (List (List Int) × List Int × List (List Int × List Int)) := do
  let fr := fOf i Blk.rot
  let fl := fOf i Blk.len
  let fj := fOf i Blk.jac
  let org ← addV fl p.org (← matVec fr fl fl p.rot (intsOf j.framePos))
  if j.type = 3 then
    -- the base: BASE_ROT is its orientation in the world (R216)
    let lin := [0, 1, 2].map (fun k => (zero3, unit3 (constQ i Blk.jac 1 1) k))
    let ang ← [0, 1, 2].mapM (fun k => do
      let e := unit3 (constQ i Blk.jac 1 1) k
      pure (e, ← crossQ fl fj fj org e))
    pure (rowsOf3 (intsOf i.task.baseRot), org, lin ++ ang)
  else
    let frame ← matMul fr fr fr p.rot (rowsOf3 (intsOf j.frameRot))
    let axis ← matVec fr fr fr frame (intsOf j.jaxis)
    let q := (jointMeas i j).q.toInt
    let a ← axis.mapM (fun x => narrow x fr fj)
    if j.type = 1 then
      let cs ← cosSin i q
      let rot ← matMul fr fr fr frame (← rodrigues i (intsOf j.jaxis) cs.1 cs.2)
      pure (rot, org, [(a, ← crossQ fl fj fj org a)])
    else
      let org ← addV fl org (← axis.mapM (fun x => mulQ fr (fOf i Blk.pos) fl x q))
      pure (frame, org, [(zero3, a)])

/-- The rates of a joint's degrees of freedom, in block VEL. -/
def jointRates (i : SolveInput) (j : Joint) : List Int :=
  if j.type = 3 then intsOf i.task.baseVel else [(jointMeas i j).qd.toInt]

/-- Joint `k`'s body, from those before it. -/
def makeBody (i : SolveInput) (k : Nat) (j : Joint) (bodies : List Body) : Counted Body := do
  let fv := fOf i Blk.vel
  let fa := fOf i Blk.acc
  let p := bodies.getD j.parent (worldBody i)
  let fr ← jointFrame i j p
  let rates := jointRates i j
  let s ← jointRate i fr.2.2 rates
  let w ← addV fv p.w s.1
  let v ← addV fv p.v s.2
  -- what the columns' own motion adds: for the base, that of its angular columns with its origin
  let da ← if j.type = 3 then pure zero3 else crossQ fv fv fa w s.1
  let dv ← if j.type = 3 then crossQ fv fv fa (rates.take 3) (rates.drop 3) else do
    addV fa (← crossQ fv fv fa w s.2) (← crossQ fv fv fa v s.1)
  let b ← bodyInertia i j fr.1 fr.2.1
  pure { parent := j.parent, dof := dofOf i.model k, rot := fr.1, org := fr.2.1, cols := fr.2.2, w := w, v := v,
         aw := ← addV fa p.aw da, av := ← addV fa p.av dv, mass := b.1, first := b.2.1, iner := b.2.2 }

/-- The bodies of the tree, in joint order. -/
def makeBodies (i : SolveInput) : Counted (List Body) :=
  i.model.joints.zipIdx.foldlM (fun bs p => do pure (bs ++ [← makeBody i p.2 p.1 bs])) []

/-- The joints from `j` up to the root, at most `n` of them. -/
def chainOf (bodies : List Body) : Nat → Nat → List Nat
  | 0, _ => []
  | n + 1, j =>
    match bodies[j]? with
    | some b => j :: chainOf bodies n b.parent
    | none => []

/-- The columns of the joints from `j` up to the root, with their degrees of freedom. -/
def chainCols (bodies : List Body) (j : Nat) : List (Nat × List Int × List Int) :=
  (chainOf bodies bodies.length j).flatMap (fun k =>
    match bodies[k]? with
    | some b => b.cols.zipIdx.map (fun c => (b.dof + c.2, c.1))
    | none => [])

/-! ### M and h -/

/-- The moment and force, in block `fc`, of an inertia on a motion at binary point `fx`: (I w + h × v, m v + w × h). -/
def applyInertia (i : SolveInput) (m : Int) (h : List Int) (iner : List (List Int)) (fx fc : Nat) (w v : List Int) :
    Counted (List Int × List Int) := do
  let fi := fOf i Blk.iner
  let fm := fOf i Blk.mass
  let idx : List (Nat × Nat × Nat) := [(0, 1, 2), (1, 2, 0), (2, 0, 1)]
  let n ← idx.mapM (fun p => sumQ fc
    ([0, 1, 2].map (fun k => (at0 (iner.getD p.1 []) k * at0 w k, fi + fx)) ++
      [(at0 h p.2.1 * at0 v p.2.2, fi + fx), (-(at0 h p.2.2 * at0 v p.2.1), fi + fx)]))
  let f ← idx.mapM (fun p => sumQ fc
    [(m * at0 v p.1, fm + fx), (at0 w p.2.1 * at0 h p.2.2, fi + fx), (-(at0 w p.2.2 * at0 h p.2.1), fi + fx)])
  pure (n, f)

/-- The composite inertia of body `j` and all that hang from it. -/
def addInertia (i : SolveInput) (a b : Int × List Int × List (List Int)) : Counted (Int × List Int × List (List Int)) := do
  let fi := fOf i Blk.iner
  pure (← sumQ (fOf i Blk.mass) [(a.1, fOf i Blk.mass), (b.1, fOf i Blk.mass)], ← addV fi a.2.1 b.2.1,
    ← (a.2.2.zip b.2.2).mapM (fun r => addV fi r.1 r.2))

/-- The composite inertias of all bodies, from the last joint to the first. -/
def composites (i : SolveInput) (bodies : List Body) : Counted (List (Int × List Int × List (List Int))) :=
  (List.range bodies.length).reverse.foldlM (fun cs k =>
    match bodies[k]? with
    | some b =>
      let own := cs.getD k (0, zero3, [])
      match cs[b.parent]? with
      | some up => do pure (cs.set b.parent (← addInertia i up own))
      | none => pure cs
    | none => pure cs) (bodies.map (fun b => (b.mass, b.first, b.iner)))

/-- The entries of M below and on the diagonal that joint `k` gives, by the composite-rigid-body method: (row, column,
value). -/
def massEntries (i : SolveInput) (bodies : List Body) (cs : List (Int × List Int × List (List Int))) (k : Nat) :
    Counted (List (Nat × Nat × Int)) :=
  match bodies[k]? with
  | none => pure []
  | some b => do
    let c := cs.getD k (0, zero3, [])
    let fj := fOf i Blk.jac
    let fm := fOf i Blk.mm
    let parts ← b.cols.zipIdx.mapM (fun s => do
      let nf ← applyInertia i c.1 c.2.1 c.2.2 fj fm s.1.1 s.1.2
      let d := b.dof + s.2
      ((chainCols bodies k).filter (fun e => decide (e.1 ≤ d))).mapM (fun e => do
        let v ← dotQ fj fm fm (e.2.1 ++ e.2.2) (nf.1 ++ nf.2)
        pure (d, e.1, ← settled i .mass [] (d * 64 + e.1) v)))
    pure parts.flatten

/-- A square matrix of size `n` from its lower entries. -/
def symmetric (n : Nat) (es : List (Nat × Nat × Int)) : List (List Int) :=
  (List.range n).map (fun r => (List.range n).map (fun c =>
    ((es.find? (fun e => decide (e.1 = max r c) && decide (e.2.1 = min r c))).map (·.2.2)).getD 0))

/-- M. -/
def massMatrix (i : SolveInput) (bodies : List Body) : Counted (List (List Int)) := do
  let cs ← composites i bodies
  let es ← (List.range bodies.length).mapM (massEntries i bodies cs)
  pure (symmetric i.model.ndof es.flatten)

/-- The moment and force that body `b`'s motion and gravity ask of its joint's subtree, about the world's origin, in block
TAU. -/
def bodyForce (i : SolveInput) (b : Body) : Counted (List Int × List Int) := do
  let ft := fOf i Blk.tau
  let fv := fOf i Blk.vel
  let fa := fOf i Blk.acc
  let av ← addV fa b.av [0, 0, i.model.gravity.toInt]
  let fA ← applyInertia i b.mass b.first b.iner fa ft b.aw av
  let mom ← applyInertia i b.mass b.first b.iner fv ft b.w b.v
  let n ← addV ft (← crossQ fv ft ft b.w mom.1) (← crossQ fv ft ft b.v mom.2)
  let f ← crossQ fv ft ft b.w mom.2
  pure (← addV ft fA.1 n, ← addV ft fA.2 f)

/-- h, by degree of freedom: the bodies' forces summed from the last joint to the first and projected on the columns. -/
def biasForces (i : SolveInput) (bodies : List Body) : Counted (List Int) := do
  let ft := fOf i Blk.tau
  let own ← bodies.mapM (bodyForce i)
  let all ← (List.range bodies.length).reverse.foldlM (fun fs k =>
    match bodies[k]?, fs[k]? with
    | some b, some x =>
      match fs[b.parent]? with
      | some up => do pure (fs.set b.parent (← addV ft up.1 x.1, ← addV ft up.2 x.2))
      | none => pure fs
    | _, _ => pure fs) own
  let hs ← (bodies.zip all).mapM (fun p => p.1.cols.zipIdx.mapM (fun c => do
    settled i .bias [] (p.1.dof + c.2)
      (← dotQ (fOf i Blk.jac) ft ft (c.1.1 ++ c.1.2) (p.2.1 ++ p.2.2))))
  pure hs.flatten

/-! ### Jacobians -/

/-- A point of body `j`'s joint frame in the world, in block LEN. -/
def worldPoint (i : SolveInput) (b : Body) (point : List Word) : Counted (List Int) := do
  addV (fOf i Blk.len) b.org (← matVec (fOf i Blk.rot) (fOf i Blk.len) (fOf i Blk.len) b.rot (intsOf point))

/-- The linear velocity of a world point per unit rate of each column from `j` up: v + w × p, in block JAC. -/
def pointCols (i : SolveInput) (bodies : List Body) (j : Nat) (p : List Int) : Counted (List (Nat × List Int)) := do
  let fj := fOf i Blk.jac
  (chainCols bodies j).mapM (fun e => do pure (e.1, ← addV fj e.2.2 (← crossQ fj (fOf i Blk.len) fj e.2.1 p)))

/-- A row over the degrees of freedom from entries; the others are 0. -/
def spreadRow (n : Nat) (es : List (Nat × Int)) : List Int :=
  (List.range n).map (fun k => ((es.find? (fun e => e.1 = k)).map (·.2)).getD 0)

/-- Row J_i of task row `k` (R216): DIR 0 to 2 the point's linear velocity along a world axis, 3 to 5 the body's angular
velocity; a row on the world has none. -/
def taskJacobian (i : SolveInput) (bodies : List Body) (k : Nat) (r : TaskRow) : Counted (List Int) :=
  match bodies[r.body]? with
  | none => pure (spreadRow i.model.ndof [])
  | some b => do
    let p ← worldPoint i b r.point
    let es ← if r.dir < 3 then do
        pure ((← pointCols i bodies r.body p).map (fun e => (e.1, at0 e.2 r.dir)))
      else pure ((chainCols bodies r.body).map (fun e => (e.1, at0 e.2.1 (r.dir - 3))))
    let es ← es.mapM (fun e => do pure (e.1, ← settled i .jacobian [] (k * 64 + e.1) e.2))
    pure (spreadRow i.model.ndof es)

/-- Drift term J̇_i q̇ of task row `k`, in block ACC. -/
def taskDrift (i : SolveInput) (bodies : List Body) (k : Nat) (r : TaskRow) : Counted Int :=
  match bodies[r.body]? with
  | none => pure 0
  | some b => do
    let fa := fOf i Blk.acc
    let fl := fOf i Blk.len
    let fv := fOf i Blk.vel
    if r.dir < 3 then
      let p ← worldPoint i b r.point
      let vp ← addV fv b.v (← crossQ fv fl fv b.w p)
      let a ← addV fa (← addV fa b.av (← crossQ fa fl fa b.aw p)) (← crossQ fv fv fa b.w vp)
      settled i .drift [] k (at0 a r.dir)
    else settled i .drift [] k (at0 b.aw (r.dir - 3))

/-- The linear Jacobian of a body point projected on a world direction, before its low-order bits. -/
def dirJacobian (i : SolveInput) (bodies : List Body) (body : Nat) (point dir : List Word) : Counted (List (Nat × Int)) :=
  match bodies[body]? with
  | none => pure []
  | some b => do
    let p ← worldPoint i b point
    (← pointCols i bodies body p).mapM (fun e => do
      pure (e.1, ← dotQ (fOf i Blk.jac) (fOf i Blk.rot) (fOf i Blk.jac) e.2 (intsOf dir)))

/-- Row `k` of J_c (R217): that of binding `k`; an unbound variable has none. -/
def contactRow (i : SolveInput) (bodies : List Body) (k : Nat) : Counted (List Int) :=
  match i.con.binds[k]? with
  | none => pure (spreadRow i.model.ndof [])
  | some b => do
    let es ← dirJacobian i bodies b.body b.point b.dir
    let es ← es.mapM (fun e => do pure (e.1, ← settled i .contact [] (k * 64 + e.1) e.2))
    pure (spreadRow i.model.ndof es)

/-! ### The constraint rows (R217, R218) -/

/-- A table row's coefficients without a Jacobian term: the sum of COEF_k at IDX_k, in block COEF. -/
def plainRow (n : Nat) (r : ConRow) : Counted (List Int) :=
  (List.range n).mapM (fun j => do
    sat32 (← accSum (((r.idx.zip r.coef).filter (fun p => p.1 = j)).map (fun p => p.2.toInt))))

/-- Row `k` of A from the table: CJ × (DIR · J_point) + Σ COEF_k e_(IDX_k), in block COEF. -/
def tableRow (i : SolveInput) (bodies : List Body) (k : Nat) (r : ConRow) : Counted (List Int) :=
  if r.body = 0xFF then plainRow (qpVars i) r
  else do
    let fc := fOf i Blk.coef
    let es ← dirJacobian i bodies r.body r.point r.dir
    (List.range (qpVars i)).mapM (fun j => do
      let coefs := ((r.idx.zip r.coef).filter (fun p => p.1 = j)).map (fun p => (p.2.toInt, fc))
      match es.find? (fun e => e.1 = j) with
      | none => sumQ fc coefs
      | some e => settled i .row [] (k * 64 + j) (← sumQ fc ((r.cj.toInt * e.2, fc + fOf i Blk.jac) :: coefs)))

/-- The torque expression's coefficients at degree of freedom `d` (R224): M over q̈, −J_c over the forces, in block COEF. -/
def torqueRow (i : SolveInput) (mm contact : List (List Int)) (d : Nat) : Counted (List Int) := do
  let fc := fOf i Blk.coef
  pure ((← (mm.getD d []).mapM (fun v => narrow v (fOf i Blk.mm) fc)) ++
    (← contact.mapM (fun r => narrow (-(at0 r d)) (fOf i Blk.jac) fc)))

/-- The joints with torque rows: the actuated ones, when TORQUE_ROWS is set. -/
def torqueJoints (m : Model) : List (Joint × Nat) :=
  if m.torqueRows then m.joints.zipIdx.filter (fun p => decide (p.1.axis ≠ 0xFF)) else []

/-- The joints with limit rows: revolute or prismatic with Q_MIN < Q_MAX, when LIMIT_ROWS is set. -/
def limitJoints (m : Model) : List (Joint × Nat) :=
  if m.limitRows then
    m.joints.zipIdx.filter (fun p => (decide (p.1.type = 1) || decide (p.1.type = 2)) && p.1.qMin.slt p.1.qMax)
  else []

/-- The two torque rows of a joint with their bounds: τ ≥ −TAU_MAX, then −τ ≥ −TAU_MAX (DESIGN CHOICE, log entry 156). -/
def torqueRows (i : SolveInput) (mm contact : List (List Int)) (bias : List Int) (p : Joint × Nat) :
    Counted (List (List Int × Int)) := do
  let d := dofOf i.model p.2
  let ft := fOf i Blk.tau
  let r ← torqueRow i mm contact d
  let bound := fun (s : Int) => sumQ (fOf i Blk.acc) [(-p.1.tauMax.toInt, ft), (s * at0 bias d, ft)]
  pure [(r, ← bound (-1)), (← r.mapM (fun v => sat32 (-v)), ← bound 1)]

/-- 2 (Q − q − q̇ T) / T² with T the solver period, in block ACC (R218). -/
def limitBound (i : SolveInput) (m : AxisMeas) (q : Word) : Counted Int :=
  let fp := fOf i Blk.pos
  let fv := fOf i Blk.vel
  let us : Int := i.periodUs
  ratioQ (2 * 10 ^ 6 * ((q.toInt - m.q.toInt) * 2 ^ fv * 10 ^ 6 - m.qd.toInt * us * 2 ^ fp)) (us * us * 2 ^ (fp + fv))
    (fOf i Blk.acc)

/-- The two limit rows of a joint with their bounds: q̈ ≥ and −q̈ ≥ (R218). -/
def limitRows (i : SolveInput) (p : Joint × Nat) : Counted (List (List Int × Int)) := do
  let d := dofOf i.model p.2
  let one ← sat32 (2 ^ fOf i Blk.coef)
  let e := fun (v : Int) => (List.range (qpVars i)).map (fun k => if k = d then v else 0)
  let m := jointMeas i p.1
  pure [(e one, ← limitBound i m p.1.qMin), (e (-one), ← sat32 (-(← limitBound i m p.1.qMax)))]

/-- The automatic rows with their bounds: the torque rows, then the limit rows, each in joint order (R218). -/
def autoRowList (i : SolveInput) (mm contact : List (List Int)) (bias : List Int) : Counted (List (List Int × Int)) := do
  let t ← (torqueJoints i.model).mapM (torqueRows i mm contact bias)
  let l ← (limitJoints i.model).mapM (limitRows i)
  (t.flatten ++ l.flatten).zipIdx.mapM (fun p => do
    let k := i.con.count + p.2
    pure (← p.1.1.zipIdx.mapM (fun e => if e.1 = 0 then pure 0 else settled i .row [] (k * 64 + e.2) e.1),
      ← settled i .bound [] k p.1.2))

/-- ASSEMBLE: M, h, the Jacobian rows and drift terms, A and b, J_c (R220). -/
def assemble (i : SolveInput) : Counted Assembled := do
  let bodies ← makeBodies i
  let mm ← massMatrix i bodies
  let bias ← biasForces i bodies
  let contact ← (List.range i.model.nf).mapM (contactRow i bodies)
  let table ← i.con.rows.zipIdx.mapM (fun p => tableRow i bodies p.2 p.1)
  let auto ← autoRowList i mm contact bias
  pure { mm := mm, bias := bias, jac := ← i.task.rows.zipIdx.mapM (fun p => taskJacobian i bodies p.2 p.1),
         drift := ← i.task.rows.zipIdx.mapM (fun p => taskDrift i bodies p.2 p.1),
         rows := table ++ auto.map (·.1), bounds := i.con.rows.map (fun r => r.bound.toInt) ++ auto.map (·.2),
         contact := contact }

end Sys2Proof.Machine
end

