-- ==== Sys2Proof/Machine/Qp.lean ====
section
/-! DEFINITION. The dense algebra of the solver: the factorisations with their pivot floors (R221, R222), damped least squares
(R223), the QP's Hessian and gradient, and one active-set iteration (R224, R225). The steps of R224, the order of dot products
and the pivot rule are the manual's; the rest of the sequence is the model's own (R496; DESIGN CHOICE, log entry 156). -/

namespace Sys2Proof.Machine

open Sys2Proof.Config

/-! ### Sizes (R218, R220) -/

/-- The rows that the assembler appends (R218). -/
def autoRows (m : Model) : Nat := 2 * (torqueJoints m).length + 2 * (limitJoints m).length

/-- m: the row count. -/
def qpRows (i : SolveInput) : Nat := i.con.count + autoRows i.model

/-- NQ: task rows of KIND 1 or 3. -/
def taskNq (i : SolveInput) : Nat := (i.task.rows.filter (fun r => decide (r.kind = 1) || decide (r.kind = 3))).length

/-- NIK: task rows of KIND 2 or 3. -/
def taskNik (i : SolveInput) : Nat := (i.task.rows.filter (fun r => decide (r.kind = 2) || decide (r.kind = 3))).length

/-- The task rows of a kind with their Jacobian rows and drift terms. -/
def rowsWith (i : SolveInput) (a : Assembled) (kind : Nat) : List (TaskRow × List Int × Int) :=
  (i.task.rows.zip (a.jac.zip a.drift)).filter (fun r => decide (r.1.kind = kind) || decide (r.1.kind = 3))

/-! ### Factorisations (R221, R222) -/

/-- The floor of a factorisation: 0 M, 1 DLS, 2 H, and 3 the matrix of the rows held in an iteration, whose pivots are raised to
FLOOR_H. -/
def floorOf (i : SolveInput) (fact : Nat) : Word :=
  match fact with
  | 0 => i.model.floorM
  | 1 => i.model.floorDls
  | _ => i.model.floorH

/-- The block of a factorisation's matrix and of its D (R207). -/
def factBlock (fact : Nat) : Nat :=
  match fact with
  | 0 => Blk.mm
  | 1 => Blk.dls
  | _ => Blk.hqp

/-- The columns of a factorisation; the DLS matrix is not formed when NIK is 0. -/
def factSize (i : SolveInput) (fact : Nat) : Nat :=
  match fact with
  | 0 => i.model.ndof
  | 1 => if taskNik i = 0 then 0 else i.model.ndof
  | _ => qpVars i

/-- L_jk d_k for the columns k before j, in the block of D. -/
def scaledRow (i : SolveInput) (fact : Nat) (f : Factor) (j : Nat) : Counted (List Int) :=
  let fd := fOf i (factBlock fact)
  ((colOf f.lower j).zip f.diag).mapM (fun p => mulQ (fOf i Blk.coef) fd fd p.1 p.2)

/-- A_rj − Σ_k L_rk (L_jk d_k), in the block of D. -/
def reduced (i : SolveInput) (fact : Nat) (a : List (List Int)) (f : Factor) (r j : Nat) (v : List Int) : Counted Int := do
  let fd := fOf i (factBlock fact)
  let fl := fOf i Blk.coef
  let ps := (products (colOf f.lower r) v).map (fun p => -p)
  narrow (← accSum (at0 (a.getD r []) j * 2 ^ fl :: ps)) (fl + fd) fd

/-- Pivot d_j before its test, computed in full (R221). -/
def rawPivot (i : SolveInput) (fact : Nat) (a : List (List Int)) (f : Factor) (j : Nat) : Counted Int := do
  settled i (.pivot fact) [] j (← reduced i fact a f j j (← scaledRow i fact f j))

/-- One more column of LDLᵀ: a pivot at or below the floor is replaced by it (R222). -/
def ldlColumn (i : SolveInput) (fact : Nat) (a : List (List Int)) (f : Factor) (j : Nat) : Counted Factor := do
  let d ← rawPivot i fact a f j
  let floor := (floorOf i fact).toInt
  let dj := if d ≤ floor then floor else d
  let v ← scaledRow i fact f j
  let fd := fOf i (factBlock fact)
  let col ← (List.range a.length).mapM (fun r =>
    if r ≤ j then pure 0
    else do settled i (.lower fact) [] (j * 64 + r) (← quotQ (← reduced i fact a f r j v) fd dj fd (fOf i Blk.coef)))
  pure ⟨f.lower ++ [col], f.diag ++ [dj], if d ≤ floor then f.floored ++ [j] else f.floored⟩

/-- LDLᵀ of the first `n` columns, in ascending order (R221). -/
def ldl (i : SolveInput) (fact : Nat) (a : List (List Int)) : Nat → Counted Factor
  | 0 => pure Factor.empty
  | n + 1 => do ldlColumn i fact a (← ldl i fact a n) n

/-- L z = b, from the first row; `fb` is the binary point of b and z. -/
def forwardSolve (i : SolveInput) (f : Factor) (fb : Nat) (b : List Int) : Counted (List Int) :=
  b.zipIdx.foldlM (fun z p => do
    let ps := (products (colOf f.lower p.2) z).map (fun x => -x)
    let s ← accSum (p.1 * 2 ^ fOf i Blk.coef :: ps)
    pure (z ++ [← narrow s (fOf i Blk.coef + fb) fb])) []

/-- Lᵀ x = y, from the last row. -/
def backSolve (i : SolveInput) (f : Factor) (fx : Nat) (y : List Int) : Counted (List Int) :=
  (y.zipIdx.reverse).foldlM (fun x p => do
    let ps := (products (((f.lower.getD p.2 []).drop (p.2 + 1))) x).map (fun v => -v)
    let s ← accSum (p.1 * 2 ^ fOf i Blk.coef :: ps)
    pure ((← narrow s (fOf i Blk.coef + fx) fx) :: x)) []

/-- The solution of LDLᵀ x = b, with b at `fb` and x at `fx`. -/
def ldlSolve (i : SolveInput) (fact : Nat) (f : Factor) (fb fx : Nat) (b : List Int) : Counted (List Int) := do
  let z ← forwardSolve i f fb b
  let y ← (z.zip f.diag).mapM (fun p => quotQ p.1 fb p.2 (fOf i (factBlock fact)) fx)
  backSolve i f fx y

/-! ### The phases before the iterations (R220, R223) -/

/-- τ_prev by degree of freedom: 0 where none is actuated, or without a previous record (R220). -/
def prevTau (i : SolveInput) : List Int :=
  let t := (i.prevTau.map intsOf).getD []
  i.model.joints.zipIdx.flatMap (fun p =>
    if p.1.type = 3 then List.replicate 6 0 else [at0 t p.2])

/-- q̈₀ = M⁻¹ (τ_prev − h), in block ACC (R220). -/
def warmAcc (i : SolveInput) (a : Assembled) (f : Factor) : Counted (List Int) := do
  let ft := fOf i Blk.tau
  let b ← ((prevTau i).zip a.bias).mapM (fun p => sumQ ft [(p.1, ft), (-p.2, ft)])
  let x ← ldlSolve i 0 f ft (fOf i Blk.acc) b
  x.zipIdx.mapM (fun p => settled i .warm [] p.2 p.1)

/-- A symmetric matrix Σ v_r u_rᵀ + diag over rows (u, v), v at `fv` and u in JAC, into block `b`. -/
def gramQ (i : SolveInput) (b n : Nat) (fv : Nat) (rows : List (List Int × List Int)) (diag : Int) :
    Counted (List (List Int)) := do
  let fb := fOf i b
  let es ← (List.range n).mapM (fun r => (List.range (r + 1)).mapM (fun c => do
    let ps := rows.map (fun x => (at0 x.2 r * at0 x.1 c, fv + fOf i Blk.jac))
    pure (r, c, ← sumQ fb (ps ++ (if r = c then [(diag, fb)] else [])))))
  pure (symmetric n es.flatten)

/-- The DLS matrix JᵀJ + λ² I (R223). -/
def dlsMatrix (i : SolveInput) (a : Assembled) : Counted (List (List Int)) :=
  gramQ i Blk.dls i.model.ndof (fOf i Blk.jac) ((rowsWith i a 2).map (fun r => (r.2.1, r.2.1))) i.model.lambda2.toInt

/-- Δq: (JᵀJ + λ² I) Δq = Jᵀ e, in block POS (R223). -/
def deltaQ (i : SolveInput) (a : Assembled) (f : Factor) : Counted (List Int) := do
  let fp := fOf i Blk.pos
  let rs := rowsWith i a 2
  let b ← (List.range i.model.ndof).mapM (fun k =>
    dotQ (fOf i Blk.jac) fp fp (rs.map (fun r => at0 r.2.1 k)) (rs.map (fun r => r.1.error.toInt)))
  let x ← ldlSolve i 1 f fp fp b
  x.zipIdx.mapM (fun p => settled i .deltaQ [] p.2 p.1)

/-- The task rows of the QP: J̃ padded with zeros over the forces, w J̃ in block HQP, and TARGET less drift. -/
def qpTasks (i : SolveInput) (a : Assembled) : Counted (List (List Int × List Int × Int)) :=
  (rowsWith i a 1).mapM (fun r => do
    let j := r.2.1 ++ List.replicate i.model.nf 0
    let wj ← j.mapM (fun v => mulQ (fOf i Blk.wgt) (fOf i Blk.jac) (fOf i Blk.hqp) r.1.weight.toInt v)
    pure (j, wj, ← sumQ (fOf i Blk.acc) [(r.1.target.toInt, fOf i Blk.acc), (-r.2.2, fOf i Blk.acc)]))

/-- H and g, in block HQP ("The active-set QP"). Over the forces J̃ is 0, and they are exact there. -/
def qpSetup (i : SolveInput) (a : Assembled) : Counted (List (List Int) × List Int) := do
  let ts ← qpTasks i a
  let n := qpVars i
  let fh := fOf i Blk.hqp
  let h ← gramQ i Blk.hqp n fh (ts.map (fun t => (t.1, t.2.1))) i.model.reg.toInt
  let h ← h.zipIdx.mapM (fun r => r.1.zipIdx.mapM (fun e => if ts.isEmpty || decide (i.model.ndof ≤ max r.2 e.2) then pure e.1
    else settled i .hessian [] (max r.2 e.2 * 64 + min r.2 e.2) e.1))
  let g ← (List.range n).mapM (fun k => do
    let s ← accSum (ts.map (fun t => -(at0 t.2.1 k * t.2.2)))
    let v ← narrow s (fh + fOf i Blk.acc) fh
    if ts.isEmpty || decide (i.model.ndof ≤ k) then pure v else settled i .gradient [] k v)
  pure (h, g)

/-- A phase's results in the solve's working memory (R220). -/
def phaseWork (i : SolveInput) (phase : Nat) (w : Work) : Counted Work :=
  match phase with
  | 2 => do pure { w with asm := ← assemble i }
  | 3 => do
    let f ← ldl i 0 w.asm.mm (factSize i 0)
    pure { w with factM := f, acc0 := ← warmAcc i w.asm f }
  | 4 =>
    if taskNik i = 0 then pure w
    else do
      let f ← ldl i 1 (← dlsMatrix i w.asm) (factSize i 1)
      pure { w with factD := f, dq := ← deltaQ i w.asm f }
  | 5 => do
    let hg ← qpSetup i w.asm
    pure { w with hess := hg.1, grad := hg.2, factH := ← ldl i 2 hg.1 (factSize i 2) }
  | _ => pure w

/-! ### Rows at a point (R224, R225) -/

/-- KIND of row `k`: the automatic rows are inequalities; a KIND that is neither leaves the row inactive. -/
def kindOf (i : SolveInput) (k : Nat) : Nat :=
  match i.con.rows[k]? with
  | some r => r.kind
  | none => 1

/-- The rows of a KIND. -/
def rowsOfKind (i : SolveInput) (kind : Nat) : List Nat := (List.range (qpRows i)).filter (fun k => kindOf i k = kind)

/-- a · v of row `k` for v in block X, in block ACC. -/
def rowDot (i : SolveInput) (a : Assembled) (k : Nat) (v : List Int) : Counted Int :=
  dotQ (fOf i Blk.coef) (fOf i Blk.x) (fOf i Blk.acc) (a.rows.getD k []) v

/-- b − a · x of row `k`: the bound and the products aligned exactly, the sum rounded once into block ACC (R208, R209). -/
def slack (i : SolveInput) (a : Assembled) (k : Nat) (x : List Int) : Counted Int := do
  let s ← accSum (products (a.rows.getD k []) x)
  sumQ (fOf i Blk.acc) [(at0 a.bounds k, fOf i Blk.acc), (-s, fOf i Blk.coef + fOf i Blk.x)]

/-- By how much row `k` is violated: 0 for an inactive row; its events count (R211). -/
def violationQ (i : SolveInput) (a : Assembled) (x : List Int) (k : Nat) : Counted Int :=
  match kindOf i k with
  | 1 => do pure (max 0 (← slack i a k x))
  | 2 => do pure |← slack i a k x|
  | _ => pure 0

/-- The violations of all rows at a point. -/
def violationsQ (i : SolveInput) (a : Assembled) (x : List Int) : Counted (List Int) :=
  (List.range (qpRows i)).mapM (violationQ i a x)

/-- By how much row `k` is violated. -/
def violation (i : SolveInput) (a : Assembled) (x : List Int) (k : Nat) : Int := valueOf (violationQ i a x k)

/-- The sum of violations (R225). -/
def violationSum (i : SolveInput) (a : Assembled) (x : List Int) : Int := ((List.range (qpRows i)).map (violation i a x)).sum

/-- Whether row `k` holds within TOL_FEAS; a row that is not violated holds whatever TOL_FEAS is. -/
def rowHolds (i : SolveInput) (a : Assembled) (x : List Int) (k : Nat) : Bool :=
  decide (violation i a x k ≤ max 0 i.model.tolFeas.toInt)

/-- Whether every row holds within TOL_FEAS (R225). -/
def feasibleAt (i : SolveInput) (a : Assembled) (x : List Int) : Bool := (List.range (qpRows i)).all (rowHolds i a x)

/-! ### The active-set iteration (R224) -/

/-- H x + g, in block HQP. -/
def gradAt (i : SolveInput) (w : Work) (x : List Int) : Counted (List Int) :=
  let fh := fOf i Blk.hqp
  (w.hess.zip w.grad).mapM (fun r => sumQ fh ((products r.1 x).map (fun p => (p, fh + fOf i Blk.x)) ++ [(r.2, fh)]))

/-- The rows of A by their numbers. -/
def rowsAt (w : Work) (ks : List Nat) : List (List Int) := ks.map (fun k => w.asm.rows.getD k [])

/-- What holding some rows takes: Z = H⁻¹Aᵀ by row, and the factor of S = A Z, whose pivots are raised to FLOOR_H, as R210 asks
of every divisor (R222). -/
def holdRows (i : SolveInput) (w : Work) (rows : List (List Int)) : Counted (List (List Int) × Factor) := do
  let z ← rows.mapM (fun r => ldlSolve i 2 w.factH (fOf i Blk.coef) (fOf i Blk.x) r)
  let sm ← rows.mapM (fun r => z.mapM (fun c => dotQ (fOf i Blk.coef) (fOf i Blk.x) (fOf i Blk.hqp) r c))
  pure (z, ← ldl i 3 sm rows.length)

/-- S⁻¹ A y for held rows, in block LAM: the multipliers that hold them against the gradient H y. -/
def heldAgainst (i : SolveInput) (rows : List (List Int)) (f : Factor) (y : List Int) : Counted (List Int) := do
  ldlSolve i 3 f (fOf i Blk.acc) (fOf i Blk.lam) (← rows.mapM (fun r => dotQ (fOf i Blk.coef) (fOf i Blk.x) (fOf i Blk.acc) r y))

/-- Z λ − y, in block X, with the device's low-order bits. -/
def stepOf (i : SolveInput) (key : List Int) (z : List (List Int)) (lam y : List Int) : Counted (List Int) :=
  let fx := fOf i Blk.x
  (List.range (qpVars i)).mapM (fun d => do
    settled i .step key d (← sumQ fx ((-at0 y d, fx) :: (products lam (colOf z d)).map (fun v => (v, fOf i Blk.lam + fx)))))

/-- Multipliers, with the device's low-order bits. -/
def multipliersOf (i : SolveInput) (key lam : List Int) : Counted (List Int) :=
  lam.zipIdx.mapM (fun e => settled i .multiplier key e.2 e.1)

/-- What an iteration computes first: p, the multipliers of W in its order, and the pivots that were raised to the floor. -/
structure QpStep where
  p       : List Int
  lam     : List Int
  floored : List Nat
  deriving DecidableEq, Repr

/-- The step p that minimises ½ xᵀHx + gᵀx from x with the rows of W held, and the multipliers of W: with y = H⁻¹(Hx + g),
λ = S⁻¹ A y and p = Z λ − y. Without tasks and rows the minimum is 0, and p = −x exactly (R235). -/
def qpStep (i : SolveInput) (w : Work) (x : List Int) (ws : List Nat) : Counted QpStep :=
  if taskNq i = 0 ∧ ws = [] then do pure ⟨← x.mapM (fun v => sat32 (-v)), [], []⟩
  else do
    let key := x ++ ws.map (fun (k : Nat) => (k : Int))
    let y ← ldlSolve i 2 w.factH (fOf i Blk.hqp) (fOf i Blk.x) (← gradAt i w x)
    let rows := rowsAt w ws
    let h ← holdRows i w rows
    let lam ← heldAgainst i rows h.2 y
    pure ⟨← stepOf i key h.1 lam y, ← multipliersOf i key lam, h.2.floored⟩

/-- The rows outside W that a point violates. -/
def violatedRows (i : SolveInput) (a : Assembled) (x : List Int) (ws : List Nat) : List Nat :=
  (List.range (qpRows i)).filter (fun k => !ws.elem k && decide (0 < violation i a x k))

/-- The gradient of the sum of violations where the rows `vs` are violated: −Σ a_k, in block HQP (R225). -/
def feasGrad (i : SolveInput) (w : Work) (vs : List Nat) : Counted (List Int) :=
  (List.range (qpVars i)).mapM (fun d =>
    sumQ (fOf i Blk.hqp) ((0, fOf i Blk.coef) :: (rowsAt w vs).map (fun r => (-at0 r d, fOf i Blk.coef))))

/-- The same of phase 1, whose objective is the sum of violations (R225): with the rows of W at equality, p brings every
violated row to its bound, where the sum of their violations has its minimum 0; of the steps that do so it is the smallest in
the measure of H. Rows that depend on others meet the floor of R222 like any pivot. The multipliers are those of W against the
gradient of the sum (DESIGN CHOICE, log entry 156). -/
def feasStep (i : SolveInput) (w : Work) (x : List Int) (ws : List Nat) : Counted QpStep := do
  let key := 1 :: x ++ ws.map (fun (k : Nat) => (k : Int))
  let vs := violatedRows i w.asm x ws
  let h ← holdRows i w (rowsAt w (ws ++ vs))
  let mu ← ldlSolve i 3 h.2 (fOf i Blk.acc) (fOf i Blk.lam) (← (ws ++ vs).mapM (fun k => slack i w.asm k x))
  let g ← holdRows i w (rowsAt w ws)
  let y ← ldlSolve i 2 w.factH (fOf i Blk.hqp) (fOf i Blk.x) (← feasGrad i w vs)
  let lam ← heldAgainst i (rowsAt w ws) g.2 y
  pure ⟨← stepOf i key h.1 mu [], ← multipliersOf i key lam, h.2.floored ++ g.2.floored⟩

/-- The step and the multipliers of an iteration of phase 1 or 2. -/
def iterStep (i : SolveInput) (w : Work) (phase1 : Bool) (x : List Int) (ws : List Nat) : Counted QpStep :=
  if phase1 then feasStep i w x ws else qpStep i w x ws

/-- Whether every |p_i| ≤ TOL_STEP. -/
def smallStep (i : SolveInput) (p : List Int) : Bool := p.all (fun v => decide (|v| ≤ i.model.tolStep.toInt))

/-- The inequality row of W with the most negative multiplier below −TOL_DUAL, the lowest row index on ties. -/
def rowToDrop (i : SolveInput) (ws : List Nat) (lam : List Int) : Option Nat :=
  let bad := (ws.zip lam).filter (fun p => decide (kindOf i p.1 = 1) && decide (p.2 < -i.model.tolDual.toInt))
  (bad.foldl (fun best p => match best with
    | none => some p
    | some b => if p.2 < b.2 ∨ (p.2 = b.2 ∧ p.1 < b.1) then some p else some b) none).map (·.1)

/-- The ratio (b − a · x) / (a · p) of row `k`, when a · p < 0, on the grid of block COEF; it is compared before it
saturates. -/
def ratioOf (i : SolveInput) (a : Assembled) (x p : List Int) (k : Nat) : Counted (Option (Nat × Int)) := do
  let d ← rowDot i a k p
  if d < 0 then
    let r := roundRatio (← slack i a k x) d (fOf i Blk.coef)
    let _ ← sat32 r
    pure (some (k, r))
  else pure none

/-- The smallest of the ratios with its row, the lowest row index on ties. -/
def smallest (rs : List (Nat × Int)) : Option (Nat × Int) :=
  rs.foldl (fun best r => match best with
    | none => some r
    | some b => if r.2 < b.2 then some r else some b) none

/-- The blocking row with its ratio in block COEF: the smallest ratio of an inequality row outside W, when it is at most 1. -/
def blocking (i : SolveInput) (a : Assembled) (x p : List Int) (ws : List Nat) : Counted (Option (Nat × Int)) := do
  let rs ← ((rowsOfKind i 1).filter (fun k => !ws.elem k)).mapM (ratioOf i a x p)
  pure (match smallest (rs.filterMap id) with
    | some r => if r.2 ≤ 2 ^ fOf i Blk.coef then some (r.1, (satTo 32 r.2).1) else none
    | none => none)

/-- x + α p, in block X; without a blocking row α is 1. -/
def moveBy (i : SolveInput) (x p : List Int) (alpha : Option Int) : Counted (List Int) :=
  let fx := fOf i Blk.x
  (x.zip p).mapM (fun v =>
    match alpha with
    | none => sumQ fx [(v.1, fx), (v.2, fx)]
    | some a => sumQ fx [(v.1, fx), (a * v.2, fOf i Blk.coef + fx)])

/-- A row put into W, which is kept in ascending order. -/
def addRow (k : Nat) (ws : List Nat) : List Nat := ws.filter (· < k) ++ [k] ++ ws.filter (k < ·)

/-- The iterate that an iteration keeps. Every iterate of phase 2 is feasible, and one of phase 1 does not raise the sum of
violations, whatever the low-order bits of the step (R225): a point for which that fails is not taken. -/
def keepPoint (i : SolveInput) (a : Assembled) (phase1 : Bool) (x y : List Int) : Counted (List Int) := do
  let _ ← violationsQ i a y
  pure (if phase1 then if violationSum i a y ≤ violationSum i a x then y else x
    else if feasibleAt i a y then y else x)

/-- One iteration (R224): the iterate, the working set, and whether it found convergence. -/
def iterate (i : SolveInput) (w : Work) (phase1 : Bool) (x : List Int) (ws : List Nat) :
    Counted (List Int × List Nat × Bool) := do
  let s ← iterStep i w phase1 x ws
  if smallStep i s.p then
    pure (match rowToDrop i ws s.lam with
      | none => (x, ws, true)
      | some k => (x, ws.filter (· ≠ k), false))
  else
    match ← blocking i w.asm x s.p ws with
    | none => do pure (← keepPoint i w.asm phase1 x (← moveBy i x s.p none), ws, false)
    | some (k, al) => do pure (← keepPoint i w.asm phase1 x (← moveBy i x s.p (some al)), addRow k ws, false)

/-! ### Outputs (R223, R224) -/

/-- The warm start: X of the previous record, or q̈₀ with zero forces, narrowed into block X (R209, R220). -/
def warmStartQ (i : SolveInput) (w : Work) : Counted (List Int) :=
  match i.prevX with
  | some x => pure ((List.range (qpVars i)).map (fun k => at0 (intsOf x) k))
  | none => (List.range (qpVars i)).mapM (fun k =>
      if k < i.model.ndof then narrow (at0 w.acc0 k) (fOf i Blk.acc) (fOf i Blk.x) else pure 0)

/-- The warm start's value. -/
def warmStart (i : SolveInput) (w : Work) : List Int := valueOf (warmStartQ i w)

/-- The events of the warm start and of its violations, which end QP_SETUP (R211). -/
def warmEvents (i : SolveInput) (w : Work) : Nat :=
  eventsOf (do violationsQ i w.asm (← warmStartQ i w) : Counted (List Int))

/-- τ at degree of freedom `d`: M x_q̈ + h − J_cᵀ x_f, in block TAU (R224). -/
def torqueAt (i : SolveInput) (w : Work) (x : List Int) (d : Nat) : Counted Int := do
  let fx := fOf i Blk.x
  let m := (products (w.asm.mm.getD d []) x).map (fun p => (p, fOf i Blk.mm + fx))
  let c := (products (colOf w.asm.contact d) (x.drop i.model.ndof)).map (fun p => (-p, fOf i Blk.jac + fx))
  settled i .torque x d (← sumQ (fOf i Blk.tau) (m ++ [(at0 w.asm.bias d, fOf i Blk.tau)] ++ c))

/-- x_d × T with T the solver period, in block VEL (R223). -/
def velStep (i : SolveInput) (x : List Int) (d : Nat) : Counted Int := do
  settled i .velocity x d (← ratioQ (at0 x d * i.periodUs) (10 ^ 6 * 2 ^ fOf i Blk.x) (fOf i Blk.vel))

/-- One axis's entry of a fresh record: τ, q + Δq and q̇ + x T (R223, R224); Δq is 0 when NIK is 0. -/
def axisEntryOf (i : SolveInput) (w : Work) (x : List Int) (j : Joint) (k : Nat) : Counted AxisEntry := do
  let d := dofOf i.model k
  let m := jointMeas i j
  let fp := fOf i Blk.pos
  let fv := fOf i Blk.vel
  let tau ← torqueAt i w x d
  let pos ← sumQ fp [(m.q.toInt, fp), (if taskNik i = 0 then 0 else at0 w.dq d, fp)]
  let vel ← sumQ fv [(m.qd.toInt, fv), (← velStep i x d, fv)]
  pure { tau := wordI tau, pos := wordI pos, vel := wordI vel, valid := true }

/-- The axis entries of a fresh record. -/
def freshAxes (i : SolveInput) (w : Work) (x : List Int) : Counted (Tab AxisEntry) :=
  i.model.joints.zipIdx.foldlM (fun t p =>
    if p.1.axis = 0xFF then pure t
    else do pure (tset (fun _ => AxisEntry.zero) p.1.axis (← axisEntryOf i w x p.1 p.2) t)) []

end Sys2Proof.Machine
end

