-- ==== Sys2Proof/Machine/Code.lean ====
section
/-! DEFINITION. The 8b/10b line code with running disparity (R269, R270), as IEEE 802.3 Clause 36 gives it. The manual names
that code and does not repeat its tables: they are PRESUMED (log entry 157). A code group is written as the tables write it,
abcdei fghj, with a the first bit on the line and the most significant bit of the number. Disparity true is positive. -/

namespace Sys2Proof.Machine

/-- The 6-bit sub-blocks of D.0 to D.31 at negative running disparity. -/
def sixTable : List Nat :=
  [0b100111, 0b011101, 0b101101, 0b110001, 0b110101, 0b101001, 0b011001, 0b111000,
   0b111001, 0b100101, 0b010101, 0b110100, 0b001101, 0b101100, 0b011100, 0b010111,
   0b011011, 0b100011, 0b010011, 0b110010, 0b001011, 0b101010, 0b011010, 0b111010,
   0b110011, 0b100110, 0b010110, 0b110110, 0b001110, 0b101110, 0b011110, 0b101011]

/-- The 4-bit sub-blocks of .0 to .7 at negative running disparity; .7 in its primary form. -/
def fourTable : List Nat := [0b1011, 0b1001, 0b0101, 0b1100, 0b1101, 0b1010, 0b0110, 0b1110]

/-- Whether a sub-block of `n` bits has two forms: it is unbalanced, or one of 111000 and 1100. -/
def twoForms (n v : Nat) : Bool :=
  decide (2 * popCount v n ≠ n) || (decide (n = 6) && decide (v = 0b111000)) || (decide (n = 4) && decide (v = 0b1100))

/-- A sub-block's form at a running disparity. -/
def formAt (n v : Nat) (rd : Bool) : Nat := if rd && twoForms n v then 2 ^ n - 1 - v else v

/-- Running disparity after a sub-block of `n` bits. -/
def dispAfter (n v : Nat) (rd : Bool) : Bool :=
  let ones := popCount v n
  if n < 2 * ones then true
  else if 2 * ones < n then false
  else if (n = 6 ∧ v = 0b000111) ∨ (n = 4 ∧ v = 0b0011) then true
  else if (n = 6 ∧ v = 0b111000) ∨ (n = 4 ∧ v = 0b1100) then false
  else rd

/-- Running disparity after a code group. -/
def groupDisp (g : BitVec 10) (rd : Bool) : Bool := dispAfter 4 (g.toNat % 16) (dispAfter 6 (g.toNat / 16) rd)

/-- Whether D.x.7 takes its alternate 4-bit form at the disparity after its 6-bit sub-block. -/
def alternateSeven (x : Nat) (rd : Bool) : Bool :=
  if rd then x = 11 || x = 13 || x = 14 else x = 17 || x = 18 || x = 20

/-- The code group of data character `b`. -/
def dataGroup (b : Byte) (rd : Bool) : BitVec 10 :=
  let x := b.toNat % 32
  let y := b.toNat / 32
  let six := formAt 6 (sixTable.getD x 0) rd
  let mid := dispAfter 6 six rd
  let four := if y = 7 ∧ alternateSeven x mid = true then (if mid then 0b1000 else 0b0111) else formAt 4 (fourTable.getD y 0) mid
  BitVec.ofNat 10 (six * 16 + four)

/-- The code group of the comma K28.5, the delimiter of a frame (R269). -/
def commaGroup (rd : Bool) : BitVec 10 := if rd then 0b1100000101 else 0b0011111010

/-- The data character of a code group, none for an invalid group, a disparity error or a K character (R270). -/
def decodeGroup (g : BitVec 10) (rd : Bool) : Option Byte :=
  let six := g.toNat / 16
  let four := g.toNat % 16
  let mid := dispAfter 6 six rd
  match (List.range 32).find? (fun x => formAt 6 (sixTable.getD x 0) rd = six),
      (List.range 8).find? (fun y => formAt 4 (fourTable.getD y 0) mid = four || (y = 7 && (four = 0b1000 || four = 0b0111))) with
  | some x, some y =>
    let b := BitVec.ofNat 8 (y * 32 + x)
    if dataGroup b rd = g then some b else none
  | _, _ => none

/-- The code groups of data characters, and the disparity after them. -/
def encodeChars : List Byte → Bool → List (BitVec 10) × Bool
  | [], rd => ([], rd)
  | b :: r, rd =>
    let g := dataGroup b rd
    let t := encodeChars r (groupDisp g rd)
    (g :: t.1, t.2)

/-- The code groups of a frame, its delimiter first. -/
def encodeFrame (chars : List Byte) (rd : Bool) : List (BitVec 10) × Bool :=
  let t := encodeChars chars (groupDisp (commaGroup rd) rd)
  (commaGroup rd :: t.1, t.2)

/-- The data characters of code groups, none when one is bad, and the disparity after them. -/
def decodeChars : List (BitVec 10) → Bool → Option (List Byte) × Bool
  | [], rd => (some [], rd)
  | g :: r, rd =>
    let t := decodeChars r (groupDisp g rd)
    (match decodeGroup g rd, t.1 with
      | some b, some bs => some (b :: bs)
      | _, _ => none, t.2)

/-- The 39 data characters of a received frame, none when its coding is bad (R270): an invalid group, a disparity error, a K
character other than its delimiter, or a delimiter before character 39. A receiver without a disparity takes the one that the
delimiter shows. -/
def decodeFrame (groups : List (BitVec 10)) (rd : Option Bool) : Option (List Byte) × Bool :=
  match groups with
  | [] => (none, rd.getD false)
  | g :: r =>
    let d := rd.getD (decide (g = commaGroup true))
    let t := decodeChars r (groupDisp g d)
    (if g = commaGroup d ∧ r.length = 39 then t.1 else none, t.2)

end Sys2Proof.Machine
end

