-- ==== Sys2Proof/Machine/Arith.lean ====
section
/-! DEFINITION. The number formats of chapter 3: exact values, one rounding, conversion with its special values and
saturation events, the FP32 and INT32 accumulation steps, 2^x and the scale pass. -/

namespace Sys2Proof.Machine

/-- A floating-point value: NaN, an infinity, a signed zero, or a finite non-zero rational. -/
inductive Num where
  | nan
  | inf (neg : Bool)
  | zero (neg : Bool)
  | fin (q : Rat)
  deriving DecidableEq

/-- A floating-point storage format (R70, R72): exponent bits, fraction bits, and whether it has infinities (FP8-E4M3 has
none and one NaN fraction). -/
structure FFmt where
  ebits : Nat
  fbits : Nat
  ieee  : Bool
  deriving DecidableEq, Repr

/-- FP8-E4M3. -/
def e4m3 : FFmt := ⟨4, 3, false⟩
/-- FP8-E5M2. -/
def e5m2 : FFmt := ⟨5, 2, true⟩
/-- FP16. -/
def fp16 : FFmt := ⟨5, 10, true⟩
/-- BF16. -/
def bf16 : FFmt := ⟨8, 7, true⟩
/-- FP32. -/
def fp32 : FFmt := ⟨8, 23, true⟩

/-- The exponent bias. -/
def FFmt.bias (f : FFmt) : Nat := 2 ^ (f.ebits - 1) - 1

/-- 2^e for an integer e. -/
def pow2 (e : Int) : Rat := if 0 ≤ e then ((2 ^ e.toNat : Nat) : Rat) else 1 / ((2 ^ (-e).toNat : Nat) : Rat)

/-- The largest finite value (R72). -/
def FFmt.maxFin (f : FFmt) : Rat :=
  let e : Int := if f.ieee then (f.bias : Int) else f.bias + 1
  let m : Nat := if f.ieee then 2 ^ (f.fbits + 1) - 1 else 2 ^ (f.fbits + 1) - 2
  (m : Rat) * pow2 (e - f.fbits)

/-- The value of a bit pattern (R70, R72, R73). -/
def decodeF (f : FFmt) (v : Nat) : Num :=
  let neg := decide (v / 2 ^ (f.ebits + f.fbits) % 2 = 1)
  let e := v / 2 ^ f.fbits % 2 ^ f.ebits
  let m := v % 2 ^ f.fbits
  let sgn : Rat := if neg then -1 else 1
  if f.ieee ∧ e = 2 ^ f.ebits - 1 then (if m = 0 then .inf neg else .nan)
  else if !f.ieee ∧ e = 2 ^ f.ebits - 1 ∧ m = 2 ^ f.fbits - 1 then .nan
  else if e = 0 then
    (if m = 0 then .zero neg else .fin (sgn * (m : Rat) * pow2 (1 - (f.bias : Int) - f.fbits)))
  else .fin (sgn * ((2 ^ f.fbits + m : Nat) : Rat) * pow2 ((e : Int) - f.bias - f.fbits))

/-- ⌊log2 q⌋ for q > 0. -/
def ilog2 (q : Rat) : Int :=
  let e : Int := (Nat.log2 q.num.toNat : Int) - (Nat.log2 q.den : Int)
  if pow2 e ≤ q then e else e - 1

/-- Rounding of an exact value to an integer: to nearest with ties to even, or toward zero (ROUND, R76). -/
def roundInt (trunc : Bool) (q : Rat) : Int :=
  let fl := q.floor
  if trunc then (if 0 ≤ q then fl else -((-q).floor))
  else
    let d := q - (fl : Rat)
    if d < 1 / 2 then fl else if 1 / 2 < d then fl + 1 else if fl % 2 = 0 then fl else fl + 1

/-- A finite non-zero value rounded to the grid of a format, without a limit on its magnitude (R77). -/
def roundGrid (f : FFmt) (trunc : Bool) (q : Rat) : Rat :=
  let a := if q < 0 then -q else q
  let e := max (ilog2 a) (1 - (f.bias : Int))
  let u := pow2 (e - f.fbits)
  let r := (roundInt trunc (a / u) : Rat) * u
  if q < 0 then -r else r

/-- The bit pattern of a value that lies on the format's grid and within its range. -/
def encodeFin (f : FFmt) (q : Rat) : Nat :=
  let neg := decide (q < 0)
  let a := if neg then -q else q
  let s := if neg then 2 ^ (f.ebits + f.fbits) else 0
  if a < pow2 (1 - (f.bias : Int)) then s + (a / pow2 (1 - (f.bias : Int) - f.fbits)).floor.toNat
  else
    let e := ilog2 a
    let m := (a / pow2 (e - f.fbits)).floor.toNat - 2 ^ f.fbits
    s + (e + f.bias).toNat * 2 ^ f.fbits + m

/-- The canonical NaN of a format (R74). -/
def nanBits (f : FFmt) : Nat :=
  if f.ieee then (2 ^ f.ebits - 1) * 2 ^ f.fbits + 2 ^ (f.fbits - 1) else 2 ^ (f.ebits + f.fbits) - 1

/-- An infinity of an IEEE format. -/
def infBits (f : FFmt) (neg : Bool) : Nat :=
  (if neg then 2 ^ (f.ebits + f.fbits) else 0) + (2 ^ f.ebits - 1) * 2 ^ f.fbits

/-- A zero of a format. -/
def zeroBits (f : FFmt) (neg : Bool) : Nat := if neg then 2 ^ (f.ebits + f.fbits) else 0

/-- A conversion to a floating-point format (R77 to R79): the bits, and the saturation events it counts. -/
def convF (f : FFmt) (trunc : Bool) (x : Num) : Nat × Nat :=
  match x with
  | .nan => (nanBits f, 0)
  | .inf n => if f.ieee then (infBits f n, 0) else (encodeFin f (if n then -f.maxFin else f.maxFin), 1)
  | .zero n => (zeroBits f n, 0)
  | .fin q =>
    let r := roundGrid f trunc q
    if r = 0 then (zeroBits f (decide (q < 0)), 0)
    else if f.maxFin < r then (encodeFin f f.maxFin, 1)
    else if r < -f.maxFin then (encodeFin f (-f.maxFin), 1)
    else (encodeFin f r, 0)

/-- A conversion to a signed integer of `bits` bits (R77 to R79). The model takes a finite value below the range to the most
negative integer, −128 or −32 768, with one event, and gives that integer itself without an event, as R79's row for −∞ does;
R78's words, the largest finite value with the source's sign, would give −127 or −32 767 (DESIGN CHOICE, log entry 141). -/
def convI (bits : Nat) (trunc : Bool) (x : Num) : Int × Nat :=
  let top : Int := 2 ^ (bits - 1) - 1
  match x with
  | .nan => (0, 1)
  | .inf n => (if n then -top - 1 else top, 1)
  | .zero _ => (0, 0)
  | .fin q =>
    let r := roundInt trunc q
    if top < r then (top, 1) else if r < -top - 1 then (-top - 1, 1) else (r, 0)

/-- An FP32 arithmetic result rounded to nearest with ties to even (R76): beyond the largest finite value it is infinity. -/
def rn (x : Num) : Num :=
  match x with
  | .fin q =>
    let r := roundGrid fp32 false q
    if r = 0 then .zero (decide (q < 0))
    else if fp32.maxFin < r then .inf false
    else if r < -fp32.maxFin then .inf true
    else .fin r
  | y => y

/-- The sign of a value other than NaN. -/
def numNeg (x : Num) : Bool :=
  match x with
  | .nan => false
  | .inf n => n
  | .zero n => n
  | .fin q => decide (q < 0)

/-- The exact product (R75: a zero product with one negative factor is −0). -/
def mulN (x y : Num) : Num :=
  match x, y with
  | .nan, _ => .nan
  | _, .nan => .nan
  | .inf _, .zero _ => .nan
  | .zero _, .inf _ => .nan
  | .inf a, b => .inf (a != numNeg b)
  | a, .inf b => .inf (numNeg a != b)
  | .zero a, b => .zero (a != numNeg b)
  | a, .zero b => .zero (numNeg a != b)
  | .fin a, .fin b => .fin (a * b)

/-- A finite rational as a value; 0 is +0 (R75). -/
def ofRat (q : Rat) : Num := if q = 0 then .zero false else .fin q

/-- The exact sum of a list (R75: −0 only when every term is −0). -/
def sumN (xs : List Num) : Num :=
  if xs.any (fun x => decide (x = .nan)) then .nan
  else
    let p := xs.any (fun x => decide (x = .inf false))
    let n := xs.any (fun x => decide (x = .inf true))
    if p && n then .nan
    else if p then .inf false
    else if n then .inf true
    else if xs ≠ [] ∧ xs.all (fun x => decide (x = .zero true)) then .zero true
    else ofRat (xs.foldl (fun a x => match x with | .fin q => a + q | _ => a) 0)

/-- The exact quotient of finite values (R88, R144). -/
def divN (x y : Num) : Num :=
  match x, y with
  | .nan, _ => .nan
  | _, .nan => .nan
  | .inf _, .inf _ => .nan
  | .zero _, .zero _ => .nan
  | .inf a, b => .inf (a != numNeg b)
  | a, .inf b => .zero (numNeg a != b)
  | .zero a, b => .zero (a != numNeg b)
  | a, .zero b => .inf (numNeg a != b)
  | .fin a, .fin b => .fin (a / b)

/-- Negation. -/
def negN (x : Num) : Num :=
  match x with
  | .nan => .nan
  | .inf n => .inf (!n)
  | .zero n => .zero (!n)
  | .fin q => .fin (-q)

/-- Numerical order of values other than NaN, with +0 equal to −0 (R131). -/
def ltN (x y : Num) : Bool :=
  match x, y with
  | .nan, _ => false
  | _, .nan => false
  | .inf true, .inf true => false
  | .inf true, _ => true
  | _, .inf true => false
  | .inf false, _ => false
  | _, .inf false => true
  | .zero _, .zero _ => false
  | .zero _, .fin b => decide (0 < b)
  | .fin a, .zero _ => decide (a < 0)
  | .fin a, .fin b => decide (a < b)

/-- The larger of two values, NaN if either is NaN (R144). Of −0 and +0 it keeps the first (DESIGN CHOICE, log entry 196). -/
def maxN (x y : Num) : Num := if x = .nan ∨ y = .nan then .nan else if ltN x y then y else x

/-- The FP32 value of a word. -/
def num32 (v : Nat) : Num := decodeF fp32 v

/-- The word of an FP32 value. -/
def bits32 (x : Num) : Nat := (convF fp32 false x).1

/-- An FP32 accumulation step: the exact sum of the products is added to the accumulator, rounded once (R81). -/
def accStepF (acc : Num) (products : List Num) : Num := rn (sumN (acc :: products))

/-- An INT32 accumulation step: limited to 32 bits, one saturation event when limited (R82). -/
def accStepI (acc : Int × Nat) (sum : Int) : Int × Nat :=
  let v := acc.1 + sum
  if 2147483647 < v then (2147483647, acc.2 + 1)
  else if v < -2147483648 then (-2147483648, acc.2 + 1)
  else (v, acc.2)

/-! ### 2^x (R143) -/

/-- Whether 2^(a/b) < n/d, for b > 0: decided in whole numbers as 2^a × d^b < n^b. -/
def exp2Less (a : Int) (b n d : Nat) : Bool :=
  if 0 ≤ a then decide (2 ^ a.toNat * d ^ b < n ^ b) else decide (d ^ b < n ^ b * 2 ^ (-a).toNat)

/-- Search the largest k with k × u ≤ 2^(a/b) among `lo` to `lo + 2^fuel − 1`. -/
def exp2Search (a : Int) (b : Nat) (u : Rat) : Nat → Nat → Nat
  | 0, lo => lo
  | fuel + 1, lo =>
    let mid := lo + 2 ^ fuel
    let q := (mid : Rat) * u
    if exp2Less a b q.num.toNat q.den then exp2Search a b u fuel lo else exp2Search a b u fuel mid

/-- R143: the FP32 value nearest to 2^x with ties to even, subnormal results included; a result that rounds beyond the
largest finite value is infinity and one that rounds to zero is +0 (R76). -/
def exp2N (x : Num) : Num :=
  match x with
  | .nan => .nan
  | .inf true => .zero false
  | .inf false => .inf false
  | .zero _ => .fin 1
  | .fin q =>
    let a := q.num
    let b := q.den
    let fl := q.floor
    if 128 ≤ fl then .inf false
    else if fl < -150 then .zero false
    else if b = 1 then rn (.fin (pow2 fl))
    else
      let u := pow2 (max fl (-126) - 23)
      let k := exp2Search a b u 24 0
      let half := ((2 * k + 1 : Nat) : Rat) * u / 2
      let up := !exp2Less a b half.num.toNat half.den
      rn (ofRat (((if up then k + 1 else k : Nat) : Rat) * u))

/-! ### The scale pass (R88, R89) -/

/-- |x| of a finite value, 0 for any other. -/
def finMag (x : Num) : Rat :=
  match x with
  | .fin q => if q < 0 then -q else q
  | _ => 0

/-- r and s of a scale group for a target with the given Q_max (R88, R89). -/
def scaleOf (qmax : Rat) (xs : List Num) : Num × Num :=
  let m := xs.foldl (fun a x => max a (finMag x)) 0
  if m = 0 then (.zero false, .zero false)
  else (rn (.fin (qmax / m)), rn (.fin (m / qmax)))

/-- One element of the scale pass narrowed to FP8-E4M3: the bits and the saturation events; NaN converts to 0 in a group
of scale 0 (R89). -/
def scaleToE4m3 (trunc : Bool) (r x : Num) : Nat × Nat :=
  match x, r with
  | .nan, .zero _ => (0, 1)
  | .inf n, _ => (encodeFin e4m3 (if n then -448 else 448), 1)
  | _, _ => convF e4m3 trunc (mulN x r)

end Sys2Proof.Machine
end

