-- ==== Sys2Proof/Machine/Flags.lean ====
section
/-! DEFINITION. The codes and flag words of the manual: the shared error codes with their precedence (R9), the 16-bit flag
field (R10), the latch bits of SAF_LATCH (R394), and counters that hold at their largest value. -/

namespace Sys2Proof.Machine

/-! ### Codes (R9) -/

/-- Normal completion. -/
abbrev Code.ok : Nat := 0x00
/-- A field with 0 reserved was zero. -/
abbrev Code.fieldZero : Nat := 0x01
/-- No valid authenticated session for the command. -/
abbrev Code.session : Nat := 0x02
/-- An uncorrectable SECDED error was found. -/
abbrev Code.eccUncorr : Nat := 0x03
/-- A weight block failed its CRC-32C on load. -/
abbrev Code.crcWeight : Nat := 0x04
/-- Output marked invalid and not usable. -/
abbrev Code.invalid : Nat := 0x05
/-- A job ended after its deadline. -/
abbrev Code.deadline : Nat := 0x06
/-- The previous cycle's result was returned. -/
abbrev Code.stale : Nat := 0x07
/-- The last feasible iterate was returned before convergence. -/
abbrev Code.early : Nat := 0x08
/-- A pivot was replaced by the pivot floor. -/
abbrev Code.pivotFloor : Nat := 0x09
/-- A value saturated. -/
abbrev Code.sat : Nat := 0x0A
/-- Events arrived faster than they could be carried, or a queue overflowed. -/
abbrev Code.overrun : Nat := 0x0B
/-- The result was delivered after replay. -/
abbrev Code.replayed : Nat := 0x0C
/-- A ring position is bypassed. -/
abbrev Code.bypassed : Nat := 0x0D

/-- The flag bit of a code: bit (code − 1) (R10). Normal completion has none. -/
def codeBit (c : Nat) : BitVec 16 := if c = 0 then 0 else BitVec.ofNat 16 (2 ^ (c - 1))

/-- The code of highest precedence among the flag bits [12:0], 0x00 when there is none (R10: the table of R9 lists the
codes in order of precedence). -/
def topCode (f : BitVec 16) : Nat :=
  ((List.range 13).find? (fun i => f.getLsbD i)).elim 0 (· + 1)

/-! ### Latch bits (R394) -/

/-- CMP_PERSIST. -/
abbrev Latch.cmpPersist : Nat := 0
/-- GAP. -/
abbrev Latch.gap : Nat := 1
/-- PROOF_FAIL. -/
abbrev Latch.proofFail : Nat := 2
/-- CAMERA. -/
abbrev Latch.camera : Nat := 3
/-- SERVO_CMP. -/
abbrev Latch.servoCmp : Nat := 4
/-- SERVO_PROOF. -/
abbrev Latch.servoProof : Nat := 5
/-- MEAS_LOST. -/
abbrev Latch.measLost : Nat := 6
/-- SOLVER_LOST. -/
abbrev Latch.solverLost : Nat := 7
/-- RING. -/
abbrev Latch.ring : Nat := 8
/-- WARN_DIAG. -/
abbrev Latch.warnDiag : Nat := 9
/-- FORCE. -/
abbrev Latch.force : Nat := 10
/-- RESET. -/
abbrev Latch.reset : Nat := 11

/-- The latch bits that assert SAFE_N: every bit but WARN_DIAG (R394, R396). -/
def latchSafeMask : Word := 0x00000DFF

/-- A 32-bit counter after `n` more events: it holds at 0xFFFF_FFFF (R93, R110, R236, R268, R300, R369, R403, R420, R446,
R471). -/
def countUp (w : Word) (n : Nat) : Word := word (satAdd 0xFFFFFFFF w.toNat n)

/-- What an RC counter holds after a read in the same cycle as `inc` events: the read clears, then the increment is
applied to 0 (R5). -/
def rcAfterRead (inc : Nat) : Word := countUp 0 inc

end Sys2Proof.Machine
end

