-- ==== Sys2Proof/Machine/Ops.lean ====
section
/-! DEFINITION. The named operations that the meanings share: registers, time, memories with their SECDED checks, events,
the safety latches and torque enables, and the writing of command completions. -/

namespace Sys2Proof.Machine

open Sys2Proof.Config

/-! ### Registers -/

/-- The value that a register holds. -/
def getReg (o : Nat) (s : State) : Word := tget regReset s.regs o

/-- The state with a register set. -/
def setReg (o : Nat) (v : Word) (s : State) : State := { s with regs := tset regReset o v s.regs }

/-- The state with a register changed by `f`. -/
def modReg (o : Nat) (f : Word → Word) (s : State) : State := setReg o (f (getReg o s)) s

/-- The state with field [hi:lo] of a register set. -/
def setRegFld (o hi lo v : Nat) (s : State) : State := modReg o (fun w => setFld w hi lo v) s

/-- The state with bits of a register set. -/
def orReg (o : Nat) (m : Word) (s : State) : State := modReg o (· ||| m) s

/-- The state with an RC counter raised by `n`; it holds at 0xFFFF_FFFF. -/
def bumpReg (o n : Nat) (s : State) : State := modReg o (fun w => countUp w n) s

/-- The state with a register of 32 bits that wraps raised by 1. -/
def incReg (o : Nat) (s : State) : State := modReg o (· + 1) s

/-- Field [hi:lo] of a register. -/
def regFld (o hi lo : Nat) (s : State) : Nat := fld (getReg o s) hi lo

/-- Bit `i` of a register. -/
def regBit (o i : Nat) (s : State) : Bool := bit (getReg o s) i

/-- The 64-bit value of a HI:LO register pair. -/
def reg64 (lo hi : Nat) (s : State) : Word64 := join64 (getReg hi s) (getReg lo s)

/-- The state with a HI:LO register pair set. -/
def setReg64 (lo hi : Nat) (v : Word64) (s : State) : State := setReg hi (hi32 v) (setReg lo (lo32 v) s)

/-- The state after a write of the software-writable bits of a register (R3, R8); the other bits stay. -/
def rwStore (o : Nat) (v : Word) (s : State) : State :=
  match regRowAt o with
  | some r => modReg o (fun w => (w &&& ~~~r.rw) ||| (v &&& r.rw)) s
  | none => s

/-! ### Free values and outputs -/

/-- The state after one free value has been used. -/
def useFree (s : State) : State := { s with freeCtr := s.freeCtr + 1 }

/-- The state with one more thing put on an interface. -/
def emit (o : Out) (s : State) : State := { s with outbox := s.outbox ++ [o] }

/-! ### Time (R12, R404, R405) -/

/-- Whether the device is in reset: before the PLL's lock, and from a warm reset's assertion to its release (R435, R442). -/
def deviceReset (s : State) : Bool := s.pwr.inReset || !s.pwr.locked

/-- Root cycles per µs. -/
abbrev usRoot : Nat := 4800

/-- Root cycles per timebase tick (R12). -/
abbrev tickRoot : Nat := 48

/-- Root cycles per management cycle (R12). -/
abbrev mcRoot : Nat := 10

/-- Root cycles of one management cycle as it runs: of 25 MHz while domain 23 runs from the internal oscillator (R434). -/
def mcNow (s : State) : Nat := if s.pwr.osc then 192 else mcRoot

/-- The instant now, in root cycles. -/
def now (s : State) : Nat := s.clk.root

/-- RATE as it acts: limited to ±858 993 (R405). -/
def rateActs (w : Word) : Int := max (-858993) (min 858993 w.toInt)

/-- Past runs of the clock are kept for as long as a frame takes to come in: 9 216 bytes at 100 Mb/s and more (R409, R410). -/
def recentPast (t : Nat) (ps : List PastClock) : List PastClock := ps.filter (fun p => decide (t < p.until_ + 2 * 1000 * usRoot))

/-- Note how the clock ran until now, before OFS steps or RATE changes. -/
def noteClock (s : State) : State :=
  { s with tim := { s.tim with
    past := ⟨now s, s.clk.tick, s.clk.ofs, getReg Reg.TIM_RATE s⟩ :: recentPast (now s) s.tim.past } }

/-- RATE takes a value (R405). -/
def setRate (v : Word) (s : State) : State := setReg Reg.TIM_RATE v (noteClock s)

/-- Let `n` root cycles pass: TICK counts the timebase cycles, OFS takes RATE × 2^−32 at each tick, and a step written
before takes effect at the next tick (R404, R405). In reset the timebase stands still (R434, R442). -/
def advance (n : Nat) (s : State) : State :=
  let k := if deviceReset s then 0 else (s.clk.root + n) / tickRoot - s.clk.root / tickRoot
  let drift : BitVec 96 := BitVec.ofInt 96 ((k : Int) * rateActs (getReg Reg.TIM_RATE s))
  let step : BitVec 96 :=
    match s.tim.stepNext with
    | some v => if k = 0 then 0 else (v.zeroExtend 96) <<< 32
    | none => 0
  let edge := (s.clk.root / tickRoot + 1) * tickRoot
  let past := if k = 0 ∨ s.tim.stepNext = none then s.tim.past
    else ⟨edge, s.clk.tick + 1, s.clk.ofs + BitVec.ofInt 96 (rateActs (getReg Reg.TIM_RATE s)), getReg Reg.TIM_RATE s⟩ ::
      recentPast edge s.tim.past
  { s with
    clk := ⟨s.clk.root + n, s.clk.tick + BitVec.ofNat 64 k, s.clk.ofs + drift + step⟩
    tim := { s.tim with stepNext := if k = 0 then s.tim.stepNext else none, past := past } }

/-- Let time pass up to the instant `t`; nothing passes when it is past already. -/
def runTo (t : Nat) (s : State) : State := advance (t - now s) s

/-- Network time in 64.32 ticks (R405). -/
def netTime (s : State) : BitVec 96 := (s.clk.tick.zeroExtend 96 <<< 32) + s.clk.ofs

/-- Root cycles of one fabric cycle at the operating point in effect (R12, R14). -/
def fcRoot (s : State) : Nat :=
  match regFld Reg.FAB_OP_STAT 1 0 s with
  | 0 => 3
  | 1 => 4
  | _ => 6

/-! ### Session state that the operations need -/

/-- Whether core `c` runs: it is not restarting or FAILED, and the domain of cores 1 to 3 has passed its slot (R444, R447,
R449). -/
def coreUp (c : Nat) (s : State) : Bool :=
  decide (regFld Reg.MGT_CORE_STAT (8 * c + 7) (8 * c + 6) s = 0) && (decide (c = 0) || regBit Reg.PWR_DOM_STAT0 31 s)

/-- Whether the Dispatcher core runs. -/
def dispatcherUp (s : State) : Bool := coreUp 1 s

/-- Whether the Postmaster runs. -/
def postmasterUp (s : State) : Bool := coreUp 0 s

/-- Whether the PCIe endpoint is served: its domain has passed its slot (R444). -/
def pcieUp (s : State) : Bool := regBit Reg.PWR_DOM_STAT0 26 s

/-- The switched power domains of the block whose registers a megabyte of BAR0 holds (R22, R427). The timebase and the PTP
registers lie beside the MACs', but in no switched domain; power, clock, reset and management are always on. -/
def blockDomains (off : Nat) : List Nat :=
  match off / 2 ^ 20 with
  | 1 => [12] | 2 => [13, 14] | 3 => [15] | 4 => [20] | 5 => [18, 19] | 6 => [16] | 7 => [28] | 9 => [24, 25] | 10 => [17]
  | 8 => if off < 0x801000 then [] else [27]
  | _ => []

/-- Whether the block of a register is usable: its domains have passed their slots (R444). -/
def blockUsable (off : Nat) (s : State) : Bool := (blockDomains off).all (fun d => regBit Reg.PWR_DOM_STAT0 d s)

/-- Whether a session of the kind is open. -/
def sessionOf (k : Session) (s : State) : Option SessionInfo :=
  match k with
  | .host => s.sess.host
  | .port => s.sess.port
  | .maint => s.sess.maint

/-! ### Events (R454 to R457) -/

/-- The fixed delay of a source in management cycles (R454). -/
def eventDelay (src : Nat) : Nat :=
  match src with
  | 0 => 2 | 1 => 2 | 2 => 3 | 3 => 3 | 4 => 3 | 5 => 3 | 6 => 3 | 7 => 3
  | 8 => 4 | 9 => 4 | 10 => 3 | 11 => 2 | _ => 1

/-- Source 0 of R454: Safety. -/
abbrev Src.safety : Nat := 0
/-- Source 1: Power, clock and reset. -/
abbrev Src.power : Nat := 1
/-- Source 2: Memory controller. -/
abbrev Src.memory : Nat := 2
/-- Source 3: Fabric and loader. -/
abbrev Src.fabric : Nat := 3
/-- Source 6: Assembler and solver. -/
abbrev Src.solver : Nat := 6
/-- Source 7: Servo engine and courier lanes. -/
abbrev Src.servo : Nat := 7
/-- Source 8: CAN FD. -/
abbrev Src.can : Nat := 8
/-- Source 9: Ethernet and time. -/
abbrev Src.time : Nat := 9
/-- Source 10: Ring. -/
abbrev Src.ring : Nat := 10
/-- Source 11: Fuse, security and host access. -/
abbrev Src.security : Nat := 11
/-- Source 12: Postmaster. -/
abbrev Src.postmaster : Nat := 12
/-- Source 15: Link clerk. -/
abbrev Src.linkClerk : Nat := 15

/-- Word `i` of DETAIL: what the rule states, or a free value. -/
def detailWord (ev : Ev) (d : List (Option Word)) (i ctr : Nat) : Word :=
  match d[i]? with
  | some (some w) => w
  | _ => eventDetail ev i ctr

/-- Raise an event: it is stamped with TICK, leaves for the arbiter at the first management clock edge at or after the
raise and arrives after its source's delay (R454). A source that already holds 4 events loses it (R456). An event of the
safety block raises MSI-X vector 10 (R327). -/
def raise (src : Nat) (ev : Ev) (code : Nat) (d : List (Option Word)) (s : State) : State :=
  let s := if src = Src.safety then emit (.msix 10) s else s
  if 4 ≤ (s.mgt.events.filter (fun e => e.source = src)).length then
    let s := bumpReg Reg.MGT_EVT_LOST 1 s
    { s with mgt := { s.mgt with lost := if src ∈ s.mgt.lost then s.mgt.lost else s.mgt.lost ++ [src] } }
  else
    let e : LogEvent :=
      { source := src, arrive := (divUp (now s) (mcNow s) + eventDelay src) * mcNow s, stamp := s.clk.tick,
        code := BitVec.ofNat 8 code, event := (eventNumber ev).zeroExtend 16,
        d0 := detailWord ev d 0 s.freeCtr, d1 := detailWord ev d 1 s.freeCtr, d2 := detailWord ev d 2 s.freeCtr }
    useFree { s with mgt := { s.mgt with events := s.mgt.events ++ [e] } }

/-- The log record of a closed access, with code SESSION and the accessed offset (R23, R324). -/
def logClosed (off : Nat) (s : State) : State := raise Src.security .hostAccess Code.session [some (word off)] s

/-- A register write by `w`: firmware writes at any time; the host's write to a block window takes effect inside a
maintenance session, which it keeps in use (R466), and is discarded and logged outside one (R22, R23). A block that has not
passed its slot takes nothing (R444; DESIGN CHOICE, log entry 12). -/
def asWriter (w : Writer) (off : Nat) (f : State → State) (s : State) : State :=
  let g := fun s => if blockUsable off s then f s else s
  match w with
  | .firmware => g s
  | .host =>
    match s.sess.maint with
    | none => logClosed off s
    | some m => g { s with sess := { s.sess with maint := some { m with usedAt := now s } } }

/-! ### Memories (R97 to R109) -/

/-- Bytes of data that the trained channels provide (R112, R484): 512 × ⌊C / 576⌋ for each of the 24 channels. -/
def dataCapacity (pop : Word) : Nat :=
  let ch := fun c : Nat => 512 * (c * 2 ^ 30 / 576)
  8 * (ch (fld pop 3 0) + ch (fld pop 7 4) + ch (fld pop 11 8))

/-- Whether a DRAM data address exists: below the capacity that memory training found. -/
def dramHas (a : Nat) (s : State) : Bool :=
  !bit (getReg Reg.MEM_POP s) 31 || decide (a < dataCapacity (getReg Reg.MEM_POP s))

/-- What a byte of a space that nothing has written reads as: 0 from the power-on of State.reset (DESIGN CHOICE, log entry
6), a free value after a reset that lost the contents. -/
def memDefault (sp : Space) (s : State) (a : Nat) : Byte :=
  match sp with
  | .dram => if s.losses.dram = 0 then 0 else lostByte 0 s.losses.dram a
  | .stage => if s.losses.arrays = 0 then 0 else lostByte 1 s.losses.arrays a
  | .bank => if s.losses.arrays = 0 then 0 else lostByte 2 s.losses.arrays a
  | .table => if s.losses.tables = 0 then 0 else lostByte 3 s.losses.tables a

/-- What a byte of host memory that nothing has written reads as (DESIGN CHOICE, log entry 6). -/
def hostDefault (_ : Nat) : Byte := 0

/-- The key of a byte address within its space: DRAM data addresses have 64 bits, staging-store addresses [22:0]. -/
def memKey (sp : Space) (a : Nat) : Nat :=
  match sp with
  | .dram => a % 2 ^ 64
  | .stage => a % 2 ^ 23
  | .bank => a
  | .table => a

/-- The contents of a space. -/
def memOf (sp : Space) (s : State) : Tab Byte :=
  match sp with
  | .dram => s.dram
  | .stage => s.stage
  | .bank => s.banks
  | .table => s.tables

/-- The state with the contents of a space replaced. -/
def setMem (sp : Space) (t : Tab Byte) (s : State) : State :=
  match sp with
  | .dram => { s with dram := t }
  | .stage => { s with stage := t }
  | .bank => { s with banks := t }
  | .table => { s with tables := t }

/-- A client's account. -/
def account (c : Nat) (s : State) : Account := tget (fun _ => Account.reset) s.disp.ledger.accounts c

/-- The 64 bytes of a client's account (R320). -/
def accountBytes (a : Account) : List Byte :=
  slice (leBytes 8 a.waitUs ++ leBytes 8 a.engineColUs ++ leBytes 4 a.jobsDone ++ leBytes 4 a.higherWaited ++
    leBytes 4 a.restarts ++ leBytes 4 a.replays ++ leBytes 4 a.deadlines ++ leBytes 4 a.dropped ++
    leBytes 4 a.hostDiscarded ++ leBytes 4 a.lastJobId.toNat) 0 64

/-- The 64 bytes of the ledger's header (R320). -/
def ledgerHeader (s : State) : List Byte :=
  let l := s.disp.ledger
  slice (wordBytes l.seq ++ wordBytes l.epoch ++ leBytes 8 l.readStamp.toNat ++ leBytes 8 l.lostStamp.toNat ++
    leBytes 4 (l.hostLost.toNat + 2 * l.closed.toNat) ++ leBytes 4 s.day.sharesMode.toNat) 0 64

/-- The 1 088 bytes of the ledger as it stands. -/
def ledgerBytes (s : State) : List Byte :=
  ledgerHeader s ++ (List.range 16).flatMap (fun c => accountBytes (account c s))

/-- Whether a DRAM data address lies in the ledger, at 0x0010_0000 (R322). -/
def inLedger (a : Nat) : Bool := decide (0x100000 ≤ a) && decide (a < 0x100000 + 1088)

/-- One byte of a space. The ledger's bytes in DRAM show the ledger as it stands (R322). -/
def rdByte (sp : Space) (a : Nat) (s : State) : Byte :=
  if sp = .dram ∧ dramHas (memKey sp a) s = false then absentByte (memKey sp a)
  else if sp = .dram ∧ inLedger (memKey sp a) = true then (ledgerBytes s).getD (memKey sp a - 0x100000) 0
  else tget (memDefault sp s) (memOf sp s) (memKey sp a)

/-- Write one byte of a space; a DRAM address above the capacity holds nothing. -/
def wrByte (sp : Space) (a : Nat) (b : Byte) (s : State) : State :=
  if sp = .dram ∧ dramHas (memKey sp a) s = false then s
  else setMem sp (tset (memDefault sp s) (memKey sp a) b (memOf sp s)) s

/-- `n` bytes of a space from `a`. -/
def rdBytes (sp : Space) (a n : Nat) (s : State) : List Byte := (List.range n).map (fun i => rdByte sp (a + i) s)

/-- Write bytes in ascending order from `a`, without touching the error marks. -/
def wrRaw (sp : Space) (a : Nat) (bs : List Byte) (s : State) : State :=
  match bs with
  | [] => s
  | b :: r => wrRaw sp (a + 1) r (wrByte sp a b s)

/-- Whether a write of `n` bytes from `a` ends an error mark: it writes new check bits for the word, unless it leaves
bytes of an uncorrectable word as they are. So a 32-bit window write into an uncorrectable word stores its bytes and leaves
the word uncorrectable: R115 says only that the write is a read-modify-write (DESIGN CHOICE, log entry 137). -/
def markGone (sp : Space) (a n : Nat) (m : EccMark) : Bool :=
  decide (m.space = sp) && decide (8 * m.word < memKey sp a + n) && decide (memKey sp a < 8 * m.word + 8) &&
    (!m.double || (decide (memKey sp a ≤ 8 * m.word) && decide (8 * m.word + 8 ≤ memKey sp a + n)))

/-- Write bytes from `a`. -/
def wrBytes (sp : Space) (a : Nat) (bs : List Byte) (s : State) : State :=
  let s := wrRaw sp a bs s
  { s with marks := s.marks.filter (fun m => !markGone sp a bs.length m) }

/-- The marks that a read of `n` bytes from `a` meets, uncorrectable or not. -/
def marksIn (sp : Space) (a n : Nat) (double : Bool) (s : State) : List EccMark :=
  s.marks.filter (fun m => decide (m.space = sp) && decide (m.double = double) &&
    decide (8 * m.word < memKey sp a + n) && decide (memKey sp a < 8 * m.word + 8))

/-- SOURCE and captured address of an error in a space (R109): a bank keeps its logical tile apart. The assembler's table
memory has no SOURCE of its own in R109; it lies behind the NoC, and the model gives SOURCE 2 and the table byte (DESIGN
CHOICE, log entry 138). -/
def errSource (sp : Space) (a : Nat) : Nat × Nat × Nat :=
  match sp with
  | .dram => (0, a, 0)
  | .stage => (1, a, 0)
  | .bank => if a / 2 ^ 20 % 2 = 0 then (3, a % 2 ^ 20, a / 2 ^ 21) else (4, a % 2 ^ 18, a / 2 ^ 21)
  | .table => (2, a, 0)

/-- The captured error's code, SOURCE and address, in the order in which R109 compares errors of one cycle. -/
def capturedErr (s : State) : List Nat :=
  [regFld Reg.MEM_ERR_INFO 23 16 s, regFld Reg.MEM_ERR_INFO 15 12 s, (reg64 Reg.MEM_ERR_ADDR_LO Reg.MEM_ERR_ADDR_HI s).toNat]

/-- Capture an error in MEM_ERR_INFO and MEM_ERR_ADDR unless one is held that was found before this cycle of the memory
controller, or in it with a higher precedence (R109). -/
def captureErr (code source tile addr : Nat) (s : State) : State :=
  if regBit Reg.MEM_ERR_INFO 31 s &&
      !(decide (s.errAt = now s / 4) && decide ([code, source, addr] < capturedErr s)) then s
  else
    setReg Reg.MEM_ERR_INFO (word (2 ^ 31 + code * 2 ^ 16 + source * 2 ^ 12 + tile))
      (setReg64 Reg.MEM_ERR_ADDR_LO Reg.MEM_ERR_ADDR_HI (BitVec.ofNat 64 addr) { s with errAt := now s / 4 })

/-- Count what a checked read found and capture its first uncorrectable word: `fixed` corrected words and `bad` uncorrectable
ones (R106, R108, R109). -/
def countErrs (sp : Space) (fixed bad : Nat) (first : Option Nat) (s : State) : State :=
  let s := if fixed = 0 then s else bumpReg Reg.MEM_CE_COUNT fixed s
  match first with
  | none => s
  | some b =>
    let e := errSource sp b
    captureErr Code.eccUncorr e.1 e.2.2 e.2.1 (bumpReg Reg.MEM_UE_COUNT bad s)

/-- A checked read that goes through all its words: every corrected and every uncorrectable word is counted (R106, R108,
R109); the result says where the first uncorrectable one was. -/
def readAll (sp : Space) (a n : Nat) (s : State) : ReadResult × State :=
  let fixed := (marksIn sp a n false s).length
  let bads := (marksIn sp a n true s).map (fun m => 8 * m.word)
  (⟨rdBytes sp a n s, fixed, bads.min?⟩, countErrs sp fixed bads.length bads.min? s)

/-- A checked read that stops at its first uncorrectable word, as a fabric job's and the loader's do (R59, R107): that word
and the corrected ones before it are counted (DEDUCED, log entry 136). -/
def readMem (sp : Space) (a n : Nat) (s : State) : ReadResult × State :=
  let bad := ((marksIn sp a n true s).map (fun m => 8 * m.word)).min?
  let fixed := ((marksIn sp a n false s).filter (fun m => bad.elim true (fun b => decide (8 * m.word < b)))).length
  (⟨rdBytes sp a n s, fixed, bad⟩, countErrs sp fixed 1 bad s)

/-- Space and byte address of an address in the form of R178: bit 63 set for the staging store, clear for DRAM. -/
def formAddr (a : Word64) : Space × Nat :=
  if a.getLsbD 63 then (.stage, a.toNat % 2 ^ 23) else (.dram, a.toNat)

/-- One byte of host memory. -/
def hostByte (a : Nat) (s : State) : Byte := tget hostDefault s.hostMem (a % 2 ^ 64)

/-- `n` bytes of host memory. -/
def hostBytes (a n : Nat) (s : State) : List Byte := (List.range n).map (fun i => hostByte (a + i) s)

/-- Write bytes to host memory. -/
def hostStore (a : Nat) (bs : List Byte) (s : State) : State :=
  match bs with
  | [] => s
  | b :: r => hostStore (a + 1) r { s with hostMem := tset hostDefault (a % 2 ^ 64) b s.hostMem }

/-- What erased flash reads as. -/
def flashDefault (_ : Nat) : Byte := 0xFF

/-- `n` bytes of the SPI NOR flash. -/
def flashBytes (a n : Nat) (s : State) : List Byte := (List.range n).map (fun i => tget flashDefault s.flash (a + i))

/-- Set bytes of the flash. -/
def flashStore (a : Nat) (bs : List Byte) (s : State) : State :=
  match bs with
  | [] => s
  | b :: r => flashStore (a + 1) r { s with flash := tset flashDefault a b s.flash }

/-- Program bytes of the flash, which only turns bits from 1 to 0 ("Firmware images and boot"). -/
def flashProgram (a : Nat) (bs : List Byte) (s : State) : State :=
  flashStore a ((bs.zip (flashBytes a bs.length s)).map (fun p => p.1 &&& p.2)) s

/-! ### Fuses (R467) -/

/-- Fuse word `w`. -/
def fuse (w : Nat) (s : State) : Word := tget fuseShipped s.fuses w

/-- The enabled columns E of the grade (R28). -/
def enabledCols (s : State) : Nat :=
  match fld (fuse 24 s) 7 4 with
  | 2 => 10
  | 3 => 8
  | _ => 12

/-- The physical column of a logical column (R28). -/
def physCol (c : Nat) (s : State) : Nat :=
  if c < 8 then fld (fuse 29 s) (4 * c + 3) (4 * c) else fld (fuse 30 s) (4 * (c - 8) + 3) (4 * (c - 8))

/-! ### Torque enables, latches and the safety frame (R394 to R400) -/

/-- The torque-enable outputs that latch bit `b` dropped; RESET drops all. -/
def droppedBy (b : Nat) (s : State) : BitVec 16 := tget (fun b => if b = Latch.reset then 0xFFFF else 0) s.saf.dropped b

/-- The outputs that some latch bit holds (R397, R398). -/
def heldTen (s : State) : BitVec 16 :=
  (List.range 12).foldl (fun m b => if regBit Reg.SAF_LATCH b s then m ||| droppedBy b s else m) 0

/-- The torque-enable outputs as driven. -/
def tenPins (s : State) : BitVec 16 := (getReg Reg.SAF_TEN_STAT s).truncate 16

/-- SAFE_N as driven: low while SAF_CMP_STAT.SAFE is 1. -/
def safeN (s : State) : Bool := !regBit Reg.SAF_CMP_STAT 31 s

/-- Axis `n`. -/
def getAxis (n : Nat) (s : State) : Axis := tget (fun _ => Axis.reset) s.srv.axes n

/-- The state with axis `n` set. -/
def setAxis (n : Nat) (a : Axis) (s : State) : State :=
  { s with srv := { s.srv with axes := tset (fun _ => Axis.reset) n a s.srv.axes } }

/-- A register of an axis's active set (R265): its shadow's Reset value until a set has taken effect. -/
def activeReg (o : Nat) (s : State) : Word := tget regReset s.srv.active o

/-- The torque-enable output of an axis: TEN of its lane, or the output that the binding of a CAN FD axis names. -/
def axisTen (n : Nat) (s : State) : Nat :=
  let b := activeReg (Reg.SRV_AXISn_BIND n) s
  if bit b 31 then fld b 11 8 else fld b 27 24

/-- Arm the ramp of every axis whose output is in the mask and whose RAMP_EN is set (R255). -/
def armRamps (mask : BitVec 16) (s : State) : State :=
  (List.range 64).foldl (fun s n =>
    if mask.getLsbD (axisTen n s) && bit (activeReg (Reg.SRV_AXISn_CTL n) s) 5
    then setAxis n { getAxis n s with armed := true } s else s) s

/-- Drive the torque-enable outputs: an output is high when it is armed and no latch bit holds it; a rise arms the ramps
of its axes (R255, R397). -/
def driveTen (s : State) : State :=
  let held := heldTen s
  let up : BitVec 16 := (getReg Reg.SAF_TEN_ARM s).truncate 16 &&& ~~~held
  let rose := up &&& ~~~(tenPins s)
  armRamps rose (setReg Reg.SAF_TEN_STAT (held ++ up) s)

/-- Drive SAFE_N and show WARN: SAFE_N is low while any latch bit but WARN_DIAG is set, and throughout reset (R396). -/
def driveSafe (s : State) : State :=
  let l := getReg Reg.SAF_LATCH s
  modReg Reg.SAF_CMP_STAT (fun w =>
    setBit (setBit w 31 (deviceReset s || l &&& latchSafeMask != 0)) 30 (bit l Latch.warnDiag)) s

/-- Lane `l`. -/
def getLane (l : Nat) (s : State) : Lane := tget (fun _ => Lane.reset) s.lanes l

/-- The state with lane `l` set. -/
def setLane (l : Nat) (v : Lane) (s : State) : State := { s with lanes := tset (fun _ => Lane.reset) l v s.lanes }

/-- Root cycles of a courier character: ten bits at 400 Mb/s (R269). -/
abbrev charRoot : Nat := 120

/-- A lane's transmitter stops at the next character boundary and holds its static level (R280): of the down frame in
progress so many characters have gone. -/
def stopLane (l : Nat) (s : State) : State :=
  match (getLane l s).startAt with
  | none => s
  | some t => emit (.downStop l (min 40 (divUp (now s - t) charRoot))) (setLane l { getLane l s with startAt := none } s)

/-- The frames heard that a cutoff may still take, after one more: those since the last cutoff, and the newest before it
(R237, R239). -/
def hearFrame (cut : Nat) (h : Heard) (hs : List Heard) : List Heard :=
  h :: (hs.filter (fun x => cut ≤ x.doneAt) ++ (hs.filter (fun x => x.doneAt < cut)).take 1)

/-- The controller `c`. -/
def getCan (c : Nat) (s : State) : Can := tget (fun _ => Can.reset) s.cans c

/-- The state with controller `c` set. -/
def setCan (c : Nat) (v : Can) (s : State) : State := { s with cans := tset (fun _ => Can.reset) c v s.cans }

/-- The 16 bytes of a safety frame, as its contents stand (R400). -/
def safetyBytes (s : State) : List Byte :=
  let l := getReg Reg.SAF_LATCH s
  let kind : Nat := if l &&& latchSafeMask != 0 then 1 else if l != 0 then 2 else 3
  let body := wordBytes (getReg Reg.SAF_SF_SEQ s) ++ leBytes 1 kind ++ leBytes 1 (regFld Reg.RNG_STAT 26 24 s)
    ++ leBytes 2 (tenPins s).toNat ++ wordBytes l ++ leBytes 2 (regFld Reg.SAF_CMP_STAT 15 0 s)
  body ++ leBytes 2 (crc16 body).toNat

/-- A frame as it goes out: ESI is recessive while its controller is error-passive, or when its sender asks for it; a
classical frame has neither BRS nor ESI (R291). -/
def onBus (c : Nat) (f : CanFrame) (s : State) : CanFrame :=
  { f with brs := f.brs && f.fdf, esi := f.fdf && (f.esi || decide (regFld (Reg.CAN_Cc_STAT c) 31 30 s = 1)) }

/-- The safety frame as its contents stand: an FD frame of identifier SAF_SF_ID and DLC 10 (R400). -/
def safetyFrame (s : State) : CanFrame :=
  let id := getReg Reg.SAF_SF_ID s
  { xtd := bit id 31, fdf := true, brs := regBit Reg.SAF_SF_CFG 30 s, esi := false, rtr := false,
    id := id.truncate 29, dlc := 10, data := safetyBytes s }

/-- Bytes of data that a DLC stands for; a classical frame has at most 8. -/
def dlcBytes (fdf : Bool) (dlc : Nat) : Nat :=
  if dlc ≤ 8 then dlc
  else if !fdf then 8
  else [12, 16, 20, 24, 32, 48, 64].getD (dlc - 9) 64

/-- Word `i` of an entry of `n` words at index `k` of a CAN memory whose first word is at `base`. -/
def canWord (base n k i : Nat) (s : State) : Word := getReg (base + 4 * (n * k + i)) s

/-- The frame in software buffer `b` (R301); a remote frame is never sent (R291). -/
def bufferFrame (c b : Nat) (s : State) : CanFrame :=
  let w := fun i => canWord (Reg.CAN_Cc_TX_BUF c 0) 20 b i s
  let fdf := bit (w 0) 30
  { xtd := bit (w 0) 31, fdf := fdf, brs := bit (w 0) 29, esi := bit (w 1) 31, rtr := false, id := (w 0).truncate 29,
    dlc := (w 1).truncate 4,
    data := ((List.range 16).flatMap (fun i => wordBytes (w (4 + i)))).take (dlcBytes fdf (fld (w 1) 3 0)) }

/-- The identifier that a frame is ordered by: a base identifier is bits [28:18] (R301). -/
def orderId (f : CanFrame) : Nat := if f.xtd then f.id.toNat else f.id.toNat / 2 ^ 18 * 2 ^ 18

/-- The frame of smallest identifier; the first of equals. -/
def lowestId (fs : List (CanSource × CanFrame)) : Option (CanSource × CanFrame) :=
  fs.foldl (fun best f =>
    match best with
    | none => some f
    | some b => if orderId f.2 < orderId b.2 then some f else best) none

/-- The frame that a controller offers next (R295): the safety frame, then axis frames, then software buffers, each in
ascending identifier order. -/
def canTop (c : Nat) (s : State) : Option (CanSource × CanFrame) :=
  let x := getCan c s
  match x.safety with
  | some f => some (.safety, f)
  | none =>
    match lowestId (x.axisTx.filterMap (fun e => e.2.map (fun f => (CanSource.axis e.1, f)))) with
    | some f => some f
    | none =>
      lowestId (((List.range 32).filter (fun b => regBit (Reg.CAN_Cc_TX_REQ c) b s)).map
        (fun b => (CanSource.buffer b, bufferFrame c b s)))

/-- Whether a controller is on the bus: enabled, out of CONFIG, neither bus-off nor recovering. -/
def canOn (c : Nat) (s : State) : Bool :=
  regBit (Reg.CAN_Cc_CTL c) 31 s && !regBit (Reg.CAN_Cc_CTL c) 30 s && decide (regFld (Reg.CAN_Cc_STAT c) 31 30 s < 2)

/-- Start the transmission of the next frame, when the controller may send and sends nothing: the frame leaves its
waiting place. -/
def offerCan (c : Nat) (s : State) : State :=
  let x := getCan c s
  if x.sending.isSome || x.waiting || !canOn c s || regBit (Reg.CAN_Cc_CTL c) 29 s then s
  else
    match canTop c s with
    | none => s
    | some (.safety, f) => setCan c { x with safety := none, sending := some (.safety, onBus c f s) } s
    | some (.axis k, f) =>
      setCan c { x with axisTx := tset (fun _ => none) k none x.axisTx, sending := some (.axis k, onBus c f s) } s
    | some (.buffer b, f) => setCan c { x with sending := some (.buffer b, onBus c f s) } s

/-- Whether a controller has its safety frame on offer. -/
def sendsSafety (x : Can) : Bool :=
  match x.sending with
  | some (.safety, _) => true
  | _ => false

/-- Queue one safety frame on its controller, when SAF_SF_CFG.EN is set; SEQ increases by 1 (R399, R400). A frame still
waiting is replaced by the newer one; what is found in the instant in which the last was queued joins that frame (R395). -/
def queueSafety (s : State) : State :=
  if regBit Reg.SAF_SF_CFG 31 s then
    let joins := decide (s.saf.frameAt = some (now s))
    let s := if joins then s else incReg Reg.SAF_SF_SEQ s
    let c := regFld Reg.SAF_SF_CFG 29 28 s
    let x := getCan c s
    let s :=
      if joins && sendsSafety x then setCan c { x with sending := some (.safety, onBus c (safetyFrame s) s) } s
      else offerCan c (setCan c { x with safety := some (safetyFrame s) } s)
    { s with saf := { s.saf with frameAt := some (now s) } }
  else s

/-- Show the binding INVALID mask (R384). -/
def setInvalidMask (m : Nat) (s : State) : State := setRegFld Reg.SAF_CMP_STAT 15 0 m s

/-- Changes found in one cycle: one safety frame carries all of them, when a latch bit has been set or the INVALID mask has
changed (R395, R399). -/
def withFrame (f : State → State) (s : State) : State :=
  let t := f s
  let new := getReg Reg.SAF_LATCH t &&& ~~~(getReg Reg.SAF_LATCH s)
  if new = 0 ∧ regFld Reg.SAF_CMP_STAT 15 0 t = regFld Reg.SAF_CMP_STAT 15 0 s then t else queueSafety t

/-- One latch bit with the outputs it drops, before the pins and the frame follow. -/
def latchBit (b : Nat) (ten : BitVec 16) (s : State) : State :=
  let fresh := !regBit Reg.SAF_LATCH b s
  let old := if fresh then 0 else droppedBy b s
  let s := { s with saf := { s.saf with
    dropped := tset (fun b => if b = Latch.reset then 0xFFFF else 0) b (old ||| ten) s.saf.dropped } }
  let s := orReg Reg.SAF_LATCH (word (2 ^ b)) s
  let s := modReg Reg.SAF_TEN_ARM (· &&& ~~~(ten.zeroExtend 32)) s
  if fresh then raise Src.safety (.latch b) Code.ok [] s else s

/-- Set latch bits: the outputs they drop fall and lose their arms (R397), SAFE_N follows (R396), and each bit newly set is
one event. -/
def putLatches (bs : List (Nat × BitVec 16)) (s : State) : State :=
  driveSafe (driveTen (bs.foldl (fun s e => latchBit e.1 e.2 s) s))

/-- Set latch bits found in the same cycle, with their frame (R395, R399). -/
def setLatches (bs : List (Nat × BitVec 16)) (s : State) : State := withFrame (putLatches bs) s

/-- Set one latch bit. -/
def setLatch (b : Nat) (ten : BitVec 16) (s : State) : State := setLatches [(b, ten)] s

/-! ### Command completions (R325, R465) -/

/-- Whether a session's commands come from the command ring: the host session's, and a maintenance session's opened over
PCIe. The others come as datagrams (R465). -/
def onRing (k : Session) (s : State) : Bool :=
  match k with
  | .host => true
  | .port => false
  | .maint => s.sess.maint.elim true (fun m => m.side = .pcie)

/-- The 32 bytes of a completion entry (R325): TAG, OP, CODE, DETAIL, then `more` and zeros. -/
def cmplEntry (i : Issue) (op code : Nat) (detail : Word) (more : List Byte) : List Byte :=
  slice (leBytes 2 i.tag.toNat ++ leBytes 1 op ++ leBytes 1 code ++ wordBytes detail ++ more) 0 32

/-- A write to host memory that a host loss discards: HOST_DISCARD counts it, and HOST_DISCARDED of the client whose it was;
a command's completion or result is the Dispatcher's own, client 15 (R331; DEDUCED, log entry 139). -/
def discardWrite (c : Nat) (s : State) : State :=
  bumpReg Reg.HOST_DISCARD 1 { s with disp := { s.disp with ledger := { s.disp.ledger with
    accounts := tset (fun _ => Account.reset) c
      { account c s with hostDiscarded := satAdd 0xFFFFFFFF (account c s).hostDiscarded 1 } s.disp.ledger.accounts } } }

/-- Write one entry to the command completion ring and raise vector 0; after a host loss it is discarded and counted
(R331). -/
def postCmpl (e : List Byte) (s : State) : State :=
  if s.disp.discarding then discardWrite 15 s
  else
    let size := regFld Reg.CMDQ_CTL 15 0 s
    if size = 0 then s
    else
      let t := (getReg Reg.CMPL_TAIL s).toNat
      let a := (reg64 Reg.CMPL_BASE_LO Reg.CMPL_BASE_HI s).toNat + 32 * t
      emit (.msix 0) (setReg Reg.CMPL_TAIL (word ((t + 1) % size)) (hostStore a e s))

/-- Write the entries of ring commands at the head that have completed, in ring order (R325). -/
def flushCmds : List CmdSlot → State → State
  | [], s => { s with disp := { s.disp with cmds := [] } }
  | c :: r, s =>
    match c.entry with
    | some e => flushCmds r (if c.lost then discardWrite 15 s else postCmpl e s)
    | none => { s with disp := { s.disp with cmds := c :: r } }

/-- Enter a command into the order of completion: a ring command advances CMDQ_HEAD. -/
def beginCmd (i : Issue) (op : Nat) (s : State) : State :=
  if onRing i.via s then
    let size := regFld Reg.CMDQ_CTL 15 0 s
    let s := if size = 0 then s
      else setReg Reg.CMDQ_HEAD (word (((getReg Reg.CMDQ_HEAD s).toNat + 1) % size)) s
    { s with disp := { s.disp with cmds := s.disp.cmds ++ [⟨i, op, none, false⟩] } }
  else s

/-- Give the entry to the first command in order that waits for it. -/
def fillSlot (i : Issue) (op : Nat) (e : List Byte) : List CmdSlot → List CmdSlot
  | [] => []
  | c :: r => if c.issue = i ∧ c.op = op ∧ c.entry = none then { c with entry := some e } :: r
    else c :: fillSlot i op e r

end Sys2Proof.Machine
end

