-- ==== Sys2Proof/Machine/Operands.lean ====
section
/-! DEFINITION. The operand forms of the manual: two-slot handoffs and their addresses (R17, R100, R178, R304 to R306), job
descriptors (R303), and the descriptors of a stage program (R486). -/

namespace Sys2Proof.Machine

/-! ### Handoffs -/

/-- The key of the handoff that SRC and INDEX name (R304). -/
def handoffKey (src index : Nat) : Nat := src * 4096 + index

/-- The key of output `o` of image pipeline context `c` (R304). -/
def ctxKey (c o : Nat) : Nat := handoffKey 1 (c * 8 + o)

/-- The key of a Sorter batch stream's handoff. -/
def streamKey (b : Nat) : Nat := handoffKey 2 b

/-- The key of a fabric handoff. -/
def fabricKey (h : Nat) : Nat := handoffKey 3 h

/-- A handoff. -/
def getHandoff (k : Nat) (s : State) : Handoff := tget (fun _ => Handoff.reset) s.disp.handoffs k

/-- The state with a handoff set. -/
def setHandoff (k : Nat) (h : Handoff) (s : State) : State :=
  { s with disp := { s.disp with handoffs := tset (fun _ => Handoff.reset) k h s.disp.handoffs } }

/-- The slot that a consumer starting at `t` reads (R17): the one most recently committed strictly before `t`; `none`
while there is none. A commit in the cycle of `t` itself is taken at the next start. -/
def slotAt (h : Handoff) (t : Nat) : Option Bool :=
  if h.commits = 0 then none
  else if h.commitAt < t then some h.front
  else if h.commits = 1 then none
  else some (!h.front)

/-- The address of a slot. -/
def slotAddr (h : Handoff) (slot : Bool) : Word64 := if slot then h.slot1 else h.slot0

/-- Space and byte address of a slot: fabric handoffs lie in the staging store (R305), the others where the form of R178
says. -/
def slotPlace (k : Nat) (slot : Bool) (s : State) : Space × Nat :=
  let a := slotAddr (getHandoff k s) slot
  if fabricKey 0 ≤ k then (.stage, a.toNat % 2 ^ 23) else formAddr a

/-- The locks held on a slot. -/
def slotLocks (h : Handoff) (slot : Bool) : Nat := if slot then h.locks1 else h.locks0

/-- Whether the back slot is locked by a consumer (R306). -/
def backLocked (h : Handoff) : Bool := slotLocks h (!h.front) != 0

/-- Commit: the slots flip (R17, R100). -/
def commitHandoff (k : Nat) (s : State) : State :=
  let h := getHandoff k s
  setHandoff k { h with commits := h.commits + 1, front := !h.front, commitAt := now s } s

/-- Add or take a lock of a slot. -/
def lockSlot (k : Nat) (slot take : Bool) (s : State) : State :=
  let h := getHandoff k s
  let f := fun n : Nat => if take then n + 1 else n - 1
  setHandoff k (if slot then { h with locks1 := f h.locks1 } else { h with locks0 := f h.locks0 }) s

/-- An output skipped because its back slot is locked: LOCK_SKIP counts it (R306). -/
def skipLocked (s : State) : State := bumpReg Reg.LOCK_SKIP 1 s

/-- Whether the source and index of a declared input exist (R304, R495). -/
def inputExists (i : InputSpec) : Bool :=
  match i.src with
  | 1 => decide (i.index / 8 < 16)
  | 2 => decide (i.index < 4)
  | 3 => decide (2 ≤ i.index) && decide (i.index < 16)
  | _ => false

/-- The key of a declared input. -/
def inputKey (i : InputSpec) : Nat := handoffKey i.src i.index

/-! ### Job descriptors (R303) -/

/-- Input `i` of a descriptor: [15] NEW, [14:12] SRC, [11:0] INDEX. -/
def parseInput (bs : List Byte) (i : Nat) : InputSpec :=
  let v := leAt bs (0x30 + 2 * i) 2
  ⟨decide (v / 2 ^ 15 = 1), v / 2 ^ 12 % 8, v % 2 ^ 12⟩

/-- The 96-byte job descriptor. -/
def parseJob (bs : List Byte) : JobDesc :=
  let flags := byteAt bs 5
  { jobId := BitVec.ofNat 16 (leAt bs 0 2), handle := Fin.ofNat 64 (byteAt bs 2), baseCol := byteAt bs 3 % 16,
    level := byteAt bs 4 % 4, replay := flags.testBit 0, lateOk := flags.testBit 1, residentSafe := flags.testBit 2,
    nin := byteAt bs 6, restartLimit := byteAt bs 7, deadlineUs := leAt bs 8 4, releaseUs := leAt bs 0xC 4,
    dramBase := BitVec.ofNat 64 (leAt bs 0x10 8), stateBase := BitVec.ofNat 64 (leAt bs 0x18 8),
    stateAlt := BitVec.ofNat 64 (leAt bs 0x20 8), resultLen := leAt bs 0x28 4,
    inputs := (List.range (min (byteAt bs 6) 8)).map (parseInput bs),
    resultSrc := BitVec.ofNat 64 (leAt bs 0x40 8), resultAddr := BitVec.ofNat 64 (leAt bs 0x48 8) }

/-! ### Stage programs (R486) -/

/-- The size that a DTYPE fixes; `none` for a DTYPE that no rule accepts (R120, R138, R355). -/
def descSize (dtype : Nat) : Option Nat :=
  match dtype with
  | 0x10 => some 64 | 0x11 => some 64 | 0x20 => some 64
  | 0x01 => some 32 | 0x02 => some 32 | 0x03 => some 32 | 0x12 => some 32
  | 0x13 => some 32 | 0x14 => some 32 | 0x21 => some 32 | 0x22 => some 32
  | _ => none

/-- The descriptors of a program from byte `o`, and whether they exactly fill it; each takes at least 32 bytes, so `fuel`
descriptors are enough. A last descriptor that PROG_LEN cuts short is kept under DTYPE 0, which no rule accepts: what fails
is its place in the program and none of its fields is judged (R486). -/
def parseProg (bs : List Byte) (o : Nat) : Nat → List Desc × Bool
  | 0 => ([], decide (o = bs.length))
  | fuel + 1 =>
    if bs.length ≤ o then ([], decide (o = bs.length))
    else
      match descSize (byteAt bs o) with
      | none => ([⟨byteAt bs o, o, slice bs o 32⟩], false)
      | some n =>
        if bs.length < o + n then ([⟨0, o, slice bs o n⟩], false)
        else
          let r := parseProg bs (o + n) fuel
          (⟨byteAt bs o, o, slice bs o n⟩ :: r.1, r.2)

/-- A copy descriptor's fields (R101); R102 takes the low three bits of addresses and steps as 0. -/
structure CopyDesc where
  weight   : Bool
  bank     : Nat
  extKind  : Nat
  bankAddr : Nat
  extAddr  : Nat
  bankStep : Nat
  deriving DecidableEq, Repr

/-- A value with its low three bits taken as 0 (R102). -/
def align8 (n : Nat) : Nat := n / 8 * 8

/-- Parse a copy descriptor. -/
def parseCopy (d : Desc) : CopyDesc :=
  { weight := (byteAt d.bytes 1).testBit 0, bank := byteAt d.bytes 2, extKind := byteAt d.bytes 3,
    bankAddr := align8 (leAt d.bytes 4 4), extAddr := align8 (leAt d.bytes 8 8),
    bankStep := align8 (leAt d.bytes 0x10 4) }

/-- A paged copy descriptor's fields (R149). -/
structure PagedDesc where
  values   : Bool
  adv      : Bool
  tail     : Bool
  extKind  : Nat
  bankAddr : Nat
  ptAddr   : Nat
  bankStep : Nat
  pos0     : Nat
  deriving DecidableEq, Repr

/-- Parse a paged copy descriptor. -/
def parsePaged (d : Desc) : PagedDesc :=
  let f := byteAt d.bytes 1
  { values := f.testBit 0, adv := f.testBit 1, tail := f.testBit 2, extKind := byteAt d.bytes 3,
    bankAddr := align8 (leAt d.bytes 4 4), ptAddr := leAt d.bytes 8 8,
    bankStep := align8 (leAt d.bytes 0x10 4), pos0 := leAt d.bytes 0x14 4 }

/-- A ring transfer descriptor's fields (R355). -/
structure TransferDesc where
  west     : Bool
  rfmt     : Nat
  bank     : Nat
  bankAddr : Nat
  peer     : Nat
  channel  : Nat
  bankStep : Nat
  deriving DecidableEq, Repr

/-- Parse a ring transfer descriptor. -/
def parseTransfer (d : Desc) : TransferDesc :=
  let f := byteAt d.bytes 1
  { west := f.testBit 0, rfmt := f / 2 % 4, bank := byteAt d.bytes 2, bankAddr := align8 (leAt d.bytes 4 4),
    peer := byteAt d.bytes 8, channel := byteAt d.bytes 9, bankStep := align8 (leAt d.bytes 0xC 4) }

/-- The size of a bank: weight 1 MiB, activation 256 KiB (R103). -/
def bankSize (bank : Nat) : Nat := if bank = 0 then 2 ^ 20 else 2 ^ 18

/-- The key of a byte of a tile's bank, its address taken modulo the bank size (R103). -/
def bankKey (tile bank addr : Nat) : Nat := tile * 2 ^ 21 + min bank 1 * 2 ^ 20 + addr % bankSize bank

/-- Bytes of a bank with wrap, as they stand. -/
def bankBytes (tile bank addr n : Nat) (s : State) : List Byte :=
  (List.range n).map (fun i => rdByte .bank (bankKey tile bank (addr + i)) s)

/-! ### Accesses of one fabric cycle (R95, R96) -/

/-- The port ranks of R95, in the order in which a sub-bank serves them. -/
abbrev Port.array : Nat := 0
/-- The vector unit. -/
abbrev Port.vector : Nat := 1
/-- The mesh landing buffers. -/
abbrev Port.landing : Nat := 2
/-- The copy engine. -/
abbrev Port.copy : Nat := 3
/-- The host window. -/
abbrev Port.window : Nat := 4

/-- The fabric cycle in which an instant lies. -/
def fabricCycle (t : Nat) (s : State) : Nat := t / fcRoot s

/-- The fabric cycle that ends at an instant, in which what becomes visible then was written. -/
def cycleBefore (t : Nat) (s : State) : Nat := (t - 1) / fcRoot s

/-- What is known of the last write of a bank byte. -/
def bankNote (k : Nat) (s : State) : Option BankNote := tget (fun _ => none) s.bankLog k

/-- One byte of a bank as a read served in fabric cycle `n` returns it: the value before what is written in that cycle
(R96). -/
def bankByteAt (n k : Nat) (s : State) : Byte :=
  match bankNote k s with
  | some e => if n ≤ e.cycle then e.before else rdByte .bank k s
  | none => rdByte .bank k s

/-- Write one byte of a bank in fabric cycle `c` by a port: of two writes of one cycle the later served stands (R95, R96),
and a write never undoes one of a later cycle. -/
def bankPutByte (c port k : Nat) (b : Byte) (s : State) : State :=
  let note := fun (e : BankNote) (s : State) => { s with bankLog := tset (fun _ => none) k (some e) s.bankLog }
  match bankNote k s with
  | none => wrByte .bank k b (note ⟨c, port, rdByte .bank k s⟩ s)
  | some e =>
    if e.cycle < c then wrByte .bank k b (note ⟨c, port, rdByte .bank k s⟩ s)
    else if e.cycle = c then if e.port ≤ port then wrByte .bank k b (note { e with port := port } s) else s
    else note { e with before := b } s

/-- Write bytes of a bank from a key on. -/
def bankPutRaw (c port k : Nat) (bs : List Byte) (s : State) : State :=
  match bs with
  | [] => s
  | b :: r => bankPutRaw c port (k + 1) r (bankPutByte c port k b s)

/-- Write bytes within one word of a bank; new check bits end its error mark. -/
def bankPutWord (c port k : Nat) (bs : List Byte) (s : State) : State :=
  let s := bankPutRaw c port k bs s
  { s with marks := s.marks.filter (fun m => !markGone .bank k bs.length m) }

/-- Write bytes to a bank word by word, with wrap; `fuel` is at least the number of bytes. -/
def bankWriteGo (c port tile bank addr : Nat) (bs : List Byte) : Nat → State → State
  | 0, s => s
  | fuel + 1, s =>
    match bs with
    | [] => s
    | _ :: _ =>
      let k := 8 - addr % 8
      bankWriteGo c port tile bank (addr + k) (bs.drop k) fuel (bankPutWord c port (bankKey tile bank addr) (bs.take k) s)

/-- Forget the writes of fabric cycles before the last one. -/
def forgetWrites (c : Nat) (s : State) : State :=
  { s with bankLog := s.bankLog.filter (fun e => e.2.elim false (fun n => decide (c ≤ n.cycle + 1))) }

/-- Write bytes to a bank in fabric cycle `c` by a port, its address taken modulo the bank size. -/
def bankWrite (c port tile bank addr : Nat) (bs : List Byte) (s : State) : State :=
  bankWriteGo c port tile bank addr bs bs.length (forgetWrites c s)

/-- The banks as reads served in fabric cycle `n` find them (R96). -/
def bankView (n : Nat) (s : State) : State :=
  s.bankLog.foldl (fun s e => e.2.elim s (fun x => if n ≤ x.cycle then wrByte .bank e.1 x.before s else s)) s

/-- A checked read of `n` bytes of a bank, word by word with wrap: the first uncorrectable word, and the state that has
counted what was found. -/
def bankReadGo (tile bank : Nat) : Nat → Nat → Nat → State → Option Nat × State
  | 0, _, _, s => (none, s)
  | fuel + 1, addr, n, s =>
    if n = 0 then (none, s)
    else
      let k := min n (8 - addr % 8)
      let r := readMem .bank (bankKey tile bank addr) k s
      match r.1.bad with
      | some b => (some b, r.2)
      | none => bankReadGo tile bank fuel (addr + k) (n - k) r.2

/-- A checked read of a bank in the present fabric cycle (R96, R106, R107): it ends at its first uncorrectable word. -/
def bankRead (tile bank addr n : Nat) (s : State) : ReadResult × State :=
  let bs := (List.range n).map (fun i => bankByteAt (fabricCycle (now s) s) (bankKey tile bank (addr + i)) s)
  if s.marks = [] then (⟨bs, 0, none⟩, s)
  else
    let r := bankReadGo tile bank n addr n s
    (⟨bs, 0, r.1⟩, r.2)

end Sys2Proof.Machine
end

