-- ==== Sys2Proof/Machine/Almanac.lean ====
section
/-! DEFINITION. The Almanac image byte by byte (R38 to R55, R486) and the checks of registration (R57, R61, R489, R490),
each with the reason and the image offset that it reports. -/

namespace Sys2Proof.Machine

/-- What refuses an image: a code of R9 (FIELD_ZERO) or 0, a reason of R61 (0 with a code), and the image offset of the
cause (R489). -/
structure Cause where
  code   : Nat
  reason : Nat
  offset : Nat
  deriving DecidableEq, Repr

/-- A reason without a code. -/
def Cause.of (reason offset : Nat) : Cause := ⟨0, reason, offset⟩

/-- FIELD_ZERO at an offset; its REASON is 0 (R60). -/
def Cause.zero (offset : Nat) : Cause := ⟨Code.fieldZero, 0, offset⟩

/-- The cause reported of those found in one stage: the lowest reason, then the lowest offset (R489, R490). -/
def firstCause (cs : List Cause) : Option Cause :=
  cs.foldl (fun b c => match b with
    | none => some c
    | some x => if c.reason < x.reason ∨ (c.reason = x.reason ∧ c.offset < x.offset) then some c else b) none

/-- One cause when a condition fails. -/
def need (ok : Bool) (c : Cause) : List Cause := if ok then [] else [c]

/-! ### The parts of an image -/

/-- A section table entry (R39), with its own offset. -/
structure Section_ where
  at_    : Nat
  type   : Nat
  offset : Nat
  length : Nat
  count  : Nat
  deriving DecidableEq, Repr

/-- The header fields that the machine keeps (R38). -/
def parseHeader (b : List Byte) : AlmHeader :=
  let len := leAt b 8 4
  { imageLen := len, tileCount := leAt b 0x10 2, opPoint := byteAt b 0x12, ringSize := byteAt b 0x13,
    ringPos := byteAt b 0x14, schedLen := leAt b 0x18 4, buildId := BitVec.ofNat 64 (leAt b 0x20 8),
    hdrCrc := wordAt b 0x3C, imgCrc := wordAt b (len - 4) }

/-- The section table. -/
def parseSections (b : List Byte) : List Section_ :=
  (List.range (leAt b 0x0E 2)).map (fun i =>
    let o := 64 + 16 * i
    ⟨o, leAt b o 2, leAt b (o + 4) 4, leAt b (o + 8) 4, leAt b (o + 12) 4⟩)

/-- The tile records of a section that ends at `stop`, walked by their RECORD_LEN; the walk stops at a zero (R490), and no
record begins at or beyond the section's end. -/
def parseTiles (b : List Byte) (stop : Nat) : Nat → Nat → List TileRec
  | 0, _ => []
  | n + 1, o =>
    if stop ≤ o then []
    else
    let len := leAt b (o + 2) 2
    let plen := leAt b (o + 0x18) 4
    let p := parseProg (slice b (o + 0x80) (min plen 16384)) 0 513
    let r : TileRec :=
      { tile := leAt b o 2, offset := o, recLen := len, stageId := leAt b (o + 4) 2, arrayFmt := byteAt b (o + 6),
        vectorFmt := byteAt b (o + 7), wBase := leAt b (o + 8) 4, wSize := leAt b (o + 12) 4,
        aBase := leAt b (o + 16) 4, aSize := leAt b (o + 20) 4, progLen := plen, hashSel := wordAt b (o + 0x1C),
        arithCtl := wordAt b (o + 0x20), prog := p.1, filled := p.2 }
    if len = 0 then [r] else r :: parseTiles b stop n (o + 64 * len)

/-- A route record (R47). -/
def parseRoute (b : List Byte) (o : Nat) : RouteRec :=
  { offset := o, id := leAt b o 2, srcTile := leAt b (o + 4) 2, srcBuf := byteAt b (o + 6), dstBuf := byteAt b (o + 7),
    dstTile := leAt b (o + 8) 2, width := leAt b (o + 10) 2, latency := leAt b (o + 12) 2 }

/-- A schedule record (R48). -/
def parseSched (b : List Byte) (o : Nat) : SchedRec :=
  { offset := o, first := leAt b o 4, period := leAt b (o + 4) 4, repeat_ := leAt b (o + 8) 4,
    tile := leAt b (o + 12) 2, action := byteAt b (o + 14), buf := byteAt b (o + 15), desc := leAt b (o + 16) 4,
    step := leAt b (o + 20) 4, length := leAt b (o + 24) 4, due := leAt b (o + 28) 4 }

/-- A boundary record (R53). -/
def parseBound (b : List Byte) (o : Nat) : BoundRec :=
  { offset := o, kind := byteAt b o, index := byteAt b (o + 1), base := leAt b (o + 8) 8, len := leAt b (o + 16) 8 }

/-- A state record (R55). -/
def parseState (b : List Byte) (o : Nat) : StateRec :=
  { offset := o, tile := leAt b o 2, bank := byteAt b (o + 2), base := leAt b (o + 4) 4, len := leAt b (o + 8) 4,
    save := leAt b (o + 16) 8 }

/-- The records of the first section of a type, by a parser of fixed-size records. -/
def recordsOf {α : Type} (b : List Byte) (ss : List Section_) (type : Nat) (p : List Byte → Nat → α) : List α :=
  match ss.find? (fun x => x.type = type) with
  | none => []
  | some x => (List.range x.count).map (fun i => p b (x.offset + 32 * i))

/-- The whole image. -/
def parseImage (b : List Byte) : Image :=
  let ss := parseSections b
  { hdr := parseHeader b
    tiles := match ss.find? (fun x => x.type = 1) with
      | none => []
      | some x => parseTiles b (x.offset + x.length) x.count x.offset
    routes := recordsOf b ss 2 parseRoute, sched := recordsOf b ss 3 parseSched,
    bounds := recordsOf b ss 4 parseBound, states := recordsOf b ss 5 parseState }

/-- The columns that N tiles need: ⌈N / 8⌉. -/
def colsOf (tiles : Nat) : Nat := divUp tiles 8

/-- The first record of a tile. -/
def tileRec (im : Image) (t : Nat) : Option TileRec := im.tiles.find? (fun r => r.tile = t)

/-- The descriptor that a schedule record names (R486). -/
def descOf (im : Image) (r : SchedRec) : Option Desc := (tileRec im r.tile).bind (fun t => t.prog[r.desc]?)

/-- The descriptor of buffer number `n` of a tile, when `n` is one: a copy descriptor with EXT_KIND 0 (R487). -/
def bufferOf (im : Image) (tile n : Nat) : Option CopyDesc :=
  (tileRec im tile).bind (fun t => (t.prog[n]?).bind (fun d =>
    if d.dtype = 1 ∧ (parseCopy d).extKind = 0 then some (parseCopy d) else none))

/-- The routes that a SEND selects (R487). -/
def routesOf (im : Image) (r : SchedRec) : List RouteRec :=
  im.routes.filter (fun x => decide (x.srcTile = r.tile) && decide (x.srcBuf = r.buf))

/-! ### Stage 1 to 5 (R490) -/

/-- Stage 1: MAGIC, VERSION, HDR_CRC; the device accepts format 1.0 (FAB_ID). -/
def stage1 (b : List Byte) : List Cause :=
  need (leAt b 0 4 = 0x4E4D4C41) (.of 1 0x00) ++
  need (leAt b 4 2 = 1) (.of 2 0x04) ++
  need (leAt b 6 2 = 0) (.of 2 0x06) ++
  need (crc32c (slice b 0 0x3C) = wordAt b 0x3C) (.of 3 0x3C)

/-- Stage 2: zeros of the header (R56). -/
def stage2 (b : List Byte) : List Cause :=
  need (leAt b 8 4 ≠ 0) (.zero 0x08) ++ need (leAt b 0xC 2 ≠ 0) (.zero 0x0C) ++
  need (leAt b 0xE 2 ≠ 0) (.zero 0x0E) ++ need (byteAt b 0x13 ≠ 0) (.zero 0x13)

/-- Stage 3: the image CRC (R42). An IMAGE_LEN of 1 to 3 holds no CRC and is refused as IMG_CRC; R489's IMAGE_LEN − 4 is
then negative, and the model reports offset 0 (DESIGN CHOICE, log entry 142). -/
def stage3 (b : List Byte) : List Cause :=
  let len := leAt b 8 4
  need (decide (4 ≤ len) && crc32c (slice b 0 (len - 4)) = wordAt b (len - 4)) (.of 4 (len - 4))

/-- Whether two sections share a byte. -/
def overlaps (x y : Section_) : Bool :=
  decide (max x.offset y.offset < min (x.offset + x.length) (y.offset + y.length))

/-- The record size of a section type of fixed-size records. -/
def fixedType (t : Nat) : Bool := decide (2 ≤ t) && decide (t ≤ 5)

/-- The excess occurrences of a type, and its absence where it is required (R40). -/
def countCauses (ss : List Section_) (t : Nat) (required : Bool) : List Cause :=
  match ss.filter (fun x => x.type = t) with
  | [] => need (!required) (.of 6 0x0E)
  | _ :: r => r.map (fun x => .of 6 x.at_)

/-- Stage 4: placement of the table and the sections, HDR_LEN, and the types (R40, R41). -/
def stage4 (b : List Byte) : List Cause :=
  let ss := parseSections b
  let end_ := leAt b 8 4 - 4
  let tab := 64 + 16 * leAt b 0xE 2
  need (tab ≤ end_) (.of 5 0x0E) ++ need (leAt b 0xC 2 = 64) (.of 5 0x0C) ++
  ss.flatMap (fun x =>
    need (decide (x.offset % 64 = 0) && decide (tab ≤ x.offset) && decide (x.offset + x.length ≤ end_) &&
        (!fixedType x.type || decide (x.length = 32 * x.count)) &&
        ss.all (fun y => y.at_ = x.at_ || !overlaps x y)) (.of 5 x.at_) ++
    need (decide (1 ≤ x.type) && decide (x.type ≤ 5)) (.of 6 x.at_)) ++
  countCauses ss 1 true ++ countCauses ss 2 false ++ countCauses ss 3 true ++ countCauses ss 4 true ++
  countCauses ss 5 false

/-- Stage 5: zeros of RECORD_LEN, WIDTH and PERIOD (R56). -/
def stage5 (im : Image) : List Cause :=
  im.tiles.flatMap (fun t => need (t.recLen ≠ 0) (.zero (t.offset + 2))) ++
  im.routes.flatMap (fun r => need (r.width ≠ 0) (.zero (r.offset + 10))) ++
  im.sched.flatMap (fun r => need (r.period ≠ 0) (.zero (r.offset + 4)))

/-! ### Stage 6: operators (R119, R120, R138, R140, R158, R355) -/

/-- Element bytes of an IN_FMT (R118): 1 INT8, 2 INT16, 3 and 4 FP8, 7 FP16. -/
def inBytes (f : Nat) : Nat := if f = 2 ∨ f = 7 then 2 else 1

/-- Element bytes of an OUT_FMT (R118): 1 FP16, 2 BF16, 3 INT8, 4 and 5 FP8, 6 INT16. -/
def outBytes (f : Nat) : Nat := if f = 1 ∨ f = 2 ∨ f = 6 then 2 else 1

/-- The smallest line pitch of R116 for C channels, W pixels and elements of e bytes. -/
def minPitch (c w e : Nat) : Nat := divUp c (32 / e) * w * 32

/-- Output size of a convolution on one axis; 0 when the numerator is negative (R121). -/
def convOut (img padA padB dil k stride : Nat) : Nat :=
  if img + padA + padB < dil * (k - 1) + 1 then 0 else (img + padA + padB - dil * (k - 1) - 1) / stride + 1

/-- Output size of a transposed convolution on one axis (R125); 0 when it is not positive, and for an image of size 0, of
which R129 writes nothing (DESIGN CHOICE, log entry 193). -/
def tconvOut (img padA padB dil k stride : Nat) : Nat :=
  if img = 0 then 0 else (img - 1) * stride + dil * (k - 1) + 1 - padA - padB

/-- Whether IN_FMT matches ARRAY_FMT (R118). -/
def fmtMatches (arrayFmt inFmt : Nat) : Bool :=
  match arrayFmt with
  | 1 => inFmt = 1
  | 2 => inFmt = 2
  | 3 => inFmt = 3 || inFmt = 4
  | 4 => inFmt = 3 || inFmt = 4
  | 5 => inFmt = 1
  | 6 => inFmt = 7
  | _ => false

/-- The causes of one descriptor of a tile program, at its image offset. -/
def descCauses (t : TileRec) (ringPos : Nat) (d : Desc) : List Cause :=
  let b := d.bytes
  let o := t.offset + 0x80 + d.offset
  let bad := Cause.of 16 o
  match d.dtype with
  | 0x10 => convCauses b o bad false
  | 0x11 => convCauses b o bad true
  | 0x12 =>
    let f := byteAt b 1
    need (f = 1 || f = 2 || f = 3 || f = 4 || f = 7) bad ++
    need (leAt b 0x0C 4 % 64 = 0 && minPitch (leAt b 2 2) (leAt b 6 2) (inBytes f) ≤ leAt b 0x0C 4) bad ++
    need (leAt b 0x14 4 % 8 = 0) bad
  | 0x13 => zrunCauses b o bad true
  | 0x14 => zrunCauses b o bad false
  | 0x20 =>
    let dim := leAt b 6 2
    let ch := leAt b 10 2
    need (byteAt b 4 ≠ 0) (.zero (o + 4)) ++ need (dim ≠ 0) (.zero (o + 6)) ++ need (ch ≠ 0) (.zero (o + 10)) ++
    need ((byteAt b 2 = 3 || byteAt b 2 = 4) && (byteAt b 3 = 1 || byteAt b 3 = 2) && byteAt b 4 ≤ 4 &&
      (dim = 0 || dim = 32 || dim = 64 || dim = 128) && leAt b 8 2 ≤ 256 && ch % 64 = 0 && ch ≤ 1024) bad ++
    need (!((byteAt b 1).testBit 0 && (byteAt b 1).testBit 1)) bad
  | 0x21 =>
    let dim := leAt b 4 2
    need (dim ≠ 0) (.zero (o + 4)) ++
    need ((byteAt b 1 = 3 || byteAt b 1 = 4) && (dim = 0 || dim = 32 || dim = 64 || dim = 128)) bad
  | 0x22 =>
    let dim := leAt b 4 2
    need (dim ≠ 0) (.zero (o + 4)) ++
    need ((byteAt b 6 = 1 || byteAt b 6 = 2) && (dim = 0 || dim = 32 || dim = 64 || dim = 128)) bad
  | 0x02 => need (byteAt b 2 = 1 && (byteAt b 3 = 3 || byteAt b 3 = 4)) bad
  | 0x03 => need (byteAt b 2 ≤ 1 && byteAt b 3 = 5 && byteAt b 8 ≤ 7 && byteAt b 8 ≠ ringPos && byteAt b 9 ≤ 63 &&
      byteAt b 1 / 2 % 4 ≠ 3) bad
  | 0x01 => []
  | _ => [bad]
where
  /-- Convolution and transposed convolution (R118 to R120). -/
  convCauses (b : List Byte) (o : Nat) (bad : Cause) (tr : Bool) : List Cause :=
    let kh := byteAt b 4
    let kw := byteAt b 5
    let st := byteAt b 6
    let dil := byteAt b 7
    let inF := byteAt b 2
    let outF := byteAt b 3
    let w := leAt b 0x0E 2
    let wOut := if tr then tconvOut w (byteAt b 10) (byteAt b 11) dil kw st
      else convOut w (byteAt b 10) (byteAt b 11) dil kw (max st 1)
    need (kh ≠ 0) (.zero (o + 4)) ++ need (kw ≠ 0) (.zero (o + 5)) ++ need (st ≠ 0) (.zero (o + 6)) ++
    need (dil ≠ 0) (.zero (o + 7)) ++
    need ((inF = 1 || inF = 2 || inF = 3 || inF = 4 || inF = 7) && 1 ≤ outF && outF ≤ 6 && kh ≤ 7 && kw ≤ 7 &&
      (st = 0 || st = 1 || st = 2 || st = 4) && (dil = 0 || dil = 1 || dil = 2 || dil = 4)) bad ++
    need (fmtMatches t.arrayFmt inF) bad ++
    need (byteAt b 8 ≤ dil * (kh - 1) && byteAt b 9 ≤ dil * (kh - 1) && byteAt b 10 ≤ dil * (kw - 1) &&
      byteAt b 11 ≤ dil * (kw - 1)) bad ++
    need (!(tr && (byteAt b 1).testBit 0)) bad ++
    need (leAt b 0x18 4 % 64 = 0 && minPitch (leAt b 0x10 2) w (inBytes inF) ≤ leAt b 0x18 4 &&
      leAt b 0x1C 4 % 64 = 0 && minPitch (leAt b 0x12 2) wOut (outBytes outF) ≤ leAt b 0x1C 4) bad
  /-- Zero-run compression and expansion (R119, R120, R135). -/
  zrunCauses (b : List Byte) (o : Nat) (bad : Cause) (compress : Bool) : List Cause :=
    let elem := byteAt b 1
    let h := leAt b 4 2
    let lb := leAt b 0x14 4
    need (elem ≠ 0) (.zero (o + 1)) ++ need (elem ≤ 2) bad ++ need (lb % 32 = 0) bad ++
    need (leAt b 0x0C 4 % 64 = 0 && lb ≤ leAt b 0x0C 4) bad ++
    need (!compress || elem = 0 ||
      32 + 8 * divUp h 2 + h * divUp lb (32 * elem) * (8 + 32 * elem) ≤ leAt b 0x18 4) bad

/-- Whether a DTYPE is an operator's (R486). -/
def isOperator (t : Nat) : Bool := (decide (0x10 ≤ t) && decide (t ≤ 0x14)) || (decide (0x20 ≤ t) && decide (t ≤ 0x22))

/-- R486 on one schedule record: whether its action and its descriptor agree. -/
def actionOk (im : Image) (r : SchedRec) : Bool :=
  match r.action with
  | 1 => (descOf im r).elim false (fun d => d.dtype = 1 || d.dtype = 2 || d.dtype = 3)
  | 2 => (descOf im r).elim false (fun d => d.dtype = 1 || d.dtype = 2 || d.dtype = 3)
  | 3 => true
  | 4 => (descOf im r).elim false (fun d => isOperator d.dtype)
  | 5 => (descOf im r).elim false (fun d => d.dtype = 1 && (parseCopy d).extKind = 2)
  | _ => false

/-! ### Stage 6: routes (R32, R35, R488) -/

/-- The links that a route uses, as (row, column, direction) of physical columns: east or west in the source row, then
north or south in the destination's column. -/
def routeLinks (r0 c0 r1 c1 : Nat) : List (Nat × Nat × Nat) :=
  (if c0 ≤ c1 then (List.range (c1 - c0)).map (fun i => (r0, c0 + i, 0))
    else (List.range (c0 - c1)).map (fun i => (r0, c0 - i, 1))) ++
  (if r0 ≤ r1 then (List.range (r1 - r0)).map (fun i => (r0 + i, c1, 2))
    else (List.range (r0 - r1)).map (fun i => (r0 - i, c1, 3)))

/-- The links of a route at base column `k` on this device. -/
def linksAt (r : RouteRec) (k : Nat) (s : State) : List (Nat × Nat × Nat) :=
  routeLinks (r.srcTile % 8) (physCol (k + r.srcTile / 8) s) (r.dstTile % 8) (physCol (k + r.dstTile / 8) s)

/-- R35 for one route at one base column: 6 fc plus 1 fc a hop is at most L and at least L − 32, and no link that it
uses carries more than 8 words per fc. -/
def routeFits (im : Image) (r : RouteRec) (k : Nat) (s : State) : Bool :=
  let ls := linksAt r k s
  let lat := 6 + ls.length
  decide (lat ≤ r.latency) && decide (r.latency ≤ lat + 32) &&
    ls.all (fun l => decide (((im.routes.filter (fun x => l ∈ linksAt x k s)).map (·.width)).sum ≤ 8))

/-- The causes of one route record. -/
def routeCauses (im : Image) (s : State) (r : RouteRec) : List Cause :=
  let n := im.hdr.tileCount
  let w := colsOf n
  let ok := decide (r.srcTile < n) && decide (r.dstTile < n) && decide (r.srcTile ≠ r.dstTile) && decide (r.width ≤ 4) &&
    im.routes.all (fun x => x.offset = r.offset || x.id ≠ r.id) &&
    (bufferOf im r.srcTile r.srcBuf).isSome && (bufferOf im r.dstTile r.dstBuf).isSome &&
    (List.range (enabledCols s + 1 - w)).all (fun k => routeFits im r k s)
  need ok (.of 10 r.offset)

/-! ### Stage 6: the schedule (R49 to R51, R488) -/

/-- The fabric cycles that a SEND instance occupies its route. -/
def sendCycles (im : Image) (r : SchedRec) : Nat :=
  match (routesOf im r).head? with
  | none => 0
  | some x => divUp (align8 r.length) (8 * x.width)

/-- R50 on two records: whether some instances fall on one cycle. -/
def clash (x y : SchedRec) : Bool :=
  (List.range x.repeat_).any (fun i =>
    let c := x.first + i * x.period
    decide (y.first ≤ c) && decide (0 < y.period) && decide ((c - y.first) % y.period = 0) &&
      decide ((c - y.first) / y.period < y.repeat_))

/-- Whether instances of two SENDs of one route occupy it in a common cycle (R488); `dx`, `dy` are their cycles. -/
def sendClash (x y : SchedRec) (dx dy : Nat) : Bool :=
  (List.range x.repeat_).any (fun i =>
    let c := x.first + i * x.period
    let j := if c < y.first + dy then 0 else (c - dy - y.first) / y.period + 1
    decide (0 < dx) && decide (0 < dy) && decide (j < y.repeat_) && decide (y.first + j * y.period < c + dx))

/-- The schedule causes of record `r` at position `i`. -/
def schedCauses (im : Image) (p : SchedRec × Nat) : List Cause :=
  let r := p.1
  let before := im.sched.take p.2
  let others := im.sched.filter (fun x => x.offset ≠ r.offset && x.tile = r.tile)
  let sends := others.filter (fun x => x.action = 3 && x.buf = r.buf)
  let n := sendCycles im r
  need (before.all (fun x => x.first ≤ r.first)) (.of 11 r.offset) ++
  need (others.all (fun x => !clash r x) &&
    (r.action ≠ 3 || (sends.all (fun x => !sendClash r x n (sendCycles im x)) &&
      (r.repeat_ ≤ 1 || decide (n ≤ r.period))))) (.of 12 r.offset) ++
  need (decide ((before.filter (fun x => x.tile = r.tile)).length < 1024)) (.of 13 r.offset) ++
  need (r.action ≠ 3 || decide ((routesOf im r).length = 1)) (.of 10 r.offset)

/-! ### Stage 6: boundaries (R54, R356, R493) -/

/-- Whether bytes a to a + n − 1 lie wholly inside a record. -/
def insideOne (bs : List BoundRec) (a n : Nat) : Bool :=
  decide (n = 0) || bs.any (fun x => decide (x.base ≤ a) && decide (a + n ≤ x.base + x.len))

/-- Whether a boundary kind permits a direction: copies in from 1, 3 and 4, out to 2 and 4 (R53). -/
def kindPermits (kind : Nat) (out : Bool) : Bool := if out then kind = 2 || kind = 4 else kind = 1 || kind = 3 || kind = 4

/-- R54 on one schedule record. A copy descriptor with EXT_KIND 0 has no boundary record and is refused whenever it is named
(R487), and the header of a paged copy's table is judged whatever its LENGTH (R493); else a record with REPEAT 0 has no
instance, and an instance with LENGTH 0 moves no bytes and so touches nothing outside a boundary (R7, R52). -/
def boundOk (im : Image) (r : SchedRec) : Bool :=
  let still := decide (r.repeat_ = 0) || decide (align8 r.length = 0)
  match descOf im r with
  | none => true
  | some d =>
    let out := r.action ≠ 1
    if d.dtype = 1 then
      let c := parseCopy d
      let recs := im.bounds.filter (fun x => x.kind = c.extKind && (c.extKind ≠ 1 && c.extKind ≠ 2 || x.index = r.buf))
      decide (c.extKind ≠ 0) && (still || (kindPermits c.extKind out && (List.range r.repeat_).all (fun i =>
        insideOne recs (c.extAddr + align8 r.step * i) (align8 r.length))))
    else if d.dtype = 2 then
      let p := parsePaged d
      decide (!out || p.extKind = 4) && insideOne (im.bounds.filter (fun x => x.kind = p.extKind)) p.ptAddr 32
    else
      let t := parseTransfer d
      still || im.bounds.any (fun x => x.kind = 5 && x.index = t.west.toNat)

/-- The causes of the boundary kind: an unknown KIND, an action outside the boundary, a ring port in an image of ring
size 1 (R54, R347). -/
def boundCauses (im : Image) : List Cause :=
  im.bounds.flatMap (fun x => need (1 ≤ x.kind && x.kind ≤ 5) (.of 14 x.offset) ++
    need (!(im.hdr.ringSize = 1 && x.kind = 5)) (.of 9 x.offset)) ++
  im.sched.flatMap (fun r =>
    need ((r.action ≠ 1 && r.action ≠ 2 && r.action ≠ 5) || !actionOk im r || boundOk im r) (.of 14 r.offset))

/-! ### The whole judgement -/

/-- R44: whether a tile record's program lies in it. One that does not is not read. -/
def programFits (t : TileRec) : Bool := decide (t.progLen ≤ 16384) && decide (128 + t.progLen ≤ 64 * t.recLen)

/-- R44: whether a tile record's regions and program lie where they may. -/
def recordFits (t : TileRec) : Bool :=
  decide (t.wBase + t.wSize ≤ 1048576) && decide (t.aBase + t.aSize ≤ 262144) && programFits t

/-- Stage 6: every other check but HANDLES. -/
def stage6 (b : List Byte) (im : Image) (s : State) : List Cause :=
  let n := im.hdr.tileCount
  let tileSec := (parseSections b).find? (fun x => x.type = 1)
  (match tileSec with
    | none => []
    | some x => need (decide ((im.tiles.map (fun t => 64 * t.recLen)).sum = x.length) &&
        decide (im.tiles.length = x.count)) (.of 5 x.at_)) ++
  im.tiles.flatMap (fun t =>
    need (decide (t.tile < n) && im.tiles.all (fun x => x.offset = t.offset || x.tile ≠ t.tile)) (.of 7 t.offset) ++
    need (recordFits t) (.of 5 t.offset) ++
    if programFits t then
      need t.filled (.of 16 (t.offset + 0x80 + (t.prog.getLast?.elim 0 (·.offset)))) ++
        t.prog.flatMap (descCauses t im.hdr.ringPos)
    else []) ++
  need (colsOf n ≤ enabledCols s) (.of 7 0x10) ++
  need (im.hdr.opPoint ≤ 2) (.of 8 0x12) ++
  need (im.hdr.ringSize ≤ 8) (.of 9 0x13) ++
  need (im.hdr.ringPos < im.hdr.ringSize) (.of 9 0x14) ++
  im.routes.flatMap (routeCauses im s) ++
  im.sched.flatMap (fun r => need (r.tile < n) (.of 7 r.offset) ++ need (actionOk im r) (.of 16 r.offset)) ++
  (im.sched.zipIdx).flatMap (schedCauses im) ++
  im.states.flatMap (fun r => need (r.tile < n) (.of 7 r.offset)) ++
  boundCauses im

/-- The judgement of an image by registration: the first stage that finds a cause, and that cause (R490); HANDLES is judged
by the caller, last. -/
def judgeImage (b : List Byte) (s : State) : Option (Nat × Cause) :=
  let found := fun (n : Nat) (cs : List Cause) => (firstCause cs).map (fun c => (n, c))
  found 1 (stage1 b) <|> found 2 (stage2 b) <|> found 3 (stage3 b) <|> found 4 (stage4 b) <|>
    found 5 (stage5 (parseImage b)) <|> found 6 (stage6 b (parseImage b) s)

/-- C of R491: P + NR × (E − w + 1) + NS, in cycles of 1.2 GHz. -/
def checkCycles (im : Image) (s : State) : Nat :=
  let per := fun t => (im.sched.filter (fun r => r.tile = t)).length
  let p := ((List.range im.hdr.tileCount).map (fun t => per t * (per t - 1) / 2)).sum
  p + im.routes.length * (enabledCols s + 1 - colsOf im.hdr.tileCount) + im.sched.length

/-- Root cycles of 1.5 µs plus `n` bytes at 38.4 GB/s, which is 8 bytes a root cycle (R66, R491). -/
def streamRoot (n : Nat) : Nat := 7200 + divUp n 8

end Sys2Proof.Machine
end

