-- ==== Sys2Proof/Machine/Crypto.lean ====
section
/-! DEFINITION. The cryptographic functions that the manual names: SHA-256 and HMAC-SHA-256 (R463, R464, R465) and ECDSA
P-256 signature verification (R458, R459), computed as their public standards give them (FIPS 180-4, RFC 2104,
FIPS 186-4). -/

namespace Sys2Proof.Machine

/-! ### SHA-256 -/

/-- Rotate a word right. -/
def rotr (w : Word) (n : Nat) : Word := (w >>> n) ||| (w <<< (32 - n))

/-- The greatest r with r^k ≤ v, its `n` lower bits still to be found above what `r` already holds. -/
def rootBits (k v : Nat) : Nat → Nat → Nat
  | 0, r => r
  | n + 1, r => rootBits k v n (if (r + 2 ^ n) ^ k ≤ v then r + 2 ^ n else r)

/-- The first 32 bits of the fractional part of the k-th root of a small number. -/
def rootFraction (k p : Nat) : Word := word (rootBits k (p * 2 ^ (32 * k)) 36 0)

/-- The primes below 312, of which there are 64. -/
def shaPrimes : List Nat :=
  (List.range 312).filter (fun n => decide (2 ≤ n) && [2, 3, 5, 7, 11, 13, 17].all (fun d => n = d || n % d != 0))

/-- The round constants: from the cube roots of the first 64 primes. -/
def shaConstants : List Word := shaPrimes.map (rootFraction 3)

/-- The eight working variables of SHA-256. -/
structure Sha where
  a : Word
  b : Word
  c : Word
  d : Word
  e : Word
  f : Word
  g : Word
  h : Word
  deriving DecidableEq, Repr

/-- Eight words as working variables. -/
def Sha.ofWords (w : List Word) : Sha :=
  let v := fun i => w.getD i 0
  ⟨v 0, v 1, v 2, v 3, v 4, v 5, v 6, v 7⟩

/-- The working variables as eight words. -/
def Sha.words (v : Sha) : List Word := [v.a, v.b, v.c, v.d, v.e, v.f, v.g, v.h]

/-- The initial hash value: from the square roots of the first eight primes. -/
def shaInit : Sha := Sha.ofWords ((shaPrimes.take 8).map (rootFraction 2))

/-- The message padded to whole blocks. -/
def shaPad (m : List Byte) : List Byte :=
  m ++ [0x80] ++ List.replicate ((119 - m.length % 64) % 64) 0 ++ beBytes 8 (8 * m.length)

/-- The exclusive or of a word rotated right by several amounts. -/
def rotXor (w : Word) (ns : List Nat) : Word := ns.foldl (fun x n => x ^^^ rotr w n) 0

/-- The word that follows the last 16 of the message schedule, of which the oldest is at the head. -/
def shaNextWord (w : List Word) : Word :=
  let at_ := fun i => w.getD i 0
  at_ 0 + (rotXor (at_ 1) [7, 18] ^^^ at_ 1 >>> 3) + at_ 9 + (rotXor (at_ 14) [17, 19] ^^^ at_ 14 >>> 10)

/-- One round with its constant and its word of the schedule. -/
def shaRound (v : Sha) (k w : Word) : Sha :=
  let t := v.h + rotXor v.e [6, 11, 25] + (v.g ^^^ v.e &&& (v.f ^^^ v.g)) + k + w
  let u := rotXor v.a [2, 13, 22] + (v.a &&& v.b ||| v.c &&& (v.a ||| v.b))
  ⟨t + u, v.a, v.b, v.c, v.d + t, v.e, v.f, v.g⟩

/-- The rounds of a block: the schedule window moves on by a word in each. -/
def shaRounds : List Word → List Word → Sha → Sha
  | [], _, v => v
  | k :: ks, w, v => shaRounds ks (w.drop 1 ++ [shaNextWord w]) (shaRound v k (w.headD 0))

/-- The compression of one 64-byte block. -/
def shaBlock (h : Sha) (blk : List Byte) : Sha :=
  let w := (List.range 16).map (fun i => word (beNat (slice blk (4 * i) 4)))
  Sha.ofWords (List.zipWith (· + ·) h.words (shaRounds shaConstants w h).words)

/-- The compression of `n` blocks. -/
def shaBlocks : Nat → Sha → List Byte → Sha
  | 0, h, _ => h
  | n + 1, h, m => shaBlocks n (shaBlock h (m.take 64)) (m.drop 64)

/-- SHA-256: 32 bytes. -/
def sha256 (m : List Byte) : List Byte :=
  let p := shaPad m
  (shaBlocks (p.length / 64) shaInit p).words.flatMap (fun w => beBytes 4 w.toNat)

/-- HMAC-SHA-256: 32 bytes. -/
def hmac (key m : List Byte) : List Byte :=
  let k0 := if key.length > 64 then sha256 key else key
  let k := slice k0 0 64
  sha256 (k.map (· ^^^ 0x5c) ++ sha256 (k.map (· ^^^ 0x36) ++ m))

/-! ### ECDSA P-256 -/

/-- The prime of the curve. -/
def p256p : Nat := 0xffffffff00000001000000000000000000000000ffffffffffffffffffffffff
/-- The order of the base point. -/
def p256n : Nat := 0xffffffff00000000ffffffffffffffffbce6faada7179e84f3b9cac2fc632551
/-- The coefficient b. -/
def p256b : Nat := 0x5ac635d8aa3a93e7b3ebbd55769886bc651d06b0cc53b0f63bce3c3e27d2604b

/-- x^e mod m, over the lowest `k` bits of e. -/
def powMod (m x e : Nat) : Nat → Nat
  | 0 => 1 % m
  | k + 1 =>
    let h := powMod m x (e / 2) k
    let q := h * h % m
    if e % 2 = 1 then q * x % m else q

/-- The inverse modulo a prime of 256 bits. -/
def invMod (m x : Nat) : Nat := powMod m (x % m) (m - 2) 256

/-- A point of the curve in Jacobian coordinates: the affine point (x / z², y / z³), or the point at infinity for z = 0. -/
structure EcPoint where
  x : Nat
  y : Nat
  z : Nat
  deriving DecidableEq, Repr

/-- The base point. -/
def p256G : EcPoint :=
  ⟨0x6b17d1f2e12c4247f8bce6e563a440f277037d812deb33a0f4a13945d898c296,
   0x4fe342e2fe1a7f9b8ee7eb4a7c0f9e162bce33576b315ececbb6406837bf51f5, 1⟩

/-- a − b modulo p, of residues. -/
def subP (a b : Nat) : Nat := (a + (p256p - b)) % p256p

/-- Twice a point. -/
def ecDouble (a : EcPoint) : EcPoint :=
  if a.z = 0 ∨ a.y = 0 then ⟨1, 1, 0⟩
  else
    let yy := a.y * a.y % p256p
    let zz := a.z * a.z % p256p
    let s := 4 * a.x * yy % p256p
    let m := 3 * subP a.x zz * (a.x + zz) % p256p
    let x := subP (m * m % p256p) (2 * s % p256p)
    ⟨x, subP (m * subP s x % p256p) (8 * (yy * yy) % p256p), 2 * a.y * a.z % p256p⟩

/-- Sum of two points. -/
def ecAdd (a b : EcPoint) : EcPoint :=
  if a.z = 0 then b
  else if b.z = 0 then a
  else
    let az := a.z * a.z % p256p
    let bz := b.z * b.z % p256p
    let u := a.x * bz % p256p
    let s := a.y * (b.z * bz % p256p) % p256p
    let h := subP (b.x * az % p256p) u
    let r := subP (b.y * (a.z * az % p256p) % p256p) s
    if h = 0 then (if r = 0 then ecDouble a else ⟨1, 1, 0⟩)
    else
      let hh := h * h % p256p
      let hhh := h * hh % p256p
      let v := u * hh % p256p
      let x := subP (subP (r * r % p256p) hhh) (2 * v % p256p)
      ⟨x, subP (r * subP v x % p256p) (s * hhh % p256p), h * (a.z * b.z % p256p) % p256p⟩

/-- k × P, over the lowest `n` bits of k. -/
def ecMul (k : Nat) (q : EcPoint) : Nat → EcPoint
  | 0 => ⟨1, 1, 0⟩
  | n + 1 =>
    let d := ecDouble (ecMul (k / 2) q n)
    if k % 2 = 1 then ecAdd d q else d

/-- Whether (r, s) signs the 32-byte digest under the public key (x, y). -/
def ecdsaVerify (x y r s : Nat) (digest : List Byte) : Bool :=
  let onCurve := decide (x < p256p) && decide (y < p256p) &&
    decide (y * y % p256p = (x * x % p256p * x + (p256p - 3) * x + p256b) % p256p)
  if !onCurve || r = 0 || s = 0 || p256n ≤ r || p256n ≤ s then false
  else
    let w := invMod p256n s
    let u1 := beNat digest * w % p256n
    let u2 := r * w % p256n
    let t := ecAdd (ecMul u1 p256G 256) (ecMul u2 ⟨x, y, 1⟩ 256)
    t.z ≠ 0 && decide (t.x * invMod p256p (t.z * t.z) % p256p % p256n = r)

end Sys2Proof.Machine
end

