-- ==== Sys2Proof/Machine/Link.lean ====
section
/-! DEFINITION. The sending side of the Adenal link (R334 to R338): flits, their sequence numbers and acknowledgements, the
go-back-N resend, and the messages that are handed to a port. -/

namespace Sys2Proof.Machine

/-- Port `p`: 0 EAST, 1 WEST. -/
def getPort (p : Nat) (s : State) : RingPort := tget (fun _ => RingPort.reset) s.ring.ports p

/-- The state with a port set. -/
def setPort (p : Nat) (v : RingPort) (s : State) : State :=
  { s with ring := { s.ring with ports := tset (fun _ => RingPort.reset) p v s.ring.ports } }

/-- Training STATE of a port: 0 OFF, 1 DETECT, 2 EQ, 3 ALIGN, 4 VERIFY, 5 ACTIVE, 6 RETRAIN, 7 DOWN (R339). -/
def portState (p : Nat) (s : State) : Nat := regFld (Reg.RNG_Pp_STAT p) 31 29 s

/-- The state with a port in a training state. -/
def setPortState (p st : Nat) (s : State) : State := setRegFld (Reg.RNG_Pp_STAT p) 31 29 st s

/-- This device's ring position. -/
def ringPos (s : State) : Nat := regFld Reg.RNG_STAT 26 24 s

/-- The ACK field of a port: NAK, and the SEQ of the last flit received good and in order. -/
def ackField (p : Nat) (nak : Bool) (s : State) : List Byte :=
  leBytes 2 (nak.toNat * 2 ^ 15 + ((getPort p s).rxNext - 1).toNat)

/-- A flit of 272 bytes with its CRC (R334, R335). -/
def flitBytes (type seq : Nat) (ack : List Byte) (b : FlitBody) : List Byte :=
  let h := leBytes 2 (type * 2 ^ 14 + seq) ++ ack ++ [b.route] ++ leBytes 1 b.channel ++ leBytes 2 b.len ++
    leBytes 2 b.msg ++ leBytes 2 b.index ++ slice b.payload 0 256
  h ++ wordBytes (crc32 h)

/-- SEQ of a flit. -/
def flitSeq (f : List Byte) : Nat := leAt f 0 2 % 2 ^ 12

/-- A flit with the present acknowledgement, as it is sent again. -/
def renewAck (p : Nat) (f : List Byte) (s : State) : List Byte :=
  let h := slice f 0 2 ++ ackField p false s ++ slice f 4 264
  h ++ wordBytes (crc32 h)

/-- An IDLE flit, which carries the acknowledgement; it names the next SEQ and takes none (DESIGN CHOICE, log entry 45). -/
def sendIdle (p : Nat) (nak : Bool) (s : State) : State :=
  emit (.ringFlit p (flitBytes 2 (getPort p s).txSeq.toNat (ackField p nak s) ⟨true, 0, 0, 0, 0, 0, []⟩)) s

/-- Send the flits that wait, while the port is ACTIVE and fewer than 512 are unacknowledged (R336). -/
def pump (p : Nat) : Nat → State → State
  | 0, s => s
  | fuel + 1, s =>
    let x := getPort p s
    match x.queue with
    | [] => s
    | b :: r =>
      if portState p s ≠ 5 ∨ 512 ≤ x.unacked.length then s
      else
        let f := flitBytes (if b.control then 1 else 0) x.txSeq.toNat (ackField p false s) b
        pump p fuel (emit (.ringFlit p f) (setPort p { x with
          queue := r, unacked := x.unacked ++ [f], txSeq := x.txSeq + 1,
          ackAt := if x.unacked = [] then now s else x.ackAt } s))

/-- Let a port send what waits. -/
def pumpPort (p : Nat) (s : State) : State := pump p (getPort p s).queue.length s

/-- Hand flits to a port: control flits go ahead of data (R338). -/
def sendBodies (p : Nat) (bs : List FlitBody) (s : State) : State :=
  let x := getPort p s
  let q := x.queue ++ bs
  pumpPort p (setPort p { x with queue := q.filter (·.control) ++ q.filter (fun b => !b.control) } s)

/-- An instant's 9 bytes: the tick and FINE (R344, R351). -/
def instantBytes (i : Instant) : List Byte := leBytes 8 i.tick.toNat ++ leBytes 1 i.fine.toNat

/-- Payload of a control message. R351 says what each carries and not where; the model's layout is the message's number in
that table and its fields in order (DESIGN CHOICE, log entry 46). -/
def controlPayload (m : RingMsg) : List Byte :=
  match m with
  | .reset t h sl ofs rate => leBytes 1 0 ++ instantBytes t ++ leBytes 4 h ++ leBytes 1 sl.length ++
      slice (sl.map (fun x => x.zeroExtend 8)) 0 8 ++ leBytes 12 ofs.toNat ++ wordBytes rate
  | .arrive q v => leBytes 1 1 ++ wordBytes q ++ leBytes 1 v.toNat
  | .release q t v => leBytes 1 2 ++ wordBytes q ++ instantBytes t ++ leBytes 1 v.toNat
  | .bcast body => leBytes 1 3 ++ slice body 0 240
  | .snap t => leBytes 1 4 ++ instantBytes t
  | .collect rs => leBytes 1 5 ++ rs.flatMap (fun r => slice r 0 64)
  | .abort _ j c => leBytes 1 6 ++ leBytes 2 j.toNat ++ [c]
  | .ready _ ch k => leBytes 1 7 ++ leBytes 1 ch ++ leBytes 4 k

/-- The position a control message comes from: an ABORT's device, the device that asks for an operating point, the sender of
a READY note; every other message is the master's, at position 0. -/
def controlSource (m : RingMsg) (s : State) : Nat :=
  match m with
  | .abort p _ _ => p
  | .ready _ _ _ => ringPos s
  | .bcast b => if byteAt b 0 = 3 then byteAt b 1 else 0
  | _ => 0

/-- The position a control message goes to: a READY note's peer; a lap comes back to its sender. -/
def controlDest (m : RingMsg) (s : State) : Nat :=
  match m with
  | .ready d _ _ => d
  | m => controlSource m s

/-- ROUTE: source and destination positions (R334). -/
def routeByte (src dst : Nat) : Byte := BitVec.ofNat 8 (src % 8 * 16 + dst % 8)

/-- The flit of a control message. One flit carries the message (R351); a COLLECT of more than three records takes the
first 256 bytes of its payload on the wire. -/
def controlBody (m : RingMsg) (s : State) : FlitBody :=
  let b := controlPayload m
  ⟨true, routeByte (controlSource m s) (controlDest m s), 0, min 256 b.length, 0, 0, b⟩

/-- Send a control message at a port. -/
def sendControl (p : Nat) (m : RingMsg) (s : State) : State :=
  sendBodies p [controlBody m s] (emit (.ringControl p m) s)

/-- Send a transfer message at a port: flits of 256 bytes, each with the message's instance and its own index (R334,
R356). -/
def sendTransfer (p peer channel inst : Nat) (payload : List Byte) (s : State) : State :=
  let bodies := (List.range (divUp payload.length 256)).map (fun i =>
    let b := (payload.drop (256 * i)).take 256
    (⟨false, routeByte (ringPos s) peer, channel, b.length, inst, i, b⟩ : FlitBody))
  sendBodies p bodies (emit (.ringTransfer p peer channel inst payload) s)

end Sys2Proof.Machine
end

