-- ==== Sys2Proof/Machine/Commands.lean ====
section
/-! DEFINITION. How a Postbox command is served: the session that may issue it (R326, R470), its place in the command
ring, and its completion (R325), on the ring or as a datagram of the management port (R465). -/

namespace Sys2Proof.Machine

open Sys2Proof.Config

/-- OP of each command (R326, R470). -/
abbrev Op.register : Nat := 0x01
/-- RETIRE. -/
abbrev Op.retire : Nat := 0x02
/-- LOAD_MODEL. -/
abbrev Op.loadModel : Nat := 0x03
/-- SENSOR_REQ. -/
abbrev Op.sensorReq : Nat := 0x04
/-- SET_DAY. -/
abbrev Op.setDay : Nat := 0x05
/-- SET_MODE. -/
abbrev Op.setMode : Nat := 0x06
/-- SET_STANDING. -/
abbrev Op.setStanding : Nat := 0x07
/-- READ_LEDGER. -/
abbrev Op.readLedger : Nat := 0x08
/-- QUEUE_CTL. -/
abbrev Op.queueCtl : Nat := 0x09
/-- SET_OP_POINT. -/
abbrev Op.setOpPoint : Nat := 0x0A
/-- CLOSE. -/
abbrev Op.close : Nat := 0x0B
/-- HANDOFF. -/
abbrev Op.handoff : Nat := 0x0C
/-- UPDATE_WRITE. -/
abbrev Op.updateWrite : Nat := 0x0D
/-- UPDATE_COMMIT. -/
abbrev Op.updateCommit : Nat := 0x0E
/-- UPDATE_CONFIRM. -/
abbrev Op.updateConfirm : Nat := 0x0F
/-- READ_LOG. -/
abbrev Op.readLog : Nat := 0x10
/-- FUSE_BLOW. -/
abbrev Op.fuseBlow : Nat := 0x11
/-- CORE_RESTART. -/
abbrev Op.coreRestart : Nat := 0x12

/-- The sessions that may issue a command: H, P and M (R326, R470). -/
def allowHPM : List Session := [.host, .port, .maint]
/-- P and M. -/
def allowPM : List Session := [.port, .maint]
/-- H alone. -/
def allowH : List Session := [.host]
/-- M alone. -/
def allowM : List Session := [.maint]

/-- KIND of a session in a handshake (R464). -/
def kindCode (k : Session) : Nat :=
  match k with
  | .host => 1
  | .port => 2
  | .maint => 3

/-- A COMPLETION datagram: the 8-byte header (TYPE 6, KIND, SESSION_ID, SEQ of the command), the 32-byte completion and
the first 16 bytes of the HMAC under the session key (R465). -/
def portCompletion (k : Session) (x : SessionInfo) (e : List Byte) : List Byte :=
  let m := leBytes 1 6 ++ leBytes 1 (kindCode k) ++ leBytes 2 x.id.toNat ++ wordBytes x.seq ++ e
  m ++ (hmac x.key m).take 16

/-- Complete a command: a ring command fills its place in the ring order, a datagram command is answered at once. -/
def completeCmd (i : Issue) (op code : Nat) (detail : Word) (more : List Byte) (s : State) : State :=
  let e := cmplEntry i op code detail more
  if onRing i.via s then flushCmds (fillSlot i op e s.disp.cmds) s
  else
    match sessionOf i.via s with
    | none => s
    | some x => emit (.mgtDatagram (portCompletion i.via x e)) s

/-- SESSION_STAT shows the open session: the host's, else the maintenance one, else the management port's (DESIGN CHOICE, log
entry 26). -/
def showSession (s : State) : State :=
  let k : Nat := if s.sess.host.isSome then 1 else if s.sess.maint.isSome then 3 else if s.sess.port.isSome then 2 else 0
  setReg Reg.SESSION_STAT (word ((if k = 0 then 0 else 2 ^ 31) + k * 2 ^ 28 + s.disp.ledgerRead.toNat * 2 ^ 27 +
    s.disp.ledger.epoch.toNat % 2 ^ 16)) s

/-- Whether a READ_LEDGER of the host session has run whose completion still waits for an earlier command's (R325). -/
def ledgerWaits (s : State) : Bool :=
  s.disp.cmds.any (fun c => decide (c.op = Op.readLedger) && decide (c.issue.via = .host) && c.entry.isSome && !c.lost)

/-- What the completion of a READ_LEDGER of the host session sets: LEDGER_READ, and HOST_LOST clear (R328). -/
def ledgerCompletes (s : State) : State :=
  showSession (setRegFld Reg.DEV_STATUS 30 30 0 { s with disp := { s.disp with ledgerRead := true } })

/-- Complete a command that later ring commands may have run past; the completion of a READ_LEDGER that waited for it is
written with it (R325, R328). -/
def completeLate (i : Issue) (op code : Nat) (detail : Word) (s : State) : State :=
  let t := completeCmd i op code detail [] s
  if ledgerWaits s && !ledgerWaits t then ledgerCompletes t else t

/-- Note that a maintenance session has been used (R466). -/
def touchMaint (k : Session) (s : State) : State :=
  match k, s.sess.maint with
  | .maint, some m => { s with sess := { s.sess with maint := some { m with usedAt := now s } } }
  | _, _ => s

/-- Whether a command's work is the Postmaster's: updates and fuses (R447). -/
def postmasterWork (op : Nat) : Bool :=
  op = Op.updateWrite || op = Op.updateCommit || op = Op.updateConfirm || op = Op.fuseBlow

/-- Whether the cores that serve a session's command run: the Dispatcher for the ring, with the Postmaster for what is its work,
and the Postmaster for datagrams (R447, R449). -/
def cmdServed (k : Session) (op : Nat) (s : State) : Bool :=
  if onRing k s then dispatcherUp s && regBit Reg.CMDQ_CTL 31 s && (!postmasterWork op || postmasterUp s) else postmasterUp s

/-- Serve a command. Without an open session of its kind it is discarded and logged with SESSION (R324, R465); while the
core that serves it is stopped nothing is taken (R449), nor is a ring command while CMDQ_CTL.EN is 0 (R323); a session whose
kind may not issue it gets SESSION (R9, R326), or FIELD_ZERO, which goes before SESSION, when a field with 0 reserved is 0
(`zero`; R8, R10); otherwise it runs. -/
def commandZ (i : Issue) (op : Nat) (allow : List Session) (zero : Bool) (run : State → State) (s : State) : State :=
  match sessionOf i.via s with
  | none =>
    match i.via with
    | .port => raise Src.security .portDiscard Code.session [] s
    | _ => logClosed Reg.CMDQ_TAIL s
  | some _ =>
    if cmdServed i.via op s then
      let s := touchMaint i.via (beginCmd i op s)
      if i.via ∈ allow then run s
      else completeCmd i op (if zero then Code.fieldZero else Code.session) 0 [] s
    else s

/-- Serve a command without a field that has 0 reserved. -/
def command (i : Issue) (op : Nat) (allow : List Session) (run : State → State) (s : State) : State :=
  commandZ i op allow false run s

/-- A command that completes with a code and a detail and changes nothing else. -/
def answer (i : Issue) (op code detail : Nat) (s : State) : State := completeCmd i op code (word detail) [] s

end Sys2Proof.Machine
end

