-- ==== Sys2Proof/Machine/Jobs.lean ====
section
/-! DEFINITION. Jobs of chapter 12: what holds columns and ports, when a job is ready and which one is dispatched (R306 to
R312), how it fails, restarts, is accepted or given up (R313 to R318), its completion record (R319), and the ledger
(R320, R321). -/

namespace Sys2Proof.Machine

open Sys2Proof.Config

/-! ### The fabric clock (R12, R36) -/

/-- The first fabric cycle edge at or after an instant. -/
def fabricEdge (t : Nat) (s : State) : Nat := divUp t (fcRoot s) * fcRoot s

/-- The instant that lies `off` root cycles after the day's start: the first fabric cycle at or after it (R344). Off a ring
every day starts on a tick, which is a fabric cycle at every operating point. -/
def dayAt (off : Int) (s : State) : Nat := fabricEdge (s.day.start + off).toNat s

/-- The lowest number of periods of `p` root cycles after the day's start whose instant is not before `from_`. -/
def periodsUpTo (from_ p : Nat) (s : State) : Int :=
  -((s.day.start - (((from_ - 1) / fcRoot s * fcRoot s + 1 : Nat) : Int)) / (p : Int))

/-- Whether the condition of a change holds on every other device of the ring: `k` 0 for SET_DAY (R311), 1 for the operating
point (R14). What stands on another device is a free value (R366; log entry 166). -/
def othersMeet (k : Nat) (s : State) : Bool :=
  !(regBit Reg.RNG_CTL 31 s && decide (regFld Reg.RNG_STAT 31 29 s = 3)) || Config.othersMeet k s.day.start

/-- The instant of partition cycle `c`, as far as the partition has been held until now (R36). -/
def cycleAt (r : Run) (c : Nat) (s : State) : Nat := r.cycle0 + r.heldTot + c * fcRoot s

/-- The lowest due cycle of the copies in flight: where the partition cycle counter stops next. -/
def firstDue (fs : List Flight) : Option Nat := (fs.map (·.dueCycle)).min?

/-- The fabric cycles for which a partition has been held by an overdue copy until now (R36). -/
def heldCycles (r : Run) (s : State) : Nat :=
  match firstDue r.copies with
  | none => 0
  | some d => divUp (now s - cycleAt r d s) (fcRoot s)

/-! ### Access -/

/-- The job with an identity of the model. -/
def getJob (uid : Nat) (s : State) : Option Job := s.disp.jobs.find? (fun j => j.uid = uid)

/-- The state with a job replaced by its new form. -/
def setJob (j : Job) (s : State) : State :=
  { s with disp := { s.disp with jobs := s.disp.jobs.map (fun x => if x.uid = j.uid then j else x) } }

/-- The state without a job. -/
def removeJob (uid : Nat) (s : State) : State :=
  { s with disp := { s.disp with jobs := s.disp.jobs.filter (fun x => x.uid ≠ uid) } }

/-- The job whose partition starts at a column and still holds it; a job of no columns, which TILE_COUNT 0 makes (R56),
stands behind one that holds the column. -/
def jobAt (col : Nat) (s : State) : Option Job :=
  let js := s.disp.jobs.filter (fun j => j.held && j.desc.baseCol = col)
  (js.find? (fun j => decide (0 < j.width))).or js.head?

/-- What registration recorded for a handle. -/
def handleInfo (h : Nat) (s : State) : Option HandleInfo := tget (fun _ => none) s.disp.handles h

/-- The state with a handle's record set. -/
def setHandle (h : Nat) (v : Option HandleInfo) (s : State) : State :=
  { s with disp := { s.disp with handles := tset (fun _ => none) h v s.disp.handles } }

/-- A standing entry. -/
def getStanding (e : Nat) (s : State) : Standing := tget (fun _ => Standing.reset) s.disp.standing e

/-- The state with a standing entry set. -/
def setStandingEntry (e : Nat) (v : Standing) (s : State) : State :=
  { s with disp := { s.disp with standing := tset (fun _ => Standing.reset) e v s.disp.standing } }

/-- The columns that a job needs, of the 12 there are. -/
def jobCols (j : Job) : List Nat := ((List.range j.width).map (j.desc.baseCol + ·)).filter (· < 12)

/-- The state with a client's account changed. -/
def modAccount (c : Nat) (f : Account → Account) (s : State) : State :=
  { s with disp := { s.disp with ledger := { s.disp.ledger with
    accounts := tset (fun _ => Account.reset) c (f (account c s)) s.disp.ledger.accounts } } }

/-- A 4-byte count of the ledger, which holds at its largest value (R321). -/
def count32 (n k : Nat) : Nat := satAdd 0xFFFFFFFF n k

/-- An 8-byte count of the ledger. -/
def count64 (n k : Nat) : Nat := satAdd (2 ^ 64 - 1) n k

/-! ### Columns and ports -/

/-- Whether a column is held, by a job or by its tile group's power (R31, R433). -/
def colHeld (c : Nat) (s : State) : Bool := regBit (Reg.FAB_COLn_OWNER c) 31 s

/-- FAB_HELD and DEV_STATUS.HELD show the owners. -/
def showHeld (s : State) : State :=
  let m := ((List.range 12).map (fun c => if colHeld c s then 2 ^ c else 0)).sum
  setRegFld Reg.DEV_STATUS 11 0 m (setReg Reg.FAB_HELD (word m) s)

/-- Whether another job holds a ring port that a job needs (R359). -/
def portClash (j : Job) (s : State) : Bool :=
  s.disp.jobs.any (fun x => x.held && x.uid ≠ j.uid && ((x.ports.1 && j.ports.1) || (x.ports.2 && j.ports.2)))

/-- Hold columns for a job. -/
def holdCols (cols : List Nat) (handle : Nat) (jobId : BitVec 16) (s : State) : State :=
  showHeld (cols.foldl (fun s c =>
    setReg (Reg.FAB_COLn_OWNER c) (word (2 ^ 31 + handle * 2 ^ 22 + jobId.toNat)) s) s)

/-- Release columns. -/
def releaseCols (cols : List Nat) (s : State) : State :=
  showHeld (cols.foldl (fun s c => setReg (Reg.FAB_COLn_OWNER c) 0 s) s)

/-- The ring ports that a boundary names: EAST index 0, WEST index 1 (R356, R359). -/
def portsOf (bs : List BoundRec) : Bool × Bool :=
  (bs.any (fun x => x.kind = 5 && x.index = 0), bs.any (fun x => x.kind = 5 && x.index = 1))

/-- Whether a job holds a ring port, and so runs under barriers (R354). -/
def isRingJob (j : Job) : Bool := j.ports.1 || j.ports.2

/-- Show in RNG_PORT_OWNER the ring ports that jobs hold. When two jobs hold one each, its one JOB_ID field shows the holder
of EAST (DESIGN CHOICE, log entry 144). -/
def showPorts (s : State) : State :=
  let holder := fun (f : Bool × Bool → Bool) => s.disp.jobs.find? (fun j => j.held && f j.ports)
  let east := holder (·.1)
  let west := holder (·.2)
  setReg Reg.RNG_PORT_OWNER (word (east.isSome.toNat * 2 ^ 31 + west.isSome.toNat * 2 ^ 30 +
    (east.or west).elim 0 (·.desc.jobId.toNat))) s

/-! ### Ballast (R426) -/

/-- The current of a partition's tiles in mA. -/
def tilesCurrent (cols : List Nat) : Nat :=
  (cols.flatMap (fun c => (List.range 8).map (fun r => tileCurrent (8 * c + r)))).sum

/-- The ballast of the partition at a base column. -/
def getBallast (c : Nat) (s : State) : Ballast := tget (fun _ => Ballast.reset) s.pwr.ballast c

/-- The state with a ballast set. -/
def setBallast (c : Nat) (b : Ballast) (s : State) : State :=
  { s with pwr := { s.pwr with ballast := tset (fun _ => Ballast.reset) c b s.pwr.ballast } }

/-- The level of a ballast at an instant: falling, it loses 2 A/µs × w / 12 (R426); in mA, 2000 × w / 12 each 4800 root
cycles. -/
def ballastLevel (b : Ballast) (t : Nat) : Nat :=
  if b.falling then b.level - (t - b.at_) * 2000 * b.width / (12 * usRoot) else b.level

/-- At a dispatch the level is the current of the partition's tiles. -/
def ballastSet (j : Job) (s : State) : State :=
  if j.width = 0 then s else setBallast j.desc.baseCol ⟨tilesCurrent (jobCols j), now s, j.width, false⟩ s

/-- A ballast whose level falls from an instant on. -/
def ballastFalls (at_ : Nat) (b : Ballast) : Ballast := { b with level := ballastLevel b at_, at_ := at_, falling := true }

/-- After the job ends or fails the level falls. -/
def ballastFall (j : Job) (s : State) : State :=
  if j.width = 0 then s
  else setBallast j.desc.baseCol (ballastFalls (now s) (getBallast j.desc.baseCol s)) s

/-! ### Releasing a partition (R37, R107, R321) -/

/-- Release what a job holds on the fabric: its columns, its ring ports; its engine time goes to the ledger and to the
shares account. -/
def releasePartition (j : Job) (s : State) : State :=
  if j.held then
    let t := now s - j.dispatchAt
    let s := ballastFall j (releaseCols (jobCols j) s)
    let s := modAccount j.client (fun a => { a with engineColUs := count64 a.engineColUs (j.width * t / usRoot) }) s
    let s := { s with day := { s.day with
      used := tset (fun _ => 0) j.client
        (tget (fun _ => 0) s.day.used j.client + j.width * (now s - max j.dispatchAt s.day.sharesAt)) s.day.used } }
    showPorts (setJob { j with held := false } s)
  else s

/-! ### Inputs (R304, R306) -/

/-- The owner that takes commits of a NEW input: host queue q, or standing entry e as 8 + e (R306). -/
def takerOf (j : Job) : Nat :=
  match j.queue with
  | some q => q
  | none => 8 + j.entry.getD 0

/-- The key of what a taker has taken from a handoff. -/
def takenKey (taker key : Nat) : Nat := taker * 2 ^ 16 + key

/-- Whether a declared input is complete: it has a commit, and with NEW set one not yet taken. -/
def inputComplete (j : Job) (i : InputSpec) (s : State) : Bool :=
  let h := getHandoff (inputKey i) s
  decide (0 < h.commits) &&
    (!i.new || decide (tget (fun _ => 0) s.disp.takenBy (takenKey (takerOf j) (inputKey i)) < h.commits))

/-- Whether every declared input of a job is complete. -/
def inputsComplete (j : Job) (s : State) : Bool :=
  j.proof.isSome || j.desc.inputs.all (fun i => inputComplete j i s)

/-- A waiting job is ready from the instant at which its inputs are all complete; it is so no longer once another job of its
queue or entry has taken the last commit of a NEW input ("Readiness, kept inputs and dispatch"). -/
def refreshJob (s : State) (j : Job) : Job :=
  if j.stage = .waiting then
    { j with readyAt := if inputsComplete j s then j.readyAt.or (some (now s)) else none }
  else j

/-- Every waiting job's readiness, as the inputs stand. -/
def refreshReady (s : State) : State :=
  { s with disp := { s.disp with jobs := s.disp.jobs.map (refreshJob s) } }

/-- A commit to a handoff, which may make jobs ready. -/
def commitOut (k : Nat) (s : State) : State := refreshReady (commitHandoff k s)

/-- The instant at which a decision made now dispatches a job: its inputs are the commits strictly before it, and a commit
in its own cycle would only be taken at the next start (R17), so the dispatch that such a commit allows falls in the cycle
after it (R307). -/
def dispatchInstant (j : Job) (s : State) : Nat :=
  if j.stage = .waiting ∧ j.proof = none ∧ j.desc.inputs.any (fun i => (getHandoff (inputKey i) s).commitAt = now s) = true
  then now s + 1 else now s

/-- Take and lock the front slots of the declared inputs (R17, R306), and note which commit of each is taken. -/
def takeInputs (j : Job) (s : State) : List (Nat × Bool) × State :=
  if j.proof.isSome then ([], s)
  else j.desc.inputs.foldl (fun (p : List (Nat × Bool) × State) i =>
    let k := inputKey i
    let h := getHandoff k p.2
    let slot := (slotAt h (now p.2)).getD h.front
    let st := lockSlot k slot true p.2
    (p.1 ++ [(k, slot)], { st with disp := { st.disp with
      takenBy := tset (fun _ => 0) (takenKey (takerOf j) k) (if slot = h.front then h.commits else h.commits - 1)
        st.disp.takenBy } })) ([], s)

/-- Release the locks of a job. -/
def unlockInputs (j : Job) (s : State) : State := j.taken.foldl (fun s p => lockSlot p.1 p.2 false s) s

/-! ### Completion records (R319, R331) -/

/-- OUTCOME of a completion. -/
abbrev Outcome_.accepted : Nat := 0
/-- GIVEN_UP. -/
abbrev Outcome_.givenUp : Nat := 1
/-- REFUSED. -/
abbrev Outcome_.refused : Nat := 3

/-- The 32-byte completion record. -/
def jobRecord (j : Job) (flags : BitVec 16) (outcome reason : Nat) : List Byte :=
  leBytes 2 j.desc.jobId.toNat ++ leBytes 1 j.client ++ leBytes 1 (topCode flags) ++ leBytes 2 flags.toNat ++
  leBytes 1 j.restarts ++ leBytes 1 outcome ++ leBytes 1 reason ++ leBytes 3 0 ++
  leBytes 4 (j.firstWait.getD 0) ++ leBytes 8 j.dispatchTick.toNat ++ leBytes 8 j.endTick.toNat

/-- A ring that QUEUE_CTL set. -/
def getRing (q : Nat) (s : State) : RingCfg := tget (fun _ => RingCfg.reset) s.disp.rings q

/-- The state with a ring set. -/
def setRing (q : Nat) (r : RingCfg) (s : State) : State :=
  { s with disp := { s.disp with rings := tset (fun _ => RingCfg.reset) q r s.disp.rings } }

/-- Write a job completion to the completion ring of its queue, or to the command completion ring for queue 8, and raise
its vector (R319, R327). -/
def postJob (q : Nat) (rec : List Byte) (s : State) : State :=
  if 8 ≤ q then postCmpl rec s
  else
    let r := getRing q s
    if r.size = 0 then s
    else emit (.msix (1 + q))
      (setRing q { r with ctail := (r.ctail + 1) % r.size } (hostStore (r.cring.toNat + 32 * r.ctail) rec s))

/-- Deliver a job's completion: discarded and counted after a host loss (R331), kept while the Dispatcher is stopped
(R449), else written. -/
def deliverJob (j : Job) (rec : List Byte) (s : State) : State :=
  let q := j.queue.elim 8 (·.val)
  if j.lost || s.disp.discarding then
    discardWrite j.client s
  else if dispatcherUp s then postJob q rec s
  else { s with disp := { s.disp with kept := s.disp.kept ++ [(q, rec)] } }

/-- Finish a job: its record is delivered, the ledger and JQq_DONE note it, and it leaves the device. A proof frame is the
Dispatcher's own and has no completion (DEDUCED, log entry 21). -/
def finishJob (j : Job) (flags : BitVec 16) (outcome reason : Nat) (s : State) : State :=
  let s := if j.proof.isSome then s else deliverJob j (jobRecord j flags outcome reason) s
  let s := modAccount j.client (fun a =>
    { a with jobsDone := if outcome ≤ 1 then count32 a.jobsDone 1 else a.jobsDone, lastJobId := j.desc.jobId }) s
  let s := match j.queue with
    | some q => setReg (Reg.JQq_DONE q) (j.desc.jobId.zeroExtend 32) s
    | none => s
  removeJob j.uid s

/-! ### Bindings' INVALID state (R384) -/

/-- Check binding `k` outside its registers. -/
def getBinding (k : Nat) (s : State) : Binding := tget (fun _ => Binding.reset) s.saf.bindings k

/-- The state with binding `k` set. -/
def setBinding (k : Nat) (b : Binding) (s : State) : State :=
  { s with saf := { s.saf with bindings := tset (fun _ => Binding.reset) k b s.saf.bindings } }

/-- Context `c` of the image pipelines. -/
def getCtx (c : Nat) (s : State) : Ctx := tget (fun _ => Ctx.reset) s.cam.ctxs c

/-- The state with context `c` set. -/
def setCtx (c : Nat) (v : Ctx) (s : State) : State :=
  { s with cam := { s.cam with ctxs := tset (fun _ => Ctx.reset) c v s.cam.ctxs } }

/-- Whether a frozen or absent report stands for a context that an enabled binding's CAM mask names (R394). -/
def cameraStands (k : Nat) (s : State) : Bool :=
  (getBinding k s).enabled && (List.range 16).any (fun c => regBit (Reg.SAF_CHKk_CAM k) c s &&
    ((getCtx c s).frozen || (getCtx c s).absent))

/-- Whether binding `k` is INVALID: by a persistent disagreement or an expiry that no release has followed, by its last
proof frame, or by a camera report that stands (R382, R383, R391, R394). -/
def bindingInvalid (k : Nat) (s : State) : Bool :=
  let b := getBinding k s
  b.enabled && (b.persist || b.gap || b.proofFailed || cameraStands k s)

/-- Show the INVALID state of every binding in its register, and the mask in SAF_CMP_STAT (R384). -/
def putInvalid (s : State) : State :=
  let m := ((List.range 16).map (fun k => if bindingInvalid k s then 2 ^ k else 0)).sum
  setInvalidMask m ((List.range 16).foldl (fun s k =>
    setRegFld (Reg.SAF_CHKk_STAT k) 31 31 (m / 2 ^ k % 2) s) s)

/-- `putInvalid`, with the safety frame that a change of the mask asks for (R399). -/
def showInvalid (s : State) : State := withFrame putInvalid s

/-- A latch bit set and a binding's INVALID found in one cycle: one frame carries both (R395). -/
def latchInvalid (b : Nat) (s : State) : State := withFrame (fun s => putLatches [(b, 0)] (putInvalid s)) s

/-- A proof frame of binding `k` has not passed: PROOF_FAIL latches and the binding is INVALID until one passes (R391). -/
def proofFails (k : Nat) (s : State) : State :=
  let s := setBinding k { getBinding k s with proofFailed := true, proofSlot := false } s
  latchInvalid Latch.proofFail (setRegFld (Reg.SAF_CHKk_STAT k) 29 29 1 s)

/-! ### Barriers (R352, R354) -/

/-- Send a control message EAST (R351). -/
def sendEast (m : RingMsg) (s : State) : State := sendControl 0 m s

/-- Whether the ring is UP and enabled (R347). -/
def ringUp (s : State) : Bool := regBit Reg.RNG_CTL 31 s && decide (regFld Reg.RNG_STAT 31 29 s = 3)

/-- A job of this device arrives at a barrier with a vote: the master sends ARRIVE, another device forwards the ARRIVE it
holds, its vote raised (R352). While the device already waits at a barrier, the job waits for the next one; but a job that
fails while it waits at its start barrier makes that barrier its accept barrier, as the job that failed before it could
arrive there does on the other device (DEDUCED, log entry 158). -/
def arriveBarrier (uid : Nat) (start : Bool) (vote : BitVec 2) (s : State) : State :=
  if !start && decide (s.ring.barrierOf = some (uid, true)) then
    { s with ring := { s.ring with barrierOf := some (uid, false), arrived := s.ring.arrived.map (fun a => (vote, a.2)) } }
  else if s.ring.arrived.isSome then s
  else
    let s := { s with ring := { s.ring with arrived := some (vote, now s), barrierOf := some (uid, start) } }
    if regBit Reg.RNG_STAT 28 s then
      let q := getReg Reg.RNG_BARRIER_SEQ s
      sendEast (.arrive q vote) { s with ring := { s.ring with lapOpen := s.ring.lapOpen ++ [(now s, q)] } }
    else
      match s.ring.heldArrive with
      | some (q, v) => sendEast (.arrive q (if v < vote then vote else v)) { s with ring := { s.ring with heldArrive := none } }
      | none => s

/-! ### What FAB_LOAD_STAT shows (R60) -/

/-- The offset shown when the cause lies in no byte of the image (R489). -/
abbrev noOffset : Nat := 0xFFFFFFFF

/-- Show the result of a registration (`load` false) or a load; the offset changes only with a refusal or a failure,
and BUSY not at all. -/
def showLoad (load refused : Bool) (reason code handle : Nat) (offset : Option Nat) (s : State) : State :=
  let s := modReg Reg.FAB_LOAD_STAT (fun w => (w &&& 0x80000000) ||| word (load.toNat * 2 ^ 30 + refused.toNat * 2 ^ 29 +
    reason * 2 ^ 24 + code * 2 ^ 16 + handle)) s
  match offset with
  | some o => setReg Reg.FAB_LOAD_OFFSET (word o) s
  | none => s

/-- The first 64-byte header read of an image, and the length it gives. -/
def imageLen (addr : Nat) (s : State) : Nat := leAt (rdBytes .dram addr 64 s) 8 4

/-- The bytes of an image, at least its header. -/
def imageBytes (addr : Nat) (s : State) : List Byte := rdBytes .dram addr (max 64 (imageLen addr s)) s

/-! ### The judgement and the stream engine (R57, R62, R489 to R491) -/

/-- The outcome of a registration: refused for a cause, ended by an uncorrectable word, or accepted (R57, R489, R490). -/
inductive Judged where
  /-- by stage `n` of R490 -/
  | refused (n : Nat) (c : Cause)
  | ecc (offset : Nat)
  | accepted (im : Image)
  deriving DecidableEq, Repr

/-- The offset of the first uncorrectable word of a range of the image. -/
def eccIn (addr n : Nat) (s : State) : Option Nat :=
  ((marksIn .dram addr n true s).map (fun m => 8 * m.word)).min?.map (fun a => a - addr)

/-- The offset of the first uncorrectable word of a range of the image as it streams: one that stands in DRAM, or the one at
which a flit arrived uncorrectable (R106). -/
def streamErr (flit : Option Nat) (addr n : Nat) (s : State) : Option Nat :=
  ((eccIn addr n s).toList ++ (flit.filter (fun f => f < n)).toList).min?

/-- Judge the image at an address as it streams: the header is read and judged first (stages 1 and 2 of R490), then the
rest. `flit` is the offset of a word whose flit arrives uncorrectable. -/
def judgeStream (flit : Option Nat) (addr : Nat) (s : State) : Judged :=
  match streamErr flit addr 64 s with
  | some o => .ecc o
  | none =>
    let b := imageBytes addr s
    match firstCause (stage1 b), firstCause (stage2 b) with
    | some c, _ => .refused 1 c
    | none, some c => .refused 2 c
    | none, none =>
      match streamErr flit addr b.length s with
      | some o => .ecc o
      | none =>
        match judgeImage b s with
        | some (n, c) => .refused n c
        | none => .accepted (parseImage b)

/-- The judgement of an image whose flits arrive good. -/
def judge (addr : Nat) (s : State) : Judged := judgeStream none addr s

/-- The handles that are not assigned; handles that wait for retirement count as assigned (R64, R65). -/
def freeHandles (s : State) : List Nat := (List.range 64).filter (fun h => (handleInfo h s).isNone)

/-- The handle that a registration assigns: one that is free, and which of them is a free value (R57). -/
def freeHandle (s : State) : Option Nat :=
  match freeHandles s with
  | [] => none
  | h :: r => some ((h :: r).getD (handlePick s.freeCtr % (r.length + 1)) h)

/-- The instant at which a registration that starts now is done: 1.5 µs + IMAGE_LEN / 38.4 GB/s + C / 1.2 GHz for an
accepted image. A refused one ends when its refusing stage is complete: the first two stages have read the header, those up
to the fifth the image, and the last has made the C checks; an uncorrectable word ends it when it has streamed (R491;
DEDUCED, log entry 143). -/
def registrationDone (addr : Nat) (s : State) : Nat :=
  match judge addr s with
  | .accepted im => now s + streamRoot im.hdr.imageLen + 4 * checkCycles im s
  | .ecc o => now s + streamRoot (o + 8)
  | .refused n _ =>
    if n ≤ 2 then now s + streamRoot (min 64 (imageLen addr s))
    else now s + streamRoot (imageLen addr s) + (if n ≤ 5 then 0 else 4 * checkCycles (parseImage (imageBytes addr s)) s)

/-- Start the registration at the head of the loader's queue when the loader is idle; a load at the head waits for
LOAD_START. -/
def startNext (s : State) : State :=
  match s.disp.active, s.disp.loads with
  | none, .registration a i :: r =>
    let done := registrationDone a.toNat s
    setRegFld Reg.FAB_LOAD_STAT 31 31 1
      { s with disp := { s.disp with loads := r, active := some (.registration a i, now s, done) } }
  | _, _ => s

/-- End the service of the loader: BUSY clears and the next registration starts. -/
def endService (s : State) : State :=
  startNext (setRegFld Reg.FAB_LOAD_STAT 31 31 0 { s with disp := { s.disp with active := none } })

/-- Drop a job's load, whether it waits or streams, when the job ends; an engine that streamed it goes on with what
waits. -/
def dropLoad (uid : Nat) (s : State) : State :=
  let s := { s with disp := { s.disp with loads := s.disp.loads.filter (fun l => l ≠ LoadReq.load uid) } }
  match s.disp.active with
  | some (.load u, _, _) => if u = uid then endService s else s
  | _ => s

/-! ### Failure, giving up and refusal (R107, R313) -/

/-- Counterfoil runs of a job are dropped. -/
def dropCfRuns (uid : Nat) (s : State) : State :=
  { s with saf := { s.saf with runs := s.saf.runs.filter (fun r => r.uid ≠ uid) } }

/-- Retire a handle that waits for its last job (R64). -/
def retireIfIdle (h : Nat) (s : State) : State :=
  match handleInfo h s with
  | none => s
  | some i =>
    if i.retiring && s.disp.jobs.all (fun j => j.desc.handle ≠ h) &&
        (List.range 16).all (fun e => !((getStanding e s).enabled && (getStanding e s).desc.handle = h))
    then setHandle h none s else s

/-- The enabled bindings of a standing entry. -/
def bindingsOf (e : Nat) (s : State) : List (Fin 16) :=
  (List.finRange 16).filter (fun k => (tget (fun _ => Binding.reset) s.saf.bindings k).enabled &&
    regFld (Reg.SAF_CHKk_CTL k) 27 24 s = e)

/-- The bindings that check a job's run: its own for a proof frame, every enabled one of its entry otherwise. -/
def checksOf (j : Job) (s : State) : List (Fin 16) :=
  match j.proof with
  | some k => [k]
  | none => j.entry.elim [] (fun e => bindingsOf e s)

/-- REPLAY_PENDING of bindings clears. -/
def clearPending (ks : List Nat) (s : State) : State :=
  ks.foldl (fun s k => setRegFld (Reg.SAF_CHKk_STAT k) 30 30 0 s) s

/-- Give a job up: completion with the code of its last failure, locks released, state generation unchanged (R313); a replay
that is given up is pending no more (R382). -/
def giveUp (j : Job) (flags : BitVec 16) (s : State) : State :=
  let s := match j.proof with
    | some k => proofFails k s
    | none => s
  let s := if j.isReplay then clearPending ((checksOf j s).map (·.val)) s else s
  retireIfIdle j.desc.handle (finishJob j flags Outcome_.givenUp 0 (dropCfRuns j.uid (unlockInputs j s)))

/-- Refuse a job that holds inputs or columns: OUTCOME REFUSED with the reason (R59, R319). A proof frame that is refused has
not passed (R391). -/
def refuseJob (j : Job) (flags : BitVec 16) (reason : Nat) (s : State) : State :=
  let s := match j.proof with
    | some k => proofFails k s
    | none => s
  retireIfIdle j.desc.handle (finishJob j flags Outcome_.refused reason (dropCfRuns j.uid (unlockInputs j s)))

/-- At a job's end its partition's saturation events are added to FAB_COLn_SAT of its first column (R92). -/
def countSat (j : Job) (sat : Nat) (s : State) : State := bumpReg (Reg.FAB_COLn_SAT j.desc.baseCol) sat s

/-- SAT in the flags of a run that had saturation events (R92). -/
def satFlag (sat : Nat) : BitVec 16 := if sat = 0 then 0 else codeBit Code.sat

/-- Count the fabric cycles for which a partition was held when its job ends in a hold (R36). -/
def countStall (j : Job) (s : State) : State :=
  match j.run with
  | some r => if j.stage = .running then bumpReg (Reg.FAB_COLn_STALL j.desc.baseCol) (heldCycles r s) s else s
  | none => s

/-- Let a partition stop (R107): its counts are added, its load is dropped, its columns and ports are released. -/
def stopPartition (j : Job) (s : State) : State :=
  dropLoad j.uid (countSat j (j.run.elim 0 (·.sat)) (countStall j (dropCfRuns j.uid (releasePartition j s))))

/-- A job that has failed: it is restarted with the same inputs and generation, or given up after RESTART_LIMIT restarts
(R313), or at once when `final`. A ring job whose own run failed sends ABORT and votes at the accept barrier, 2 for a restart
and 3 to give up; one that an ABORT ended votes 2 (R354). Without a ring that is UP there is no barrier, and the device goes
on alone (DEDUCED, log entry 23). SAT stands beside the code when the run had saturation events (R92). -/
def afterFailure (j : Job) (code : Nat) (own final : Bool) (s : State) : State :=
  let more := decide (j.restarts < j.desc.restartLimit) && !final
  let sat := match j.run with
    | some r => satFlag r.sat
    | none => j.codes &&& codeBit Code.sat
  let j := { j with held := false, run := none, endTick := s.clk.tick, endAt := now s, decided := []
                    codes := codeBit code ||| (if final then 0 else sat) }
  if isRingJob j && ringUp s then
    let s := if own then sendEast (.abort (ringPos s) j.desc.jobId (BitVec.ofNat 8 code)) s else s
    let vote := if own && !more then 3 else 2
    arriveBarrier j.uid false vote (setJob { j with stage := .acceptBarrier, vote := vote } s)
  else if more then setJob { j with stage := .restart } s
  else giveUp j j.codes s

/-- End a job in the manner of R107 now: its partition stops and is released, nothing more is copied or saved. -/
def failJob (uid code : Nat) (own : Bool) (s : State) : State :=
  match getJob uid s with
  | none => s
  | some j => afterFailure j code own false (stopPartition j s)

/-- End a job in the manner of R107 and give it up without a restart, with the code alone (R151). -/
def abandonJob (uid code : Nat) (s : State) : State :=
  match getJob uid s with
  | none => s
  | some j => afterFailure j code true true (stopPartition j s)

/-- Let time pass to the end of the present fabric cycle, at which a partition stops whose error is found in it (R107). -/
def toCycleEnd (s : State) : State := runTo (fabricEdge (now s + 1) s) s

/-! ### Acceptance (R302, R317) -/

/-- The handoff outputs of a job: the KIND 2 records of its boundary. -/
def outputsOf (j : Job) (s : State) : List Nat :=
  match handleInfo j.desc.handle s with
  | none => []
  | some i => ((i.bounds.filter (fun x => x.kind = 2)).map (·.index)).dedup

/-- Whether a handoff output of a run is skipped because a consumer has locked its back slot: found once in a run, at its
first write or else at its flip, and counted then (R306). -/
def decideOut (uid h : Nat) (s : State) : Bool × State :=
  match getJob uid s with
  | none => (false, s)
  | some j =>
    match j.outs.find? (fun o => o.1 = h) with
    | some o => (o.2, s)
    | none =>
      let locked := backLocked (getHandoff (fabricKey h) s)
      (locked, setJob { j with outs := j.outs ++ [(h, locked)] } (if locked then skipLocked s else s))

/-- Flip every handoff output of a job (R100, R378), but those that are skipped, of which nothing was written (R306). -/
def flipOutputs (j : Job) (s : State) : State :=
  (outputsOf j s).foldl (fun s h =>
    let d := decideOut j.uid h s
    if d.1 then d.2 else commitOut (fabricKey h) d.2) s

/-- Accept a job's outputs: the generations swap, the locks are released, RESULT_LEN bytes go to the host and the
completion is written (R317). An entry that SET_STANDING has set anew since has state of its own, which stays. -/
def acceptJob (j : Job) (flags : BitVec 16) (s : State) : State :=
  let s := match j.entry with
    | some e =>
      if j.proof.isSome || (getStanding e s).setNo ≠ j.setNo then s
      else setStandingEntry e { getStanding e s with gen := !j.gen } s
    | none => s
  let s := unlockInputs j s
  let s :=
    if j.desc.resultLen = 0 then s
    else if j.lost || s.disp.discarding then discardWrite j.client s
    else
      let r := readAll .dram j.desc.resultSrc.toNat j.desc.resultLen s
      hostStore j.desc.resultAddr.toNat r.1.bytes r.2
  retireIfIdle j.desc.handle (finishJob j flags Outcome_.accepted 0 s)

/-! ### Refusals of a descriptor (R316, R322, R495) -/

/-- Whether the `n` bytes from `a`, taken modulo 2^64 as a copy takes them, meet the job-independent region, DRAM data
addresses 0 to 0x00FF_FFFF (R322). -/
def meetsRegion (a n : Nat) : Bool :=
  decide (0 < n) && (decide (a % 2 ^ 64 < 2 ^ 24) || decide (2 ^ 64 < a % 2 ^ 64 + n))

/-- The refusal reason of a descriptor: 14 under R316 and R322, 18 under R495; the lower number first. -/
def descriptorReason (d : JobDesc) (s : State) : Option Nat :=
  match handleInfo d.handle s with
  | none => some 18
  | some i =>
    let kv := d.replay && i.bounds.any (fun x => x.kind = 4)
    let same := d.replay && !i.states.isEmpty && d.stateAlt = d.stateBase
    let region := i.bounds.any (fun x => (x.kind = 3 || x.kind = 4) && meetsRegion (d.dramBase.toNat + x.base) x.len) ||
      i.states.any (fun r => meetsRegion (d.stateBase.toNat + r.save) r.len || meetsRegion (d.stateAlt.toNat + r.save) r.len)
    if kv || same || region then some 14
    else if decide (8 < d.nin) || decide (3 < d.restartLimit) ||
        decide (enabledCols s < d.baseCol + colsOf i.hdr.tileCount) || d.inputs.any (fun x => !inputExists x)
    then some 18 else none

/-- A job as it is made from a descriptor. -/
def newJob (uid client : Nat) (queue : Option (Fin 8)) (entry : Option Nat) (d : JobDesc) (gen : Bool) (width : Nat) : Job :=
  { uid := uid, client := client, queue := queue, entry := entry, desc := d, stage := .waiting, readyAt := none,
    beforeSlot := false, taken := [], outs := [], restarts := 0, isReplay := false, proof := none, codes := 0, gen := gen,
    setNo := 0,
    dispatchAt := 0, firstWait := none, dispatchTick := 0, endTick := 0, endAt := 0, width := width, held := false,
    run := none, decided := [], vote := 0, ports := (false, false), lost := false }

/-- The columns that a descriptor's handle needs. -/
def handleWidth (h : Nat) (s : State) : Nat := (handleInfo h s).elim 0 (fun i => colsOf i.hdr.tileCount)

/-- Add a job and see whether it is ready at once. -/
def addJob (client : Nat) (queue : Option (Fin 8)) (entry : Option Nat) (d : JobDesc) (gen : Bool) (s : State) : State :=
  let j := { newJob s.disp.nextUid client queue entry d gen (handleWidth d.handle s) with
    setNo := entry.elim 0 (fun e => (getStanding e s).setNo) }
  refreshReady { s with disp := { s.disp with jobs := s.disp.jobs ++ [j], nextUid := s.disp.nextUid + 1 } }

/-- Fetch the next descriptor of a host queue and judge it (R495). -/
def fetchJob (q : Fin 8) (s : State) : State :=
  let r := getRing q s
  let head := regFld (Reg.JQq_STAT q) 15 0 s
  if !dispatcherUp s || !regBit (Reg.JQq_STAT q) 31 s || r.size = 0 ||
      head = (getReg (Reg.JQq_TAIL q) s).toNat % max r.size 1 then s
  else
    let d := parseJob (hostBytes (r.ring.toNat + 96 * head) 96 s)
    let s := setRegFld (Reg.JQq_STAT q) 15 0 ((head + 1) % r.size) s
    match descriptorReason d s with
    | some reason =>
      let j := newJob s.disp.nextUid q (some q) none d false 0
      finishJob j 0 Outcome_.refused reason { s with disp := { s.disp with nextUid := s.disp.nextUid + 1 } }
    | none => addJob q (some q) none d false s

/-- A standing entry reaches its release, once after each day boundary and within the day: it makes a job unless one of the
entry still waits for its dispatch (DESIGN CHOICE, log entry 22). -/
def releaseStanding (e : Nat) (s : State) : State :=
  let st := getStanding e s
  let day := getReg Reg.DAY_NUM s
  if !st.enabled || st.relDay = some day || (getReg Reg.DAY_US s).toNat ≤ st.desc.releaseUs then s
  else
    let s := runTo (dayAt ((st.desc.releaseUs * usRoot : Nat) : Int) s) s
    let s := setStandingEntry e { st with relDay := some day } s
    if s.disp.jobs.any (fun j => j.entry = some e && j.stage = .waiting && j.proof.isNone) then s
    else addJob st.client none (some e) st.desc st.gen s

/-! ### The dispatch decision (R307 to R312) -/

/-- The slot-work class of a job: 0 replay, 1 restart, 2 proof frame as slot work, 3 LATE_OK ready before the slot start,
4 ordinary (R312). -/
def jobClass (j : Job) (s : State) : Nat :=
  match j.stage with
  | .replay => 0
  | .restart => 1
  | _ =>
    match j.proof with
    | some k => if (tget (fun _ => Binding.reset) s.saf.bindings k).proofSlot then 2 else 4
    | none => if j.desc.lateOk && j.beforeSlot then 3 else 4

/-- Whether an earlier run of a job's entry has its replay pending: no newer run goes before it (R382; DEDUCED, log
entry 185). -/
def replayBefore (j : Job) (s : State) : Bool :=
  s.disp.jobs.any (fun x => decide (x.uid < j.uid) && j.entry.isSome && decide (x.entry = j.entry) &&
    (x.isReplay || x.stage = .replay || (x.stage = .acceptBarrier && x.vote = 1)))

/-- Whether a job is a candidate of a decision: ready as its inputs stand now, a replay that has met a slot start, or a
restart; ordinary work only outside the slot; a proof frame not while a run of its entry awaits release, nor a run while an
earlier one's replay is pending (R312, R379, R382, R389). -/
def isCandidate (j : Job) (s : State) : Bool :=
  let ready := match j.stage with
    | .waiting => j.readyAt.isSome && inputsComplete j s
    | .restart => true
    | .replay => j.beforeSlot
    | _ => false
  ready && (!s.day.inSlot || decide (jobClass j s < 4)) && !replayBefore j s &&
    (j.proof.isNone || s.disp.jobs.all (fun x => x.uid = j.uid || x.entry ≠ j.entry || x.stage = .waiting))

/-- Level under which a job is ordered: 3 for a proof frame (R389). -/
def jobLevel (j : Job) : Nat := if j.proof.isSome then 3 else j.desc.level

/-- Whether `a` goes before `b` in service mode: class, level, ready time, client (R308, R312). -/
def before (a b : Job) (s : State) : Bool :=
  let key := fun j : Job => [jobClass j s, jobLevel j, j.readyAt.getD 0, j.client, j.uid]
  decide (key a < key b)

/-- USED of a client: its engine time since shares mode was entered, of the runs that have ended and of those that run
(R310). -/
def usedTime (c : Nat) (s : State) : Nat :=
  tget (fun _ => 0) s.day.used c + ((s.disp.jobs.filter (fun j => j.held && j.client = c)).map (fun j =>
    j.width * (now s - max j.dispatchAt s.day.sharesAt))).sum

/-- USED_a / SHARE_a against USED_b / SHARE_b by cross products, then client, then ready time (R310). -/
def beforeShares (a b : Job) (s : State) : Bool :=
  let used := fun c => usedTime c s
  let share := fun c => ((s.day.shares[c]?).getD 1).toNat
  let x := used a.client * share b.client
  let y := used b.client * share a.client
  let ca := jobClass a s
  let cb := jobClass b s
  decide (ca < cb) || (decide (ca = cb) && (decide (x < y) || (decide (x = y) && (decide (a.client < b.client) ||
    (decide (a.client = b.client) && decide ([a.readyAt.getD 0, a.uid] < [b.readyAt.getD 0, b.uid]))))))

/-- Whether two jobs need a common column. -/
def shareCol (a b : Job) : Bool := (jobCols a).any (fun c => c ∈ jobCols b)

/-- Whether every column of a job is free. -/
def colsFree (j : Job) (s : State) : Bool := (jobCols j).all (fun c => !colHeld c s)

/-- Whether `a` ranks ahead of `b` in service mode whatever their ready times: by class, then by LEVEL (R308, R312, R313). -/
def outranks (a b : Job) (s : State) : Bool :=
  decide ([jobClass a s, jobLevel a] < [jobClass b s, jobLevel b])

/-- Whether a decision may dispatch a job: its columns are free, and in service mode no other candidate that ranks ahead of
it needs any of them (R308). -/
def mayDispatch (j : Job) (s : State) : Bool :=
  isCandidate j s && colsFree j s &&
    (s.day.sharesMode || s.disp.jobs.all (fun x => !(isCandidate x s && outranks x j s && shareCol x j)))

/-- The job that the decision dispatches. -/
def chooseJob (s : State) : Option Job :=
  (s.disp.jobs.filter (fun j => mayDispatch j s)).foldl (fun b j => match b with
    | none => some j
    | some x => if (if s.day.sharesMode then beforeShares j x s else before j x s) then some j else some x) none

/-- The pairs of a ready job J of lower LEVEL number that waits for a column that a running job H holds; each pair counts
once in HIGHER_WAITED of H's client (R321). A run of H is told by its dispatch instant. -/
def countHigher (s : State) : State :=
  if s.day.sharesMode then s
  else
    let pairs := s.disp.jobs.flatMap (fun j => (s.disp.jobs.filter (fun h =>
      h.held && isCandidate j s && !j.held && decide (jobLevel j < jobLevel h) && shareCol j h)).map (fun h => (j, h)))
    pairs.foldl (fun s p =>
      let key := (p.1.uid, p.2.uid, p.2.dispatchAt)
      if key ∈ s.disp.ledger.pairs then s
      else
        let s := modAccount p.2.client (fun a => { a with higherWaited := count32 a.higherWaited 1 }) s
        { s with disp := { s.disp with ledger := { s.disp.ledger with pairs := s.disp.ledger.pairs ++ [key] } } }) s

/-- The ring's size and this device's position as R58 and R347 give them. -/
def ringShape (s : State) : Nat × Nat :=
  if ringUp s then (regFld Reg.RNG_STAT 15 12 s, regFld Reg.RNG_STAT 26 24 s) else (1, 0)

/-- Whether another job holds a column that a job needs. -/
def columnClash (j : Job) (s : State) : Bool := s.disp.jobs.any (fun x => x.held && x.uid ≠ j.uid && shareCol x j)

/-- The checks of R58 that use the recorded header: columns, operating point, ring, and the ports of R359; the cause with
the lowest reason, and its offset (R61, R489). -/
def dispatchCheck (j : Job) (i : HandleInfo) (s : State) : Option Cause :=
  let r := ringShape s
  firstCause (
    need (j.desc.baseCol + colsOf i.hdr.tileCount ≤ enabledCols s) (.of 7 noOffset) ++
    need (i.hdr.opPoint = regFld Reg.FAB_OP_STAT 1 0 s) (.of 8 0x12) ++
    need (i.hdr.ringSize = r.1) (.of 9 0x13) ++ need (i.hdr.ringPos = r.2) (.of 9 0x14) ++
    need (!(columnClash j s || portClash j s)) (.of 15 noOffset))

/-- Refuse the load of a job: what it took is released and the job ends REFUSED (R59). -/
def refuseLoad (j : Job) (c : Cause) (s : State) : State :=
  let s := showLoad true true c.reason c.code j.desc.handle (some c.offset) s
  refuseJob { j with held := false, endTick := s.clk.tick } (codeBit c.code) c.reason (dropLoad j.uid (releasePartition j s))

/-- A job as its dispatch makes it: its first dispatch takes the inputs `taken` and the entry's present generation (R302). -/
def dispatchedJob (j : Job) (taken : List (Nat × Bool)) (s : State) : Job :=
  let first := j.stage = .waiting
  let st := getStanding (j.entry.getD 0) s
  { j with
    taken := if first then taken else j.taken
    outs := []
    gen := if first && j.proof.isNone && j.entry.isSome && decide (st.setNo = j.setNo) then st.gen else j.gen
    firstWait := if first then some ((now s - j.readyAt.getD (now s)) / usRoot) else j.firstWait
    isReplay := j.isReplay || j.stage = .replay
    restarts := if j.stage = .restart then j.restarts + 1 else j.restarts
    stage := .loading, dispatchAt := now s, dispatchTick := s.clk.tick, held := true, decided := [], codes := 0, run := none
    ports := if ringUp s then (handleInfo j.desc.handle s).elim (false, false) (fun i => portsOf i.bounds) else (false, false) }

/-- The ledger's counts of a dispatch: the wait before a first dispatch, a restart, a replay (R321). -/
def countDispatch (j : Job) (s : State) : State :=
  modAccount j.client (fun a => { a with
    waitUs := if j.stage = .waiting then count64 a.waitUs ((now s - j.readyAt.getD (now s)) / usRoot) else a.waitUs
    restarts := if j.stage = .restart then count32 a.restarts 1 else a.restarts
    replays := if j.stage = .replay then count32 a.replays 1 else a.replays }) s

/-- The counterfoil runs of a dispatch (R373). -/
def cfRunsOf (j : Job) (s : State) : List CfRun :=
  (checksOf j s).map (fun k =>
    { uid := j.uid, binding := k, dispatchAt := now s, startAt := none, endAt := 0, ended := false, bad := false,
      values := [] })

/-- Note that a binding's proof frame has been dispatched (R390). -/
def noteProof (j : Job) (s : State) : State :=
  match j.proof with
  | some k => setBinding k { getBinding k s with proofSent := true } s
  | none => s

/-- Dispatch a job: it takes and locks its inputs at its first dispatch, holds its columns and ring ports, its ballast is
set, its counterfoil runs are queued and its load is issued (R306, R309, R314, R359, R373, R426). A refusal for columns, for
OP_POINT or RING falls in the fabric cycle of the dispatch (R59). -/
def dispatchJob (was : Job) (s : State) : State :=
  let t := if was.stage = .waiting then takeInputs was s else (was.taken, s)
  let j := dispatchedJob was t.1 t.2
  let s := setJob j (countDispatch was t.2)
  let s := ballastSet j (showPorts (holdCols (jobCols j) j.desc.handle j.desc.jobId s))
  let s := noteProof j { s with saf := { s.saf with runs := s.saf.runs ++ cfRunsOf j s } }
  let s := refreshReady s
  match (handleInfo j.desc.handle s).bind (fun i => dispatchCheck j i s) with
  | some c => refuseLoad j c (toCycleEnd s)
  | none => { s with disp := { s.disp with loads := s.disp.loads ++ [.load j.uid] } }

/-- Put the requested operating point in effect, when one is pending at a day boundary at which no job holds a partition
(R14). -/
def takePoint (s : State) : State :=
  if regBit Reg.FAB_OP_STAT 2 s && decide (now s = dayAt 0 s) && s.disp.jobs.all (fun j => !j.held) && othersMeet 1 s then
    setReg Reg.FAB_OP_STAT (word (regFld Reg.FAB_OP_CTL 1 0 s)) { s with bankLog := [] }
  else s

/-- A dispatch decision: at a day boundary a pending operating point comes first (R63); then it counts who waits and
dispatches the job that goes first (R307). No job is dispatched while the Dispatcher is stopped (R449), or before memory has
trained (R445). -/
def decideDispatch (s : State) : State :=
  let s := takePoint s
  if dispatcherUp s && regBit Reg.MEM_POP 31 s then
    let s := countHigher s
    match chooseJob s with
    | none => s
    | some j => dispatchJob j (runTo (dispatchInstant j s) s)
  else s

/-! ### The commands and events -/

/-- JOB_FETCH (R495). -/
def execJobFetch (queue : Fin 8) (s : State) : Host.Outcome State Fault Refusal := .next (fetchJob queue s)

/-- STANDING_RELEASE (R306). -/
def execStandingRelease (entry : Fin 16) (s : State) : Host.Outcome State Fault Refusal :=
  .next (releaseStanding entry.val s)

/-- JOB_DISPATCH (R308, R310, R312). -/
def execJobDispatch (s : State) : Host.Outcome State Fault Refusal := .next (decideDispatch s)

/-- HANDLE_RETIRED (R64): the handle is freed once no running or waiting job names it. -/
def execHandleRetired (handle : Fin 64) (s : State) : Host.Outcome State Fault Refusal :=
  .next (retireIfIdle handle.val s)

/-- Set the tail of a job queue from its doorbell: outside an open host or maintenance session it is discarded and logged
(R324); within a host session opened after a host loss it is refused with SESSION until the ledger has been read (R328). -/
def doorbell (q : Nat) (tail : Word) (s : State) : State :=
  let s := touchMaint .maint s
  if s.sess.host.isNone && s.sess.maint.isNone then logClosed (Reg.JQq_TAIL q) s
  else if s.sess.host.isSome && regBit Reg.DEV_STATUS 30 s then logClosed (Reg.JQq_TAIL q) s
  else setReg (Reg.JQq_TAIL q) tail s

/-- JOB_DOORBELL (R307, R324, R328). -/
def execJobDoorbell (queue : Fin 8) (tail : Word) (s : State) : Host.Outcome State Fault Refusal :=
  .next (doorbell queue.val tail s)

end Sys2Proof.Machine
end

