-- ==== Sys2Proof/Machine/Operators.lean ====
section
/-! DEFINITION. The operators of a stage program: convolution and transposed convolution (R118 to R129), channel argmax
(R130 to R132), zero-run compression and expansion (R133 to R136), attention (R139 to R146), cache conversion and partial
merge (R155, R156), and their durations (R137, R159). An operator reads the banks as they stand in its last fabric cycle. -/

namespace Sys2Proof.Machine

/-- What an operator gives: its writes to its tile's activation bank in order, saturation events, and an error that ends the
job (R107). -/
structure OpResult where
  puts : List (Nat × List Byte)
  sat  : Nat
  fail : Option Nat
  deriving DecidableEq, Repr

/-- What an operator without work gives (R7, R129). -/
def OpResult.none : OpResult := ⟨[], 0, Option.none⟩

/-- The tile in which an operator works: absolute logical tile, its record's formats and ROUND. -/
structure OpTile where
  tile     : Nat
  arrayFmt : Nat
  trunc    : Bool
  deriving DecidableEq, Repr

/-- ROUND of ARITH_CTL: 1 rounds toward zero, every other value to nearest (chapter 3). -/
def truncOf (arith : Word) : Bool := fld arith 1 0 = 1

/-- The value of an element in an IN_FMT (R118); integers stand for themselves. -/
def inValue (f v : Nat) : Num :=
  match f with
  | 1 => ofRat ((BitVec.ofNat 8 v).toInt : Rat)
  | 2 => ofRat ((BitVec.ofNat 16 v).toInt : Rat)
  | 3 => decodeF e4m3 v
  | 4 => decodeF e5m2 v
  | _ => decodeF fp16 v

/-- An element in an OUT_FMT (R118) under ROUND and R77 to R79: its bits and the saturation events. -/
def outBits (f : Nat) (trunc : Bool) (x : Num) : Nat × Nat :=
  match f with
  | 1 => convF fp16 trunc x
  | 2 => convF bf16 trunc x
  | 3 => let r := convI 8 trunc x; ((BitVec.ofInt 8 r.1).toNat, r.2)
  | 4 => convF e4m3 trunc x
  | 5 => convF e5m2 trunc x
  | _ => let r := convI 16 trunc x; ((BitVec.ofInt 16 r.1).toNat, r.2)

/-- A little-endian field of an activation bank (bank 1) or weight bank (bank 0). -/
def bankNat (tile bank addr n : Nat) (s : State) : Nat := leNat (bankBytes tile bank addr n s)

/-- Byte offset of element (line, x, c) within a C16 or C32 tensor line (R116). -/
def elemOff (w x c e : Nat) : Nat := (c / (32 / e) * w + x) * 32 + c % (32 / e) * e

/-! ### Convolution (R118 to R129) -/

/-- The fields of a convolution descriptor (R118). -/
structure ConvDesc where
  tr : Bool
  replicate : Bool
  rectify : Bool
  bias : Bool
  inF : Nat
  outF : Nat
  kh : Nat
  kw : Nat
  stride : Nat
  dil : Nat
  padT : Nat
  padB : Nat
  padL : Nat
  padR : Nat
  h : Nat
  w : Nat
  cin : Nat
  cout : Nat
  y0 : Nat
  rows : Nat
  inPitch : Nat
  outPitch : Nat
  inAddr : Nat
  outAddr : Nat
  wAddr : Nat
  biasAddr : Nat
  scale : Nat
  deriving DecidableEq, Repr

/-- Parse a convolution descriptor. -/
def parseConv (d : Desc) : ConvDesc :=
  let b := d.bytes
  let f := byteAt b 1
  { tr := d.dtype = 0x11, replicate := f.testBit 0, rectify := f.testBit 1, bias := f.testBit 2, inF := byteAt b 2,
    outF := byteAt b 3, kh := byteAt b 4, kw := byteAt b 5, stride := byteAt b 6, dil := byteAt b 7, padT := byteAt b 8,
    padB := byteAt b 9, padL := byteAt b 10, padR := byteAt b 11, h := leAt b 12 2, w := leAt b 14 2, cin := leAt b 16 2,
    cout := leAt b 18 2, y0 := leAt b 20 2, rows := leAt b 22 2, inPitch := leAt b 24 4, outPitch := leAt b 28 4,
    inAddr := leAt b 32 4, outAddr := leAt b 36 4, wAddr := leAt b 40 4, biasAddr := leAt b 44 4, scale := leAt b 48 4 }

/-- H_out of R121 or R125. -/
def ConvDesc.hOut (c : ConvDesc) : Nat :=
  if c.tr then tconvOut c.h c.padT c.padB c.dil c.kh c.stride else convOut c.h c.padT c.padB c.dil c.kh c.stride

/-- W_out of R121 or R125. -/
def ConvDesc.wOut (c : ConvDesc) : Nat :=
  if c.tr then tconvOut c.w c.padL c.padR c.dil c.kw c.stride else convOut c.w c.padL c.padR c.dil c.kw c.stride

/-- Whether a size is 0, so the operator writes nothing (R129). -/
def ConvDesc.isEmpty (c : ConvDesc) : Bool :=
  c.h = 0 || c.w = 0 || c.cin = 0 || c.cout = 0 || c.rows = 0 || c.hOut = 0 || c.wOut = 0

/-- The output lines of instance `i` (R126). -/
def ConvDesc.lines (c : ConvDesc) (i : Nat) : List Nat :=
  ((List.range c.rows).map (fun k => c.y0 + i * c.rows + k)).filter (fun y => y < c.hOut)

/-- The input coordinate of a tap on one axis: some line or pixel, `none` when the tap is skipped; outside the image it
is still a coordinate for a convolution (R122, R125). -/
def tapCoord (tr : Bool) (out k stride dil pad : Nat) : Option Int :=
  if tr then
    let n : Int := (out : Int) + pad - dil * k
    if n % stride = 0 then some (n / stride) else none
  else some ((out : Int) * stride - pad + dil * k)

/-- Whether a coordinate lies inside 0 to n − 1. -/
def insideAxis (n : Nat) (v : Int) : Bool := decide (0 ≤ v) && decide (v < n)

/-- A coordinate clamped to 0 to n − 1. -/
def clampAxis (n : Nat) (v : Int) : Int := max 0 (min v ((n : Int) - 1))

/-- The taps of output (y, x) in the order of R123: (ky, kx, input coordinate, `none` for zero padding). A transposed
convolution takes only the taps that land on an input pixel (R125). -/
def convTaps (c : ConvDesc) (y x : Nat) : List (Nat × Nat × Option (Int × Int)) :=
  (List.range c.kh).flatMap (fun ky => (List.range c.kw).filterMap (fun kx =>
    match tapCoord c.tr y ky c.stride c.dil c.padT, tapCoord c.tr x kx c.stride c.dil c.padL with
    | some iy, some ix =>
      if insideAxis c.h iy && insideAxis c.w ix then some (ky, kx, some (iy, ix))
      else if c.tr then none
      else if c.replicate then some (ky, kx, some (clampAxis c.h iy, clampAxis c.w ix))
      else some (ky, kx, none)
    | _, _ => none))

/-- r0: the input line at IN_ADDR (R127). For a transposed convolution only taps that reach a line inside the image count
(DESIGN CHOICE, log entry 192). -/
def ConvDesc.r0 (c : ConvDesc) (lines : List Nat) : Int :=
  if c.tr then
    let rs := lines.flatMap (fun y => (List.range c.kh).filterMap (fun ky =>
      match tapCoord true y ky c.stride c.dil c.padT with
      | some iy => if insideAxis c.h iy then some iy else none
      | none => none))
    rs.foldl min (rs.headD 0)
  else (lines.headD 0 : Int) * c.stride - c.padT

/-- The bits of input element (iy, ix, ci): 0 for zero padding and for channels beyond C_IN (R117, R122). -/
def convIn (c : ConvDesc) (t : OpTile) (base : Nat) (r0 : Int) (p : Option (Int × Int)) (ci : Nat) (s : State) : Nat :=
  match p with
  | none => 0
  | some (iy, ix) =>
    if c.cin ≤ ci then 0
    else
      let e := inBytes c.inF
      bankNat t.tile 1 (base + (iy - r0).toNat * c.inPitch + elemOff c.w ix.toNat ci e) e s

/-- Bytes of one weight row (R84, R118): INT4 codes, CB4 codebook and codes, or C_OUT elements, padded to 8 bytes. -/
def weightRow (t : OpTile) (c : ConvDesc) : Nat :=
  match t.arrayFmt with
  | 5 => 8 * divUp (divUp c.cout 2) 8
  | 6 => 8 * divUp (32 + divUp c.cout 2) 8
  | _ => 8 * divUp (c.cout * inBytes c.inF) 8

/-- Bytes of one weight block: C_IN rows, and on the INT4 path the vector of C_OUT scales (R84, R118). -/
def weightBlock (t : OpTile) (c : ConvDesc) : Nat :=
  c.cin * weightRow t c + (if t.arrayFmt = 5 then 4 * c.cout else 0)

/-- A 4-bit code of a row: element 2i in bits [3:0], 2i + 1 in bits [7:4] (R71). -/
def nibble (b i : Nat) : Nat := if i % 2 = 0 then b % 16 else b / 16

/-- The value of weight (ky, kx, ci, co) (R80, R84, R85). -/
def weightAt (t : OpTile) (c : ConvDesc) (ky kx ci co : Nat) (s : State) : Num :=
  if c.cin ≤ ci then .zero false
  else
    let row := c.wAddr + (ky * c.kw + kx) * weightBlock t c + ci * weightRow t c
    match t.arrayFmt with
    | 5 => ofRat ((BitVec.ofNat 4 (nibble (bankNat t.tile 0 (row + co / 2) 1 s) co)).toInt : Rat)
    | 6 =>
      let code := nibble (bankNat t.tile 0 (row + 32 + co / 2) 1 s) co
      decodeF fp16 (bankNat t.tile 0 (row + 2 * code) 2 s)
    | 2 => ofRat ((BitVec.ofNat 16 (bankNat t.tile 0 (row + 2 * co) 2 s)).toInt : Rat)
    | 3 => decodeF e4m3 (bankNat t.tile 0 (row + co) 1 s)
    | 4 => decodeF e5m2 (bankNat t.tile 0 (row + co) 1 s)
    | _ => ofRat ((BitVec.ofNat 8 (bankNat t.tile 0 (row + co) 1 s)).toInt : Rat)

/-- Whether the path accumulates in INT32 (R80). -/
def intPath (arrayFmt : Nat) : Bool := arrayFmt = 1 || arrayFmt = 2 || arrayFmt = 5

/-- The whole number that a value of an integer format is. -/
def numInt (x : Num) : Int :=
  match x with
  | .fin q => q.num
  | _ => 0

/-- The accumulator of output (y, x, co) after its last step (R122, R123, R86): steps of 32 input channels; the saturation
events of an INT32 accumulator. -/
def convAcc (c : ConvDesc) (t : OpTile) (base : Nat) (r0 : Int) (y x co : Nat) (s : State) : Num × Nat :=
  let steps := (convTaps c y x).flatMap (fun tap => (List.range (divUp c.cin 32)).map (fun g =>
    (List.range (min 32 (c.cin - 32 * g))).map (fun i =>
      let ci := 32 * g + i
      mulN (inValue c.inF (convIn c t base r0 tap.2.2 ci s)) (weightAt t c tap.1 tap.2.1 ci co s))))
  if intPath t.arrayFmt then
    let r := steps.foldl (fun a ps => accStepI a ((ps.map numInt).sum)) ((0 : Int), 0)
    (ofRat (r.1 : Rat), r.2)
  else (steps.foldl accStepF (.zero false), 0)

/-- The epilogue of R124: the element's bits and its saturation events. -/
def convEpilogue (c : ConvDesc) (t : OpTile) (co : Nat) (acc : Num) (s : State) : Nat × Nat :=
  let a := rn acc
  let sw := num32 (bankNat t.tile 0 (c.wAddr + c.cin * weightRow t c + 4 * co) 4 s)
  let sc := if t.arrayFmt = 5 then rn (mulN (num32 c.scale) sw) else num32 c.scale
  let a := rn (mulN a sc)
  let a := if c.bias then rn (sumN [a, num32 (bankNat t.tile 0 (c.biasAddr + 4 * co) 4 s)]) else a
  let a := if c.rectify && numNeg a then .zero false else a
  outBits c.outF t.trunc a

/-- One output element: bits and events; channels beyond C_OUT are all-zero patterns (R117). -/
def convElem (c : ConvDesc) (t : OpTile) (base : Nat) (r0 : Int) (y x co : Nat) (s : State) : Nat × Nat :=
  if c.cout ≤ co then (0, 0)
  else
    let a := convAcc c t base r0 y x co s
    let r := convEpilogue c t co a.1 s
    (r.1, a.2 + r.2)

/-- A convolution or transposed convolution instance (R118 to R129): its lines are computed from the banks as they stand,
then written. -/
def runConv (c : ConvDesc) (t : OpTile) (inst step : Nat) (s : State) : OpResult :=
  let ls := c.lines inst
  if c.isEmpty || ls.isEmpty then .none
  else
    let sw := step * (inst % 2)
    let e := outBytes c.outF
    let r0 := c.r0 ls
    let cols := divUp c.cout (32 / e) * (32 / e)
    let cells := (ls.zipIdx).flatMap (fun p => (List.range c.wOut).flatMap (fun x => (List.range cols).map (fun co =>
      let v := convElem c t (c.inAddr + sw) r0 p.1 x co s
      (c.outAddr + sw + p.2 * c.outPitch + elemOff c.wOut x co e, v.1, v.2))))
    ⟨cells.map (fun v => (v.1, leBytes e v.2.1)), (cells.map (·.2.2)).sum, none⟩

/-! ### Channel argmax (R130 to R132) -/

/-- The winning channel of a pixel: the lowest index of the largest value; `none` when every channel is NaN. -/
def argmaxOf (vs : List Num) : Option Nat :=
  (vs.zipIdx).foldl (fun b p => match b with
    | none => if p.1 = .nan then none else some p.2
    | some i => if ltN (vs.getD i .nan) p.1 then some p.2 else some i) none

/-- The argmax operator. -/
def runArgmax (d : Desc) (t : OpTile) (inst step : Nat) (s : State) : OpResult :=
  let b := d.bytes
  let f := byteAt b 1
  let c := leAt b 2 2
  let h := leAt b 4 2
  let w := leAt b 6 2
  let sw := step * (inst % 2)
  let inA := leAt b 8 4 + sw
  let inP := leAt b 12 4
  let outA := leAt b 16 4 + sw
  let outP := leAt b 20 4
  let valA := leAt b 24 4
  let e := inBytes f
  if c = 0 ∨ h = 0 ∨ w = 0 then .none
  else
    let pix := (List.range h).flatMap (fun y => (List.range w).map (fun x =>
      let raw := (List.range c).map (fun ch => bankNat t.tile 1 (inA + y * inP + elemOff w x ch e) e s)
      let win := argmaxOf (raw.map (inValue f))
      (y, x, win.getD 0xFFFF, match win with
        | some i => raw.getD i 0
        | none => if f = 3 then nanBits e4m3 else if f = 4 then nanBits e5m2 else nanBits fp16)))
    ⟨pix.flatMap (fun p =>
      (outA + p.1 * outP + 2 * p.2.1, leBytes 2 p.2.2.1) ::
        if valA = 0xFFFFFFFF then []
        else [(valA + sw + p.1 * (64 * divUp (w * 32) 64) + elemOff w p.2.1 0 e, slice (leBytes e p.2.2.2) 0 32)]), 0, none⟩

/-! ### Zero-run compression (R133 to R136) -/

/-- The groups of 32 elements of a line, the last padded with zero elements. -/
def zrGroups (line : List Byte) (elem : Nat) : List (List Nat) :=
  (List.range (divUp line.length (32 * elem))).map (fun g =>
    (List.range 32).map (fun j => leAt line ((32 * g + j) * elem) elem))

/-- A run word (R134). -/
def runWord (n : Nat) : List Byte := leBytes 8 (2 ^ 63 + n)

/-- A mixed group: mask word, then the non-zero elements, padded to 8 bytes. -/
def mixedGroup (g : List Nat) (elem : Nat) : List Byte :=
  let mask := ((g.zipIdx).map (fun p => if p.1 = 0 then 0 else 2 ^ p.2)).sum
  let body := (g.filter (· ≠ 0)).flatMap (leBytes elem)
  leBytes 8 mask ++ slice body 0 (8 * divUp body.length 8)

/-- A line body (R134); `run` counts the all-zero groups pending. -/
def zrLine (elem : Nat) : List (List Nat) → Nat → List Byte
  | [], run => if run = 0 then [] else runWord run
  | g :: r, run =>
    if g.all (· = 0) then zrLine elem r (run + 1)
    else (if run = 0 then [] else runWord run) ++ mixedGroup g elem ++ zrLine elem r 0

/-- Compression (DTYPE 0x13). -/
def runCompress (d : Desc) (t : OpTile) (inst step : Nat) (s : State) : OpResult :=
  let b := d.bytes
  let elem := byteAt b 1
  let h := leAt b 4 2
  let lb := leAt b 20 4
  let sw := step * (inst % 2)
  if h = 0 ∨ lb = 0 then .none
  else
    let lines := (List.range h).map (fun y => bankBytes t.tile 1 (leAt b 8 4 + sw + y * leAt b 12 4) lb s)
    let bodies := lines.map (fun l => zrLine elem (zrGroups l elem) 0)
    let start := 32 + 8 * divUp h 2
    let offs := (List.range h).map (fun y => start + ((bodies.take y).map List.length).sum)
    let total := start + (bodies.map List.length).sum
    let head := leBytes 4 0x4E55525A ++ leBytes 2 h ++ leBytes 1 elem ++ leBytes 1 0 ++ leBytes 4 lb ++ leBytes 4 total ++
      List.replicate 16 0
    let tab := slice (offs.flatMap (leBytes 4)) 0 (8 * divUp h 2)
    ⟨[(leAt b 16 4 + sw, head ++ tab ++ bodies.flatten)], 0, none⟩

/-- Expand a line body of `n` elements from byte `o` of a stream, `g` groups being done: the elements, or `none` when it runs
past its line or past the stream. A run word of 0 groups passes neither. Each word takes 8 bytes, so a word of `fuel` for
each 8 bytes of the stream is enough. -/
def zrExpand (elem n : Nat) (st : List Byte) (cap : Nat) : Nat → Nat → Nat → Option (List Nat)
  | 0, _, g => if n ≤ 32 * g then some [] else none
  | fuel + 1, o, g =>
    if n ≤ 32 * g then some []
    else if cap < o + 8 then none
    else
      let w := leAt st o 8
      if w / 2 ^ 63 = 1 then
        let k := w % 2 ^ 32
        if divUp n 32 < g + k then none
        else (zrExpand elem n st cap fuel (o + 8) (g + k)).map (List.replicate (32 * k) 0 ++ ·)
      else
        let mask := w % 2 ^ 32
        let size := 8 * divUp (popCount mask 32 * elem) 8
        if cap < o + 8 + size ∨ 2 ^ (n - 32 * g) ≤ mask then none
        else
          let els := (List.range 32).map (fun j =>
            if mask.testBit j then leAt st (o + 8 + popCount mask j * elem) elem else 0)
          (zrExpand elem n st cap fuel (o + 8 + size) (g + 1)).map (els ++ ·)

/-- Expansion (DTYPE 0x14): a stream that disagrees with its descriptor, or a line body that runs past its line or past
OUT_CAP, ends the job with INVALID (R136). One that ends so has written no line at all (DESIGN CHOICE, log entry 194). -/
def runExpand (d : Desc) (t : OpTile) (inst step : Nat) (s : State) : OpResult :=
  let b := d.bytes
  let elem := byteAt b 1
  let h := leAt b 4 2
  let lb := leAt b 20 4
  let cap := leAt b 24 4
  let sw := step * (inst % 2)
  if h = 0 ∨ lb = 0 then .none
  else
    let st := bankBytes t.tile 1 (leAt b 8 4 + sw) (max cap (32 + 8 * divUp h 2)) s
    if leAt st 0 4 ≠ 0x4E55525A ∨ leAt st 4 2 ≠ h ∨ byteAt st 6 ≠ elem ∨ leAt st 8 4 ≠ lb then
      ⟨[], 0, some Code.invalid⟩
    else
      let ls := (List.range h).map (fun y =>
        zrExpand elem (lb / elem) st cap (cap / 8 + 1) (leAt st (32 + 4 * y) 4) 0)
      if ls.any (·.isNone) then ⟨[], 0, some Code.invalid⟩
      else
        ⟨(ls.zipIdx).map (fun p =>
          (leAt b 16 4 + sw + p.2 * leAt b 12 4, ((p.1.getD []).flatMap (leBytes elem)).take lb)), 0, none⟩

/-! ### Attention (R139 to R146) -/

/-- The fields of an attention descriptor (R139). -/
structure AttDesc where
  causal : Bool
  partial_ : Bool
  plusQ : Bool
  kvFmt : Nat
  outF : Nat
  heads : Nat
  dim : Nat
  qLen : Nat
  chunk : Nat
  qAddr : Nat
  kvAddr : Nat
  stAddr : Nat
  outAddr : Nat
  hdrAddr : Nat
  smScale : Nat
  kScale : Nat
  vScale : Nat
  deriving DecidableEq, Repr

/-- Parse an attention descriptor. -/
def parseAtt (d : Desc) : AttDesc :=
  let b := d.bytes
  let f := byteAt b 1
  { causal := f.testBit 0, partial_ := f.testBit 1, plusQ := f.testBit 2, kvFmt := byteAt b 2, outF := byteAt b 3,
    heads := byteAt b 4, dim := leAt b 6 2, qLen := leAt b 8 2, chunk := leAt b 10 2, qAddr := leAt b 16 4,
    kvAddr := leAt b 20 4, stAddr := leAt b 24 4, outAddr := leAt b 28 4, hdrAddr := leAt b 32 4,
    smScale := leAt b 36 4, kScale := leAt b 40 4, vScale := leAt b 44 4 }

/-- The running state of one head and query: whether it is empty, m, l and o. -/
structure AttState where
  empty : Bool
  m : Num
  l : Num
  o : List Num

/-- A value of the cache in KV_FMT. -/
def kvValue (f v : Nat) : Num := if f = 4 then decodeF e5m2 v else decodeF e4m3 v

/-- A dot product accumulated in groups of 32 ascending (R81, R144). -/
def dotF (xs ys : List Num) : Num :=
  let ps := (xs.zip ys).map (fun p => mulN p.1 p.2)
  (List.range (divUp ps.length 32)).foldl (fun a g => accStepF a ((ps.drop (32 * g)).take 32)) (.zero false)

/-- One block of 64 positions folded into the state: `vis` holds the key and value rows of its visible positions in
ascending order (R144). -/
def attBlock (a : AttDesc) (trunc : Bool) (q : List Num) (sq : Num) (vis : List (List Num × List Num)) (st : AttState) :
    AttState × Nat :=
  if vis.isEmpty then (st, 0)
  else
    let t := vis.map (fun kv => rn (mulN (rn (mulN (rn (mulN (dotF q kv.1) sq)) (num32 a.kScale))) (num32 a.smScale)))
    let mn := t.foldl maxN st.m
    let c : Num := if st.empty then .zero false else exp2N (rn (sumN [st.m, negN mn]))
    let p := t.map (fun x => exp2N (rn (sumN [x, negN mn])))
    let l := p.foldl (fun acc x => rn (sumN [acc, x])) (rn (mulN st.l c))
    let pq := p.map (fun x => convF e4m3 trunc (mulN x (.fin 448)))
    let pn := pq.map (fun x => decodeF e4m3 x.1)
    let o := (st.o.zipIdx).map (fun od =>
      rn (sumN [rn (mulN od.1 c), dotF pn (vis.map (fun kv => kv.2.getD od.2 (.zero false)))]))
    (⟨false, mn, l, o⟩, (pq.map (·.2)).sum)

/-- Read a running or partial state (R141). -/
def readAtt (tile addr dim : Nat) (s : State) : AttState :=
  let w := fun i => num32 (bankNat tile 1 (addr + 4 * i) 4 s)
  let m := w 0
  let l := w 1
  ⟨decide (m = .inf true) && decide (l = .zero false), m, l, (List.range dim).map (fun d => w (2 + d))⟩

/-- The bytes of a state. -/
def attBytes (st : AttState) : List Byte := (st.m :: st.l :: st.o).flatMap (fun x => leBytes 4 (bits32 x))

/-- The empty state: m = −∞, l = +0, o = +0 (R144, R146). -/
def emptyAtt (dim : Nat) : AttState := ⟨true, .inf true, .zero false, List.replicate dim (.zero false)⟩

/-- The final step: outputs in OUT_FMT (R144). -/
def attFinal (vScale outF : Nat) (trunc : Bool) (st : AttState) : List (Nat × Nat) :=
  let f := rn (divN (num32 vScale) (.fin 448))
  st.o.map (fun o =>
    let v := rn (divN (rn (mulN o f)) st.l)
    if outF = 2 then convF bf16 trunc v else convF fp16 trunc v)

/-- Whether query `i` sees position `p`, for a visible length V (R142). -/
def seesPos (a : AttDesc) (v i p : Nat) : Bool :=
  if a.causal then decide (p < v) && decide (p + a.qLen ≤ v + i) else decide (p < v)

/-- One head and query of an attention instance: the new state and the saturation events. The query is narrowed anew at
every instance, so its events count once per chunk (DESIGN CHOICE, log entry 196). -/
def attQuery (a : AttDesc) (t : OpTile) (k step h i v : Nat) (s : State) : AttState × Nat :=
  let e := 1
  let q := (List.range a.dim).map (fun d => decodeF fp16 (bankNat t.tile 1 (a.qAddr + (h * a.qLen + i) * 2 * a.dim + 2 * d) 2 s))
  let sc := scaleOf 448 q
  let qs := q.map (scaleToE4m3 t.trunc sc.1)
  let qn := qs.map (fun x => decodeF e4m3 x.1)
  let keys := a.kvAddr + step * (k % 2) + h * 2 * a.chunk * a.dim * e
  let row := fun base p => (List.range a.dim).map (fun d => kvValue a.kvFmt (bankNat t.tile 1 (base + p * a.dim * e + d) 1 s))
  let st0 := if k = 0 then emptyAtt a.dim
    else readAtt t.tile (a.stAddr + (h * a.qLen + i) * (2 + a.dim) * 4) a.dim s
  (List.range (a.chunk / 64)).foldl (fun acc b =>
    let ps := ((List.range 64).map (fun j => 64 * b + j)).filter (fun p => seesPos a v i (k * a.chunk + p))
    let r := attBlock a t.trunc qn sc.2 (ps.map (fun p => (row keys p, row (keys + a.chunk * a.dim * e) p))) acc.1
    (r.1, acc.2 + r.2)) (st0, (qs.map (·.2)).sum)

/-- An attention instance; `vs` are the visible lengths that instance 0 found, `last` whether it is the last one. -/
def runAttention (a : AttDesc) (t : OpTile) (k step : Nat) (vs : List Nat) (last : Bool) (s : State) : OpResult :=
  let hq := (List.range a.heads).flatMap (fun h => (List.range a.qLen).map (fun i => (h, i)))
  let rs := hq.map (fun p => (p, attQuery a t k step p.1 p.2 (vs.getD p.1 0) s))
  let ends := rs.map (fun r =>
    let n := r.1.1 * a.qLen + r.1.2
    let st := r.2.1
    let kept := (a.stAddr + n * (2 + a.dim) * 4, attBytes st)
    if !last then ([kept], r.2.2)
    else if a.partial_ then ([kept, (a.outAddr + n * (2 + a.dim) * 4, attBytes st)], r.2.2)
    else if st.empty then ([kept], r.2.2)
    else
      let outs := attFinal a.vScale a.outF t.trunc st
      ([kept, (a.outAddr + n * 2 * a.dim, outs.flatMap (fun o => leBytes 2 o.1))], r.2.2 + (outs.map (·.2)).sum))
  ⟨ends.flatMap (·.1), (ends.map (·.2)).sum, none⟩

/-! ### Conversion and merge (R155, R156) -/

/-- Cache conversion (DTYPE 0x21): each element x × rn(1 / SCALE) under R77 to R79. -/
def runConvert (d : Desc) (t : OpTile) (inst step : Nat) (s : State) : OpResult :=
  let b := d.bytes
  let sw := step * (inst % 2)
  let n := leAt b 2 2 * leAt b 4 2
  let r := rn (divN (.fin 1) (num32 (leAt b 16 4)))
  let f := if byteAt b 1 = 4 then e5m2 else e4m3
  let els := (List.range n).map (fun i =>
    convF f t.trunc (mulN (decodeF fp16 (bankNat t.tile 1 (leAt b 8 4 + sw + 2 * i) 2 s)) r))
  ⟨[(leAt b 12 4 + sw, els.map (fun e => BitVec.ofNat 8 e.1))], (els.map (·.2)).sum, none⟩

/-- Merge of two states of which none is empty (R156). -/
def mergeAtt (a b : AttState) : AttState :=
  let m := maxN a.m b.m
  let ca := exp2N (rn (sumN [a.m, negN m]))
  let cb := exp2N (rn (sumN [b.m, negN m]))
  ⟨false, m, rn (sumN [rn (mulN a.l ca), rn (mulN b.l cb)]),
    (a.o.zip b.o).map (fun p => rn (sumN [rn (mulN p.1 ca), rn (mulN p.2 cb)]))⟩

/-- The merge of the states at two addresses: the state and its bytes. With one of them empty it is the other bit for bit
(R156). -/
def mergeAt (tile aA bA dim : Nat) (s : State) : AttState × List Byte :=
  let a := readAtt tile aA dim s
  let b := readAtt tile bA dim s
  let size := (2 + dim) * 4
  if a.empty then (b, bankBytes tile 1 bA size s)
  else if b.empty then (a, bankBytes tile 1 aA size s)
  else (mergeAtt a b, attBytes (mergeAtt a b))

/-- Partial merge (DTYPE 0x22). -/
def runMerge (d : Desc) (t : OpTile) (inst step : Nat) (s : State) : OpResult :=
  let b := d.bytes
  let sw := step * (inst % 2)
  let dim := leAt b 4 2
  let size := (2 + dim) * 4
  let final := (byteAt b 1).testBit 0
  let ends := (List.range (leAt b 2 2)).map (fun i =>
    let st := mergeAt t.tile (leAt b 8 4 + sw + i * size) (leAt b 12 4 + sw + i * size) dim s
    if !final then ([(leAt b 16 4 + sw + i * size, st.2)], 0)
    else if st.1.empty then ([], 0)
    else
      let outs := attFinal (leAt b 20 4) (byteAt b 6) t.trunc st.1
      ([(leAt b 16 4 + sw + i * 2 * dim, outs.flatMap (fun o => leBytes 2 o.1))], (outs.map (·.2)).sum))
  ⟨ends.flatMap (·.1), (ends.map (·.2)).sum, none⟩

/-! ### Durations (R137, R159) and dispatch by DTYPE -/

/-- Duration in fc of instance `i` of a convolution. -/
def convCycles (c : ConvDesc) (arrayFmt i : Nat) : Nat :=
  if c.isEmpty || (c.lines i).isEmpty then 0
  else
    let taps := if c.tr then ((c.lines i).map (fun y =>
        ((List.range c.wOut).map (fun x => (convTaps c y x).length)).sum)).sum
      else (c.lines i).length * c.wOut * c.kh * c.kw
    let co := divUp c.cout 64
    if arrayFmt = 5 ∨ arrayFmt = 6 then taps * divUp c.cin 64 * co + 8
    else if arrayFmt = 2 then 4 * (taps * divUp c.cin 32 * co) + 8
    else taps * divUp c.cin 32 * co + 8

/-- Duration in fc of an operator instance. With Q_LEN, ROWS or COUNT 0 it is the constant of the table's formula, and 0 for
the arg max and the zero-run operators (DESIGN CHOICE, log entry 198: R7 completes a zero count at once). -/
def opCycles (d : Desc) (arrayFmt inst : Nat) (last : Bool) : Nat :=
  let b := d.bytes
  match d.dtype with
  | 0x10 => convCycles (parseConv d) arrayFmt inst
  | 0x11 => convCycles (parseConv d) arrayFmt inst
  | 0x12 =>
    if leAt b 2 2 = 0 ∨ leAt b 4 2 = 0 ∨ leAt b 6 2 = 0 then 0
    else leAt b 4 2 * divUp (leAt b 6 2) 32 * leAt b 2 2 + 4
  | 0x13 => if leAt b 4 2 = 0 ∨ leAt b 20 4 = 0 then 0 else leAt b 4 2 * (divUp (leAt b 20 4) (32 * byteAt b 1) + 2)
  | 0x14 => if leAt b 4 2 = 0 ∨ leAt b 20 4 = 0 then 0 else leAt b 4 2 * (divUp (leAt b 20 4) (32 * byteAt b 1) + 2)
  | 0x20 =>
    let a := parseAtt d
    a.heads * a.qLen * (a.chunk / 64) * (divUp a.dim 32 + 2 * divUp a.dim 64 + 2) + 16 +
      (if last then a.heads * a.qLen * divUp a.dim 32 else 0)
  | 0x21 => leAt b 2 2 * divUp (leAt b 4 2) 32 + 6
  | 0x22 => leAt b 2 2 * (divUp (leAt b 4 2) 32 + 4) + 8
  | _ => 0

/-- Run an operator instance. -/
def runOp (d : Desc) (t : OpTile) (inst step : Nat) (vs : List Nat) (last : Bool) (s : State) : OpResult :=
  match d.dtype with
  | 0x10 => runConv (parseConv d) t inst step s
  | 0x11 => runConv (parseConv d) t inst step s
  | 0x12 => runArgmax d t inst step s
  | 0x13 => runCompress d t inst step s
  | 0x14 => runExpand d t inst step s
  | 0x20 => runAttention (parseAtt d) t inst step vs last s
  | 0x21 => runConvert d t inst step s
  | 0x22 => runMerge d t inst step s
  | _ => .none

/-- The port by which an operator writes its results (R95): the multiply array's for convolutions and attention, the vector
unit's for the others (DEDUCED, log entry 140). -/
def opPort (d : Desc) : Nat := if d.dtype = 0x10 ∨ d.dtype = 0x11 ∨ d.dtype = 0x20 then Port.array else Port.vector

/-! ### The words that an operator reads (R106, R107) -/

/-- The byte ranges that an operator instance reads, as (bank, address, length): its inputs, its weights and parameters,
its states. An expansion reads the first OUT_CAP or STREAM_LEN bytes of its stream, whichever are fewer, and at least the
header and the line table (DESIGN CHOICE, log entry 194). -/
def opReads (d : Desc) (t : OpTile) (inst step : Nat) (vs : List Nat) (s : State) : List (Nat × Nat × Nat) :=
  let b := d.bytes
  let sw := step * (inst % 2)
  match d.dtype with
  | 0x10 => convReads (parseConv d)
  | 0x11 => convReads (parseConv d)
  | 0x12 =>
    let e := inBytes (byteAt b 1)
    (List.range (leAt b 4 2)).flatMap (fun y => (List.range (leAt b 6 2)).flatMap (fun x =>
      (List.range (leAt b 2 2)).map (fun c => (1, leAt b 8 4 + sw + y * leAt b 12 4 + elemOff (leAt b 6 2) x c e, e))))
  | 0x13 => (List.range (leAt b 4 2)).map (fun y => (1, leAt b 8 4 + sw + y * leAt b 12 4, leAt b 20 4))
  | 0x14 =>
    if leAt b 4 2 = 0 ∨ leAt b 20 4 = 0 then []
    else [(1, leAt b 8 4 + sw, max (32 + 8 * divUp (leAt b 4 2) 2)
      (min (leAt b 24 4) (bankNat t.tile 1 (leAt b 8 4 + sw + 12) 4 s)))]
  | 0x20 =>
    let a := parseAtt d
    (List.range a.heads).flatMap (fun h =>
      let keys := a.kvAddr + sw + h * 2 * a.chunk * a.dim
      let n := min a.chunk (vs.getD h 0 - inst * a.chunk)
      [(1, keys, n * a.dim), (1, keys + a.chunk * a.dim, n * a.dim), (1, a.qAddr + h * a.qLen * 2 * a.dim, a.qLen * 2 * a.dim)]
        ++ (if inst = 0 then [] else [(1, a.stAddr + h * a.qLen * (2 + a.dim) * 4, a.qLen * (2 + a.dim) * 4)]))
  | 0x21 => [(1, leAt b 8 4 + sw, 2 * (leAt b 2 2 * leAt b 4 2))]
  | 0x22 =>
    let n := leAt b 2 2 * (2 + leAt b 4 2) * 4
    [(1, leAt b 8 4 + sw, n), (1, leAt b 12 4 + sw, n)]
  | _ => []
where
  /-- The reads of a convolution: the input elements of its taps, the rows of the weight blocks that its taps use, the scale
  vector of the first block on the INT4 path (R118, R124), and its bias. -/
  convReads (c : ConvDesc) : List (Nat × Nat × Nat) :=
    let ls := c.lines inst
    if c.isEmpty || ls.isEmpty then []
    else
      let e := inBytes c.inF
      let r0 := c.r0 ls
      let ins := ls.flatMap (fun y => (List.range c.wOut).flatMap (fun x => (convTaps c y x).flatMap (fun tap =>
        match tap.2.2 with
        | none => []
        | some (iy, ix) => (List.range c.cin).map (fun ci =>
          (1, c.inAddr + step * (inst % 2) + (iy - r0).toNat * c.inPitch + elemOff c.w ix.toNat ci e, e)))))
      let used := (List.range (c.kh * c.kw)).filter (fun k => !c.tr || ls.any (fun y => (List.range c.wOut).any (fun x =>
        (convTaps c y x).any (fun tap => tap.1 * c.kw + tap.2.1 = k))))
      ins ++ used.map (fun k => (0, c.wAddr + k * weightBlock t c, c.cin * weightRow t c)) ++
        (if t.arrayFmt = 5 then [(0, c.wAddr + c.cin * weightRow t c, 4 * c.cout)] else []) ++
            (if c.bias then [(0, c.biasAddr, 4 * c.cout)] else [])

/-- Whether a marked word lies in a byte range of a tile's bank, with wrap. -/
def markHit (tile : Nat) (m : EccMark) (r : Nat × Nat × Nat) : Bool :=
  let n := bankSize r.1
  let off := (8 * m.word + n - (r.2.1 % n)) % n
  decide (m.space = .bank) && decide (8 * m.word / 2 ^ 20 = tile * 2 + min r.1 1) && decide (0 < r.2.2) &&
    (decide (off < r.2.2) || decide (n < off + 8))

/-- What an operator's reads find: the corrected words are counted, the first uncorrectable one is counted, captured and
reported (R106 to R109). -/
def checkReads (tile : Nat) (rs : List (Nat × Nat × Nat)) (s : State) : Bool × State :=
  let met := s.marks.filter (fun m => rs.any (markHit tile m))
  let bad := ((met.filter (fun m => m.double)).map (fun m => 8 * m.word)).min?
  (bad.isSome, countErrs .bank (met.filter (fun m => !m.double)).length 1 bad s)

end Sys2Proof.Machine
end

