-- ==== Sys2Proof/Machine/Loader.lean ====
section
/-! DEFINITION. The loader: registration and retirement of images (R57, R64, R65, R491), and the load of a dispatched job
with its checks (R58 to R62, R66). -/

namespace Sys2Proof.Machine

open Sys2Proof.Config

/-! ### Registration -/

/-- Put a registration at the end of the loader's queue (R62, R491). -/
def issueRegistration (a : Word64) (i : Option Issue) (s : State) : State :=
  startNext { s with disp := { s.disp with loads := s.disp.loads ++ [.registration a i] } }

/-- Complete the REGISTER command, when one asked. -/
def replyRegister (i : Option Issue) (code detail : Nat) (s : State) : State :=
  match i with
  | some i => completeLate i Op.register code (word detail) s
  | none => s

/-- An uncorrectable NoC flit: an ECC_UNCORR error of SOURCE 2, counted and captured; no rule gives the captured address, which
is a free value (R106 to R109; DESIGN CHOICE, log entry 148). -/
def flitError (s : State) : State :=
  useFree (captureErr Code.eccUncorr 2 0 (nocAddress s.freeCtr).toNat (bumpReg Reg.MEM_UE_COUNT 1 s))

/-- Stream `n` bytes of DRAM through the loader (R106, R108): what the words hold is counted and captured, up to the word whose
flit arrives uncorrectable. -/
def readStream (flit : Option Nat) (a n : Nat) (s : State) : State :=
  match flit with
  | none => (readMem .dram a n s).2
  | some f =>
    if f < n then
      let r := readMem .dram a f s
      if r.1.bad.isSome then r.2 else flitError r.2
    else (readMem .dram a n s).2

/-- How many bytes of an image have streamed when its registration ends: the header for a refusal of the first two stages, the
image up to and with an uncorrectable word, or the whole image (R490, R491). -/
def judgedBytes (flit : Option Nat) (a : Nat) (s : State) : Nat :=
  match judgeStream flit a s with
  | .ecc o => o + 8
  | .refused n _ => if n ≤ 2 then 64 else max 64 (imageLen a s)
  | .accepted _ => max 64 (imageLen a s)

/-- Finish a registration: a handle is assigned or a refusal is recorded, and the command completes (R57, R60, R65). R60 says
that an uncorrectable word shows as CODE ECC_UNCORR, and R59 says for a load alone that REFUSED is then 0; a registration
that meets one assigns no handle and shows REFUSED 1 with REASON 0 (DESIGN CHOICE, log entry 145). -/
def finishRegistration (flit : Option Nat) (a : Word64) (i : Option Issue) (s : State) : State :=
  let s := readStream flit a.toNat (judgedBytes flit a.toNat s) s
  match judgeStream flit a.toNat s with
  | .ecc o => endService (replyRegister i Code.eccUncorr 0 (showLoad false true 0 Code.eccUncorr 0 (some o) s))
  | .refused _ c =>
    endService (replyRegister i c.code c.reason (showLoad false true c.reason c.code 0 (some c.offset) s))
  | .accepted im =>
    match freeHandle s with
    | none => endService (replyRegister i 0 17 (showLoad false true 17 0 0 (some noOffset) s))
    | some h =>
      let info : HandleInfo :=
        { hdr := im.hdr, addr := a, bounds := im.bounds, stateLen := (im.states.map (·.len)).sum, states := im.states,
          retiring := false }
      endService (replyRegister i 0 h (showLoad false false 0 0 h none (setHandle h (some info) (useFree s))))

/-- Ask for the retirement of a handle (R64): it is freed at once when no waiting or running job names it. -/
def askRetire (h : Nat) (s : State) : State :=
  match handleInfo h s with
  | none => s
  | some i => retireIfIdle h (setHandle h (some { i with retiring := true }) s)

/-- A write of FAB_REG_CMD: discarded with an OVERRUN record while the loader is busy (R69). R69 gives the record no DETAIL:
its words are free values (DESIGN CHOICE, log entry 146). -/
def regCmd (w : Writer) (f : State → State) (s : State) : State :=
  asWriter w Reg.FAB_REG_CMD (fun s =>
    if regBit Reg.FAB_LOAD_STAT 31 s then raise Src.fabric .regOverrun Code.overrun [] s
    else f s) s

/-- REG_CMD_REGISTER (R57, R69). -/
def execRegCmdRegister (w : Writer) (s : State) : Host.Outcome State Fault Refusal :=
  .next (regCmd w (fun s => issueRegistration (reg64 Reg.FAB_REG_ADDR_LO Reg.FAB_REG_ADDR_HI s) none s) s)

/-- REG_CMD_RETIRE (R64, R69). -/
def execRegCmdRetire (w : Writer) (handle : BitVec 6) (s : State) : Host.Outcome State Fault Refusal :=
  .next (regCmd w (askRetire handle.toNat) s)

/-- REGISTER (R57, R326): it completes when the registration ends. -/
def execRegister (i : Issue) (addr : Word64) (s : State) : Host.Outcome State Fault Refusal :=
  .next (command i Op.register allowHPM (issueRegistration addr (some i)) s)

/-- RETIRE (R64, R326). A number that is assigned to no image retires nothing. The command completes at once with CODE 0 and
DETAIL 0 also where the handle still waits for its last job, of which R64 says nothing (DESIGN CHOICE, log entry 147). -/
def execRetire (i : Issue) (handle : BitVec 8) (s : State) : Host.Outcome State Fault Refusal :=
  .next (command i Op.retire allowHPM (fun s => answer i Op.retire 0 0 (askRetire handle.toNat s)) s)

/-- The loader's stream has met what the NoC did to its flits: the corrected ones count (R106). -/
def flitsMet (s : State) : State := bumpReg Reg.MEM_CE_COUNT s.flits.fixed { s with flits := ⟨0, none⟩ }

/-- REGISTRATION_COMPLETE (R491): an uncorrectable flit ends the registration when it has streamed. -/
def registrationComplete (s : State) : State :=
  match s.disp.active with
  | some (.registration a i, began, done) =>
    let end_ := match judgeStream s.flits.bad a.toNat s with
      | .ecc o => began + streamRoot (o + 8)
      | _ => done
    finishRegistration s.flits.bad a i (flitsMet (runTo end_ s))
  | _ => s

/-- REGISTRATION_COMPLETE (R491). -/
def execRegistrationComplete (s : State) : Host.Outcome State Fault Refusal := .next (registrationComplete s)

/-! ### Loads -/

/-- The flags that the completion of a job carries at its normal end (R10, R92, R318, R319). -/
def endFlags (j : Job) (sat : Nat) (s : State) : BitVec 16 :=
  let late := decide (0 < j.desc.deadlineUs) && j.proof.isNone &&
    decide (j.readyAt.getD 0 + j.desc.deadlineUs * usRoot < now s)
  (if late then codeBit Code.deadline else 0) ||| satFlag sat |||
    (if j.isReplay then codeBit Code.replayed else 0)

/-- Write the new KV_LEN of every page table that ADVANCE copies grew (R153); the header's word is read and checked, and an
uncorrectable one is counted and left (R106, R108). -/
def growTables (gs : List (Nat × Nat × Nat)) (s : State) : State :=
  gs.foldl (fun s g =>
    let r := readMem .dram g.1 4 s
    if r.1.bad.isNone ∧ leNat r.1.bytes < g.2.2 then wrBytes .dram g.1 (leBytes 4 g.2.2) r.2 else r.2) s

/-- The normal end of a job (R37): its saturation events are added (R92), its page tables take their new lengths (R153),
a job without checks flips its outputs (R100) and is accepted or, with a ring port, goes to its accept barrier (R317,
R354); the others wait for the comparator (R378). -/
def endNormally (uid : Nat) (s : State) : State :=
  match getJob uid s with
  | none => s
  | some j =>
    let sat := j.run.elim 0 (·.sat)
    let s := countSat j sat s
    let s := growTables (j.run.elim [] (·.grown)) s
    let flags := endFlags j sat s
    let s := if flags.getLsbD 5 then modAccount j.client (fun a => { a with deadlines := count32 a.deadlines 1 }) s else s
    let j := { j with endTick := s.clk.tick, endAt := now s, codes := flags, run := none, held := false }
    if s.saf.runs.any (fun r => r.uid = uid) then setJob { j with stage := .deciding } s
    else
      let s := setJob j (flipOutputs j s)
      if isRingJob j && ringUp s then
        arriveBarrier uid false 0 (setJob { j with stage := .acceptBarrier, vote := 0 } s)
      else acceptJob j flags s

/-- Root cycles that a load takes: its image and, unless its schedule has length 0 (R56), its state (R66). -/
def loadSpan (i : HandleInfo) : Nat := streamRoot (i.hdr.imageLen + if i.hdr.schedLen = 0 then 0 else i.stateLen)

/-- LOAD_START (R62): the load at the head of the queue begins when the loader is idle; its dispatch has made the checks of
R58 that need no image (R59). -/
def loadStart (s : State) : State :=
  match s.disp.active, s.disp.loads with
  | none, .load uid :: r =>
    let s := { s with disp := { s.disp with loads := r } }
    match (getJob uid s).bind (fun j => handleInfo j.desc.handle s) with
    | none => startNext s
    | some i =>
      setRegFld Reg.FAB_LOAD_STAT 31 31 1 { s with disp := { s.disp with
        active := some (.load uid, now s, now s + loadSpan i) } }
  | _, _ => s

/-- LOAD_START (R62). -/
def execLoadStart (s : State) : Host.Outcome State Fault Refusal := .next (loadStart s)

/-- The checks that the loader repeats on the header as it streams (R58), against the recorded one. -/
def headerCheck (b : List Byte) (h : AlmHeader) : Option Cause :=
  firstCause (
    need (leAt b 0 4 = 0x4E4D4C41) (.of 1 0x00) ++
    need (decide (crc32c (slice b 0 0x3C) = wordAt b 0x3C) && decide (wordAt b 0x3C = h.hdrCrc)) (.of 3 0x3C))

/-- The checks on the image CRC and IMAGE_LEN (R58). -/
def imageCheck (b : List Byte) (h : AlmHeader) : Option Cause :=
  firstCause (
    need (decide (leAt b 8 4 = h.imageLen)) (.of 4 0x08) ++
    need (decide (crc32c (slice b 0 (h.imageLen - 4)) = wordAt b (h.imageLen - 4)) &&
      decide (wordAt b (h.imageLen - 4) = h.imgCrc)) (.of 4 (h.imageLen - 4)))

/-- How the streaming of an image ends. -/
inductive Streamed where
  /-- refused for a cause, when `n` bytes have streamed -/
  | refused (c : Cause) (n : Nat)
  /-- an uncorrectable word at an offset -/
  | ecc (offset : Nat)
  | good (bytes : List Byte)
  deriving DecidableEq, Repr

/-- Stream the image of a handle: the header is checked once its last byte has streamed, the image at its end (R58,
R59). `flit` is the offset of a word whose flit arrives uncorrectable. -/
def streamWith (flit : Option Nat) (i : HandleInfo) (s : State) : Streamed :=
  let b := rdBytes .dram i.addr.toNat i.hdr.imageLen s
  match streamErr flit i.addr.toNat 64 s with
  | some o => .ecc o
  | none =>
    match headerCheck b i.hdr with
    | some c => .refused c 64
    | none =>
      match streamErr flit i.addr.toNat i.hdr.imageLen s with
      | some o => .ecc o
      | none =>
        match imageCheck b i.hdr with
        | some c => .refused c i.hdr.imageLen
        | none => .good b

/-- The stream of an image whose flits arrive good. -/
def streamImage (i : HandleInfo) (s : State) : Streamed := streamWith none i s

/-- The address of a binding's proof block (R389). -/
def proofBlock (k : Nat) (s : State) : Nat := (reg64 (Reg.SAF_CHKk_PROOF_LO k) (Reg.SAF_CHKk_PROOF_HI k) s).toNat

/-- The state base from which a job restores: its current generation, or PSTATE for a proof frame (R302, R389); none when the
word that holds PSTATE is uncorrectable (R106, R107). -/
def restoreBase (j : Job) (s : State) : Option Nat × State :=
  match j.proof with
  | some k =>
    let r := readMem .dram (proofBlock k s + 80) 8 s
    (if r.1.bad.isNone then some (leNat r.1.bytes) else none, r.2)
  | none => (some (if j.gen then j.desc.stateAlt.toNat else j.desc.stateBase.toNat), s)

/-- The state base to which a job saves: the other generation (R302). -/
def saveBase (j : Job) : Nat := if j.gen then j.desc.stateBase.toNat else j.desc.stateAlt.toNat

/-- Restore state records into the banks, `n` bytes of the stream having gone before; an uncorrectable word or flit ends it
(R55, R59, R106). -/
def restoreState (base col : Nat) (flit : Option Nat) : List StateRec → Nat → State → Bool × State
  | [], _, s => (true, s)
  | r :: rs, n, s =>
    let hit := flit.filter (fun f => f < n + r.len)
    let x := readMem .dram (base + r.save) (hit.elim r.len (· - n)) s
    if x.1.bad.isSome then (false, x.2)
    else if hit.isSome then (false, flitError x.2)
    else restoreState base col flit rs (n + r.len)
      (bankWrite (cycleBefore (now s) s) Port.copy (8 * col + r.tile) r.bank r.base x.1.bytes x.2)

/-- Bytes of saved state that stream up to and with the first uncorrectable word, from `n` bytes on; none when there is no
such word. -/
def stateEcc (base : Nat) : List StateRec → Nat → State → Option Nat
  | [], _, _ => none
  | r :: rs, n, s =>
    match ((marksIn .dram (base + r.save) r.len true s).map (fun m => 8 * m.word)).min? with
    | some w => some (n + min r.len (w + 8 - (base + r.save)))
    | none => stateEcc base rs (n + r.len) s

/-- The state records of an image that lie in a partition of `w` columns. A registered image has no other; one that software
wrote over it may name tiles that its job does not hold, and R58 guarantees the columns. -/
def ownStates (im : Image) (w : Nat) : List StateRec := im.states.filter (fun r => decide (r.tile < 8 * w))

/-- A run at partition cycle 0. -/
def freshRun (im : Image) (t : Nat) : Run :=
  { image := im, cycle0 := t, heldTot := 0, heldFrom := none, copies := [], ops := [], words := [], begun := [], sat := 0,
    grown := [], tables := [], rxCount := [], txCount := [], readyGot := [], visible := [], saveAt := 0 }

/-- A load that met an uncorrectable word: it is no refusal, and the job fails in the manner of R107 at the end of the fabric
cycle in which the word was found (R59). -/
def failLoad (j : Job) (offset : Nat) (s : State) : State :=
  let s := runTo (fabricEdge (now s) s) (showLoad true false 0 Code.eccUncorr j.desc.handle (some offset) s)
  failJob j.uid Code.eccUncorr true s

/-- What the registers show of a load that has succeeded. -/
def loadShown (j : Job) (began : Nat) (s : State) : State :=
  setReg Reg.FAB_LOAD_TIME (word ((now s - began) / tickRoot)) (showLoad true false 0 0 j.desc.handle none s)

/-- A job whose schedule has length 0 ends normally at the end of the fabric cycle; no tile is configured and no state is
restored or saved (R56). -/
def endAtOnce (j : Job) (s : State) : State :=
  let s := toCycleEnd s
  endNormally j.uid (releasePartition j s)

/-- A job whose load is done runs from partition cycle 0, a ring job at its start barrier (R66, R354); one whose schedule has
length 0 ends (R56). -/
def beginRun (j : Job) (im : Image) (s : State) : State :=
  let run := freshRun im (fabricEdge (now s) s)
  if isRingJob j && ringUp s then
    arriveBarrier j.uid true 0 (setJob { j with stage := .startBarrier, run := some run } s)
  else if im.hdr.schedLen = 0 then endAtOnce j s
  else setJob { j with stage := .running, run := some run } s

/-- Restore the state of a job whose image has streamed, and let it begin (R55, R59, R66). -/
def restoreAndBegin (flit : Option Nat) (j : Job) (im : Image) (began done n : Nat) (s : State) : State :=
  let b := restoreBase j s
  match b.1 with
  | none => failLoad j noOffset (runTo (began + streamRoot n) b.2)
  | some base =>
    let states := ownStates im j.width
    let total := n + (states.map (·.len)).sum
    let stop := ((stateEcc base states n s).toList ++ (flit.filter (fun f => f < total)).toList.map (· + 8)).min?
    let till := stop.elim done (fun k => began + streamRoot k)
    match restoreState base j.desc.baseCol flit states n (runTo till b.2) with
    | (false, s) => failLoad j noOffset s
    | (true, s) => endService (beginRun j im (loadShown j began s))

/-- A job's load is complete (R58, R66): the image has streamed and is checked, the tiles are configured from it, the state
is restored, and the job begins. -/
def finishLoad (flit : Option Nat) (j : Job) (i : HandleInfo) (began done : Nat) (s : State) : State :=
  match streamWith flit i s with
  | .refused c n =>
    let s := readStream flit i.addr.toNat n (runTo (began + streamRoot n) s)
    refuseLoad j c (runTo (fabricEdge (now s) s) s)
  | .ecc o => failLoad j o (readStream flit i.addr.toNat (o + 8) (runTo (began + streamRoot (o + 8)) s))
  | .good b =>
    let im := parseImage b
    let n := i.hdr.imageLen
    if im.hdr.schedLen = 0 then
      endService (beginRun j im (loadShown j began (readMem .dram i.addr.toNat n (runTo (began + streamRoot n) s)).2))
    else restoreAndBegin flit j im began done n (readMem .dram i.addr.toNat n s).2

/-- LOAD_COMPLETE (R58, R66). -/
def loadComplete (s : State) : State :=
  match s.disp.active with
  | some (.load uid, began, done) =>
    match getJob uid s with
    | none => endService s
    | some j => (handleInfo j.desc.handle s).elim (endService s) (fun i =>
        finishLoad s.flits.bad j i began done (flitsMet s))
  | _ => s

/-- LOAD_COMPLETE (R66). -/
def execLoadComplete (s : State) : Host.Outcome State Fault Refusal := .next (loadComplete s)

end Sys2Proof.Machine
end

