-- ==== Sys2Proof/Machine/Fabric.lean ====
section
/-! DEFINITION. A partition's schedule: the instances of its records and the copies, routes and operators that they start
(R34, R36, R126, R137, R142, R149 to R153, R356, R487, R488, R492, R493), and the job's end (R37). -/

namespace Sys2Proof.Machine

open Sys2Proof.Config

/-! ### The partition cycle -/

/-- The job that runs in the partition which starts at a column, and its run. -/
def runAt (col : Nat) (s : State) : Option (Job × Run) :=
  match jobAt col s with
  | some j => if j.stage = .running then j.run.map (fun r => (j, r)) else none
  | none => none

/-- The state with a job's run set. -/
def setRun (j : Job) (r : Run) (s : State) : State := setJob { j with run := some r } s

/-- Whether the partition cycle counter cannot reach cycle `c`: a copy that has not completed is due by it (R36). -/
def heldBefore (r : Run) (c : Nat) : Bool := r.copies.any (fun f => decide (f.dueCycle ≤ c))

/-- An instance that begins: its job, the run with the instance noted, its record, descriptor-independent cycle. -/
structure Instance where
  job   : Job
  run   : Run
  rec_  : SchedRec
  cycle : Nat
  deriving DecidableEq, Repr

/-- Instance `inst` of schedule record `rec`, when it can begin: the record has the action and the instance, it has not
begun, its tile is one of the partition (R58), its cycle lies in the schedule and no hold stands before it (R36, R48). -/
def instanceOf (act col rec inst : Nat) (s : State) : Option Instance :=
  match runAt col s with
  | none => none
  | some (j, r) =>
    match r.image.sched[rec]? with
    | none => none
    | some x =>
      let c := x.first + inst * x.period
      if x.action = act && decide (x.tile < 8 * j.width) && decide (inst < x.repeat_) && decide ((rec, inst) ∉ r.begun) &&
          decide (c < r.image.hdr.schedLen) && !heldBefore r c
      then some ⟨j, { r with begun := r.begun ++ [(rec, inst)] }, x, c⟩ else none

/-- The absolute logical tile of a partition's tile. -/
def absTile (j : Job) (t : Nat) : Nat := 8 * j.desc.baseCol + t

/-! ### DRAM channels (R112, R113, R484) -/

/-- Data granules of 512 bytes that a channel of `c` GiB holds (R112). -/
def granules (c : Nat) : Nat := c * 2 ^ 30 / 576

/-- The smallest capacity of a population, in GiB. -/
def capMin (pop : Word) : Nat := min (fld pop 3 0) (min (fld pop 7 4) (fld pop 11 8))

/-- A: the bytes of region A (R113, R484). -/
def regionA (pop : Word) : Nat := 24 * 512 * granules (capMin pop)

/-- Capacity in GiB of a channel of the trained population. -/
def channelCap (c : Nat) (pop : Word) : Nat :=
  if c < 8 then fld pop 3 0 else if c < 16 then fld pop 7 4 else fld pop 11 8

/-- The channels above a capacity, ascending. -/
def channelsAbove (cap : Nat) (pop : Word) : List Nat := (List.range 24).filter (fun c => decide (cap < channelCap c pop))

/-- The channel of a data address (R113): granules interleave over all channels in region A; in region B over the channels
that still have a granule, row by row. Where the larger groups differ, R113 does not say what follows once the smaller of
them is used up; the model goes on over the channels that are left (DESIGN CHOICE, log entry 149). -/
def channelOf (a : Nat) (pop : Word) : Nat :=
  if a < regionA pop then a / 512 % 24
  else
    let b := (a - regionA pop) / 512
    let low := capMin pop
    let first := channelsAbove low pop
    let next := (((first.map (fun c => channelCap c pop)).min?).getD low)
    let rows := granules next - granules low
    let last := channelsAbove next pop
    if b < rows * first.length then first.getD (b % first.length) 0
    else last.getD ((b - rows * first.length) % max 1 last.length) 0

/-- The root cycles of a refresh slot of a channel of `c` GiB: tRFCab and 40 ns ("Refresh and scrub"). -/
def slotRoot (c : Nat) : Nat :=
  match c with
  | 1 => 1200
  | 2 => 1536
  | _ => 2016

/-- The first instant at which a DRAM access may be served: after the refresh slot that its channel is in, of which it waits
for at most one (R114). -/
def afterRefresh (a : Nat) (s : State) : Nat :=
  let pop := getReg Reg.MEM_POP s
  let c := channelOf a pop
  let till := tget (fun _ => 0) s.refresh c
  max (now s) (min till (now s + slotRoot (channelCap c pop)))

/-! ### The external side of a copy (R53, R304, R305, R487) -/

/-- Where a copy's external side lies: at an address of a space, in no slot that a rule gives, or behind an uncorrectable
word. -/
inductive ExtSide where
  | at_ (sp : Space) (a : Nat)
  | nowhere
  | bad
  deriving DecidableEq, Repr

/-- The base of a copy's external side: the slot that a declared input took, or the golden input of a proof frame (R389);
the back slot of a handoff; the job's DRAM base. R487 gives BUF of an EXT_KIND 2 copy as 0 to 15 and no refusal of another;
such a copy has no slot, so what it copies out goes nowhere (DESIGN CHOICE, log entry 150). -/
def extBase (j : Job) (kind buf : Nat) (s : State) : ExtSide × State :=
  match kind with
  | 1 =>
    match j.proof with
    | some k =>
      if 8 ≤ buf then (.nowhere, s)
      else
        let r := readMem .dram (proofBlock k s + 16 + 8 * buf) 8 s
        let a := formAddr (BitVec.ofNat 64 (leNat r.1.bytes))
        (if r.1.bad.isSome then .bad else .at_ a.1 a.2, r.2)
    | none =>
      match j.taken[buf]? with
      | some x => let a := slotPlace x.1 x.2 s; (.at_ a.1 a.2, s)
      | none => (.nowhere, s)
  | 2 =>
    let back := !(getHandoff (fabricKey buf) s).front
    if 16 ≤ buf then (.nowhere, s)
    else if buf < 2 then (.at_ .table ((buf * 2 + back.toNat) * 2 ^ 16), s)
    else let a := slotPlace (fabricKey buf) back s; (.at_ a.1 a.2, s)
  | 3 => (.at_ .dram j.desc.dramBase.toNat, s)
  | 4 => (.at_ .dram j.desc.dramBase.toNat, s)
  | _ => (.nowhere, s)

/-- The address at an offset from a base; a table slot is 64 KiB of the model's table memory. -/
def extAt (sp : Space) (a o : Nat) : Nat := if sp = .table then a + o % 2 ^ 16 else a + o

/-- Whether a copy goes to a handoff output that is skipped because a consumer has locked its back slot (R306). -/
def lockedOut (uid kind buf : Nat) (s : State) : Bool × State := if kind = 2 then decideOut uid buf s else (false, s)

/-! ### The service of copies (R492) -/

/-- The side by which copies share reserved bandwidth: 0 staging store, 1 DRAM region A, 2 region B, 3 another. -/
def sideOf (sp : Space) (a : Nat) (s : State) : Nat :=
  match sp with
  | .stage => 0
  | .dram => if a < regionA (getReg Reg.MEM_POP s) then 1 else 2
  | _ => 3

/-- Root cycles in which the share of `w` columns moves `n` bytes to a side: w × 51.2 GB/s to the staging store, w × 409.6 / 12
to region A, w / 12 of the bandwidth of region B, 17.07 GB/s for each of its channels (R492). -/
def sideRoot (side w n : Nat) (s : State) : Nat :=
  match side with
  | 0 => divUp (3 * n) (32 * w)
  | 1 => divUp (9 * n) (64 * w)
  | 2 =>
    let pop := getReg Reg.MEM_POP s
    divUp (27 * n) (8 * w * max 1 (channelsAbove (capMin pop) pop).length)
  | _ => 0

/-- A flight with the instants before which R492 lets it not be complete: the copies of the partition on its side are served
in the order of their first cycles with the reserved bandwidth, its tile's NoC port moves 38.4 GB/s, and a DRAM side waits for
the refresh slot of its first channel (R114). That it is complete within 0.25 µs + LENGTH / B is left to the command that
completes it (log entry 151). -/
def timeFlight (w : Nat) (sp : Space) (a n : Nat) (others : List Flight) (f : Flight) (s : State) : Flight :=
  let side := sideOf sp a s
  let from_ := if sp = .dram then afterRefresh a s else now s
  let last := fun (xs : List Flight) (g : Flight → Nat) => (xs.map g).foldl max from_
  { f with
    side := side
    tileDone := last (others.filter (fun x => x.tile = f.tile)) (·.tileDone) + divUp n 8
    sideDone := last (others.filter (fun x => x.side = side)) (·.sideDone) + sideRoot side w n s }

/-- The same of a flight of `n` bytes whose other end is no memory of the device, a ring transfer that is sent or has arrived:
its tile's NoC port moves 38.4 GB/s, the copies that the tile's port serves already first (R492). -/
def portFlight (n : Nat) (others : List Flight) (f : Flight) (s : State) : Flight :=
  { f with tileDone := ((others.filter (fun x => x.tile = f.tile)).map (·.tileDone)).foldl max (now s) + divUp n 8 }

/-! ### Plain copies (R101 to R105) -/

/-- A copy's flight, before what it moves. -/
def newFlight (rec inst tile due : Nat) : Flight :=
  { rec_ := rec, inst := inst, tile := tile, pieces := [], dueCycle := due, weight := none, extAddr := 0, side := 3,
    tileDone := 0, sideDone := 0, advance := none, ring := none }

/-- Put a flight on its way. -/
def fly (x : Instance) (f : Flight) (s : State) : State := setRun x.job { x.run with copies := x.run.copies ++ [f] } s

/-- Put a flight of `n` bytes from or to an address on its way. -/
def flyTo (x : Instance) (sp : Space) (a n : Nat) (f : Flight) (s : State) : State :=
  fly x (timeFlight x.job.width sp a n x.run.copies f s) s

/-- The end of a job by an error found in this cycle: its partition stops at the cycle's end (R107). -/
def stopJob (x : Instance) (code : Nat) (s : State) : State :=
  failJob x.job.uid code true (toCycleEnd (setRun x.job x.run s))

/-- Whether the trailer of a weight block agrees with its payload (R104, R105). -/
def weightOk (bytes : List Byte) : Bool :=
  let n := bytes.length - 8
  decide (8 ≤ bytes.length) && decide (crc32c (bytes.take n) = wordAt bytes n) && decide (leAt bytes (n + 4) 4 = n)

/-- The flight of a COPY_IN instance with the bytes that it read. -/
def flightIn (x : Instance) (d : CopyDesc) (rec inst a : Nat) (bytes : List Byte) : Flight :=
  let t := absTile x.job x.rec_.tile
  let payload := if d.weight then bytes.take (bytes.length - 8) else bytes
  { newFlight rec inst t (x.cycle + x.rec_.due) with
    pieces := [.bank t d.bank (d.bankAddr + d.bankStep * inst) payload],
    weight := if d.weight then some (weightOk bytes) else none, extAddr := a }

/-- A plain COPY_IN instance: it reads its source now and lands at its completion. What it reads of an input that its job
does not declare is free: no rule gives that input a slot. -/
def plainIn (x : Instance) (d : CopyDesc) (rec inst : Nat) (s : State) : State :=
  let n := align8 x.rec_.length
  match extBase x.job d.extKind x.rec_.buf s with
  | (.bad, s) => stopJob x Code.eccUncorr s
  | (.nowhere, s) =>
    let f := flightIn x d rec inst 0 ((List.range n).map (undeclaredByte s.freeCtr))
    fly x (portFlight n x.run.copies f s) (useFree s)
  | (.at_ sp b, s) =>
    let a := extAt sp b (d.extAddr + align8 x.rec_.step * inst)
    let r := readMem sp a n s
    if r.1.bad.isSome then stopJob x Code.eccUncorr r.2
    else flyTo x sp a n (flightIn x d rec inst a r.1.bytes) r.2

/-- A plain COPY_OUT or COMMIT instance. R104 describes a WEIGHT copy into a bank only; out of a bank the model moves all
LENGTH bytes and checks no trailer (DESIGN CHOICE, log entry 152). -/
def plainOut (x : Instance) (d : CopyDesc) (rec inst : Nat) (s : State) : State :=
  let n := align8 x.rec_.length
  let t := absTile x.job x.rec_.tile
  let f := newFlight rec inst t (x.cycle + x.rec_.due)
  let r := bankRead t d.bank (d.bankAddr + d.bankStep * inst) n s
  if r.1.bad.isSome then stopJob x Code.eccUncorr r.2
  else
    match extBase x.job d.extKind x.rec_.buf (setRun x.job x.run r.2) with
    | (.at_ sp b, s) =>
      let a := extAt sp b (d.extAddr + align8 x.rec_.step * inst)
      let l := lockedOut x.job.uid d.extKind x.rec_.buf s
      let x := { x with job := (getJob x.job.uid l.2).getD x.job }
      if l.1 then fly x f l.2 else flyTo x sp a n { f with pieces := [.ext sp a r.1.bytes], extAddr := a } l.2
    | (_, s) => fly x (portFlight n x.run.copies f s) s

/-! ### Paged copies (R147 to R153, R493) -/

/-- A page of a table: its base relative to the job's base, its first position, its positions. -/
structure Page where
  base  : Nat
  first : Nat
  n     : Nat
  deriving DecidableEq, Repr

/-- Why a paged copy ends its job. -/
inductive PageStop where
  | ecc
  | invalid
  | fieldZero
  deriving DecidableEq, Repr

/-- Walk a page table from entry `k` until its pages hold position `last`, or it ends: at an entry with VALID 0 or SIZE
above 8, or after its ENTRIES (R148). Each entry read lies inside a boundary record (R493). `fuel` is the entries left. -/
def walkPages (base pt dim last : Nat) (recs : List BoundRec) :
    Nat → Nat → Nat → List Page → State → Except PageStop (List Page) × State
  | 0, _, _, ps, s => (.ok ps, s)
  | fuel + 1, k, pos, ps, s =>
    if last < pos then (.ok ps, s)
    else if !insideOne recs (pt + 32 + 8 * k) 8 then (.error .invalid, s)
    else
      let r := readMem .dram (base + pt + 32 + 8 * k) 8 s
      if r.1.bad.isSome then (.error .ecc, r.2)
      else
        let e := leNat r.1.bytes
        let size := e / 2 ^ 8 % 16
        if e % 2 = 0 ∨ 8 < size then (.ok ps, r.2)
        else
          let n := 4096 * 2 ^ size / (2 * dim)
          walkPages base pt dim last recs fuel (k + 1) (pos + n) (ps ++ [⟨e / 2 ^ 12 * 2 ^ 12, pos, n⟩]) r.2

/-- The row of a position, relative to the job's base. -/
def rowOf (ps : List Page) (values : Bool) (dim p : Nat) : Option Nat :=
  (ps.find? (fun g => decide (g.first ≤ p) && decide (p < g.first + g.n))).map (fun g =>
    g.base + ((if values then g.n else 0) + (p - g.first)) * dim)

/-- HEAD_DIM and KV_LEN of the page table of a paged copy, which it reads once in the job, at its first instance of non-zero
LENGTH: from the run, or from the header now. R151 says so of D and e; that KV_LEN is read with them and kept for the job is
log entry 197 (DESIGN CHOICE). A copy is told by its tile and its descriptor's place. -/
def tableOf (r : Run) (tile offset a : Nat) (s : State) : Except PageStop (Nat × Nat × Run) × State :=
  match r.tables.find? (fun t => t.1 = tile && t.2.1 = offset) with
  | some t => (.ok (t.2.2.1, t.2.2.2, r), s)
  | none =>
    let x := readMem .dram a 32 s
    let b := x.1.bytes
    let dim := leAt b 8 2
    if x.1.bad.isSome then (.error .ecc, x.2)
    else if dim = 0 then (.error .fieldZero, x.2)
    else if !((byteAt b 6 = 3 || byteAt b 6 = 4) && (dim = 32 || dim = 64 || dim = 128)) then (.error .invalid, x.2)
    else (.ok (dim, leAt b 0 4, { r with tables := r.tables ++ [(tile, offset, dim, leAt b 0 4)] }), x.2)

/-- L of R152: KV_LEN and the positions that ADVANCE copies of the job have written. -/
def lengthOf (r : Run) (a kvLen : Nat) : Nat :=
  kvLen + ((r.grown.filter (fun g => g.1 = a)).map (fun g => g.2.1)).sum

/-- End the job of a paged copy at the end of this cycle: an error in the manner of R107, or FIELD_ZERO and given up at once
(R151, R493). -/
def stopPaged (x : Instance) (e : PageStop) (s : State) : State :=
  match e with
  | .ecc => stopJob x Code.eccUncorr s
  | .invalid => stopJob x Code.invalid s
  | .fieldZero => abandonJob x.job.uid Code.fieldZero (toCycleEnd (setRun x.job x.run s))

/-- The boundary records that check a paged copy (R493). -/
def pageBounds (r : Run) (kind : Nat) : List BoundRec := r.image.bounds.filter (fun b => b.kind = kind)

/-- Read the rows of a paged COPY_IN into pieces for the bank, up to the first uncorrectable word. -/
def readRows (tile bank base dim : Nat) : List (Nat × Nat) → List Piece → State → Option (List Piece) × State
  | [], ps, s => (some ps, s)
  | p :: rows, ps, s =>
    let r := readMem .dram (base + p.2) dim s
    if r.1.bad.isSome then (none, r.2)
    else readRows tile bank base dim rows (ps ++ [.bank tile 1 (bank + p.1 * dim) r.1.bytes]) r.2

/-- What a paged copy instance moves, when its table and rows allow it: its flight (R150 to R153, R493). `rows` are the row
indices in the bank with their places relative to the job's base. -/
def flyPaged (x : Instance) (d : PagedDesc) (out : Bool) (inst dim n last : Nat) (rows : List (Nat × Nat)) (f : Flight)
    (s : State) : State :=
  let base := x.job.desc.dramBase.toNat
  let bank := d.bankAddr + d.bankStep * inst
  let from_ := base + (rows.head?).elim d.ptAddr (·.2)
  if out then
    let r := bankRead f.tile 1 bank (n * dim) s
    if r.1.bad.isSome then stopPaged x .ecc r.2
    else flyTo x .dram from_ (n * dim) { f with
      pieces := rows.map (fun p => .ext .dram (base + p.2) (slice r.1.bytes (p.1 * dim) dim)),
      advance := if d.adv then some (base + d.ptAddr, n, last + 1) else none } r.2
  else
    match readRows f.tile bank base dim rows [] s with
    | (none, s) => stopPaged x .ecc s
    | (some ps, s) => flyTo x .dram from_ (rows.length * dim) { f with pieces := ps } s

/-- A paged copy instance (R150 to R153, R493); `offset` is its descriptor's place in the program. -/
def pagedCopy (x : Instance) (d : PagedDesc) (offset : Nat) (out : Bool) (rec inst : Nat) (s : State) : State :=
  let base := x.job.desc.dramBase.toNat
  let pt := base + d.ptAddr
  match tableOf x.run x.rec_.tile offset pt s with
  | (.error e, s) => stopPaged x e s
  | (.ok (dim, kvLen, run), s) =>
    let x := { x with run := run }
    let f := newFlight rec inst (absTile x.job x.rec_.tile) (x.cycle + x.rec_.due)
    let len := lengthOf run pt kvLen
    let n := align8 x.rec_.length / dim
    let p0 := d.pos0 + inst * x.rec_.step + (if d.tail then len else 0)
    let ps := (List.range n).map (fun i => (i, p0 + i))
    let ps := if out then ps else ps.filter (fun p => p.2 < len)
    let recs := pageBounds run d.extKind
    match ps.getLast? with
    | none => fly x f s
    | some last =>
      let head := readMem .dram (pt + 4) 2 s
      if head.1.bad.isSome then stopPaged x .ecc head.2
      else
        match walkPages base d.ptAddr dim last.2 recs (leNat head.1.bytes) 0 0 [] head.2 with
        | (.error e, s) => stopPaged x e s
        | (.ok pages, s) =>
          let rows := ps.filterMap (fun p => (rowOf pages d.values dim p.2).map (fun a => (p.1, a)))
          if (out && rows.length ≠ ps.length) || !rows.all (fun r => insideOne recs r.2 dim) then stopPaged x .invalid s
          else flyPaged x d out inst dim n last.2 rows f s

/-! ### Ring transfers (R355 to R358) -/

/-- The key of a (PEER, CHANNEL) pair. -/
def pairKey (peer channel : Nat) : Nat := peer * 64 + channel

/-- The k of R356 for the next instance on a pair, by a run's counts. -/
def nextK (t : Tab Nat) (k : Nat) : Nat := tget (fun _ => 0) t k

/-- Whether a job holds the port of a transfer. An image that software wrote over a registered one may name another, and R58
guarantees the ports. -/
def holdsPort (j : Job) (d : TransferDesc) : Bool := if d.west then j.ports.2 else j.ports.1

/-- A receiving instance: READY goes toward the peer, and the transfer is awaited. -/
def ringIn (x : Instance) (d : TransferDesc) (rec inst : Nat) (s : State) : State :=
  if regFld Reg.RNG_STAT 15 12 s ≤ d.peer then stopJob x Code.invalid s
  else
    let key := pairKey d.peer d.channel
    let k := nextK x.run.rxCount key
    let run := { x.run with rxCount := tset (fun _ => 0) key (k + 1) x.run.rxCount }
    let f := newFlight rec inst (absTile x.job x.rec_.tile) (x.cycle + x.rec_.due)
    sendControl d.west.toNat (.ready d.peer d.channel k)
      (fly { x with run := run } { f with ring := some (d.peer, d.channel, k, false) } s)

/-- The bytes that a sending instance carries. -/
def ringSource (x : Instance) (d : TransferDesc) (inst : Nat) (s : State) : ReadResult × State :=
  bankRead (absTile x.job x.rec_.tile) d.bank (d.bankAddr + d.bankStep * inst) (align8 x.rec_.length) s

/-- A sending instance: it transmits now when its READY has arrived, else when that arrives. -/
def ringOut (x : Instance) (d : TransferDesc) (rec inst : Nat) (s : State) : State :=
  let key := pairKey d.peer d.channel
  let k := nextK x.run.txCount key
  let x := { x with run := { x.run with txCount := tset (fun _ => 0) key (k + 1) x.run.txCount } }
  let f := newFlight rec inst (absTile x.job x.rec_.tile) (x.cycle + x.rec_.due)
  if k < tget (fun _ => 0) x.run.readyGot key then
    let r := ringSource x d inst s
    if r.1.bad.isSome then stopJob x Code.eccUncorr r.2
    else sendTransfer d.west.toNat d.peer d.channel k r.1.bytes
      (fly x (portFlight (align8 x.rec_.length) x.run.copies { f with ring := some (d.peer, d.channel, k, true) } r.2) r.2)
  else fly x { f with ring := some (d.peer, d.channel, k, false) } s

/-! ### Operators (R126, R137, R142, R151, R159) -/

/-- The instant of a cycle of a run, and the state at it. -/
def atCycle (r : Run) (c : Nat) (s : State) : State := runTo (cycleAt r c s) s

/-- Write words that came by routes through the landing buffers (R34, R95): each is written in the fabric cycle before the one
at which it is available. -/
def landWords (r : Run) (ws : List WordFlight) (s : State) : State :=
  ws.foldl (fun s w => bankWrite (cycleBefore (cycleAt r w.cycle s) s) Port.landing w.tile w.bank w.addr w.data s) s

/-- Land the words of a run that are available at cycle `c` (R34). -/
def landDue (j : Job) (r : Run) (c : Nat) (s : State) : Run × State :=
  let due := r.words.filter (fun w => decide (w.cycle ≤ c))
  if due = [] then (r, s)
  else
    let r' := { r with words := r.words.filter (fun w => !decide (w.cycle ≤ c)) }
    (r', landWords r due (setRun j r' s))

/-- The operator that ends first of those that satisfy a condition. -/
def firstOp (os : List OpFlight) (p : OpFlight → Bool) : Option OpFlight :=
  (os.filter p).foldl (fun b o => match b with
    | none => some o
    | some x => if o.endCycle < x.endCycle then some o else some x) none

/-- Write what an operator gives, in its last fabric cycle. -/
def putResults (c port tile : Nat) (ps : List (Nat × List Byte)) (s : State) : State :=
  ps.foldl (fun s p => bankWrite c port tile 1 p.1 p.2 s) s

/-- The result of an operator whose descriptor, record and tile record are known: what it read is checked, what it gives
stands in the banks, its saturation events are counted, and an error ends the job (R107, R136, R137). -/
def applyOp (j : Job) (r : Run) (o : OpFlight) (d : Desc) (x : SchedRec) (t : TileRec) (s : State) : State :=
  let ot : OpTile := ⟨absTile j o.tile, t.arrayFmt, truncOf t.arithCtl⟩
  let vs := ((r.visible.find? (fun v => v.1 = o.rec_)).map (·.2)).getD []
  let c := cycleBefore (now s) s
  let view := bankView c s
  let e := if s.marks = [] then (false, s) else checkReads ot.tile (opReads d ot o.inst x.step vs view) s
  if e.1 then failJob j.uid Code.eccUncorr true (setRun j r e.2)
  else
    let res := runOp d ot o.inst x.step vs (decide (o.inst + 1 = x.repeat_)) view
    let s := setRun j { r with sat := r.sat + res.sat } (putResults c (opPort d) ot.tile res.puts e.2)
    match res.fail with
    | some code => failJob j.uid code true s
    | none => s

/-- An operator of a partition ends after its duration (R137). -/
def endOp (j : Job) (r : Run) (o : OpFlight) (s : State) : State :=
  let s := atCycle r o.endCycle s
  let w := landDue j { r with ops := r.ops.erase o } o.endCycle s
  match r.image.sched[o.rec_]?, tileRec r.image o.tile with
  | some x, some t => (descOf r.image x).elim (setRun j w.1 w.2) (fun d => applyOp j w.1 o d x t w.2)
  | _, _ => setRun j w.1 w.2

/-- The operator of a tile ends (R137). -/
def endStage (col tile : Nat) (s : State) : State :=
  match runAt col s with
  | none => s
  | some (j, r) =>
    match firstOp r.ops (fun o => o.tile = tile) with
    | none => s
    | some o => if heldBefore r o.endCycle then s else endOp j r o s

/-- STAGE_END (R137). -/
def execStageEnd (col : Fin 12) (tile : Nat) (s : State) : Host.Outcome State Fault Refusal :=
  .next (endStage col.val tile s)

/-! ### What must stand before an instance begins -/

/-- End the operators of a partition whose duration is over at cycle `c`, the earliest first. -/
def endDue (col c : Nat) : Nat → State → State
  | 0, s => s
  | fuel + 1, s =>
    match runAt col s with
    | none => s
    | some (j, r) =>
      match firstOp r.ops (fun o => decide (o.endCycle ≤ c)) with
      | none => s
      | some o => endDue col c fuel (endOp j r o s)

/-- Let everything of a partition be done that is done at cycle `c`: operators have ended (R137) and words have come (R34),
whether or not the commands that say so have been given. -/
def settle (col c : Nat) (s : State) : State :=
  match runAt col s with
  | none => s
  | some (_, r) =>
    let s := endDue col c r.ops.length s
    match runAt col s with
    | none => s
    | some (j, r) => (landDue j r c s).2

/-- Begin an instance at its cycle with what stands then. -/
def beginAt (act col rec inst : Nat) (f : Instance → State → State) (s : State) : State :=
  match instanceOf act col rec inst s with
  | none => s
  | some x =>
    let s := settle col x.cycle (atCycle x.run x.cycle s)
    (instanceOf act col rec inst s).elim s (fun x => f x s)

/-! ### COPY_IN, COPY_OUT, COMMIT -/

/-- A copy instance; one of LENGTH 0 moves nothing and is complete at its own cycle (R52). -/
def beginCopy (out : Bool) (rec inst : Nat) (x : Instance) (s : State) : State :=
  match descOf x.run.image x.rec_ with
  | none => setRun x.job x.run s
  | some d =>
    if align8 x.rec_.length = 0 then setRun x.job x.run s
    else if d.dtype = 2 then pagedCopy x (parsePaged d) d.offset out rec inst s
    else if d.dtype = 3 then
      let t := parseTransfer d
      if !holdsPort x.job t then setRun x.job x.run s
      else if out then ringOut x t rec inst s else ringIn x t rec inst s
    else if out then plainOut x (parseCopy d) rec inst s
    else plainIn x (parseCopy d) rec inst s

/-- COPY_IN (R492). -/
def execCopyIn (col : Fin 12) (rec inst : Nat) (s : State) : Host.Outcome State Fault Refusal :=
  .next (beginAt 1 col.val rec inst (beginCopy false rec inst) s)

/-- COPY_OUT (R492). -/
def execCopyOut (col : Fin 12) (rec inst : Nat) (s : State) : Host.Outcome State Fault Refusal :=
  .next (beginAt 2 col.val rec inst (beginCopy true rec inst) s)

/-- COMMIT (R100): it writes into the back slot; the slots flip at the job's normal end. -/
def execCommit (col : Fin 12) (rec inst : Nat) (s : State) : Host.Outcome State Fault Refusal :=
  .next (beginAt 5 col.val rec inst (beginCopy true rec inst) s)

/-! ### SEND and delivery (R34, R487, R488) -/

/-- The words of a SEND instance: word k leaves at cycle c + ⌊k / WIDTH⌋ and is available L cycles later. -/
def sendWords (x : Instance) (r : RouteRec) (dst : CopyDesc) (inst : Nat) (bytes : List Byte) : List WordFlight :=
  (List.range (bytes.length / 8)).map (fun k =>
    { tile := absTile x.job r.dstTile, bank := dst.bank, addr := dst.bankAddr + align8 x.rec_.step * inst + 8 * k,
      data := slice bytes (8 * k) 8, cycle := x.cycle + k / r.width + r.latency })

/-- A SEND instance reads its source buffer and puts its words on the route. -/
def beginSend (inst : Nat) (x : Instance) (s : State) : State :=
  let im := x.run.image
  match (routesOf im x.rec_).head? with
  | none => setRun x.job x.run s
  | some r =>
    match bufferOf im r.srcTile r.srcBuf, bufferOf im r.dstTile r.dstBuf with
    | some src, some dst =>
      if 8 * x.job.width ≤ r.dstTile then setRun x.job x.run s
      else
        let b := bankRead (absTile x.job r.srcTile) src.bank (src.bankAddr + src.bankStep * inst) (align8 x.rec_.length) s
        if b.1.bad.isSome then stopJob x Code.eccUncorr b.2
        else setRun x.job { x.run with words := x.run.words ++ sendWords x r dst inst b.1.bytes } b.2
    | _, _ => setRun x.job x.run s

/-- SEND (R488). -/
def execSend (col : Fin 12) (rec inst : Nat) (s : State) : Host.Outcome State Fault Refusal :=
  .next (beginAt 3 col.val rec inst (beginSend inst) s)

/-- The word that is available first. -/
def firstWord (ws : List WordFlight) : Option WordFlight :=
  ws.foldl (fun b w => match b with
    | none => some w
    | some x => if w.cycle < x.cycle then some w else some x) none

/-- Deliver the earliest word in flight of a partition at its cycle (R34). -/
def deliverWord (col : Nat) (s : State) : State :=
  match runAt col s with
  | none => s
  | some (j, r) =>
    match firstWord r.words with
    | none => s
    | some w =>
      if heldBefore r w.cycle then s
      else landWords r [w] (setRun j { r with words := r.words.erase w } (atCycle r w.cycle s))

/-- ROUTE_DELIVERY (R34). -/
def execRouteDelivery (col : Fin 12) (s : State) : Host.Outcome State Fault Refusal := .next (deliverWord col.val s)

/-! ### STAGE_START -/

/-- The headers of an attention's heads as instance 0 reads them: their visible lengths, or what ends the job (R142,
R151). -/
def attHeaders (a : AttDesc) (tile : Nat) (s : State) : Except Nat (List Nat) × State :=
  let r := bankRead tile 1 a.hdrAddr (32 * a.heads) s
  if r.1.bad.isSome then (.error Code.eccUncorr, r.2)
  else
    let hs := (List.range a.heads).map (fun h => slice r.1.bytes (32 * h) 32)
    let vs := hs.map (fun b => leAt b 0 4 + (if a.plusQ then a.qLen else 0))
    if hs.any (fun b => leAt b 8 2 ≠ a.dim || byteAt b 6 ≠ a.kvFmt) || (a.causal && vs.any (fun v => v < a.qLen))
    then (.error Code.invalid, r.2) else (.ok vs, r.2)

/-- A STAGE_START instance. The operators of a tile run one at a time, in schedule order ("Throughput"). Headers are read at
the STAGE_START itself, also where the operator then waits for one that runs (DESIGN CHOICE, log entry 195). -/
def beginStage (rec inst : Nat) (x : Instance) (s : State) : State :=
  match descOf x.run.image x.rec_, tileRec x.run.image x.rec_.tile with
  | some d, some t =>
    let last := decide (inst + 1 = x.rec_.repeat_)
    let free := ((x.run.ops.filter (fun o => o.tile = x.rec_.tile)).map (·.endCycle)).foldl max x.cycle
    let op : OpFlight := { tile := x.rec_.tile, rec_ := rec, inst := inst, endCycle := free + opCycles d t.arrayFmt inst last }
    let run := { x.run with ops := x.run.ops ++ [op] }
    if d.dtype = 0x20 && decide (inst = 0) then
      match attHeaders (parseAtt d) (absTile x.job x.rec_.tile) s with
      | (.error c, s) => stopJob x c s
      | (.ok vs, s) => setRun x.job { run with visible := run.visible ++ [(rec, vs)] } s
    else setRun x.job run s
  | _, _ => setRun x.job x.run s

/-- STAGE_START (R126, R141). -/
def execStageStart (col : Fin 12) (rec inst : Nat) (s : State) : Host.Outcome State Fault Refusal :=
  .next (beginAt 4 col.val rec inst (beginStage rec inst) s)

/-! ### Completion and holds (R36, R105, R153) -/

/-- Land one piece of a copy: in a bank by the copy engine, in the fabric cycle that ends now or the present one (R95). -/
def landPiece (p : Piece) (s : State) : State :=
  match p with
  | .bank t b a bs => bankWrite (cycleBefore (now s) s) Port.copy t b a bs s
  | .ext sp a bs => wrBytes sp a bs s

/-- Take a completed copy out of the run. When the partition was held for it and no other overdue copy keeps it held, the
fabric cycles held are added to the stall counter of its first column (R36). -/
def takeFlight (j : Job) (r : Run) (f : Flight) (s : State) : Run × State :=
  let rest := r.copies.erase f
  let stop := (firstDue r.copies).getD f.dueCycle
  let n := heldCycles r s
  let r := { r with copies := rest }
  if n = 0 ∨ rest.any (fun x => decide (x.dueCycle ≤ stop)) = true then (r, s)
  else
    ({ r with heldTot := r.heldTot + n * fcRoot s, heldFrom := none }, bumpReg (Reg.FAB_COLn_STALL j.desc.baseCol) n s)

/-- A copy of a run completes with its flits good: it has landed or left, an ADVANCE copy counts its positions (R153), and a
weight block that fails its CRC ends the job (R105, R485). R105 does not say whether such a block's payload lands; it streams
into the bank before its trailer comes, and the model lands it (DESIGN CHOICE, log entry 153). -/
def landFlight (j : Job) (r : Run) (f : Flight) (s : State) : State :=
  let t := takeFlight j r f (f.pieces.foldl (fun s p => landPiece p s) s)
  let s := setRun j { t.1 with grown := t.1.grown ++ f.advance.toList } t.2
  if f.weight = some false then
    let s := captureErr Code.crcWeight 0 f.tile f.extAddr (bumpReg Reg.MEM_CRCW_COUNT 1 s)
    failJob j.uid Code.crcWeight true (runTo (fabricEdge (now s) s) s)
  else s

/-- A copy meets an uncorrectable NoC flit: it lands nothing, and its job ends (R106, R107). -/
def loseFlight (j : Job) (s : State) : State :=
  let s := flitError s
  failJob j.uid Code.eccUncorr true (runTo (fabricEdge (now s) s) s)

/-- A copy instance is complete, no earlier than its share of the NoC and of its side allows (R492). A ring transfer completes
only once it was sent or has arrived. -/
def completeCopy (col rec inst nocFixed : Nat) (nocBad : Bool) (s : State) : State :=
  match runAt col s with
  | none => s
  | some (j, r) =>
    match r.copies.find? (fun f => f.rec_ = rec && f.inst = inst) with
    | none => s
    | some f =>
      if f.ring.elim false (fun x => !x.2.2.2) then s
      else
        let s := bumpReg Reg.MEM_CE_COUNT nocFixed (runTo (max f.tileDone f.sideDone) s)
        if nocBad then loseFlight j s else landFlight j r f s

/-- COPY_COMPLETE (R492). -/
def execCopyComplete (col : Fin 12) (rec : Nat) (copy : CopyEnd) (s : State) : Host.Outcome State Fault Refusal :=
  .next (completeCopy col.val rec copy.inst copy.nocFixed copy.nocBad s)

/-- A copy that is not complete at its due offset holds the partition (R36). -/
def copyDueNow (col rec inst : Nat) (s : State) : State :=
  match runAt col s with
  | none => s
  | some (j, r) =>
    match r.copies.find? (fun f => f.rec_ = rec && f.inst = inst) with
    | none => s
    | some f =>
      let s := runTo (cycleAt r ((firstDue r.copies).getD f.dueCycle) s) s
      if r.heldFrom.isSome ∨ now s < cycleAt r f.dueCycle s then s else setRun j { r with heldFrom := some (now s) } s

/-- COPY_DUE (R36). -/
def execCopyDue (col : Fin 12) (rec inst : Nat) (s : State) : Host.Outcome State Fault Refusal :=
  .next (copyDueNow col.val rec inst s)

/-! ### The end of a job (R37) -/

/-- Whether every instance whose cycle lies in the schedule has begun. -/
def allBegun (r : Run) : Bool :=
  (r.image.sched.zipIdx).all (fun p => (List.range p.1.repeat_).all (fun i =>
    decide (r.image.hdr.schedLen ≤ p.1.first + i * p.1.period) || decide ((p.2, i) ∈ r.begun)))

/-- Whether a COPY_OUT or COMMIT is in flight. -/
def outInFlight (r : Run) : Bool :=
  r.copies.any (fun f => (r.image.sched[f.rec_]?).elim false (fun x => x.action ≠ 1))

/-- The state records that a job saves: none for a proof frame (R389). -/
def savedStates (j : Job) (r : Run) : List StateRec := if j.proof.isSome then [] else ownStates r.image j.width

/-- Whether a job's last cycle may come: every instance has begun, every COPY_OUT and COMMIT is complete, and nothing holds the
counter before the schedule length (R37). -/
def canEnd (r : Run) : Bool := allBegun r && !outInFlight r && !heldBefore r r.image.hdr.schedLen

/-- The job of a partition whose last cycle may come. -/
def endingAt (col : Nat) (s : State) : Option (Job × Run) :=
  (s.disp.jobs.filterMap (fun j => if j.held && decide (j.desc.baseCol = col) && decide (j.stage = .running)
    then j.run.map (fun r => (j, r)) else none)).find? (fun x => canEnd x.2)

/-- The state save starts at the end of the job's last cycle, of S / 38.4 GB/s (R37, R66). -/
def startSave (j : Job) (r : Run) (s : State) : State :=
  let last := fabricEdge (now s + 1) s
  setJob { j with stage := .saving, endAt := last,
                  run := some { r with saveAt := fabricEdge (last + divUp ((savedStates j r).map (·.len)).sum 8) s } } s

/-- The job's last cycle: the counter has reached the schedule length and every COPY_OUT and COMMIT is complete (R37). -/
def lastCycle (col : Nat) (s : State) : State :=
  match endingAt col s with
  | none => s
  | some (j, r) =>
    let s := atCycle r r.image.hdr.schedLen s
    let s := if j.width = 0 then s else settle col r.image.hdr.schedLen s
    match getJob j.uid s with
    | some j => if j.stage = .running then j.run.elim s (fun r => startSave j r s) else s
    | none => s

/-- JOB_LAST_CYCLE (R37). -/
def execJobLastCycle (col : Fin 12) (s : State) : Host.Outcome State Fault Refusal := .next (lastCycle col.val s)

/-- The offset of a word of a bank, by its key, within a record that begins at `base`. -/
def wordOffset (bank base key : Nat) : Nat :=
  let size := bankSize bank
  (key % size + size - base / 8 * 8 % size) % size

/-- Save state records to the other generation, in order, `n` bytes having gone before: an uncorrectable word ends the save,
and the words before it are written (R37). The bytes that had streamed with that word, or none when the save is good. -/
def saveState (base col : Nat) (flit : Option Nat) : List StateRec → Nat → State → Option Nat × State
  | [], _, s => (none, s)
  | r :: rs, n, s =>
    let hit := flit.filter (fun f => f < n + r.len)
    let x := bankRead (8 * col + r.tile) r.bank r.base (hit.elim r.len (· - n)) s
    match x.1.bad with
    | some b =>
      let o := wordOffset r.bank r.base b
      (some (n + min r.len (o + 8)), wrBytes .dram (base + r.save) (x.1.bytes.take (o - r.base % 8)) x.2)
    | none =>
      let s := wrBytes .dram (base + r.save) x.1.bytes x.2
      match hit with
      | some f => (some (f + 8), flitError s)
      | none => saveState base col flit rs (n + r.len) s

/-- Save the state and release the partition once its last state word has left the banks; a save that meets an
uncorrectable word or flit finds it when the word streams, and fails the job at the end of that cycle (R37, R107, R109). -/
def saveAndRelease (j : Job) (s : State) : State :=
  match j.run with
  | none => s
  | some r =>
    let save := saveState (saveBase j) j.desc.baseCol s.flits.bad (savedStates j r) 0
    let s := flitsMet s
    match (save s).1 with
    | some n =>
      let s := (save (runTo (j.endAt + divUp n 8) s)).2
      failJob j.uid Code.eccUncorr true (runTo (fabricEdge (now s) s) s)
    | none => releasePartition j (runTo r.saveAt (save s).2)

/-- The job whose state is being saved in a partition: one that still holds it first. -/
def savingAt (col : Nat) (s : State) : Option Job :=
  let js := s.disp.jobs.filter (fun j => j.stage = .saving && j.desc.baseCol = col)
  (js.find? (·.held)).or js.head?

/-- PARTITION_RELEASE (R37). -/
def partitionRelease (col : Nat) (s : State) : State :=
  match savingAt col s with
  | some j => if j.held then saveAndRelease j s else s
  | none => s

/-- PARTITION_RELEASE (R37). -/
def execPartitionRelease (col : Fin 12) (s : State) : Host.Outcome State Fault Refusal := .next (partitionRelease col.val s)

/-- JOB_END (R37): the partition is released at the latest now, and the job ends normally. -/
def jobEnd (col : Nat) (s : State) : State :=
  match savingAt col s with
  | none => s
  | some j =>
    let s := partitionRelease col s
    match getJob j.uid s with
    | none => s
    | some x => if x.stage = .saving then endNormally x.uid (runTo (x.run.elim 0 (·.saveAt)) s) else s

/-- JOB_END (R37). -/
def execJobEnd (col : Fin 12) (s : State) : Host.Outcome State Fault Refusal := .next (jobEnd col.val s)

end Sys2Proof.Machine
end

