-- ==== Sys2Proof/Machine/Memory.lean ====
section
/-! DEFINITION. The memory controller: refresh and patrol scrub (R114), the host window (R115), and the end of memory
training (R111 to R113, R445, R484). -/

namespace Sys2Proof.Machine

open Sys2Proof.Config

/-! ### Training (R111, R445, R484) -/

/-- Whether a population meets R111: every channel populated, one capacity of 1 to 3 GiB in each group, at most 64 GiB. -/
def populationOk (caps : List Nat) : Bool :=
  decide (caps.length = 24) && caps.all (fun c => decide (1 ≤ c) && decide (c ≤ 3)) && decide (caps.sum ≤ 64) &&
    (List.range 24).all (fun c => caps.getD c 0 = caps.getD (c / 8 * 8) 0)

/-- Memory training ends (R445): a good population is shown and memory is on, one that breaks R111 is refused and the
memory groups stay off. -/
def trainMemory (caps : List Nat) (s : State) : State :=
  match s.pwr.trainAt with
  | none => s
  | some t =>
    let s := runTo t { s with pwr := { s.pwr with trainAt := none } }
    if populationOk caps then
      let pop := word (2 ^ 31 + caps.getD 16 0 * 2 ^ 8 + caps.getD 8 0 * 2 ^ 4 + caps.getD 0 0)
      let a := regionA pop
      let total := dataCapacity pop
      let s := setReg Reg.MEM_POP pop s
      let s := setReg Reg.MEM_USABLE (word (total / 2 ^ 20)) s
      let s := setReg Reg.MEM_REGION_B (word (if total = a then 0 else a / 2 ^ 20)) s
      let s := orReg Reg.CLK_EXT_STAT 0x200 s
      setRegFld Reg.PWR_BOOT_STAT 31 28 6 s
    else
      let s := setRegFld Reg.PWR_BOOT_STAT 31 28 7 s
      let s := setRegFld Reg.PWR_DOM_STAT0 23 21 0 (setRegFld Reg.CLK_GATE 15 13 0 s)
      raise Src.memory .memFail Code.ok [] s

/-- MEM_TRAINING_COMPLETE (R445). -/
def execMemTrainingComplete (caps : List Nat) (s : State) : Host.Outcome State Fault Refusal :=
  .next (trainMemory caps s)

/-! ### Refresh and scrub (R114) -/

/-- The data address of granule `k` of a channel (R113): interleaved over 24 channels in region A; in region B row by row
over the channels that still have a granule there, in ascending order. Where the larger groups have unequal capacities, R113
does not say what follows once one of them is used up; the model goes on with the channels that are left (DESIGN CHOICE, log
entry 149). -/
def granuleAddr (c k : Nat) (pop : Word) : Nat :=
  let a := granules (capMin pop)
  if k < a then (24 * k + c) * 512
  else
    let row := k - a
    let before := ((List.range 24).map (fun d => min row (granules (channelCap d pop) - a))).sum
    let left := ((List.range c).filter (fun d => decide (k < granules (channelCap d pop)))).length
    regionA pop + 512 * (before + left)

/-- The first start of a refresh of a channel after the present instant, in root cycles: offset c × tREFI / 24 in each
interval of 3.904 µs, or 1.952 µs for a hot channel, counted from root cycle 0 (DESIGN CHOICE, log entry 24). -/
def refreshAt (c : Nat) (s : State) : Nat :=
  let per := if regBit Reg.MEM_REF_STAT c s then 93696 else 187392
  let off := c * per / 24
  let n := if 10 * now s < off then 0 else (10 * now s - off) / per + 1
  divUp (off + n * per) 10

/-- Show in MEM_REF_STAT whether a channel refreshes at 1.952 µs: its MR4 readout is above 85 °C ("Refresh and scrub"). -/
def showHot (c : Nat) (hot : Bool) (s : State) : State := modReg Reg.MEM_REF_STAT (fun w => setBit w c hot) s

/-- The words whose stored code words have come to hold an error; a word that held one keeps the worse. Nothing in the manual
says when an upset comes about, and the model lets REFRESH, which goes on all the time, bring it (DESIGN CHOICE, log entry
154). -/
def upset (ms : List EccMark) (s : State) : State :=
  ms.foldl (fun s m =>
    if m ∈ s.marks ∨ { m with double := true } ∈ s.marks then s
    else { s with marks := s.marks.filter (fun x => x ≠ { m with double := false }) ++ [m] }) s

/-- The patrol scrub of a channel's refresh slot: it reads one granule and writes back its corrected words; uncorrectable ones
are counted and captured (R106, R108, R114). The manual gives one granule a slot and no order; the model goes upward from
granule 0 and begins again after the last (DESIGN CHOICE, log entry 155). -/
def scrubNext (c : Nat) (s : State) : State :=
  let pop := getReg Reg.MEM_POP s
  let k := tget (fun _ => 0) s.scrub c
  let a := granuleAddr c k pop
  let s := { s with scrub := tset (fun _ => 0) c ((k + 1) % max 1 (granules (channelCap c pop))) s.scrub }
  if s.marks = [] then s
  else
    let s := (readAll .dram a 512 s).2
    { s with marks := s.marks.filter (fun m =>
        !(decide (m.space = .dram) && !m.double && decide (a ≤ 8 * m.word) && decide (8 * m.word < a + 512))) }

/-- A refresh slot of a channel (R114): it begins at the channel's next start, lasts tRFCab + 40 ns, and scrubs one granule;
the MR4 readout taken with it sets the interval that follows. -/
def refreshChannel (c : Nat) (hot : Bool) (s : State) : State :=
  let pop := getReg Reg.MEM_POP s
  if !bit pop 31 then s
  else
    let s := runTo (refreshAt c s) s
    let s := { s with refresh := tset (fun _ => 0) c (now s + slotRoot (channelCap c pop)) s.refresh }
    showHot c hot (scrubNext c s)

/-- REFRESH (R114). -/
def execRefresh (slot : RefreshSlot) (s : State) : Host.Outcome State Fault Refusal :=
  .next (refreshChannel slot.channel.val slot.hot { upset slot.upsets s with flits := slot.flits })

/-! ### The host window (R115) -/

/-- What a window byte shows: a space and key, or nothing; with whether its logical column is held. -/
inductive WinTarget where
  | at_ (sp : Space) (a : Nat)
  | held
  | unmapped
  deriving DecidableEq, Repr

/-- The target of window byte `off` under MEM_WIN_PAGE (R115). -/
def winTarget (off : Nat) (s : State) : WinTarget :=
  let page := regFld Reg.MEM_WIN_PAGE 7 0 s
  if page = 0 then if off < 2 ^ 23 then .at_ .stage off else .unmapped
  else if 96 < page ∨ 8 * enabledCols s ≤ page - 1 then .unmapped
  else if 2 ^ 20 + 2 ^ 18 ≤ off then .unmapped
  else if colHeld ((page - 1) / 8) s then .held
  else .at_ .bank ((page - 1) * 2 ^ 21 + off)

/-- A write of the window into a space: into a bank it is the host window's port's (R95). -/
def windowStore (sp : Space) (k : Nat) (v : Word) (s : State) : State :=
  match sp with
  | .bank => bankPutWord (fabricCycle (now s) s) Port.window k (wordBytes v) (forgetWrites (fabricCycle (now s) s) s)
  | _ => wrBytes sp k (wordBytes v) s

/-- The bytes of a window read: of a bank, as the present fabric cycle serves it (R96). -/
def windowBytes (sp : Space) (k : Nat) (s : State) : List Byte :=
  match sp with
  | .bank => (List.range 4).map (fun i => bankByteAt (fabricCycle (now s) s) (k + i) s)
  | _ => rdBytes sp k 4 s

/-- An access to the window (R115): a read puts its value in `pcieData`, a write is a read-modify-write of the 64-bit word;
a held column and an unmapped byte read as 0, discard writes and set their bits; an uncorrectable read is 0. An access that is
not 32 bits wide at a multiple of 4 reads 0 and is discarded (R3). -/
def windowAccess (off : Nat) (w : Width) (value : Option Word) (s : State) : State :=
  let zero := fun s : State => if value.isNone then { s with pcieData := 0 } else s
  if w ≠ .w32 ∨ off % 4 ≠ 0 then zero s
  else
  match winTarget off s with
  | .unmapped => zero (orReg Reg.MEM_WIN_STAT 1 s)
  | .held => zero (orReg Reg.MEM_WIN_STAT 2 s)
  | .at_ sp k =>
    match value with
    | none =>
      let r := readMem sp k 4 s
      { r.2 with pcieData := if r.1.bad.isSome then 0 else word (leNat (windowBytes sp k s)) }
    | some v =>
      windowStore sp k v (readMem sp (k / 8 * 8) 8 s).2

/-- WINDOW_ACCESS (R115): the window is open only in a maintenance session. -/
def execWindowAccess (off : BitVec 24) (access : WindowOp) (s : State) : Host.Outcome State Fault Refusal :=
  .next (
    let o := 0x1000000 + off.toNat
    let s := if access.value.isNone && s.sess.maint.isNone then { s with pcieData := 0 } else s
    asWriter .host o (windowAccess off.toNat access.width access.value) s)

end Sys2Proof.Machine
end

