-- ==== Sys2Proof/Machine/Postbox.lean ====
section
/-! DEFINITION. The Postbox commands of the Dispatcher (R326) but those of other chapters: the day and the mode (R310,
R311), the standing table (R495), queues, the ledger and the loss of the host (R320, R328 to R331), handoffs (R305),
operating points (R14, R366); and the day itself (R15, R312). -/

namespace Sys2Proof.Machine

open Sys2Proof.Config

/-- A command refused for a cause without a stated reason: it changes nothing, CODE 0x00, DETAIL a free value. -/
def refuseUnstated (i : Issue) (op : Nat) (s : State) : State :=
  answer i op 0 (unstatedReason op s.freeCtr) (useFree s)

/-- Whether this device is a member of a ring but not its master (R366). -/
def notMaster (s : State) : Bool := ringUp s && !regBit Reg.RNG_STAT 28 s

/-! ### Broadcast bodies (R351). The manual gives no layout; the model's is: byte 0 the kind, then the value (DESIGN CHOICE,
log entry 25) -/

/-- A 240-byte body of a kind with its value. -/
def bcastBody (kind : Nat) (v : List Byte) : List Byte := slice (leBytes 1 kind ++ v) 0 240

/-- The master of a ring sends a body EAST. -/
def bcastIfMaster (kind : Nat) (v : List Byte) (s : State) : State :=
  if ringUp s && regBit Reg.RNG_STAT 28 s then sendEast (.bcast (bcastBody kind v)) s else s

/-! ### SET_DAY, SET_MODE -/

/-- R15: the day is 1 000 to 100 000 µs and a multiple of the solver period, which is a multiple of the servo period and
at least 125 µs. -/
def dayOk (dayUs solverUs periodUs : Nat) : Bool :=
  decide (1000 ≤ dayUs) && decide (dayUs ≤ 100000) && decide (125 ≤ solverUs) && decide (dayUs % solverUs = 0) &&
    decide (solverUs % periodUs = 0)

/-- The servo period that the next day will have: the written one while it is pending (R258). -/
def nextPeriod (s : State) : Nat :=
  if regBit Reg.SRV_STAT 29 s then regFld Reg.SRV_PERIOD 6 0 s else s.day.periodUs

/-- The day settings that the next day will have. -/
def nextDay (s : State) : DaySettings :=
  s.day.pending.getD ⟨(getReg Reg.DAY_US s).toNat, (getReg Reg.SLOT_US s).toNat, (getReg Reg.SOLVER_US s).toNat⟩

/-- The effect of SET_DAY: refused whole when SLOT_US is 0 (R8, R332), at a ring member (R366), or when R15 or the slot's
limit fails (R311); else pending for the next day boundary. -/
def setDay (i : Issue) (d : DaySettings) (s : State) : State :=
  if d.slotUs = 0 then answer i Op.setDay Code.fieldZero 0 s
  else if notMaster s then answer i Op.setDay 0 9 s
  else if dayOk d.dayUs d.solverUs (nextPeriod s) && decide (d.slotUs ≤ d.dayUs / 2) then
    answer i Op.setDay 0 0 (bcastIfMaster 1 (leBytes 4 d.dayUs ++ leBytes 4 d.slotUs ++ leBytes 4 d.solverUs)
      { s with day := { s.day with pending := some d } })
  else refuseUnstated i Op.setDay s

/-- SET_DAY (R311). -/
def execSetDay (i : Issue) (dayUs slotUs solverUs : Word) (s : State) : Host.Outcome State Fault Refusal :=
  .next (commandZ i Op.setDay allowPM (slotUs = 0) (setDay i ⟨dayUs.toNat, slotUs.toNat, solverUs.toNat⟩) s)

/-- Whether a SHARE of SET_MODE is 0, which R332 reserves. -/
def zeroShare (shares : List Byte) : Bool := (slice shares 0 16).any (· = 0)

/-- The effect of SET_MODE: pending for the next day boundary (R310); a zero SHARE is FIELD_ZERO (R332). -/
def setMode (i : Issue) (mode : Nat) (shares : List Byte) (s : State) : State :=
  let sh := slice shares 0 16
  if zeroShare shares then answer i Op.setMode Code.fieldZero 0 s
  else if 1 < mode then refuseUnstated i Op.setMode s
  else answer i Op.setMode 0 0 { s with day := { s.day with pendMode := some (mode = 1, sh) } }

/-- SET_MODE (R310). -/
def execSetMode (i : Issue) (mode : BitVec 8) (shares : List Byte) (s : State) : Host.Outcome State Fault Refusal :=
  .next (commandZ i Op.setMode allowPM (zeroShare shares) (setMode i mode.toNat shares) s)

/-! ### SET_STANDING, HANDOFF, SET_OP_POINT -/

/-- The effect of SET_STANDING: the descriptor is read once, as DRAM data, and judged (R495); a refused one leaves the entry
disabled. -/
def setStanding (i : Issue) (entry : Nat) (enable : Bool) (client : Nat) (addr : Nat) (s : State) : State :=
  if 16 ≤ entry ∨ (enable = true ∧ (client < 8 ∨ 14 < client)) then refuseUnstated i Op.setStanding s
  else
    let old := getStanding entry s
    let s := retireIfIdle old.desc.handle (setStandingEntry entry { old with enabled := false } s)
    if !enable then answer i Op.setStanding 0 0 s
    else
      let r := readMem .dram addr 96 s
      if r.1.bad.isSome then answer i Op.setStanding Code.eccUncorr 0 r.2
      else
        let d := parseJob r.1.bytes
        match descriptorReason d r.2 with
        | some reason => answer i Op.setStanding 0 reason r.2
        | none => answer i Op.setStanding 0 0 (setStandingEntry entry ⟨true, client, d, false, none, old.setNo + 1⟩ r.2)

/-- SET_STANDING (R495). -/
def execSetStanding (i : Issue) (entry enable client : BitVec 8) (addr : Word64) (s : State) :
    Host.Outcome State Fault Refusal :=
  .next (command i Op.setStanding allowHPM (setStanding i entry.toNat (enable ≠ 0) client.toNat addr.toNat) s)

/-- The effect of HANDOFF: the slot addresses of a handoff 2 to 15 (R305). -/
def setSlots (i : Issue) (index : Nat) (slot0 slot1 : Word64) (s : State) : State :=
  if index < 2 ∨ 15 < index then refuseUnstated i Op.handoff s
  else
    let k := fabricKey index
    answer i Op.handoff 0 0 (setHandoff k { getHandoff k s with slot0 := slot0, slot1 := slot1 } s)

/-- HANDOFF (R305). -/
def execHandoff (i : Issue) (index : BitVec 8) (slot0 slot1 : Word64) (s : State) : Host.Outcome State Fault Refusal :=
  .next (command i Op.handoff allowPM (setSlots i index.toNat slot0 slot1) s)

/-- Request an operating point (R14): a request of 0b11 is ignored; PENDING shows a point that differs from the present
one. -/
def requestPoint (p : Nat) (s : State) : State :=
  if 2 < p then s
  else
    let s := setRegFld Reg.FAB_OP_CTL 1 0 p s
    setRegFld Reg.FAB_OP_STAT 2 2 (if regFld Reg.FAB_OP_STAT 1 0 s = p then 0 else 1) s

/-- A device of the ring asks the master for a point: the master applies the lowest that any device requests, which is the
one of highest number (R436). -/
def pointAtMaster (pos p : Nat) (s : State) : State :=
  let s := { s with ring := { s.ring with points := tset (fun _ => 0) pos p s.ring.points } }
  let q := (List.range 8).foldl (fun m i => max m (tget (fun _ => 0) s.ring.points i)) 0
  bcastIfMaster 2 (leBytes 1 q) (requestPoint q s)

/-- The effect of SET_OP_POINT: in a ring the master carries it to every device (R366). -/
def setOpPoint (i : Issue) (p : Nat) (s : State) : State :=
  if notMaster s then answer i Op.setOpPoint 0 9 s
  else answer i Op.setOpPoint 0 0 (bcastIfMaster 2 (leBytes 1 p) (requestPoint p s))

/-- SET_OP_POINT (R366). -/
def execSetOpPoint (i : Issue) (point : BitVec 8) (s : State) : Host.Outcome State Fault Refusal :=
  .next (command i Op.setOpPoint allowPM (setOpPoint i point.toNat) s)

/-- OP_POINT_REQUEST (R14). -/
def execOpPointRequest (w : Writer) (value : Word) (s : State) : Host.Outcome State Fault Refusal :=
  .next (asWriter w Reg.FAB_OP_CTL (requestPoint (fld value 1 0)) s)

/-- OP_POINT_CHANGE (R14): a requested point takes effect at a day boundary at which no job holds a partition. -/
def execOpPointChange (s : State) : Host.Outcome State Fault Refusal := .next (takePoint s)

/-! ### The ledger (R320, R328) -/

/-- The effect of READ_LEDGER: the ledger goes to host memory, vector 12 is raised; the completion in a host session clears
HOST_LOST and sets LEDGER_READ (R328). After a loss what would be written to host memory is discarded (R331). -/
def readLedger (i : Issue) (addr : Nat) (s : State) : State :=
  let s := { s with disp := { s.disp with ledger := { s.disp.ledger with
    seq := s.disp.ledger.seq + 1, readStamp := s.clk.tick } } }
  let s := if s.disp.discarding then discardWrite 15 s else emit (.msix 12) (hostStore addr (ledgerBytes s) s)
  let s := answer i Op.readLedger 0 0 s
  if i.via = .host && !ledgerWaits s then ledgerCompletes s else s

/-- READ_LEDGER (R328). -/
def execReadLedger (i : Issue) (addr : Word64) (s : State) : Host.Outcome State Fault Refusal :=
  .next (command i Op.readLedger allowHPM (readLedger i addr.toNat) s)

/-! ### QUEUE_CTL (R328) -/

/-- Enable or disable a job queue or the Sorter host path. -/
def setQueue (q : QueueCtl) (s : State) : State :=
  let n := q.queue.toNat
  let on := decide (q.enable ≠ 0)
  if n = 8 then setRegFld Reg.SRT_HP_CTL 31 31 on.toNat (setRing 8 ⟨q.ring, q.size.toNat, q.cring, 0⟩ s)
  else if on then
    setReg (Reg.JQq_STAT n) 0x80000000 (setReg (Reg.JQq_TAIL n) 0 (setRing n ⟨q.ring, q.size.toNat, q.cring, 0⟩ s))
  else setRegFld (Reg.JQq_STAT n) 31 31 0 s

/-- The effect of QUEUE_CTL: an enable is refused with SESSION in a host session after a loss until the ledger has been
read (R328). -/
def queueCtl (i : Issue) (q : QueueCtl) (s : State) : State :=
  if 8 < q.queue.toNat then refuseUnstated i Op.queueCtl s
  else if q.enable ≠ 0 ∧ i.via = .host ∧ regBit Reg.DEV_STATUS 30 s = true then answer i Op.queueCtl Code.session 0 s
  else answer i Op.queueCtl 0 0 (setQueue q s)

/-- QUEUE_CTL (R328). -/
def execQueueCtl (i : Issue) (q : QueueCtl) (s : State) : Host.Outcome State Fault Refusal :=
  .next (command i Op.queueCtl allowHPM (queueCtl i q) s)

/-! ### The host's loss (R329 to R331) -/

/-- Descriptors in a host queue's ring that have not been fetched. -/
def queued (q : Nat) (s : State) : Nat :=
  let n := (getRing q s).size
  if n = 0 ∨ regBit (Reg.JQq_STAT q) 31 s = false then 0
  else ((getReg (Reg.JQq_TAIL q) s).toNat % n + n - regFld (Reg.JQq_STAT q) 15 0 s % n) % n

/-- Drop what a host queue holds that has not been dispatched, and disable it (R330, R331). -/
def dropQueue (q : Fin 8) (s : State) : State :=
  let waiting := s.disp.jobs.filter (fun j => j.queue = some q && j.stage = .waiting)
  let n := queued q s + waiting.length
  let s := bumpReg (Reg.JQq_DROP q) n s
  let s := modAccount q (fun a => { a with dropped := count32 a.dropped n }) s
  let s := waiting.foldl (fun s j => retireIfIdle j.desc.handle (removeJob j.uid s)) s
  let size := (getRing q s).size
  let head := if size = 0 then 0 else (getReg (Reg.JQq_TAIL q) s).toNat % size
  setReg (Reg.JQq_STAT q) (word (head % 2 ^ 16)) s

/-- The transmit ring of a MAC is disabled; entries not yet fetched are dropped and counted (R413). -/
def dropTxRing (m : Nat) (s : State) : State :=
  let n := regFld (Reg.ETH_Mm_TXR_CTL m) 15 0 s
  if n = 0 ∨ regBit (Reg.ETH_Mm_TXR_CTL m) 31 s = false then s
  else
    let t := (getReg (Reg.ETH_TXR_TAIL m) s).toNat % n
    let k := (t + n - (getReg (Reg.ETH_Mm_TXR_HEAD m) s).toNat % n) % n
    setReg (Reg.ETH_Mm_TXR_HEAD m) (word t) (setRegFld (Reg.ETH_Mm_TXR_CTL m) 31 31 0 (bumpReg (Reg.ETH_Mm_TX_DROP m) k s))

/-- The host is lost (R329 to R331): its session closes, what it would still be sent is discarded, its queues, its transmit rings and the Sorter host path are
disabled, standing entries without RESIDENT_SAFE too; what is queued is dropped, and the rest runs on. -/
def hostLoss (closed : Bool) (s : State) : State :=
  if s.sess.host.isNone then s
  else
    let s := { s with
      sess := { s.sess with host := none }
      disp := { s.disp with
        ledger := { s.disp.ledger with lostStamp := s.clk.tick, hostLost := true, closed := closed }
        ledgerRead := false, discarding := true, cmds := s.disp.cmds.map (fun c => { c with lost := true }) } }
    let s := setRegFld Reg.DEV_STATUS 30 30 1 s
    let s := (List.finRange 8).foldl (fun s q => dropQueue q s) s
    let s := setRegFld Reg.SRT_HP_CTL 31 31 0 (dropTxRing 1 (dropTxRing 0 s))
    let s := (List.range 16).foldl (fun s e =>
      let st := getStanding e s
      if st.enabled && !st.desc.residentSafe then
        retireIfIdle st.desc.handle (setStandingEntry e { st with enabled := false } s)
      else s) s
    let s := { s with disp := { s.disp with jobs := s.disp.jobs.map (fun j => { j with lost := true }) } }
    showSession s

/-- CLOSE (R329): the loss is at once, so the command's own completion meets R331. -/
def execClose (i : Issue) (s : State) : Host.Outcome State Fault Refusal :=
  .next (command i Op.close allowH (fun s => answer i Op.close 0 0 (hostLoss true s)) s)

/-- Whether a Postbox write other than a doorbell is taken: inside an open host or maintenance session (R324), while the
Dispatcher runs (R449). -/
def postboxWrite (off : Nat) (f : State → State) (s : State) : State :=
  let s := touchMaint .maint s
  if s.sess.host.isNone && s.sess.maint.isNone then logClosed off s
  else if dispatcherUp s then f s
  else bumpReg Reg.MGT_CORE_LOST 1 s

/-- HEARTBEAT (R324, R329): it restarts the timer only inside an open host session. -/
def execHeartbeat (s : State) : Host.Outcome State Fault Refusal :=
  .next (postboxWrite Reg.HEARTBEAT (fun s =>
    if s.sess.host.isNone then s else { s with sess := { s.sess with beatAt := now s } }) s)

/-- HB_MS as it acts: 10 to 1 000 ms (R323). -/
def hbMs (s : State) : Nat := max 10 (min 1000 (regFld Reg.HB_MS 9 0 s))

/-- The heartbeat timer expires (R329); while the Dispatcher is stopped the loss waits for its resumption (R451). -/
def hostTimeout (s : State) : State :=
  if s.sess.host.isNone then s
  else
    let s := runTo (s.sess.beatAt + hbMs s * 1000 * usRoot) s
    if dispatcherUp s then hostLoss false s else { s with mgt := { s.mgt with lossDue := true } }

/-- HOST_LOST (R330). -/
def execHostLost (s : State) : Host.Outcome State Fault Refusal := .next (hostTimeout s)

/-! ### The day (R15, R258, R310 to R312, R388 to R390, R432) -/

/-- PROOF_DAYS as it acts: values above 251 act as 251. -/
def proofDays (s : State) : Nat := min 251 (regFld Reg.SAF_PROOF_CFG 7 0 s)

/-- Make the job of a due proof frame: the entry's job for client 15 at LEVEL 3 (R389). -/
def makeProof (k : Fin 16) (s : State) : State :=
  let st := getStanding (regFld (Reg.SAF_CHKk_CTL k) 27 24 s) s
  if !st.enabled || s.disp.jobs.any (fun j => j.proof = some k) then s
  else
    let j := { newJob s.disp.nextUid 15 none (some (regFld (Reg.SAF_CHKk_CTL k) 27 24 s)) st.desc false
        (handleWidth st.desc.handle s) with proof := some k, readyAt := some (now s) }
    { s with disp := { s.disp with jobs := s.disp.jobs ++ [j], nextUid := s.disp.nextUid + 1 } }

/-- A binding at a day boundary: DIAG counts, the proof frame becomes due, then slot work, then, when none has been dispatched
since it fell due, a warning (R388, R390). -/
def bindingDay (k : Fin 16) (s : State) : State :=
  let b := getBinding k s
  if !b.enabled then s
  else
    let was := regFld (Reg.SAF_CHKk_STAT k) 7 0 s
    let d := min 255 (was + 1)
    let s := setRegFld (Reg.SAF_CHKk_STAT k) 7 0 d s
    let p := proofDays s
    if d < p then s
    else
      let sent := b.proofSent && decide (p < d)
      let s := makeProof k (setBinding k { b with proofSlot := decide (p + 3 ≤ d), proofSent := sent } s)
      if d = p + 4 && was ≠ d && !sent then
        setLatch Latch.warnDiag 0 (bumpReg Reg.SAF_WARN_COUNT 1 s)
      else s

/-- Pending day settings take effect when R15 and R311 hold for them here with the servo period of the day that begins; a
ring member checks what its master distributed, and settings that do not fit stay pending (R311, R366). -/
def applySettings (s : State) : State :=
  match s.day.pending with
  | none => s
  | some d =>
    if dayOk d.dayUs d.solverUs (nextPeriod s) && decide (d.slotUs ≤ d.dayUs / 2) && othersMeet 0 s then
      setReg Reg.DAY_US (word d.dayUs) (setReg Reg.SLOT_US (word d.slotUs) (setReg Reg.SOLVER_US (word d.solverUs)
        { s with day := { s.day with pending := none } }))
    else s

/-- A pending mode takes effect; the engine times of shares mode start with its entry (R310). -/
def applyMode (s : State) : State :=
  match s.day.pendMode with
  | none => s
  | some (shares, sh) =>
    let entered := shares && !s.day.sharesMode
    setRegFld Reg.DEV_STATUS 29 29 shares.toNat { s with day := { s.day with
      pendMode := none, sharesMode := shares, shares := sh
      sharesAt := if entered then now s else s.day.sharesAt
      used := if entered then [] else s.day.used } }

/-- A pending servo period takes effect; the solver period in effect is a multiple of it (R15, R258). -/
def applyPeriod (s : State) : State :=
  if regBit Reg.SRV_STAT 29 s && decide ((getReg Reg.SOLVER_US s).toNat % regFld Reg.SRV_PERIOD 6 0 s = 0) then
    setRegFld Reg.SRV_STAT 29 29 0 { s with day := { s.day with periodUs := regFld Reg.SRV_PERIOD 6 0 s } }
  else s

/-- The pending settings of the day take effect (R15, R258, R310, R311). -/
def applyDay (s : State) : State := applyPeriod (applyMode (applySettings s))

/-- Whether the device is in service: out of reset, with its start sequence over (R432). -/
def inService (s : State) : Bool :=
  let stage := regFld Reg.PWR_BOOT_STAT 31 28 s
  !deviceReset s && decide (5 ≤ stage) && decide (stage ≤ 7)

/-- Tile groups whose bit of PWR_TG_CTL differs from their state and whose column no job holds take successive slots from
this boundary; their columns count as held (R432, R433). -/
def startGroups (s : State) : State :=
  if !s.pwr.tgs.isEmpty || !inService s then s
  else
    let gs := (List.range (enabledCols s)).filter (fun g =>
      (regBit Reg.PWR_TG_CTL g s != regBit Reg.PWR_DOM_STAT0 g s) &&
        s.disp.jobs.all (fun j => !(j.held && (jobCols j).contains g)))
    let s := { s with pwr := { s.pwr with tgs := (gs.zipIdx).map (fun p => (p.1, now s + p.2 * 20 * usRoot)) } }
    holdCols gs 0x3F 0xFFFF s

/-- The day boundary: it falls DAY_US after the last one; a switch of tile groups comes before any dispatch (R433). -/
def dayBoundary (s : State) : State :=
  let d : Int := ((getReg Reg.DAY_US s).toNat * usRoot : Nat)
  let s := runTo (dayAt d s) s
  let s := setRegFld Reg.DEV_STATUS 28 28 0 (incReg Reg.DAY_NUM { s with
    day := { s.day with start := s.day.start + d, inSlot := false } })
  let s := startGroups (applyDay s)
  (List.finRange 16).foldl (fun s k => bindingDay k s) s

/-- DAY_BOUNDARY (R15). There is none before device reset is released, since TICK does not run (R404, R434). -/
def execDayBoundary (s : State) : Host.Outcome State Fault Refusal := .next (if deviceReset s then s else dayBoundary s)

/-- The intercalary slot starts SLOT_US before the day's end; jobs that are ready, and replays that wait, are marked as
having met a slot start (R312, R379). -/
def slotStart (s : State) : State :=
  if s.day.inSlot then s
  else
    let s := runTo (dayAt ((((getReg Reg.DAY_US s).toNat - (getReg Reg.SLOT_US s).toNat) * usRoot : Nat) : Int) s) s
    setRegFld Reg.DEV_STATUS 28 28 1 { s with
      day := { s.day with inSlot := true }
      disp := { s.disp with jobs := s.disp.jobs.map (fun j =>
        if j.readyAt.isSome ∨ j.stage = .replay then { j with beforeSlot := true } else j) } }

/-- INTERCALARY_SLOT_START (R312). -/
def execIntercalarySlotStart (s : State) : Host.Outcome State Fault Refusal :=
  .next (if deviceReset s then s else slotStart s)

end Sys2Proof.Machine
end

