-- ==== Sys2Proof/Machine/Power.lean ====
section
/-! DEFINITION. Power, clocks and reset: firmware images and the choice of a bank (R458 to R461), boot and the power
sequences (R427 to R430, R444), reset (R440 to R443, R476), tile groups (R432), and temperature (R436, R453). -/

namespace Sys2Proof.Machine

open Sys2Proof.Config

/-! ### Firmware images (R458 to R461) -/

/-- Flash address of a bank: A at 0, B at 0x0100_0000. -/
def bankAt (b : Bool) : Nat := if b then 0x1000000 else 0

/-- Bytes of core `c`'s partition (R447). -/
def partitionOf (c : Nat) : Nat :=
  match c with
  | 0 => 128 * 1024
  | 1 => 192 * 1024
  | _ => 96 * 1024

/-- The ROLLBACK count: blown bits of fuse words 27 and 28 (R462). -/
def rollbackCount (s : State) : Nat := popCount (fuse 27 s).toNat 32 + popCount (fuse 28 s).toNat 32

/-- The 32 bytes of firmware key slot `k`, first byte in bits [7:0] of its first word. -/
def keyHash (k : Nat) (s : State) : List Byte := (List.range 8).flatMap (fun i => wordBytes (fuse (8 + 8 * k + i) s))

/-- Whether a key slot may verify an image: programmed and not revoked (R459). -/
def keyUsable (k : Nat) (s : State) : Bool := (keyHash k s).any (· ≠ 0) && !bit (fuse 24 s) k

/-- Flash address of core `c`'s image in a bank: its bank-relative offset stands in the directory. -/
def imageAt (b : Bool) (c : Nat) (s : State) : Nat := bankAt b + leNat (flashBytes (bankAt b + 16 + 4 * c) 4 s)

/-- LEN of core `c`'s image. -/
def bodyLen (b : Bool) (c : Nat) (s : State) : Nat := leNat (flashBytes (imageAt b c s + 0xC) 4 s)

/-- R459 for the image of core `c`. -/
def imagePasses (b : Bool) (c : Nat) (s : State) : Bool :=
  let a := imageAt b c s
  let h := flashBytes a 256 s
  leAt h 0 4 = 0x57465A44 && byteAt h 4 = c && decide (leAt h 0xC 4 ≤ partitionOf c) &&
  (let d := sha256 (slice h 0x10 64)
   (keyUsable 0 s && d = keyHash 0 s) || (keyUsable 1 s && d = keyHash 1 s)) &&
  decide (rollbackCount s ≤ byteAt h 5) &&
  ecdsaVerify (beNat (slice h 0x10 32)) (beNat (slice h 0x30 32)) (beNat (slice h 0x80 32)) (beNat (slice h 0xA0 32))
    (sha256 (slice h 0 0x80 ++ flashBytes (a + 0x100) (leAt h 0xC 4) s))

/-- The first core whose image of a bank fails. -/
def failingCore (b : Bool) (s : State) : Option Nat := (List.range 4).find? (fun c => !imagePasses b c s)

/-- A byte of a bank's directory. -/
def dirByte (b : Bool) (o : Nat) (s : State) : Byte := (flashBytes (bankAt b + o) 1 s).headD 0

/-- Whether boot considers a bank: a valid MAGIC and BAD not 0x00 (R460). -/
def bankThere (b : Bool) (s : State) : Bool :=
  leNat (flashBytes (bankAt b) 4 s) = 0x52494442 && dirByte b 10 s ≠ 0

/-- SEQ of a bank. -/
def bankSeq (b : Bool) (s : State) : Nat := leNat (flashBytes (bankAt b + 4) 4 s)

/-- Whether a bank is NEW and not CONFIRMED. -/
def bankTrial (b : Bool) (s : State) : Bool := dirByte b 8 s = 0 && dirByte b 9 s ≠ 0

/-- Mark a bank BAD. -/
def markBad (b : Bool) (s : State) : State := flashStore (bankAt b + 10) [0] s

/-- A bank that is left not NEW: its NEW byte is unprogrammed when it was programmed ("it refuses … and leaves the bank not
NEW", R449; DEDUCED, log entry 176). -/
def leaveOld (b : Bool) (s : State) : State :=
  if dirByte b 8 s = 0 then flashStore (bankAt b + 8) [0xFF] s else s

/-- Clear the lowest set bit of a byte. -/
def clearLowest (v : Byte) : Byte := v &&& (v - 1)

/-- Try the banks in order (R460): the bank that boots, the images read, and the flash as the tries leave it. A trial bank
first loses one TRIES bit, or is marked BAD when none is left; a NEW bank that fails is marked BAD, unless it is CONFIRMED. -/
def tryBanks : List Bool → State → Option Bool × Nat × State
  | [], s => (none, 0, s)
  | b :: r, s =>
    if !bankThere b s then tryBanks r s
    else
      let tries := dirByte b 11 s &&& 0x07
      if bankTrial b s && tries = 0 then tryBanks r (markBad b s)
      else
        let s := if bankTrial b s then flashStore (bankAt b + 11) [clearLowest (dirByte b 11 s)] s else s
        let n := ((List.range 4).map (fun c => 256 + min (bodyLen b c s) (partitionOf c))).sum
        match failingCore b s with
        | none => (some b, n, s)
        | some _ =>
          let x := tryBanks r (if bankTrial b s then markBad b s else s)
          (x.1, n + x.2.1, x.2.2)

/-- The banks in the order in which boot takes them: the larger SEQ first, bank A on equal SEQ. -/
def bankOrder (s : State) : List Bool :=
  if bankThere true s && (!bankThere false s || decide (bankSeq false s < bankSeq true s)) then [true, false]
  else [false, true]

/-- Root cycles of the firmware load: the bytes read at 50 MB/s and four signatures of 0.8 ms (R444). -/
def loadRoot (s : State) : Nat := 96 * (tryBanks (bankOrder s) s).2.1 + 4 * 800 * usRoot

/-- The version block of core `c` (R452). -/
def showVersion (b : Bool) (c : Nat) (s : State) : State :=
  let h := flashBytes (imageAt b c s) 256 s
  let len := leAt h 0xC 4
  let d := sha256 (h ++ flashBytes (imageAt b c s + 0x100) len s)
  let s := setReg (Reg.MGT_VERSION c 0) (wordAt h 8) s
  let s := setReg (Reg.MGT_VERSION c 1) (word (byteAt h 5 * 2 ^ 24 + b.toNat * 2 ^ 16)) s
  let s := setReg (Reg.MGT_VERSION c 2) (word len) s
  (List.range 8).foldl (fun s i => setReg (Reg.MGT_VERSION c (4 + i)) (wordAt d (4 * i)) s) s

/-! ### Straps, fuses and stages -/

/-- The registers that show fuses and straps (R28, R323, R452, R473). -/
def showFuses (s : State) : State :=
  let g := fld (fuse 24 s) 7 4
  let s := setReg Reg.DEV_ID (word (0x86400000 + g)) s
  let s := setReg Reg.FAB_ID (word (0x01000D80 + enabledCols s * 2 ^ 12 + g)) s
  let s := setReg Reg.FAB_COL_MAP0 (fuse 29 s) (setReg Reg.FAB_COL_MAP1 (fuse 30 s) s)
  let s := setReg Reg.MGT_ROLLBACK (word (rollbackCount s)) s
  let s := setRegFld Reg.RNG_STAT 28 28 s.pwr.masterSel.toNat s
  setRegFld Reg.RNG_STAT 2 0 s.pwr.ringSlot.toNat s

/-- Show the boot stage. -/
def setStage (n : Nat) (s : State) : State := setRegFld Reg.PWR_BOOT_STAT 31 28 n s

/-- The power domain of a slot of the start sequence (R427). -/
def slotDomain (k : Nat) : Nat :=
  match k with
  | 0 => 33 | 1 => 31 | 2 => 32 | 3 => 12 | 16 => 13 | 17 => 14 | 18 => 15 | 19 => 21 | 20 => 22 | 21 => 23
  | 22 => 20 | 23 => 19 | 24 => 18 | 25 => 16 | 26 => 17 | 27 => 28 | 28 => 27 | 29 => 26 | 30 => 24 | 31 => 25
  | k => k - 4

/-- The internal clock domains that run with a power domain (R427, R434). -/
def domainClocks (d : Nat) : List Nat :=
  match d with
  | 12 => [12, 24] | 13 => [21] | 14 => [22] | 16 => [19, 25] | 17 => [18, 20] | 19 => [17] | 20 => [16]
  | 21 => [13] | 22 => [14] | 23 => [15]
  | d => if d < 12 then [d] else []

/-- Whether a power domain is on. -/
def domainOn (d : Nat) (s : State) : Bool :=
  if d < 32 then regBit Reg.PWR_DOM_STAT0 d s else regBit Reg.PWR_DOM_STAT1 (d - 32) s

/-- The clock domain that the value of a register crosses into, by the block that R22 gives its megabyte to (R434; PRESUMED,
log entry 52). -/
def blockClock (off : Nat) : Nat :=
  match off / 2 ^ 20 with
  | 2 => 21 | 4 => 16 | 5 => 17 | 6 => 19 | 7 => 26 | 8 => 27 | 10 => 20 | 11 => 23 | 12 => 23
  | _ => 12

/-- The destination domain of a crossing, by its key. -/
def crossingClock (key : Nat) : Nat := if key < 64 then key else blockClock (key - 64)

/-- One side of the crossings into a domain has been in reset or off: what waits is discarded uncounted, and they take nothing
until one handshake is over (R439). -/
def flushCrossings (c : Nat) (s : State) : State :=
  let kept := s.pwr.crossings.filter (fun e => !decide (crossingClock e.1 = c))
  { s with pwr := { s.pwr with crossings := tset (fun _ => Crossing.reset) c ⟨0, none, now s + crossingRoundTrip c⟩ kept } }

/-- Turn a power domain on or off with its clocks (R428, R430), and with the crossings into them (R439). -/
def setDomain (d : Nat) (on : Bool) (s : State) : State :=
  let s := (domainClocks d).foldl (fun s c => flushCrossings c s) s
  let s := if d < 32 then setRegFld Reg.PWR_DOM_STAT0 d d on.toNat s else setRegFld Reg.PWR_DOM_STAT1 (d - 32) (d - 32) on.toNat s
  let s := (domainClocks d).foldl (fun s c => setRegFld Reg.CLK_GATE c c on.toNat s) s
  if d = 26 then setRegFld Reg.CLK_EXT_STAT 6 6 on.toNat s else s

/-- The columns of tile groups that are off count as held (R433). -/
def holdOff (s : State) : State :=
  holdCols ((List.range 12).filter (fun g => !domainOn g s)) 0x3F 0xFFFF s

/-- µs since PORST_N rose. -/
def upTime (s : State) : Nat := (now s - s.pwr.riseAt) / usRoot

/-! What a domain does within its slot (R428, R430) -/

/-- How far a domain has been switched on: the quarters of its switch that are closed, the sixteenths of its clock enable, and
whether it is isolated. -/
structure SlotPhase where
  quarters   : Nat
  sixteenths : Nat
  isolated   : Bool
  deriving DecidableEq, Repr

/-- `t` root cycles into a slot that turns a domain on: the switch closes in four steps over 10 µs, the clock enable rises in 16
steps of 0.5 µs from there, and the isolation is released at 18 µs. -/
def slotPhase (t : Nat) : SlotPhase :=
  ⟨min 4 (2 * t / (5 * usRoot)), min 16 (2 * (t - 10 * usRoot) / usRoot), decide (t < 18 * usRoot)⟩

/-- A slot that turns a domain on, or off in the reverse of that order. -/
def phaseIn (up : Bool) (t : Nat) : SlotPhase := if up then slotPhase t else slotPhase (20 * usRoot - t)

/-- The domain in its slot now, and how far it is: of the sequence in progress, or of a switch of tile groups. A tile group
without tiles stays off in its slot (R429). -/
def slotNow (s : State) : Option (Nat × SlotPhase) :=
  match s.pwr.seq, s.pwr.tgs with
  | some q, _ =>
    match q.slots with
    | k :: _ =>
      let d := slotDomain k
      if now s < q.slotAt ∨ (d < 12 ∧ enabledCols s ≤ d) ∨ (q.up = false ∧ domainOn d s = false) then none
      else some (d, phaseIn q.up (now s - q.slotAt))
    | [] => none
  | none, (g, t) :: _ => if now s < t then none else some (g, phaseIn (!domainOn g s) (now s - t))
  | none, [] => none

/-- How far domain `d` is switched on. -/
def domainPhase (d : Nat) (s : State) : SlotPhase :=
  match slotNow s with
  | some (e, p) => if e = d then p else if domainOn d s then ⟨4, 16, false⟩ else ⟨0, 0, true⟩
  | none => if domainOn d s then ⟨4, 16, false⟩ else ⟨0, 0, true⟩

/-- PWR_DOM_STAT0, PWR_DOM_STAT1 and CLK_GATE as they read: within its slot a domain is on while its whole switch is closed, and
its clocks run while its enable is above 0 (DESIGN CHOICE, log entry 187). -/
def shownPower (off : Nat) (s : State) : Word :=
  let v := getReg off s
  match slotNow s with
  | none => v
  | some (d, p) =>
    let on := decide (p.quarters = 4)
    if off = Reg.CLK_GATE then (domainClocks d).foldl (fun v c => setBit v c (decide (0 < p.sixteenths))) v
    else if off = Reg.PWR_DOM_STAT0 then (if d < 32 then setBit v d on else v)
    else if d < 32 then v else setBit v (d - 32) on

/-- Release of device reset on the common edge of R345: TICK is 0, the day begins, and the firmware load starts (R435,
R442, R444); domains 23 and 26 change over to the PLL (R434); SAFE_N follows the latch from here (R396). -/
def releaseReset (s : State) : State :=
  let s := runTo (divUp (now s) 240 * 240) s
  let s := { s with
    clk := ⟨s.clk.root, 0, 0⟩
    day := { s.day with start := s.clk.root }
    pwr := { s.pwr with inReset := false, holding := false, standing := 0, seq := none, osc := false,
                        firmwareAt := some (now s + loadRoot s) } }
  let s := [23, 26, 27].foldl (fun s c => flushCrossings c s) s
  driveSafe (setRegFld Reg.CLK_GATE 27 26 3 (setRegFld Reg.CLK_GATE 23 23 1 (setStage 2 (holdOff s))))

/-! ### Reset (R440 to R443, R476) -/

/-- Registers that a warm reset keeps: the management block with its log (domain 29), PWR_RST_CAUSE, the state of the power
domains and clocks that the reverse sequence works on, and CLK_PLL_STAT (domain 34). -/
def keptReg (o : Nat) : Bool :=
  (decide (0xC00000 ≤ o) && decide (o < 0xC20000)) || o = Reg.PWR_RST_CAUSE || o = Reg.PWR_DOM_STAT0 ||
    o = Reg.PWR_DOM_STAT1 || o = Reg.CLK_PLL_STAT || o = Reg.CLK_GATE || o = Reg.MGT_ROLLBACK

/-- What lies outside the device or outlives any reset: the clock that the model counts, fuses, flash, host memory, what
was sent, and the commands that wait. -/
def outlives (s r : State) : State :=
  { r with pending := s.pending, clk := s.clk, fuses := s.fuses, hostMem := s.hostMem, flash := s.flash,
           pcieData := s.pcieData, outbox := s.outbox, freeCtr := s.freeCtr }

/-- The state that a warm reset leaves when it is asserted (R440, R442): every block at its reset values, but what R440
keeps: of domain 29 also the requests in its sensor-bus controllers (R427, R449). DRAM and the assembler's tables lose their
contents, the banks and the staging store keep theirs (R431); jobs have failed, and their ballast falls (R426). -/
def warmReset (s : State) : State :=
  let r := outlives s State.reset
  let r := { r with
    regs := s.regs.filter (fun e => keptReg e.1)
    stage := s.stage, banks := s.banks
    marks := s.marks.filter (fun m => m.space = .stage || m.space = .bank)
    losses := ⟨s.losses.dram + 1, s.losses.arrays, s.losses.tables + 1⟩
    cam := { State.reset.cam with orders := s.cam.orders, buses := s.cam.buses
                                  ctxs := s.cam.ctxs.map (fun e => (e.1, { Ctx.reset with requests := e.2.requests })) }
    mgt := { s.mgt with resumeAt := [], coreRam := s.mgt.coreRam.filter (fun e => e.1 < 2 ^ 15), coolSince := none,
                        lossDue := false, updating := false, heldBox := none }
    sess := { State.reset.sess with nextId := s.sess.nextId }
    pwr := { s.pwr with crossings := [], ballast := s.pwr.ballast.map (fun e => (e.1, ballastFalls (now s) e.2)),
                        bypassClosed := true, firmwareAt := none, trainAt := none, tgs := [] } }
  setReg Reg.MGT_CORE_STAT 0 (showFuses r)

/-- The slots of the start sequence that are to be undone, in descending order: all of them, or those whose domains are on
when a start sequence was running (R442, R443). -/
def reverseSlots (s : State) : List Nat :=
  let all := (List.range 32).reverse
  match s.pwr.seq with
  | some q => if q.up then all.filter (fun k => domainOn (slotDomain k) s) else all
  | none => all

/-- The domain of the slot in which a running start sequence stands comes up: that slot is finished (R443). -/
def finishSlot (s : State) : State :=
  match s.pwr.seq with
  | some q =>
    match q.up, q.slots with
    | true, k :: _ => if k < 16 ∧ 4 ≤ k ∧ enabledCols s ≤ k - 4 then s else setDomain (slotDomain k) true s
    | _, _ => s
  | none => s

/-- The instant at which the reverse sequence starts: 2 µs after the source is found (R442), and not before the end of the
slot in which a running start sequence stands (R443). -/
def reverseAt (s : State) : Nat :=
  match s.pwr.seq with
  | some q => if q.up then max (now s + 2 * usRoot) (q.slotAt + 20 * usRoot) else now s + 2 * usRoot
  | none => now s + 2 * usRoot

/-- The transmitters of the courier lanes stop at the next character boundary (R280, R442). -/
def stopLanes (s : State) : State := (List.range 16).foldl (fun s l => stopLane l s) s

/-- Assert a warm reset for sources found in one cycle (R440, R442): their bits are set, SAFE_N is low and RESET latched;
the reverse sequence starts at 2 µs. A source found while a reset is in progress, a cold one included, extends its hold
(R443). -/
def assertReset (sources : BitVec 8) (s : State) : State :=
  if !s.pwr.porst then s
  else
    let s := orReg Reg.PWR_RST_CAUSE (sources.zeroExtend 32) s
    let s := { s with pwr := { s.pwr with standing := s.pwr.standing ||| sources } }
    if deviceReset s then s
    else
      let t := finishSlot (stopLanes s)
      let slots := reverseSlots t
      let r := warmReset t
      let s := { r with pwr := { r.pwr with inReset := true, holding := false,
                                            seq := some ⟨false, slots, reverseAt t⟩ } }
      setRegFld Reg.PWR_BOOT_STAT 5 0 (slots.headD 0) (setStage 9 s)

/-- PORST_N low (R440, R476): a cold reset of every domain, in which the lane transmitters stop at the next character (R280);
the rails' loss ends the contents of every memory. The straps stay as sampled until the next rise (R473), and the registers whose
reset value is a fuse's or a strap's read that. -/
def coldReset (s : State) : State :=
  let s := stopLanes s
  let r := outlives s State.reset
  showFuses { r with
    losses := ⟨s.losses.dram + 1, s.losses.arrays + 1, s.losses.tables + 1⟩
    pwr := { r.pwr with masterSel := s.pwr.masterSel, ringSlot := s.pwr.ringSlot } }

/-- PORST_FALL (R476). -/
def execPorstFall (s : State) : Host.Outcome State Fault Refusal := .next (coldReset s)

/-- What an external programmer has written of the flash while the SPI NOR balls were at high impedance (R461, R480). -/
def programmed (ws : List (Nat × Byte)) (s : State) : State := ws.foldl (fun s w => flashStore w.1 [w.2] s) s

/-- PORST_N rises (R444, R473): straps are sampled, the fuses are loaded in 40 µs and the PLL is then started; a POR leaves its
bit alone in PWR_RST_CAUSE (R442). The flash holds what it was programmed with meanwhile. -/
def porstRise (masterSel : Bool) (rise : PorstRise) (s : State) : State :=
  if s.pwr.porst then s
  else
    let s := programmed rise.flashed { s with pwr := { s.pwr with
      porst := true, masterSel := masterSel, ringSlot := rise.slot, riseAt := now s } }
    let s := setRegFld Reg.CLK_GATE 23 23 1 (setRegFld Reg.CLK_GATE 26 26 1 s)
    setReg Reg.PWR_RST_CAUSE 1 (showFuses s)

/-- PORST_RISE (R444). -/
def execPorstRise (masterSel : Bool) (rise : PorstRise) (s : State) : Host.Outcome State Fault Refusal :=
  .next (porstRise masterSel rise s)

/-- The PLL locks (R435): its count rises. At a power-up it does so after the fuses' 40 µs and within 50 µs of its start, and
device reset is released, unless a source found since the rise holds it (R443). During a warm reset the source PLL no longer
stands. -/
def pllLock (s : State) : State :=
  if !s.pwr.porst || s.pwr.locked then s
  else
    let n := regFld Reg.CLK_PLL_STAT 15 0 s
    let s := if s.pwr.inReset then s
      else runTo (s.pwr.riseAt + (40 + min 50 (pllLockUs s.freeCtr)) * usRoot) (useFree s)
    let s := setReg Reg.CLK_PLL_STAT (word (2 ^ 31 + (n + 1) % 2 ^ 16)) s
    let s := { s with pwr := { s.pwr with locked := true } }
    if s.pwr.inReset then { s with pwr := { s.pwr with standing := s.pwr.standing &&& ~~~(4#8) } }
    else if s.pwr.standing ≠ 0 then setStage 9 { s with pwr := { s.pwr with inReset := true, holding := true } }
    else releaseReset s

/-- PLL_LOCK (R435). -/
def execPllLock (s : State) : Host.Outcome State Fault Refusal := .next (pllLock s)

/-- The clocks that run without the PLL: domains 23 and 26, from the internal oscillator (R434). -/
def oscillatorOnly (s : State) : State := modReg Reg.CLK_GATE (· &&& word (2 ^ 23 + 2 ^ 26)) s

/-- Loss of lock or of REFCLK is a reset of source PLL (R435), and no domain runs that needs the PLL (R12, R434). -/
def pllLoss (s : State) : State :=
  if s.pwr.locked then
    let s := assertReset 4 s
    oscillatorOnly (setRegFld Reg.CLK_PLL_STAT 31 31 0 { s with pwr := { s.pwr with locked := false, osc := true } })
  else s

/-- PLL_LOSS (R435). -/
def execPllLoss (s : State) : Host.Outcome State Fault Refusal := .next (pllLoss s)

/-- SYSRST (R440). -/
def execSysrst (s : State) : Host.Outcome State Fault Refusal := .next (assertReset 2 s)

/-- The window of a voltage monitor in mV (R474). -/
def vmonWindow (v : Nat) : Nat × Nat :=
  match v with
  | 0 => (700, 800) | 1 => (700, 800) | 2 => (750, 850) | 3 => (550, 650) | 4 => (850, 950) | _ => (1650, 1950)

/-- A monitor's reading; outside its window it is a reset of source VMON (R440, R474). -/
def vmonReading (v : Nat) (mv : Nat) (s : State) : State :=
  let s := setReg (Reg.MGT_VMONv v) (word mv) s
  if mv < (vmonWindow v).1 ∨ (vmonWindow v).2 < mv then assertReset 8 s else s

/-- VMON (R440). -/
def execVmon (monitor : Fin 6) (mv : BitVec 16) (s : State) : Host.Outcome State Fault Refusal :=
  .next (vmonReading monitor.val mv.toNat s)

/-- A temperature reading in units of 0.125 °C, as a number. -/
def tempOf (i : Nat) (s : State) : Int := (BitVec.ofNat 16 (regFld (Reg.MGT_TEMPi i) 15 0 s)).toInt

/-- Store a reading, and show the hottest sensor (the lowest number of equal ones). -/
def storeTemp (i : Nat) (r : BitVec 16) (s : State) : State :=
  let s := setReg (Reg.MGT_TEMPi i) (r.zeroExtend 32) s
  let hot := (List.range 24).foldl (fun b i => if tempOf b s < tempOf i s then i else b) 0
  setReg Reg.MGT_TEMP_MAX (word (hot * 2 ^ 16 + regFld (Reg.MGT_TEMPi hot) 15 0 s)) s

/-- The warning of R453: one record when a reading exceeds TEMP_WARN, no further one until a reading 5 °C below it. -/
def tempWarning (i : Nat) (r : Int) (s : State) : State :=
  let w := (BitVec.ofNat 16 (regFld Reg.MGT_TEMP_WARN 15 0 s)).toInt
  if w < r then
    if i ∈ s.mgt.warned then s
    else raise Src.postmaster .tempWarn Code.ok [] { s with mgt := { s.mgt with warned := s.mgt.warned ++ [i] } }
  else if r ≤ w - 40 then { s with mgt := { s.mgt with warned := s.mgt.warned.erase i } }
  else s

/-- A sensor's reading with its warning; one above the trip threshold of 115 °C is a reset of source THERM (R440, R453,
R482). -/
def thermTrip (i : Nat) (r : BitVec 16) (s : State) : State :=
  let s := tempWarning i r.toInt (storeTemp i r s)
  if 920 < r.toInt then assertReset 16 s else s

/-- THERM (R440). -/
def execTherm (sensor : Fin 24) (reading : BitVec 16) (s : State) : Host.Outcome State Fault Refusal :=
  .next (thermTrip sensor.val reading s)

/-- The device watchdog expires 100 ms after its last service, which the Postmaster gives it all the while that it runs
(R450). -/
def watchdog (s : State) : State := if postmasterUp s then s else assertReset 32 (runTo (s.mgt.servedAt + 100000 * usRoot) s)

/-- WDT (R450). -/
def execWdt (s : State) : Host.Outcome State Fault Refusal := .next (watchdog s)

/-- PWR_RST_CMD (R440): the key value asserts a reset of source CMD; other values are ignored. -/
def execPwrRstCmd (w : Writer) (value : Word) (s : State) : Host.Outcome State Fault Refusal :=
  .next (asWriter w Reg.PWR_RST_CMD (fun s => if value = 0x52535443 then assertReset 64 s else s) s)

/-- A PCIe fundamental reset or link down (R441): the device with PCIE_FULL set; else the endpoint alone, with the crossings that
the host's accesses take (R439), and the host session is lost with CLOSED clear. -/
def pcieReset (s : State) : State :=
  if regBit Reg.PWR_RST_CFG 0 s then assertReset 128 s
  else
    let s := (List.range 40).foldl (fun s c => flushCrossings c s) { s with sess := { s.sess with hsPcie := none } }
    if s.sess.host.isNone then s
    else if dispatcherUp s then hostLoss false s else { s with mgt := { s.mgt with lossDue := true } }

/-- PCIE_RESET (R441). -/
def execPcieReset (s : State) : Host.Outcome State Fault Refusal := .next (pcieReset s)

/-- Release of a warm reset (R442): every switched domain is off, the PLL is locked, no sensor reads above the trip threshold
less 10 °C when THERM stands, and every monitored rail is inside its window when VMON stands. Whether SYSRST_N or the link
still stands is known outside. -/
def resetRelease (s : State) : State :=
  let cool := !s.pwr.standing.getLsbD 4 || (List.range 24).all (fun i => decide (tempOf i s ≤ 840))
  let rails := !s.pwr.standing.getLsbD 3 || (List.range 6).all (fun v =>
    decide ((vmonWindow v).1 ≤ regFld (Reg.MGT_VMONv v) 15 0 s) && decide (regFld (Reg.MGT_VMONv v) 15 0 s ≤ (vmonWindow v).2))
  if s.pwr.inReset && s.pwr.holding && s.pwr.locked && cool && rails then releaseReset s else s

/-- RESET_RELEASE (R442). -/
def execResetRelease (s : State) : Host.Outcome State Fault Refusal := .next (resetRelease s)

/-! ### Sequences (R428 to R430, R444) -/

/-- The body of core `c`'s image goes to its partition, and the partition's digest is taken (R447, R448). -/
def loadPartition (b : Bool) (c : Nat) (s : State) : State :=
  let body := flashBytes (imageAt b c s + 0x100) (bodyLen b c s) s
  { s with mgt := { s.mgt with
    sram := tset (fun _ => []) c body s.mgt.sram
    digest := tset (fun _ => []) c (sha256 body) s.mgt.digest } }

/-- The end of the firmware load (R444, R460, R461): the bank that boots is shown and the start sequence begins, or the
device stands in FW_FAIL. -/
def firmwareEnd (s : State) : State :=
  match s.pwr.firmwareAt with
  | none => s
  | some t =>
    let s := runTo t { s with pwr := { s.pwr with firmwareAt := none } }
    match tryBanks (bankOrder s) s with
    | (none, _, s) => setStage 8 s
    | (some b, _, s) =>
      let s := (List.range 4).foldl (fun s c => showVersion b c (loadPartition b c s)) { s with mgt := { s.mgt with bankB := b } }
      let s := setRegFld Reg.PWR_BOOT_STAT 27 24 b.toNat s
      setStage 4 { s with pwr := { s.pwr with seq := some ⟨true, List.range 32, now s⟩ } }

/-- FIRMWARE_LOAD_END (R444). -/
def execFirmwareLoadEnd (s : State) : Host.Outcome State Fault Refusal := .next (firmwareEnd s)

/-- One slot of the start sequence ends: its domain is on, unless it is a tile group without tiles (R429). After slot 1
the cores serve, after slot 21 the memory groups train for 4.2 ms more; the ring bypass opens with both ring domains up
(R348, R444). -/
def slotUp (k : Nat) (s : State) : State :=
  let d := slotDomain k
  let off := decide (d < 12) && decide (enabledCols s ≤ d)
  let s := if off then s else setDomain d true s
  let s := if d < 12 && !off then releaseCols [d] s else s
  let s := if k = 1 then setRegFld Reg.DEV_STATUS 31 31 1 s else s
  let s := if k = 21 then { s with pwr := { s.pwr with trainAt := some (now s + 4200 * usRoot) } } else s
  if k = 31 then { s with pwr := { s.pwr with bypassClosed := false } } else s

/-- The next slot of the sequence in progress passes, 20 µs long (R428, R430). -/
def sequenceSlot (s : State) : State :=
  match s.pwr.seq with
  | none => s
  | some q =>
    match q.slots with
    | [] => s
    | k :: r =>
      let t := q.slotAt + 20 * usRoot
      let s := runTo t s
      let s := if q.up then slotUp k s else setDomain (slotDomain k) false s
      let s := setRegFld Reg.PWR_BOOT_STAT 5 0 (r.headD k) s
      if !r.isEmpty then { s with pwr := { s.pwr with seq := some { q with slots := r, slotAt := t } } }
      else if q.up then
        setStage 5 (setReg Reg.PWR_SEQ_TIME (word (upTime s)) { s with pwr := { s.pwr with seq := none } })
      else { s with pwr := { s.pwr with seq := none, holding := true } }

/-- SEQUENCE_SLOT (R428, R430). -/
def execSequenceSlot (s : State) : Host.Outcome State Fault Refusal := .next (sequenceSlot s)

/-- A tile group whose switch was taken up at the day boundary ends its slot (R432): on, its column is free; off, its column
stays held (R433). -/
def groupSwitch (g : Nat) (s : State) : State :=
  match s.pwr.tgs with
  | [] => s
  | (h, t) :: r =>
    if h ≠ g then s
    else
      let s := runTo (t + 20 * usRoot) { s with pwr := { s.pwr with tgs := r } }
      if domainOn g s then setDomain g false s else releaseCols [g] (setDomain g true s)

/-- TILE_GROUP_SWITCH (R432). -/
def execTileGroupSwitch (group : Fin 12) (s : State) : Host.Outcome State Fault Refusal := .next (groupSwitch group.val s)

/-! ### Temperature (R436, R453) -/

/-- A lower or higher point is asked for: of the master in a ring (R366, R436), else here. -/
def throttleTo (p : Nat) (s : State) : State :=
  if notMaster s then sendEast (.bcast (bcastBody 3 (leBytes 1 (regFld Reg.RNG_STAT 26 24 s) ++ leBytes 1 p))) s
  else if ringUp s then pointAtMaster 0 p s
  else requestPoint p s

/-- The throttling of R436: a reading above 105 °C asks for the next lower point; every sensor at 100 °C or less for 1 s asks for
the next higher one than the point in effect or, while a request waits, than the one requested (DESIGN CHOICE, log
entry 188). A stopped Postmaster asks for nothing (R449). -/
def throttle (r : Int) (s : State) : State :=
  let cool := (List.range 24).all (fun i => decide (tempOf i s ≤ 800))
  if !postmasterUp s then { s with mgt := { s.mgt with coolSince := none } }
  else
    let p := regFld Reg.FAB_OP_STAT 1 0 s
    let q := if regBit Reg.FAB_OP_STAT 2 s then regFld Reg.FAB_OP_CTL 1 0 s else p
    let s := { s with mgt := { s.mgt with coolSince := if cool then some (s.mgt.coolSince.getD (now s)) else none } }
    if 840 < r then throttleTo (min 2 (p + 1)) s
    else
      match s.mgt.coolSince with
      | some t =>
        if t + 1000000 * usRoot ≤ now s ∧ 0 < q then
          throttleTo (q - 1) { s with mgt := { s.mgt with coolSince := some (now s) } }
        else s
      | none => s

/-- TEMP_SAMPLE (R453, R436, R440). -/
def execTempSample (sensor : Fin 24) (reading : BitVec 16) (s : State) : Host.Outcome State Fault Refusal :=
  .next (
    let t := thermTrip sensor.val reading s
    if 920 < reading.toInt then t else throttle reading.toInt t)

end Sys2Proof.Machine
end

