-- ==== Sys2Proof/Machine/Management.lean ====
section
/-! DEFINITION. Management and security: restarts of the cores (R448 to R451), the event arbiter and its log (R455 to R457,
R497), firmware updates and fuses (R462, R468), and sessions (R463 to R466). -/

namespace Sys2Proof.Machine

open Sys2Proof.Config

/-! ### Cores (R448 to R451) -/

/-- Set the STATE of a core, in MGT_CORE_STAT and in its version block (R449, R452). -/
def setCoreState (c st : Nat) (s : State) : State :=
  setRegFld (Reg.MGT_VERSION c 1) 1 0 st (setRegFld Reg.MGT_CORE_STAT (8 * c + 7) (8 * c + 6) st s)

/-- A training step in progress starts again from its first state (R449). -/
def restartTraining (p : Nat) (s : State) : State :=
  let st := regFld (Reg.RNG_Pp_STAT p) 31 29 s
  if 2 ≤ st ∧ st ≤ 4 then setRegFld (Reg.RNG_Pp_STAT p) 31 29 1 s
  else s

/-- The Dispatcher stops: Postbox reads return what its registers hold now (R449). -/
def holdBox (s : State) : State :=
  match s.mgt.heldBox with
  | some _ => s
  | none => { s with mgt := { s.mgt with heldBox := some (s.regs.filter (fun e => e.1 < 0xF000)) } }

/-- A core restart: reset for 1 µs, its data RAM cleared, the digest check of its partition at 1 GB/s (R448, R449). A Postmaster
that stops has served the device watchdog until now (R450). -/
def restartCore (c : Nat) (byWdt : Bool) (s : State) : State :=
  let served := if c = 0 ∧ postmasterUp s = true then now s else s.mgt.servedAt
  let s := bumpReg Reg.MGT_CORE_RESTARTS 1 (setCoreState c 1 s)
  let s := setRegFld Reg.MGT_CORE_STAT (8 * c + 5) (8 * c + 5) byWdt.toNat s
  let t := now s + usRoot + divUp (24 * partitionOf c) 5
  let s := if c = 0 ∧ s.mgt.updating = true then leaveOld (!s.mgt.bankB) s else s
  let s := { s with mgt := { s.mgt with
    resumeAt := tset (fun _ => 0) c t s.mgt.resumeAt
    coreRam := s.mgt.coreRam.filter (fun e => e.1 / 2 ^ 15 ≠ c)
    updating := s.mgt.updating && decide (c ≠ 0)
    coolSince := if c = 0 then none else s.mgt.coolSince
    servedAt := served } }
  match c with
  | 1 => holdBox (setRegFld Reg.DEV_STATUS 31 31 0 s)
  | 3 => restartTraining 1 (restartTraining 0 s)
  | _ => s

/-- What the Dispatcher does at its resumption: completions kept meanwhile are written, and a loss of the host that fell
due takes effect (R449, R451). -/
def dispatcherResumes (s : State) : State :=
  let kept := s.disp.kept
  let s := kept.foldl (fun s k => postJob k.1 k.2 s)
    { s with disp := { s.disp with kept := [] }, mgt := { s.mgt with heldBox := none } }
  let s := setRegFld Reg.DEV_STATUS 31 31 1 s
  if s.mgt.lossDue then hostLoss false { s with mgt := { s.mgt with lossDue := false } } else s

/-- A core's partition with bytes of it changed, as the check of R448 finds it. -/
def changePartition (c : Nat) (changed : List (Nat × Byte)) (s : State) : State :=
  { s with mgt := { s.mgt with
    sram := tset (fun _ => []) c (changed.foldl (fun b e => b.set e.1 e.2) (tget (fun _ => []) s.mgt.sram c)) s.mgt.sram } }

/-- Whether the SHA-256 of a core's partition is the digest taken at boot (R448). -/
def partitionGood (c : Nat) (s : State) : Bool :=
  sha256 (tget (fun _ => []) s.mgt.sram c) = tget (fun _ => []) s.mgt.digest c

/-- A restarted core starts when its digest agrees, and stays FAILED otherwise, with a record (R448). `changed` are bytes of its
partition that something outside the rules has changed since boot (log entry 190). -/
def resumeCore (c : Nat) (changed : List (Nat × Byte)) (s : State) : State :=
  let t := tget (fun _ => 0) s.mgt.resumeAt c
  if t = 0 then s
  else
    let s := runTo t { s with mgt := { s.mgt with resumeAt := tset (fun _ => 0) c 0 s.mgt.resumeAt } }
    let s := changePartition c changed s
    if !partitionGood c s then raise Src.postmaster .coreFailed Code.ok [] (setCoreState c 2 s)
    else if c = 1 then dispatcherResumes (setCoreState c 0 s)
    else setCoreState c 0 s

/-- CORE_WATCHDOG_EXPIRY (R448, R449): a record is written and the core restarts. -/
def execCoreWatchdogExpiry (core : Fin 4) (s : State) : Host.Outcome State Fault Refusal :=
  .next (restartCore core.val true (raise Src.postmaster .coreWatchdog Code.ok [] s))

/-- CORE_CTL_RESTART (R448): each bit set restarts its core. -/
def execCoreCtlRestart (w : Writer) (value : Word) (s : State) : Host.Outcome State Fault Refusal :=
  .next (asWriter w Reg.MGT_CORE_CTL
    (fun s => (List.range 4).foldl (fun s c => if bit value c then restartCore c false s else s) s) s)

/-- CORE_RESTART (R448): the command is answered, then the core restarts. -/
def execCoreRestart (i : Issue) (core : BitVec 8) (s : State) : Host.Outcome State Fault Refusal :=
  .next (command i Op.coreRestart allowPM (fun s =>
    if 3 < core.toNat then refuseUnstated i Op.coreRestart s
    else restartCore core.toNat false (answer i Op.coreRestart 0 0 s)) s)

/-! ### The event arbiter (R455 to R457) -/

/-- The event that the arbiter accepts next: the earliest arrival, the lowest source on equal arrival, the first raised of
one source. -/
def nextEvent (es : List LogEvent) : Option LogEvent :=
  es.foldl (fun b e => match b with
    | none => some e
    | some x => if e.arrive < x.arrive ∨ (e.arrive = x.arrive ∧ e.source < x.source) then some e else some x) none

/-- The 32 bytes of a log record (R457). -/
def logRecord (accept : Word) (e : LogEvent) (lost : Bool) : List Byte :=
  let body := wordBytes accept ++ leBytes 8 e.stamp.toNat ++ leBytes 1 e.source ++ [e.code] ++
    leBytes 2 ((e.event.toNat % 2 ^ 15) + (if lost then 2 ^ 15 else 0)) ++ wordBytes e.d0 ++ wordBytes e.d1 ++ wordBytes e.d2
  body ++ wordBytes (crc32c body)

/-- Accept one event: it is numbered and its record is written at its place in the log; a record raises vector 11. One
event is accepted per management cycle. -/
def acceptEvent (s : State) : State :=
  match nextEvent s.mgt.events with
  | none => s
  | some e =>
    let t := max e.arrive (divUp (now s) (mcNow s) * mcNow s)
    let s := runTo t s
    let a := getReg Reg.MGT_ACCEPT_NEXT s
    let lost := decide (e.source ∈ s.mgt.lost)
    let bytes := logRecord a e lost
    let s := { s with mgt := { s.mgt with events := s.mgt.events.erase e, lost := s.mgt.lost.erase e.source } }
    let s := (List.range 8).foldl (fun s i =>
      setReg (Reg.MGT_LOG (8 * (a.toNat % 2048) + i)) (wordAt bytes (4 * i)) s) s
    let s := setReg Reg.MGT_ACCEPT_NEXT (a + 1) s
    let s := if (a + 1 - getReg Reg.MGT_LOG_OLDEST s).toNat ≤ 2048 then s
      else setReg Reg.MGT_LOG_OLDEST (a + 1 - 2048) s
    runTo (t + mcNow s) (emit (.msix 11) s)

/-- EVENT_ACCEPT (R455). -/
def execEventAccept (s : State) : Host.Outcome State Fault Refusal := .next (acceptEvent s)

/-- The bytes of the record with an acceptance number. -/
def logBytes (a : Word) (s : State) : List Byte :=
  (List.range 8).flatMap (fun i => wordBytes (getReg (Reg.MGT_LOG (8 * (a.toNat % 2048) + i)) s))

/-- The acceptance numbers that READ_LOG copies (R497). -/
def logRange (first : Word) (count : Nat) (s : State) : List Word :=
  let oldest := getReg Reg.MGT_LOG_OLDEST s
  let next := getReg Reg.MGT_ACCEPT_NEXT s
  ((List.range count).map (fun i => first + word i)).filter (fun n =>
    !later 32 oldest.toNat n.toNat && later 32 next.toNat n.toNat)

/-- The effect of READ_LOG: the records go to host memory back to back (R497); after a host loss they are discarded
(R331). -/
def readLog (i : Issue) (first : Word) (count : Nat) (addr : Nat) (s : State) : State :=
  let ns := logRange first count s
  let next := getReg Reg.MGT_ACCEPT_NEXT s
  let bs := ns.flatMap (fun n => logBytes n s)
  let detail := ns.headD (getReg Reg.MGT_LOG_OLDEST s)
  let s := if bs.isEmpty then s else if s.disp.discarding then discardWrite 15 s else hostStore addr bs s
  completeCmd i Op.readLog 0 detail (leBytes 4 ns.length ++ wordBytes next) s

/-- READ_LOG (R497). -/
def execReadLog (i : Issue) (first : Word) (count : BitVec 16) (addr : Word64) (s : State) :
    Host.Outcome State Fault Refusal :=
  .next (command i Op.readLog allowHPM (readLog i first count.toNat addr.toNat) s)

/-! ### Updates (R459, R462) -/

/-- The inactive bank. -/
def inactive (s : State) : Bool := !s.mgt.bankB

/-- Erase a bank of the flash. -/
def eraseBank (b : Bool) (s : State) : State :=
  { s with flash := s.flash.filter (fun e => !(decide (bankAt b ≤ e.1) && decide (e.1 < bankAt b + 2 ^ 24))) }

/-- The effect of UPDATE_WRITE: the first write of an update erases the inactive bank, each programs its part;
one of length 0 does nothing (R7). -/
def updateWrite (i : Issue) (offset addr len : Nat) (s : State) : State :=
  if len = 0 then answer i Op.updateWrite 0 0 s
  else if 2 ^ 24 < offset + len then refuseUnstated i Op.updateWrite s
  else
    let r := readMem .dram addr len s
    if r.1.bad.isSome then answer i Op.updateWrite Code.eccUncorr 0 r.2
    else
      let s := if r.2.mgt.updating then r.2 else eraseBank (inactive r.2) r.2
      let s := flashProgram (bankAt (inactive s) + offset) r.1.bytes { s with mgt := { s.mgt with updating := true } }
      answer i Op.updateWrite 0 0 s

/-- UPDATE_WRITE (R462). -/
def execUpdateWrite (i : Issue) (offset : Word) (addr : Word64) (len : Word) (s : State) :
    Host.Outcome State Fault Refusal :=
  .next (command i Op.updateWrite allowPM (updateWrite i offset.toNat addr.toNat len.toNat) s)

/-- The effect of UPDATE_COMMIT: with four images that pass, the bank gets the next SEQ, three tries and is NEW; otherwise
DETAIL names the failing core and the bank stays not NEW. -/
def updateCommit (i : Issue) (s : State) : State :=
  let b := inactive s
  let s := { s with mgt := { s.mgt with updating := false } }
  match failingCore b s with
  | some c => answer i Op.updateCommit (unstatedCode Op.updateCommit s.freeCtr) c (useFree (leaveOld b s))
  | none =>
    let s := flashStore (bankAt b + 4) (leBytes 4 (bankSeq s.mgt.bankB s + 1)) s
    answer i Op.updateCommit 0 0 (flashStore (bankAt b + 8) [0] (flashStore (bankAt b + 11) [7] s))

/-- UPDATE_COMMIT (R459). -/
def execUpdateCommit (i : Issue) (s : State) : Host.Outcome State Fault Refusal :=
  .next (command i Op.updateCommit allowPM (updateCommit i) s)

/-- Blow ROLLBACK bits in ascending order until the count reaches `n`; it never goes past it (R462). -/
def raiseRollback (n : Nat) (s : State) : State :=
  let s := (List.range 64).foldl (fun s k =>
    let w := 27 + k / 32
    if rollbackCount s < n ∧ bit (fuse w s) (k % 32) = false
    then { s with fuses := tset fuseShipped w (setBit (fuse w s) (k % 32) true) s.fuses } else s) s
  setReg Reg.MGT_ROLLBACK (word (rollbackCount s)) s

/-- The smallest SVN among the running images (R452, R462). -/
def minSvn (s : State) : Nat := ((List.range 4).map (fun c => regFld (Reg.MGT_VERSION c 1) 31 24 s)).foldl min 255

/-- The effect of UPDATE_CONFIRM: the running bank is CONFIRMED and the ROLLBACK count rises to the smallest SVN. -/
def updateConfirm (i : Issue) (s : State) : State :=
  answer i Op.updateConfirm 0 0 (raiseRollback (minSvn s) (flashStore (bankAt s.mgt.bankB + 9) [0] s))

/-- UPDATE_CONFIRM (R462). -/
def execUpdateConfirm (i : Issue) (s : State) : Host.Outcome State Fault Refusal :=
  .next (command i Op.updateConfirm allowPM (updateConfirm i) s)

/-! ### Fuses (R468) -/

/-- Blow bits of a fuse word. -/
def blow (w : Nat) (v : Word) (s : State) : State := { s with fuses := tset fuseShipped w (fuse w s ||| v) s.fuses }

/-- Blow eight words from `w` with bytes. -/
def blowEight (w : Nat) (bs : List Byte) (s : State) : State :=
  (List.range 8).foldl (fun s i => blow (w + i) (wordAt bs (4 * i)) s) s

/-- Whether KEY_HASH slot `k` is programmed. -/
def slotProgrammed (k : Nat) (s : State) : Bool := (keyHash k s).any (· ≠ 0)

/-- The effect of FUSE_BLOW: one of the permitted fields, anything else is refused with DETAIL 1. The value of the key set
is DEV_KEY then KEY_HASH0, as DRAM data (DEDUCED, log entry 27). -/
def fuseBlow (i : Issue) (field slot : Nat) (addr : Nat) (s : State) : State :=
  let refuse := answer i Op.fuseBlow 0 1 s
  let w24 := fuse 24 s
  match field with
  | 0 =>
    if bit w24 2 then refuse
    else
      let r := readMem .dram addr 64 s
      if r.1.bad.isSome then answer i Op.fuseBlow Code.eccUncorr 0 r.2
      else answer i Op.fuseBlow 0 0 (blow 24 4 (blowEight 8 (slice r.1.bytes 32 32) (blowEight 0 (slice r.1.bytes 0 32) r.2)))
  | 1 =>
    if slotProgrammed 1 s then refuse
    else
      let r := readMem .dram addr 32 s
      if r.1.bad.isSome then answer i Op.fuseBlow Code.eccUncorr 0 r.2
      else answer i Op.fuseBlow 0 0 (blowEight 16 r.1.bytes r.2)
  | 2 =>
    if 1 < slot ∨ bit w24 (1 - slot) = true ∨ slotProgrammed (1 - slot) s = false then refuse
    else answer i Op.fuseBlow 0 0 (blow 24 (word (2 ^ slot)) s)
  | 3 => answer i Op.fuseBlow 0 0 (blow 24 8 s)
  | _ => refuse

/-- FUSE_BLOW (R468): in a maintenance session only. -/
def execFuseBlow (i : Issue) (field slot : BitVec 8) (addr : Word64) (s : State) : Host.Outcome State Fault Refusal :=
  .next (command i Op.fuseBlow allowM (fuseBlow i field.toNat slot.toNat addr.toNat) s)

/-! ### Sessions (R463 to R466) -/

/-- DEV_KEY for R463: zeros while KEY_LOCK is 0 (R468). -/
def devKey (s : State) : List Byte :=
  if bit (fuse 24 s) 2 then (List.range 8).flatMap (fun i => wordBytes (fuse i s)) else List.replicate 32 0

/-- LABEL of a kind (R463). -/
def kindLabel (k : Nat) : List Byte :=
  match k with
  | 1 => ascii "DZ8640 host"
  | 2 => ascii "DZ8640 port"
  | _ => ascii "DZ8640 maint"

/-- K_k (R463). -/
def kindKey (k : Nat) (s : State) : List Byte := hmac (devKey s) (kindLabel k)

/-- DEVICE_ID as sent. -/
def deviceId (s : State) : List Byte := wordBytes (fuse 25 s) ++ wordBytes (fuse 26 s)

/-- Put a handshake message on its interface: TYPE with the datagram header on the management port, the body alone in the
PCIe message window (R464, R465). -/
def handshakeOut (side : Side) (type kind id : Nat) (body : List Byte) (s : State) : State :=
  match side with
  | .pcie => emit (.pcieMessage (leBytes 1 type ++ body)) s
  | .mgtPort => emit (.mgtDatagram (leBytes 1 type ++ leBytes 1 kind ++ leBytes 2 id ++ leBytes 4 0 ++ body)) s

/-- RESULT with STATUS SESSION: nothing is opened. -/
def refuseSession (side : Side) (kind : Nat) (s : State) : State :=
  handshakeOut side 4 kind 0 (leBytes 1 Code.session ++ List.replicate 35 0) s

/-- Whether a kind may be opened over a side. -/
def sideAllows (side : Side) (kind : Nat) : Bool :=
  match kind with
  | 1 => side = .pcie
  | 2 => side = .mgtPort
  | 3 => true
  | _ => false

/-- Whether a session of a kind is open. -/
def kindOpen (kind : Nat) (s : State) : Bool :=
  match kind with
  | 1 => s.sess.host.isSome
  | 2 => s.sess.port.isSome
  | _ => s.sess.maint.isSome

/-- Whether the core that serves a kind's handshake runs (R447): the Dispatcher for the host kind, else the Postmaster. -/
def kindServed (kind : Nat) (s : State) : Bool := if kind = 1 then dispatcherUp s else postmasterUp s

/-- The lockout of an interface. -/
def lockOf (side : Side) (s : State) : Option Nat :=
  match side with
  | .pcie => s.sess.lockPcie
  | .mgtPort => s.sess.lockPort

/-- Set an interface's handshake. -/
def setHandshake (side : Side) (h : Option Handshake) (s : State) : State :=
  match side with
  | .pcie => { s with sess := { s.sess with hsPcie := h } }
  | .mgtPort => { s with sess := { s.sess with hsPort := h } }

/-- Whether an interface is served: the domain of PCIe or Ethernet has passed its slot (R444). -/
def sideUp (side : Side) (s : State) : Bool :=
  match side with
  | .pcie => pcieUp s
  | .mgtPort => regBit Reg.PWR_DOM_STAT0 27 s

/-- HELLO (R464, R466): no answer during a lockout, or before the interface is served; a kind that is open, or that this interface does not open, is refused;
else the device answers with CHALLENGE. -/
def hello (side : Side) (kind : Nat) (nc : BitVec 128) (s : State) : State :=
  if (lockOf side s).isSome || !kindServed kind s || !sideUp side s then s
  else if kindOpen kind s || !sideAllows side kind then refuseSession side kind s
  else
    let nd := trng s.freeCtr
    let h : Handshake := ⟨BitVec.ofNat 8 kind, nc, nd, s.disp.ledger.epoch⟩
    handshakeOut side 2 kind 0 (leBytes 16 nd.toNat ++ deviceId s ++ wordBytes s.disp.ledger.epoch)
      (setHandshake side (some h) (useFree s))

/-- HELLO (R464). -/
def execHello (side : Side) (kind : Byte) (nc : BitVec 128) (s : State) : Host.Outcome State Fault Refusal :=
  .next (hello side kind.toNat nc s)

/-- MAC_c of a handshake (R464). -/
def macC (h : Handshake) (s : State) : List Byte :=
  hmac (kindKey h.kind.toNat s) (ascii "C" ++ [h.kind] ++ leBytes 16 h.nc.toNat ++ leBytes 16 h.nd.toNat ++ deviceId s ++
    wordBytes h.epoch)

/-- A failed RESPONSE (R466): one record, and after 8 in a row on an interface a lockout of 60 s. -/
def responseFails (side : Side) (kind : Nat) (s : State) : State :=
  let s := refuseSession side kind (raise Src.security .responseFail Code.session [] s)
  let lock := some (now s + 60000000 * usRoot)
  match side with
  | .pcie =>
    let n := s.sess.failPcie + 1
    { s with sess := { s.sess with failPcie := n, lockPcie := if 8 ≤ n then lock else s.sess.lockPcie } }
  | .mgtPort =>
    let n := s.sess.failPort + 1
    { s with sess := { s.sess with failPort := n, lockPort := if 8 ≤ n then lock else s.sess.lockPort } }

/-- Open a session: the host's raises EPOCH by 1 (R320, R328) and ends the discarding of a loss. -/
def openSession (kind : Nat) (x : SessionInfo) (s : State) : State :=
  match kind with
  | 1 => { s with
      sess := { s.sess with host := some x, beatAt := now s }
      disp := { s.disp with ledgerRead := false, discarding := false,
                            ledger := { s.disp.ledger with epoch := s.disp.ledger.epoch + 1 } } }
  | 2 => { s with sess := { s.sess with port := some x } }
  | _ => { s with sess := { s.sess with maint := some x } }

/-- A RESPONSE that verifies opens its session (R463, R464). -/
def responseOpens (side : Side) (h : Handshake) (s : State) : State :=
  let k := h.kind.toNat
  let key := hmac (kindKey k s) (ascii "S" ++ leBytes 16 h.nc.toNat ++ leBytes 16 h.nd.toNat)
  let macD := hmac (kindKey k s) (ascii "D" ++ leBytes 16 h.nd.toNat ++ leBytes 16 h.nc.toNat)
  let id := s.sess.nextId
  let s := openSession k ⟨id, key, 0, side, now s⟩ s
  let s := match side with
    | .pcie => { s with sess := { s.sess with nextId := id + 1, failPcie := 0 } }
    | .mgtPort => { s with sess := { s.sess with nextId := id + 1, failPort := 0 } }
  showSession (handshakeOut side 4 k id.toNat (leBytes 1 0 ++ leBytes 1 0 ++ leBytes 2 id.toNat ++ macD) s)

/-- RESPONSE (R464, R466): it is judged against the interface's handshake, which it ends. -/
def response (side : Side) (mac : BitVec 256) (s : State) : State :=
  let h := match side with
    | .pcie => s.sess.hsPcie
    | .mgtPort => s.sess.hsPort
  match h with
  | none => if postmasterUp s then responseFails side 0 s else s
  | some h =>
    if !kindServed h.kind.toNat s then s
    else
      let s := setHandshake side none s
      if leBytes 32 mac.toNat = macC h s ∧ kindOpen h.kind.toNat s = false then responseOpens side h s
      else responseFails side h.kind.toNat s

/-- RESPONSE (R464). -/
def execResponse (side : Side) (mac : BitVec 256) (s : State) : Host.Outcome State Fault Refusal :=
  .next (response side mac s)

/-- A maintenance session closes after 60 s without use (R466). -/
def maintTimeout (s : State) : State :=
  match s.sess.maint with
  | none => s
  | some m => showSession { runTo (m.usedAt + 60000000 * usRoot) s with sess := { s.sess with maint := none } }

/-- MAINTENANCE_TIMEOUT (R466). -/
def execMaintenanceTimeout (s : State) : Host.Outcome State Fault Refusal := .next (maintTimeout s)

/-- The lockout of an interface ends (R466). -/
def lockoutEnd (side : Side) (s : State) : State :=
  match lockOf side s with
  | none => s
  | some t =>
    let s := runTo t s
    match side with
    | .pcie => { s with sess := { s.sess with lockPcie := none, failPcie := 0 } }
    | .mgtPort => { s with sess := { s.sess with lockPort := none, failPort := 0 } }

/-- HELLO_LOCKOUT_END (R466). -/
def execHelloLockoutEnd (side : Side) (s : State) : Host.Outcome State Fault Refusal := .next (lockoutEnd side s)

end Sys2Proof.Machine
end

