-- ==== Sys2Proof/Machine/Isp.lean ====
section
/-! DEFINITION. The arithmetic of an image pipeline (R173 to R179): the colour path of one pixel, the three outputs and four
raw taps of one stripe as pieces of bytes within a slot, and the statistics of one stripe. -/

namespace Sys2Proof.Machine

/-- What a stripe is computed from: the geometry of the stream's line ring, the context's CFA order and the frame's
parameter snapshot. -/
structure IspIn where
  w     : Nat
  h     : Nat
  base  : Nat
  pitch : Nat
  depth : Nat
  cfa   : Nat
  param : List Byte
  deriving DecidableEq, Repr

/-- Limit to 0 … 65 535. -/
def clamp16 (v : Int) : Int := max 0 (min 65535 v)

/-- A line or column outside 0 to n − 1 is read as its mirror image (R167, R174). -/
def mirror (n : Nat) (k : Int) : Nat :=
  let k := if k < 0 then -k else k
  let k := if (n : Int) ≤ k then 2 * ((n : Int) - 1) - k else k
  (max 0 (min k ((n : Int) - 1))).toNat

/-- An unsigned 16-bit field of the parameter block (R190). -/
def par16 (g : IspIn) (o : Nat) : Int := leAt g.param o 2

/-- The CFA position of a pixel. -/
def cfaPos (x y : Nat) : Nat := 2 * (y % 2) + x % 2

/-- The colour at a pixel: 0 R, 1 G, 2 B. -/
def cfaColour (cfa x y : Nat) : Nat :=
  let row : List Nat :=
    match cfa with
    | 0 => [0, 1, 1, 2]
    | 1 => [1, 0, 2, 1]
    | 2 => [1, 2, 0, 1]
    | _ => [2, 1, 1, 0]
  row.getD (cfaPos x y) 0

/-- The byte address of a landed pixel (R161). -/
def landedAddr (g : IspIn) (x y : Nat) : Nat := g.base + y % g.depth * g.pitch + 2 * x

/-- The landed word of a pixel. -/
def landedAt (g : IspIn) (s : State) (x y : Nat) : Int := leNat (rdBytes .stage (landedAddr g x y) 2 s)

/-- After black level (R173). -/
def blackAt (g : IspIn) (s : State) (x y : Nat) : Int :=
  let k := cfaPos x y
  clamp16 (((landedAt g s x y - par16 g (2 * k)) * par16 g (8 + 2 * k) + 2048) / 4096)

/-- Grid cell and weight in 1/256 of coordinate `x` of `n` among `cells` cells. -/
def gridPos (n cells x : Nat) : Nat × Nat :=
  if n ≤ 1 then (0, 0)
  else
    let i := min (cells * x / (n - 1)) (cells - 1)
    (i, 256 * (cells * x - i * (n - 1)) / (n - 1))

/-- LSC(cfa, x, y) (R173). -/
def shadeAt (g : IspIn) (x y : Nat) : Int :=
  let px := gridPos g.w 16 x
  let py := gridPos g.h 12 y
  let pt := fun i j : Nat => par16 g (0x100 + 2 * (cfaPos x y * 221 + j * 17 + i))
  let wx : Int := px.2
  let wy : Int := py.2
  (pt px.1 py.1 * (256 - wx) * (256 - wy) + pt (px.1 + 1) py.1 * wx * (256 - wy) +
    pt px.1 (py.1 + 1) * (256 - wx) * wy + pt (px.1 + 1) (py.1 + 1) * wx * wy + 32768) / 65536

/-- After lens shading (R173). -/
def shadedAt (g : IspIn) (s : State) (x y : Nat) : Int := clamp16 ((blackAt g s x y * shadeAt g x y + 2048) / 4096)

/-- A pixel after lens shading, its coordinates mirrored into the image. -/
def pix (g : IspIn) (s : State) (x y : Int) : Int := shadedAt g s (mirror g.w x) (mirror g.h y)

/-- Colour `k` at a pixel after demosaic (R174). -/
def demosaicAt (g : IspIn) (s : State) (k x y : Nat) : Int :=
  let own := cfaColour g.cfa x y
  let p := fun dx dy : Int => pix g s (x + dx) (y + dy)
  let c := p 0 0
  let axial := p (-2) 0 + p 2 0 + p 0 (-2) + p 0 2
  if own = k then c
  else if k = 1 then clamp16 ((2 * (p (-1) 0 + p 1 0 + p 0 (-1) + p 0 1) + 4 * c - axial + 4) / 8)
  else if own = 1 then
    if cfaColour g.cfa (x + 1) y = k then clamp16 ((4 * (p (-1) 0 + p 1 0) + 4 * c - 2 * (p (-2) 0 + p 2 0) + 4) / 8)
    else clamp16 ((4 * (p 0 (-1) + p 0 1) + 4 * c - 2 * (p 0 (-2) + p 0 2) + 4) / 8)
  else clamp16 ((2 * (p (-1) (-1) + p 1 (-1) + p (-1) 1 + p 1 1) + 4 * c - axial + 4) / 8)

/-- The three colours after demosaic. -/
def demosaic (g : IspIn) (s : State) (x y : Nat) : List Int := [0, 1, 2].map (fun k => demosaicAt g s k x y)

/-- After white balance (R173). -/
def balanced (g : IspIn) (s : State) (x y : Nat) : List Int :=
  (demosaic g s x y).zipIdx.map (fun p => clamp16 ((p.1 * par16 g (0x10 + 2 * p.2) + 2048) / 4096))

/-- A signed Q3.12 coefficient of CCM. -/
def ccmAt (g : IspIn) (r c : Nat) : Int := (BitVec.ofNat 16 (leAt g.param (0x18 + 2 * (3 * r + c)) 2)).toInt

/-- After the colour matrix (R173). -/
def corrected (g : IspIn) (s : State) (x y : Nat) : List Int :=
  let v := balanced g s x y
  [0, 1, 2].map (fun r => clamp16 ((ccmAt g r 0 * v.getD 0 0 + ccmAt g r 1 * v.getD 1 0 + ccmAt g r 2 * v.getD 2 0 + 2048)
    / 4096))

/-- A tone curve (R175). -/
def curve (g : IspIn) (k : Nat) (v : Int) : Int :=
  let t := fun i : Nat => par16 g (0x800 + 514 * k + 2 * i)
  let i := (v / 256).toNat
  t i + ((t (i + 1) - t i) * (v % 256) + 128) / 256

/-- After the tone curves (R173). -/
def toned (g : IspIn) (s : State) (x y : Nat) : List Int := (corrected g s x y).zipIdx.map (fun p => curve g p.2 p.1)

/-- The words at a tap point (R177). -/
def tapPoint (g : IspIn) (s : State) (point x y : Nat) : List Int :=
  match point with
  | 0 => [landedAt g s x y]
  | 1 => [blackAt g s x y]
  | 2 => [shadedAt g s x y]
  | 3 => demosaic g s x y
  | 4 => balanced g s x y
  | 5 => corrected g s x y
  | _ => toned g s x y

/-- A 16-bit word's bytes. -/
def word16 (v : Int) : List Byte := leBytes 2 v.toNat

/-! ### The outputs (R176) -/

/-- Rounding half up. -/
def halfUp (q : Rat) : Int := (q + 1 / 2).floor

/-- BT.709 luma of a pixel, from 0 to 1. -/
def lumaOf (v : List Int) : Rat :=
  ((2126 * v.getD 0 0 + 7152 * v.getD 1 0 + 722 * v.getD 2 0 : Int) : Rat) / (10000 * 65535)

/-- The 10-bit Y of a pixel. -/
def y10 (g : IspIn) (s : State) (x y : Nat) : Int := halfUp (64 + 876 * lumaOf (toned g s x y))

/-- The 10-bit Cb (k = 2) or Cr (k = 0) of a pixel. -/
def c10 (g : IspIn) (s : State) (k x y : Nat) : Int :=
  let v := toned g s x y
  let d : Rat := (v.getD k 0 : Rat) / 65535 - lumaOf v
  halfUp (512 + 896 * (if k = 2 then d / (18556 / 10000) else d / (15748 / 10000)))

/-- A chroma sample of block (cx, cy): the average of the values present. -/
def chroma (g : IspIn) (s : State) (k cx cy : Nat) : Int :=
  let ps := ([(0, 0), (1, 0), (0, 1), (1, 1)] : List (Nat × Nat)).filter
    (fun d => decide (2 * cx + d.1 < g.w) && decide (2 * cy + d.2 < g.h))
  let sum := (ps.map (fun d => c10 g s k (2 * cx + d.1) (2 * cy + d.2))).sum
  let n : Int := ps.length
  (sum + n / 2) / n

/-- The output lines y0 to y1 − 1, as a list. -/
def linesOf (y0 y1 : Nat) : List Nat := (List.range (y1 - y0)).map (y0 + ·)

/-- The display output of lines y0 to y1 − 1: pieces at offsets in the slot. -/
def displayPieces (g : IspIn) (pitch y0 y1 : Nat) (s : State) : List (Nat × List Byte) :=
  let eight := fun v : Int => (BitVec.ofInt 8 ((v + 2) / 4) : Byte)
  (linesOf y0 y1).map (fun y => (y * pitch, (List.range g.w).map (fun x => eight (y10 g s x y)))) ++
  (linesOf (y0 / 2) (divUp y1 2)).map (fun cy => ((g.h + cy) * pitch,
    (List.range (divUp g.w 2)).flatMap (fun cx => [eight (chroma g s 2 cx cy), eight (chroma g s 0 cx cy)])))

/-- The coding output of lines y0 to y1 − 1: rows of 64 × 16 luma tiles and of 32 × 8 chroma tiles, the tiles of one tile
row side by side and its lines at the pitch; the last stripe fills the tiles beyond the image. -/
def codingPieces (g : IspIn) (pitch y0 y1 : Nat) (s : State) : List (Nat × List Byte) :=
  let ten := fun v : Int => word16 (v * 64)
  let rows := 16 * divUp g.h 16
  let y1 := if y1 = g.h then rows else y1
  (linesOf y0 y1).flatMap (fun y => (List.range (divUp g.w 64)).map (fun tx =>
    (y / 16 * 16 * pitch + tx * 2048 + y % 16 * 128,
      (List.range 64).flatMap (fun i => ten (y10 g s (min (64 * tx + i) (g.w - 1)) (min y (g.h - 1))))))) ++
  (linesOf (y0 / 2) (y1 / 2)).flatMap (fun cy => (List.range (divUp g.w 64)).map (fun tx =>
    (rows * pitch + cy / 8 * 8 * pitch + tx * 1024 + cy % 8 * 128,
      (List.range 32).flatMap (fun i =>
        let cx := min (32 * tx + i) (divUp g.w 2 - 1)
        let cy := min cy (divUp g.h 2 - 1)
        ten (chroma g s 2 cx cy) ++ ten (chroma g s 0 cx cy)))))

/-- The decimation of the machine-vision output (R190). -/
def decimation (ctl : Nat) : Nat :=
  match ctl / 32 % 4 with
  | 1 => 2
  | 2 => 4
  | _ => 1

/-- One value of the machine-vision output: the average of an n × n box. -/
def visionAt (g : IspIn) (s : State) (tone : Bool) (n k ox oy : Nat) : Int :=
  let sum := ((List.range (n * n)).map (fun i =>
    let v := if tone then toned g s (n * ox + i % n) (n * oy + i / n) else corrected g s (n * ox + i % n) (n * oy + i / n)
    v.getD k 0)).sum
  (sum + (n * n : Nat) / 2) / (n * n : Nat)

/-- The machine-vision output of lines y0 to y1 − 1: C16 FP16 or C32 INT8 (R116), the channels above 2 zero (R117). -/
def visionPieces (g : IspIn) (pitch y0 y1 : Nat) (s : State) : List (Nat × List Byte) :=
  let ctl := leAt g.param 0x30 4
  let n := decimation ctl
  let elem := fun v : Int =>
    if ctl.testBit 3 then leBytes 1 (BitVec.ofInt 8 (v / 256 - 128)).toNat
    else leBytes 2 (convF fp16 false (ofRat ((v : Rat) / 65535))).1
  (linesOf (divUp y0 n) (y1 / n)).map (fun oy => (oy * pitch, (List.range (g.w / n)).flatMap (fun ox =>
    slice ([0, 1, 2].flatMap (fun k => elem (visionAt g s (ctl.testBit 4) n k ox oy))) 0 32)))

/-- A raw tap of lines y0 to y1 − 1 (R177). -/
def tapPieces (g : IspIn) (point pitch y0 y1 : Nat) (s : State) : List (Nat × List Byte) :=
  (linesOf y0 y1).map (fun y => (y * pitch, (List.range g.w).flatMap (fun x => (tapPoint g s point x y).flatMap word16)))

/-- Whether output `o` is on: 0 display, 1 coding, 2 machine vision, 3 to 6 taps 0 to 3 (R177, R190). A tap point that the
manual does not define is off. -/
def outputOn (param : List Byte) (o : Nat) : Bool :=
  if o < 3 then (leAt param 0x30 4).testBit o else decide (byteAt param (0x34 + (o - 3)) < 7)

/-- The address of slot `slot` of output `o`, 7 the statistics (R190). -/
def outputSlot (param : List Byte) (o : Nat) (slot : Bool) : Word64 :=
  BitVec.ofNat 64 (leAt param (0x40 + 16 * o + 8 * slot.toNat) 8)

/-- The pieces of output `o` that lines y0 to y1 − 1 give. -/
def outputPieces (g : IspIn) (o y0 y1 : Nat) (s : State) : List (Nat × List Byte) :=
  let pitch := leAt g.param (0xC0 + 4 * o) 4
  match o with
  | 0 => displayPieces g pitch y0 y1 s
  | 1 => codingPieces g pitch y0 y1 s
  | 2 => visionPieces g pitch y0 y1 s
  | t => tapPieces g (byteAt g.param (0x34 + (t - 3))) pitch y0 y1 s

/-! ### Statistics (R179) -/

/-- Add to a counter of a table of counters. -/
def tally (k n : Nat) (t : Tab Nat) : Tab Nat := tset (fun _ => 0) k (tget (fun _ => 0) t k + n) t

/-- A counter of a table. -/
def tallyOf (k : Nat) (t : Tab Nat) : Nat := tget (fun _ => 0) t k

/-- The zone of a pixel, zy-major. -/
def zoneOf (g : IspIn) (x y : Nat) : Nat := (24 * (y + 1) - 1) / g.h * 32 + (32 * (x + 1) - 1) / g.w

/-- Histograms (key channel × 256 + bin; channels Y, R, G, B) and zone sums (key zone × 4 + channel, 3 the count) with one
pixel more. -/
def statPixel (g : IspIn) (s : State) (x y : Nat) (t : Tab Nat × Tab Nat) : Tab Nat × Tab Nat :=
  let v := (demosaic g s x y).map Int.toNat
  let r := v.getD 0 0
  let gr := v.getD 1 0
  let b := v.getD 2 0
  let lum := (77 * r + 150 * gr + 29 * b + 128) / 256
  let z := 4 * zoneOf g x y
  (tally (lum / 256) 1 (tally (256 + r / 256) 1 (tally (512 + gr / 256) 1 (tally (768 + b / 256) 1 t.1))),
    tally z r (tally (z + 1) gr (tally (z + 2) b (tally (z + 3) 1 t.2))))

/-- The statistics with lines y0 to y1 − 1 more. -/
def statLines (g : IspIn) (y0 y1 : Nat) (s : State) (t : Tab Nat × Tab Nat) : Tab Nat × Tab Nat :=
  (linesOf y0 y1).foldl (fun t y => (List.range g.w).foldl (fun t x => statPixel g s x y t) t) t

/-- The ZONES field of a record: for each zone the averages of R, G, B and 16 bits reserved. -/
def zoneBytes (zones : Tab Nat) : List Byte :=
  (List.range 768).flatMap (fun z =>
    let n := tallyOf (4 * z + 3) zones
    let avg := fun k => if n = 0 then 0 else (tallyOf (4 * z + k) zones + n / 2) / n
    leBytes 2 (avg 0) ++ leBytes 2 (avg 1) ++ leBytes 2 (avg 2) ++ leBytes 2 0)

/-- The HIST field of a record. -/
def histBytes (hist : Tab Nat) : List Byte := (List.range 1024).flatMap (fun k => leBytes 4 (tallyOf k hist))

end Sys2Proof.Machine
end

