-- ==== Sys2Proof/Machine/Camera.lean ====
section
/-! DEFINITION. Camera receivers, streams, contexts, the image pipelines and the sensor settings (chapter 7). -/

namespace Sys2Proof.Machine

open Sys2Proof.Config

/-! ### Enables (R171, R189) -/

/-- RECEIVER_ENABLE's effect: a receiver with LANES 0 is refused with FIELD_ZERO, one with LANES other than 1, 2 or 4
stays disabled. The CODE lies in [23:16] as in the other status registers (PRESUMED, log entry 30). -/
def receiverEnable (r : Nat) (v : Word) (s : State) : State :=
  let lanes := fld v 2 0
  let ok := lanes = 1 ∨ lanes = 2 ∨ lanes = 4
  let s := setReg (Reg.CAM_RXr_CTL r) (setBit (v &&& 0x8000000F) 31 (bit v 31 && decide ok)) s
  if bit v 31 then setRegFld (Reg.CAM_RXr_STAT r) 23 16 (if lanes = 0 then Code.fieldZero else 0) s else s

/-- RECEIVER_ENABLE (R189). -/
def execReceiverEnable (w : Writer) (rx : Fin 12) (value : Word) (s : State) : Host.Outcome State Fault Refusal :=
  .next (asWriter w (Reg.CAM_RXr_CTL rx) (receiverEnable rx.val value) s)

/-- Stream `k`. -/
def getStream (k : Nat) (s : State) : Stream := tget (fun _ => Stream.reset) s.cam.streams k

/-- The state with stream `k` set. -/
def setStream (k : Nat) (v : Stream) (s : State) : State :=
  { s with cam := { s.cam with streams := tset (fun _ => Stream.reset) k v s.cam.streams } }

/-- WIDTH, HEIGHT, DEPTH and the pitch in bytes of a stream. -/
def strW (k : Nat) (s : State) : Nat := regFld (Reg.CAM_STRs_SIZE k) 15 0 s
/-- HEIGHT of a stream. -/
def strH (k : Nat) (s : State) : Nat := regFld (Reg.CAM_STRs_SIZE k) 31 16 s
/-- DEPTH of a stream's line ring. -/
def strDepth (k : Nat) (s : State) : Nat := regFld (Reg.CAM_STRs_GEOM k) 15 0 s
/-- PITCH of a stream's line ring in bytes. -/
def strPitch (k : Nat) (s : State) : Nat := 64 * regFld (Reg.CAM_STRs_GEOM k) 31 16 s

/-- Whether context `c` is enabled. -/
def ctxOn (c : Nat) (s : State) : Bool := regBit (Reg.ISP_CTXc_CTL c) 31 s

/-- The stream of context `c`. -/
def ctxStream (c : Nat) (s : State) : Nat := regFld (Reg.ISP_CTXc_CTL c) 23 20 s

/-- A stream numbers its frames from 0 again: no frame start and no latch point of that numbering has been in the contexts that
name it (R162, R181, R182). -/
def newSchedule (st : Nat) (s : State) : State :=
  (List.range 16).foldl (fun s c =>
    if ctxOn c s ∧ ctxStream c s = st then setCtx c { getCtx c s with lastFrame := none, latches := [], latched := none } s
    else s) s

/-- STREAM_ENABLE's effect: with WIDTH, HEIGHT or DEPTH 0 the stream stays disabled with FIELD_ZERO; a stream that
becomes enabled starts its frame counter anew (R162, R189), and with it the schedule of latch points of the contexts that it
feeds. A frame in progress stays open until the next frame start closes it (R164), and the line ring keeps its lines (R165). -/
def streamEnable (k : Nat) (v : Word) (s : State) : State :=
  let ok := decide (0 < strW k s) && decide (0 < strH k s) && decide (0 < strDepth k s)
  let was := regBit (Reg.CAM_STRs_CTL k) 31 s
  let s := setReg (Reg.CAM_STRs_CTL k) (setBit (v &&& 0x800F0F3F) 31 (bit v 31 && ok)) s
  let s := if bit v 31 then setRegFld (Reg.CAM_STRs_ERR k) 23 16 (if ok then 0 else Code.fieldZero) s else s
  if bit v 31 && ok && was then s
  else
    let x := getStream k s
    newSchedule k (setStream k { Stream.reset with frame := x.frame, slots := x.slots } s)

/-- STREAM_ENABLE (R189). -/
def execStreamEnable (w : Writer) (stream : Fin 16) (value : Word) (s : State) : Host.Outcome State Fault Refusal :=
  .next (asWriter w (Reg.CAM_STRs_CTL stream) (streamEnable stream.val value) s)

/-- Pipeline `p`. -/
def getPipe (p : Nat) (s : State) : Pipe := tget (fun _ => Pipe.reset) s.cam.pipes p

/-- The state with pipeline `p` set. -/
def setPipe (p : Nat) (v : Pipe) (s : State) : State :=
  { s with cam := { s.cam with pipes := tset (fun _ => Pipe.reset) p v s.cam.pipes } }

/-- Free the pipelines that context `c` holds in frame mode. -/
def freePipes (c : Nat) (s : State) : State :=
  (List.range 2).foldl (fun s p =>
    if (getPipe p s).locked = some c then setPipe p { getPipe p s with locked := none } s else s) s

/-- CONTEXT_ENABLE's effect: STRIPE_LINES or FROZEN_COUNT 0 is refused with FIELD_ZERO (R189), a broken condition of R171
with CFG_ERR. A context that becomes enabled, or is disabled, has no frame in progress and no frozen run, and holds no pipeline
(DESIGN CHOICE, log entry 179: also one that it held between two stripes). -/
def contextEnable (c : Nat) (v : Word) (s : State) : State :=
  let lines := fld v 8 0
  let st := fld v 23 20
  let zero := decide (lines = 0) || decide (regFld (Reg.ISP_CTXc_FRZ c) 27 24 s = 0)
  let fits := regBit (Reg.CAM_STRs_CTL st) 31 s && decide (2 * lines + 4 ≤ strDepth st s) &&
    decide (lines % 8 = 0) && decide (8 ≤ lines) && decide (lines ≤ 256)
  let ok := bit v 31 && !zero && fits
  let was := ctxOn c s
  let s := setReg (Reg.ISP_CTXc_CTL c) (setBit (v &&& 0xE0FC01FF) 31 ok) s
  let s := if bit v 31 then setRegFld (Reg.ISP_CTXc_STAT c) 23 16 (if zero then Code.fieldZero else 0) s else s
  let s := if bit v 31 && !zero && !fits then orReg (Reg.ISP_CTXc_STAT c) 0x10 s else s
  if ok && was then s
  else
    let x := getCtx c s
    showInvalid (freePipes c (setCtx c { x with
      frames := [], lastHash := none, run := 0, frozen := false, absent := false,
      seenAt := now s, lastFrame := none, latches := [], latched := none, early := none } s))

/-- CONTEXT_ENABLE (R171). -/
def execContextEnable (w : Writer) (ctx : Fin 16) (value : Word) (s : State) : Host.Outcome State Fault Refusal :=
  .next (asWriter w (Reg.ISP_CTXc_CTL ctx) (contextEnable ctx.val value) s)

/-! ### Reports to the safety subsystem (R187, R188, R394) -/

/-- A frozen or absent report of context `c` is made: the bindings that depend on it are INVALID, and CAMERA latches. -/
def reportCamera (c : Nat) (s : State) : State :=
  if (List.range 16).any (fun k => (getBinding k s).enabled && regBit (Reg.SAF_CHKk_CAM k) c s)
  then latchInvalid Latch.camera s else showInvalid s

/-! ### Frames and stripes (R161 to R170) -/

/-- The context that a stream feeds: the lowest-numbered enabled one that names it. -/
def ctxOf (st : Nat) (s : State) : Option Nat :=
  (List.range 16).find? (fun c => ctxOn c s && decide (ctxStream c s = st))

/-- Change the frame that a stream receives as `r` in its context: the one of its number and stamp, since a stream that is
enabled anew counts from 0 again. -/
def modFrame (st : Nat) (r : RxFrame) (f : CtxFrame → CtxFrame) (s : State) : State :=
  match ctxOf st s with
  | none => s
  | some c =>
    let x := getCtx c s
    setCtx c { x with frames := x.frames.map (fun fr =>
      if fr.number = r.number ∧ fr.stamp = r.stamp then f fr else fr) } s

/-- Output lines of a stripe of context `c`: first and one past the last. -/
def stripeLines (c i : Nat) (s : State) : Nat × Nat :=
  let n := regFld (Reg.ISP_CTXc_CTL c) 8 0 s
  (i * n, min (strH (ctxStream c s) s) ((i + 1) * n))

/-- Stripes of a frame of context `c`. -/
def stripeCount (c : Nat) (s : State) : Nat := divUp (strH (ctxStream c s) s) (regFld (Reg.ISP_CTXc_CTL c) 8 0 s)

/-- The input lines that a stripe needs: its own and two more on each side, within the frame (R167). -/
def stripeNeeds (c i : Nat) (s : State) : List Nat :=
  let y := stripeLines c i s
  linesOf (y.1 - 2) (min (strH (ctxStream c s) s) (y.2 + 2))

/-- Decide the stripes of a frame in order: one becomes ready when line min(y1 + 2, HEIGHT − 1) has landed (R167), and one
that needs a line that will never land is abandoned (R166). -/
def decideStripes (c : Nat) (s : State) : Nat → CtxFrame → CtxFrame
  | 0, f => f
  | fuel + 1, f =>
    if stripeCount c s ≤ f.decided then f
    else
      let need := stripeNeeds c f.decided s
      if need.any (fun y => decide (y ∈ f.gone) || (f.ended && decide (f.lines ≤ y))) then
        decideStripes c s fuel { f with decided := f.decided + 1 }
      else if need.all (fun y => decide (y < f.lines)) then
        decideStripes c s fuel { f with decided := f.decided + 1, ready := f.ready ++ [(f.decided, now s)] }
      else f

/-- Whether every stripe of a frame has ended or been abandoned. -/
def stripesDone (c : Nat) (f : CtxFrame) (s : State) : Bool :=
  decide (stripeCount c s ≤ f.decided) && f.ready.isEmpty && f.running.isNone

/-- Whether a line of a frame is needed by a stripe that has not finished (R165). -/
def lineNeeded (c : Nat) (f : CtxFrame) (y : Nat) (s : State) : Bool :=
  (List.range (stripeCount c s)).any (fun i =>
    (decide (f.decided ≤ i) || f.ready.any (fun r => r.1 = i) || decide (f.running = some i)) && decide (y ∈ stripeNeeds c i s))

/-- Whether the ring slot of a line still holds a line that is needed (R165). -/
def slotNeeded (st y : Nat) (s : State) : Bool :=
  match ctxOf st s, tget (fun _ => none) (getStream st s).slots (y % strDepth st s) with
  | some c, some (n, t, l) =>
    ((getCtx c s).frames.filter (fun f => f.number = n && f.stamp = t)).any (fun f => lineNeeded c f l s)
  | _, _ => false

/-! ### Commit of a frame (R166, R170, R180, R186, R187) -/

/-- The statistics record (R180). -/
def statRecord (f : CtxFrame) (captured : List Word) (frozen : Bool) : List Byte :=
  let flags := f.late.toNat + 2 * f.mismatch.toNat + 4 * f.corrupt.toNat + 8 * frozen.toNat + 16 * f.overrun.toNat +
    32 * f.noEmb.toNat
  wordBytes f.number ++ leBytes 4 flags ++ leBytes 8 f.stamp.toNat ++ captured.flatMap wordBytes ++
    f.expected.flatMap wordBytes ++ wordBytes (~~~f.crc) ++ leBytes 12 0 ++ histBytes f.hist ++ zoneBytes f.zones

/-- Commit output `o` of a context from a frame with parameter block `param`: the handoff holds the slot's address. -/
def commitOutput (c o : Nat) (param : List Byte) (s : State) : State :=
  let k := ctxKey c o
  let h := getHandoff k s
  let back := !h.front
  let a := outputSlot param o back
  commitOut k (setHandoff k (if back then { h with slot1 := a } else { h with slot0 := a }) s)

/-- The frozen-frame rule for a frame that ends: the context with its repeat run (R187). -/
def frozenRun (x : Ctx) (f : CtxFrame) : Ctx :=
  if f.corrupt then x
  else { x with run := if x.lastHash = some (~~~f.crc) then x.run + 1 else 0, lastHash := some (~~~f.crc) }

/-- Set a context whose repeat run has changed: while the run is at least FROZEN_COUNT the context reports frozen (R187). -/
def setFrozen (c : Nat) (x : Ctx) (s : State) : State :=
  let frozen := decide (regFld (Reg.ISP_CTXc_FRZ c) 27 24 s ≤ x.run)
  let s := setCtx c { x with frozen := frozen } s
  if frozen && !x.frozen then reportCamera c (orReg (Reg.ISP_CTXc_STAT c) 4 s)
  else if x.frozen && !frozen then showInvalid s else s

/-- What stays known of a frame that is committed before its frame end and is not corrupt so far. -/
def earlyOf (f : CtxFrame) (x : Ctx) : Option EarlyFrame :=
  if f.ended || f.corrupt then none else some ⟨f.number, f.stamp, x.lastHash, x.run⟩

/-- Commit the statistics record of the oldest frame of a context, and its outputs and taps when it is not corrupt. -/
def commitFrame (c : Nat) (f : CtxFrame) (s : State) : State :=
  let x := getCtx c s
  let s := setFrozen c (frozenRun { x with frames := x.frames.drop 1, early := earlyOf f x } f) s
  let frozen := (getCtx c s).frozen
  let s := if f.mismatch then orReg (Reg.ISP_CTXc_STAT c) 2 s else s
  let captured := f.captured.map (fun v => v.getD (uncaptured s.freeCtr))
  let s := useFree s
  let k := ctxKey c 7
  let s :=
    if backLocked (getHandoff k s) then skipLocked s
    else
      let a := formAddr (outputSlot f.param 7 (!(getHandoff k s).front))
      commitOutput c 7 f.param (wrBytes a.1 a.2 (statRecord f captured frozen) s)
  let s := setReg (Reg.ISP_CTXc_FRAME c) f.number s
  if f.corrupt then bumpReg (Reg.ISP_CTXc_CORRUPT c) 1 s
  else (List.range 7).foldl (fun s o =>
    if outputOn f.param o && f.begun && decide (o ∉ f.skipped) then commitOutput c o f.param s else s) s

/-- A pipeline that a frame-mode context holds is free again once the frame it began has no stripe left (R168). -/
def unlockPipe (c : Nat) (s : State) : State :=
  if (getCtx c s).frames.any (fun f => f.begun && !stripesDone c f s) then s else freePipes c s

/-- Commit the frames of a context that have no stripe left, oldest first: when the last stripe ends, also before the frame
end has come (R170). -/
def settleGo (c : Nat) : Nat → State → State
  | 0, s => s
  | fuel + 1, s =>
    match (getCtx c s).frames with
    | f :: _ => if stripesDone c f s then settleGo c fuel (commitFrame c f s) else s
    | [] => s

/-- Bring a context up to date: its stripes are decided, finished frames are committed, a free pipeline is unlocked. -/
def settleCtx (c : Nat) (s : State) : State :=
  let x := getCtx c s
  let s := setCtx c { x with frames := x.frames.map (decideStripes c s (stripeCount c s)) } s
  unlockPipe c (settleGo c x.frames.length s)

/-- Bring the context of a stream up to date. -/
def settleStream (st : Nat) (s : State) : State :=
  match ctxOf st s with
  | none => s
  | some c => settleCtx c s

/-! ### Frames on a stream (R162 to R165, R181, R185) -/

/-- Whether a stream receives: it and its receiver are enabled. -/
def streamOn (st : Nat) (s : State) : Bool :=
  regBit (Reg.CAM_STRs_CTL st) 31 s && decide (regFld (Reg.CAM_STRs_CTL st) 19 16 s < 12) &&
    regBit (Reg.CAM_RXr_CTL (regFld (Reg.CAM_STRs_CTL st) 19 16 s)) 31 s

/-- The fields that a governed write sets, over the values before. -/
def mergeFields (fields : List (Option Word)) (old : List Word) : List Word :=
  old.zipIdx.map (fun p => (fields.getD p.2 none).getD p.1)

/-- The frame that a frame start opens in context `c` (R172, R183). A write of ISP_CTXc_PARAM in the same pipeline cycle
takes effect at the next frame start. -/
def openFrame (c : Nat) (number : Word) (s : State) : State :=
  let x := getCtx c s
  let ptr := match x.paramPrev with
    | some (pc, v) => if pc = now s / 6 then v else getReg (Reg.ISP_CTXc_PARAM c) s
    | none => getReg (Reg.ISP_CTXc_PARAM c) s
  let r := readAll .stage ptr.toNat 3648 s
  let s := r.2
  let due := x.governs.filter (fun g => g.1 = number)
  let expected := due.foldl (fun e g => mergeFields g.2.1 e) x.expected
  let f : CtxFrame :=
    { number := number, stamp := s.clk.tick, param := r.1.bytes, lines := 0, gone := [], ended := false,
      corrupt := r.1.bad.isSome, overrun := false, noEmb := true, mismatch := false, late := due.any (fun g => g.2.2),
      captured := [none, none, none, none], expected := expected, crc := 0xFFFFFFFF, ready := [], decided := 0,
      running := none, begun := false, skipped := [], hist := [], zones := [] }
  let latch := now s + regFld (Reg.ISP_CTXc_SENS c) 15 0 s * usRoot
  let absent := x.absent
  let s := setCtx c { x with
    frames := x.frames ++ [f], absent := false, seenAt := now s, lastFrame := some number,
    latches := x.latches ++ [(number, latch)], governs := x.governs.filter (fun g => g.1 ≠ number), expected := expected } s
  if absent then showInvalid s else s

/-- The frame that a stream is receiving turns out corrupt (R164). One that has been committed already, its last stripe having
ended, stands as committed; it is counted, and it leaves the repeat run as it was before it (R166, R170, R187; DEDUCED, log
entry 181). -/
def spoil (st : Nat) (s : State) : State :=
  match (getStream st s).frame, ctxOf st s with
  | some r, some c =>
    let s := modFrame st r (fun f => { f with corrupt := true }) s
    match (getCtx c s).early with
    | some e =>
      if e.number = r.number ∧ e.stamp = r.stamp then
        setFrozen c { getCtx c s with early := none, run := e.run, lastHash := e.lastHash }
          (bumpReg (Reg.ISP_CTXc_CORRUPT c) 1 s)
      else s
    | none => s
  | _, _ => s

/-- A frame ends: its line count is checked (R164). -/
def endFrame (st : Nat) (corrupt : Bool) (s : State) : State :=
  match (getStream st s).frame with
  | none => s
  | some r =>
    let short := decide (r.lines ≠ strH st s)
    let s := if short then orReg (Reg.CAM_STRs_ERR st) 8 s else s
    let s := if corrupt || short then spoil st s else s
    let s := modFrame st r (fun f => { f with ended := true }) s
    settleStream st (setStream st { getStream st s with frame := none } s)

/-- FRAME_START's effect: the predecessor is closed as corrupt when its end has not come (R164), the counter advances, the
frame is stamped with TICK (R162) and opens in the stream's context. -/
def frameStart (st : Nat) (s : State) : State :=
  if streamOn st s then
    let s := endFrame st true s
    let x := getStream st s
    let n : Word := if x.started then x.counter + 1 else 0
    let s := setStream st { x with started := true, counter := n, frame := some ⟨n, s.clk.tick, 0, none⟩ } s
    let s := setReg (Reg.CAM_STRs_FRAME st) n s
    let s := orReg Reg.CLK_EXT_STAT (word (2 ^ (regFld (Reg.CAM_STRs_CTL st) 19 16 s / 3))) s
    match ctxOf st s with
    | none => s
    | some c => openFrame c n s
  else s

/-- FRAME_START (R162). -/
def execFrameStart (stream : Fin 16) (s : State) : Host.Outcome State Fault Refusal := .next (frameStart stream.val s)

/-- Bits of a pixel of a data type (R160). -/
def rawBits (dt : Nat) : Option Nat :=
  match dt with
  | 0x2A => some 8 | 0x2B => some 10 | 0x2C => some 12 | 0x2D => some 14 | 0x2E => some 16
  | _ => none

/-- What the packet checks of a packet show in CAM_STRs_ERR, and whether the frame is corrupt by them (R164). -/
def packetErrors (st : Nat) (k : PacketCheck) (s : State) : State :=
  orReg (Reg.CAM_STRs_ERR st) (word (k.eccBad.toNat + 2 * k.eccFixed.toNat + 4 * (k.crcBad && !k.eccBad).toNat)) s

/-- The words of a line as landed, left-justified (R161); pixels beyond WIDTH are not landed. -/
def landedWords (b w : Nat) (pixels : List (BitVec 16)) : List Byte :=
  (pixels.take w).flatMap (fun p => leBytes 2 (p.toNat * 2 ^ (16 - b) % 2 ^ 16))

/-- LINE_LANDED's effect (R161, R164, R165). A packet whose header cannot be corrected is no line. -/
def lineLanded (st : Nat) (pixels : List (BitVec 16)) (k : PacketCheck) (s : State) : State :=
  match (getStream st s).frame, rawBits (regFld (Reg.CAM_STRs_CTL st) 5 0 s) with
  | some r, some b =>
    if !streamOn st s then s
    else
      let s := packetErrors st k s
      if k.eccBad then spoil st s
      else
        let y := r.lines
        let wrong := decide (pixels.length ≠ strW st s)
        let drop := slotNeeded st y s
        let s := orReg (Reg.CAM_STRs_ERR st) (word (8 * wrong.toNat + 16 * drop.toNat)) s
        let bytes := landedWords b (strW st s) pixels
        let s := if drop then s
          else wrBytes .stage ((getReg (Reg.CAM_STRs_BUF st) s).toNat + y % strDepth st s * strPitch st s) bytes s
        let x := getStream st s
        let s := setStream st { x with
          frame := some { r with lines := y + 1 }
          slots := if drop then x.slots else tset (fun _ => none) (y % strDepth st s) (some (r.number, r.stamp, y)) x.slots } s
        let s := modFrame st r (fun f => { f with
          lines := y + 1, gone := if drop then f.gone ++ [y] else f.gone, overrun := f.overrun || drop,
          crc := if drop then f.crc else bytes.foldl (crcByte 0x82F63B78) f.crc }) s
        settleStream st (if k.crcBad || wrong || drop then spoil st s else s)
  | _, _ => s

/-- LINE_LANDED (R161). -/
def execLineLanded (stream : Fin 16) (pixels : List (BitVec 16)) (chk : PacketCheck) (s : State) :
    Host.Outcome State Fault Refusal :=
  .next (lineLanded stream.val pixels chk s)

/-- Readback field `i` of an embedded line (R185): the big-endian value of WIDTH bytes at OFFSET, when it lies in it. -/
def readback (param line : List Byte) (i : Nat) : Option Word :=
  let o := leAt param (0xE0 + 4 * i) 2
  let n := byteAt param (0xE2 + 4 * i)
  if 1 ≤ n ∧ n ≤ 4 ∧ o + n ≤ line.length then some (word (beNat ((line.drop o).take n))) else none

/-- Whether a captured field differs from an EXPECTED value that some write has set (R185). A field that no embedded line
gave differs from nothing (DESIGN CHOICE, log entry 200). -/
def mismatched (expected : List Word) (captured : List (Option Word)) : Bool :=
  (List.range 4).any (fun i => decide (expected.getD i 0xFFFFFFFF ≠ 0xFFFFFFFF) &&
    (captured.getD i none).elim false (fun v => decide (v ≠ expected.getD i 0xFFFFFFFF)))

/-- EMBEDDED_LINE's effect: the first line of a frame is kept, up to 4 KiB (R163), its fields are captured and compared
with EXPECTED (R185). -/
def embeddedLine (st : Nat) (bytes : List Byte) (k : PacketCheck) (s : State) : State :=
  match (getStream st s).frame with
  | none => s
  | some r =>
    if !streamOn st s then s
    else
      let s := packetErrors st k s
      let s := if k.eccBad || k.crcBad then spoil st s else s
      if k.eccBad || r.embedded.isSome then s
      else
        let line := bytes.take 4096
        let free := uncaptured s.freeCtr
        let s := setStream st { getStream st s with frame := some { r with embedded := some line } } (useFree s)
        modFrame st r (fun f =>
          let got := (List.range 4).map (fun i => some ((readback f.param line i).getD free))
          { f with noEmb := false, captured := got, mismatch := mismatched f.expected got }) s

/-- EMBEDDED_LINE (R185). -/
def execEmbeddedLine (stream : Fin 16) (bytes : List Byte) (chk : PacketCheck) (s : State) :
    Host.Outcome State Fault Refusal :=
  .next (embeddedLine stream.val bytes chk s)

/-- FRAME_END (R164). -/
def execFrameEnd (stream : Fin 16) (s : State) : Host.Outcome State Fault Refusal :=
  .next (if streamOn stream.val s then endFrame stream.val false s else s)

/-! ### Pipelines (R168, R169) -/

/-- A frame by what tells it from every other of its context: its number and its stamp. -/
def CtxFrame.key (f : CtxFrame) : Word × Word64 := (f.number, f.stamp)

/-- The earliest ready stripe of a context: the frame, the stripe, the instant it became ready. -/
def readyStripe (c : Nat) (s : State) : Option ((Word × Word64) × Nat × Nat) :=
  match (getCtx c s).frames.find? (fun f => !f.ready.isEmpty) with
  | some f => f.ready.head?.map (fun r => (f.key, r.1, r.2))
  | none => none

/-- The context that pipeline `p` serves next: the one whose stripe became ready earliest, the lowest number in a tie; in
frame mode only the context that holds the pipeline (R168). -/
def nextCtx (p : Nat) (s : State) : Option (Nat × (Word × Word64) × Nat) :=
  (List.range 16).foldl (fun (best : Option (Nat × Nat × (Word × Word64) × Nat)) c =>
    if ctxOn c s && decide (regFld (Reg.ISP_CTXc_CTL c) 30 30 s = p) &&
        ((getPipe p s).locked = none || (getPipe p s).locked = some c) then
      match readyStripe c s, best with
      | some (n, i, t), none => some (t, c, n, i)
      | some (n, i, t), some b => if t < b.1 then some (t, c, n, i) else best
      | none, _ => best
    else best) none |>.map (·.2)

/-- The outputs and taps of a frame found locked when its first stripe begins (R306). -/
def lockedOutputs (c : Nat) (param : List Byte) (s : State) : List Nat :=
  (List.range 7).filter (fun o => outputOn param o && backLocked (getHandoff (ctxKey c o) s))

/-- STRIPE_START's effect: the pipeline takes the next stripe at a pipeline cycle; a change of context costs 512 pc and
is counted (R169). -/
def stripeStart (p : Nat) (s : State) : State :=
  let v := getPipe p s
  if v.busy.isSome then s
  else
    match nextCtx p s with
    | none => s
    | some (c, key, i) =>
      let switch := v.lastCtx.isSome && decide (v.lastCtx ≠ some c)
      let y := stripeLines c i s
      let cycles := (if switch then 512 else 0) + divUp ((y.2 - y.1) * strW (ctxStream c s) s) 3
      let x := getCtx c s
      let first := x.frames.any (fun f => decide (f.key = key) && !f.begun)
      let locked := match x.frames.find? (fun f => f.key = key) with
        | some f => lockedOutputs c f.param s
        | none => []
      let s := setCtx c { x with frames := x.frames.map (fun f =>
        if f.key = key then { f with
          ready := f.ready.drop 1, running := some i, begun := true, skipped := if first then locked else f.skipped }
        else f) } s
      let s := if first then locked.foldl (fun s _ => skipLocked s) s else s
      let s := if switch then bumpReg (Reg.ISP_PIPEp_SWITCH p) 1 s else s
      let s := setPipe p { busy := some (c, i, 6 * (divUp (now s) 6 + cycles)), frame := key, lastCtx := some c,
                           locked := if regBit (Reg.ISP_CTXc_CTL c) 29 s then some c else none } s
      setReg (Reg.ISP_PIPEp_STAT p) (word (2 ^ 31 + c)) s

/-- STRIPE_START (R168). -/
def execStripeStart (pipe : Fin 2) (s : State) : Host.Outcome State Fault Refusal := .next (stripeStart pipe.val s)

/-- What a stripe of context `c` is computed from. -/
def ispIn (c : Nat) (f : CtxFrame) (s : State) : IspIn :=
  let st := ctxStream c s
  { w := strW st s, h := strH st s, base := (getReg (Reg.CAM_STRs_BUF st) s).toNat, pitch := strPitch st s,
    depth := strDepth st s, cfa := regFld (Reg.ISP_CTXc_CTL c) 19 18 s, param := f.param }

/-- Checked reads of the lines that a stripe uses; whether one was uncorrectable. -/
def readLines (g : IspIn) (ys : List Nat) (s : State) : Bool × State :=
  ys.foldl (fun (p : Bool × State) y =>
    let r := readAll .stage (landedAddr g 0 y) (2 * g.w) p.2
    (p.1 || r.1.bad.isSome, r.2)) (false, s)

/-- Write pieces to a slot. -/
def writePieces (a : Space × Nat) (ps : List (Nat × List Byte)) (s : State) : State :=
  ps.foldl (fun s p => wrBytes a.1 (a.2 + p.1) p.2 s) s

/-- STRIPE_END's effect: the stripe's lines are read and processed, its part of every enabled output and tap is written to
the back slots, its statistics are added, and a frame with no stripe left commits (R164, R170). -/
def stripeEnd (p : Nat) (s : State) : State :=
  match (getPipe p s).busy with
  | none => s
  | some (c, i, t) =>
    let s := runTo t s
    let key := (getPipe p s).frame
    let s := setReg (Reg.ISP_PIPEp_STAT p) 0 (setPipe p { getPipe p s with busy := none } s)
    match (getCtx c s).frames.find? (fun f => decide (f.key = key) && decide (f.running = some i)) with
    | none => unlockPipe c s
    | some f =>
      let g := ispIn c f s
      let y := stripeLines c i s
      let rd := readLines g (stripeNeeds c i s) s
      let st := statLines g y.1 y.2 s (f.hist, f.zones)
      let s' := (List.range 7).foldl (fun s' o =>
        if outputOn f.param o && decide (o ∉ f.skipped) then
          writePieces (formAddr (outputSlot f.param o (!(getHandoff (ctxKey c o) s).front))) (outputPieces g o y.1 y.2 s) s'
        else s') rd.2
      let x := getCtx c s'
      settleCtx c (setCtx c { x with frames := x.frames.map (fun h =>
        if h.key = key then { h with running := none, corrupt := h.corrupt || rd.1, hist := st.1, zones := st.2 }
        else h) } s')

/-- STRIPE_END (R169). -/
def execStripeEnd (pipe : Fin 2) (s : State) : Host.Outcome State Fault Refusal := .next (stripeEnd pipe.val s)

/-! ### Absent frames (R188) -/

/-- ABSENT_TIMEOUT's effect: ABSENT_MS after the last frame start, or after the enable, the context reports absent. -/
def absentTimeout (c : Nat) (s : State) : State :=
  let ms := regFld (Reg.ISP_CTXc_FRZ c) 15 0 s
  if ctxOn c s && decide (ms ≠ 0) && !(getCtx c s).absent then
    let s := runTo ((getCtx c s).seenAt + ms * 1000 * usRoot) s
    reportCamera c (orReg (Reg.ISP_CTXc_STAT c) 8 (setCtx c { getCtx c s with absent := true } s))
  else s

/-- ABSENT_TIMEOUT (R188). -/
def execAbsentTimeout (ctx : Fin 16) (s : State) : Host.Outcome State Fault Refusal := .next (absentTimeout ctx.val s)

/-! ### Sensor settings (R181 to R185) -/

/-- SENSOR_REQ's effect: the request is queued, or refused with OVERRUN when 16 are (R184). A request whose writes have begun
counts until it completes (DESIGN CHOICE, log entry 199). Its command completes with the request. -/
def sensorReq (i : Issue) (r : SensorRequest) (s : State) : State :=
  let c := r.context.val
  let x := getCtx c s
  if 16 ≤ x.requests.length then answer i Op.sensorReq Code.overrun 0 s
  else
    setCtx c { x with requests := x.requests ++ [⟨i, r, s.cam.orders, false⟩] }
      { s with cam := { s.cam with orders := s.cam.orders + 1 } }

/-- SENSOR_REQ (R182). -/
def execSensorReq (i : Issue) (req : SensorRequest) (s : State) : Host.Outcome State Fault Refusal :=
  .next (command i Op.sensorReq allowHPM (sensorReq i req) s)

/-- The request that a bus serves next: in order of T, then in order of submission (R182). -/
def nextRequest (bus : Nat) (s : State) : Option (Nat × SensorJob) :=
  let all := (List.range 16).flatMap (fun c =>
    if regFld (Reg.ISP_CTXc_SENS c) 28 27 s = bus then
      (((getCtx c s).requests.filter (fun q => !q.started)).map (fun q => (c, q))) else [])
  all.foldl (fun (best : Option (Nat × SensorJob)) e =>
    match best with
    | none => some e
    | some b =>
      if later 32 b.2.req.target.toNat e.2.req.target.toNat ∨ (b.2.req.target = e.2.req.target ∧ e.2.order < b.2.order)
      then some e else best) none

/-- Whether a request's writes may start: the latch point of T − DELAY − 1 has passed, in the order of R6; before the first
latch point of a context, where that frame comes before frame 0 (R182). -/
def mayWrite (c : Nat) (target : Word) (s : State) : Bool :=
  let d := regFld (Reg.ISP_CTXc_SENS c) 31 29 s
  match (getCtx c s).latched with
  | none => decide (target.toNat ≤ d)
  | some l => !later 32 (target - word (d + 1)).toNat l.toNat

/-- Whether the Sensor clerk runs. -/
def sensorClerkUp (s : State) : Bool := coreUp 2 s

/-- The request whose writes a bus carries. -/
def busRequest (bus : Nat) (s : State) : Option (Nat × Nat) := tget (fun _ => none) s.cam.buses bus

/-- SENSOR_WRITE's effect: an idle bus starts the writes of its next request. While the Sensor clerk is stopped no request
starts (R449). -/
def sensorWrite (bus : Nat) (s : State) : State :=
  if (busRequest bus s).isSome || !sensorClerkUp s then s
  else
    match nextRequest bus s with
    | none => s
    | some (c, q) =>
      if mayWrite c q.req.target s then
        let x := getCtx c s
        let s := setCtx c { x with requests := x.requests.map (fun r =>
          if r.order = q.order then { r with started := true } else r) } s
        let s := { s with cam := { s.cam with buses := tset (fun _ => none) bus (some (c, q.order)) s.cam.buses } }
        q.req.writes.foldl (fun s w => emit (.sensorBus bus w) s) s
      else s

/-- SENSOR_WRITE (R182). -/
def execSensorWrite (bus : Fin 4) (s : State) : Host.Outcome State Fault Refusal := .next (sensorWrite bus.val s)

/-- The number of a stream's next frame start (R162). -/
def nextFrame (st : Nat) (s : State) : Word := if (getStream st s).started then (getStream st s).counter + 1 else 0

/-- The frame whose latch point is the first after a write that completes now (R183): a latch point in this same tick has
not taken it (R181); when none is to come it is that of the stream's next frame. -/
def latchFrame (c : Nat) (s : State) : Word :=
  match (getCtx c s).latches.find? (fun l => now s / tickRoot < l.2 / tickRoot) with
  | some l => l.1
  | none => nextFrame (ctxStream c s) s

/-- The frame that a write governs when frame `g` takes it in (R183). -/
def governedBy (c : Nat) (g : Word) (s : State) : Word := g + word (regFld (Reg.ISP_CTXc_SENS c) 31 29 s)

/-- SENSOR_WRITE_COMPLETE's effect: the request completes; when the frame it will govern is later than T it completes with
LATE, for which the manual gives no number (R183). -/
def sensorDone (bus : Nat) (s : State) : State :=
  match busRequest bus s with
  | none => s
  | some (c, order) =>
    let s := { s with cam := { s.cam with buses := tset (fun _ => none) bus none s.cam.buses } }
    let x := getCtx c s
    match x.requests.find? (fun q => q.order = order) with
    | none => s
    | some q =>
      let late := later 32 (governedBy c (latchFrame c s) s).toNat q.req.target.toNat
      let s := setCtx c { x with
        requests := x.requests.filter (fun r => r.order ≠ order)
        written := x.written ++ [(q.req.expected, q.req.target, s.clk.tick)] } s
      let s := if late then orReg (Reg.ISP_CTXc_STAT c) 1 s else s
      completeLate q.issue Op.sensorReq (if late then unstatedCode Op.sensorReq s.freeCtr else 0) 0 (useFree s)

/-- SENSOR_WRITE_COMPLETE (R183). -/
def execSensorWriteComplete (bus : Fin 4) (s : State) : Host.Outcome State Fault Refusal := .next (sensorDone bus.val s)

/-- A governed write takes effect on the frames already started that it governs; what the embedded line of such a frame has
shown is compared again (R185). -/
def governStarted (e : Word × List (Option Word) × Bool) (f : CtxFrame) : CtxFrame :=
  if later 32 e.1.toNat f.number.toNat then f
  else
    let want := mergeFields e.2.1 f.expected
    { f with expected := want, mismatch := mismatched want f.captured, late := f.late || (e.2.2 && decide (f.number = e.1)) }

/-- LATCH_POINT's effect: the sensor takes in the writes completed in a tick before this one; they govern frame G + DELAY
(R181). -/
def latchPoint (c : Nat) (s : State) : State :=
  match (getCtx c s).latches with
  | [] => s
  | (g, t) :: rest =>
    let s := runTo t s
    let x := getCtx c s
    let taken := x.written.filter (fun w => decide (w.2.2 ≠ s.clk.tick))
    let left := x.written.filter (fun w => decide (w.2.2 = s.clk.tick))
    let n := governedBy c g s
    let es := taken.map (fun w => (n, w.1, later 32 n.toNat w.2.1.toNat))
    let started := match x.lastFrame with
      | some l => !later 32 n.toNat l.toNat
      | none => false
    let x := { x with latches := rest, latched := some g, written := left }
    setCtx c (if started then { x with
        frames := x.frames.map (fun f => es.foldl (fun f e => governStarted e f) f)
        expected := es.foldl (fun v e => mergeFields e.2.1 v) x.expected }
      else { x with governs := x.governs ++ es }) s

/-- LATCH_POINT (R181). -/
def execLatchPoint (ctx : Fin 16) (s : State) : Host.Outcome State Fault Refusal := .next (latchPoint ctx.val s)

end Sys2Proof.Machine
end

