-- ==== Sys2Proof/Machine/Deflate.lean ====
section
/-! DEFINITION. The decoder of a raw DEFLATE stream (RFC 1951), as R192 names it: the bytes that a stream yields, or nothing
where a block is invalid. A stream is a list of bits, the low bit of each byte first. -/

namespace Sys2Proof.Machine

/-- The bits of bytes, low bit first. -/
def bitsOf (bs : List Byte) : List Bool := bs.flatMap (fun b => (List.range 8).map (fun i => b.getLsbD i))

/-- `n` bits as a number, least significant first, and what follows; `none` at the stream's end. -/
def takeBits : Nat → List Bool → Option (Nat × List Bool)
  | 0, r => some (0, r)
  | _ + 1, [] => none
  | n + 1, b :: r => (takeBits n r).map (fun p => (b.toNat + 2 * p.1, p.2))

/-- A prefix code by the lengths of its symbols. -/
abbrev Lens := List Nat

/-- How many symbols have a length. -/
def lenCount (ls : Lens) (n : Nat) : Nat := (ls.filter (fun l => l = n)).length

/-- The symbols in the order of their codes: by length, then by symbol. -/
def codeOrder (ls : Lens) : List Nat :=
  (List.range 15).flatMap (fun n => ((ls.zipIdx).filter (fun p => p.1 = n + 1)).map (·.2))

/-- Whether a set of lengths has no more codes than fit. -/
def lensOk (ls : Lens) : Bool := decide (((List.range 15).map (fun n => lenCount ls (n + 1) * 2 ^ (14 - n))).sum ≤ 2 ^ 15)

/-- Decode one symbol: `code` is what has been read so far, `first` the first code of the present length, `index` the
number of symbols with shorter codes. -/
def readSym (ls : Lens) (order : List Nat) : Nat → Nat → Nat → Nat → Nat → List Bool → Option (Nat × List Bool)
  | 0, _, _, _, _, _ => none
  | _ + 1, _, _, _, _, [] => none
  | fuel + 1, len, code, first, index, b :: r =>
    let code := code + b.toNat
    let n := lenCount ls len
    if code < first + n then (order[index + (code - first)]?).map (fun v => (v, r))
    else readSym ls order fuel (len + 1) (2 * code) (2 * (first + n)) (index + n) r

/-- The next symbol of a code. -/
def nextSym (ls : Lens) (r : List Bool) : Option (Nat × List Bool) := readSym ls (codeOrder ls) 15 1 0 0 0 r

/-- Base and extra bits of a length symbol, 257 to 285. -/
def lengthSym (v : Nat) : Option (Nat × Nat) :=
  if v < 265 then some (v - 254, 0)
  else if v < 285 then
    let e := (v - 261) / 4
    some (3 + (4 + (v - 261) % 4) * 2 ^ e, e)
  else if v = 285 then some (258, 0)
  else none

/-- Base and extra bits of a distance symbol, 0 to 29. -/
def distanceSym (v : Nat) : Option (Nat × Nat) :=
  if v < 4 then some (v + 1, 0)
  else if v < 30 then
    let e := v / 2 - 1
    some (1 + (2 + v % 2) * 2 ^ e, e)
  else none

/-- Copy `n` bytes from `d` back. -/
def copyBack (d : Nat) : Nat → List Byte → List Byte
  | 0, out => out
  | n + 1, out => copyBack d n (out ++ [out.getD (out.length - d) 0])

/-- Symbols of a block up to its end. -/
def inflateCodes (lit dist : Lens) : Nat → List Bool → List Byte → Option (List Byte × List Bool)
  | 0, _, _ => none
  | fuel + 1, r, out =>
    match nextSym lit r with
    | none => none
    | some (v, r) =>
      if v < 256 then inflateCodes lit dist fuel r (out ++ [BitVec.ofNat 8 v])
      else if v = 256 then some (out, r)
      else
        match lengthSym v with
        | none => none
        | some (lb, le) =>
          match takeBits le r with
          | none => none
          | some (lx, r) =>
            match nextSym dist r with
            | none => none
            | some (dv, r) =>
              match distanceSym dv with
              | none => none
              | some (db, de) =>
                match takeBits de r with
                | none => none
                | some (dx, r) =>
                  if out.length < db + dx then none
                  else inflateCodes lit dist fuel r (copyBack (db + dx) (lb + lx) out)

/-- The fixed literal code. -/
def fixedLit : Lens := List.replicate 144 8 ++ List.replicate 112 9 ++ List.replicate 24 7 ++ List.replicate 8 8
/-- The fixed distance code. -/
def fixedDist : Lens := List.replicate 30 5

/-- `n` code lengths, read with the code-length code. -/
def readLens (cl : Lens) (n : Nat) : Nat → List Bool → Lens → Option (Lens × List Bool)
  | 0, r, acc => if acc.length = n then some (acc, r) else none
  | fuel + 1, r, acc =>
    if acc.length = n then some (acc, r)
    else if n < acc.length then none
    else
      match nextSym cl r with
      | none => none
      | some (v, r) =>
        if v < 16 then readLens cl n fuel r (acc ++ [v])
        else if v = 16 then
          match takeBits 2 r, acc.getLast? with
          | some (x, r), some l => readLens cl n fuel r (acc ++ List.replicate (3 + x) l)
          | _, _ => none
        else
          match takeBits (if v = 17 then 3 else 7) r with
          | some (x, r) => readLens cl n fuel r (acc ++ List.replicate ((if v = 17 then 3 else 11) + x) 0)
          | none => none

/-- The lengths of the code-length code, in the order of RFC 1951. -/
def clOrder : List Nat := [16, 17, 18, 0, 8, 7, 9, 6, 10, 5, 11, 4, 12, 3, 13, 2, 14, 1, 15]

/-- `n` 3-bit lengths. -/
def readCl : Nat → List Bool → Option (List Nat × List Bool)
  | 0, r => some ([], r)
  | n + 1, r =>
    match takeBits 3 r with
    | none => none
    | some (v, r) => (readCl n r).map (fun p => (v :: p.1, p.2))

/-- The two codes of a dynamic block. -/
def dynamicCodes (r : List Bool) : Option (Lens × Lens × List Bool) :=
  match takeBits 5 r with
  | none => none
  | some (hlit, r) =>
    match takeBits 5 r with
    | none => none
    | some (hdist, r) =>
      match takeBits 4 r with
      | none => none
      | some (hclen, r) =>
        match readCl (hclen + 4) r with
        | none => none
        | some (vs, r) =>
          let cl := (List.range 19).map (fun k => ((clOrder.zip vs).find? (fun p => p.1 = k)).elim 0 (·.2))
          let n := hlit + 257 + (hdist + 1)
          if !lensOk cl || decide (286 < hlit + 257) then none
          else
            match readLens cl n n r [] with
            | none => none
            | some (ls, r) =>
              let lit := ls.take (hlit + 257)
              let dist := ls.drop (hlit + 257)
              if lensOk lit && lensOk dist && decide (lit.getD 256 0 ≠ 0) then some (lit, dist, r) else none

/-- A stored block: its bytes after the next byte boundary. -/
def storedBlock (r : List Bool) (out : List Byte) : Option (List Byte × List Bool) :=
  match takeBits 16 (r.drop (r.length % 8)) with
  | none => none
  | some (len, r) =>
    match takeBits 16 r with
    | none => none
    | some (nlen, r) =>
      if len + nlen = 65535 ∧ 8 * len ≤ r.length then
        some (out ++ (List.range len).map (fun i => BitVec.ofNat 8 (((takeBits 8 (r.drop (8 * i))).elim 0 (·.1)))),
          r.drop (8 * len))
      else none

/-- Blocks up to the final one. -/
def inflateBlocks : Nat → List Bool → List Byte → Option (List Byte)
  | 0, _, _ => none
  | fuel + 1, r, out =>
    match takeBits 3 r with
    | none => none
    | some (h, r) =>
      let block :=
        match h / 2 with
        | 0 => storedBlock r out
        | 1 => inflateCodes fixedLit fixedDist (r.length + 1) r out
        | 2 =>
          match dynamicCodes r with
          | none => none
          | some (lit, dist, r) => inflateCodes lit dist (r.length + 1) r out
        | _ => none
      match block with
      | none => none
      | some (out, r) => if h % 2 = 1 then some out else inflateBlocks fuel r out

/-- The bytes of a raw DEFLATE stream. -/
def inflate (bs : List Byte) : Option (List Byte) := inflateBlocks (8 * bs.length + 1) (bitsOf bs) []

end Sys2Proof.Machine
end

