-- ==== Sys2Proof/Machine/Sorter.lean ====
section
/-! DEFINITION. The Sorter (chapter 8): queues, decode engines, batches and the host path. -/

namespace Sys2Proof.Machine

open Sys2Proof.Config

/-- Root cycles of one Sorter cycle (R12). -/
abbrev srtRoot : Nat := 4

/-! ### Queues and streams (R206) -/

/-- QUEUE_TAIL_WRITE (R191). -/
def execQueueTailWrite (w : Writer) (queue : Fin 8) (value : Word) (s : State) : Host.Outcome State Fault Refusal :=
  .next (asWriter w (Reg.SRT_Qq_TAIL queue.val) (rwStore (Reg.SRT_Qq_TAIL queue.val) value) s)

/-- QUEUE_ENABLE's effect: with MULT or BUDGET_MIN 0 the queue stays disabled with FIELD_ZERO; a queue that becomes enabled
restarts A_q at 0 (R202, R206). -/
def queueEnable (q : Nat) (v : Word) (s : State) : State :=
  let ok := decide (regFld (Reg.SRT_Qq_BUDGET q) 31 24 s ≠ 0) && decide (regFld (Reg.SRT_Qq_BUDGET q) 23 0 s ≠ 0)
  let was := regBit (Reg.SRT_Qq_CTL q) 31 s
  let s := rwStore (Reg.SRT_Qq_CTL q) (setBit v 31 (bit v 31 && ok)) s
  let s := if bit v 31 then setRegFld (Reg.SRT_Qq_STAT q) 23 16 (if ok then 0 else Code.fieldZero) s else s
  if bit v 31 && ok && !was then setReg (Reg.SRT_Qq_AVG q) 0 s else s

/-- QUEUE_ENABLE (R206). -/
def execQueueEnable (w : Writer) (queue : Fin 8) (value : Word) (s : State) : Host.Outcome State Fault Refusal :=
  .next (asWriter w (Reg.SRT_Qq_CTL queue.val) (queueEnable queue.val value) s)

/-- ROWS of a stream. -/
def bsRows (b : Nat) (s : State) : Nat := regFld (Reg.SRT_BSb_GEOM b) 31 16 s
/-- ROW_LEN of a stream. -/
def bsLen (b : Nat) (s : State) : Nat := regFld (Reg.SRT_BSb_GEOM b) 15 0 s
/-- FMT of a stream: 0 INT8, 1 INT16, 2 FP16, 3 INT32. -/
def bsFmt (b : Nat) (s : State) : Nat := regFld (Reg.SRT_BSb_CFG b) 17 16 s

/-- Bytes of an element of a batch format. -/
def fmtBytes (fmt : Nat) : Nat :=
  match fmt with
  | 0 => 1
  | 1 => 2
  | 2 => 2
  | _ => 4

/-- A length padded to a multiple of 64. -/
def pad64 (n : Nat) : Nat := divUp n 64 * 64

/-- The size of a batch slot (R193). -/
def batchSize (rows len fmt : Nat) : Nat := 64 + rows * 64 * 32 + rows * pad64 len + rows * pad64 (len * fmtBytes fmt)

/-- Whether the slots of a stream hold batches of its geometry: they do not overlap and lie in the staging store (DEDUCED,
log entry 34). -/
def slotsFit (b fmt : Nat) (s : State) : Bool :=
  let n := batchSize (bsRows b s) (bsLen b s) fmt
  let a := regFld (Reg.SRT_BSb_SLOT0 b) 22 0 s
  let c := regFld (Reg.SRT_BSb_SLOT1 b) 22 0 s
  (decide (a + n ≤ c) || decide (c + n ≤ a)) && decide (a + n ≤ 2 ^ 23) && decide (c + n ≤ 2 ^ 23)

/-- The open batch of stream `b`. -/
def getBatch (b : Nat) (s : State) : Batch := tget (fun _ => Batch.reset) s.srt.batches b

/-- The state with an open batch set. -/
def setBatch (b : Nat) (v : Batch) (s : State) : State :=
  { s with srt := { s.srt with batches := tset (fun _ => Batch.reset) b v s.srt.batches } }

/-- The close instant of stream `b` in the present day (R196). -/
def closeInstant (b : Nat) (s : State) : Nat := dayAt (((getReg (Reg.SRT_BSb_CLOSE b) s).toNat * usRoot : Nat) : Int) s

/-- BATCH_STREAM_ENABLE's effect: with ROWS or ROW_LEN 0 the stream stays disabled with FIELD_ZERO; slots that are too
small set CFG_ERR; a stream that becomes enabled starts an empty batch 0. -/
def batchStreamEnable (b : Nat) (v : Word) (s : State) : State :=
  let zero := decide (bsRows b s = 0) || decide (bsLen b s = 0)
  let fits := slotsFit b (fld v 17 16) s
  let was := regBit (Reg.SRT_BSb_CFG b) 31 s
  let ok := bit v 31 && !zero && fits
  let s := rwStore (Reg.SRT_BSb_CFG b) (setBit v 31 ok) s
  let s := if bit v 31 then setRegFld (Reg.SRT_BSb_STAT b) 23 16 (if zero then Code.fieldZero else 0) s else s
  let s := if bit v 31 && !zero && !fits then orReg (Reg.SRT_BSb_STAT b) 1 s else s
  if ok && !was then
    setBatch b { Batch.reset with
      closedDay := if closeInstant b s ≤ now s then some (getReg Reg.DAY_NUM s).toNat else none } s
  else s

/-- BATCH_STREAM_ENABLE (R206). -/
def execBatchStreamEnable (w : Writer) (bs : Fin 4) (value : Word) (s : State) : Host.Outcome State Fault Refusal :=
  .next (asWriter w (Reg.SRT_BSb_CFG bs.val) (batchStreamEnable bs.val value) s)

/-! ### Batches (R193 to R198) -/

/-- A 32-byte segment entry (R194). -/
def segEntry (g : Segment) : List Byte :=
  leBytes 3 g.id.toNat ++ leBytes 1 g.flags ++ leBytes 2 g.row ++ leBytes 2 g.start ++ leBytes 2 g.len ++
    leBytes 1 g.queue ++ leBytes 5 0 ++ leBytes 8 g.stamp.toNat ++ leBytes 8 0

/-- The batch header (R194). -/
def batchHeader (x : Batch) : List Byte :=
  let filled := x.segs.any (fun g => g.flags.testBit 0 || g.flags.testBit 2)
  let stamp := ((x.segs.map (fun g => g.stamp.toNat)).min?).getD 0
  wordBytes x.number ++ leBytes 4 x.segs.length ++ leBytes 2 ((x.segs.map (·.row)).dedup).length ++ leBytes 2 0 ++
    leBytes 4 filled.toNat ++ leBytes 8 stamp ++ leBytes 8 0 ++ leBytes 32 0

/-- The segments of a row in the order of packing. -/
def rowSegs (x : Batch) (r : Nat) : List Segment := x.segs.filter (fun g => g.row = r)

/-- The mark bytes of a row (R195): the 1-based index of the segment at each position, 0 where there is none. -/
def markRow (x : Batch) (len r : Nat) : List Byte :=
  slice ((List.range len).map (fun i =>
    match ((rowSegs x r).zipIdx).find? (fun p => decide (p.1.start ≤ i) && decide (i < p.1.start + p.1.len)) with
    | some p => BitVec.ofNat 8 (p.2 + 1)
    | none => 0)) 0 (pad64 len)

/-- The data bytes of a row. -/
def dataRow (x : Batch) (len e r : Nat) : List Byte :=
  slice ((List.range len).flatMap (fun i =>
    match (rowSegs x r).find? (fun g => decide (g.start ≤ i) && decide (i < g.start + g.len)) with
    | some g => leBytes e (g.elems.getD (i - g.start) 0).toNat
    | none => leBytes e 0)) 0 (pad64 (len * e))

/-- A closed batch as it is written to a slot (R193): pieces at offsets in it. -/
def batchPieces (b : Nat) (x : Batch) (s : State) : List (Nat × List Byte) :=
  let rows := bsRows b s
  let len := bsLen b s
  let e := fmtBytes (bsFmt b s)
  let marks := 64 + rows * 64 * 32
  let data := marks + rows * pad64 len
  [(0, batchHeader x)] ++ x.segs.zipIdx.map (fun p => (64 + 32 * p.2, segEntry p.1)) ++
  (List.range rows).map (fun r => (marks + r * pad64 len, markRow x len r)) ++
  (List.range rows).map (fun r => (data + r * pad64 (len * e), dataRow x len e r))

/-- Close the open batch of a stream: it is written to the back slot and commits, unless a consumer has locked that slot
(R196, R306); the next batch is open. -/
def closeBatch (b : Nat) (s : State) : State :=
  let x := getBatch b s
  let k := streamKey b
  let h := getHandoff k s
  let back := !h.front
  let a : Nat := regFld (if back then Reg.SRT_BSb_SLOT1 b else Reg.SRT_BSb_SLOT0 b) 22 0 s
  let s :=
    if backLocked h then skipLocked s
    else
      let s := writePieces (.stage, a) (batchPieces b x s) s
      let form : Word64 := BitVec.ofNat 64 (2 ^ 63 + a)
      commitOut k (setHandoff k (if back then { h with slot1 := form } else { h with slot0 := form }) s)
  setBatch b { Batch.reset with number := x.number + 1, closedDay := x.closedDay } s

/-- Whether the close instant of the present day has come and has not been met. -/
def closeDue (b : Nat) (s : State) : Bool :=
  regBit (Reg.SRT_BSb_CFG b) 31 s && decide ((getBatch b s).closedDay ≠ some (getReg Reg.DAY_NUM s).toNat) &&
    decide (closeInstant b s / srtRoot ≤ now s / srtRoot)

/-- Close a batch at its close instant. -/
def closeAtInstant (b : Nat) (s : State) : State :=
  if closeDue b s then
    let s := closeBatch b s
    setBatch b { getBatch b s with closedDay := some (getReg Reg.DAY_NUM s).toNat } s
  else s

/-- BATCH_CLOSE (R196). -/
def execBatchClose (bs : Fin 4) (s : State) : Host.Outcome State Fault Refusal :=
  .next (closeAtInstant bs.val (if regBit (Reg.SRT_BSb_CFG bs.val) 31 s then runTo (closeInstant bs.val s) s else s))

/-- The row and offset at which a sample of `n` elements goes, counting a row beyond the last as `rows` (R195). -/
def packAt (x : Batch) (len n : Nat) : Nat × Nat :=
  if x.offset + n ≤ len ∧ x.inRow < 64 then (x.row, x.offset) else (x.row + 1, 0)

/-- Put a segment into the open batch at a row and offset. -/
def putSegment (g : Segment) (at_ : Nat × Nat) (x : Batch) : Batch :=
  { x with
    row := at_.1, offset := at_.2 + g.len, inRow := if at_.1 = x.row then x.inRow + 1 else 1,
    segs := x.segs ++ [{ g with row := at_.1, start := at_.2 }] }

/-- Pack a decoded sample into its stream: a close instant of this cycle comes first, and a sample that needs a row beyond
the last closes the batch (R195, R196). -/
def packSample (b : Nat) (g : Segment) (s : State) : State :=
  if regBit (Reg.SRT_BSb_CFG b) 31 s then
    let s := closeAtInstant b s
    let x := getBatch b s
    let p := packAt x (bsLen b s) g.len
    if bsRows b s ≤ p.1 then
      let s := closeBatch b s
      setBatch b (putSegment g (0, 0) (getBatch b s)) s
    else setBatch b (putSegment g p x) s
  else s

/-! ### Decoders (R192, R199) -/

/-- Elements of `e` bytes. -/
def elemsOf (e : Nat) (bs : List Byte) : Option (List Word) :=
  if bs.length % e = 0 then some ((List.range (bs.length / e)).map (fun i => word (leAt bs (e * i) e))) else none

/-- A signed 16-bit field. -/
def s16At (bs : List Byte) (o : Nat) : Int := (BitVec.ofNat 16 (leAt bs o 2)).toInt

/-- The FP16 pattern nearest to a value. -/
def f16 (q : Rat) : Word := word (convF fp16 false (ofRat q)).1

/-- One unsigned LEB128 number of at most `fuel` bytes. -/
def leb128 : Nat → List Byte → Option (Nat × List Byte)
  | 0, _ => none
  | _ + 1, [] => none
  | fuel + 1, b :: r =>
    if b.toNat < 128 then some (b.toNat, r)
    else (leb128 fuel r).map (fun p => (b.toNat - 128 + 128 * p.1, p.2))

/-- LEB128 numbers to the end of the bytes. -/
def lebAll : Nat → List Byte → Option (List Word)
  | 0, bs => if bs = [] then some [] else none
  | fuel + 1, bs =>
    if bs = [] then some []
    else
      match leb128 5 bs with
      | none => none
      | some (v, r) => (lebAll fuel r).map (word v :: ·)

/-- The elements that a decoder yields for a stream format; `none` when the sample is corrupt by its decoder, its format or
malformed input. -/
def decodeElems (dec fmt : Nat) (bs : List Byte) : Option (List Word) :=
  match dec with
  | 0 => elemsOf (fmtBytes fmt) bs
  | 1 => if fmt = 2 ∧ bs.length % 2 = 0 then
      some ((List.range (bs.length / 2)).map (fun i => f16 ((s16At bs (2 * i) : Rat) / 32768))) else none
  | 2 => if fmt = 3 then lebAll bs.length bs else none
  | 3 => if fmt = 2 ∧ bs.length % 8 = 0 then
      some ((List.range (bs.length / 2)).map (fun i =>
        f16 (if i % 4 = 3 then (s16At bs (2 * i) : Rat) / 32768 else (s16At bs (2 * i) : Rat) / 1000))) else none
  | 4 => (inflate bs).bind (elemsOf (fmtBytes fmt))
  | _ => none

/-- The elements of a sample, `none` when it is corrupt (R199). -/
def sampleElems (x : Sample) (len fmt : Nat) (bytes : List Byte) (bad : Bool) : Option (List Word) :=
  let crcBad := x.decode.getLsbD 7 && decide (crc32c bytes ≠ x.inCrc)
  if bad || crcBad || decide (len < x.outLen) then none
  else
    match decodeElems (x.decode.toNat % 128) fmt bytes with
    | none => none
    | some es => if es.length = x.outLen then some es else none

/-- Decode cycles of a sound sample (R192). -/
def decodeCycles (x : Sample) (bytes : List Byte) : Nat :=
  match x.decode.toNat % 128 with
  | 2 => x.inLen + 16
  | 3 => divUp x.inLen 8 + 16
  | 4 => x.inLen + 2 * ((inflate bytes).getD []).length + backrefCycles bytes + 16
  | _ => divUp x.inLen 32 + 16

/-- Parse a sample descriptor (R191). -/
def parseSample (bs : List Byte) : Sample :=
  { id := BitVec.ofNat 24 (leAt bs 0 3), decode := BitVec.ofNat 8 (byteAt bs 3), inLen := leAt bs 4 4,
    inAddr := BitVec.ofNat 64 (leAt bs 8 8), outLen := leAt bs 0x10 4, inCrc := wordAt bs 0x14,
    stamp := BitVec.ofNat 64 (leAt bs 0x18 8) }

/-- The descriptor's bytes. -/
def sampleBytes (x : Sample) : List Byte :=
  leBytes 3 x.id.toNat ++ leBytes 1 x.decode.toNat ++ leBytes 4 x.inLen ++ leBytes 8 x.inAddr.toNat ++
    leBytes 4 x.outLen ++ wordBytes x.inCrc ++ leBytes 8 x.stamp.toNat

/-! ### Engines (R201, R202, R205) -/

/-- Engine `e`. -/
def getEngine (e : Nat) (s : State) : Option Decoding := tget (fun _ => none) s.srt.engines e

/-- The state with an engine set. -/
def setEngine (e : Nat) (v : Option Decoding) (s : State) : State :=
  { s with srt := { s.srt with engines := tset (fun _ => none) e v s.srt.engines } }

/-- Whether queue `q` is the queue of samples that the host returns (R204): the one that SRT_HP_CTL.RET_Q names. -/
def isReturn (q : Nat) (s : State) : Bool := decide (regFld Reg.SRT_HP_CTL 10 8 s = q)

/-- The stream of queue `q`. -/
def queueStream (q : Nat) (s : State) : Nat := regFld (Reg.SRT_Qq_CTL q) 17 16 s

/-- Whether an enabled queue has a descriptor waiting. -/
def queueWaits (q : Nat) (s : State) : Bool :=
  regBit (Reg.SRT_Qq_CTL q) 31 s && decide (regFld (Reg.SRT_Qq_CTL q) 15 0 s ≠ 0) &&
    decide (getReg (Reg.SRT_Qq_HEAD q) s ≠ getReg (Reg.SRT_Qq_TAIL q) s)

/-- The queue that engine `e` last served; an engine that has served none begins with queue 0. -/
def lastQueue (e : Nat) (s : State) : Nat := tget (fun _ => 7) s.srt.lastQ e

/-- The queue that engine `e` serves next: the first after the one that it last served that waits (R205). -/
def nextQueue (e : Nat) (s : State) : Option Nat :=
  ((List.range 8).map (fun i => (lastQueue e s + 1 + i) % 8)).find? (fun q => queueWaits q s)

/-- The engine that takes next: the lowest idle one (R205). -/
def idleEngine (s : State) : Option Nat := (List.range 8).find? (fun e => (getEngine e s).isNone)

/-- ENGINE_TAKE's effect: the lowest idle engine takes the oldest sample of its next queue, at a cycle of the Sorter's
clock; its budget is fixed at the start (R201, R205). An uncorrectable word of the descriptor makes the sample corrupt
(R199). -/
def engineTake (s : State) : State :=
  match (idleEngine s).bind (fun e => (nextQueue e s).map (fun q => (e, q))) with
  | some (e, q) =>
    let head := (getReg (Reg.SRT_Qq_HEAD q) s).toNat
    let size := regFld (Reg.SRT_Qq_CTL q) 15 0 s
    let r := readAll .dram ((reg64 (Reg.SRT_Qq_BASE_LO q) (Reg.SRT_Qq_BASE_HI q) s).toNat + 32 * head) 32 s
    let x := parseSample r.1.bytes
    let s := setReg (Reg.SRT_Qq_HEAD q) (word ((head + 1) % size)) r.2
    let b := queueStream q s
    let bytes := rdBytes .dram x.inAddr.toNat x.inLen s
    let bad := r.1.bad.isSome || !(marksIn .dram x.inAddr.toNat x.inLen true s).isEmpty
    let sound := (sampleElems x (bsLen b s) (bsFmt b s) bytes bad).isSome
    let cycles := if sound then decodeCycles x bytes else faultCycles s.freeCtr
    let budget := if isReturn q s then none
      else some (max (regFld (Reg.SRT_Qq_BUDGET q) 23 0 s) (regFld (Reg.SRT_Qq_BUDGET q) 31 24 s *
        (getReg (Reg.SRT_Qq_AVG q) s).toNat))
    let d : Decoding := ⟨q, s.srt.orders, x, srtRoot * divUp (now s) srtRoot, cycles, budget, r.1.bad.isSome⟩
    let s := setEngine e (some d) (if sound then s else useFree s)
    { s with srt := { s.srt with lastQ := tset (fun _ => 7) e q s.srt.lastQ, orders := s.srt.orders + 1 } }
  | none => s

/-- ENGINE_TAKE (R205). -/
def execEngineTake (s : State) : Host.Outcome State Fault Refusal := .next (engineTake s)

/-- A_q after a sample of `t` cycles (R202). -/
def updateAvg (q t : Nat) (s : State) : State :=
  let a : Int := (getReg (Reg.SRT_Qq_AVG q) s).toNat
  setReg (Reg.SRT_Qq_AVG q) (wordI (a + ((t : Int) - a) / 16)) s

/-- The instant at which a decoding ends, when its budget does not run out first (R201). -/
def decodeEndAt (d : Decoding) : Option Nat :=
  match d.budget with
  | none => some (d.startAt + srtRoot * d.cycles)
  | some b => if d.cycles ≤ b then some (d.startAt + srtRoot * d.cycles) else none

/-- The filler elements of a sample (R200). -/
def fillerElems (b n : Nat) (s : State) : List Word :=
  let p : BitVec 16 := (getReg (Reg.SRT_BSb_CFG b) s).truncate 16
  List.replicate n (p.signExtend 32)

/-- Pack a sample as a filler with a flag (R200, R203). -/
def packFiller (q : Nat) (x : Sample) (flag : Nat) (s : State) : State :=
  let b := queueStream q s
  let n := if bsLen b s < x.outLen then bsLen b s else x.outLen
  packSample b ⟨x.id, flag + 2 * (isReturn q s).toNat, 0, 0, q, x.stamp, fillerElems b n s, n⟩ s

/-- The end of one decoding: the input is read, and the sample is packed, as a filler when it is corrupt (R195, R199, R200,
R202). -/
def finishDecoding (d : Decoding) (s : State) : State :=
  let b := queueStream d.queue s
  let r := readAll .dram d.sample.inAddr.toNat d.sample.inLen s
  let s := r.2
  match sampleElems d.sample (bsLen b s) (bsFmt b s) r.1.bytes (d.descBad || r.1.bad.isSome) with
  | some es =>
    packSample b ⟨d.sample.id, 2 * (isReturn d.queue s).toNat, 0, 0, d.queue, d.sample.stamp, es, es.length⟩
      (updateAvg d.queue d.cycles s)
  | none => packFiller d.queue d.sample 1 (bumpReg (Reg.SRT_Qq_CORRUPT d.queue) 1 s)

/-- Put a decoding before the first that comes after it in the order of R198: by queue, then by submission. -/
def insertDecoding (x : Nat × Decoding) : List (Nat × Decoding) → List (Nat × Decoding)
  | [] => [x]
  | y :: r =>
    if x.2.queue < y.2.queue ∨ (x.2.queue = y.2.queue ∧ x.2.order ≤ y.2.order) then x :: y :: r
    else y :: insertDecoding x r

/-- The engines whose decodings end at an instant, in order of queue and then of submission (R198). -/
def decodesEnding (t : Nat) (s : State) : List (Nat × Decoding) :=
  let all := (List.range 8).filterMap (fun e => (getEngine e s).map (fun d => (e, d)))
  (all.filter (fun p => decodeEndAt p.2 = some t)).foldr insertDecoding []

/-- DECODE_END's effect: every decoding that ends in this cycle is packed, in the order of R198. -/
def decodeEnd (e : Nat) (s : State) : State :=
  match (getEngine e s).bind decodeEndAt with
  | none => s
  | some t =>
    let s := runTo t s
    (decodesEnding t s).foldl (fun s p => finishDecoding p.2 (setEngine p.1 none s)) s

/-- DECODE_END (R195). -/
def execDecodeEnd (engine : Fin 8) (s : State) : Host.Outcome State Fault Refusal := .next (decodeEnd engine.val s)

/-! ### The host path (R203) -/

/-- Entries in the host-path queue: TAIL and HEAD count entries, and an entry lies at its count modulo 32 (DESIGN CHOICE,
log entry 35). -/
def hostPathCount (s : State) : Nat := (getReg Reg.SRT_HP_TAIL s - getReg Reg.SRT_HP_HEAD s).toNat

/-- Post a sample to the host path: its descriptor and its queue number, and vector 9 (R203, R327). -/
def postHostPath (q : Nat) (x : Sample) (s : State) : State :=
  let a := 4096 * regFld Reg.SRT_HP_CTL 7 0 s + 64 * ((getReg Reg.SRT_HP_TAIL s).toNat % 32)
  let s := wrBytes .dram a (sampleBytes x ++ leBytes 32 q) s
  emit (.msix 9) (bumpReg (Reg.SRT_Qq_HOSTED q) 1 (incReg Reg.SRT_HP_TAIL s))

/-- BUDGET_EXPIRY's effect: the engine abandons the sample and posts it, or packs a filler with DROPPED when the host path
is full or disabled (R201 to R203). -/
def budgetExpiry (e : Nat) (s : State) : State :=
  match getEngine e s with
  | some d =>
    match d.budget with
    | some b =>
      if d.cycles ≤ b then s
      else
        let s := setEngine e none (runTo (d.startAt + srtRoot * b) s)
        if regBit Reg.SRT_HP_CTL 31 s && decide (hostPathCount s < 32) then
          postHostPath d.queue d.sample (updateAvg d.queue b s)
        else
          packFiller d.queue d.sample 4 (setRegFld (Reg.SRT_Qq_STAT d.queue) 23 16 Code.overrun (bumpReg Reg.SRT_HP_DROP 1 s))
    | none => s
  | none => s

/-- BUDGET_EXPIRY (R201). -/
def execBudgetExpiry (engine : Fin 8) (s : State) : Host.Outcome State Fault Refusal := .next (budgetExpiry engine.val s)

end Sys2Proof.Machine
end

