-- ==== Sys2Proof/Machine/Servo.lean ====
section
/-! DEFINITION. The servo engine (chapter 10), the counterfoil servo checker (R385 to R387, R393) and the trace buffer. -/

namespace Sys2Proof.Machine

open Sys2Proof.Config

/-- Root cycles of one servo cycle (R12, 960 MHz). -/
abbrev scRoot : Nat := 5

/-- The first instant at or after `from_` that lies `off` ticks after the start of a slot: slots are whole microseconds of the
timebase, and the day's start is one of them (R16). -/
def slotInstant (from_ off : Nat) (s : State) : Nat :=
  let t := fabricEdge (s.day.start % (usRoot : Int)).toNat s + off * tickRoot
  from_ + (t % usRoot + usRoot - from_ % usRoot) % usRoot

/-! ### Arithmetic (R248, R252, R253) -/

/-- scale(x, SC) with a target of `bits` bits (R248). -/
def scale (bits : Nat) (x : Int) (sc : Word) : Int × Nat :=
  satTo bits (rneDiv (x * s16 sc 16) (2 ^ min 47 (fld sc 5 0)))

/-- Coefficients and limits of one stage (R252). -/
structure StageCfg where
  b    : List Int
  a    : List Int
  sh   : Nat
  uMax : Int
  uMin : Int
  deriving DecidableEq, Repr

/-- Stage `k` (0 P, 1 V, 2 I) of an axis's active set; with ORDER 0, B3 and A3 are ignored. -/
def stageCfg (n k : Nat) (s : State) : StageCfg :=
  let b01 := activeReg (Reg.SRV_AXISn_Ss_B01 n k) s
  let b23 := activeReg (Reg.SRV_AXISn_Ss_B23 n k) s
  let a12 := activeReg (Reg.SRV_AXISn_Ss_A12 n k) s
  let a3 := activeReg (Reg.SRV_AXISn_Ss_A3 n k) s
  let lim := activeReg (Reg.SRV_AXISn_Ss_LIM n k) s
  let third := fun w lo => if bit a3 8 then s16 w lo else 0
  { b := [s16 b01 16, s16 b01 0, s16 b23 16, third b23 0], a := [s16 a12 16, s16 a12 0, third a3 16],
    sh := fld a3 2 0, uMax := s16 lim 16, uMin := s16 lim 0 }

/-- The sum of products of two lists. -/
def dot (xs ys : List Int) : Int := ((xs.zip ys).map (fun p => p.1 * p.2)).sum

/-- One step of a stage with error `e`: the stage, and whether its output was clamped. `wide` is 0 for the engine, which
rounds to nearest with ties to even (R252), and 8 for the checker, which works in Q1.23 and rounds toward minus infinity
(R385). The histories stay when the output is driven further into a limit (R253). -/
def stageStep (c : StageCfg) (wide : Nat) (st : Stage) (e : Int) : Stage × Bool :=
  let acc := dot c.b (e :: st.e) + dot c.a st.u
  let ut := if wide = 0 then rneDiv acc (2 ^ (15 - c.sh)) else acc / 2 ^ (15 - c.sh)
  let top := c.uMax * 2 ^ wide
  let low := c.uMin * 2 ^ wide
  let u := min (max ut low) top
  let hold := (decide (top < ut) && decide (0 < e)) || (decide (ut < low) && decide (e < 0))
  (if hold then { st with out := u } else ⟨(e :: st.e).take 3, (u :: st.u).take 3, u⟩, decide (u ≠ ut))

/-- What a cascade yields: the command, the saturation events, the stages, e_p, e_v, e_i, and whether a stage clamped. -/
structure Cascade where
  cmd    : Int
  events : Nat
  stages : List Stage
  errs   : List Int
  clamp  : Bool
  deriving DecidableEq, Repr

/-- Run stage `k` with error `e` as part of a cascade. -/
def runStage (n wide k : Nat) (e : Int) (s : State) (c : Cascade) : Cascade :=
  let r := stageStep (stageCfg n k s) wide (c.stages.getD k Stage.zero) e
  { cmd := r.1.out, events := c.events + r.2.toNat, stages := c.stages.set k r.1, errs := c.errs.set k e,
    clamp := c.clamp || r.2 }

/-- Add events to a cascade. -/
def Cascade.count (c : Cascade) (n : Nat) : Cascade := { c with events := c.events + n }

/-- The cascade of a mode (R249, R250) on the quantities q, r_pos or ρ, ff_v, ff_i, v_meas, i_meas; scaled quantities are
widened to Q1.23 for the checker and its sums limited to 24 bits (R385). e_p is formed in every mode, and e_v wherever r_v
is. -/
def cascade (n wide mode : Nat) (refs : List Int) (stages : List Stage) (s : State) : Cascade :=
  let w := fun v : Int => v * 2 ^ wide
  let at_ := fun i => w (refs.getD i 0)
  let ep := scale 16 (refs.getD 1 0 - refs.getD 0 0) (activeReg (Reg.SRV_AXISn_SC_EP n) s)
  let c : Cascade := ⟨0, ep.2, stages, [w ep.1, 0, 0], false⟩
  let current := fun (r : Int) (c : Cascade) =>
    let e := satTo (16 + wide) (r - at_ 5)
    runStage n wide 2 e.1 s (c.count e.2)
  let velocity := fun (r : Int) (c : Cascade) =>
    let e := satTo (16 + wide) (r - at_ 4)
    runStage n wide 1 e.1 s (c.count e.2)
  let inner := fun (c : Cascade) =>
    let r := satTo (16 + wide) (c.cmd + at_ 3)
    current r.1 (c.count r.2)
  let outer := fun (c : Cascade) =>
    let c := runStage n wide 0 (w ep.1) s c
    let r := satTo (16 + wide) (c.cmd + at_ 2)
    (r.1, c.count r.2)
  match mode with
  | 1 => current (at_ 3) c
  | 2 => inner (velocity (at_ 2) c)
  | 3 => let p := outer c; inner (velocity p.1 p.2)
  | 4 => let p := outer c; velocity p.1 p.2
  | 5 =>
    let p := outer c
    let e := satTo (16 + wide) (p.1 - at_ 4)
    { p.2.count e.2 with cmd := p.1, errs := p.2.errs.set 1 e.1 }
  | _ => c

/-! ### Configuration (R258, R265 to R267) -/

/-- Whether the engine runs. -/
def srvRunning (s : State) : Bool := regBit Reg.SRV_STAT 31 s

/-- The mode of a CTL word; 6 and 7 act as 0 (R250). -/
def modeOf (ctl : Word) : Nat := if fld ctl 2 0 ≤ 5 then fld ctl 2 0 else 0

/-- The stages that a mode enables. -/
def modeStages (mode : Nat) : List Nat :=
  match mode with
  | 1 => [2]
  | 2 => [1, 2]
  | 3 => [0, 1, 2]
  | 4 => [0, 1]
  | 5 => [0]
  | _ => []

/-- The mode of an axis's active set. -/
def activeMode (n : Nat) (s : State) : Nat := modeOf (activeReg (Reg.SRV_AXISn_CTL n) s)

/-- Whether an axis's binding is to a CAN FD entry. -/
def isCanAxis (n : Nat) (s : State) : Bool := bit (activeReg (Reg.SRV_AXISn_BIND n) s) 31

/-- The offsets of an axis's set from its CTL register (R265). -/
def setOffsets : List Nat :=
  [0x00, 0x08, 0x0C, 0x10, 0x14, 0x18, 0x1C, 0x20, 0x24, 0x28, 0x2C, 0x30, 0x34, 0x38] ++
  [0, 1, 2].flatMap (fun k => [0, 4, 8, 12, 16].map (fun o => 0x40 + 0x20 * k + o))

/-- A field that the shadow set puts in use is 0 (R267): MISS_LIMIT, RAMP_STEP, DIV of a CAN FD axis. -/
def setHasZero (n : Nat) (s : State) : Bool :=
  let ctl := getReg (Reg.SRV_AXISn_CTL n) s
  let bind := getReg (Reg.SRV_AXISn_BIND n) s
  (decide (modeOf ctl ≠ 0) && decide (regFld (Reg.SRV_AXISn_MISS n) 7 0 s = 0)) ||
    (bit ctl 5 && decide (getReg (Reg.SRV_AXISn_RAMP n) s = 0)) || (bit bind 31 && decide (fld bind 7 0 = 0))

/-- The shadow set breaks R266: U_MIN above U_MAX in an enabled stage, or the lane and drive of another axis that is not
OFF. -/
def setBreaks (n : Nat) (s : State) : Bool :=
  let bind := getReg (Reg.SRV_AXISn_BIND n) s
  let limits := (modeStages (modeOf (getReg (Reg.SRV_AXISn_CTL n) s))).any (fun k =>
    let w := getReg (Reg.SRV_AXISn_Ss_LIM n k) s
    decide (s16 w 16 < s16 w 0))
  limits || (!bit bind 31 && (List.range 64).any (fun m =>
    let o := activeReg (Reg.SRV_AXISn_BIND m) s
    decide (m ≠ n) && decide (activeMode m s ≠ 0) && !bit o 31 && decide (fld o 27 24 = fld bind 27 24) &&
      decide (fld o 21 20 = fld bind 21 20)))

/-- Command and histories 0, in both channels, and no stage clamped (R243, R254, R257). -/
def quietAxis (a : Axis) : Axis :=
  { a with stages := Stage.three, cStages := Stage.three, cmd := 0, cCmd := 0, clamped := false }

/-- RAMP_EN of an axis's active set. -/
def rampEn (n : Nat) (s : State) : Bool := bit (activeReg (Reg.SRV_AXISn_CTL n) s) 5

/-- Show in SRV_AXISn_STAT whether the ramp of an axis runs. -/
def showRamp (n : Nat) (s : State) : State := setRegFld (Reg.SRV_AXISn_STAT n) 30 30 (getAxis n s).ramping.toNat s

/-- An axis leaves OFF: its histories are 0, its ramp is armed, and unless it has accepted targets it waits for its first
good measurement (R245, R254, R255). -/
def leaveOff (n : Nat) (s : State) : State :=
  let a := getAxis n s
  showRamp n (setAxis n { quietAxis a with armed := rampEn n s, ramping := false, rampLast := false, hasTgt := a.accepted } s)

/-- The committed set of an axis takes effect, or is refused with FIELD_ZERO or CFG_ERR (R265 to R267). -/
def takeSet (n : Nat) (s : State) : State :=
  let s := setRegFld (Reg.SRV_AXISn_CTL n) 31 31 0 s
  let stat := Reg.SRV_AXISn_STAT n
  if setHasZero n s then setRegFld stat 23 16 Code.fieldZero s
  else if setBreaks n s then orReg stat 1 (setRegFld stat 23 16 0 s)
  else
    let old := activeMode n s
    let s := setRegFld stat 23 16 0 s
    let s := { s with srv := { s.srv with active := setOffsets.foldl (fun t o =>
      tset regReset (Reg.SRV_AXISn_CTL n + o) (getReg (Reg.SRV_AXISn_CTL n + o) s) t) s.srv.active } }
    let mode := activeMode n s
    if mode = 0 then
      showRamp n (setAxis n { getAxis n s with armed := false, ramping := false, rampLast := false }
        (setRegFld stat 15 8 0 s))
    else if old = 0 && srvRunning s then leaveOff n s
    else s

/-- AXIS_COMMIT (R265): the shadow CTL fields are written; COMMIT reads 1 until the set takes effect. -/
def axisCommit (n : Nat) (v : Word) (s : State) : State :=
  let c := Reg.SRV_AXISn_CTL n
  let was := regBit c 31 s
  let s := setRegFld c 31 31 (was || bit v 31).toNat (rwStore c v s)
  if bit v 31 && !was then setAxis n { getAxis n s with commitAt := now s / scRoot } s else s

/-- AXIS_COMMIT (R265). -/
def execAxisCommit (w : Writer) (axis : Fin 64) (value : Word) (s : State) : Host.Outcome State Fault Refusal :=
  .next (asWriter w (Reg.SRV_AXISn_CTL axis.val) (axisCommit axis.val value) s)

/-- SERVO_ENABLE (R254): SRV_CTL.ENABLE acts at the next period start. -/
def execServoEnable (w : Writer) (value : Word) (s : State) : Host.Outcome State Fault Refusal :=
  .next (asWriter w Reg.SRV_CTL (rwStore Reg.SRV_CTL value) s)

/-- A write of SRV_PERIOD (R258, R267): 0 is FIELD_ZERO, above 100 CFG_ERR, a value that breaks R15 is refused; any other
is pending for the next day boundary. -/
def writePeriod (v : Word) (s : State) : State :=
  let p := fld v 6 0
  if p = 0 then setRegFld Reg.SRV_STAT 23 16 Code.fieldZero s
  else if 100 < p then orReg Reg.SRV_STAT 1 s
  else if (nextDay s).solverUs % p = 0 then
    setRegFld Reg.SRV_STAT 29 29 1 (setRegFld Reg.SRV_STAT 23 16 0 (setReg Reg.SRV_PERIOD (word p) s))
  else s

/-- A write of SRV_LIMITS (R267): with INV_LIMIT 0 the whole write takes no effect. -/
def writeLimits (v : Word) (s : State) : State :=
  if fld v 7 0 = 0 then setRegFld Reg.SRV_STAT 23 16 Code.fieldZero s
  else setRegFld Reg.SRV_STAT 23 16 0 (rwStore Reg.SRV_LIMITS v s)

/-- SERVO_CONFIG_WRITE (R267). -/
def execServoConfigWrite (w : Writer) (limits : Bool) (value : Word) (s : State) : Host.Outcome State Fault Refusal :=
  .next (asWriter w (if limits then Reg.SRV_LIMITS else Reg.SRV_PERIOD)
    (if limits then writeLimits value else writePeriod value) s)

/-- FAULT_CLEAR's effect: the axis leaves fault with histories 0 and its ramp armed (R243, R254, R255). A fault that the axis
enters in the very servo cycle of the write stays set (R5). -/
def clearFault (n : Nat) (s : State) : State :=
  if regBit (Reg.SRV_AXISn_STAT n) 31 s && decide ((getAxis n s).faultAt ≠ some (now s / scRoot)) then
    showRamp n (setAxis n { quietAxis (getAxis n s) with armed := rampEn n s, ramping := false, rampLast := false }
      (setRegFld (Reg.SRV_AXISn_STAT n) 31 31 0 s))
  else s

/-- FAULT_CLEAR (R243). -/
def execFaultClear (w : Writer) (axis : Fin 64) (s : State) : Host.Outcome State Fault Refusal :=
  .next (asWriter w (Reg.SRV_AXISn_STAT axis.val) (clearFault axis.val) s)

/-! ### Measurements (R237 to R243) -/

/-- A measurement: POS, VEL, CUR and the stamp of the frame that carried it. -/
structure Meas where
  pos   : Word
  vel   : BitVec 16
  cur   : BitVec 16
  stamp : Word64
  deriving DecidableEq, Repr

/-- The measurement of drive `d` of a lane from an up frame's characters 1 to 39 (R274). -/
def upMeas (chars : List Byte) (d : Nat) (stamp : Word64) : Meas :=
  ⟨wordAt chars (3 + 8 * d), BitVec.ofNat 16 (leAt chars (7 + 8 * d) 2), BitVec.ofNat 16 (leAt chars (9 + 8 * d) 2), stamp⟩

/-- VALID of drive `d` in an up frame. -/
def upValid (chars : List Byte) (d : Nat) : Bool := (leAt chars 1 2).testBit (4 * d + 3)

/-- Saturation events of the scaling unit (R248), which the trace trigger sees too (R263). -/
def countSatEvents (n : Nat) (s : State) : State :=
  if n = 0 then s else bumpReg Reg.SRV_SAT_COUNT n { s with srv := { s.srv with satNow := true } }

/-- The newest of the frames heard that was complete strictly before `t`, when that was at `from_` or later and no
uncorrectable error met it (R237 to R239). -/
def heardIn (from_ t : Nat) (hs : List Heard) : Option Heard :=
  match hs.find? (fun h => h.doneAt < t) with
  | some h => if from_ ≤ h.doneAt ∧ h.bad = false then some h else none
  | none => none

/-- The good measurement of a courier axis in the window [from, to) (R238, R287). -/
def courierMeas (lane d from_ to_ : Nat) (s : State) : Option Meas :=
  if regBit (Reg.SRV_LANEl_CTL lane) 31 s && decide (regFld (Reg.SRV_LANEl_STAT lane) 31 29 s = 3) then
    match heardIn from_ to_ (getLane lane s).heard with
    | some h => if upValid h.bytes d then some (upMeas h.bytes d h.stamp) else none
    | none => none
  else none

/-- Word `i` of entry `k` of a controller's axis table (R301). -/
def axisEntry (c k i : Nat) (s : State) : Word := getReg (Reg.CAN_Cc_AXIS_TABLE c (4 * k + i)) s

/-- The good measurement of a CAN FD axis in the window [from, to) (R239, R299). -/
def canMeas (c k from_ to_ : Nat) (s : State) : Option Meas :=
  if bit (axisEntry c k 2 s) 31 && regBit (Reg.CAN_Cc_CTL c) 31 s then
    (heardIn from_ to_ (tget (fun _ => []) (getCan c s).meas k)).map (fun h =>
      ⟨wordAt h.bytes 0, BitVec.ofNat 16 (leAt h.bytes 4 2), BitVec.ofNat 16 (leAt h.bytes 6 2), h.stamp⟩)
  else none

/-- The measurement of axis `n` at a cutoff at `t`, when this is a cutoff of the axis: a CAN FD axis has one in the first
slot of each period in which it runs, and of every period while the engine does not run (DEDUCED, log entry 40); its window
opens at the cutoff of its previous run. -/
def axisMeas (n t : Nat) (first : Bool) (s : State) : Option (Option Meas) :=
  let b := activeReg (Reg.SRV_AXISn_BIND n) s
  if bit b 31 then
    if first && ((getAxis n s).runsNow || !srvRunning s) then
      some (canMeas (fld b 25 24) (fld b 19 12) (getAxis n s).cutAt t s)
    else none
  else some (courierMeas (fld b 27 24) (fld b 21 20) (t - usRoot) t s)

/-- An axis enters fault (R243): command and histories 0; after this period's release the command for the next period is 0
too, while this period's down frames still carry the command of the period before (R260). -/
def enterFault (n : Nat) (late : Bool) (s : State) : State :=
  let a := { quietAxis (getAxis n s) with ramping := false, rampLast := false, faultAt := some (now s / scRoot) }
  let a := if late then { a with lastRel := 0, buf := 0 } else a
  let s := showRamp n (setAxis n a (setRegFld (Reg.SRV_AXISn_STAT n) 31 31 1 s))
  raise Src.servo .axisFault Code.ok [] { s with srv := { s.srv with faultNow := true } }

/-- What a missing measurement does to an axis that is not OFF while the engine runs (R240, R243): MISS_RUN and
SRV_MISS_COUNT count it, and at MISS_LIMIT the axis enters fault. -/
def countMiss (n : Nat) (late : Bool) (s : State) : State :=
  let run := min 255 (regFld (Reg.SRV_AXISn_STAT n) 15 8 s + 1)
  let s := bumpReg Reg.SRV_MISS_COUNT 1 (setRegFld (Reg.SRV_AXISn_STAT n) 15 8 run s)
  if fld (activeReg (Reg.SRV_AXISn_MISS n) s) 7 0 ≤ run ∧ regBit (Reg.SRV_AXISn_STAT n) 31 s = false
  then enterFault n late s else s

/-- The cutoff of one axis (R237 to R245). The first target of an axis is q of its measurement; the scaling unit's saturation
there counts, as the latch's one scaling, unless this period's computation forms q itself (R248). -/
def axisCutoff (n t : Nat) (first : Bool) (s : State) : State :=
  match axisMeas n t first s with
  | none => s
  | some m =>
    let a := { getAxis n s with cutAt := t }
    let active := srvRunning s && decide (a.mode ≠ 0)
    let s := setRegFld (Reg.SRV_AXISn_STAT n) 28 28 m.isNone.toNat s
    match m with
    | some v =>
      let a := { a with
        latchPos := v.pos, latchVel := v.vel, latchCur := v.cur, stamp := some v.stamp, missing := false, counted := false,
        missedPeriod := if first then false else a.missedPeriod }
      let q := scale 32 v.pos.toInt (activeReg (Reg.SRV_AXISn_SC_POS n) s)
      let s := if active then setRegFld (Reg.SRV_AXISn_STAT n) 15 8 0 s else s
      if active && !a.hasTgt then
        let alone := !first || !a.ten || regBit (Reg.SRV_AXISn_STAT n) 31 s
        let v := scale 32 v.vel.toInt (activeReg (Reg.SRV_AXISn_SC_VEL n) s)
        countSatEvents (if alone then q.2 + v.2 else 0) (setAxis n { a with
          tgtPos := q.1, tgtVel := 0, tgtTau := 0, rPos := q.1, newTgt := true, hasTgt := true, counted := alone } s)
      else setAxis n a s
    | none =>
      let s := setAxis n { a with missing := true, missedPeriod := if first then true else a.missedPeriod }
        { s with srv := { s.srv with missNow := true } }
      if active then countMiss n (!first) s else s

/-- The axes that are in fault. -/
def faulted (s : State) : List Nat := (List.range 64).filter (fun n => regBit (Reg.SRV_AXISn_STAT n) 31 s)

/-- The torque-enable outputs of some axes. -/
def tenMask (ns : List Nat) (s : State) : BitVec 16 :=
  ns.foldl (fun m n => m ||| BitVec.ofNat 16 (2 ^ axisTen n s)) 0

/-- A lane in RUNNING with a drive whose window holds no good up frame counts in NO_UP (R284). -/
def countNoUp (t l : Nat) (s : State) : State :=
  let st := getReg (Reg.SRV_LANEl_STAT l) s
  let good := (getLane l s).heard.any (fun h => decide (t - usRoot ≤ h.doneAt) && decide (h.doneAt < t))
  if fld st 31 29 = 3 ∧ fld st 18 16 ≠ 0 ∧ good = false then bumpReg (Reg.SRV_LANEl_NO_UP l) 1 s else s

/-- MEASUREMENT_CUTOFF's effect: the next cutoff, sc 240 of a slot; axes that enter fault in it report together (R395). -/
def cutoff (s : State) : State :=
  let t := slotInstant (max (now s) (s.srv.cutoffAt + 1)) 25 s
  let s := runTo t s
  let first := decide (s.srv.start ≤ t) && decide (t < s.srv.start + usRoot)
  let was := faulted s
  let s := { s with srv := { s.srv with cutoffAt := t } }
  let s := (List.range 16).foldl (fun s l => countNoUp t l s) s
  let s := (List.range 64).foldl (fun s n => axisCutoff n t first s) s
  let new := (faulted s).filter (fun n => decide (n ∉ was))
  if new = [] then s else setLatch Latch.measLost (tenMask new s) s

/-- MEASUREMENT_CUTOFF (R237). -/
def execMeasurementCutoff (s : State) : Host.Outcome State Fault Refusal := .next (cutoff s)

/-! ### The period start (R244 to R247, R254, R258 to R260, R265) -/

/-- The axes that take targets from the solver's record: those with SOURCE 0 (R245). -/
def solverAxes (s : State) : List Nat :=
  (List.range 64).filter (fun n => !bit (activeReg (Reg.SRV_AXISn_CTL n) s) 4)

/-- The record that a consumer starting at `t` takes (R17, R19). -/
def recordAt (t : Nat) (s : State) : Option Record := (s.slv.records.find? (fun r => r.1 < t)).map (·.2)

/-- Whether a new record is refused (R244); the binary points are compared for the axes that are not OFF. -/
def recordRefused (r : Record) (s : State) : Bool :=
  r.flags.getLsbD 4 || decide (regFld Reg.SRV_LIMITS 15 8 s < r.age) || (solverAxes s).any (fun n =>
    let f := activeReg (Reg.SRV_AXISn_FEXP n) s
    decide (activeMode n s ≠ 0) &&
      (decide (fld f 20 16 ≠ r.fTau) || decide (fld f 12 8 ≠ r.fPos) || decide (fld f 4 0 ≠ r.fVel)))

/-- A refused record (R244 to R246). -/
def refuseRecord (s : State) : State :=
  let s := (solverAxes s).foldl (fun s n => setRegFld (Reg.SRV_AXISn_STAT n) 29 29 1 s) s
  let s := bumpReg Reg.SRV_INV_RUN 1 (bumpReg Reg.SRV_REFUSED_COUNT 1 s)
  let s := { s with srv := { s.srv with refusedNow := true } }
  if regFld Reg.SRV_LIMITS 7 0 s ≤ (getReg Reg.SRV_INV_RUN s).toNat then
    setLatch Latch.solverLost 0 (orReg Reg.SRV_STAT 0x40000000 s) else s

/-- An accepted record: each axis takes its entry when it is valid, and holds its targets otherwise (R245, R247). -/
def acceptRecord (r : Record) (s : State) : State :=
  let s := setReg Reg.SRV_INV_RUN 0 (setReg Reg.SRV_REC_SOLVE r.solve s)
  (solverAxes s).foldl (fun s n =>
    let e := tget (fun _ => AxisEntry.zero) r.axes n
    if e.valid then
      setAxis n { getAxis n s with
        tgtPos := e.pos.toInt, tgtVel := e.vel.toInt, tgtTau := e.tau.toInt, rPos := e.pos.toInt, accepted := true,
        hasTgt := true, newTgt := true } (setRegFld (Reg.SRV_AXISn_STAT n) 29 29 0 s)
    else setRegFld (Reg.SRV_AXISn_STAT n) 29 29 1 s) s

/-- Take the last committed record at a period start; one with another SOLVE than the last one is new (R244). -/
def takeRecord (t : Nat) (s : State) : State :=
  match recordAt t s with
  | none => s
  | some r =>
    if s.srv.lastSolve = some r.solve then s
    else
      let s := { s with srv := { s.srv with lastSolve := some r.solve } }
      if recordRefused r s then refuseRecord s else acceptRecord r s

/-- The engine starts: every axis that is not OFF leaves OFF, and no period has given a command yet (R254, R401). -/
def startEngine (s : State) : State :=
  let s := setReg Reg.SRV_PERIOD_NUM 0 (setRegFld Reg.SRV_STAT 31 31 1 s)
  let s := { s with srv := { s.srv with lastSolve := none, proofRun := 0, periods := 0 } }
  (List.range 64).foldl (fun s n =>
    let s := setAxis n { getAxis n s with lastRel := 0, buf := 0, carry := 0, runs := 0 } s
    if activeMode n s = 0 then s else leaveOff n s) s

/-- The engine stops; every MISS_RUN is 0 (R240). -/
def stopEngine (s : State) : State :=
  (List.range 64).foldl (fun s n => setRegFld (Reg.SRV_AXISn_STAT n) 15 8 0 s) (setRegFld Reg.SRV_STAT 31 31 0 s)

/-- What each axis samples at a period start (R251, R257, R259). -/
def sampleAxis (n : Nat) (s : State) : State :=
  let b := activeReg (Reg.SRV_AXISn_BIND n) s
  let runs := !bit b 31 || decide (s.srv.periods % fld b 7 0 = 0)
  let ten := (tenPins s).getLsbD (axisTen n s)
  setAxis n { getAxis n s with mode := activeMode n s, ten := ten, runsNow := runs && srvRunning s } s

/-- The next period start: a whole number of servo periods after the day boundary (R15, R16). -/
def nextStart (s : State) : Nat :=
  let p := s.day.periodUs * usRoot
  dayAt (periodsUpTo (max (now s) (s.srv.start + 1)) p s * p) s

/-- The trigger's events are of the time since the last record (R263). -/
def clearEvents (s : State) : State :=
  { s with srv := { s.srv with satNow := false, refusedNow := false, faultNow := false, missNow := false } }

/-- An armed trace starts at record 0 (R263). -/
def beginTrace (s : State) : State :=
  clearEvents { s with srv := { s.srv with trace := { s.srv.trace with armNext := false, next := 0 } } }

/-- SERVO_PERIOD_START's effect (R259). -/
def periodStart (s : State) : State :=
  let t := nextStart s
  let s := runTo t s
  let s := if s.srv.trace.armNext then beginTrace s else s
  let s := { s with srv := { s.srv with
    start := t, startTick := s.clk.tick } }
  let s := (List.range 64).foldl (fun s n =>
    let a := getAxis n s
    showRamp n (setAxis n { a with
      carry := a.buf, newTgt := false, stepped := false, ramping := a.ramping && !a.rampLast, rampLast := false } s)) s
  let s := (List.range 64).foldl (fun s n =>
    if regBit (Reg.SRV_AXISn_CTL n) 31 s && decide ((getAxis n s).commitAt < t / scRoot) then takeSet n s else s) s
  let on := regBit Reg.SRV_CTL 31 s
  let s := if on && !srvRunning s then startEngine s
    else if on then incReg Reg.SRV_PERIOD_NUM { s with srv := { s.srv with periods := s.srv.periods + 1 } }
    else if srvRunning s then stopEngine s else s
  let s := (List.range 64).foldl (fun s n => sampleAxis n s) s
  if on then takeRecord t s else s

/-- SERVO_PERIOD_START (R259). -/
def execServoPeriodStart (s : State) : Host.Outcome State Fault Refusal := .next (periodStart s)

/-! ### The computation (R242, R247 to R257) -/

/-- The ramp of one period (R255, R256): the axis, and the reference that stands in place of the target `t`. -/
def rampStep (n mode : Nat) (t start : Int) (a : Axis) (s : State) : Axis × Int :=
  let a := if a.armed then { a with armed := false, ramping := true, rho := start } else a
  if a.ramping then
    let step : Int := (activeReg (Reg.SRV_AXISn_RAMP n) s).toNat
    let step := if 3 ≤ mode then step else min step 32767
    let d := t - a.rho
    let last := decide (-step ≤ d) && decide (d ≤ step)
    let rho := if last then t else a.rho + min (max d (-step)) step
    ({ a with rho := rho, rampLast := last }, rho)
  else (a, t)

/-- SOURCE of an axis's active set is the local set-point registers. -/
def localSource (n : Nat) (s : State) : Bool := bit (activeReg (Reg.SRV_AXISn_CTL n) s) 4

/-- The targets of an axis: POS, VEL, TAU of its source. -/
def targetsOf (n : Nat) (a : Axis) (s : State) : Int × Int × Int :=
  if localSource n s then
    ((activeReg (Reg.SRV_AXISn_LOC_POS n) s).toInt, (activeReg (Reg.SRV_AXISn_LOC_VEL n) s).toInt,
      (activeReg (Reg.SRV_AXISn_LOC_TAU n) s).toInt)
  else (a.tgtPos, a.tgtVel, a.tgtTau)

/-- Whether r_pos of an axis runs on from the accepted POS: a SOURCE 0 axis with EXTRAP that is not HELD (R247). -/
def extrapolates (n : Nat) (s : State) : Bool :=
  !localSource n s && bit (activeReg (Reg.SRV_AXISn_CTL n) s) 7 && !regBit (Reg.SRV_AXISn_STAT n) 29 s

/-- r_pos as it stands: what extrapolation has made of the accepted POS, or the target POS (R247). -/
def posRef (n : Nat) (a : Axis) (s : State) : Int := if extrapolates n s then a.rPos else (targetsOf n a s).1

/-- r_pos of a computed period (R247), and the saturation events of its step. A sum outside the 32-bit block has no stated
result. -/
def nextRPos (n : Nat) (a : Axis) (s : State) : Int × Nat :=
  if extrapolates n s && !a.newTgt then
    let d := scale 32 (targetsOf n a s).2.1 (activeReg (Reg.SRV_AXISn_SC_EXT n) s)
    let sum := a.rPos + d.1
    (if (satTo 32 sum).2 = 0 then sum else (rposBeyond sum).toInt, d.2)
  else (posRef n a s, 0)

/-- One computed period of an axis: the axis, and its saturation events. -/
def stepAxis (n : Nat) (a : Axis) (s : State) : Axis × Nat :=
  let v := a.latchVel.toInt
  let i := a.latchCur.toInt
  let q := scale 32 a.latchPos.toInt (activeReg (Reg.SRV_AXISn_SC_POS n) s)
  let vs := scale 32 v (activeReg (Reg.SRV_AXISn_SC_VEL n) s)
  let tgt := targetsOf n a s
  let r := nextRPos n a s
  let fv := scale 16 tgt.2.1 (activeReg (Reg.SRV_AXISn_SC_FFV n) s)
  let fi := scale 16 tgt.2.2 (activeReg (Reg.SRV_AXISn_SC_FFI n) s)
  let outer : Int := if 3 ≤ a.mode then r.1 else if a.mode = 2 then fv.1 else fi.1
  let start : Int := if 3 ≤ a.mode then q.1 else if a.mode = 2 then v else i
  let p := rampStep n a.mode outer start { a with rPos := if localSource n s then a.rPos else r.1 } s
  let a := p.1
  let mute := a.ramping && !bit (activeReg (Reg.SRV_AXISn_CTL n) s) 6
  let ffv := if a.ramping && decide (a.mode = 2) then p.2 else if mute then 0 else fv.1
  let ffi := if a.ramping && decide (a.mode = 1) then p.2 else if mute then 0 else fi.1
  let rp := if 3 ≤ a.mode then p.2 else r.1
  let refs := [q.1, rp, ffv, ffi, v, i]
  let c := cascade n 0 a.mode refs a.stages s
  ({ a with before := a.stages, stages := c.stages, refs := refs, errs := c.errs,
            ffs := [if mute then 0 else fv.1, if mute then 0 else fi.1], clamped := c.clamp, cmd := c.cmd,
            stepped := true, counted := true }, q.2 + vs.2 + r.2 + fv.2 + fi.2 + c.events)

/-- What the scaling unit forms for an axis that is OFF or in fault (R249), and its saturation events: no stage runs and
r_pos does not advance. -/
def idleQuantities (n : Nat) (a : Axis) (s : State) : Axis × Nat :=
  let v := a.latchVel.toInt
  let i := a.latchCur.toInt
  let q := scale 32 a.latchPos.toInt (activeReg (Reg.SRV_AXISn_SC_POS n) s)
  let vs := scale 32 v (activeReg (Reg.SRV_AXISn_SC_VEL n) s)
  let tgt := targetsOf n a s
  let fv := scale 16 tgt.2.1 (activeReg (Reg.SRV_AXISn_SC_FFV n) s)
  let fi := scale 16 tgt.2.2 (activeReg (Reg.SRV_AXISn_SC_FFI n) s)
  let refs := [q.1, posRef n a s, fv.1, fi.1, v, i]
  let c := cascade n 0 0 refs a.stages s
  ({ a with refs := refs, errs := c.errs, ffs := [fv.1, fi.1], counted := true }, q.2 + vs.2 + fv.2 + fi.2 + c.events)

/-- Whether an axis has a measurement and targets to compute with in this period (R242, R245). -/
def canCompute (n : Nat) (a : Axis) (s : State) : Bool :=
  !a.missedPeriod && (localSource n s || a.hasTgt)

/-- The computation of one axis in a period (R242, R243, R249 to R251, R257). -/
def computeAxis (n : Nat) (s : State) : State :=
  let a := getAxis n s
  if !a.runsNow then s
  else
    let s :=
      if a.mode = 0 || regBit (Reg.SRV_AXISn_STAT n) 31 s then
        let r := if a.ten && canCompute n a s then idleQuantities n (quietAxis a) s else (quietAxis a, 0)
        countSatEvents r.2 (setAxis n r.1 s)
      else if !a.ten then
        showRamp n (setAxis n { quietAxis a with armed := rampEn n s, ramping := false, rampLast := false } s)
      else if canCompute n a s then
        let r := stepAxis n a s
        countSatEvents r.2 (showRamp n (setAxis n r.1 s))
      else s
    let a := getAxis n s
    setReg (Reg.SRV_AXISn_CMD n) (word (BitVec.ofInt 16 a.cmd).toNat)
      (setAxis n { a with runs := a.runs + 1 } s)

/-- SERVO_COMPUTE's effect: sc 240 to 464 of a period (R259). -/
def servoCompute (s : State) : State :=
  if srvRunning s then
    (List.range 64).foldl (fun s n => computeAxis n s) (runTo (s.srv.start + 464 * scRoot) s)
  else s

/-- SERVO_COMPUTE (R252). -/
def execServoCompute (s : State) : Host.Outcome State Fault Refusal := .next (servoCompute s)

/-! ### The checker (R385 to R387, R393, R401) -/

/-- The words of an axis's histories. -/
def historyWords (sts : List Stage) : List Int := sts.flatMap (fun st => st.e ++ st.u)

/-- A stage widened to Q1.23. -/
def widen (st : Stage) : Stage := ⟨st.e.map (· * 256), st.u.map (· * 256), st.out * 256⟩

/-- Whether an engine value and a checker value differ by at most TOL_AX. -/
def within (tol : Nat) (h own : Int) : Bool := decide ((256 * h - own).natAbs ≤ tol)

/-- The checker's decision on one axis: history words before the step and the command after it (R386); its own next values
start from the engine's histories. -/
def checkAxis (n : Nat) (a : Axis) (s : State) : Axis :=
  let tol := regFld (Reg.SAF_AXn_TOL n) 23 0 s
  let engine := if a.stepped then a.before else a.stages
  let hist := ((historyWords engine).zip (historyWords a.cStages)).all (fun p => within tol p.1 p.2)
  if a.stepped then
    let c := cascade n 8 a.mode a.refs (a.before.map widen) s
    { a with agree := hist && within tol a.cmd c.cmd, cStages := c.stages, cCmd := c.cmd }
  else { a with agree := hist && within tol a.cmd a.cCmd }

/-- SRV_PERSIST. -/
def srvPersist (s : State) : Nat := regFld Reg.SAF_SRV_CFG 3 0 s

/-- The comparator's account of one axis: RUN, DISAGREE and SAF_SRV_DISAGREE_COUNT (R387). -/
def axisVerdict (n : Nat) (s : State) : State :=
  let a := getAxis n s
  if !a.runsNow then s
  else
    let a := checkAxis n a s
    let s := setAxis n a s
    if a.agree then setReg (Reg.SAF_AXn_STAT n) 0 s
    else
      bumpReg Reg.SAF_SRV_DISAGREE_COUNT 1
        (setReg (Reg.SAF_AXn_STAT n) (word (2 ^ 31 + min 15 (regFld (Reg.SAF_AXn_STAT n) 3 0 s + 1))) s)

/-- The axes whose disagreement has lasted SRV_PERSIST periods. -/
def persistent (s : State) : List Nat :=
  (List.range 64).filter (fun n => (getAxis n s).runsNow && regBit (Reg.SAF_AXn_STAT n) 31 s &&
    decide (srvPersist s ≤ regFld (Reg.SAF_AXn_STAT n) 3 0 s))

/-- SERVO_CHECK's effect: the decisions of a period, by sc 880, and the proof axis; what they latch is latched together
(R386, R387, R393, R395). -/
def servoCheck (proofEngine proofChecker : Bool) (s : State) : State :=
  if srvRunning s then
    let s := runTo (s.srv.start + 880 * scRoot) s
    let s := (List.range 64).foldl (fun s n => axisVerdict n s) s
    let run := if proofEngine && proofChecker then 0 else s.srv.proofRun + 1
    let s := { s with srv := { s.srv with proofRun := run } }
    let bad := persistent s
    let bits := (if bad = [] then [] else [(Latch.servoCmp, tenMask bad s)]) ++
      (if srvPersist s ≤ run then [(Latch.servoProof, (0xFFFF : BitVec 16))] else [])
    if bits = [] then s else setLatches bits s
  else s

/-- SERVO_CHECK (R386). -/
def execServoCheck (proofEngine proofChecker : Bool) (s : State) : Host.Outcome State Fault Refusal :=
  .next (servoCheck proofEngine proofChecker s)

/-- The command frame of a CAN FD axis (R298). -/
def canCommand (c k : Nat) (a : Axis) (en : Bool) (s : State) : CanFrame :=
  let id := axisEntry c k 0 s
  { xtd := bit id 31, fdf := true, brs := bit id 29, esi := false, rtr := false, id := id.truncate 29, dlc := 4,
    data := leBytes 2 (BitVec.ofInt 16 a.lastRel).toNat ++ leBytes 1 (en.toNat + 2 * a.ten.toNat) ++ leBytes 1 a.runs }

/-- Queue the command frame of entry `k`; a frame of the entry that still waits is replaced, and while the controller is
bus-off command frames are discarded (R298). -/
def queueCommand (c k : Nat) (f : CanFrame) (s : State) : State :=
  if 2 ≤ regFld (Reg.CAN_Cc_STAT c) 31 30 s then s
  else
    let x := getCan c s
    let waiting := (tget (fun _ => none) x.axisTx k).isSome
    let s := if waiting then bumpReg (Reg.CAN_Cc_REPLACED c) 1 s else s
    offerCan c (setCan c { x with axisTx := tset (fun _ => none) k (some f) x.axisTx } s)

/-- The release of one axis: an agreeing command while the comparator releases (R387, R401); the released command goes to
the down-frame buffer, or to the CAN FD controller. -/
def releaseAxis (n : Nat) (s : State) : State :=
  let a := getAxis n s
  if !a.runsNow then s
  else
    let a := if a.agree && regBit Reg.SAF_CTL 31 s then { a with lastRel := a.cmd } else a
    let s := setAxis n { a with buf := a.lastRel } s
    let b := activeReg (Reg.SRV_AXISn_BIND n) s
    if bit b 31 then
      let en := decide (a.mode ≠ 0) && !regBit (Reg.SRV_AXISn_STAT n) 31 s
      let c := fld b 25 24
      let k := fld b 19 12
      if bit (axisEntry c k 2 s) 31 then queueCommand c k (canCommand c k a en s) s else s
    else s

/-- COMMAND_RELEASE's effect, at sc 896 (R259, R387). -/
def commandRelease (s : State) : State :=
  if srvRunning s then
    (List.range 64).foldl (fun s n => releaseAxis n s) (runTo (s.srv.start + 896 * scRoot) s)
  else s

/-- COMMAND_RELEASE (R387). -/
def execCommandRelease (s : State) : Host.Outcome State Fault Refusal := .next (commandRelease s)

/-! ### The trace buffer (R261 to R264) -/

/-- A signal of an axis as a 32-bit word (R262). -/
def traceSignal (n sig : Nat) (s : State) : Int :=
  let a := getAxis n s
  let out := fun k => (a.stages.getD k Stage.zero).out
  match sig with
  | 0 => a.errs.getD 0 0
  | 1 => out 0
  | 2 => a.errs.getD 1 0
  | 3 => out 1
  | 4 => a.errs.getD 2 0
  | 5 => out 2
  | 6 => a.cmd
  | 7 => if a.ramping && decide (3 ≤ a.mode) then a.rho else posRef n a s
  | 8 => (scale 32 a.latchPos.toInt (activeReg (Reg.SRV_AXISn_SC_POS n) s)).1
  | 9 => a.latchVel.toInt
  | 10 => a.latchCur.toInt
  | 11 => a.ffs.getD 0 0
  | 12 => a.ffs.getD 1 0
  | 13 =>
    let st := getReg (Reg.SRV_AXISn_STAT n) s
    (a.missing.toNat + 2 * a.clamped.toNat + 4 * (bit st 30).toNat + 8 * (bit st 29).toNat + 16 * (bit st 31).toNat : Nat)
  | _ => 0

/-- N of the trace; values above 16 act as 16 (R261). -/
def traceNodes (s : State) : Nat := min 16 (regFld Reg.SRV_TRC_CTL 4 0 s)

/-- The value of node `j`. -/
def traceNode (j : Nat) (s : State) : Int :=
  traceSignal (regFld (Reg.SRV_TRC_NODEj j) 9 4 s) (regFld (Reg.SRV_TRC_NODEj j) 3 0 s) s

/-- Whether the trigger is met on a record whose node 0 has the value `v` (R263). -/
def traceTrigger (v : Int) (s : State) : Bool :=
  let level := (getReg Reg.SRV_TRC_LEVEL s).toInt
  s.srv.trace.forced ||
  match regFld Reg.SRV_TRC_TRIG 31 28 s, s.srv.trace.prevNode0 with
  | 1, some p => decide (p < level) && decide (level ≤ v)
  | 2, some p => decide (level ≤ p) && decide (v < level)
  | 3, _ => s.srv.missNow
  | 4, _ => s.srv.satNow
  | 5, _ => s.srv.refusedNow
  | 6, _ => s.srv.faultNow
  | _, _ => false

/-- Stop a trace. -/
def stopTrace (s : State) : State := setRegFld Reg.SRV_TRC_STAT 29 29 1 (setRegFld Reg.SRV_TRC_STAT 31 31 0 s)

/-- TRACE_RECORD's effect: one record at sc 464, and the trigger tested on it (R261, R263). -/
def traceRecord (s : State) : State :=
  let n := traceNodes s
  let t := s.srv.trace
  if srvRunning s && regBit Reg.SRV_TRC_STAT 31 s && !t.armNext && decide (n ≠ 0) then
    let s := runTo (s.srv.start + 464 * scRoot) s
    let d := 8192 / n
    let r := t.next % d
    let buf := (List.range n).foldl (fun b j => tset (fun _ => 0) (r * n + j) (wordI (traceNode j s)) b) t.buf
    let v := traceNode 0 s
    let hit := traceTrigger v s && !regBit Reg.SRV_TRC_STAT 30 s
    let post := min (regFld Reg.SRV_TRC_POST 12 0 s) (d - 1)
    let left := if hit then post else t.postLeft - 1
    let ends := (hit || regBit Reg.SRV_TRC_STAT 30 s) && decide (left = 0)
    let s := { s with srv := { s.srv with trace := { t with
      buf := buf, next := (r + 1) % d, forced := false, postLeft := left, prevNode0 := some v } } }
    let s := clearEvents s
    let s := if hit then
        setReg64 Reg.SRV_TRC_STAMP_LO Reg.SRV_TRC_STAMP_HI s.srv.startTick
          (setRegFld Reg.SRV_TRC_STAT 12 0 r (setRegFld Reg.SRV_TRC_STAT 30 30 1 s)) else s
    if ends then stopTrace s else s
  else s

/-- TRACE_RECORD (R261). -/
def execTraceRecord (s : State) : Host.Outcome State Fault Refusal := .next (traceRecord s)

/-- ARM: it clears STOPPED and TRIGGERED and sets RECORDING; recording starts anew at the next period (R263). -/
def traceArm (s : State) : State :=
  modReg Reg.SRV_TRC_STAT (fun w => setBit (setBit (setBit w 31 true) 30 false) 29 false)
    { s with srv := { s.srv with trace := { s.srv.trace with
      armNext := true, forced := false, postLeft := 0, prevNode0 := none } } }

/-- TRACE_ARM (R263). -/
def execTraceArm (w : Writer) (s : State) : Host.Outcome State Fault Refusal := .next (asWriter w Reg.SRV_TRC_CTL traceArm s)

/-- FORCE: a software trigger, while recording (R263). -/
def traceForce (s : State) : State :=
  if regBit Reg.SRV_TRC_STAT 31 s then { s with srv := { s.srv with trace := { s.srv.trace with forced := true } } } else s

/-- TRACE_FORCE (R263). -/
def execTraceForce (w : Writer) (s : State) : Host.Outcome State Fault Refusal :=
  .next (asWriter w Reg.SRV_TRC_CTL traceForce s)

/-- What a read by `w` returns to it: the host's data register takes it (R3); a core's own registers are not part of the
machine's architectural state. -/
def returnTo (w : Writer) (v : Word) (s : State) : State :=
  match w with
  | .host => { s with pcieData := v }
  | .firmware => s

/-- A register read by `w` that has an effect: the host's read of a block window outside a maintenance session returns 0
and is logged (R22, R23). -/
def asReader (w : Writer) (off : Nat) (f : State → Word × State) (s : State) : State :=
  let g := fun s => if blockUsable off s then f s else (0, s)
  match w with
  | .firmware => (g s).2
  | .host =>
    match s.sess.maint with
    | none => returnTo .host 0 (logClosed off s)
    | some m =>
      let r := g { s with sess := { s.sess with maint := some { m with usedAt := now s } } }
      returnTo .host r.1 r.2

/-- A read of SRV_TRC_DATA: the word at SRV_TRC_ADDR, which moves on; 0 while recording (R264). -/
def traceDataRead (s : State) : Word × State :=
  if regBit Reg.SRV_TRC_STAT 31 s then (0, s)
  else
    let a := regFld Reg.SRV_TRC_ADDR 12 0 s
    (tget (fun _ => 0) s.srv.trace.buf a, setReg Reg.SRV_TRC_ADDR (word ((a + 1) % 8192)) s)

/-- TRACE_DATA_READ (R264). -/
def execTraceDataRead (w : Writer) (s : State) : Host.Outcome State Fault Refusal :=
  .next (asReader w Reg.SRV_TRC_DATA traceDataRead s)

end Sys2Proof.Machine
end

