-- ==== Sys2Proof/Machine/Courier.lean ====
section
/-! DEFINITION. Courier lanes (chapter 11): down and up frames, enumeration and the service channel. -/

namespace Sys2Proof.Machine

/-- STATE of a lane: 0 OFF, 1 ENUM, 2 ALIGN, 3 RUNNING, 4 LONG. -/
def laneState (l : Nat) (s : State) : Nat := regFld (Reg.SRV_LANEl_STAT l) 31 29 s

/-- Set STATE of a lane. -/
def setLaneState (l v : Nat) (s : State) : State := setRegFld (Reg.SRV_LANEl_STAT l) 31 29 v s

/-- Whether a lane is enabled. -/
def laneOn (l : Nat) (s : State) : Bool := regBit (Reg.SRV_LANEl_CTL l) 31 s

/-- The number of the slot that an instant lies in: timebase tick / 100 (R272). -/
def slotNumber (s : State) : Nat := s.clk.tick.toNat / 100

/-! ### Enumeration (R286, R287) and enabling -/

/-- Start, or restart, the enumeration of a lane: the first request goes in the next slot's down frame. -/
def startEnum (l : Nat) (s : State) : State :=
  setLaneState l 1 (setLane l { getLane l s with
    enum := some { drive := 0, sentSlot := none, nextSlot := slotNumber s + 1, measure := false, rtds := [], lastSlot := 0,
                   writeAlign := false, inPlace := 0 } } s)

/-- LANE_ENABLE's effect: enabling starts enumeration; disabling stops the transmitter (R280, R286). -/
def laneEnable (l : Nat) (v : Word) (s : State) : State :=
  let was := laneOn l s
  let s := setReg (Reg.SRV_LANEl_CTL l) (v &&& 0x80000000) s
  if bit v 31 then (if !was || bit v 30 then startEnum l s else s)
  else if was then
    let s := stopLane l s
    setRegFld (Reg.SRV_LANEl_SVC_RES l) 31 31 0
      (setLaneState l 0 (setLane l { getLane l s with enum := none, svc := none, svcNext := none, rxDisp := none } s))
  else s

/-- LANE_ENABLE (R286). -/
def execLaneEnable (w : Writer) (lane : Fin 16) (value : Word) (s : State) : Host.Outcome State Fault Refusal :=
  .next (asWriter w (Reg.SRV_LANEl_CTL lane.val) (laneEnable lane.val value) s)

/-- ENUM (R286): discarded while ENABLE is 0. -/
def execEnumLane (w : Writer) (lane : Fin 16) (s : State) : Host.Outcome State Fault Refusal :=
  .next (asWriter w (Reg.SRV_LANEl_CTL lane.val) (fun s => if laneOn lane.val s then startEnum lane.val s else s) s)

/-- The requests of an enumeration are over: DRIVES is the number answered; with no drive the lane is RUNNING at once,
else its round trip is measured (R286). -/
def endRequests (l : Nat) (e : Enum) (s : State) : State :=
  let s := setRegFld (Reg.SRV_LANEl_STAT l) 18 16 e.drive s
  if e.drive = 0 then setLaneState l 3 (setLane l { getLane l s with enum := none } s)
  else setLane l { getLane l s with enum := some { e with sentSlot := none, measure := true, rtds := [] } } s

/-- An enumeration request whose reply has not come by U(s + 4) times out (R286, R289). -/
def enumTimeout (l : Nat) (s : State) : State :=
  match (getLane l s).enum with
  | some e =>
    match e.sentSlot with
    | some k => if k + 5 ≤ slotNumber s then endRequests l e s else s
    | none => s
  | none => s

/-! ### The service channel (R288, R289) -/

/-- SERVICE_REQUEST's effect: while BUSY is 1 the write is discarded and logged; OP none and ENUM ask for nothing. -/
def serviceRequest (l : Nat) (v : Word) (s : State) : State :=
  let op := fld v 31 30
  if regBit (Reg.SRV_LANEl_SVC_RES l) 31 s then raise Src.servo .regOverrun Code.overrun [] s
  else if op = 0 ∨ op = 3 then s
  else setReg (Reg.SRV_LANEl_SVC_RES l) 0x80000000 (setLane l { getLane l s with svcNext := some (v &&& 0xF0FFFFFF) } s)

/-- SERVICE_REQUEST (R289). -/
def execServiceRequest (w : Writer) (lane : Fin 16) (value : Word) (s : State) : Host.Outcome State Fault Refusal :=
  .next (asWriter w (Reg.SRV_LANEl_SVC lane.val) (serviceRequest lane.val value) s)

/-- Let time pass to the end of the window of a slot's up frame, sc 240 of the slot. -/
def runToWindow (k : Nat) (s : State) : State :=
  runTo (now s + ((100 * k + 25 - s.clk.tick.toNat) * tickRoot - now s % tickRoot)) s

/-- SERVICE_TIMEOUT's effect: U(s + 4) has passed without a reply: TIMEOUT is set, or the requests of an enumeration end
(R286, R289). -/
def serviceTimeout (l : Nat) (s : State) : State :=
  match (getLane l s).svc with
  | some (_, k) =>
    let s := runToWindow (k + 4) s
    setReg (Reg.SRV_LANEl_SVC_RES l) 0x20000000 (setLane l { getLane l s with svc := none } s)
  | none =>
    match (getLane l s).enum with
    | some e =>
      match e.sentSlot with
      | some k => endRequests l e (runToWindow (k + 4) s)
      | none => s
    | none => s

/-- SERVICE_TIMEOUT (R289). -/
def execServiceTimeout (lane : Fin 16) (s : State) : Host.Outcome State Fault Refusal := .next (serviceTimeout lane.val s)

/-! ### Down frames (R271 to R273) -/

/-- The axis bound to a lane and drive: the one that is not OFF, if there is one (R266); else one that is OFF and whose
command of the period before is still to be carried (R260). -/
def boundAxis (l d : Nat) (s : State) : Option Nat :=
  let bound := (List.range 64).filter (fun n =>
    let b := activeReg (Reg.SRV_AXISn_BIND n) s
    !bit b 31 && decide (fld b 27 24 = l) && decide (fld b 21 20 = d))
  match bound.find? (fun n => decide (activeMode n s ≠ 0)) with
  | some n => some n
  | none => bound.find? (fun n => decide ((getAxis n s).carry ≠ 0))

/-- ENABLE and CMD of a drive in a RUN frame (R273). -/
def driveCommand (l d : Nat) (s : State) : Bool × Int :=
  match boundAxis l d s with
  | none => (false, 0)
  | some n => (decide (activeMode n s ≠ 0) && !regBit (Reg.SRV_AXISn_STAT n) 31 s, (getAxis n s).carry)

/-- Characters 1 to 39 of a down frame that starts now, with a service word (R272). -/
def downChars (l : Nat) (svc : Word) (s : State) : List Byte :=
  let run := srvRunning s && decide (laneState l s = 3)
  let cmd := fun d => if run then driveCommand l d s else (false, 0)
  let ten := (tenPins s).getLsbD l
  let ctl := ((List.range 4).map (fun d => ((cmd d).1.toNat * 8 + ten.toNat * 4) * 16 ^ d)).sum
  let a := leBytes 1 ((if run then 0 else 64) + slotNumber s % 16) ++ leBytes 2 ctl ++
    (List.range 4).flatMap (fun d => leBytes 2 (BitVec.ofInt 16 (cmd d).2).toNat)
  let b := leBytes 8 s.clk.tick.toNat ++ leBytes 4 (s.clk.ofs.toNat % 2 ^ 32) ++ wordBytes svc ++ leBytes 8 0
  a ++ leBytes 2 (crc16 a).toNat ++ b ++ leBytes 2 (crc16 b).toNat

/-- The service word of the next down frame of a lane, and the lane after it is sent: an enumeration request, the ALIGN
write, or a waiting service request; one request is in flight at a time. -/
def nextService (l k : Nat) (s : State) : Word × Lane :=
  let x := getLane l s
  if x.svc.isSome then (0, x)
  else
    match x.enum with
    | some e =>
      if !e.measure && e.sentSlot.isNone && decide (e.nextSlot ≤ k) && decide (e.drive < 4) then
        (word (3 * 2 ^ 30 + e.drive * 2 ^ 28), { x with enum := some { e with sentSlot := some k } })
      else if e.writeAlign then
        let align := (480 - regFld (Reg.SRV_LANEl_RTD l) 8 0 s) % 400
        (word (2 * 2 ^ 30 + (e.drive - 1) * 2 ^ 28 + 2 ^ 16 + align), { x with enum := some { e with writeAlign := false } })
      else (0, x)
    | none =>
      match x.svcNext with
      | some w => (w, { x with svc := some (w, k), svcNext := none })
      | none => (0, x)

/-- One lane at a slot boundary: it starts a down frame, coded with its running disparity (R269). -/
def laneSlot (l : Nat) (s : State) : State :=
  if laneOn l s then
    let s := enumTimeout l s
    let p := nextService l (slotNumber s) s
    let code := encodeFrame (downChars l p.1 s) p.2.txDisp
    emit (.downFrame l code.1) (setLane l { p.2 with txDisp := code.2, startAt := some (now s) } s)
  else s

/-- SLOT_BOUNDARY's effect: at the next whole microsecond every enabled lane starts a down frame (R272). -/
def slotBoundary (s : State) : State :=
  let t := slotInstant (max (now s) (s.srv.slotAt + 1)) 0 s
  let s := runTo t s
  (List.range 16).foldl (fun s l => laneSlot l s) { s with srv := { s.srv with slotAt := t } }

/-- SLOT_BOUNDARY (R272). -/
def execSlotBoundary (s : State) : Host.Outcome State Fault Refusal := .next (slotBoundary s)

/-! ### Up frames (R270, R274, R281 to R287) -/

/-- Whether an up frame's CRC over characters 1 to 37 agrees. -/
def upCrcOk (chars : List Byte) : Bool := decide (leAt chars 37 2 = (crc16 (chars.take 37)).toNat)

/-- Timebase ticks from the arrival of an up delimiter to the end of the frame's CRC check: 400 bit-times and 8 peripheral
cycles (R281). -/
abbrev upFrameTicks : Nat := 102

/-- A bad up frame counts as a coding or a CRC error, and breaks the run of consecutive frames (R284, R286). -/
def badUpFrame (l : Nat) (codeBad : Bool) (s : State) : State :=
  let x := getLane l s
  let s := setLane l { x with enum := x.enum.map (fun e => { e with rtds := [], inPlace := 0 }) } s
  bumpReg (if codeBad then Reg.SRV_LANEl_CODE_ERR l else Reg.SRV_LANEl_CRC_ERR l) 1 s

/-- The round trip of a lane is known (R281, R282, R286): above 200 bit-times the lane is LONG; else the ALIGN write goes
in the next down frame. -/
def roundTripKnown (l rtd : Nat) (e : Enum) (s : State) : State :=
  let s := setReg (Reg.SRV_LANEl_RTD l) (word rtd) s
  if 200 < rtd then setLaneState l 4 (setLane l { getLane l s with enum := none } s)
  else setLaneState l 2 (setLane l { getLane l s with enum := some { e with writeAlign := true, inPlace := 0, rtds := [] } } s)

/-- What a good up frame does to an enumeration in progress. -/
def enumFrame (l : Nat) (chars : List Byte) (rtd k : Nat) (e : Enum) (s : State) : State :=
  let put := fun e s => setLane l { getLane l s with enum := some e } s
  if laneState l s = 2 then
    let n := if rtd % 400 = 80 ∧ e.writeAlign = false then (if k = e.lastSlot + 1 then e.inPlace + 1 else 1) else 0
    if 8 ≤ n then setLaneState l 3 (setLane l { getLane l s with enum := none } s)
    else put { e with inPlace := n, lastSlot := k } s
  else if e.measure then
    let rtds := if k = e.lastSlot + 1 then e.rtds ++ [rtd] else [rtd]
    if 8 ≤ rtds.length then roundTripKnown l rtd { e with lastSlot := k } s
    else put { e with rtds := rtds, lastSlot := k } s
  else
    match e.sentSlot with
    | some sent =>
      if byteAt chars 0 / 128 = 1 ∧ sent + 2 ≤ k ∧ k ≤ sent + 4 then
        let id := leAt chars 35 2
        let lo := 16 * (e.drive % 2)
        let s := setRegFld (if e.drive < 2 then Reg.SRV_LANEl_ID01 l else Reg.SRV_LANEl_ID23 l) (lo + 15) lo id s
        let e := { e with drive := e.drive + 1, sentSlot := none, nextSlot := k + 1 }
        if e.drive = 4 then endRequests l e s else put e s
      else s
    | none => s

/-- The reply to a service request in flight (R288, R289). -/
def serviceReply (l : Nat) (chars : List Byte) (k : Nat) (s : State) : State :=
  match (getLane l s).svc with
  | some (_, sent) =>
    if byteAt chars 0 / 128 = 1 ∧ sent + 2 ≤ k ∧ k ≤ sent + 4 then
      setReg (Reg.SRV_LANEl_SVC_RES l) (word (2 ^ 30 + leAt chars 35 2)) (setLane l { getLane l s with svc := none } s)
    else s
  | none => s

/-- A good up frame: it is kept for the cutoffs with its stamp, LAST, DFAULT and CHAIN_SHORT follow it, and it answers what
waits. -/
def goodUpFrame (l : Nat) (chars : List Byte) (rtd : Nat) (eccBad : Bool) (s : State) : State :=
  let stamp := s.clk.tick - BitVec.ofNat 64 upFrameTicks
  let k := slotNumber s
  let lastPos := byteAt chars 0 / 16 % 4
  let st := leAt chars 1 2
  let dfault := ((List.range 4).map (fun d => if st.testBit (4 * d + 2) then 2 ^ (24 + d) else 0)).sum
  let stat := Reg.SRV_LANEl_STAT l
  let x := getLane l s
  let s := setLane l { x with heard := hearFrame s.srv.cutoffAt ⟨chars, now s, stamp, eccBad⟩ x.heard } s
  let s := setReg64 (Reg.SRV_LANEl_UP_STAMP_LO l) (Reg.SRV_LANEl_UP_STAMP_HI l) stamp s
  let s := orReg stat (word dfault) (setRegFld stat 15 14 lastPos s)
  let short := decide (laneState l s = 3) && decide (lastPos + 1 < regFld stat 18 16 s)
  let s := serviceReply l chars k (if short then orReg stat 0x10000000 s else s)
  match (getLane l s).enum with
  | some e => enumFrame l chars rtd k e s
  | none => s

/-- UP_FRAME's effect: the CRC check of an up frame of an enabled lane completes now. -/
def upFrame (l : Nat) (groups : List (BitVec 10)) (rtd : Nat) (eccBad : Bool) (s : State) : State :=
  if laneOn l s then
    let s := orReg Reg.CLK_EXT_STAT (word (2 ^ (10 + l / 8))) s
    let d := decodeFrame groups (getLane l s).rxDisp
    let s := setLane l { getLane l s with rxDisp := some d.2 } s
    match d.1 with
    | none => badUpFrame l true s
    | some chars => if upCrcOk chars then goodUpFrame l chars rtd eccBad s else badUpFrame l false s
  else s

/-- UP_FRAME (R274). -/
def execUpFrame (lane : Fin 16) (groups : List (BitVec 10)) (rtd : BitVec 9) (eccBad : Bool) (s : State) :
    Host.Outcome State Fault Refusal :=
  .next (upFrame lane.val groups rtd.toNat eccBad s)

end Sys2Proof.Machine
end

