-- ==== Sys2Proof/Machine/CanFd.lean ====
section
/-! DEFINITION. The CAN FD controllers (chapter 11). What ISO 11898-1 gives for the error counters is PRESUMED (log entry
41): an error adds 8 to TEC of a transmitter, but in the two cases that ISO exempts, and 1 to REC of a receiver, or 8 when it
is found in the receiver's own error or overload flag or as the dominant bit after it; a good frame takes 1, and brings a REC
above 127 to a value from 119 to 127; error-passive above 127, bus-off above 255. -/

namespace Sys2Proof.Machine

open Sys2Proof.Config

/-- TEC of a controller. -/
def tec (c : Nat) (s : State) : Nat := regFld (Reg.CAN_Cc_ERRCNT c) 24 16 s
/-- REC of a controller. -/
def rec_ (c : Nat) (s : State) : Nat := regFld (Reg.CAN_Cc_ERRCNT c) 7 0 s

/-- STATE of a controller: 0 error-active, 1 error-passive, 2 bus-off, 3 recovering. -/
def canState (c : Nat) (s : State) : Nat := regFld (Reg.CAN_Cc_STAT c) 31 30 s

/-- Set TEC and REC, and the error state they stand for short of bus-off. -/
def setErr (c t r : Nat) (s : State) : State :=
  let s := setReg (Reg.CAN_Cc_ERRCNT c) (word (min 511 t * 2 ^ 16 + min 255 r)) s
  setRegFld (Reg.CAN_Cc_STAT c) 31 30 (if 127 < t ∨ 127 < r then 1 else 0) s

/-- Go bus-off: axis command frames are discarded, software buffers and the safety frame wait; with AUTO_RECOVER recovery
starts at once (R293, R294, R298, R399). -/
def goBusOff (c : Nat) (s : State) : State :=
  let s := setRegFld (Reg.CAN_Cc_STAT c) 31 30 (if regBit (Reg.CAN_Cc_CTL c) 28 s then 3 else 2) s
  setCan c { getCan c s with axisTx := [], sending := none, waiting := false } (bumpReg (Reg.CAN_Cc_BUSOFF_COUNT c) 1 s)

/-- Return a frame that was not sent to its waiting place, unless a newer one has taken it (R294, R298, R400). Its ESI is set
anew when it is sent again (R291). -/
def returnFrame (c : Nat) (f : CanSource × CanFrame) (s : State) : State :=
  let x := { getCan c s with sending := none }
  let frame := { f.2 with esi := false }
  match f.1 with
  | .safety => setCan c { x with safety := some (x.safety.getD frame) } s
  | .axis k =>
    if (tget (fun _ => none) x.axisTx k).isSome then bumpReg (Reg.CAN_Cc_REPLACED c) 1 (setCan c x s)
    else setCan c { x with axisTx := tset (fun _ => none) k (some frame) x.axisTx } s
  | .buffer _ => setCan c x s

/-- CAN_ARBITRATION_LOST's effect: the frame waits for the end of the frame on the bus and is sent again (R294). -/
def arbitrationLost (c : Nat) (s : State) : State :=
  let s := offerCan c s
  match (getCan c s).sending with
  | none => s
  | some f =>
    let s := returnFrame c f s
    setCan c { getCan c s with waiting := true } s

/-- CAN_ARBITRATION_LOST (R294). -/
def execCanArbitrationLost (ctl : Fin 4) (s : State) : Host.Outcome State Fault Refusal := .next (arbitrationLost ctl.val s)

/-- The frame chosen for the bus goes back to its waiting place: it was not sent, or another node's frame held the bus before
it (R294, R295). -/
def yieldBus (c : Nat) (s : State) : State :=
  match (getCan c s).sending with
  | some f => returnFrame c f s
  | none => s

/-- CAN_BUS_ERROR's effect: the counters, the error state, and the retransmission of what was being sent (R293, R294). -/
def busError (c : Nat) (transmitting : Bool) (kind : CanErr) (s : State) : State :=
  if !canOn c s then s
  else
    let s := yieldBus c (if transmitting then offerCan c s else s)
    let s := setCan c { getCan c s with waiting := false } s
    let t := if transmitting && kind != .exempt then tec c s + 8 else tec c s
    let r := if transmitting then rec_ c s else rec_ c s + (if kind = .heavy then 8 else 1)
    let s := setErr c t r s
    if 255 < t then goBusOff c s else s

/-- CAN_BUS_ERROR (R293). -/
def execCanBusError (ctl : Fin 4) (error : BusError) (s : State) : Host.Outcome State Fault Refusal :=
  .next (busError ctl.val error.transmitting error.kind s)

/-- CAN_RECOVER (R293): recovery from bus-off starts. -/
def execCanRecover (w : Writer) (ctl : Fin 4) (s : State) : Host.Outcome State Fault Refusal :=
  .next (asWriter w (Reg.CAN_Cc_CTL ctl.val) (fun s =>
    if canState ctl.val s = 2 then setRegFld (Reg.CAN_Cc_STAT ctl.val) 31 30 3 s else s) s)

/-- CAN_RECOVERY_COMPLETE's effect: error-active with counters 0; the safety frame that waited is sent with its contents
updated (R293, R399). -/
def recoveryComplete (c : Nat) (s : State) : State :=
  if canState c s = 3 then
    let s := setErr c 0 0 s
    let x := getCan c s
    offerCan c (setCan c { x with safety := x.safety.map (fun _ => safetyFrame s) } s)
  else s

/-- CAN_RECOVERY_COMPLETE (R293). -/
def execCanRecoveryComplete (ctl : Fin 4) (s : State) : Host.Outcome State Fault Refusal :=
  .next (recoveryComplete ctl.val s)

/-- Store words from an offset. -/
def storeWords (base : Nat) : List Word → State → State
  | [], s => s
  | w :: r, s => storeWords (base + 4) r (setReg base w s)

/-- Append an entry to the transmit event FIFO; a full one discards it and sets TXE_OVF (R296). -/
def pushEvent (c : Nat) (stamp : Word64) (tag : Word) (s : State) : State :=
  if (getCan c s).txeFull then orReg (Reg.CAN_Cc_STAT c) 0x10000000 s
  else
    let t := regFld (Reg.CAN_Cc_TXE_TAIL c) 4 0 s
    let s := storeWords (Reg.CAN_Cc_TXE_FIFO c (4 * t)) [lo32 stamp, hi32 stamp, tag, 0] s
    let n := (t + 1) % 32
    let s := setReg (Reg.CAN_Cc_TXE_TAIL c) (word n) s
    setCan c { getCan c s with txeFull := decide (n = regFld (Reg.CAN_Cc_TXE_HEAD c) 4 0 s) } s

/-- CAN_TX_DONE's effect: the frame in transmission has been sent; its stamp is the tick of its start of frame (R296). -/
def txDone (c age : Nat) (s : State) : State :=
  let s := offerCan c s
  match (getCan c s).sending with
  | none => s
  | some (src, f) =>
    let s := emit (.canFrame c f) (setCan c { getCan c s with sending := none } s)
    let stamp := s.clk.tick - BitVec.ofNat 64 age
    let s := match src with
      | .buffer b =>
        orReg (Reg.CAN_Cc_TX_DONE c) (word (2 ^ b)) (setRegFld (Reg.CAN_Cc_TX_REQ c) b b 0 (pushEvent c stamp (word b) s))
      | .axis k => pushEvent c stamp (word (2 ^ 15 + k)) s
      | .safety => useFree (pushEvent c stamp ((safetyEventTag s.freeCtr).zeroExtend 32) s)
    offerCan c (setErr c (tec c s - 1) (rec_ c s) s)

/-- CAN_TX_DONE (R296). -/
def execCanTxDone (ctl : Fin 4) (age : Nat) (s : State) : Host.Outcome State Fault Refusal := .next (txDone ctl.val age s)

/-- CAN_TX_REQUEST (R295). -/
def execCanTxRequest (w : Writer) (ctl : Fin 4) (value : Word) (s : State) : Host.Outcome State Fault Refusal :=
  .next (asWriter w (Reg.CAN_Cc_TX_REQ ctl.val) (fun s => offerCan ctl.val (orReg (Reg.CAN_Cc_TX_REQ ctl.val) value s)) s)

/-- CAN_TX_ABORT (R294): aborted buffers are no longer pending, and are not sent again after a lost arbitration or an
error. -/
def execCanTxAbort (w : Writer) (ctl : Fin 4) (value : Word) (s : State) : Host.Outcome State Fault Refusal :=
  .next (asWriter w (Reg.CAN_Cc_TX_ABORT ctl.val) (modReg (Reg.CAN_Cc_TX_REQ ctl.val) (· &&& ~~~value)) s)

/-- BIT_TIMING_WRITE (R292): discarded unless CONFIG is 1. -/
def execBitTimingWrite (w : Writer) (ctl : Fin 4) (data : Bool) (value : Word) (s : State) :
    Host.Outcome State Fault Refusal :=
  let o := if data then Reg.CAN_Cc_DBT ctl.val else Reg.CAN_Cc_NBT ctl.val
  .next (asWriter w o (fun s => if regBit (Reg.CAN_Cc_CTL ctl.val) 30 s then rwStore o value s else s) s)

/-! ### Reception (R297, R299) -/

/-- Bytes 0 to 3 of an entry: XTD, FDF, BRS and the identifier (R301). -/
def idWord (f : CanFrame) : Word :=
  word (f.xtd.toNat * 2 ^ 31 + f.fdf.toNat * 2 ^ 30 + f.brs.toNat * 2 ^ 29 + f.id.toNat)

/-- The enabled axis-table entry whose MEAS_ID a frame has (R299). -/
def measEntry (c : Nat) (f : CanFrame) (s : State) : Option Nat :=
  if f.fdf then
    (List.range 256).find? (fun k =>
      let w := axisEntry c k 1 s
      bit (axisEntry c k 2 s) 31 && (bit w 31 == f.xtd) &&
        decide (if f.xtd then fld w 28 0 = f.id.toNat else fld w 28 18 = f.id.toNat / 2 ^ 18))
  else none

/-- The lowest enabled filter that a frame matches (R297). -/
def matchFilter (c : Nat) (f : CanFrame) (s : State) : Option Nat :=
  (List.range 32).find? (fun k =>
    let w := getReg (Reg.CAN_Cc_FILTf_ID c k) s
    let m := getReg (Reg.CAN_Cc_FILTf_MASK c k) s
    bit w 31 && (bit w 30 == f.xtd) && decide (fld ((f.id.zeroExtend 32 ^^^ w) &&& m) 28 0 = 0))

/-- Store a frame in the receive FIFO (R297, R301); a full FIFO discards it, and its first overflow is logged. -/
def storeFrame (c k : Nat) (f : CanFrame) (stamp : Word64) (s : State) : State :=
  if (getCan c s).rxFull then
    let fresh := !regBit (Reg.CAN_Cc_STAT c) 29 s
    let s := bumpReg (Reg.CAN_Cc_RX_LOST c) 1 (orReg (Reg.CAN_Cc_STAT c) 0x20000000 s)
    if fresh then raise Src.can .canRxOverflow Code.overrun [] s else s
  else
    let t := regFld (Reg.CAN_Cc_RX_TAIL c) 5 0 s
    let data := slice f.data 0 64
    let w1 := word (f.esi.toNat * 2 ^ 31 + f.rtr.toNat * 2 ^ 30 + k * 2 ^ 16 + f.dlc.toNat)
    let s := storeWords (Reg.CAN_Cc_RX_FIFO c (20 * t))
      ([idWord f, w1, lo32 stamp, hi32 stamp] ++ (List.range 16).map (fun i => wordAt data (4 * i))) s
    let n := (t + 1) % 64
    let s := setReg (Reg.CAN_Cc_RX_TAIL c) (word n) s
    setCan c { getCan c s with rxFull := decide (n = regFld (Reg.CAN_Cc_RX_HEAD c) 5 0 s) } s

/-- CAN_RX_FRAME's effect: the reception of a frame ends now; a measurement frame goes to its entry, another to the FIFO
by its filter (R296, R297, R299). What the controller had chosen to send had not started, and is chosen anew (R295). -/
def rxFrame (c : Nat) (f : CanFrame) (age : Nat) (s : State) : State :=
  if !canOn c s then s
  else
    let s := yieldBus c s
    let stamp := s.clk.tick - BitVec.ofNat 64 age
    let s := if 127 < rec_ c s then setErr c (tec c s) (119 + goodRec s.freeCtr % 9) (useFree s)
      else setErr c (tec c s) (rec_ c s - 1) s
    let s := match measEntry c f s with
      | some k =>
        if 12 ≤ f.data.length ∧ (byteAt f.data 8).testBit 0 = true then
          let x := getCan c s
          let hs := hearFrame s.srv.cutoffAt ⟨f.data, now s, stamp, false⟩ (tget (fun _ => []) x.meas k)
          setCan c { x with meas := tset (fun _ => []) k hs x.meas } s
        else s
      | none =>
        match matchFilter c f s with
        | some k => storeFrame c k f stamp s
        | none => s
    offerCan c (setCan c { getCan c s with waiting := false } s)

/-- CAN_RX_FRAME (R297). -/
def execCanRxFrame (ctl : Fin 4) (frame : CanFrame) (age : Nat) (s : State) : Host.Outcome State Fault Refusal :=
  .next (rxFrame ctl.val frame age s)

end Sys2Proof.Machine
end

