-- ==== Sys2Proof/Machine/Counterfoil.lean ====
section
/-! DEFINITION. The safety channel (chapter 14): counterfoil runs (R371 to R374), the comparator and what follows from its
decisions (R375 to R384, R391), and the latches, torque-enable arms and safety frame as software drives them (R394 to
R402). The manual gives a counterfoil program a header and no body layout, so what a run computes is a free function of its
program and its inputs (`Config.counterfoilOutput`). -/

namespace Sys2Proof.Machine

open Sys2Proof.Config

/-! ### Counterfoil programs and runs -/

/-- Address of the program of binding `k`. -/
def cfAddr (k : Nat) (s : State) : Nat := (reg64 (Reg.SAF_CHKk_PROG_LO k) (Reg.SAF_CHKk_PROG_HI k) s).toNat

/-- The read of a counterfoil program: whether it passes R372, its header, and its bytes. -/
structure CfProgram where
  ok     : Bool
  header : List Byte
  bytes  : List Byte
  deriving DecidableEq, Repr

/-- Read the program of binding `k` and check it by R372 for a BUILD_ID: MAGIC and BUILD_ID of its header, then the CRC over
the whole image, which holds at least the header and the CRC. An uncorrectable word fails it. -/
def cfCheck (k : Nat) (build : Word64) (s : State) : CfProgram × State :=
  let h := readMem .dram (cfAddr k s) 64 s
  let len := leAt h.1.bytes 4 4
  if h.1.bad.isSome || leAt h.1.bytes 0 4 ≠ 0x4C4F4643 || leAt h.1.bytes 8 8 ≠ build.toNat || decide (len < 68) then
    (⟨false, h.1.bytes, []⟩, h.2)
  else
    let b := readMem .dram (cfAddr k s) len h.2
    (⟨b.1.bad.isNone && decide (crc32c (b.1.bytes.take (len - 4)) = wordAt b.1.bytes (len - 4)), h.1.bytes, b.1.bytes⟩, b.2)

/-- Root cycles of a run with a program header: IMAGE_LEN at 38.4 GB/s, 8 bytes a root cycle, and RUN_CYCLES at 1.2 GHz
(R373). -/
def cfRunRoot (header : List Byte) : Nat := divUp (leAt header 4 4) 8 + 4 * leAt header 0x10 4

/-- BUILD_ID recorded for a handle. -/
def buildOf (h : Nat) (s : State) : Word64 := (handleInfo h s).elim 0 (fun i => i.hdr.buildId)

/-- Change one counterfoil run. -/
def setCfRun (uid k : Nat) (f : CfRun → CfRun) (s : State) : State :=
  { s with saf := { s.saf with runs := s.saf.runs.map (fun r => if r.uid = uid ∧ r.binding = k then f r else r) } }

/-- Where the inputs of a job lie, by their numbers: in the slots that it took, for a proof frame at the golden inputs
(R373, R389). -/
def inputSides (j : Job) (s : State) : List ExtSide × State :=
  (List.range 16).foldl (fun acc i => let x := extBase j 1 i acc.2; (acc.1 ++ [x.1], x.2)) ([], s)

/-- Byte `o` of input `i`. -/
def inputByte (sides : List ExtSide) (s : State) (i o : Nat) : Byte :=
  match sides[i]? with
  | some (.at_ sp a) => rdByte sp (extAt sp a o) s
  | _ => 0

/-- Begin the oldest queued run, when none is in progress: its program is loaded and checked, and its output is that of the
program on the locked input slots of the main job (R373, R374). -/
def cfStart (s : State) : State :=
  if s.saf.runs.any (fun r => r.startAt.isSome && !r.ended) then s
  else
    match s.saf.runs.find? (fun r => r.startAt.isNone) with
    | none => s
    | some r =>
      let s := runTo (max r.dispatchAt s.saf.cfFreeAt) s
      let j := getJob r.uid s
      let c := cfCheck r.binding (buildOf (j.elim 64 (fun j => j.desc.handle)) s) s
      let t := now s + cfRunRoot c.1.header
      let sides := j.elim ([], c.2) (fun j => inputSides j c.2)
      let out := if sides.1.isEmpty then [] else counterfoilOutput c.1.bytes (inputByte sides.1 s)
      let bad := !c.1.ok || sides.1.contains .bad
      setCfRun r.uid r.binding (fun x => { x with startAt := some (now s), endAt := t, bad := bad, values := out })
        { sides.2 with saf := { sides.2.saf with cfFreeAt := t } }

/-- COUNTERFOIL_RUN_START (R373). -/
def execCounterfoilRunStart (s : State) : Host.Outcome State Fault Refusal := .next (cfStart s)

/-- Read the 64-bit words at these addresses in the form of R178: their errors are counted and captured (R106, R108). -/
def readWords (words : List Word64) (s : State) : State :=
  words.foldl (fun s w => let a := formAddr w; (readMem a.1 (a.2 / 8 * 8) 8 s).2) s

/-- The run in progress ends; an uncorrectable error in the local store spoils it (R374). Which words of the input slots it
has read the program says (log entry 163); their errors count as any reader's. -/
def cfEnd (ecc : Bool) (words : List Word64) (s : State) : State :=
  match s.saf.runs.find? (fun r => r.startAt.isSome && !r.ended) with
  | none => s
  | some r =>
    setCfRun r.uid r.binding (fun x => { x with ended := true, bad := x.bad || ecc }) (readWords words (runTo r.endAt s))

/-- COUNTERFOIL_RUN_END (R373, R374). -/
def execCounterfoilRunEnd (ecc : Bool) (words : List Word64) (s : State) : Host.Outcome State Fault Refusal :=
  .next (cfEnd ecc words s)

/-! ### The comparison (R375 to R377) -/

/-- Whether an exact difference is within TOL. -/
def withinTol (tol : Num) (a c : Num) : Bool :=
  let le := fun (d : Rat) => match tol with
    | .nan => false
    | .inf neg => !neg
    | .zero _ => decide (d ≤ 0)
    | .fin q => decide (d ≤ q)
  match a, c with
  | .nan, _ => false
  | _, .nan => false
  | .inf n, .inf m => decide (n ≠ m) && decide (tol = .inf false)
  | .inf _, _ => decide (tol = .inf false)
  | _, .inf _ => decide (tol = .inf false)
  | x, y =>
    let v := fun (z : Num) => match z with
      | .fin q => q
      | _ => (0 : Rat)
    let d := v x - v y
    le (if d < 0 then -d else d)

/-- Whether a pixel of INDEX format agrees: equal indices, an all-NaN pixel having index 0xFFFF, or the value at the main
index finite and within TOL of the largest (R377). -/
def indexAgrees (tol : Num) (main : Nat) (cf : List Num) : Bool :=
  match argmaxOf cf with
  | none => decide (main = 0xFFFF)
  | some i =>
    decide (main = i) ||
      (match cf[main]? with
       | some (.fin q) => withinTol tol (.fin q) (cf.getD i .nan)
       | some (.zero b) => withinTol tol (.zero b) (cf.getD i .nan)
       | _ => false)

/-- FMT of binding `k`. -/
def cfFmt (k : Nat) (s : State) : Nat := regFld (Reg.SAF_CHKk_CTL k) 19 18 s

/-- Bytes of an element of a FMT. -/
def cfElem (fmt : Nat) : Nat := if fmt = 0 then 1 else 2

/-- Whether one element agrees with what the counterfoil gave for it; an element without a value disagrees. -/
def elemAgrees (fmt : Nat) (tol : Num) (main : Nat) (cf : Option (List Word)) : Bool :=
  match cf with
  | none => false
  | some vs =>
    let c := vs.map (fun w => num32 w.toNat)
    match fmt with
    | 0 => withinTol tol (inValue 1 main) (c.getD 0 .nan)
    | 1 => withinTol tol (inValue 2 main) (c.getD 0 .nan)
    | 2 => withinTol tol (decodeF fp16 main) (c.getD 0 .nan)
    | _ => indexAgrees tol main c

/-- The disagreeing elements of a region. -/
def cfOut (fmt : Nat) (tol : Num) (bytes : List Byte) (values : List (List Word)) : Nat :=
  let e := cfElem fmt
  ((List.range (bytes.length / e)).filter (fun i => !elemAgrees fmt tol (leAt bytes (i * e) e) values[i]?)).length

/-- LEN of binding `k`. -/
def cfLen (k : Nat) (s : State) : Nat := (getReg (Reg.SAF_CHKk_LEN k) s).toNat

/-- Read the main region of binding `k`: LEN bytes at OFFSET in the back slot of its handoff. -/
def cfRegion (j : Job) (k : Nat) (s : State) : ReadResult × State :=
  match (extBase j 2 (regFld (Reg.SAF_CHKk_CTL k) 23 20 s) s).1 with
  | .at_ sp a => readMem sp (extAt sp a (getReg (Reg.SAF_CHKk_OFFSET k) s).toNat) (cfLen k s) s
  | _ => (⟨[], 0, none⟩, s)

/-- The decision on a run: it disagrees when the run was spoilt (R374) or the region cannot be read, and otherwise by
MAXOUT; LEN 0 agrees (R376, R378). -/
def cfDecide (j : Job) (r : CfRun) (s : State) : Bool × State :=
  let k := r.binding
  let x := cfRegion j k s
  let tol := num32 (getReg (Reg.SAF_CHKk_TOL k) s).toNat
  (!r.bad && x.1.bad.isNone &&
    decide (cfOut (cfFmt k s) tol x.1.bytes r.values ≤ (getReg (Reg.SAF_CHKk_MAXOUT k) s).toNat), x.2)

/-- Whether a proof frame passes: both digests of its proof block match (R391). The counterfoil's output is digested as its
FP32 bytes in element order (DESIGN CHOICE, log entry 42). -/
def proofPasses (j : Job) (r : CfRun) (s : State) : Bool × State :=
  let k := r.binding
  let x := cfRegion j k s
  let p := readMem .dram (reg64 (Reg.SAF_CHKk_PROOF_LO k) (Reg.SAF_CHKk_PROOF_HI k) s).toNat 128 x.2
  (!r.bad && x.1.bad.isNone && p.1.bad.isNone && decide (crc32c x.1.bytes = wordAt p.1.bytes 4) &&
    decide (crc32c (r.values.flatMap (fun v => v.flatMap wordBytes)) = wordAt p.1.bytes 8), p.2)

/-! ### What a decision does -/

/-- The release of a binding's output: INVALID by expiry or persistence clears, the gap counts from now, LAST shows the
tick (R383). -/
def releaseBinding (k : Nat) (s : State) : State :=
  let b := getBinding k s
  if !b.enabled then s
  else
    setReg64 (Reg.SAF_CHKk_LAST_LO k) (Reg.SAF_CHKk_LAST_HI k) s.clk.tick
      (setBinding k { b with since := now s, gap := false, persist := false } s)

/-- A replay agrees: REPLAY_PENDING of its bindings clears, and the replay is counted and logged once (R381). A job whose
bindings have all been disabled meanwhile releases nothing and counts nothing. -/
def replayAgrees (j : Job) (s : State) : State :=
  let ks := (j.decided.map (·.1.val)).filter (fun k => (getBinding k s).enabled)
  if j.isReplay && !ks.isEmpty then
    raise Src.safety .replayAgreed Code.replayed [] (bumpReg Reg.SAF_REPLAY_OK_COUNT 1 (clearPending ks s))
  else s

/-- Every binding of a job has agreed: its outputs flip, checked or not, and it is accepted (R378), in a ring at its accept
barrier (R354). -/
def jobAgrees (j : Job) (s : State) : State :=
  let s := showInvalid (replayAgrees j ((j.decided.map (·.1)).foldl (fun s k => releaseBinding k s) s))
  let s := dropCfRuns j.uid (flipOutputs j (setJob j s))
  if isRingJob j && ringUp s then arriveBarrier j.uid false 0 (setJob { j with stage := .acceptBarrier, vote := 0 } s)
  else acceptJob j j.codes s

/-- A job waits for its replay: slot work, which may go at once when the decision falls inside a slot (R379). -/
def awaitReplay (j : Job) (s : State) : State :=
  let s := dropCfRuns j.uid s
  if isRingJob j && ringUp s then arriveBarrier j.uid false 1 (setJob { j with stage := .acceptBarrier, vote := 1 } s)
  else setJob { j with stage := .replay, beforeSlot := s.day.inSlot } s

/-- A disagreement is persistent: the job is given up with INVALID, in a ring by vote 3 (R382). -/
def jobPersists (j : Job) (s : State) : State :=
  let s := clearPending (j.decided.map (·.1.val)) s
  let j := { j with codes := j.codes ||| codeBit Code.invalid }
  if isRingJob j && ringUp s then
    arriveBarrier j.uid false 3 (setJob { j with stage := .acceptBarrier, vote := 3 } (dropCfRuns j.uid s))
  else giveUp j j.codes s

/-- What one disagreeing binding does at once: on an original run it is counted and logged and REPLAY_PENDING is set (R379);
on a replay the binding is INVALID and CMP_PERSIST latches (R382). -/
def bindingDisagrees (j : Job) (k : Nat) (s : State) : State :=
  let b := getBinding k s
  if j.isReplay then
    latchInvalid Latch.cmpPersist (setBinding k { b with persist := true } s)
  else
    raise Src.safety .disagreement Code.ok []
      (bumpReg Reg.SAF_DISAGREE_COUNT 1 (setRegFld (Reg.SAF_CHKk_STAT k) 30 30 1 s))

/-- A proof frame ends: it passes, and DIAG is 0 and the binding no longer INVALID by it, or it fails (R388, R391). -/
def endProof (j : Job) (k : Nat) (ok : Bool) (s : State) : State :=
  let s :=
    if ok then
      showInvalid (setRegFld (Reg.SAF_CHKk_STAT k) 29 29 0 (setRegFld (Reg.SAF_CHKk_STAT k) 7 0 0
        (setBinding k { getBinding k s with proofFailed := false, proofSlot := false } s)))
    else proofFails k s
  let s := dropCfRuns j.uid s
  if isRingJob j && ringUp s then arriveBarrier j.uid false 0 (setJob { j with stage := .acceptBarrier, vote := 0 } s)
  else retireIfIdle j.desc.handle (finishJob j j.codes Outcome_.accepted 0 s)

/-- The decision instant of a run (R375). -/
def decisionAt (j : Job) (r : CfRun) (s : State) : Nat :=
  max j.endAt r.endAt + 2 * usRoot + divUp (cfLen r.binding s) 8

/-- The runs that await a decision, with their jobs and instants. A newer run waits for the decision on an earlier run's replay
(R382). While ENABLE is 0 only proof frames are decided: nothing
is released (R401; DESIGN CHOICE, log entry 43). -/
def undecided (s : State) : List (Nat × Job × CfRun) :=
  s.saf.runs.filterMap (fun r =>
    match getJob r.uid s with
    | none => none
    | some j =>
      if j.stage = .deciding ∧ r.ended = true ∧ j.decided.all (fun d => d.1 ≠ r.binding) ∧ replayBefore j s = false ∧
          (j.proof.isSome = true ∨ regBit Reg.SAF_CTL 31 s = true)
      then some (decisionAt j r s, j, r) else none)

/-- The earliest of them; the first of equals. -/
def nextDecision (s : State) : Option (Nat × Job × CfRun) :=
  (undecided s).foldl (fun b x => match b with
    | none => some x
    | some y => if x.1 < y.1 then some x else some y) none

/-- A decision on one binding; the job goes on when all its bindings are decided (R378; DESIGN CHOICE, log entry 44). -/
def decideBinding (j : Job) (r : CfRun) (s : State) : State :=
  match j.proof with
  | some k =>
    let p := proofPasses j r s
    endProof j k p.1 p.2
  | none =>
    let d := cfDecide j r s
    let ok := d.1 || !(getBinding r.binding s).enabled
    let j := { j with decided := j.decided ++ [(r.binding, ok)] }
    let s := setJob j (if ok then d.2 else bindingDisagrees j r.binding d.2)
    if s.saf.runs.any (fun x => x.uid = j.uid && j.decided.all (fun e => e.1 ≠ x.binding)) then s
    else if j.decided.all (·.2) then jobAgrees j s
    else if j.isReplay then jobPersists j s
    else awaitReplay j s

/-- COMPARATOR_DECISION's effect: the next decision, at its instant. -/
def compare_ (s : State) : State :=
  match nextDecision s with
  | none => s
  | some (t, j, r) => decideBinding j r (runTo t s)

/-- COMPARATOR_DECISION (R375). -/
def execComparatorDecision (s : State) : Host.Outcome State Fault Refusal := .next (compare_ s)

/-! ### Bindings -/

/-- The instant at which the expiry of a binding shows: a release in the tick in which MAX_GAP_US has passed is still in
time, so it is the start of the next tick (R383). -/
def expiryAt (k : Nat) (s : State) : Nat :=
  tickRoot * (((getBinding k s).since + (getReg (Reg.SAF_CHKk_GAP k) s).toNat * usRoot) / tickRoot + 1)

/-- An enabled binding expires when MAX_GAP_US passes without a release: it is INVALID and GAP latches (R383). -/
def expireBinding (k : Nat) (s : State) : State :=
  let b := getBinding k s
  if !b.enabled || b.gap then s
  else
    let s := runTo (expiryAt k s) s
    latchInvalid Latch.gap (setBinding k { b with gap := true } s)

/-- BINDING_EXPIRY (R383). -/
def execBindingExpiry (k : Fin 16) (s : State) : Host.Outcome State Fault Refusal := .next (expireBinding k.val s)

/-- Whether binding `k` meets R371 with a written control word: its entry has REPLAY set and passes R316, HANDOFF is from 1
to 15, and the program passes R372. -/
def bindingOk (k : Nat) (v : Word) (s : State) : Bool × State :=
  let d := (getStanding (fld v 27 24) s).desc
  let c := cfCheck k (buildOf d.handle s) s
  (d.replay && (handleInfo d.handle s).isSome && decide (descriptorReason d s ≠ some 14) && decide (1 ≤ fld v 23 20) &&
      c.1.ok, c.2)

/-- A binding that is enabled anew starts with DIAG 0 and its gap counting (R383, R388). -/
def startBinding (k : Nat) (s : State) : State :=
  setRegFld (Reg.SAF_CHKk_STAT k) 30 29 0 (setRegFld (Reg.SAF_CHKk_STAT k) 7 0 0
    (setBinding k { Binding.reset with enabled := true, since := now s } s))

/-- A write of SAF_CHKk_CTL that leaves the binding disabled. -/
def stopBinding (k : Nat) (v : Word) (s : State) : State :=
  showInvalid (setBinding k Binding.reset (rwStore (Reg.SAF_CHKk_CTL k) (setBit v 31 false) s))

/-- A write of SAF_CHKk_CTL: an enable with MAX_GAP_US 0 sets CODE to FIELD_ZERO and is judged no further (R8), one that fails
R371 sets CFG_ERR, and either leaves the binding disabled (R371, R402). -/
def enableBinding (k : Nat) (v : Word) (s : State) : State :=
  if !bit v 31 then stopBinding k v s
  else if getReg (Reg.SAF_CHKk_GAP k) s = 0 then
    stopBinding k v (setRegFld (Reg.SAF_CHKk_STAT k) 23 16 Code.fieldZero s)
  else
    let was := (getBinding k s).enabled
    let c := bindingOk k v s
    let s := setRegFld (Reg.SAF_CHKk_STAT k) 23 16 0 c.2
    if c.1 then
      let s := rwStore (Reg.SAF_CHKk_CTL k) v s
      let s := if was then s else startBinding k s
      if cameraStands k s then latchInvalid Latch.camera s else showInvalid s
    else stopBinding k v (setRegFld (Reg.SAF_CHKk_STAT k) 28 28 1 s)

/-- BINDING_ENABLE (R371, R402). -/
def execBindingEnable (w : Writer) (k : Fin 16) (value : Word) (s : State) : Host.Outcome State Fault Refusal :=
  .next (asWriter w (Reg.SAF_CHKk_CTL k.val) (enableBinding k.val value) s)

/-! ### Latches and torque enables -/

/-- The latch bits whose condition stands, with the outputs that they drop (R394). -/
def standingLatches (s : State) : List (Nat × BitVec 16) :=
  let any := fun (p : Nat → Bool) => (List.range 16).any p
  let on := fun k => (getBinding k s).enabled
  let one := fun (c : Bool) (b : Nat) => if c then [(b, (0 : BitVec 16))] else []
  let ten := (faulted s).foldl (fun (m : BitVec 16) n => m ||| BitVec.ofNat 16 (2 ^ axisTen n s)) 0
  one (any (fun k => on k && (getBinding k s).gap)) Latch.gap ++
  one (any (fun k => on k && (getBinding k s).proofFailed)) Latch.proofFail ++
  one (any (fun k => cameraStands k s)) Latch.camera ++
  (if (faulted s).isEmpty then [] else [(Latch.measLost, ten)]) ++
  one (regBit Reg.SRV_STAT 30 s) Latch.solverLost ++
  one (decide (regFld Reg.RNG_STAT 31 29 s = 4)) Latch.ring ++
  one (any (fun k => on k && decide (proofDays s + 4 ≤ regFld (Reg.SAF_CHKk_STAT k) 7 0 s))) Latch.warnDiag

/-- A write of SAF_LATCH: bits written 1 clear, but those that hardware sets in the same cycle (R5), and one whose condition
stands is set again at once; what only cleared bits held is released, SAFE_N follows, and the last bit's clearing queues a
safety frame (R396 to R399). -/
def clearLatches (v sets : Word) (s : State) : State :=
  let l := getReg Reg.SAF_LATCH s
  let gone := l &&& v &&& ~~~sets
  let s := setReg Reg.SAF_LATCH (l &&& ~~~gone) s
  let again := (standingLatches s).filter (fun e => bit gone e.1)
  let s := if again.isEmpty then driveSafe (driveTen s) else setLatches again s
  if l ≠ 0 ∧ getReg Reg.SAF_LATCH s = 0 then queueSafety s else s

/-- LATCH_CLEAR (R398). -/
def execLatchClear (w : Writer) (value : W1cWrite) (s : State) : Host.Outcome State Fault Refusal :=
  .next (asWriter w Reg.SAF_LATCH (clearLatches value.value value.sets) s)

/-- SAFETY_FORCE (R394): SAF_CTL.FORCE latches FORCE and drops every output. -/
def execSafetyForce (w : Writer) (s : State) : Host.Outcome State Fault Refusal :=
  .next (asWriter w Reg.SAF_CTL (setLatch Latch.force 0xFFFF) s)

/-- Arm torque-enable outputs; an armed output that no latch bit holds rises (R397). -/
def armTen (v : Word) (s : State) : State := driveTen (orReg Reg.SAF_TEN_ARM (v &&& 0xFFFF) s)

/-- TEN_ARM (R397). -/
def execTenArm (w : Writer) (value : Word) (s : State) : Host.Outcome State Fault Refusal :=
  .next (asWriter w Reg.SAF_TEN_ARM (armTen value) s)

/-- A write of SRV_PERSIST or PROOF_DAYS: 0 is discarded and logged with FIELD_ZERO (R402). -/
def writeSafetyConfig (proof : Bool) (v : Word) (s : State) : State :=
  let z := if proof then fld v 7 0 = 0 else fld v 3 0 = 0
  if z then raise Src.safety .safetyFieldZero Code.fieldZero [] s
  else rwStore (if proof then Reg.SAF_PROOF_CFG else Reg.SAF_SRV_CFG) v s

/-- SAFETY_CONFIG_WRITE (R402). -/
def execSafetyConfigWrite (w : Writer) (proof : Bool) (value : Word) (s : State) : Host.Outcome State Fault Refusal :=
  .next (asWriter w (if proof then Reg.SAF_PROOF_CFG else Reg.SAF_SRV_CFG) (writeSafetyConfig proof value) s)

/-- While a latch bit is set the safety frame is queued again every REPEAT_MS; 0 repeats none (R399, R402). -/
def repeatSafety (s : State) : State :=
  let ms := regFld Reg.SAF_SF_CFG 7 0 s
  if getReg Reg.SAF_LATCH s = 0 ∨ ms = 0 ∨ regBit Reg.SAF_SF_CFG 31 s = false then s
  else queueSafety (runTo (s.saf.frameAt.getD 0 + ms * 1000 * usRoot) s)

/-- SAFETY_FRAME_REPEAT (R399). -/
def execSafetyFrameRepeat (s : State) : Host.Outcome State Fault Refusal := .next (repeatSafety s)

end Sys2Proof.Machine
end

