-- ==== Sys2Proof/Machine/Ring.lean ====
section
/-! DEFINITION. The multi-chip ring (chapter 13): the receiving side of the link and its training (R336 to R339), the ring
reset and the breaking of the ring (R340 to R343, R350, R367), barriers (R352 to R354), broadcasts, snapshots, aborts and
transfers (R351, R356 to R358, R363). -/

namespace Sys2Proof.Machine

open Sys2Proof.Config

/-! ### Ring instants (R344) -/

/-- FINE as the last ring reset set it: sixteenths of a tick by which the ring's time is ahead of the edges of this device's
own ticks (R341, R344). -/
def fineOfs (s : State) : Nat := regFld Reg.RNG_TIMING 3 0 s

/-- The ring instant `n` sixteenths of a tick, of 3 root cycles each, later than now, rounded up to a sixteenth. -/
def instantAfter (n : Nat) (s : State) : Instant :=
  let f := s.clk.tick.toNat * 16 + fineOfs s + divUp (now s % tickRoot) 3 + n
  ⟨BitVec.ofNat 64 (f / 16), BitVec.ofNat 4 (f % 16)⟩

/-- The root cycle at which the ring instant (T, FINE) comes here; below 0 when it lies before this device's root cycle 0. -/
def instantAt (i : Instant) (s : State) : Int :=
  let d : Int := (i.tick.toNat : Int) - s.clk.tick.toNat
  ((now s / tickRoot * tickRoot : Nat) : Int) + d * 48 + 3 * ((i.fine.toNat : Int) - fineOfs s)

/-- The same as a root cycle of this device. -/
def instantRoot (i : Instant) (s : State) : Nat := (instantAt i s).toNat

/-- The fabric cycle at which this device issues a ring instant: the first that begins at or after it (R344). -/
def instantEdge (i : Instant) (s : State) : Nat := fabricEdge (instantRoot i s) s

/-- Whether an instant has passed. -/
def instantPast (i : Instant) (s : State) : Bool := decide (instantRoot i s < now s)

/-! ### Ports: retry and training (R336 to R339) -/

/-- A port enters RETRAIN from ACTIVE; what is on it waits. -/
def enterRetrain (p : Nat) (s : State) : State :=
  if portState p s ≠ 5 then s
  else bumpReg (Reg.RNG_Pp_RETRAIN p) 1 (setPort p { getPort p s with retries := 0, retrainFails := 0 } (setPortState p 6 s))

/-- Send again from the oldest unacknowledged flit. -/
def resend (p : Nat) (s : State) : State :=
  (getPort p s).unacked.foldl (fun s f => emit (.ringFlit p (renewAck p f s)) s) s

/-- A retry: after 8 in a row of the same flit the port enters RETRAIN (R336, R337). -/
def retry (p : Nat) (s : State) : State :=
  let x := getPort p s
  if x.unacked = [] then s
  else
    let s := resend p (bumpReg (Reg.RNG_Pp_RETRY p) 1 (setPort p { x with retries := x.retries + 1, ackAt := now s } s))
    if 8 ≤ x.retries + 1 then enterRetrain p s else s

/-- Take an acknowledgement: flits up to ACK_SEQ have arrived; a NAK starts a retry. -/
def takeAck (p : Nat) (field : Nat) (s : State) : State :=
  let x := getPort p s
  let seq := field % 2 ^ 12
  let s :=
    if x.unacked.any (fun f => flitSeq f = seq) then
      setPort p { x with unacked := (x.unacked.dropWhile (fun f => flitSeq f ≠ seq)).drop 1, retries := 0, ackAt := now s } s
    else s
  let s := pumpPort p s
  if 2 ^ 15 ≤ field then retry p s else s

/-- Whether a flit only passes through this device: DATA for another position, or a READY note, the one control message that
is bound for another position than the one it came from (R351, R359). -/
def passesThrough (b : List Byte) (s : State) : Bool :=
  let dst := byteAt b 4 % 8
  decide (dst ≠ ringPos s) &&
    (decide (leAt b 0 2 / 2 ^ 14 = 0) || (decide (leAt b 0 2 / 2 ^ 14 = 1) && decide (byteAt b 4 / 16 % 8 ≠ dst)))

/-- Forward a flit that passes through at the other port, whether or not ports are held (R338, R351, R359). -/
def forwardFlit (p : Nat) (b : List Byte) (s : State) : State :=
  if passesThrough b s then
    sendBodies (1 - p) [⟨decide (leAt b 0 2 / 2 ^ 14 = 1), slice b 4 1 |>.headD 0, byteAt b 5, leAt b 6 2, leAt b 8 2,
      leAt b 10 2, slice b 12 256⟩] s
  else s

/-- Acknowledge a good flit when nothing else is waiting that could carry the acknowledgement: an IDLE flit does
(R336). -/
def ackIfQuiet (p : Nat) (before : BitVec 12) (s : State) : State :=
  let x := getPort p s
  if x.queue = [] ∧ x.txSeq = before then sendIdle p false s else s

/-- A flit arrives: one whose CRC fails or whose SEQ is not the next is discarded, the first of a run with a NAK; a good one
gives its acknowledgement and is acknowledged, and what is bound for another position goes on. What a message carries arrives
as an event of its own. -/
def receiveFlit (p : Nat) (f : Flit) (s : State) : State :=
  let x := getPort p s
  if portState p s ≠ 5 then s
  else
    let b := slice f.bytes 0 272
    let good := decide (crc32 (slice b 0 268) = wordAt b 268)
    if good && decide (flitSeq b = x.rxNext.toNat) then
      let idle := decide (2 ≤ leAt b 0 2 / 2 ^ 14)
      let s := setPort p { x with nakSent := false, rxNext := if idle then x.rxNext else x.rxNext + 1 } s
      let t := forwardFlit p b (takeAck p (leAt b 2 2) s)
      if idle then t else ackIfQuiet p x.txSeq t
    else
      let s := if good then s else bumpReg (Reg.RNG_Pp_CRC_ERR p) 1 s
      if x.nakSent then s else sendIdle p true (setPort p { x with nakSent := true } s)

/-- FLIT_RECEIVED (R336). -/
def execFlitReceived (port : Fin 2) (flit : Flit) (s : State) : Host.Outcome State Fault Refusal :=
  .next (receiveFlit port.val flit s)

/-- ACK_SEQ has not advanced for 1 µs while flits are unacknowledged. -/
def ackTimeout (p : Nat) (s : State) : State :=
  let x := getPort p s
  if x.unacked = [] ∨ portState p s ≠ 5 then s else retry p (runTo (x.ackAt + usRoot) s)

/-- ACK_TIMEOUT (R336). -/
def execAckTimeout (port : Fin 2) (s : State) : Host.Outcome State Fault Refusal := .next (ackTimeout port.val s)

/-! ### The breaking of the ring (R343, R367) -/

/-- Jobs that hold a ring port, or wait at the accept barrier of one, end in the manner of R107 with INVALID (R342, R367). -/
def endRingJobs (s : State) : State :=
  let us := (s.disp.jobs.filter (fun j => isRingJob j && (j.held || decide (j.stage = .acceptBarrier)))).map (·.uid)
  us.foldl (fun s u => failJob u Code.invalid false s) (if us.isEmpty then s else toCycleEnd s)

/-- Barriers in progress are forgotten. -/
def clearBarriers (s : State) : State :=
  { s with ring := { s.ring with
    heldArrive := none, arrived := none, barrierOf := none, releaseAt := none, lapOpen := [] } }

/-- Set STATE of the ring; outside UP the device counts as a ring of size 1 at position 0 (R347). -/
def setRingState (n : Nat) (s : State) : State :=
  let s := setRegFld Reg.RNG_STAT 31 29 n s
  if n = 3 then s else setRegFld Reg.RNG_STAT 15 12 1 (setRegFld Reg.RNG_STAT 26 24 0 s)

/-- The ring becomes BROKEN: ring jobs end, an event is logged and RING latches (R367, R394). -/
def breakRing (reason : Nat) (s : State) : State :=
  let was := regFld Reg.RNG_STAT 31 29 s
  let reason := if was = 4 ∧ reason = 0 then regFld Reg.RNG_STAT 11 8 s else reason
  let s := clearBarriers (setRegFld Reg.RNG_STAT 11 8 reason (setRingState 4 { s with ring := { s.ring with resetAt := none } }))
  if was = 4 then s
  else setLatch Latch.ring 0 (raise Src.ring .ringBroken Code.ok [] (endRingJobs s))

/-- A port enters DOWN: its transmitter is idle, and the ring breaks. -/
def portDown (p : Nat) (s : State) : State :=
  let s := setPort p RingPort.reset (setPortState p 7 s)
  if regBit Reg.RNG_CTL 31 s then breakRing 0 s else s

/-- Whether the Link clerk runs. -/
def linkClerkUp (s : State) : Bool := coreUp 3 s

/-- One more failed training attempt. -/
def countFail (p : Nat) (s : State) : State :=
  setRegFld (Reg.RNG_Pp_STAT p) 27 24 (min 15 (regFld (Reg.RNG_Pp_STAT p) 27 24 s + 1)) s

/-- A port becomes ACTIVE: its receive clock is seen, and what waits is sent; after RETRAIN from the oldest unacknowledged
flit. -/
def portActive (p : Nat) (s : State) : State :=
  let s := orReg Reg.CLK_EXT_STAT (word (2 ^ (4 + p))) (setPortState p 5 s)
  pumpPort p (resend p (setPort p { getPort p s with ackAt := now s, eqFails := 0, retrainFails := 0 } s))

/-- What ALIGN finds, in training and again in RETRAIN: the polarity of each lane and the lane order (R339). -/
def alignFound (p : Nat) (r : TrainResult) (s : State) : State :=
  setRegFld (Reg.RNG_Pp_STAT p) 28 28 r.reversed.toNat (setRegFld (Reg.RNG_Pp_STAT p) 23 0 r.polarity.toNat s)

/-- A training state ends (R339): a failure of DETECT or EQ tries it again, three failures of EQ in a row or of RETRAIN lead
to DOWN; a failure of ALIGN or VERIFY starts the training again (DESIGN CHOICE, log entry 47). -/
def trainStep (p : Nat) (r : TrainResult) (s : State) : State :=
  if !linkClerkUp s then s
  else
    let x := getPort p s
    let f := countFail p s
    match portState p s with
    | 1 => if r.ok then setPortState p 2 (setPort p { RingPort.reset with queue := x.queue, eqFails := x.eqFails } s) else f
    | 2 =>
      if r.ok then setPortState p 3 (setPort p { x with eqFails := 0 } s)
      else if 3 ≤ x.eqFails + 1 then portDown p f
      else setPort p { x with eqFails := x.eqFails + 1 } f
    | 3 =>
      if r.ok then
        setPortState p 4 (alignFound p r s)
      else setPortState p 1 f
    | 4 => if r.ok then portActive p s else setPortState p 1 f
    | 6 =>
      if r.ok then portActive p (alignFound p r s)
      else if 3 ≤ x.retrainFails + 1 then portDown p f
      else setPort p { x with retrainFails := x.retrainFails + 1 } f
    | _ => s

/-- TRAINING_STEP (R339). -/
def execTrainingStep (port : Fin 2) (r : TrainResult) (s : State) : Host.Outcome State Fault Refusal :=
  .next (trainStep port.val r s)

/-- Enable or disable a port: enabling moves it from OFF to DETECT, disabling puts it OFF (R339). -/
def enablePort (p : Nat) (on : Bool) (s : State) : State :=
  let s := setRegFld (Reg.RNG_Pp_CTL p) 31 31 on.toNat s
  if on then
    if portState p s = 0 then setPortState p 1 (setRegFld (Reg.RNG_Pp_STAT p) 27 24 0 (setPort p RingPort.reset s)) else s
  else setPortState p 0 (setPort p RingPort.reset s)

/-- A write of RNG_Pp_CTL: ENABLE, and RETRAIN from ACTIVE. -/
def writePortCtl (p : Nat) (v : Word) (s : State) : State :=
  let s := enablePort p (bit v 31) s
  if bit v 30 then enterRetrain p s else s

/-- PORT_ENABLE (R339). -/
def execPortEnable (w : Writer) (port : Fin 2) (value : Word) (s : State) : Host.Outcome State Fault Refusal :=
  .next (asWriter w (Reg.RNG_Pp_CTL port.val) (writePortCtl port.val value) s)

/-- PORT_RETRAIN (R339): it forces RETRAIN from ACTIVE. -/
def execPortRetrain (w : Writer) (port : Fin 2) (s : State) : Host.Outcome State Fault Refusal :=
  .next (asWriter w (Reg.RNG_Pp_CTL port.val) (enterRetrain port.val) s)

/-- An ACTIVE port loses block lock and enters RETRAIN (R339). Where the bypass of a neighbour has opened or closed the ring
is BROKEN, whatever the port does if the ring is UP (R348, R367). -/
def loseLock (p : Nat) (bypass : Bool) (s : State) : State :=
  if portState p s ≠ 5 ∧ ringUp s = false then s
  else
    let s := enterRetrain p s
    if bypass && regBit Reg.RNG_CTL 31 s then breakRing 0 s else s

/-- LOSS_OF_BLOCK_LOCK (R339, R367). -/
def execLossOfBlockLock (loss : LockLoss) (s : State) : Host.Outcome State Fault Refusal :=
  .next (loseLock loss.port.val loss.bypass s)

/-! ### Ring reset (R340 to R343, R350) -/

/-- This device's slot. -/
def ringSlot (s : State) : BitVec 3 := BitVec.ofNat 3 (regFld Reg.RNG_STAT 2 0 s)

/-- MASTER_SEL. -/
def isMaster (s : State) : Bool := regBit Reg.RNG_STAT 28 s

/-- On a ring reset a port leaves DOWN for OFF (R339), and OFF for DETECT when it is enabled (DEDUCED, log entry 54). -/
def leaveDown (p : Nat) (s : State) : State :=
  if portState p s = 7 then setPortState p (regBit (Reg.RNG_Pp_CTL p) 31 s).toNat s else s

/-- A device enters RESETTING: jobs that hold a ring port end with INVALID (R342). -/
def enterReset (s : State) : State :=
  leaveDown 1 (leaveDown 0 (endRingJobs (clearBarriers (setRegFld Reg.RNG_STAT 11 8 0 (setRingState 2 s)))))

/-- OFS as it was at tick `t`, counted back from a later tick at a rate. -/
def ofsBack (ofs : BitVec 96) (rate : Word) (ticks : Int) : BitVec 96 := ofs - BitVec.ofInt 96 (ticks * rateActs rate)

/-- OFS and RATE as the token carries them: the updates that the master has accepted and not yet applied are in them, as an
OFS that gives the master's network time from the last of their instants on (R407). They apply 2 µs after their acceptance,
and a member takes the token's time later than that. -/
def tokenClock (s : State) : BitVec 96 × Word :=
  let t : Int := s.clk.tick.toNat
  let ofs := s.clk.ofs + (s.tim.stepNext.elim (0 : BitVec 96) (fun v => (v.zeroExtend 96) <<< 32))
  s.tim.updates.foldl (fun c u =>
    let d := (u.1.tick.toNat : Int) - t
    match u.2 with
    | .step v => (c.1 + ((v.zeroExtend 96) <<< 32), c.2)
    | .rate v => (ofsBack c.1 c.2 (-d) - BitVec.ofInt 96 (d * rateActs v), v)) (ofs, getReg Reg.TIM_RATE s)

/-- The master starts a ring reset and sends the token EAST with its time, OFS and RATE (R341, R407). -/
def startReset (s : State) : State :=
  if !isMaster s || !regBit Reg.RNG_CTL 31 s then s
  else
    let c := tokenClock s
    let i := instantAfter 0 s
    enterReset (sendEast (.reset i 0 [ringSlot s] (ofsBack c.1 c.2 ((s.clk.tick.toNat : Int) - i.tick.toNat)) c.2)
      { s with ring := { s.ring with resetAt := some (now s) } })

/-- Both ports are ACTIVE and AUTO_RESET is set (R341). -/
def autoReset (s : State) : Bool :=
  regBit Reg.RNG_CTL 29 s && decide (portState 0 s = 5) && decide (portState 1 s = 5) && s.ring.resetAt.isNone

/-- RING_RESET_START (R341). -/
def execRingResetStart (byWrite : Option Writer) (s : State) : Host.Outcome State Fault Refusal :=
  .next (match byWrite with
    | some w => asWriter w Reg.RNG_CTL startReset s
    | none => if autoReset s then startReset s else s)

/-- RNG_SLOT_MAP of the slots in position order. -/
def slotMapWord (slots : List (BitVec 3)) : Word :=
  word (((slots.zipIdx).map (fun p => (8 + p.1.toNat) * 16 ^ p.2)).sum)

/-- Whether more than two consecutive slots are absent among slots 0 to EXPECT − 1, in ring order. -/
def slotGap (slots : List (BitVec 3)) (expect : Nat) : Bool :=
  let gone := fun i => decide ((BitVec.ofNat 3 (i % expect)) ∉ slots)
  decide (3 ≤ expect) && (List.range expect).any (fun i => gone i && gone (i + 1) && gone (i + 2))

/-- The reason with which the master fails a reset, the lowest that applies; 0 when none does (R343). -/
def resetReason (slots : List (BitVec 3)) (probeBad : Bool) (s : State) : Nat :=
  let e := regFld Reg.RNG_CTL 3 0 s
  if s.ring.resetAt = none ∨ slots.head? ≠ some (ringSlot s) then 1
  else if !slots.Nodup then 2
  else if slotGap slots e then 3
  else if slots.length < 2 ∨ e < slots.length then 4
  else if probeBad then 5
  else 0

/-- The ring comes UP with N devices; a ring with fewer than EXPECT is BYPASSED, and each absent slot is an event (R350). -/
def ringComesUp (slots : List (BitVec 3)) (pos : Nat) (s : State) : State :=
  let e := regFld Reg.RNG_CTL 3 0 s
  let n := slots.length
  let by_ := decide (n < e)
  let s := setReg Reg.RNG_SLOT_MAP (slotMapWord slots) (clearBarriers s)
  let s := setReg Reg.RNG_BARRIER_SEQ 0 s
  let s := setRegFld Reg.RNG_STAT 31 24 (3 * 32 + (isMaster s).toNat * 16 + by_.toNat * 8 + pos) s
  let s := setRegFld Reg.RNG_STAT 23 8 ((if by_ then Code.bypassed else 0) * 256 + n * 16) s
  let s := bumpReg Reg.RNG_RESET_COUNT 1 { s with ring := { s.ring with resetAt := none } }
  ((List.range e).filter (fun i => by_ && decide (BitVec.ofNat 3 i ∉ slots))).foldl (fun s i =>
    raise Src.ring .ringBypassed Code.bypassed [some (word i)] s) s

/-- The tick of the device's next day boundary. -/
def nextDayTick (s : State) : Word64 :=
  let t := dayAt (((getReg Reg.DAY_US s).toNat * usRoot : Nat) : Int) s
  s.clk.tick + BitVec.ofInt 64 (((t / tickRoot : Nat) : Int) - (now s / tickRoot : Nat))

/-- The result of a ring reset as the master broadcasts it: reason, N, the slots, and the instant of the first ring day
boundary, which is the master's next one (DESIGN CHOICE, log entry 25). -/
def resultBody (reason : Nat) (slots : List (BitVec 3)) (s : State) : List Byte :=
  bcastBody 6 (leBytes 1 reason ++ leBytes 1 slots.length ++ slice (slots.map (fun x => x.zeroExtend 8)) 0 8 ++
    leBytes 8 (nextDayTick s).toNat)

/-- A member learns the result: the ring is UP, or stays BROKEN with the reason; its day takes the master's boundary. -/
def takeResult (b : List Byte) (s : State) : State :=
  let n := min 8 (byteAt b 2)
  let slots := (List.range n).map (fun i => BitVec.ofNat 3 (byteAt b (3 + i)))
  if byteAt b 1 ≠ 0 then breakRing (byteAt b 1) s
  else
    let t : Instant := ⟨BitVec.ofNat 64 (leAt b 11 8), 0⟩
    let d := instantAt t s - ((getReg Reg.DAY_US s).toNat * usRoot : Nat)
    ringComesUp slots (slots.idxOf (ringSlot s)) { s with day := { s.day with start := d } }

/-- A step of the timebase moves the day in progress by less than 1 µs, so that its start is a whole microsecond of the
timebase again (R16, R342; DESIGN CHOICE, log entry 184). -/
def dayOnMicrosecond (s : State) : State :=
  let x := instantAt ⟨s.clk.tick - s.clk.tick % 100, 0⟩ s
  { s with day := { s.day with start := s.day.start + (x - s.day.start) % (usRoot : Int) } }

/-- The step of a device at position p ≥ 1 (R341): after 12 µs its time is the master's, the token's time at its arrival
plus the hop delays summed, counted in whole ticks at the edges of the member's own and the rest in FINE; OFS is the master's
at that time and RATE is the master's (R407); at 40 µs the token goes on, its time 40 µs later (DEDUCED, log entry 48). Probe
round trips that differ too much break it here with REFCLK (R343). -/
def memberStep (t : Instant) (hopSum : Nat) (hop : Nat) (slots : List (BitVec 3)) (probeBad : Bool) (ofs : BitVec 96)
    (rate : Word) (s : State) : State :=
  let start := now s
  let s := enterReset { s with ring := { s.ring with resetAt := some start } }
  let p := slots.length
  let s := setReg Reg.RNG_TIMING (word (hop % 2 ^ 16 * 2 ^ 16)) (runTo (start + 8 * usRoot) s)
  if probeBad then breakRing 5 s
  else
    let s := runTo (start + 12 * usRoot) s
    let sixteenths := t.tick.toNat * 16 + t.fine.toNat + hopSum + hop + 12 * 1600 - now s % tickRoot / 3
    let tick : Word64 := BitVec.ofNat 64 (sixteenths / 16)
    let step := tick - s.clk.tick
    let ofsNow := ofsBack ofs rate ((t.tick.toNat : Int) - tick.toNat)
    let s := noteClock s
    let s := { s with clk := ⟨s.clk.root, tick, ofsNow⟩, tim := { s.tim with updates := [], stepNext := none } }
    let s := dayOnMicrosecond (setReg Reg.TIM_RATE rate (setRegFld Reg.RNG_TIMING 3 0 (sixteenths % 16) s))
    let s := raise Src.ring .ringStep Code.ok [some (lo32 step), some (hi32 step)] s
    let s := setReg Reg.RNG_BARRIER_SEQ 0 (setReg Reg.RNG_PORT_OWNER 0 (clearBarriers (runTo (start + 40 * usRoot) s)))
    let t' : Instant := ⟨t.tick + 4000, t.fine⟩
    sendEast (.reset t' (hopSum + hop) (slots ++ [ringSlot s]) (ofsBack ofs rate (-4000)) rate) (setRegFld Reg.RNG_STAT 26 24 p s)

/-- The master's own step, the last one: it checks the result and broadcasts it (R341, R343). -/
def masterStep (slots : List (BitVec 3)) (probeBad : Bool) (s : State) : State :=
  let reason := resetReason slots probeBad s
  let s := runTo (now s + 40 * usRoot) s
  let s := sendEast (.bcast (resultBody reason slots s)) s
  if reason ≠ 0 then breakRing reason s else ringComesUp slots 0 s

/-- RESET_TOKEN (R341). A device that does not take part in a ring passes no token. -/
def execResetToken (time : Instant) (hopSum : Nat) (hop : BitVec 16) (slots : List (BitVec 3)) (probeBad : Bool)
    (masterOfs : BitVec 96) (masterRate : Word) (s : State) : Host.Outcome State Fault Refusal :=
  .next (
    if !regBit Reg.RNG_CTL 31 s then s
    else if isMaster s then masterStep slots probeBad s
    else memberStep time hopSum hop.toNat slots probeBad masterOfs masterRate s)

/-- The limit of R343: 40 µs × 8 + 100 µs. -/
def resetLimit : Nat := 420 * usRoot

/-- The token does not return to the master, or none reaches another device within the limit of its enable (R343). -/
def resetTimeout (s : State) : State :=
  match s.ring.resetAt with
  | some t => if isMaster s then breakRing 6 (runTo (t + resetLimit) s) else s
  | none =>
    if regBit Reg.RNG_CTL 31 s && !isMaster s && decide (regFld Reg.RNG_STAT 31 29 s = 1) then
      breakRing 1 (runTo (s.ring.enabledAt + resetLimit) s)
    else s

/-- RING_RESET_TIMEOUT (R343). -/
def execRingResetTimeout (s : State) : Host.Outcome State Fault Refusal := .next (resetTimeout s)

/-! ### Snapshots (R363) -/

/-- The 64-byte record; R363 gives its contents and not their places (DESIGN CHOICE, log entry 49). -/
def snapRecord (s : State) : SnapRecord :=
  let counters := fun p => wordBytes (getReg (Reg.RNG_Pp_RETRY p) s) ++ wordBytes (getReg (Reg.RNG_Pp_CRC_ERR p) s) ++
    wordBytes (getReg (Reg.RNG_Pp_RETRAIN p) s)
  slice (leBytes 1 (ringPos s) ++ leBytes 3 (ringSlot s).toNat ++ wordBytes (getReg Reg.DAY_NUM s) ++
    leBytes 8 s.clk.tick.toNat ++ wordBytes (getReg Reg.RNG_BARRIER_SEQ s) ++
    leBytes 4 (regFld Reg.FAB_HELD 11 0 s + regFld Reg.RNG_PORT_OWNER 31 30 s * 2 ^ 30) ++ counters 0 ++ counters 1 ++
    wordBytes (getReg Reg.SAF_CMP_STAT s)) 0 64

/-- Capture this device's record at a ring instant (R344, R363). -/
def captureSnap (at_ : Instant) (s : State) : State :=
  let s := runTo (instantEdge at_ s) s
  { s with ring := { s.ring with snap := some (snapRecord s) } }

/-- Show the record of position `q` in RNG_SNAPq. -/
def showSnap (q : Nat) (r : SnapRecord) (s : State) : State :=
  (List.range 16).foldl (fun s i => setReg (Reg.RNG_SNAPq q i) (wordAt r (4 * i)) s) s

/-- The master issues a snapshot: SNAP goes one lap, the capture is N × 180 ns later, and COLLECT follows it (R362, R363). -/
def startSnap (s : State) : State :=
  if !(ringUp s && isMaster s) then s
  else
    let at_ := instantAfter (regFld Reg.RNG_STAT 15 12 s * 288) s
    let s := captureSnap at_ (sendEast (.snap at_) s)
    sendEast (.collect (s.ring.snap.toList)) s

/-- SNAP (R363): the message at another device goes on EAST, and its record is captured at the instant. -/
def execSnap (byWrite : Option Writer) (at_ : Instant) (s : State) : Host.Outcome State Fault Refusal :=
  .next (match byWrite with
    | some w => asWriter w Reg.RNG_CTL startSnap s
    | none => if ringUp s && !isMaster s then captureSnap at_ (sendEast (.snap at_) s) else s)

/-- COLLECT: a device appends its record; at the master the records are shown by position. -/
def collectSnap (records : List SnapRecord) (s : State) : State :=
  if !ringUp s then s
  else if isMaster s then
    ((records.take 8).zipIdx).foldl (fun s p => showSnap p.2 p.1 s) { s with ring := { s.ring with snap := none } }
  else sendEast (.collect (records ++ s.ring.snap.toList)) { s with ring := { s.ring with snap := none } }

/-- COLLECT (R363). -/
def execCollect (records : List SnapRecord) (s : State) : Host.Outcome State Fault Refusal :=
  .next (collectSnap records s)

/-! ### RNG_CTL (R368) -/

/-- Enable the ring: both ports and ring operation. -/
def ringOn (s : State) : State :=
  let s := setRingState 1 (setRegFld Reg.RNG_STAT 23 16 0 (setRegFld Reg.RNG_CTL 31 31 1 s))
  enablePort 1 true (enablePort 0 true { s with ring := { s.ring with enabledAt := now s } })

/-- Disable the ring: both ports go OFF and the device counts as a ring of size 1 (R347). -/
def ringOff (s : State) : State :=
  let s := endRingJobs (clearBarriers (setRingState 0 (setRegFld Reg.RNG_CTL 31 31 0 { s with ring := { s.ring with resetAt := none } })))
  enablePort 1 false (enablePort 0 false s)

/-- A write of RNG_CTL: an enable with EXPECT 0 sets CODE to FIELD_ZERO and changes nothing else (R368); then RESET and SNAP
act. -/
def writeRingCtl (v : Word) (s : State) : State :=
  if bit v 31 && decide (fld v 3 0 = 0) then setRegFld Reg.RNG_STAT 23 16 Code.fieldZero s
  else
    let was := regBit Reg.RNG_CTL 31 s
    let s := setRegFld Reg.RNG_CTL 29 29 (bit v 29).toNat (setRegFld Reg.RNG_CTL 3 0 (fld v 3 0) s)
    let s := if bit v 31 && !was then ringOn s else if !bit v 31 && was then ringOff s else s
    let s := if bit v 30 then startReset s else s
    if bit v 28 then startSnap s else s

/-- RING_ENABLE (R368). -/
def execRingEnable (w : Writer) (value : Word) (s : State) : Host.Outcome State Fault Refusal :=
  .next (asWriter w Reg.RNG_CTL (writeRingCtl value) s)

/-! ### Barriers (R352 to R354) -/

/-- A job whose start barrier has been released: partition cycle 0 begins (R354), or a schedule of length 0 ends (R56). -/
def startRun (j : Job) (s : State) : State :=
  match j.run with
  | none => s
  | some r =>
    if r.image.hdr.schedLen = 0 then endAtOnce j s
    else setJob { j with stage := .running, run := some { r with cycle0 := fabricEdge (now s) s } } s

/-- What the device does with its job at a release of highest vote `v`: at a start barrier partition cycle 0 begins; at an
accept barrier the job is accepted, replayed, restarted or given up (R354). -/
def releaseJob (uid : Nat) (start : Bool) (v : BitVec 2) (s : State) : State :=
  match getJob uid s with
  | none => s
  | some j =>
    if start then if j.stage = .startBarrier then startRun j s else s
    else if j.stage ≠ .acceptBarrier then s
    else
      match v.toNat with
      | 0 => if j.proof.isSome then retireIfIdle j.desc.handle (finishJob j j.codes Outcome_.accepted 0 s) else acceptJob j j.codes s
      | 1 => setJob { j with stage := .replay, beforeSlot := s.day.inSlot } s
      | 2 => setJob { j with stage := .restart } s
      | _ => giveUp j j.codes s

/-- The first job that waits for a barrier of its own arrives (R354). -/
def nextArrival (s : State) : State :=
  match s.disp.jobs.find? (fun j => j.stage = .startBarrier || j.stage = .acceptBarrier) with
  | none => s
  | some j => if j.stage = .startBarrier then arriveBarrier j.uid true 0 s else arriveBarrier j.uid false j.vote s

/-- Release the barrier now. -/
def releaseNow (v : BitVec 2) (s : State) : State :=
  let b := s.ring.barrierOf
  let s := incReg Reg.RNG_BARRIER_SEQ { s with ring := { s.ring with releaseAt := none, arrived := none, barrierOf := none } }
  let s := match b with
    | some (uid, start) => releaseJob uid start v s
    | none => s
  nextArrival s

/-- The higher of two votes. -/
def maxVote (a b : BitVec 2) : BitVec 2 := if a < b then b else a

/-- An ARRIVE of the present barrier: held until this device arrives, then forwarded with the higher vote; at the master it
has gone round, and the release instant is now + N × 180 ns + 0.6 µs (R352). -/
def takeArrive (seq : Word) (vote : BitVec 2) (s : State) : State :=
  if !ringUp s || seq ≠ getReg Reg.RNG_BARRIER_SEQ s then s
  else if isMaster s then
    match s.ring.arrived with
    | none => s
    | some (v, _) =>
      let t := instantAfter (regFld Reg.RNG_STAT 15 12 s * 288 + 960) s
      let m := maxVote v vote
      sendEast (.release seq t m) { s with ring := { s.ring with
        releaseAt := some (t, m), lapOpen := s.ring.lapOpen.map (fun l => if l.2 = seq then (now s, seq) else l) } }
  else
    match s.ring.arrived with
    | some (v, _) => sendEast (.arrive seq (maxVote v vote)) s
    | none => { s with ring := { s.ring with heldArrive := some (seq, vote) } }

/-- ARRIVE (R352). -/
def execArrive (seq : Word) (vote : BitVec 2) (s : State) : Host.Outcome State Fault Refusal :=
  .next (takeArrive seq vote s)

/-- A RELEASE that has gone round: the master checks that it has returned before its instant; one that has not is late, and
releases now what has not been released (R352, R353). -/
def releaseReturns (seq : Word) (t : Instant) (v : BitVec 2) (s : State) : State :=
  if s.ring.lapOpen.any (fun l => l.2 = seq) then
    let s := { s with ring := { s.ring with lapOpen := s.ring.lapOpen.filter (fun l => l.2 ≠ seq) } }
    if instantPast t s then
      let s := bumpReg Reg.RNG_BARRIER_LATE 1 s
      if seq = getReg Reg.RNG_BARRIER_SEQ s ∧ s.ring.releaseAt.isSome then releaseNow v s else s
    else s
  else s

/-- A RELEASE: at the master it has gone round; another device forwards it and releases at its instant, or at once when that
has passed, which RNG_BARRIER_LATE counts (R352, R353). -/
def takeRelease (seq : Word) (t : Instant) (v : BitVec 2) (s : State) : State :=
  if !ringUp s then s
  else if isMaster s then releaseReturns seq t v s
  else if seq ≠ getReg Reg.RNG_BARRIER_SEQ s then s
  else
    let s := sendEast (.release seq t v) s
    if instantPast t s then releaseNow v (bumpReg Reg.RNG_BARRIER_LATE 1 s)
    else { s with ring := { s.ring with releaseAt := some (t, v) } }

/-- RELEASE (R353). -/
def execRelease (seq : Word) (at_ : Instant) (vote : BitVec 2) (s : State) : Host.Outcome State Fault Refusal :=
  .next (takeRelease seq at_ vote s)

/-- The release instant comes: the first fabric cycle at or after it (R344). -/
def barrierRelease (s : State) : State :=
  match s.ring.releaseAt with
  | none => s
  | some (t, v) => releaseNow v (runTo (instantEdge t s) s)

/-- BARRIER_RELEASE (R344). -/
def execBarrierRelease (s : State) : Host.Outcome State Fault Refusal := .next (barrierRelease s)

/-- An ARRIVE or RELEASE that has not returned to the master within BARRIER_TIMEOUT breaks the ring (R353). -/
def barrierTimeout (s : State) : State :=
  match (s.ring.lapOpen.map (·.1)).min? with
  | none => s
  | some t => breakRing 0 (runTo (t + regFld Reg.RNG_BARRIER_TIMEOUT 15 0 s * usRoot) s)

/-- BARRIER_TIMEOUT (R353). -/
def execBarrierTimeout (s : State) : Host.Outcome State Fault Refusal := .next (barrierTimeout s)

/-! ### Broadcasts, aborts, transfers -/

/-- Time updates are ordered by the instants at which they apply. -/
def queueUpdate (i : Instant) (u : TimeUpdate) (s : State) : State :=
  { s with tim := { s.tim with updates := s.tim.updates ++ [(i, u)] } }

/-- What a broadcast body says (log entry 25): day settings, an operating point, a request for one, a time step or rate with
the instant at which every device applies it (R407), the result of a ring reset. -/
def applyBody (b : List Byte) (s : State) : State :=
  let at_ : Instant := ⟨BitVec.ofNat 64 (leAt b 1 8), 0⟩
  match byteAt b 0 with
  | 1 => { s with day := { s.day with pending := some ⟨leAt b 1 4, leAt b 5 4, leAt b 9 4⟩ } }
  | 2 => requestPoint (byteAt b 1) s
  | 4 => queueUpdate at_ (.step (BitVec.ofNat 64 (leAt b 9 8))) s
  | 5 => queueUpdate at_ (.rate (wordAt b 9)) s
  | 6 => takeResult b s
  | _ => s

/-- A BCAST goes one lap EAST: the device that sent it takes it off the ring. A request for an operating point comes from
its position and acts at the master (R436); every other body comes from the master and acts at the others. -/
def takeBcast (b : List Byte) (s : State) : State :=
  let st := regFld Reg.RNG_STAT 31 29 s
  if !regBit Reg.RNG_CTL 31 s || st = 0 || st = 1 then s
  else if byteAt b 0 = 3 then
    if isMaster s then pointAtMaster (byteAt b 1) (byteAt b 2) (sendEast (.bcast b) s)
    else if byteAt b 1 = ringPos s then s
    else sendEast (.bcast b) s
  else if isMaster s then s
  else applyBody b (sendEast (.bcast b) s)

/-- BCAST (R351). -/
def execBcast (body : List Byte) (s : State) : Host.Outcome State Fault Refusal := .next (takeBcast body s)

/-- Whether a job has been dispatched and has not come to its accept barrier. -/
def goesOn (j : Job) : Bool :=
  j.stage = .loading || j.stage = .startBarrier || j.stage = .running || j.stage = .saving || j.stage = .deciding

/-- An ABORT goes one lap: the device that sent it takes it off the ring. Every other device passes it on, and its part of
the job ends with INVALID and a vote of 2 (R351, R354). -/
def takeAbort (source : Nat) (jobId : BitVec 16) (cause : Byte) (s : State) : State :=
  if !ringUp s || source = ringPos s then s
  else
    let s := sendEast (.abort source jobId cause) s
    match s.disp.jobs.find? (fun j => goesOn j && isRingJob j && j.desc.jobId = jobId) with
    | none => s
    | some j => failJob j.uid Code.invalid false (toCycleEnd s)

/-- ABORT (R354). -/
def execAbort (job : AbortedJob) (cause : Byte) (s : State) : Host.Outcome State Fault Refusal :=
  .next (takeAbort job.source.val job.jobId cause s)

/-- Change the run of a job. -/
def modRun (j : Job) (f : Run → Run) (s : State) : State := setJob { j with run := j.run.map f } s

/-- The flight of a run that waits on (peer, channel, instance), of receiving or sending records. -/
def ringFlight (r : Run) (peer channel k : Nat) (out : Bool) : Option Flight :=
  r.copies.find? (fun f => decide (f.ring = some (peer, channel, k, false)) &&
    (decide ((r.image.sched[f.rec_]?).elim 0 (·.action) = 1) != out))

/-- The flights of a run when the transfer `f` of `n` bytes has been sent or has arrived: its tile's port moves it now
(R492). -/
def sentFlight (f : Flight) (n : Nat) (r : Run) (s : State) : List Flight :=
  r.copies.map (fun y => if y = f
    then portFlight n r.copies { f with ring := f.ring.map (fun x => (x.1, x.2.1, x.2.2.1, true)) } s else y)

/-- A READY note: the run counts it, and a sending instance that waited for it transmits (R356). -/
def readyForRun (peer channel k : Nat) (j : Job) (s : State) : State :=
  match j.run with
  | none => s
  | some r =>
    let key := pairKey peer channel
    let r := { r with readyGot := tset (fun _ => 0) key (max (k + 1) (tget (fun _ => 0) r.readyGot key)) r.readyGot }
    let s := modRun j (fun _ => r) s
    match ringFlight r peer channel k true with
    | none => s
    | some f =>
      match r.image.sched[f.rec_]? with
      | none => s
      | some x =>
        match descOf r.image x with
        | none => s
        | some d =>
          let t := parseTransfer d
          let b := bankRead f.tile t.bank (t.bankAddr + t.bankStep * f.inst) (align8 x.length) s
          if b.1.bad.isSome then failJob j.uid Code.eccUncorr true (toCycleEnd b.2)
          else
            let r := { r with copies := sentFlight f (align8 x.length) r b.2 }
            sendTransfer t.west.toNat peer channel k b.1.bytes (modRun j (fun _ => r) b.2)

/-- READY (R356): it is for the ring jobs that run or wait at their start barrier. -/
def execReady (peer : Fin 8) (channel : Fin 64) (inst : Nat) (s : State) : Host.Outcome State Fault Refusal :=
  .next ((s.disp.jobs.filter (fun j => isRingJob j && (j.stage = .running || j.stage = .startBarrier))).foldl
    (fun s j => readyForRun peer.val channel.val inst j s) s)

/-- Words of arriving data combined with bank words: FP32 add rounded once, or INT32 add as an accumulation step, with the
saturation events (R74, R75, R82, R358). -/
def ringAdd (fp : Bool) (bank data : List Byte) : List Byte × Nat :=
  (List.range (data.length / 4)).foldl (fun (acc : List Byte × Nat) i =>
    let a := leAt bank (4 * i) 4
    let b := leAt data (4 * i) 4
    if fp then (acc.1 ++ leBytes 4 (bits32 (rn (sumN [num32 a, num32 b]))), acc.2)
    else
      let v := accStepI ((BitVec.ofNat 32 a).toInt, acc.2) (BitVec.ofNat 32 b).toInt
      (acc.1 ++ wordBytes (wordI v.1), v.2)) ([], 0)

/-- A transfer message lands (R357, R358): a length that differs from the instance's ends the job with INVALID; a bank word
that cannot be read for an add ends it with ECC_UNCORR. -/
def landTransfer (peer channel k : Nat) (payload : List Byte) (s : State) : State :=
  let hit := s.disp.jobs.findSome? (fun j => j.run.bind (fun r =>
    if j.stage = .running then (ringFlight r peer channel k false).map (fun f => (j, r, f)) else none))
  match hit with
  | none => s
  | some (j, r, f) =>
    match r.image.sched[f.rec_]? with
    | none => s
    | some x =>
      match descOf r.image x with
      | none => s
      | some d =>
        let t := parseTransfer d
        let a := t.bankAddr + t.bankStep * f.inst
        if payload.length ≠ align8 x.length ∨ regFld Reg.RNG_STAT 15 12 s ≤ peer then failJob j.uid Code.invalid true (toCycleEnd s)
        else
          let old := if t.rfmt = 0 then (⟨[], 0, none⟩, s) else bankRead f.tile t.bank a payload.length s
          if old.1.bad.isSome then failJob j.uid Code.eccUncorr true (toCycleEnd old.2)
          else
            let v := if t.rfmt = 0 then (payload, 0) else ringAdd (decide (t.rfmt = 1)) old.1.bytes payload
            let r := { r with sat := r.sat + v.2, copies := sentFlight f payload.length r old.2 }
            modRun j (fun _ => r) (bankWrite (cycleBefore (now s) s) Port.copy f.tile t.bank a v.1 old.2)

/-- RING_TRANSFER_MESSAGE (R357, R358). -/
def execRingTransferMessage (peer : Fin 8) (channel : Fin 64) (inst : Nat) (payload : List Byte) (s : State) :
    Host.Outcome State Fault Refusal :=
  .next (landTransfer peer.val channel.val inst payload s)

end Sys2Proof.Machine
end

