-- ==== Sys2Proof/Machine/Time.lean ====
section
/-! DEFINITION. Time and Ethernet (chapter 15): the timebase as software reads and moves it (R404 to R407), PTP domains
(R415, R416), frames with their stamps (R410 to R413), and postmarks (R417 to R419). -/

namespace Sys2Proof.Machine

open Sys2Proof.Config

/-! ### Schedule time and network time (R404 to R407) -/

/-- A read of TIM_TICK_LO latches the rest of TICK and network time (R406). -/
def readTick (s : State) : Word × State :=
  let nt := netTime s
  let s := setReg Reg.TIM_TICK_HI (hi32 s.clk.tick) s
  let s := setReg Reg.TIM_NT_LO ((nt >>> 32).truncate 32) (setReg Reg.TIM_NT_HI ((nt >>> 64).truncate 32) s)
  (lo32 s.clk.tick, setReg Reg.TIM_FRAC (nt.truncate 32) s)

/-- TICK_READ (R406). -/
def execTickRead (w : Writer) (s : State) : Host.Outcome State Fault Refusal :=
  .next (asReader w Reg.TIM_TICK_LO readTick s)

/-- The ring instant 200 ticks after now (R407). -/
def updateAt (s : State) : Instant := ⟨s.clk.tick + 200, 0⟩

/-- A time update is accepted: in a ring that is UP only at the master, which carries it to every device and applies it at
the same instant as they do; elsewhere it is discarded with NOT_MASTER (R407). Outside a ring it acts as `f` says. -/
def acceptUpdate (kind : Nat) (bytes : List Byte) (u : TimeUpdate) (f : State → State) (s : State) : State :=
  if notMaster s then orReg Reg.TIM_STAT 0x20000000 s
  else if ringUp s then
    bcastIfMaster kind (leBytes 8 (updateAt s).tick.toNat ++ bytes) (queueUpdate (updateAt s) u s)
  else f s

/-- A step of OFS_INT at the next tick; steps written within one tick add up (R405). -/
def stepTime (v : Word64) (s : State) : State :=
  acceptUpdate 4 (leBytes 8 v.toNat) (.step v)
    (fun s => { s with tim := { s.tim with stepNext := some (s.tim.stepNext.getD 0 + v) } }) s

/-- TIME_STEP (R405): the write of TIM_STEP_HI applies TIM_STEP_HI:TIM_STEP_LO. -/
def execTimeStep (w : Writer) (value : Word) (s : State) : Host.Outcome State Fault Refusal :=
  .next (asWriter w Reg.TIM_STEP_HI (fun s => stepTime (join64 value (getReg Reg.TIM_STEP_LO s)) s) s)

/-- RATE is written. -/
def writeRate (v : Word) (s : State) : State := acceptUpdate 5 (wordBytes v) (.rate v) (setRate v) s

/-- RATE_WRITE (R405, R407). -/
def execRateWrite (w : Writer) (value : Word) (s : State) : Host.Outcome State Fault Refusal :=
  .next (asWriter w Reg.TIM_RATE (writeRate value) s)

/-- The pending update of earliest instant; the first of equals. -/
def firstUpdate (us : List (Instant × TimeUpdate)) : Option (Instant × TimeUpdate) :=
  us.foldl (fun b u => match b with
    | none => some u
    | some x => if u.1.tick < x.1.tick then some u else some x) none

/-- Apply the next pending update at its ring instant (R407). -/
def applyUpdate (s : State) : State :=
  match firstUpdate s.tim.updates with
  | none => s
  | some u =>
    let s := runTo (instantEdge u.1 s) { s with tim := { s.tim with updates := s.tim.updates.erase u } }
    match u.2 with
    | .step v => { noteClock s with clk := { s.clk with ofs := s.clk.ofs + ((v.zeroExtend 96) <<< 32) } }
    | .rate v => setRate v s

/-- TIME_UPDATE_APPLY (R407). -/
def execTimeUpdateApply (s : State) : Host.Outcome State Fault Refusal := .next (applyUpdate s)

/-! ### Stamps (R410) -/

/-- The root cycle within its tick, as a fraction in 2^−32 tick, rounded to nearest (DESIGN CHOICE, log entry 51). -/
def subTick (r : Nat) : Int := roundInt false (((r % tickRoot * 2 ^ 32 : Nat) : Rat) / 48)

/-- A correction in 1/256 ns as 2^−32 ticks, rounded once to nearest with ties to even. -/
def corTicks (w : Word) : Int := roundInt false (((w.toInt : Rat) * 2 ^ 32) / 2560)

/-- The clock as it ran at root cycle `r`, as of the end of that run: the oldest past run that ended later, or the present
one. -/
def clockAt (r : Nat) (s : State) : PastClock :=
  match (s.tim.past.filter (fun p => decide (r < p.until_))).getLast? with
  | some p => p
  | none => ⟨now s, s.clk.tick, s.clk.ofs, getReg Reg.TIM_RATE s⟩

/-- TICK and NT in 64.32 of an event `age` root cycles ago, as the clock ran then, its NT moved by a correction; TICK is the
integer part of the corrected instant less OFS at the raw one. -/
def ethStamp (age : Nat) (cor : Int) (s : State) : Word64 × BitVec 96 :=
  let r := now s - age
  let c := clockAt r s
  let back := c.until_ / tickRoot - r / tickRoot
  let ofs : BitVec 96 := c.ofs - BitVec.ofInt 96 ((back : Int) * rateActs c.rate)
  let tick := c.tick - BitVec.ofNat 64 back
  let inst : BitVec 96 := (tick.zeroExtend 96 <<< 32) + BitVec.ofInt 96 (subTick r + cor)
  ((inst >>> 32).truncate 64, inst + ofs)

/-- MAC `m`. -/
def getMac (m : Nat) (s : State) : Mac := tget (fun _ => Mac.reset) s.macs m

/-- The state with a MAC set. -/
def setMac (m : Nat) (v : Mac) (s : State) : State := { s with macs := tset (fun _ => Mac.reset) m v s.macs }

/-- Whether a MAC sends and receives: enabled with its link up (R421). -/
def macUp (m : Nat) (s : State) : Bool := regBit (Reg.ETH_Mm_CTL m) 31 s && (getMac m s).linkUp

/-! ### PTP (R414 to R416) -/

/-- Domain `d` as the Link clerk tracks it. -/
def getDomain (d : Nat) (s : State) : Domain := tget (fun _ => Domain.reset) s.tim.domains d

/-- The state with a domain set. -/
def setDomainState (d : Nat) (v : Domain) (s : State) : State :=
  { s with tim := { s.tim with domains := tset (fun _ => Domain.reset) d v s.tim.domains } }

/-- The active domain. -/
def activeDomain (s : State) : Nat := regFld Reg.TIM_STAT 8 8 s

/-- Whether a domain is tracking: TIM_STAT.LOCKED. -/
def tracks (d : Nat) (s : State) : Bool := regBit Reg.TIM_STAT d s

/-- Make the other domain active (R416): its offset is removed by 50 ppm on top of its rate for |offset| / 50 ppm, which is
375 root cycles for each 1/256 ns. When it is not tracking or its offset exceeds SWITCH_MAX the switch is not made, and RATE
holds the value it has (log entry 186). -/
def switchDomain (s : State) : State :=
  let o := 1 - activeDomain s
  let d : Int := (getReg (Reg.TIM_DOMd_OFS o) s).toInt
  if !tracks o s || decide (256 * regFld Reg.TIM_SWITCH_MAX 15 0 s < d.natAbs) then
    raise Src.linkClerk .holdover Code.ok [] (orReg Reg.TIM_STAT 0x80000000
      { s with tim := { s.tim with slew := none, holding := true } })
  else
    let s := orReg Reg.TIM_STAT 0x40000000 (setRegFld Reg.TIM_STAT 8 8 o s)
    let s := raise Src.linkClerk .domainSwitched Code.ok [] s
    let r := (getDomain o s).rate
    if d = 0 then writeRate r { s with tim := { s.tim with slew := none, holding := false } }
    else
      let s := { s with tim := { s.tim with slew := some (now s + 375 * d.natAbs, r), holding := false } }
      writeRate (wordI (r.toInt + (if d < 0 then -214748 else 214748))) s

/-- An offset in 2^−32 tick as the nearest whole number of ticks, ties to even (DESIGN CHOICE, log entry 50). -/
def ofsTicks (d : Int) : Word64 := BitVec.ofInt 64 (roundInt false ((d : Rat) / 2 ^ 32))

/-- An offset in 2^−32 tick as TIM_DOMd_OFS shows it: in 1/256 ns, rounded to nearest, at the end of its range when it lies
beyond (DESIGN CHOICE, log entry 50). -/
def ofsShown (d : Int) : Word :=
  wordI (max (-(2 ^ 31)) (min (2 ^ 31 - 1) (roundInt false (((d * 2560 : Int) : Rat) / 2 ^ 32))))

/-- Whether a message is of the domain that TIM_DOMd_CFG names: enabled, of its PROFILE and DOMAIN number, received on one of
its PORTS (R414, R415). -/
def ptpMatches (d : Nat) (r : PtpReport) (s : State) : Bool :=
  let w := getReg (Reg.TIM_DOMd_CFG d) s
  bit w 31 && decide (bit w 24 = r.as_) && bit w (16 + r.port.val) && decide (fld w 7 0 = r.number.toNat)

/-! What the Link clerk sends (R414, R417) -/

/-- Network time at which a message of the Link clerk leaves a MAC now (R410). -/
def sentStamp (m : Nat) (s : State) : BitVec 96 := (ethStamp 0 (corTicks (getReg (Reg.ETH_Mm_TXCOR m) s)) s).2

/-- Network time at which a message came in (R410). -/
def gotStamp (r : PtpReport) (s : State) : BitVec 96 := (ethStamp r.age (-corTicks (getReg (Reg.ETH_Mm_RXCOR r.port) s)) s).2

/-- The Link clerk sends a message that carries a time, and records its transmit stamp in place of that of the last of its
port, kind and domain number (R417). -/
def sendPtp (m : Nat) (k : PtpKind) (number : BitVec 8) (seq : BitVec 16) (carried : BitVec 96) (s : State) : State :=
  emit (.ptpMessage m k number seq carried) { s with tim := { s.tim with
    sent := ⟨m, k, number, seq, sentStamp m s⟩ ::
      s.tim.sent.filter (fun x => !(decide (x.port = m) && decide (x.kind = k) && decide (x.number = number))) } }

/-- The transmit stamp of the last message of a port, kind and number, when it is that of the sequence number. -/
def sentOf (m : Nat) (k : PtpKind) (number : BitVec 8) (seq : BitVec 16) (s : State) : Option (BitVec 96) :=
  (s.tim.sent.find? (fun x => decide (x.port = m) && decide (x.kind = k) && decide (x.number = number) &&
    decide (x.seq = seq))).map (·.stamp)

/-! What it learns: delays and offsets from stamps (R408, R414, R415) -/

/-- A time less another, in 2^−32 tick. -/
def timeLess (a b : BitVec 96) : Int := (a - b).toInt

/-- The path delay that applies to a message of domain `d`: the port's peer delay in the 802.1AS profile, the domain's own in
the default one. -/
def pathDelay (d : Nat) (r : PtpReport) (s : State) : Int :=
  if r.as_ then (tget (fun _ => PeerDelay.reset) s.tim.peers r.port).delay else (getDomain d s).delay

/-- Receive stamp less origin time of the Sync of which a message completes the pair: a one-step Sync itself, or the Follow_Up
of the two-step Sync that was noted. -/
def syncLag (d : Nat) (r : PtpReport) (s : State) : Option Int :=
  match r.kind with
  | .sync => if r.twoStep then none else some (timeLess (gotStamp r s) r.time)
  | .followUp =>
    match (getDomain d s).sync with
    | some (q, got) => if q = r.seq then some (timeLess got r.time) else none
    | none => none
  | _ => none

/-- The domain's offset from network time, when a message gives it: the time of the origin and the path delay, less the receive
stamp, in 2^−32 tick (IEEE 1588; PRESUMED, log entry 159). -/
def offsetOf (d : Nat) (r : PtpReport) (s : State) : Option Int := (syncLag d r s).map (fun l => pathDelay d r s - l)

/-- The delay of the default profile from a Delay_Resp to the request that was sent: half the sum of the two ways' differences
(IEEE 1588; PRESUMED, log entry 159). -/
def delayOf (d : Nat) (r : PtpReport) (s : State) : Option Int :=
  if r.kind = .delayResp ∧ r.as_ = false then
    match (getDomain d s).lag, sentOf r.port .delayReq r.number r.seq s with
    | some l, some t3 => some ((l + timeLess r.time t3) / 2)
    | _, _ => none
  else none

/-- What a message leaves in the Link clerk's record of domain `d`. -/
def domainAfter (d : Nat) (r : PtpReport) (s : State) : Domain :=
  let x := getDomain d s
  let ann := decide (r.kind = .announce) || !tracks d s
  { rate := r.rate
    timeout := if ann then r.timeout else x.timeout
    lastAnn := if ann then now s else x.lastAnn
    locked := x.locked || (offsetOf d r s).isSome
    sync := if r.kind = .sync then (if r.twoStep then some (r.seq, gotStamp r s) else none) else x.sync
    lag := (syncLag d r s).or x.lag
    delay := (delayOf d r s).getD x.delay }

/-- The Link clerk takes what a PTP message says of domain `d`: its grandmaster and, when a Sync is complete, its offset are
shown, and it is tracking; an Announce, and the message that begins the tracking, starts its timeout. The active domain writes
RATE, and steps NT at its first lock; the first lock of the other domain steps nothing, and neither does a switch to it. A
change of the active domain's grandmaster makes the other domain active (R415, R416). -/
def trackDomain (d : Nat) (r : PtpReport) (s : State) : State :=
  let gm := reg64 (Reg.TIM_DOMd_GM_LO d) (Reg.TIM_DOMd_GM_HI d) s
  let changed := tracks d s && decide (gm ≠ r.gm)
  let first := !(getDomain d s).locked
  let o := offsetOf d r s
  let x := domainAfter d r s
  let s := setReg64 (Reg.TIM_DOMd_GM_LO d) (Reg.TIM_DOMd_GM_HI d) r.gm
    (o.elim s (fun v => setReg (Reg.TIM_DOMd_OFS d) (ofsShown v) s))
  let s := setRegFld Reg.TIM_STAT d d 1 (setDomainState d x s)
  if d ≠ activeDomain s then s
  else if changed then switchDomain s
  else
    let s := if first then o.elim s (fun v => stepTime (ofsTicks v) s) else s
    if s.tim.slew.isSome || s.tim.holding then s else writeRate r.rate s

/-- Whether a domain of the 802.1AS profile is enabled. -/
def asEnabled (s : State) : Bool :=
  (List.range 2).any (fun d => regBit (Reg.TIM_DOMd_CFG d) 31 s && regBit (Reg.TIM_DOMd_CFG d) 24 s)

/-- The two-step answer to a peer-delay request, on whichever port it came, while a domain of the 802.1AS profile is enabled:
Pdelay_Resp with the request's receive stamp, then Pdelay_Resp_Follow_Up with the response's transmit stamp (R414; what is
open in it is in log entry 159). -/
def answerPeer (r : PtpReport) (s : State) : State :=
  if asEnabled s then
    sendPtp r.port .pdelayFollowUp r.number r.seq (sentStamp r.port s)
      (sendPtp r.port .pdelayResp r.number r.seq (gotStamp r s) s)
  else s

/-- A Sync of a domain is answered with the request that measures its path: a Delay_Req in the default profile, a Pdelay_Req in
802.1AS; the Link clerk records its transmit stamp (R414, R417; log entry 159). -/
def askDelay (r : PtpReport) (s : State) : State :=
  if r.kind = .sync then
    sendPtp r.port (if r.as_ then .pdelayReq else .delayReq) r.number r.seq (sentStamp r.port s) s
  else s

/-- A peer's answer to the request that was sent: a one-step response carries its turnaround, and a two-step one the time of
the request's reception, with the response's sending in its Follow_Up. The delay is half the round trip without the
turnaround (IEEE 802.1AS; PRESUMED, log entry 159). -/
def takePeer (r : PtpReport) (s : State) : State :=
  let m := r.port.val
  let x := tget (fun _ => PeerDelay.reset) s.tim.peers m
  let put := fun (x : PeerDelay) => { s with tim := { s.tim with peers := tset (fun _ => PeerDelay.reset) m x s.tim.peers } }
  match sentOf m .pdelayReq r.number r.seq s with
  | none => s
  | some t1 =>
    if r.kind = .pdelayResp then
      if r.twoStep then put { x with met := some (r.seq, r.time, gotStamp r s) }
      else put ⟨none, (timeLess (gotStamp r s) t1 - r.time.toInt) / 2⟩
    else
      match x.met with
      | some (q, t2, t4) => if q = r.seq then put ⟨none, (timeLess t4 t1 - timeLess r.time t2) / 2⟩ else s
      | none => s

/-- A PTP message that a MAC has received (R411, R414): a peer-delay request is answered, an answer to the device's own is
taken; another message goes to every domain that it is of. -/
def takePtp (r : PtpReport) (s : State) : State :=
  if !linkClerkUp s || !macUp r.port s then s
  else if r.kind = .pdelayReq then answerPeer r s
  else if r.kind = .pdelayResp ∨ r.kind = .pdelayFollowUp then (if asEnabled s then takePeer r s else s)
  else
    (List.range 2).foldl (fun s d => if ptpMatches d r s then askDelay r (trackDomain d r s) else s) s

/-- PTP_MESSAGE (R415). -/
def execPtpMessage (r : PtpReport) (s : State) : Host.Outcome State Fault Refusal := .next (takePtp r s)

/-- No Announce of the active domain within its announceReceiptTimeout: it tracks no more, and the other becomes active. -/
def announceLost (s : State) : State :=
  let a := activeDomain s
  if !linkClerkUp s || !tracks a s then s
  else
    let x := getDomain a s
    switchDomain (setRegFld Reg.TIM_STAT a a 0 (runTo (x.lastAnn + x.timeout * tickRoot) s))

/-- ANNOUNCE_TIMEOUT (R416). -/
def execAnnounceTimeout (s : State) : Host.Outcome State Fault Refusal := .next (announceLost s)

/-- The slew of a switch ends: RATE is the domain's estimate. -/
def slewEnd (s : State) : State :=
  match s.tim.slew with
  | none => s
  | some (t, _) =>
    if !linkClerkUp s then s
    else
      let s := runTo t { s with tim := { s.tim with slew := none } }
      writeRate (getDomain (activeDomain s) s).rate s

/-- SLEW_END (R416). -/
def execSlewEnd (s : State) : Host.Outcome State Fault Refusal := .next (slewEnd s)

/-- A write of TIM_DOMd_CFG: a domain that is enabled anew, or disabled, tracks nothing yet. -/
def writeDomain (d : Nat) (v : Word) (s : State) : State :=
  let was := regBit (Reg.TIM_DOMd_CFG d) 31 s
  let s := rwStore (Reg.TIM_DOMd_CFG d) v s
  if was = bit v 31 then s
  else setRegFld Reg.TIM_STAT d d 0 (setDomainState d Domain.reset { s with tim := { s.tim with holding := false } })

/-! ### Classification (R409, R411, R412) -/

/-- What classification reads of a frame: EtherType behind at most one 802.1Q tag, where its payload starts, and the UDP
datagram it may carry (IPv4 or IPv6 without extension headers): destination port, start and length of the payload. -/
structure FrameInfo where
  etype : Nat
  start : Nat
  udp   : Option (Nat × Nat × Nat)
  deriving DecidableEq, Repr

/-- Read a frame, from its destination address on. -/
def frameInfo (b : List Byte) : FrameInfo :=
  let o := if beNat (slice b 12 2) = 0x8100 then 16 else 12
  let et := beNat (slice b o 2)
  let p := o + 2
  let at_ := fun u : Nat => some (beNat (slice b (u + 2) 2), u + 8, min (beNat (slice b (u + 4) 2) - 8) (b.length - (u + 8)))
  let udp :=
    if et = 0x0800 ∧ byteAt b p / 16 = 4 ∧ byteAt b (p + 9) = 17 then at_ (p + byteAt b p % 16 * 4)
    else if et = 0x86DD ∧ byteAt b p / 16 = 6 ∧ byteAt b (p + 6) = 17 then at_ (p + 40)
    else none
  ⟨et, p, udp⟩

/-- Whether a frame goes to the Link clerk: PTP over Ethernet or UDP. -/
def isPtp (f : FrameInfo) : Bool := f.etype = 0x88F7 || f.udp.elim false (fun u => u.1 = 319 || u.1 = 320)

/-- Whether an enabled rule matches. -/
def ruleMatches (m r : Nat) (f : FrameInfo) (s : State) : Bool :=
  let w := getReg (Reg.ETH_Mm_RULEr_MATCH m r) s
  bit w 31 && decide (fld w 15 0 = f.etype) &&
    (!bit w 30 || f.udp.elim false (fun u => decide (u.1 = regFld (Reg.ETH_Mm_RULEr_PORT m r) 15 0 s)))

/-- The payload that a rule takes. -/
def rulePayload (m r : Nat) (b : List Byte) (f : FrameInfo) (s : State) : List Byte :=
  if regBit (Reg.ETH_Mm_RULEr_MATCH m r) 30 s then f.udp.elim [] (fun u => (b.drop u.2.1).take u.2.2) else b.drop f.start

/-- Whether a Sorter queue has no place left. -/
def sorterFull (q : Nat) (s : State) : Bool :=
  let n := regFld (Reg.SRT_Qq_CTL q) 15 0 s
  n = 0 || decide (((getReg (Reg.SRT_Qq_TAIL q) s).toNat + 1) % n = (getReg (Reg.SRT_Qq_HEAD q) s).toNat % n)

/-- A matched payload becomes a sample: it goes to the next 2 KiB buffer, and its descriptor to the Sorter queue (R412). -/
def takeRule (m r : Nat) (pay : List Byte) (stamp : Word64) (s : State) : State :=
  let w := getReg (Reg.ETH_Mm_RULEr_SRT m r) s
  let q := fld w 10 8
  if pay.length < 8 ∨ 2048 < pay.length ∨ sorterFull q s = true then bumpReg (Reg.ETH_Mm_RULE_DROP m) 1 s
  else
    let x := getMac m s
    let a := 0x400000 + m * 0x400000 + 2048 * (x.bufNext % 2048)
    let s := setMac m { x with bufNext := (x.bufNext + 1) % 2048 } (wrBytes .dram a pay s)
    let d : Sample := ⟨BitVec.ofNat 24 (leAt pay 0 3), BitVec.ofNat 8 (fld w 7 0), pay.length - 8, BitVec.ofNat 64 (a + 8),
      leAt pay 4 4, 0, stamp⟩
    let t := (getReg (Reg.SRT_Qq_TAIL q) s).toNat
    let n := regFld (Reg.SRT_Qq_CTL q) 15 0 s
    setReg (Reg.SRT_Qq_TAIL q) (word ((t + 1) % n))
      (wrBytes .dram ((reg64 (Reg.SRT_Qq_BASE_LO q) (Reg.SRT_Qq_BASE_HI q) s).toNat + 32 * t) (sampleBytes d) s)

/-- A frame is received and goes to the first destination that it matches (R411). What a frame to the Link clerk or to the
management port then does is an event of its own. Pause frames are discarded, and so are frames above 9 216 bytes (R409). -/
def receiveFrame (m : Nat) (b : List Byte) (age : Nat) (s : State) : State :=
  if !macUp m s then s
  else
    let f := frameInfo b
    let other := bumpReg (Reg.ETH_Mm_RX_OTHER m) 1 s
    if 9216 < b.length ∨ f.etype = 0x8808 then other
    else if isPtp f then s
    else if f.udp.elim false (fun u => decide (u.1 = regFld (Reg.ETH_Mm_CTL m) 15 0 s)) then s
    else
      match (List.range 8).find? (fun r => ruleMatches m r f s) with
      | none => other
      | some r =>
        let st := ethStamp age (-corTicks (getReg (Reg.ETH_Mm_RXCOR m) s)) s
        takeRule m r (rulePayload m r b f s) st.1 s

/-- ETH_RX_FRAME (R411). -/
def execEthRxFrame (mac : Fin 2) (frame : List Byte) (age : Nat) (s : State) : Host.Outcome State Fault Refusal :=
  .next (receiveFrame mac.val frame age s)

/-! ### Transmit and postmarks (R413, R417 to R419) -/

/-- Show how many postmarks are queued. -/
def showPostmarks (m : Nat) (s : State) : State :=
  setRegFld (Reg.ETH_Mm_PM_STAT m) 5 0 (getMac m s).postmarks.length s

/-- Append a postmark; on a full queue it is lost, and the first loss since OVF was cleared is an event (R418). -/
def appendPostmark (m : Nat) (e : List Byte) (s : State) : State :=
  let x := getMac m s
  if 32 ≤ x.postmarks.length then
    let was := regBit (Reg.ETH_Mm_PM_STAT m) 31 s
    let s := setRegFld (Reg.ETH_Mm_PM_STAT m) 31 31 1 (bumpReg (Reg.ETH_Mm_PM_LOST m) 1 s)
    if was then s else raise Src.time .postmarkOverflow Code.overrun [] s
  else showPostmarks m (setMac m { x with postmarks := x.postmarks ++ [e] } s)

/-- Send the next entry of the transmit ring; with PM its stamp becomes a postmark (R413, R417). A frame above 9 216 bytes
is not sent (R409). -/
def sendFrame (m : Nat) (s : State) : State :=
  let n := regFld (Reg.ETH_Mm_TXR_CTL m) 15 0 s
  let head := (getReg (Reg.ETH_Mm_TXR_HEAD m) s).toNat
  if !macUp m s || !regBit (Reg.ETH_Mm_TXR_CTL m) 31 s || n = 0 || head = (getReg (Reg.ETH_TXR_TAIL m) s).toNat % max n 1 then s
  else
    let e := hostBytes ((reg64 (Reg.ETH_Mm_TXR_BASE_LO m) (Reg.ETH_Mm_TXR_BASE_HI m) s).toNat + 16 * head) 16 s
    let s := setReg (Reg.ETH_Mm_TXR_HEAD m) (word ((head + 1) % n)) s
    let len := leAt e 8 2
    if 9216 < len then s
    else
      let s := emit (.ethFrame m (hostBytes (leAt e 0 8) len s)) s
      if (byteAt e 12).testBit 0 then
        let st := ethStamp 0 (corTicks (getReg (Reg.ETH_Mm_TXCOR m) s)) s
        appendPostmark m (leBytes 8 st.1.toNat ++ leBytes 8 (st.2.toNat / 2 ^ 32) ++ leBytes 4 (st.2.toNat % 2 ^ 32) ++
          leBytes 2 (leAt e 10 2) ++ leBytes 2 0) s
      else s

/-- ETH_TX_FRAME (R413). -/
def execEthTxFrame (mac : Fin 2) (s : State) : Host.Outcome State Fault Refusal := .next (sendFrame mac.val s)

/-- Pop the oldest postmark into ETH_Mm_PM_DATA0 to 5; an empty queue sets EMPTY (R419). -/
def popPostmark (m : Nat) (s : State) : State :=
  let x := getMac m s
  match x.postmarks with
  | [] => orReg (Reg.ETH_Mm_PM_DATAi m 5) 0x80000000 s
  | e :: r =>
    let s := (List.range 6).foldl (fun s i => setReg (Reg.ETH_Mm_PM_DATAi m i) (wordAt e (4 * i)) s) s
    showPostmarks m (setMac m { x with postmarks := r } s)

/-- POSTMARK_POP (R419). Where in the same cycle a frame of the transmit ring gets its stamp, the pop is served first, so that
the frame's postmark is kept on a full queue. -/
def execPostmarkPop (w : Writer) (pop : PostmarkPop) (s : State) : Host.Outcome State Fault Refusal :=
  let t := asWriter w (Reg.ETH_Mm_PM_POP pop.mac.val) (popPostmark pop.mac.val) s
  .next (if pop.sends then sendFrame pop.mac.val t else t)

/-- A write of ETH_Mm_CTL: a reserved SPEED keeps the old one; a change of EN or SPEED restarts the port (R421). -/
def writeMacCtl (m : Nat) (v : Word) (s : State) : State :=
  let old := getReg (Reg.ETH_Mm_CTL m) s
  let v := if 4 < fld v 30 28 then setFld v 30 28 (fld old 30 28) else v
  let s := rwStore (Reg.ETH_Mm_CTL m) v s
  if fld v 31 28 = fld old 31 28 then s else setMac m { getMac m s with linkUp := false } s

/-- MAC_CTL_WRITE (R421). -/
def execMacCtlWrite (w : Writer) (mac : Fin 2) (value : Word) (s : State) : Host.Outcome State Fault Refusal :=
  .next (asWriter w (Reg.ETH_Mm_CTL mac.val) (writeMacCtl mac.val value) s)

/-- The link of an enabled MAC is up again, with its receive clock (R421). -/
def linkUp (m : Nat) (s : State) : State :=
  if regBit (Reg.ETH_Mm_CTL m) 31 s then
    orReg Reg.CLK_EXT_STAT (word (2 ^ (7 + m))) (setMac m { getMac m s with linkUp := true } s)
  else s

/-- ETH_LINK_UP (R421). -/
def execEthLinkUp (mac : Fin 2) (s : State) : Host.Outcome State Fault Refusal := .next (linkUp mac.val s)

end Sys2Proof.Machine
end

