-- ==== Sys2Proof/Machine/Solver.lean ====
section
/-! DEFINITION. The assembler and dynamics solver (chapter 9): the model load, the tables, the phases of a solve with
their cycle counts, deadlines, and the result record. What the phases compute stands in Machine/Dynamics.lean and
Machine/Qp.lean. -/

namespace Sys2Proof.Machine

open Sys2Proof.Config

/-! ### Enabling and limits (R235, R494) -/

/-- A write of SLV_CTL.ENABLE = 1: a zero limit is FIELD_ZERO, no model in effect and none pending is CFG_ERR; otherwise
the solver runs and SOLVE restarts at 0 (R235). -/
def enableSolver (s : State) : State :=
  if regBit Reg.SLV_CTL 31 s then s
  else if regFld Reg.SLV_DEADLINE 23 0 s = 0 ∨ regFld Reg.SLV_MAX_ITER 9 0 s = 0 then
    setRegFld Reg.SLV_STAT 4 4 0 (setRegFld Reg.SLV_STAT 23 16 Code.fieldZero s)
  else if s.slv.current = none ∧ s.slv.pending = none then
    setRegFld Reg.SLV_STAT 4 4 1 (setRegFld Reg.SLV_STAT 23 16 0 s)
  else
    let s := setRegFld Reg.SLV_STAT 30 30 1 (setRegFld Reg.SLV_STAT 4 4 0 (setRegFld Reg.SLV_STAT 23 16 0 s))
    let s := setRegFld Reg.SLV_CTL 31 31 1 s
    { s with slv := { s.slv with nextNum := 0 } }

/-- SOLVER_ENABLE (R235). -/
def execSolverEnable (w : Writer) (s : State) : Host.Outcome State Fault Refusal :=
  .next (asWriter w Reg.SLV_CTL enableSolver s)

/-- A write of SLV_CTL.ENABLE = 0: a solve in progress runs to its commit; RUNNING falls then, or at once (R494). -/
def disableSolver (s : State) : State :=
  let s := setRegFld Reg.SLV_CTL 31 31 0 s
  if s.slv.solve.isSome then s else setRegFld Reg.SLV_STAT 30 30 0 s

/-- SOLVER_DISABLE (R494). -/
def execSolverDisable (w : Writer) (s : State) : Host.Outcome State Fault Refusal :=
  .next (asWriter w Reg.SLV_CTL disableSolver s)

/-- A write of SLV_DEADLINE or SLV_MAX_ITER: 0 while enabled is discarded with FIELD_ZERO, and is kept while disabled
(R235). -/
def writeLimit (maxIter : Bool) (v : Word) (s : State) : State :=
  let zero := if maxIter then decide (fld v 9 0 = 0) else decide (fld v 23 0 = 0)
  if zero && regBit Reg.SLV_CTL 31 s then setRegFld Reg.SLV_STAT 23 16 Code.fieldZero s
  else rwStore (if maxIter then Reg.SLV_MAX_ITER else Reg.SLV_DEADLINE) v s

/-- SOLVER_LIMIT_WRITE (R235). -/
def execSolverLimitWrite (w : Writer) (maxIter : Bool) (value : Word) (s : State) : Host.Outcome State Fault Refusal :=
  .next (asWriter w (if maxIter then Reg.SLV_MAX_ITER else Reg.SLV_DEADLINE) (writeLimit maxIter value) s)

/-! ### The model (R212 to R215) -/

/-- `n` words of a byte list from an offset. -/
def wordsAt (bs : List Byte) (o n : Nat) : List Word := (List.range n).map (fun i => wordAt bs (o + 4 * i))

/-- A joint record (R213). -/
def parseJoint (bs : List Byte) (o : Nat) : Joint :=
  { parent := byteAt bs o, type := byteAt bs (o + 1), axis := byteAt bs (o + 2), frameRot := wordsAt bs (o + 4) 9,
    framePos := wordsAt bs (o + 0x28) 3, jaxis := wordsAt bs (o + 0x34) 3, mass := wordAt bs (o + 0x40),
    com := wordsAt bs (o + 0x44) 3, inertia := wordsAt bs (o + 0x50) 6, qMin := wordAt bs (o + 0x68),
    qMax := wordAt bs (o + 0x6C), tauMax := wordAt bs (o + 0x70) }

/-- The model image (R212). -/
def parseModel (bs : List Byte) : Model :=
  let f := byteAt bs 8
  { ndof := byteAt bs 6, nf := byteAt bs 7, torqueRows := f.testBit 0, limitRows := f.testBit 1,
    floorM := wordAt bs 0xC, floorDls := wordAt bs 0x10, floorH := wordAt bs 0x14, lambda2 := wordAt bs 0x18,
    tolStep := wordAt bs 0x1C, tolFeas := wordAt bs 0x20, tolDual := wordAt bs 0x24, reg := wordAt bs 0x28,
    gravity := wordAt bs 0x2C, fpoint := (List.range 16).map (fun i => byteAt bs (0x30 + i)),
    joints := (List.range (leAt bs 4 2)).map (fun j => parseJoint bs (64 + 128 * j)) }

/-- COUNT (R214): with an unknown TYPE the sum of degrees of freedom is not judged. -/
def modelCountBad (m : Model) : Bool :=
  decide (64 < m.joints.length) || decide (64 < m.ndof + m.nf) ||
    (m.joints.all (fun j => (typeDof j.type).isSome) &&
      decide ((m.joints.map (fun j => (typeDof j.type).getD 0)).sum ≠ m.ndof))

/-- TREE (R214). -/
def modelTreeBad (m : Model) : Bool :=
  (m.joints.zipIdx).any (fun p =>
    (if p.2 = 0 then decide (p.1.parent ≠ 0xFF) else decide (p.2 ≤ p.1.parent)) ||
      (typeDof p.1.type).isNone || (decide (p.1.type = 3) && decide (p.2 ≠ 0)))

/-- Whether a list of numbers holds one twice. -/
def hasRepeat : List Nat → Bool
  | [] => false
  | a :: r => r.elem a || hasRepeat r

/-- AXIS (R214). -/
def modelAxisBad (m : Model) : Bool :=
  let axes := (m.joints.map (·.axis)).filter (· ≠ 0xFF)
  axes.any (fun a => decide (63 < a)) || hasRepeat axes ||
    m.joints.any (fun j => decide (j.type = 3) && decide (j.axis ≠ 0xFF))

/-- Why an image is refused: CODE and REASON, the lowest-numbered reason when more than one applies (R214); NJOINT 0 is
FIELD_ZERO with REASON 0 (R235). -/
def modelRefusal (bs : List Byte) : Option (Nat × Nat) :=
  let nj := leAt bs 4 2
  let m := parseModel bs
  if nj = 0 then some (Code.fieldZero, 0)
  else if leAt bs 0 4 ≠ 0x4C444F4D then some (0, 1)
  else if crc32c (slice bs 0 (64 + 128 * nj)) ≠ wordAt bs (64 + 128 * nj) then some (0, 2)
  else if modelCountBad m then some (0, 3)
  else if modelTreeBad m then some (0, 4)
  else if modelAxisBad m then some (0, 5)
  else if 160 < autoRows m then some (0, 6)
  else if m.fpoint.any (fun f => decide (31 < f)) || m.tolDual.msb then some (0, 7)
  else none

/-- IMAGE_LEN of the model image at an address (R212). -/
def modelLen (addr : Word64) (s : State) : Nat := 68 + 128 * leNat (rdBytes .dram (addr.toNat + 4) 2 s)

/-- Start a model load: 1 µs and IMAGE_LEN at 9.6 GB/s, two bytes in a root cycle (R215). -/
def startModelLoad (addr : Word64) (issue : Option Issue) (s : State) : State :=
  let done := now s + usRoot + divUp (modelLen addr s) 2
  setRegFld Reg.SLV_MODEL_STAT 31 31 1 { s with slv := { s.slv with loading := some (addr, done, issue) } }

/-- A LOAD written while a load is in progress: discarded with an event OVERRUN. -/
def modelBusy (s : State) : State := raise Src.solver .regOverrun Code.overrun [] s

/-- A write of SLV_MODEL_CMD. -/
def writeModelCmd (v : Word) (s : State) : State :=
  if bit v 0 then
    if s.slv.loading.isSome then modelBusy s
    else startModelLoad (reg64 Reg.SLV_MODEL_ADDR_LO Reg.SLV_MODEL_ADDR_HI s) none s
  else s

/-- MODEL_LOAD (R215). -/
def execModelLoad (w : Writer) (value : Word) (s : State) : Host.Outcome State Fault Refusal :=
  .next (asWriter w Reg.SLV_MODEL_CMD (writeModelCmd value) s)

/-- The effect of LOAD_MODEL: the Dispatcher writes SLV_MODEL_ADDR and the command (R326, "The robot model"). -/
def loadModel (i : Issue) (addr : Word64) (s : State) : State :=
  if s.slv.loading.isSome then answer i Op.loadModel Code.overrun 0 (modelBusy s)
  else startModelLoad addr (some i) (setReg64 Reg.SLV_MODEL_ADDR_LO Reg.SLV_MODEL_ADDR_HI addr s)

/-- LOAD_MODEL (R215, R326). -/
def execLoadModel (i : Issue) (addr : Word64) (s : State) : Host.Outcome State Fault Refusal :=
  .next (command i Op.loadModel allowHPM (loadModel i addr) s)

/-- Show a load's result, and complete its command (R214, R325): refused or pending. -/
def showModelResult (refused : Option (Nat × Nat)) (issue : Option Issue) (s : State) : State :=
  let c := refused.getD (0, 0)
  let s := setRegFld Reg.SLV_MODEL_STAT 31 31 0 (setRegFld Reg.SLV_MODEL_STAT 28 28 refused.isSome.toNat
    (setRegFld Reg.SLV_MODEL_STAT 23 16 c.1 (setRegFld Reg.SLV_MODEL_STAT 7 0 c.2 s)))
  match issue with
  | none => s
  | some i => completeLate i Op.loadModel c.1 (word c.2) s

/-- The end of a model load (R214, R215): a refused load leaves both slots unchanged. An NJOINT of 0 ranks above an
uncorrectable word (R8, R10, R235). -/
def finishModelLoad (s : State) : State :=
  match s.slv.loading with
  | none => s
  | some (addr, done, issue) =>
    let s := runTo done { s with slv := { s.slv with loading := none } }
    let r := readMem .dram addr.toNat (modelLen addr s) s
    let refused :=
      if leAt r.1.bytes 4 2 ≠ 0 ∧ r.1.bad.isSome = true then some (Code.eccUncorr, 0) else modelRefusal r.1.bytes
    let s := r.2
    let s := if refused.isSome then s
      else setRegFld Reg.SLV_MODEL_STAT 30 30 1
        { s with slv := { s.slv with pending := some (parseModel r.1.bytes, done) } }
    showModelResult refused issue s

/-- MODEL_LOAD_COMPLETE (R214). -/
def execModelLoadComplete (s : State) : Host.Outcome State Fault Refusal := .next (finishModelLoad s)

/-! ### The tables (R216 to R219) -/

/-- The bytes of a slot of the table memory. -/
def slotBytes (key : Nat) (slot : Bool) (o n : Nat) (s : State) : List Byte :=
  rdBytes .table ((key * 2 + slot.toNat) * 2 ^ 16 + o) n s

/-- Whether the first `n` bytes of a slot hold an uncorrectable word. -/
def slotBad (key : Nat) (slot : Bool) (n : Nat) (s : State) : Bool :=
  !(marksIn .table ((key * 2 + slot.toNat) * 2 ^ 16) n true s).isEmpty

/-- A task row (R216). -/
def parseTaskRow (bs : List Byte) (o : Nat) : TaskRow :=
  { kind := byteAt bs o, body := byteAt bs (o + 1), dir := byteAt bs (o + 2), point := wordsAt bs (o + 4) 3,
    weight := wordAt bs (o + 0x10), target := wordAt bs (o + 0x14), error := wordAt bs (o + 0x18) }

/-- The task table (R216). -/
def parseTask (bs : List Byte) : TaskTable :=
  let n := leAt bs 0x10 2
  { frame := wordAt bs 0, valid := (byteAt bs 4).testBit 0, stamp := BitVec.ofNat 64 (leAt bs 8 8), count := n,
    baseRot := wordsAt bs 0x14 9, baseVel := wordsAt bs 0x38 6,
    rows := (List.range (min n 96)).map (fun i => parseTaskRow bs (128 + 32 * i)), taken := true }

/-- A BODY that is neither a joint nor 0xFF. -/
def bodyBad (m : Model) (b : Nat) : Bool := decide (m.joints.length ≤ b) && decide (b ≠ 0xFF)

/-- What R219 refuses in a task table. -/
def taskBad (m : Model) (t : TaskTable) : Bool :=
  decide (96 < t.count) || t.rows.any (fun r => bodyBad m r.body || decide (5 < r.dir))

/-- A force binding (R217). -/
def parseBind (bs : List Byte) (o : Nat) : ForceBind :=
  ⟨byteAt bs o, wordsAt bs (o + 4) 3, wordsAt bs (o + 0x10) 3⟩

/-- A constraint row (R217). -/
def parseConRow (bs : List Byte) (o : Nat) : ConRow :=
  { kind := byteAt bs o, body := byteAt bs (o + 1), point := wordsAt bs (o + 4) 3, dir := wordsAt bs (o + 0x10) 3,
    bound := wordAt bs (o + 0x1C), idx := (List.range 4).map (fun k => byteAt bs (o + 0x20 + k)),
    coef := wordsAt bs (o + 0x24) 4, cj := wordAt bs (o + 0x34) }

/-- The constraint table (R217). -/
def parseCon (bs : List Byte) : ConTable :=
  let n := leAt bs 0x10 2
  let nfb := byteAt bs 0x12
  { frame := wordAt bs 0, valid := (byteAt bs 4).testBit 0, stamp := BitVec.ofNat 64 (leAt bs 8 8), count := n,
    nfb := nfb, binds := (List.range nfb).map (fun k => parseBind bs (64 + 32 * k)),
    rows := (List.range (min n 160)).map (fun i => parseConRow bs (64 + 32 * nfb + 64 * i)), taken := true }

/-- What R219 refuses in a constraint table. -/
def conBad (m : Model) (t : ConTable) : Bool :=
  decide (160 < t.count) || decide (m.nf < t.nfb) || decide (160 < t.count + autoRows m) ||
    t.binds.any (fun b => bodyBad m b.body) ||
    t.rows.any (fun r => bodyBad m r.body || r.idx.any (fun i => decide (m.ndof + m.nf ≤ i) && decide (i ≠ 0xFF)))

/-- Examine the front slot of the task table at a solve start (R219): the table in use, and whether a slot was refused. -/
def takeTask (m : Model) (t : Nat) (s : State) : TaskTable × Bool :=
  match slotAt (getHandoff (fabricKey 0) s) t with
  | none => (s.slv.task, false)
  | some slot =>
    let x := parseTask (slotBytes 0 slot 0 3200 s)
    if taskBad m x || slotBad 0 slot (128 + 32 * min 96 x.count) s then (s.slv.task, true) else (x, false)

/-- Examine the front slot of the constraint table at a solve start (R219). -/
def takeCon (m : Model) (t : Nat) (s : State) : ConTable × Bool :=
  match slotAt (getHandoff (fabricKey 1) s) t with
  | none => (s.slv.con, false)
  | some slot =>
    let x := parseCon (slotBytes 1 slot 0 18464 s)
    if conBad m x || slotBad 1 slot (64 + 32 * x.nfb + 64 * min 160 x.count) s then (s.slv.con, true) else (x, false)

/-! ### The sizes and durations of a solve (R218, R220) -/

/-- FACT(k). -/
def factCycles (k : Nat) : Nat := divUp (k ^ 3) 96 + 40 * k

/-- SOLVE(k). -/
def solveCycles (k : Nat) : Nat := divUp (k ^ 2) 8 + k

/-- The duration of a phase, or of one iteration for phases 6 and 7 (R220). -/
def phaseCycles (i : SolveInput) (phase : Nat) : Nat :=
  let d := i.model.ndof
  let n := qpVars i
  match phase with
  | 1 => 480
  | 2 => 1000 * d + 32 * i.task.count + 16 * qpRows i + 300
  | 3 => factCycles d + solveCycles d
  | 4 => if taskNik i = 0 then 0 else divUp (taskNik i * d ^ 2) 16 + factCycles d + solveCycles d
  | 5 => divUp (taskNq i * n ^ 2) 16 + divUp (taskNq i * n) 16 + factCycles n
  | 8 => divUp (d * n) 16 + 480
  | _ => divUp (n ^ 2) 4 + 8 * qpRows i + 256

/-- Cycles from an abandonment, or from infeasibility, to the commit of a copied record (R229, R230). -/
abbrev copyCycles : Nat := 120

/-- Root cycles of a solver cycle (R12, 1.2 GHz). -/
abbrev slvRoot : Nat := 4

/-- Solver cycles of a timebase tick. -/
abbrev tickCycles : Nat := 12

/-- The effective deadline in solver cycles (R233). -/
def effDeadline (deadline periodUs : Nat) : Nat := tickCycles * min deadline (100 * periodUs - 100)

/-! ### What a phase finds (R211, R222) -/

/-- The columns of a phase's factorisation that were floored, with the factorisation. An iteration factors a matrix of H's and
its rows; PIVOT_FIRST names H and the place of the row among them, modulo 64 (R222; DESIGN CHOICE, log entry 182). -/
def flooredOf (x : Solve) (w : Work) : List (Nat × Nat) :=
  match x.phase with
  | 3 => w.factM.floored.map (fun j => (0, j))
  | 4 => w.factD.floored.map (fun j => (1, j))
  | 5 => w.factH.floored.map (fun j => (2, j))
  | 6 => (valueOf (iterStep x.input x.work true (intsOf x.x) x.working)).floored.map (fun j => (2, j % 64))
  | 7 => (valueOf (iterStep x.input x.work false (intsOf x.x) x.working)).floored.map (fun j => (2, j % 64))
  | _ => []

/-- The result of the present phase, and the saturation events of the model's sequence in it: those of the iteration for
phases 6 and 7, of the axis entries for OUTPUT. -/
def unitWork (x : Solve) : Work × Nat :=
  match x.phase with
  | 6 => (x.work, eventsOf (iterate x.input x.work true (intsOf x.x) x.working))
  | 7 => (x.work, eventsOf (iterate x.input x.work false (intsOf x.x) x.working))
  | 8 => (x.work, eventsOf (freshAxes x.input x.work (intsOf x.x)))
  | 5 => let r := phaseWork x.input 5 x.work 0; (r.1, r.2 + warmEvents x.input r.1)
  | p => phaseWork x.input p x.work 0

/-- Count what `cycles` of the present phase or iteration found: pivots floored and saturation events, in the solve and in
the registers (R211, R222). Of one that was cut short, part: its columns are tested in order, and how many of its events fall
within so many cycles is free. -/
def countWork (x : Solve) (cycles : Nat) (s : State) : Solve × State :=
  let u := unitWork x
  let all := flooredOf x u.1
  let total := u.2 + moreSat x.input x.phase x.iter
  let whole := decide (phaseCycles x.input x.phase ≤ cycles)
  let done := columnsDone x.input (x.phase - 3) cycles
  let fl := if whole then all else all.filter (fun p => p.2 < done)
  let sat := if whole then total else min total (satWithin x.input x.phase x.iter cycles)
  let first := match fl with
    | [] => x.pivotFirst
    | (f, j) :: _ => if x.pivotFirst = 0xFF then BitVec.ofNat 8 (f * 64 + j) else x.pivotFirst
  ({ x with work := if whole then u.1 else x.work, pivotFirst := first, pivotCount := x.pivotCount + fl.length,
            satCount := x.satCount + sat },
    bumpReg Reg.SLV_SAT_COUNT sat (bumpReg Reg.SLV_PIVOT_COUNT fl.length s))

/-! ### The course of a solve -/

/-- The state with the solve in progress replaced; SLV_STAT.PHASE follows it. -/
def setSolve (x : Solve) (s : State) : State :=
  setRegFld Reg.SLV_STAT 3 0 (if x.ending matches .copied _ _ then 0 else x.phase) { s with slv := { s.slv with solve := some x } }

/-- The instant of a cycle of a solve. -/
def solveInstant (x : Solve) (cycle : Nat) : Nat := x.startRoot + slvRoot * cycle

/-- The solve is abandoned at a cycle: its record will copy a payload, 120 cycles later (R229 to R231). -/
def abandon (x : Solve) (cycle : Nat) (codes : BitVec 16) (status : Nat) (s : State) : State :=
  setSolve { x with cycle := cycle, ending := .copied codes status, commitAt := cycle + copyCycles } s

/-- OUTPUT begins at a cycle and ends in the commit (R220, R226, R228). -/
def toOutput (x : Solve) (cycle status : Nat) (s : State) : State :=
  setSolve { x with
    cycle := cycle, phase := 8, ending := .fresh status, commitAt := cycle + phaseCycles x.input 8 } s

/-- Phase 2 begins with a feasible iterate; at the iteration limit it has none left (R226). -/
def toPhase2 (x : Solve) (cycle : Nat) (s : State) : State :=
  let x := { x with phase := 7, cycle := cycle, feasible := some x.x, working := rowsOfKind x.input 2 }
  if x.maxIter ≤ x.iter then toOutput x cycle 1 s else setSolve x s

/-- The next phase after one of phases 1 to 5 ends at a cycle; DLS takes no time when NIK is 0. -/
def nextPhase (x : Solve) (cycle : Nat) (s : State) : State :=
  match x.phase with
  | 3 => setSolve { x with phase := if taskNik x.input = 0 then 5 else 4, cycle := cycle } s
  | 5 =>
    let x := { x with x := (warmStart x.input x.work).map wordI, working := rowsOfKind x.input 2 }
    if feasibleAt x.input x.work.asm (intsOf x.x) then toPhase2 x cycle s else setSolve { x with phase := 6, cycle := cycle } s
  | p => setSolve { x with phase := p + 1, cycle := cycle } s

/-- The cycle at which an uncorrectable error ends the present phase or iteration, when it is found before the unit ends
and not after the deadline, which OUTPUT does not heed (R231). -/
def eccCycle (x : Solve) (ecc : Option Nat) : Option Nat :=
  match ecc with
  | none => none
  | some c =>
    let e := x.cycle + c + 1
    if c < phaseCycles x.input x.phase ∧ (x.phase = 8 ∨ e ≤ x.deadline) then some e else none

/-- An uncorrectable error abandons the solve at the end of the cycle in which it is found (R231). -/
def solverEcc (x : Solve) (e : Nat) (s : State) : State :=
  let s := bumpReg Reg.SLV_ECC_COUNT 1 (runTo (solveInstant x e) s)
  let r := countWork x (e - x.cycle) s
  abandon r.1 e (codeBit Code.stale ||| codeBit Code.eccUncorr) 6 r.2

/-- Whether the solve in progress still works on its phases. -/
def atWork (x : Solve) : Bool := !(x.ending matches .copied _ _)

/-- SOLVE_PHASE_END's effect: a phase of phases 1 to 5 ends by the deadline (R227), or an error ends phases 1 to 5 or
8. -/
def phaseEnd (ecc : Option Nat) (s : State) : State :=
  match s.slv.solve with
  | none => s
  | some x =>
    if !atWork x || x.phase = 6 || x.phase = 7 then s
    else
      match eccCycle x ecc with
      | some e => solverEcc x e s
      | none =>
        let e := x.cycle + phaseCycles x.input x.phase
        if x.phase = 8 ∨ x.deadline < e then s
        else
          let r := countWork x (phaseCycles x.input x.phase) (runTo (solveInstant x e) s)
          nextPhase r.1 e r.2

/-- SOLVE_PHASE_END (R220). -/
def execSolvePhaseEnd (ecc : Option Nat) (s : State) : Host.Outcome State Fault Refusal := .next (phaseEnd ecc s)

/-- After an iteration of phase 1 (R225, R226, R230): feasible, infeasible, at the limit, or on. -/
def afterPhase1 (x : Solve) (before : Int) (cycle : Nat) (s : State) : State :=
  if feasibleAt x.input x.work.asm (intsOf x.x) then toPhase2 x cycle s
  else if violationSum x.input x.work.asm (intsOf x.x) = before ∨ x.maxIter ≤ x.iter then
    abandon x cycle (codeBit Code.invalid) 4 s
  else setSolve { x with cycle := cycle } s

/-- After an iteration of phase 2 (R224, R226). -/
def afterPhase2 (x : Solve) (converged : Bool) (cycle : Nat) (s : State) : State :=
  let x := { x with feasible := some x.x }
  if converged then toOutput x cycle 0 s
  else if x.maxIter ≤ x.iter then toOutput x cycle 1 s
  else setSolve { x with cycle := cycle } s

/-- QP_ITERATION_END's effect: an iteration that ends by the deadline counts (R227). -/
def iterationEnd (ecc : Option Nat) (s : State) : State :=
  match s.slv.solve with
  | none => s
  | some x =>
    if !atWork x || (decide (x.phase ≠ 6) && decide (x.phase ≠ 7)) then s
    else
      match eccCycle x ecc with
      | some e => solverEcc x e s
      | none =>
        let e := x.cycle + phaseCycles x.input x.phase
        if x.deadline < e then s
        else
          let r := countWork x (phaseCycles x.input x.phase) (runTo (solveInstant x e) s)
          let x := r.1
          let one := decide (x.phase = 6)
          let before := violationSum x.input x.work.asm (intsOf x.x)
          let it := valueOf (iterate x.input x.work one (intsOf x.x) x.working)
          let x := { x with
            x := it.1.map wordI, working := it.2.1, iter := x.iter + 1, phase1Iter := x.phase1Iter + one.toNat }
          if one then afterPhase1 x before e r.2 else afterPhase2 x it.2.2 e r.2

/-- QP_ITERATION_END (R224). -/
def execQpIterationEnd (ecc : Option Nat) (s : State) : Host.Outcome State Fault Refusal := .next (iterationEnd ecc s)

/-- SOLVE_DEADLINE's effect, when the deadline falls inside the present phase or iteration: in phase 2 OUTPUT runs on the
last feasible iterate (R228), in an earlier phase the solve is abandoned (R229). -/
def deadlineFalls (s : State) : State :=
  match s.slv.solve with
  | none => s
  | some x =>
    if !atWork x || x.phase = 8 || decide (x.cycle + phaseCycles x.input x.phase ≤ x.deadline) then s
    else
      let r := countWork x (x.deadline - x.cycle) (runTo (solveInstant x x.deadline) s)
      let x := r.1
      if x.phase = 7 then toOutput { x with x := x.feasible.getD x.x } x.deadline 2 r.2
      else abandon x x.deadline (codeBit Code.stale) 3 r.2

/-- SOLVE_DEADLINE (R228). -/
def execSolveDeadline (s : State) : Host.Outcome State Fault Refusal := .next (deadlineFalls s)

/-! ### The solve start -/

/-- Whether what an axis is bound to is enabled (R241). -/
def axisBound (n : Nat) (s : State) : Bool :=
  let b := activeReg (Reg.SRV_AXISn_BIND n) s
  if bit b 31 then bit (axisEntry (fld b 25 24) (fld b 19 12) 2 s) 31
  else regBit (Reg.SRV_LANEl_CTL (fld b 27 24)) 31 s

/-- What axis `n` gives at a solve start: its scaled latches and whether it is missing (R241), and the saturation events of
its scaling. -/
def axisGives (n : Nat) (s : State) : AxisMeas × Nat :=
  let a := getAxis n s
  let q := scale 32 a.latchPos.toInt (activeReg (Reg.SRV_AXISn_SC_POS n) s)
  let v := scale 32 a.latchVel.toInt (activeReg (Reg.SRV_AXISn_SC_VEL n) s)
  ({ q := wordI q.1, qd := wordI v.1, missing := a.missing || !axisBound n s, stamp := a.stamp }, q.2 + v.2)

/-- The scaling unit's events of a solve start: those of the latches that no period's computation and no earlier solve has
scaled (R248); they count now. -/
def countScaling (s : State) : State :=
  (List.range 64).foldl (fun s n =>
    let a := getAxis n s
    if a.counted then s else countSatEvents (axisGives n s).2 (setAxis n { a with counted := true } s)) s

/-- The saturation events of the values that enter the solve's blocks (R211): the measurements of the axes that joints
name. -/
def inputEvents (axes : List Nat) (s : State) : Nat := (axes.map (fun n => (axisGives n s).2)).sum

/-- The axes that joints name. -/
def modelAxes (m : Model) : List Nat := (m.joints.map (·.axis)).filter (· ≠ 0xFF)

/-- The record before this solve, when it is one of the model in effect (R215). -/
def prevRecord (s : State) : Option Record :=
  if s.slv.prevOk then (s.slv.records.head?).map (·.2) else none

/-- Torques of the previous record's actuated axes, by joint, 0 for an unactuated one (R220). -/
def prevTorques (m : Model) (r : Record) : List Word :=
  m.joints.map (fun j => if j.axis = 0xFF then 0 else (tget (fun _ => AxisEntry.zero) r.axes j.axis).tau)

/-- The MISSING mask (R241). -/
def missingMask (m : Model) (meas : List AxisMeas) : Word64 :=
  BitVec.ofNat 64 (((List.range 64).map (fun k =>
    if (modelAxes m).elem k && ((meas[k]?).elim false (·.missing)) then 2 ^ k else 0)).sum)

/-- The first solve start at or after an instant: day boundaries and whole solver periods after them (R16). -/
def nextSolveStart (from_ : Nat) (s : State) : Nat :=
  let p := max 1 ((getReg Reg.SOLVER_US s).toNat) * usRoot
  dayAt (periodsUpTo from_ p s * p) s

/-- A pending model whose load ended before `t` takes effect (R215): PENDING clears, and no previous result stands. -/
def modelTakesEffect (t : Nat) (s : State) : State :=
  match s.slv.pending with
  | none => s
  | some (m, at_) =>
    if at_ < t then
      setRegFld Reg.SLV_MODEL_STAT 30 29 1 { s with slv := { s.slv with current := some m, pending := none, prevOk := false } }
    else s

/-- A solve begins with a model (R219, R220): the tables are examined, the measurements taken. -/
def beginSolve (m : Model) (s : State) : State :=
  let t := takeTask m (now s) s
  let c := takeCon m (now s) s
  let refused := t.2.toNat + c.2.toNat
  let s := bumpReg Reg.SLV_TABLE_REFUSED refused s
  let meas := (List.range 64).map (fun n => (axisGives n s).1)
  let sat := inputEvents (modelAxes m) s
  let s := bumpReg Reg.SLV_SAT_COUNT sat (countScaling s)
  let prev := prevRecord s
  let i : SolveInput := {
    model := m, task := t.1, con := c.1, meas := meas, periodUs := (getReg Reg.SOLVER_US s).toNat,
    prevTau := prev.map (prevTorques m), prevX := prev.map (·.x) }
  let x : Solve := {
    input := i, number := s.slv.nextNum, startRoot := now s, startTick := s.clk.tick, cycle := 0,
    phase := 1, deadline := effDeadline (regFld Reg.SLV_DEADLINE 23 0 s) i.periodUs,
    maxIter := regFld Reg.SLV_MAX_ITER 9 0 s, work := Work.empty, x := [], feasible := none, working := [], iter := 0,
        phase1Iter := 0,
    pivotFirst := 0xFF, pivotCount := 0, satCount := sat, notes := if refused = 0 then 0 else 1,
    missing := missingMask m meas, ending := .none, commitAt := 0 }
  let s := { s with slv := { s.slv with task := t.1, con := c.1, nextNum := s.slv.nextNum + 1 } }
  setSolve x (setRegFld Reg.SLV_STAT 31 31 1 s)

/-- SOLVE_START's effect: time comes to the next solve start; the solver runs a solve when it is enabled and a model is in
effect. A start before the last solve's commit does not occur (R233). -/
def startSolve (s : State) : State :=
  if s.slv.solve.isSome then s
  else
    let t := nextSolveStart (max (now s) (s.slv.lastStart.elim 0 (· + 1))) s
    let s := runTo t s
    let s := modelTakesEffect t { s with slv := { s.slv with lastStart := some t } }
    match s.slv.current with
    | none => s
    | some m => if regBit Reg.SLV_CTL 31 s then beginSolve m s else s

/-- SOLVE_START (R220). -/
def execSolveStart (s : State) : Host.Outcome State Fault Refusal := .next (startSolve s)

/-! ### The record (R229 to R234) -/

/-- The axis entries of a record with no previous one: the measured positions (R230). -/
def heldAxes (i : SolveInput) : Tab AxisEntry :=
  (modelAxes i.model).foldl (fun t a =>
    tset (fun _ => AxisEntry.zero) a
      { tau := 0, pos := ((i.meas[a]?).getD ⟨0, 0, false, none⟩).q, vel := 0, valid := true } t) []

/-- FRAME of a fresh record: the later of the valid frame numbers, the task table named first (R234, R6). -/
def recordFrame (i : SolveInput) : Word :=
  if i.task.valid ∧ i.con.valid then
    if later 32 i.con.frame.toNat i.task.frame.toNat then i.con.frame else i.task.frame
  else if i.task.valid then i.task.frame
  else if i.con.valid then i.con.frame
  else 0

/-- STAMP of a fresh record (R234): the earliest of those that contribute, else the tick of the solve start. -/
def recordStamp (i : SolveInput) (start : Word64) : Word64 :=
  let stamps := (if i.task.taken then [i.task.stamp.toNat] else []) ++ (if i.con.taken then [i.con.stamp.toNat] else []) ++
    (modelAxes i.model).filterMap (fun a => ((i.meas[a]?).bind (·.stamp)).map (·.toNat))
  match stamps.min? with
  | some t => BitVec.ofNat 64 t
  | none => start

/-- The fields of a record that report this solve, with a payload still of zeros. -/
def reportOf (x : Solve) (tick : Word64) : Record :=
  { solve := x.number, flags := 0, status := 0, age := 0, frame := 0, frameValid := false, stamp := x.startTick,
    commitStamp := tick, iter := x.iter, phase1Iter := x.phase1Iter, pivotFirst := x.pivotFirst,
    pivotCount := min 255 x.pivotCount, satCount := min 0xFFFF x.satCount, working := x.working.length, notes := x.notes,
    fTau := fOf x.input 5, fPos := fOf x.input 13, fVel := fOf x.input 14, missing := x.missing, sourceSolve := x.number,
    axes := [], x := List.replicate 64 0 }

/-- A fresh record (R234). -/
def freshRecord (x : Solve) (status : Nat) (tick : Word64) : Record :=
  let early := status = 1 ∨ status = 2
  { reportOf x tick with
    flags := (if early then codeBit Code.early else 0) ||| (if x.pivotCount = 0 then 0 else codeBit Code.pivotFloor) |||
      (if x.satCount = 0 then 0 else codeBit Code.sat)
    status := status, frame := recordFrame x.input, frameValid := x.input.task.valid || x.input.con.valid,
    stamp := recordStamp x.input x.startTick, axes := valueOf (freshAxes x.input x.work (intsOf x.x)),
    x := (List.range 64).map (fun k => if k < qpVars x.input then x.x.getD k 0 else 0) }

/-- A record that copies a payload, or NO_PREVIOUS when there is none (R229, R230, R232). -/
def copiedRecord (x : Solve) (codes : BitVec 16) (status : Nat) (prev : Option Record) (tick : Word64) : Record :=
  match prev with
  | some p =>
    { reportOf x tick with
      flags := codes, status := status, age := min 255 (p.age + 1), frame := p.frame, frameValid := p.frameValid,
      stamp := p.stamp, sourceSolve := p.sourceSolve, axes := p.axes, x := p.x }
  | none =>
    { reportOf x tick with
      flags := codeBit Code.invalid ||| (codes &&& codeBit Code.eccUncorr), status := 5, axes := heldAxes x.input }

/-- Commit a record: it becomes the last one, and the registers count it (R234, R236, R494). -/
def commitRecord (x : Solve) (r : Record) (s : State) : State :=
  let s := { s with slv := { s.slv with
    records := ((now s, r) :: s.slv.records).take 2, solve := none, prevOk := true } }
  let s := setReg Reg.SLV_LAST_CYCLES (word x.commitAt) (setReg Reg.SLV_SOLVE x.number s)
  let s := modReg Reg.SLV_MAX_CYCLES (fun w => word (max w.toNat x.commitAt)) s
  let s := bumpReg Reg.SLV_EARLY_COUNT (r.flags.getLsbD 7).toNat s
  let s := bumpReg Reg.SLV_STALE_COUNT (r.flags.getLsbD 6).toNat s
  let s := bumpReg Reg.SLV_INVALID_COUNT (r.flags.getLsbD 4).toNat s
  let s := setRegFld Reg.SLV_STAT 31 31 0 (setRegFld Reg.SLV_STAT 3 0 0 s)
  if regBit Reg.SLV_CTL 31 s then s else setRegFld Reg.SLV_STAT 30 30 0 s

/-- SOLVE_COMMIT's effect, once the solve has left its phases or is in OUTPUT. -/
def commitSolve (s : State) : State :=
  match s.slv.solve with
  | none => s
  | some x =>
    match x.ending with
    | .none => s
    | .fresh status =>
      let s := runTo (solveInstant x x.commitAt) s
      let r := countWork x (phaseCycles x.input 8) s
      commitRecord r.1 (freshRecord r.1 status r.2.clk.tick) r.2
    | .copied codes status =>
      let s := runTo (solveInstant x x.commitAt) s
      commitRecord x (copiedRecord x codes status (prevRecord s) s.clk.tick) s

/-- SOLVE_COMMIT (R234). -/
def execSolveCommit (s : State) : Host.Outcome State Fault Refusal := .next (commitSolve s)

end Sys2Proof.Machine
end

