-- ==== Sys2Proof/Machine/HostAccess.lean ====
section
/-! DEFINITION. Host accesses to BAR0 (R3 to R5, R22 to R25, R323, R324): writes of registers, accesses to closed ranges,
reads that clear; the crossing of control pulses (R437); and commands that come as datagrams (R465). -/

namespace Sys2Proof.Machine

open Sys2Proof.Config

/-! ### The address map (R22) -/

/-- What an offset of BAR0 lies in. -/
inductive BarRange where
  | postbox
  | doorbell
  | block
  | window
  | reserved
  deriving DecidableEq, Repr

/-- The range of an offset (R22). -/
def barRange (off : Nat) : BarRange :=
  if off < 0xF000 then .postbox
  else if off < 0x10000 then .doorbell
  else if 0x100000 ≤ off ∧ off < 0xE00000 then .block
  else if 0x1000000 ≤ off ∧ off < 0x2000000 then .window
  else .reserved

/-! ### Commands as they are fetched (R325, R326, R470) -/

/-- The state that an outcome leaves. -/
def outcomeState (o : Host.Outcome State Fault Refusal) (s : State) : State :=
  match o with
  | .next t => t
  | _ => s

/-- The register write `k` of a SENSOR_REQ payload: the value's length counts its low-order bytes, sent big-endian
(DEDUCED, log entry 53). -/
def parseSensorReg (b : List Byte) (k : Nat) : SensorReg :=
  let o := 12 + 8 * k
  let n := min 4 (byteAt b (o + 2))
  ⟨BitVec.ofNat 16 (leAt b o 2), (slice b (o + 4) 4).drop (4 - n)⟩

/-- The payload of SENSOR_REQ (R326). -/
def parseSensorReq (b : List Byte) (c : Fin 16) : SensorRequest :=
  let m := byteAt b 44
  { context := c, target := wordAt b 8, writes := (List.range (min 4 (byteAt b 5))).map (parseSensorReg b),
    expected := (List.range 4).map (fun k => if m.testBit k then some (wordAt b (48 + 4 * k)) else none) }

/-- 64 bits at an offset of a command. -/
def addrAt (b : List Byte) (o : Nat) : Word64 := BitVec.ofNat 64 (leAt b o 8)

/-- A byte at an offset of a command. -/
def byte8 (b : List Byte) (o : Nat) : BitVec 8 := BitVec.ofNat 8 (byteAt b o)

/-- Run the 64-byte command of R325 by its OP (R326, R470); an OP that no table gives is refused. -/
def runCommand (i : Issue) (b : List Byte) (s : State) : Host.Outcome State Fault Refusal :=
  match byteAt b 0 with
  | 0x01 => execRegister i (addrAt b 4) s
  | 0x02 => execRetire i (byte8 b 4) s
  | 0x03 => execLoadModel i (addrAt b 4) s
  | 0x04 =>
    if h : byteAt b 4 < 16 then execSensorReq i (parseSensorReq b ⟨byteAt b 4, h⟩) s
    else .next (command i Op.sensorReq allowHPM (refuseUnstated i Op.sensorReq) s)
  | 0x05 => execSetDay i (wordAt b 4) (wordAt b 8) (wordAt b 12) s
  | 0x06 => execSetMode i (byte8 b 4) (slice b 8 16) s
  | 0x07 => execSetStanding i (byte8 b 4) (byte8 b 5) (byte8 b 6) (addrAt b 8) s
  | 0x08 => execReadLedger i (addrAt b 4) s
  | 0x09 => execQueueCtl i ⟨byte8 b 4, byte8 b 5, addrAt b 8, wordAt b 16, addrAt b 20⟩ s
  | 0x0A => execSetOpPoint i (byte8 b 4) s
  | 0x0B => execClose i s
  | 0x0C => execHandoff i (byte8 b 4) (addrAt b 8) (addrAt b 16) s
  | 0x0D => execUpdateWrite i (wordAt b 4) (addrAt b 8) (wordAt b 16) s
  | 0x0E => execUpdateCommit i s
  | 0x0F => execUpdateConfirm i s
  | 0x10 => execReadLog i (wordAt b 4) (BitVec.ofNat 16 (leAt b 8 2)) (addrAt b 12) s
  | 0x11 => execFuseBlow i (byte8 b 4) (byte8 b 5) (addrAt b 8) s
  | 0x12 => execCoreRestart i (byte8 b 4) s
  | op => .next (command i op allowHPM (refuseUnstated i op) s)

/-! ### Control pulses (R437) -/

/-- The clock domain that a trigger written at `off` crosses into, for the blocks that R434 names (PRESUMED, log entry 52). -/
def pulseDomain (off : Nat) (v : Word) : Option Nat :=
  if off = Reg.SLV_MODEL_CMD then (if bit v 0 then some 17 else none)
  else if off = Reg.SRV_TRC_CTL then (if bit v 31 || bit v 30 then some 19 else none)
  else if 0x601000 ≤ off ∧ off < 0x605000 then
    (if (off % 0x100 = 0 ∨ off % 0x100 = 4) ∧ bit v 31 = true then some 19 else none)
  else if 0x608000 ≤ off ∧ off < 0x608400 then
    (if (off % 0x40 = 0 ∧ bit v 30 = true) ∨ off % 0x40 = 0x14 then some 25 else none)
  else if 0x700000 ≤ off ∧ off < 0x800000 then
    (if (off % 0x40000 = 0 ∧ bit v 27 = true) ∨ off % 0x40000 = 0x14 ∨ off % 0x40000 = 0x18 then some 26 else none)
  else if off = Reg.TIM_STEP_HI then some 27
  else if off = Reg.ETH_Mm_PM_POP 0 then some 35
  else if off = Reg.ETH_Mm_PM_POP 1 then some 36
  else if off = Reg.MGT_CORE_CTL ∨ off = Reg.PWR_RST_CMD then some 23
  else none

/-- The crossing with a key. -/
def crossingAt (k : Nat) (s : State) : Crossing := tget (fun _ => Crossing.reset) s.pwr.crossings k

/-- The state with a crossing set. -/
def setCrossing (d : Nat) (c : Crossing) (s : State) : State :=
  { s with pwr := { s.pwr with crossings := tset (fun _ => Crossing.reset) d c s.pwr.crossings } }

/-- What is written of a register when the pulse that the write sends is lost: the bits beside the pulse of a register that
holds others; a register that is a pulse alone takes nothing (R437). -/
def pulseRest (off : Nat) (v : Word) : Option Word :=
  if off = Reg.SRV_TRC_CTL then some (v &&& 0x3FFFFFFF)
  else if 0x601000 ≤ off ∧ off < 0x605000 then some (setBit v 31 false)
  else if 0x608000 ≤ off ∧ off < 0x608400 ∧ off % 0x40 = 0 then some (setBit v 30 false)
  else if 0x700000 ≤ off ∧ off < 0x800000 ∧ off % 0x40000 = 0 then some (setBit v 27 false)
  else none

/-- A pulse that finds the pending bit set is lost (R437): its bit is set and CLK_XOVR_COUNT counts it. -/
def losePulse (d : Nat) (s : State) : State :=
  bumpReg Reg.CLK_XOVR_COUNT 1
    (if d < 32 then orReg Reg.CLK_XOVR0 (word (2 ^ d)) s else orReg Reg.CLK_XOVR1 (word (2 ^ (d - 32))) s)

/-- The report of the block that owns a crossing whose pulse is lost: an event-log record with code OVERRUN where its chapter
gives one for a command that it cannot take ("SLV_MODEL_STAT", R289; PRESUMED, log entry 52). -/
def reportLost (d : Nat) (s : State) : State :=
  match d with
  | 17 => raise Src.solver .regOverrun Code.overrun [] s
  | 19 | 25 => raise Src.servo .regOverrun Code.overrun [] s
  | _ => s

/-! ### Writes of registers -/

/-- Index of `off` in a row of registers. -/
def rowIndex (base stride count off : Nat) : Option Nat :=
  if base ≤ off ∧ (off - base) % stride = 0 ∧ (off - base) / stride < count then some ((off - base) / stride) else none

/-- A write to a register without an action of its own (R3, R4 and the access codes): software-writable bits take the
value, W1C bits written 1 clear, a WO register takes the value; where no register is named nothing happens (R25). -/
def plainWrite (off : Nat) (v : Word) (s : State) : State :=
  match regRowAt off with
  | none => s
  | some r =>
    if r.wo then setReg off v s
    else modReg off (fun w => ((w &&& ~~~r.rw) ||| (v &&& r.rw)) &&& ~~~(v &&& r.w1c)) s

/-- Fabric control. -/
def writeFab (off : Nat) (v : Word) (s : State) : State :=
  if off = Reg.FAB_OP_CTL then requestPoint (fld v 1 0) s
  else if off = Reg.FAB_REG_CMD then
    match fld v 31 30 with
    | 1 => regCmd .firmware (fun s => issueRegistration (reg64 Reg.FAB_REG_ADDR_LO Reg.FAB_REG_ADDR_HI s) none s) s
    | 2 => regCmd .firmware (askRetire (fld v 5 0)) s
    | _ => if regBit Reg.FAB_LOAD_STAT 31 s then regCmd .firmware id s else s
  else plainWrite off v s

/-- The value of ISP_CTXc_PARAM before the present pipeline cycle, with that cycle: the first write in a cycle keeps it for a
frame that starts in the same one (R172). -/
def keepParam (c off : Nat) (s : State) : Option (Nat × Word) :=
  match (getCtx c s).paramPrev with
  | some (t, v) => if t = now s / 6 then some (t, v) else some (now s / 6, getReg off s)
  | none => some (now s / 6, getReg off s)

/-- Image pipelines. -/
def writeIsp (off : Nat) (v : Word) (s : State) : State :=
  match rowIndex (Reg.ISP_CTXc_CTL 0) (Reg.ISP_CTXc_CTL 1 - Reg.ISP_CTXc_CTL 0) 16 off with
  | some c => contextEnable c v s
  | none =>
    match rowIndex (Reg.ISP_CTXc_PARAM 0) (Reg.ISP_CTXc_PARAM 1 - Reg.ISP_CTXc_PARAM 0) 16 off with
    | some c => plainWrite off v (setCtx c { getCtx c s with paramPrev := keepParam c off s } s)
    | none => plainWrite off v s

/-- Camera receivers and streams. -/
def writeCam (off : Nat) (v : Word) (s : State) : State :=
  match rowIndex (Reg.CAM_RXr_CTL 0) (Reg.CAM_RXr_CTL 1 - Reg.CAM_RXr_CTL 0) 12 off with
  | some r => receiverEnable r v s
  | none =>
    match rowIndex (Reg.CAM_STRs_CTL 0) (Reg.CAM_STRs_CTL 1 - Reg.CAM_STRs_CTL 0) 16 off with
    | some k => streamEnable k v s
    | none => plainWrite off v s

/-- Sorter. -/
def writeSrt (off : Nat) (v : Word) (s : State) : State :=
  match rowIndex (Reg.SRT_Qq_CTL 0) (Reg.SRT_Qq_CTL 1 - Reg.SRT_Qq_CTL 0) 8 off with
  | some q => queueEnable q v s
  | none =>
    match rowIndex (Reg.SRT_BSb_CFG 0) (Reg.SRT_BSb_CFG 1 - Reg.SRT_BSb_CFG 0) 4 off with
    | some b => batchStreamEnable b v s
    | none => plainWrite off v s

/-- Assembler and solver. -/
def writeSlv (off : Nat) (v : Word) (s : State) : State :=
  if off = Reg.SLV_CTL then (if bit v 31 then enableSolver s else disableSolver s)
  else if off = Reg.SLV_DEADLINE then writeLimit false v s
  else if off = Reg.SLV_MAX_ITER then writeLimit true v s
  else if off = Reg.SLV_MODEL_CMD then writeModelCmd v s
  else plainWrite off v s

/-- Trace control: the node count, then ARM, then FORCE (R263). -/
def writeTrace (v : Word) (s : State) : State :=
  let s := plainWrite Reg.SRV_TRC_CTL v s
  let s := if bit v 31 then traceArm s else s
  if bit v 30 then traceForce s else s

/-- Servo engine and courier lanes. -/
def writeSrv (off : Nat) (v : Word) (s : State) : State :=
  if off = Reg.SRV_PERIOD then writePeriod v s
  else if off = Reg.SRV_LIMITS then writeLimits v s
  else if off = Reg.SRV_TRC_CTL then writeTrace v s
  else
    match rowIndex (Reg.SRV_AXISn_CTL 0) 0x100 64 off with
    | some n => axisCommit n v s
    | none =>
      match rowIndex (Reg.SRV_AXISn_STAT 0) 0x100 64 off with
      | some n => plainWrite off (v &&& 1) (if bit v 31 then clearFault n s else s)
      | none =>
        match rowIndex (Reg.SRV_LANEl_CTL 0) 0x40 16 off with
        | some l => laneEnable l v s
        | none =>
          match rowIndex (Reg.SRV_LANEl_SVC 0) 0x40 16 off with
          | some l => serviceRequest l v s
          | none => plainWrite off v s

/-- CAN_Cc_CTL: the control bits; a node off the bus waits for no frame on it (R294); in bus-off RECOVER, or AUTO_RECOVER set,
starts recovery (R293). -/
def writeCanCtl (c : Nat) (v : Word) (s : State) : State :=
  let s := plainWrite (Reg.CAN_Cc_CTL c) v s
  let s := offerCan c (if canOn c s then s else setCan c { getCan c s with waiting := false } s)
  if (bit v 27 || bit v 28) ∧ canState c s = 2 then setRegFld (Reg.CAN_Cc_STAT c) 31 30 3 s else s

/-- A write of a FIFO's read index: a changed index leaves room (R297, R301). -/
def writeCanHead (c : Nat) (txe : Bool) (off : Nat) (v : Word) (s : State) : State :=
  let t := plainWrite off v s
  if getReg off t = getReg off s then t
  else if txe then setCan c { getCan c t with txeFull := false } t
  else setCan c { getCan c t with rxFull := false } t

/-- CAN FD. -/
def writeCan (off : Nat) (v : Word) (s : State) : State :=
  let c := (off - 0x700000) / 0x40000
  match off % 0x40000 with
  | 0x00 => writeCanCtl c v s
  | 0x08 => if regBit (Reg.CAN_Cc_CTL c) 30 s then plainWrite off v s else s
  | 0x0C => if regBit (Reg.CAN_Cc_CTL c) 30 s then plainWrite off v s else s
  | 0x14 => offerCan c (orReg (Reg.CAN_Cc_TX_REQ c) v s)
  | 0x18 => modReg (Reg.CAN_Cc_TX_REQ c) (· &&& ~~~v) s
  | 0x20 => writeCanHead c false off v s
  | 0x28 => writeCanHead c true off v s
  | _ => plainWrite off v s

/-- Ethernet and time. -/
def writeEth (off : Nat) (v : Word) (s : State) : State :=
  if off = Reg.TIM_RATE then writeRate v s
  else if off = Reg.TIM_STEP_HI then stepTime (join64 v (getReg Reg.TIM_STEP_LO s)) s
  else if off = Reg.TIM_DOMd_CFG 0 then writeDomain 0 v s
  else if off = Reg.TIM_DOMd_CFG 1 then writeDomain 1 v s
  else if off = Reg.ETH_Mm_CTL 0 then writeMacCtl 0 v s
  else if off = Reg.ETH_Mm_CTL 1 then writeMacCtl 1 v s
  else if off = Reg.ETH_Mm_PM_POP 0 then popPostmark 0 s
  else if off = Reg.ETH_Mm_PM_POP 1 then popPostmark 1 s
  else plainWrite off v s

/-- Ring: BARRIER_TIMEOUT 0 sets CODE to FIELD_ZERO and changes nothing (R368). -/
def writeRng (off : Nat) (v : Word) (s : State) : State :=
  if off = Reg.RNG_CTL then writeRingCtl v s
  else if off = Reg.RNG_Pp_CTL 0 then writePortCtl 0 v s
  else if off = Reg.RNG_Pp_CTL 1 then writePortCtl 1 v s
  else if off = Reg.RNG_BARRIER_TIMEOUT ∧ fld v 15 0 = 0 then setRegFld Reg.RNG_STAT 23 16 Code.fieldZero s
  else plainWrite off v s

/-- The cameras that binding `k` names are written: a report that stands for one of them invalidates the binding and latches
CAMERA (R394), in one frame. -/
def writeCameras (k : Nat) (v : Word) (s : State) : State :=
  let s := plainWrite (Reg.SAF_CHKk_CAM k) v s
  if cameraStands k s then latchInvalid Latch.camera s else showInvalid s

/-- Safety. Bits of SAF_LATCH that hardware sets in the cycle of the write are `sets` (R5). -/
def writeSaf (off : Nat) (v sets : Word) (s : State) : State :=
  if off = Reg.SAF_CTL then
    let s := plainWrite off v s
    if bit v 30 then setLatch Latch.force 0xFFFF s else s
  else if off = Reg.SAF_LATCH then clearLatches v sets s
  else if off = Reg.SAF_TEN_ARM then armTen v s
  else if off = Reg.SAF_SRV_CFG then writeSafetyConfig false v s
  else if off = Reg.SAF_PROOF_CFG then writeSafetyConfig true v s
  else
    match rowIndex (Reg.SAF_CHKk_CTL 0) 0x40 16 off with
    | some k => enableBinding k v s
    | none =>
      match rowIndex (Reg.SAF_CHKk_CAM 0) 0x40 16 off with
      | some k => writeCameras k v s
      | none => plainWrite off v s

/-- Power, clock and reset. -/
def writePwr (off : Nat) (v : Word) (s : State) : State :=
  if off = Reg.PWR_RST_CMD then (if v = 0x52535443 then assertReset 64 s else s) else plainWrite off v s

/-- Management: each bit of MGT_CORE_CTL restarts its core (R448). -/
def writeMgt (off : Nat) (v : Word) (s : State) : State :=
  if off = Reg.MGT_CORE_CTL then
    (List.range 4).foldl (fun s c => if bit v c then restartCore c false s else s) s
  else plainWrite off v s

/-- A write within a block window, by the block that R22 gives the megabyte to. -/
def writeBlock (off : Nat) (v sets : Word) (s : State) : State :=
  match off / 2 ^ 20 with
  | 1 => writeFab off v s
  | 2 => writeIsp off v s
  | 3 => writeCam off v s
  | 4 => writeSrt off v s
  | 5 => writeSlv off v s
  | 6 => writeSrv off v s
  | 7 => writeCan off v s
  | 8 => writeEth off v s
  | 9 => writeRng off v s
  | 10 => writeSaf off v sets s
  | 11 => writePwr off v s
  | 12 => writeMgt off v s
  | _ => plainWrite off v s

/-- Send a write across its crossing: it acts, and the crossing is open for one round trip. -/
def launch (k off : Nat) (v sets : Word) (at_ : Nat) (s : State) : State :=
  writeBlock off v sets (setCrossing k ⟨at_ + crossingRoundTrip (crossingClock k), none, (crossingAt k s).blindTo⟩ s)

/-- The crossing that a write takes: that of its domain's control pulses when it is a trigger, else the register's own. -/
def crossingKey (off : Nat) (v : Word) : Nat := (pulseDomain off v).getD (64 + off)

/-- A block register written through its crossing (R437 to R439). With the crossing at rest the write acts. While a round trip
is open it waits for the acknowledgement: a newer value replaces one that waits, and a pulse that finds one waiting is lost,
all but the bits beside it. Until the first handshake after a reset of either side nothing is taken. -/
def writeThrough (off : Nat) (v sets : Word) (s : State) : State :=
  let k := crossingKey off v
  let c := crossingAt k s
  if now s < (crossingAt (crossingClock k) s).blindTo then s
  else if c.openUntil ≤ now s then launch k off v sets (now s) s
  else if k < 64 ∧ c.waiting.isSome then
    (pulseRest off v).elim (reportLost k (losePulse k s)) (fun r => writeBlock off r sets (reportLost k (losePulse k s)))
  else setCrossing k { c with waiting := some (off, v, sets) } s

/-- What waits at crossings whose acknowledgement has returned is sent (R437, R438). It acts before the host's next access, or
when the block next idles (DESIGN CHOICE, log entry 189). -/
def deliver (s : State) : State :=
  s.pwr.crossings.foldl (fun s e =>
    match e.2.waiting with
    | some (off, v, sets) => if e.2.openUntil ≤ now s then launch e.1 off v sets e.2.openUntil s else s
    | none => s) s

/-- Whether the Dispatcher can take the next command of the ring: it runs, CMDQ_CTL.EN is 1, the entry at CMDQ_HEAD has been
written, and a session is open that commands of the ring belong to (R323, R324, R449). -/
def commandWaits (s : State) : Bool :=
  let size := regFld Reg.CMDQ_CTL 15 0 s
  dispatcherUp s && regBit Reg.CMDQ_CTL 31 s && decide (size ≠ 0) &&
    decide ((getReg Reg.CMDQ_HEAD s).toNat % size ≠ (getReg Reg.CMDQ_TAIL s).toNat % size) &&
    (s.sess.host.isSome || s.sess.maint.elim false (fun m => decide (m.side = .pcie)))

/-- Fetch and run commands of the ring in host memory, from CMDQ_HEAD to CMDQ_TAIL, 64 bytes each (R323, R325). They are of
the host session, or of a maintenance session when no host session is open. -/
def fetchCommands : Nat → State → State
  | 0, s => s
  | fuel + 1, s =>
    if commandWaits s then
      let b := hostBytes ((reg64 Reg.CMDQ_BASE_LO Reg.CMDQ_BASE_HI s).toNat + 64 * (getReg Reg.CMDQ_HEAD s).toNat) 64 s
      let i : Issue := ⟨if s.sess.host.isSome then .host else .maint, BitVec.ofNat 16 (leAt b 2 2)⟩
      fetchCommands fuel (outcomeState (runCommand i b s) s)
    else s

/-- The commands that wait are taken (R323). -/
def takeCommands (s : State) : State := fetchCommands (regFld Reg.CMDQ_CTL 15 0 s) s

/-- CORE_RESUME (R448): at its resumption the Dispatcher serves the doorbell of the command ring that was kept, and so does the
Postmaster with the commands that waited for it (R449). -/
def execCoreResume (core : Fin 4) (changed : List (Nat × Byte)) (s : State) : Host.Outcome State Fault Refusal :=
  .next (
    let t := resumeCore core.val changed s
    if core.val < 2 ∧ coreUp core.val t then takeCommands t else t)

/-- A write of the doorbell page: taken inside an open host or maintenance session, also while the Dispatcher is stopped
(R324, R449). -/
def writeDoorbell (off : Nat) (v : Word) (s : State) : State :=
  match rowIndex (Reg.JQq_TAIL 0) 8 8 off with
  | some q => doorbell q v s
  | none =>
    if s.sess.host.isNone && s.sess.maint.isNone then logClosed off s
    else if off = Reg.CMDQ_TAIL then takeCommands (plainWrite off v s)
    else plainWrite off v s

/-- A write of the Postbox (R323, R324). -/
def writePostbox (off : Nat) (v : Word) (s : State) : State :=
  if off = Reg.HEARTBEAT then
    postboxWrite off (fun s => if s.sess.host.isNone then s else { s with sess := { s.sess with beatAt := now s } }) s
  else if off = Reg.CMDQ_CTL then postboxWrite off (fun s => takeCommands (plainWrite off v s)) s
  else postboxWrite off (plainWrite off v) s

/-- A host write of 32 aligned bits (R22 to R25). -/
def hostWrite (off : Nat) (v sets : Word) (s : State) : State :=
  match barRange off with
  | .postbox => writePostbox off v s
  | .doorbell => writeDoorbell off v s
  | .block => asWriter .host off (writeThrough off v sets) s
  | .window => asWriter .host off (windowAccess (off - 0x1000000) .w32 (some v)) s
  | .reserved => s

/-- Bits of a W1C register that hardware sets in the cycle of a write: they stay set, also where the write clears them
(R5). -/
def setMeanwhile (off : Nat) (sets : Word) (s : State) : State :=
  match regRowAt off with
  | none => s
  | some r => if sets &&& r.w1c = 0 then s else orReg off (sets &&& r.w1c) s

/-- Whether the host may not write a range now (R22, R324). -/
def writeClosed (off : Nat) (s : State) : Bool :=
  match barRange off with
  | .block => s.sess.maint.isNone
  | .window => s.sess.maint.isNone
  | .postbox => s.sess.host.isNone && s.sess.maint.isNone
  | .doorbell => s.sess.host.isNone && s.sess.maint.isNone
  | .reserved => false

/-- HOST_REGISTER_WRITE (R3): a write of another width or alignment is discarded, and logged like every access where the range
is closed (R23). Any BAR0 access keeps a maintenance session in use (R466). -/
def execHostRegisterWrite (off : BitVec 26) (width : Width) (value : HostWrite) (s : State) :
    Host.Outcome State Fault Refusal :=
  .next (
    let o := off.toNat
    let s := deliver (touchMaint .maint s)
    if !pcieUp s then s
    else if width = .w32 ∧ o % 4 = 0 then setMeanwhile o value.sets (hostWrite o (value.value.truncate 32) value.sets s)
    else setMeanwhile (o / 4 * 4) value.sets (if writeClosed o s then logClosed o s else s))

/-! ### Reads -/

/-- Whether the tiles of a column work now: a running job that no copy holds has it. -/
def columnWorks (c : Nat) (s : State) : Bool :=
  s.disp.jobs.any (fun j => j.held && j.stage = .running && (jobCols j).contains c &&
      j.run.elim false (fun r => r.heldFrom.isNone))

/-- What the tiles of `w` columns draw themselves now, in mA: 1.6 A a column when they do no work (R427), a free value while they
work (R426; log entry 89). -/
def ownCurrent (c w : Nat) (s : State) : Nat :=
  ((List.range w).map (fun i => if columnWorks (c + i) s then tileDraw (c + i) (now s) else 1600)).sum

/-- Whether a partition's ballast draws: its level less the current that its tiles draw themselves (R426). -/
def ballastDraws (c : Nat) (s : State) : Bool :=
  let b := getBallast c s
  decide (ownCurrent c b.width s < ballastLevel b (now s))

/-- PWR_BALLAST: bit g set while group g's ballast draws current. -/
def ballastMask (s : State) : Nat :=
  ((List.range 12).map (fun g =>
    if (List.range 12).any (fun c => ballastDraws c s && decide (c ≤ g) && decide (g < c + (getBallast c s).width))
    then 2 ^ g else 0)).sum

/-- PWR_BOOT_STAT: STAGE is PLL once the fuses have been loaded in 40 µs, and FW_VERIFY once the images have been read, while
their signatures are verified (R444). -/
def bootStat (s : State) : Word :=
  match s.pwr.firmwareAt with
  | some t => if t ≤ now s + 4 * 800 * usRoot then setFld (getReg Reg.PWR_BOOT_STAT s) 31 28 3 else getReg Reg.PWR_BOOT_STAT s
  | none =>
    if s.pwr.porst && !s.pwr.locked && !s.pwr.inReset && decide (s.pwr.riseAt + 40 * usRoot ≤ now s)
    then setFld (getReg Reg.PWR_BOOT_STAT s) 31 28 1 else getReg Reg.PWR_BOOT_STAT s

/-- MGT_PMONp: the count of process monitor `p` in the last whole millisecond (R453), a free value (log entry 175); 0 before
the first has been taken. -/
def processMonitor (p : Nat) (s : State) : Word :=
  let n := s.clk.tick.toNat / 100000
  if n = 0 then 0 else (processCount p n).zeroExtend 32

/-- A read of a block register: the value returned, and what the read does. An RC register clears, and `inc` events of the
same cycle are applied to 0 (R5, R93). -/
def readBlock (off : Nat) (inc : Nat) (s : State) : Word × State :=
  match regRowAt off with
  | none => (0, s)
  | some r =>
    if r.wo then (0, s)
    else if off = Reg.TIM_TICK_LO then readTick s
    else if off = Reg.SRV_TRC_DATA then traceDataRead s
    else if off = Reg.PWR_BALLAST then (word (ballastMask s), s)
    else if off = Reg.PWR_BOOT_STAT then (bootStat s, s)
    else if off = Reg.PWR_DOM_STAT0 ∨ off = Reg.PWR_DOM_STAT1 ∨ off = Reg.CLK_GATE then (shownPower off s, s)
    else if Reg.MGT_PMONp 0 ≤ off ∧ off ≤ Reg.MGT_PMONp 3 then (processMonitor ((off - Reg.MGT_PMONp 0) / 4) s, s)
    else if Reg.MGT_FUSEw 0 ≤ off ∧ off ≤ Reg.MGT_FUSEw 63 then
      let w := (off - Reg.MGT_FUSEw 0) / 4
      (if w < 8 then 0 else fuse w s, s)
    else if r.rc then (getReg off s, setReg off (rcAfterRead inc) s)
    else (getReg off s, s)

/-- A read of the Postbox, served at any time; while the Dispatcher is stopped its registers read as they stood when it
stopped, and none clears (R324, R449). -/
def readPostbox (off : Nat) (inc : Nat) (s : State) : Word × State :=
  match s.mgt.heldBox with
  | some t => (tget regReset t off, s)
  | none => readBlock off inc s

/-- A host read of 32 aligned bits (R22 to R25). -/
def hostRead (off : Nat) (inc : Nat) (s : State) : State :=
  match barRange off with
  | .postbox =>
    let r := readPostbox off inc s
    returnTo .host r.1 r.2
  | .doorbell => returnTo .host 0 s
  | .block => asReader .host off (readBlock off inc) s
  | .window =>
    asWriter .host off (windowAccess (off - 0x1000000) .w32 none) (if s.sess.maint.isNone then returnTo .host 0 s else s)
  | .reserved => returnTo .host 0 s

/-- Whether the host may not reach a range now (R22). -/
def rangeClosed (off : Nat) (s : State) : Bool :=
  match barRange off with
  | .block => s.sess.maint.isNone
  | .window => s.sess.maint.isNone
  | _ => false

/-- RC_READ (R5). A read of another width or alignment returns 0 (R3), and is logged like every access where the range is
closed (R23). -/
def execRcRead (off : BitVec 26) (read : HostRead) (s : State) : Host.Outcome State Fault Refusal :=
  .next (
    let s := deliver (touchMaint .maint s)
    if !pcieUp s then s
    else if read.width = .w32 ∧ off.toNat % 4 = 0 then hostRead off.toNat read.inc.toNat s
    else returnTo .host 0 (if rangeClosed off.toNat s then logClosed off.toNat s else s))

/-- CLOSED_RANGE_ACCESS (R23): a read returns 0, a write is discarded, one record is written; a range that is open is not
this event's. -/
def execClosedRangeAccess (off : BitVec 26) (isWrite : Bool) (s : State) : Host.Outcome State Fault Refusal :=
  .next (
    if rangeClosed off.toNat s then logClosed off.toNat (if isWrite then s else returnTo .host 0 s) else s)

/-! ### Commands of the management port (R465) -/

/-- The session kind that a header's KIND names. -/
def kindOf? (k : Nat) : Option Session :=
  match k with
  | 1 => some .host
  | 2 => some .port
  | 3 => some .maint
  | _ => none

/-- Whether a COMMAND datagram of 88 bytes is good in a session: opened on the management port, its SESSION_ID, its tag,
and a SEQ above the previous one (R465). -/
def datagramGood (d : List Byte) (x : SessionInfo) : Bool :=
  decide (x.side = .mgtPort) && decide (leAt d 2 2 = x.id.toNat) && decide (d.length = 88) &&
    decide (slice d 72 16 = (hmac x.key (d.take 72)).take 16) && decide (x.seq.toNat < leAt d 4 4)

/-- The state with SEQ of a session raised. -/
def setSeq (k : Session) (q : Word) (s : State) : State :=
  match k with
  | .host => { s with sess := { s.sess with host := s.sess.host.map (fun x => { x with seq := q }) } }
  | .port => { s with sess := { s.sess with port := s.sess.port.map (fun x => { x with seq := q }) } }
  | .maint => { s with sess := { s.sess with maint := s.sess.maint.map (fun x => { x with seq := q }) } }

/-- A datagram that is discarded and logged with SESSION. -/
def discardDatagram (s : State) : State := raise Src.security .portDiscard Code.session [] s

/-- MGT_COMMAND_DATAGRAM (R465): nothing is served while the Postmaster is stopped; a TYPE that is not COMMAND is no
command. -/
def execMgtCommandDatagram (d : List Byte) (s : State) : Host.Outcome State Fault Refusal :=
  .next (
    if !postmasterUp s || decide (byteAt d 0 ≠ 5) then s
    else
      match kindOf? (byteAt d 1) with
      | none => discardDatagram s
      | some k =>
        match sessionOf k s with
        | none => discardDatagram s
        | some x =>
          if datagramGood d x then
            let s := setSeq k (wordAt d 4) s
            outcomeState (runCommand ⟨k, BitVec.ofNat 16 (leAt d 10 2)⟩ (slice d 8 64) s) s
          else discardDatagram s)

end Sys2Proof.Machine
end

