-- ==== Sys2Proof/Machine/Dispatch.lean ====
section
/-! DEFINITION. What each command does: one arm per constructor of `Instr`, in the order of spec/opcode_table.json. -/

namespace Sys2Proof.Machine

/-- The effect of a command on everything but the queue. -/
def exec (i : Instr) (s : State) : Host.Outcome State Fault Refusal :=
  match i with
  | .hostRegisterWrite off width value => Sys2Proof.Machine.execHostRegisterWrite off width value s
  | .closedRangeAccess off isWrite => Sys2Proof.Machine.execClosedRangeAccess off isWrite s
  | .rcRead off read => Sys2Proof.Machine.execRcRead off read s
  | .dayBoundary => Sys2Proof.Machine.execDayBoundary s
  | .opPointRequest by_ value => Sys2Proof.Machine.execOpPointRequest by_ value s
  | .opPointChange => Sys2Proof.Machine.execOpPointChange s
  | .intercalarySlotStart => Sys2Proof.Machine.execIntercalarySlotStart s
  | .solveStart => Sys2Proof.Machine.execSolveStart s
  | .solvePhaseEnd ecc => Sys2Proof.Machine.execSolvePhaseEnd ecc s
  | .qpIterationEnd ecc => Sys2Proof.Machine.execQpIterationEnd ecc s
  | .solveDeadline => Sys2Proof.Machine.execSolveDeadline s
  | .solveCommit => Sys2Proof.Machine.execSolveCommit s
  | .solverEnable by_ => Sys2Proof.Machine.execSolverEnable by_ s
  | .solverDisable by_ => Sys2Proof.Machine.execSolverDisable by_ s
  | .solverLimitWrite by_ maxIter value => Sys2Proof.Machine.execSolverLimitWrite by_ maxIter value s
  | .modelLoad by_ value => Sys2Proof.Machine.execModelLoad by_ value s
  | .loadModel iss addr => Sys2Proof.Machine.execLoadModel iss addr s
  | .modelLoadComplete => Sys2Proof.Machine.execModelLoadComplete s
  | .regCmdRegister by_ => Sys2Proof.Machine.execRegCmdRegister by_ s
  | .regCmdRetire by_ handle => Sys2Proof.Machine.execRegCmdRetire by_ handle s
  | .register iss addr => Sys2Proof.Machine.execRegister iss addr s
  | .retire iss handle => Sys2Proof.Machine.execRetire iss handle s
  | .registrationComplete => Sys2Proof.Machine.execRegistrationComplete s
  | .handleRetired handle => Sys2Proof.Machine.execHandleRetired handle s
  | .jobDoorbell queue tail => Sys2Proof.Machine.execJobDoorbell queue tail s
  | .jobFetch queue => Sys2Proof.Machine.execJobFetch queue s
  | .standingRelease entry => Sys2Proof.Machine.execStandingRelease entry s
  | .jobDispatch => Sys2Proof.Machine.execJobDispatch s
  | .loadStart => Sys2Proof.Machine.execLoadStart s
  | .loadComplete => Sys2Proof.Machine.execLoadComplete s
  | .copyIn col rec inst => Sys2Proof.Machine.execCopyIn col rec inst s
  | .copyOut col rec inst => Sys2Proof.Machine.execCopyOut col rec inst s
  | .commit col rec inst => Sys2Proof.Machine.execCommit col rec inst s
  | .send col rec inst => Sys2Proof.Machine.execSend col rec inst s
  | .routeDelivery col => Sys2Proof.Machine.execRouteDelivery col s
  | .stageStart col rec inst => Sys2Proof.Machine.execStageStart col rec inst s
  | .stageEnd col tile => Sys2Proof.Machine.execStageEnd col tile s
  | .copyComplete col rec copy => Sys2Proof.Machine.execCopyComplete col rec copy s
  | .copyDue col rec inst => Sys2Proof.Machine.execCopyDue col rec inst s
  | .jobLastCycle col => Sys2Proof.Machine.execJobLastCycle col s
  | .jobEnd col => Sys2Proof.Machine.execJobEnd col s
  | .partitionRelease col => Sys2Proof.Machine.execPartitionRelease col s
  | .refresh slot => Sys2Proof.Machine.execRefresh slot s
  | .windowAccess off access => Sys2Proof.Machine.execWindowAccess off access s
  | .memTrainingComplete caps => Sys2Proof.Machine.execMemTrainingComplete caps s
  | .receiverEnable by_ rx value => Sys2Proof.Machine.execReceiverEnable by_ rx value s
  | .streamEnable by_ stream value => Sys2Proof.Machine.execStreamEnable by_ stream value s
  | .contextEnable by_ ctx value => Sys2Proof.Machine.execContextEnable by_ ctx value s
  | .frameStart stream => Sys2Proof.Machine.execFrameStart stream s
  | .lineLanded stream pixels chk => Sys2Proof.Machine.execLineLanded stream pixels chk s
  | .embeddedLine stream bytes chk => Sys2Proof.Machine.execEmbeddedLine stream bytes chk s
  | .frameEnd stream => Sys2Proof.Machine.execFrameEnd stream s
  | .stripeStart pipe => Sys2Proof.Machine.execStripeStart pipe s
  | .stripeEnd pipe => Sys2Proof.Machine.execStripeEnd pipe s
  | .absentTimeout ctx => Sys2Proof.Machine.execAbsentTimeout ctx s
  | .sensorReq iss req => Sys2Proof.Machine.execSensorReq iss req s
  | .sensorWrite bus => Sys2Proof.Machine.execSensorWrite bus s
  | .sensorWriteComplete bus => Sys2Proof.Machine.execSensorWriteComplete bus s
  | .latchPoint ctx => Sys2Proof.Machine.execLatchPoint ctx s
  | .queueTailWrite by_ queue value => Sys2Proof.Machine.execQueueTailWrite by_ queue value s
  | .queueEnable by_ queue value => Sys2Proof.Machine.execQueueEnable by_ queue value s
  | .batchStreamEnable by_ bs value => Sys2Proof.Machine.execBatchStreamEnable by_ bs value s
  | .engineTake => Sys2Proof.Machine.execEngineTake s
  | .decodeEnd engine => Sys2Proof.Machine.execDecodeEnd engine s
  | .budgetExpiry engine => Sys2Proof.Machine.execBudgetExpiry engine s
  | .batchClose bs => Sys2Proof.Machine.execBatchClose bs s
  | .measurementCutoff => Sys2Proof.Machine.execMeasurementCutoff s
  | .servoPeriodStart => Sys2Proof.Machine.execServoPeriodStart s
  | .servoCompute => Sys2Proof.Machine.execServoCompute s
  | .traceRecord => Sys2Proof.Machine.execTraceRecord s
  | .servoCheck proofEngine proofChecker => Sys2Proof.Machine.execServoCheck proofEngine proofChecker s
  | .commandRelease => Sys2Proof.Machine.execCommandRelease s
  | .servoEnable by_ value => Sys2Proof.Machine.execServoEnable by_ value s
  | .servoConfigWrite by_ limits value => Sys2Proof.Machine.execServoConfigWrite by_ limits value s
  | .axisCommit by_ axis value => Sys2Proof.Machine.execAxisCommit by_ axis value s
  | .faultClear by_ axis => Sys2Proof.Machine.execFaultClear by_ axis s
  | .traceArm by_ => Sys2Proof.Machine.execTraceArm by_ s
  | .traceForce by_ => Sys2Proof.Machine.execTraceForce by_ s
  | .traceDataRead by_ => Sys2Proof.Machine.execTraceDataRead by_ s
  | .slotBoundary => Sys2Proof.Machine.execSlotBoundary s
  | .upFrame lane groups rtd eccBad => Sys2Proof.Machine.execUpFrame lane groups rtd eccBad s
  | .laneEnable by_ lane value => Sys2Proof.Machine.execLaneEnable by_ lane value s
  | .enumLane by_ lane => Sys2Proof.Machine.execEnumLane by_ lane s
  | .serviceRequest by_ lane value => Sys2Proof.Machine.execServiceRequest by_ lane value s
  | .serviceTimeout lane => Sys2Proof.Machine.execServiceTimeout lane s
  | .canRxFrame ctl frame age => Sys2Proof.Machine.execCanRxFrame ctl frame age s
  | .canTxDone ctl age => Sys2Proof.Machine.execCanTxDone ctl age s
  | .canArbitrationLost ctl => Sys2Proof.Machine.execCanArbitrationLost ctl s
  | .canBusError ctl error => Sys2Proof.Machine.execCanBusError ctl error s
  | .canRecoveryComplete ctl => Sys2Proof.Machine.execCanRecoveryComplete ctl s
  | .canRecover by_ ctl => Sys2Proof.Machine.execCanRecover by_ ctl s
  | .canTxRequest by_ ctl value => Sys2Proof.Machine.execCanTxRequest by_ ctl value s
  | .canTxAbort by_ ctl value => Sys2Proof.Machine.execCanTxAbort by_ ctl value s
  | .bitTimingWrite by_ ctl data value => Sys2Proof.Machine.execBitTimingWrite by_ ctl data value s
  | .setDay iss dayUs slotUs solverUs => Sys2Proof.Machine.execSetDay iss dayUs slotUs solverUs s
  | .setMode iss mode shares => Sys2Proof.Machine.execSetMode iss mode shares s
  | .setStanding iss entry enable client addr => Sys2Proof.Machine.execSetStanding iss entry enable client addr s
  | .readLedger iss addr => Sys2Proof.Machine.execReadLedger iss addr s
  | .queueCtl iss q => Sys2Proof.Machine.execQueueCtl iss q s
  | .setOpPoint iss point => Sys2Proof.Machine.execSetOpPoint iss point s
  | .close iss => Sys2Proof.Machine.execClose iss s
  | .handoff iss index slot0 slot1 => Sys2Proof.Machine.execHandoff iss index slot0 slot1 s
  | .updateWrite iss offset addr len => Sys2Proof.Machine.execUpdateWrite iss offset addr len s
  | .updateCommit iss => Sys2Proof.Machine.execUpdateCommit iss s
  | .updateConfirm iss => Sys2Proof.Machine.execUpdateConfirm iss s
  | .readLog iss first count addr => Sys2Proof.Machine.execReadLog iss first count addr s
  | .fuseBlow iss field slot addr => Sys2Proof.Machine.execFuseBlow iss field slot addr s
  | .coreRestart iss core => Sys2Proof.Machine.execCoreRestart iss core s
  | .heartbeat => Sys2Proof.Machine.execHeartbeat s
  | .hostLost => Sys2Proof.Machine.execHostLost s
  | .counterfoilRunStart => Sys2Proof.Machine.execCounterfoilRunStart s
  | .counterfoilRunEnd ecc words => Sys2Proof.Machine.execCounterfoilRunEnd ecc words s
  | .comparatorDecision => Sys2Proof.Machine.execComparatorDecision s
  | .bindingExpiry k => Sys2Proof.Machine.execBindingExpiry k s
  | .bindingEnable by_ k value => Sys2Proof.Machine.execBindingEnable by_ k value s
  | .latchClear by_ value => Sys2Proof.Machine.execLatchClear by_ value s
  | .safetyForce by_ => Sys2Proof.Machine.execSafetyForce by_ s
  | .tenArm by_ value => Sys2Proof.Machine.execTenArm by_ value s
  | .safetyConfigWrite by_ proof value => Sys2Proof.Machine.execSafetyConfigWrite by_ proof value s
  | .safetyFrameRepeat => Sys2Proof.Machine.execSafetyFrameRepeat s
  | .flitReceived port flit => Sys2Proof.Machine.execFlitReceived port flit s
  | .ackTimeout port => Sys2Proof.Machine.execAckTimeout port s
  | .trainingStep port r => Sys2Proof.Machine.execTrainingStep port r s
  | .portEnable by_ port value => Sys2Proof.Machine.execPortEnable by_ port value s
  | .portRetrain by_ port => Sys2Proof.Machine.execPortRetrain by_ port s
  | .ringEnable by_ value => Sys2Proof.Machine.execRingEnable by_ value s
  | .ringResetStart byWrite => Sys2Proof.Machine.execRingResetStart byWrite s
  | .resetToken time hopSum hop slots probeBad masterOfs masterRate => Sys2Proof.Machine.execResetToken time hopSum hop slots probeBad masterOfs masterRate s
  | .ringResetTimeout => Sys2Proof.Machine.execRingResetTimeout s
  | .arrive seq vote => Sys2Proof.Machine.execArrive seq vote s
  | .release seq at_ vote => Sys2Proof.Machine.execRelease seq at_ vote s
  | .barrierRelease => Sys2Proof.Machine.execBarrierRelease s
  | .barrierTimeout => Sys2Proof.Machine.execBarrierTimeout s
  | .bcast body => Sys2Proof.Machine.execBcast body s
  | .snap byWrite at_ => Sys2Proof.Machine.execSnap byWrite at_ s
  | .collect records => Sys2Proof.Machine.execCollect records s
  | .abort job cause => Sys2Proof.Machine.execAbort job cause s
  | .ready peer channel inst => Sys2Proof.Machine.execReady peer channel inst s
  | .ringTransferMessage peer channel inst payload => Sys2Proof.Machine.execRingTransferMessage peer channel inst payload s
  | .tickRead by_ => Sys2Proof.Machine.execTickRead by_ s
  | .timeStep by_ value => Sys2Proof.Machine.execTimeStep by_ value s
  | .rateWrite by_ value => Sys2Proof.Machine.execRateWrite by_ value s
  | .timeUpdateApply => Sys2Proof.Machine.execTimeUpdateApply s
  | .ethRxFrame mac frame age => Sys2Proof.Machine.execEthRxFrame mac frame age s
  | .ethTxFrame mac => Sys2Proof.Machine.execEthTxFrame mac s
  | .postmarkPop by_ pop => Sys2Proof.Machine.execPostmarkPop by_ pop s
  | .macCtlWrite by_ mac value => Sys2Proof.Machine.execMacCtlWrite by_ mac value s
  | .ethLinkUp mac => Sys2Proof.Machine.execEthLinkUp mac s
  | .ptpMessage r => Sys2Proof.Machine.execPtpMessage r s
  | .announceTimeout => Sys2Proof.Machine.execAnnounceTimeout s
  | .slewEnd => Sys2Proof.Machine.execSlewEnd s
  | .porstRise masterSel rise => Sys2Proof.Machine.execPorstRise masterSel rise s
  | .porstFall => Sys2Proof.Machine.execPorstFall s
  | .pllLock => Sys2Proof.Machine.execPllLock s
  | .pllLoss => Sys2Proof.Machine.execPllLoss s
  | .sequenceSlot => Sys2Proof.Machine.execSequenceSlot s
  | .sysrst => Sys2Proof.Machine.execSysrst s
  | .vmon monitor mv => Sys2Proof.Machine.execVmon monitor mv s
  | .therm sensor reading => Sys2Proof.Machine.execTherm sensor reading s
  | .wdt => Sys2Proof.Machine.execWdt s
  | .pwrRstCmd by_ value => Sys2Proof.Machine.execPwrRstCmd by_ value s
  | .pcieReset => Sys2Proof.Machine.execPcieReset s
  | .resetRelease => Sys2Proof.Machine.execResetRelease s
  | .tileGroupSwitch group => Sys2Proof.Machine.execTileGroupSwitch group s
  | .tempSample sensor reading => Sys2Proof.Machine.execTempSample sensor reading s
  | .coreWatchdogExpiry core => Sys2Proof.Machine.execCoreWatchdogExpiry core s
  | .coreCtlRestart by_ value => Sys2Proof.Machine.execCoreCtlRestart by_ value s
  | .coreResume core changed => Sys2Proof.Machine.execCoreResume core changed s
  | .eventAccept => Sys2Proof.Machine.execEventAccept s
  | .hello side kind nc => Sys2Proof.Machine.execHello side kind nc s
  | .response side mac => Sys2Proof.Machine.execResponse side mac s
  | .mgtCommandDatagram datagram => Sys2Proof.Machine.execMgtCommandDatagram datagram s
  | .maintenanceTimeout => Sys2Proof.Machine.execMaintenanceTimeout s
  | .helloLockoutEnd side => Sys2Proof.Machine.execHelloLockoutEnd side s
  | .lossOfBlockLock loss => Sys2Proof.Machine.execLossOfBlockLock loss s
  | .firmwareLoadEnd => Sys2Proof.Machine.execFirmwareLoadEnd s

end Sys2Proof.Machine
end

