-- ==== Sys2Proof/Machine/Step.lean ====
section
/-! DEFINITION. One step of the block: the command at the front of the queue, or one root cycle when none waits. -/

namespace Sys2Proof.Machine

/-- What the block does on an empty queue: one root cycle passes while the PLL is locked, and nothing while it is not
(DESIGN CHOICE, log entry 1); what waits at a crossing whose acknowledgement has returned is sent. -/
def idle (s : State) : State := if s.pwr.locked then deliver (advance 1 s) else s

/-- One step: the command at the front of the queue acts on the state with the queue's rest. -/
def step (s : State) : Host.Outcome State Fault Refusal :=
  match s.pending with
  | [] => .next (idle s)
  | c :: r => exec c { s with pending := r }

/-- `s` with the command that a table word spells at the front of its queue; no word spells one. -/
def State.withFetchWord (s : State) (nbits w : Nat) : State :=
  match decodeTableWord nbits w with
  | some c => { s with pending := c :: s.pending }
  | none => s

end Sys2Proof.Machine
end

