-- ==== Sys2Proof/Machine/Pins.lean ====
section
/-! DEFINITION. What the balls show: the state of each ball group (R480), and what the JTAG port answers (R469). Nothing here is a
command's effect; each is read from the state. -/

namespace Sys2Proof.Machine

/-- The groups of balls of R480's table, numbered where each has a state of its own. -/
inductive BallGroup where
  | safeN
  | ten (n : Fin 16)
  | courierTransmit (lane : Fin 16)
  | ringLanes
  | canTxd (c : Fin 4)
  | norSelect
  | norOther
  | dramReset
  | dramOther
  | pcie
  | ethernet (mac : Fin 2)
  | camera (rx : Fin 12)
  | sensorBus
  | jtagTdo
  deriving DecidableEq, Repr

/-- What a ball group does. -/
inductive BallState where
  | highImpedance
  | low
  | high
  /-- the static differential level of R479 -/
  | staticLevel
  | bypassClosed
  | electricalIdle
  /-- under the function of the block that owns it -/
  | inUse
  deriving DecidableEq, Repr

/-- The column of R480's table that holds: cold reset, the hold of a warm reset, or released. From the rise of PORST_N to the
release the balls stay as in cold reset (DEDUCED, log entry 191). An unpowered device is no state of the model. -/
inductive ResetColumn where
  | coldReset
  | warmHold
  | released
  deriving DecidableEq, Repr

/-- The column that holds now. -/
def resetColumn (s : State) : ResetColumn :=
  if s.pwr.inReset then .warmHold else if s.pwr.locked then .released else .coldReset

/-- Cold reset (R476, R480). -/
def coldBall (g : BallGroup) : BallState :=
  match g with
  | .safeN | .ten _ | .dramReset => .low
  | .courierTransmit _ => .staticLevel
  | .ringLanes => .bypassClosed
  | .canTxd _ => .high
  | .norSelect | .norOther | .dramOther | .sensorBus | .jtagTdo => .highImpedance
  | .pcie | .ethernet _ | .camera _ => .electricalIdle

/-- The hold of a warm reset: as in cold reset but for the chip select of the flash (R442, R480). -/
def warmBall (g : BallGroup) : BallState := if g = .norSelect then .high else coldBall g

/-- After release, until the owning block is configured and from then on (R348, R396, R397, R461, R480). DRAM balls leave their
reset state where training starts. No command shifts through JTAG, so TDO stays released (log entry 191). -/
def releasedBall (g : BallGroup) (s : State) : BallState :=
  let used (b : Bool) (r : BallState) := if b then BallState.inUse else r
  let training := s.pwr.trainAt.isSome || regBit Reg.MEM_POP 31 s
  match g with
  | .safeN => if safeN s then .high else .low
  | .ten n => if (tenPins s).getLsbD n.val then .high else .low
  | .courierTransmit l => used (laneOn l.val s) .staticLevel
  | .ringLanes => used (!s.pwr.bypassClosed) .bypassClosed
  | .canTxd c => used (canOn c.val s) .high
  | .norSelect | .norOther => used (decide (regFld Reg.PWR_BOOT_STAT 31 28 s ≠ 8)) .highImpedance
  | .dramReset => used training .low
  | .dramOther => used training .highImpedance
  | .pcie => used (pcieUp s) .electricalIdle
  | .ethernet m => used (regBit (Reg.ETH_Mm_CTL m.val) 31 s) .electricalIdle
  | .camera r => used (regBit (Reg.CAM_RXr_CTL r.val) 31 s) .electricalIdle
  | .sensorBus => .inUse
  | .jtagTdo => .highImpedance

/-- The state of a ball group (R480). -/
def ballState (g : BallGroup) (s : State) : BallState :=
  match resetColumn s with
  | .coldReset => coldBall g
  | .warmHold => warmBall g
  | .released => releasedBall g s

/-- The instructions of the JTAG port, as far as R469 names them: IDCODE, BYPASS, and all the others, which give access. -/
inductive JtagInstr where
  | idcode
  | bypass
  | access
  deriving DecidableEq, Repr

/-- Whether DBG_LOCK is blown (R469). -/
def debugLocked (s : State) : Bool := bit (fuse 24 s) 3

/-- Whether the JTAG port answers an instruction: all without DBG_LOCK, in any session or none; IDCODE and BYPASS alone with it
(R469). -/
def jtagAnswers (i : JtagInstr) (s : State) : Bool :=
  match i with
  | .idcode | .bypass => true
  | .access => !debugLocked s

/-- Whether the debug and trace domain is connected to anything (R469). -/
def debugConnected (s : State) : Bool := !debugLocked s

end Sys2Proof.Machine
end

