-- ==== Sys2Proof/Safety.lean ====
section
/-! DEFINITION. What the claims call a sound state and a safe step: the canonical form of every memory and table, and the
outcome of a step that neither faults nor refuses. -/

namespace Sys2Proof.Machine

/-- The contents of one space are in canonical form: keys strictly rising, no entry equal to what an unlisted byte reads
as. -/
def spaceWf (sp : Space) (s : State) : Bool := twf (memDefault sp s) (memOf sp s)

/-- Every memory of the block is in canonical form. -/
def Memory.wf (s : State) : Bool :=
  spaceWf .dram s && spaceWf .stage s && spaceWf .bank s && spaceWf .table s && twf hostDefault s.hostMem &&
    twf flashDefault s.flash && twf regReset s.regs && twf fuseShipped s.fuses

/-- A fuse that is blown in `s` is blown in `t` (R467). -/
def fusesKept (s t : State) : Prop := ∀ w, fuse w s &&& fuse w t = fuse w s

/-- The state that an outcome goes on with, if it goes on. -/
def nextOf (o : Host.Outcome State Fault Refusal) : Option State :=
  match o with
  | .next t => some t
  | _ => none

/-- A step is safe when the block goes on: it neither faults nor refuses. -/
def safeStep (s : State) : Bool := (nextOf (step s)).isSome

/-! ### Who may write, and what a command leaves alone -/

/-- Whether the blocks have passed their slots of the start sequence: domains 12 to 28 are on (R427, R444). -/
def blocksUp (s : State) : Bool := (List.range 17).all (fun k => regBit Reg.PWR_DOM_STAT0 (12 + k) s)

/-- Whether a writer's register write takes effect now: with the blocks usable (R444) firmware's always does, the host's inside
a maintenance session (R22, R23). -/
def writesNow (w : Writer) (s : State) : Bool :=
  match w with
  | .firmware => blocksUp s
  | .host => blocksUp s && s.sess.maint.isSome

/-- The state with the maintenance session marked as used by a host access (R466). -/
def usedBy (w : Writer) (s : State) : State :=
  match w with
  | .firmware => s
  | .host => { s with sess := { s.sess with maint := s.sess.maint.map (fun m => { m with usedAt := now s }) } }

/-- Every register but those listed holds what it held. -/
def regsKept (except : List Nat) (s t : State) : Prop := ∀ o, o ∉ except → getReg o t = getReg o s

/-- Every byte of every memory, of host memory and of the flash, and every fuse, reads as before. -/
def memKept (s t : State) : Prop :=
  (∀ sp a, rdByte sp a t = rdByte sp a s) ∧ (∀ a, hostByte a t = hostByte a s) ∧ t.flash = s.flash ∧ t.fuses = s.fuses

/-- As `memKept`, but for the ledger's 1 088 bytes in DRAM, which show the ledger as it stands (R322). -/
def memKeptButLedger (s t : State) : Prop :=
  (∀ sp a, sp ≠ .dram ∨ inLedger (memKey sp a) = false → rdByte sp a t = rdByte sp a s) ∧
    (∀ a, hostByte a t = hostByte a s) ∧ t.flash = s.flash ∧ t.fuses = s.fuses

/-- Nothing but the listed registers and the queue's owner changed: every other field of the state is as before. -/
def onlyRegs (except : List Nat) (s t : State) : Prop :=
  regsKept except s t ∧ { t with regs := s.regs } = s

/-- Only the listed registers and the solver changed. -/
def onlySolver (except : List Nat) (s t : State) : Prop :=
  regsKept except s t ∧ { t with regs := s.regs, slv := s.slv, clk := s.clk, tim := s.tim } = s

/-- A command, by its opcode, that its session may issue and that its core serves now (R324 to R326, R447, R449, R465). -/
def mayIssue (i : Issue) (op : Nat) (allow : List Session) (s : State) : Bool :=
  (sessionOf i.via s).isSome && cmdServed i.via op s && decide (i.via ∈ allow)

end Sys2Proof.Machine
end

