-- ==== Sys2Proof/WellFormed.lean ====
section
/-! DEFINITION. Which commands are well formed: operands that the rules give a fixed length, range or shape have it. An
operand whose type already bounds it needs no check. -/

namespace Sys2Proof

/-- Bytes of data that a DLC of a CAN frame stands for (R291): codes 9 to 15 of an FD frame stand for 12 to 64 bytes. -/
def canDataLen (fdf : Bool) (dlc : Nat) : Nat :=
  if dlc ≤ 8 then dlc else if fdf then [12, 16, 20, 24, 32, 48, 64].getD (dlc - 9) 64 else 8

/-- A CAN frame as the bus carries it: a classical frame has neither BRS nor ESI, an FD frame is no remote frame, a base
identifier has 11 bits, the data are as long as the DLC says, and a remote frame has none (R291). -/
def canFrameOk (f : CanFrame) : Bool :=
  (f.fdf || (!f.brs && !f.esi)) && !(f.fdf && f.rtr) && (f.xtd || decide (f.id.toNat % 2 ^ 18 = 0)) &&
    decide (f.data.length = if f.rtr then 0 else canDataLen f.fdf f.dlc.toNat)

/-- A settings request: up to four writes of 1 to 4 bytes, and four readback fields (R182). -/
def sensorReqOk (r : SensorRequest) : Bool :=
  decide (r.writes.length ≤ 4) && r.writes.all (fun w => decide (1 ≤ w.bytes.length) && decide (w.bytes.length ≤ 4)) &&
    decide (r.expected.length = 4)

/-- Well-formed commands. -/
def WellFormed (i : Instr) : Bool :=
  match i with
  | .hostRegisterWrite _ _ _ => true
  | .closedRangeAccess _ _ => true
  | .rcRead _ _ => true
  | .dayBoundary => true
  | .opPointRequest _ _ => true
  | .opPointChange => true
  | .intercalarySlotStart => true
  | .solveStart => true
  | .solvePhaseEnd _ => true
  | .qpIterationEnd _ => true
  | .solveDeadline => true
  | .solveCommit => true
  | .solverEnable _ => true
  | .solverDisable _ => true
  | .solverLimitWrite _ _ _ => true
  | .modelLoad _ _ => true
  | .loadModel _ _ => true
  | .modelLoadComplete => true
  | .regCmdRegister _ => true
  | .regCmdRetire _ _ => true
  | .register _ _ => true
  | .retire _ _ => true
  | .registrationComplete => true
  | .handleRetired _ => true
  | .jobDoorbell _ _ => true
  | .jobFetch _ => true
  | .standingRelease _ => true
  | .jobDispatch => true
  | .loadStart => true
  | .loadComplete => true
  | .copyIn _ _ _ => true
  | .copyOut _ _ _ => true
  | .commit _ _ _ => true
  | .send _ _ _ => true
  | .routeDelivery _ => true
  | .stageStart _ _ _ => true
  | .stageEnd _ _ => true
  | .copyComplete _ _ _ => true
  | .copyDue _ _ _ => true
  | .jobLastCycle _ => true
  | .jobEnd _ => true
  | .partitionRelease _ => true
  | .refresh _ => true
  | .windowAccess _ _ => true
  | .memTrainingComplete caps => decide (caps.length = 24)
  | .receiverEnable _ _ _ => true
  | .streamEnable _ _ _ => true
  | .contextEnable _ _ _ => true
  | .frameStart _ => true
  | .lineLanded _ pixels _ => decide (pixels.length ≤ 65535)
  | .embeddedLine _ _ _ => true
  | .frameEnd _ => true
  | .stripeStart _ => true
  | .stripeEnd _ => true
  | .absentTimeout _ => true
  | .sensorReq _ req => sensorReqOk req
  | .sensorWrite _ => true
  | .sensorWriteComplete _ => true
  | .latchPoint _ => true
  | .queueTailWrite _ _ _ => true
  | .queueEnable _ _ _ => true
  | .batchStreamEnable _ _ _ => true
  | .engineTake => true
  | .decodeEnd _ => true
  | .budgetExpiry _ => true
  | .batchClose _ => true
  | .measurementCutoff => true
  | .servoPeriodStart => true
  | .servoCompute => true
  | .traceRecord => true
  | .servoCheck _ _ => true
  | .commandRelease => true
  | .servoEnable _ _ => true
  | .servoConfigWrite _ _ _ => true
  | .axisCommit _ _ _ => true
  | .faultClear _ _ => true
  | .traceArm _ => true
  | .traceForce _ => true
  | .traceDataRead _ => true
  | .slotBoundary => true
  | .upFrame _ groups _ _ => decide (1 ≤ groups.length) && decide (groups.length ≤ 40)
  | .laneEnable _ _ _ => true
  | .enumLane _ _ => true
  | .serviceRequest _ _ _ => true
  | .serviceTimeout _ => true
  | .canRxFrame _ frame _ => canFrameOk frame
  | .canTxDone _ _ => true
  | .canArbitrationLost _ => true
  | .canBusError _ e => if e.transmitting then e.kind != .heavy else e.kind != .exempt
  | .canRecoveryComplete _ => true
  | .canRecover _ _ => true
  | .canTxRequest _ _ _ => true
  | .canTxAbort _ _ _ => true
  | .bitTimingWrite _ _ _ _ => true
  | .setDay _ _ _ _ => true
  | .setMode _ _ shares => decide (shares.length = 16)
  | .setStanding _ _ _ _ _ => true
  | .readLedger _ _ => true
  | .queueCtl _ _ => true
  | .setOpPoint _ _ => true
  | .close _ => true
  | .handoff _ _ _ _ => true
  | .updateWrite _ _ _ _ => true
  | .updateCommit _ => true
  | .updateConfirm _ => true
  | .readLog _ _ _ _ => true
  | .fuseBlow _ _ _ _ => true
  | .coreRestart _ _ => true
  | .heartbeat => true
  | .hostLost => true
  | .counterfoilRunStart => true
  | .counterfoilRunEnd _ _ => true
  | .comparatorDecision => true
  | .bindingExpiry _ => true
  | .bindingEnable _ _ _ => true
  | .latchClear _ _ => true
  | .safetyForce _ => true
  | .tenArm _ _ => true
  | .safetyConfigWrite _ _ _ => true
  | .safetyFrameRepeat => true
  | .flitReceived _ flit => decide (flit.bytes.length = 272)
  | .ackTimeout _ => true
  | .trainingStep _ _ => true
  | .portEnable _ _ _ => true
  | .portRetrain _ _ => true
  | .ringEnable _ _ => true
  | .ringResetStart _ => true
  | .resetToken _ _ _ slots _ _ _ => decide (slots.length ≤ 8)
  | .ringResetTimeout => true
  | .arrive _ _ => true
  | .release _ _ _ => true
  | .barrierRelease => true
  | .barrierTimeout => true
  | .bcast body => decide (body.length ≤ 256)
  | .snap _ _ => true
  | .collect records => decide (records.length ≤ 8) && records.all (fun r => decide (r.length = 64))
  | .abort _ _ => true
  | .ready _ _ _ => true
  | .ringTransferMessage _ _ _ _ => true
  | .tickRead _ => true
  | .timeStep _ _ => true
  | .rateWrite _ _ => true
  | .timeUpdateApply => true
  | .ethRxFrame _ _ _ => true
  | .ethTxFrame _ => true
  | .postmarkPop _ _ => true
  | .macCtlWrite _ _ _ => true
  | .ethLinkUp _ => true
  | .ptpMessage _ => true
  | .announceTimeout => true
  | .slewEnd => true
  | .porstRise _ _ => true
  | .porstFall => true
  | .pllLock => true
  | .pllLoss => true
  | .sequenceSlot => true
  | .sysrst => true
  | .vmon _ _ => true
  | .therm _ _ => true
  | .wdt => true
  | .pwrRstCmd _ _ => true
  | .pcieReset => true
  | .resetRelease => true
  | .tileGroupSwitch _ => true
  | .tempSample _ _ => true
  | .coreWatchdogExpiry _ => true
  | .coreCtlRestart _ _ => true
  | .coreResume _ _ => true
  | .eventAccept => true
  | .hello _ _ _ => true
  | .response _ _ => true
  | .mgtCommandDatagram d => decide (8 ≤ d.length)
  | .maintenanceTimeout => true
  | .helloLockoutEnd _ => true
  | .lossOfBlockLock _ => true
  | .firmwareLoadEnd => true

end Sys2Proof
end

