-- ==== Sys2Proof/Certificates/Slice0/Obligations.lean ====
section
/-! DEFINITION. The statements for the provers. Each docstring names the rules of spec/ that it formalises, or says that it
is the model's own choice. -/

open Sys2Proof Sys2Proof.Machine

/-! ### The step, the queue, and what every step keeps -/

/-- A step runs the command at the front of the queue on the state with the queue's rest. -/
def Obligations.StepRunsFrontCommand : Prop :=
  ∀ (c : Instr) (s : State), step { s with pending := c :: s.pending } = exec c s

/-- On an empty queue one root cycle passes while the PLL is locked, and what waits at a crossing whose acknowledgement has
returned is sent; nothing changes while it is not locked (the model's choice, log entries 1 and 189). -/
def Obligations.EmptyQueueIdles : Prop :=
  ∀ s : State, s.pending = [] →
    (s.pwr.locked = true → step s = .next (deliver (advance 1 s)) ∧
      ((∀ e ∈ s.pwr.crossings, e.2.waiting = none) → step s = .next (advance 1 s))) ∧
    (s.pwr.locked = false → step s = .next s)

/-- No command touches the queue: what waits after a command is what waited before it (the model's queue discipline). -/
def Obligations.CommandKeepsQueue : Prop :=
  ∀ (c : Instr) (s t : State), exec c s = .next t → t.pending = s.pending

/-- Every command completes, in every state: none faults and none is refused. (A command that the spec turns away, such as a
write outside its session, completes with the effect that the spec gives that.) -/
def Obligations.EveryCommandCompletes : Prop := ∀ (c : Instr) (s : State), ∃ t, exec c s = .next t

/-- Every step keeps every memory, the register file and the fuses in canonical form. -/
def Obligations.MemoryCanonicalKeptByEveryStep : Prop :=
  ∀ s t : State, Memory.wf s = true → step s = .next t → Memory.wf t = true

/-- The memories are in canonical form at reset. -/
def Obligations.MemoryCanonicalAtReset : Prop := Memory.wf State.reset = true

/-- No step unblows a fuse: a fuse bit that is 1 stays 1 (R467 to R469: no command, key or reset undoes one). -/
def Obligations.FusesNeverCleared : Prop := ∀ s t : State, step s = .next t → fusesKept s t

/-! ### Host access -/

/-- R3: a host write of another width or alignment than 32 aligned bits is discarded, and a read returns 0; where the range
is open or reserved, either only keeps a maintenance session in use (R466). (`u`: what waited at a clock-domain crossing whose
acknowledgement has returned has been sent, log entry 189. While the PCIe domain is off the host reaches nothing, R444.) -/
def Obligations.MisalignedHostAccess : Prop :=
  ∀ (off : BitVec 26) (w : Width) (v : BitVec 64) (inc : BitVec 32) (s : State), w ≠ .w32 ∨ off.toNat % 4 ≠ 0 →
    (∀ (u : BitVec 64) (sets : Word),
      exec (.hostRegisterWrite off w ⟨v, sets⟩) s = exec (.hostRegisterWrite off w ⟨u, sets⟩) s) ∧
    (let u := deliver (usedBy .host s)
     pcieUp u = true →
      (∃ t, exec (.rcRead off ⟨w, inc⟩) s = .next t ∧ t.pcieData = 0 ∧ regsKept [Reg.MGT_EVT_LOST] u t ∧ memKept u t) ∧
      (u.sess.maint.isSome = true →
        exec (.hostRegisterWrite off w ⟨v, 0⟩) s = .next u ∧
        exec (.rcRead off ⟨w, inc⟩) s = .next { u with pcieData := 0 }))

/-- R24: a host read of a reserved range returns 0 and a host write to one is discarded, with no log record. (As every host
access, it finds sent what waited at a crossing, log entry 189; a read needs the PCIe domain on, R444.) -/
def Obligations.ReservedRangeAccess : Prop :=
  ∀ (off : BitVec 26) (w : Width) (v : BitVec 64) (sets inc : BitVec 32) (s : State),
    (0x10000 ≤ off.toNat ∧ off.toNat < 0x100000) ∨ (0xE00000 ≤ off.toNat ∧ off.toNat < 0x1000000) ∨ 0x2000000 ≤ off.toNat →
    let u := deliver (usedBy .host s)
    exec (.hostRegisterWrite off w ⟨v, sets⟩) s = .next u ∧
    (pcieUp u = true → exec (.rcRead off ⟨w, inc⟩) s = .next { u with pcieData := 0 })

/-- R22, R23: with no maintenance session open, a host write to a block window or the paged window, and a read of one, of
any width and alignment, change nothing but the data returned, which is 0, and one event with code SESSION and the accessed
offset, on its way to the log from source 11, which holds fewer than 4. (No hardware event sets a W1C bit in the same cycle, no
write waits at a crossing, and the PCIe domain is on.) -/
def Obligations.ClosedRangeIsolated : Prop :=
  ∀ (off : BitVec 26) (w : Width) (v : BitVec 64) (inc : BitVec 32) (b : Bool) (s : State),
    s.sess.maint = none → pcieUp s = true → (∀ e ∈ s.pwr.crossings, e.2.waiting = none) →
    (0x100000 ≤ off.toNat ∧ off.toNat < 0xE00000) ∨ (0x1000000 ≤ off.toNat ∧ off.toNat < 0x2000000) →
    (s.mgt.events.filter (fun e => e.source = 11)).length < 4 →
    ∃ e : LogEvent, e.source = 11 ∧ e.code = 0x02 ∧ e.d0 = word off.toNat ∧ e.stamp = s.clk.tick ∧
      (let logged : State := { s with mgt := { s.mgt with events := s.mgt.events ++ [e] }, freeCtr := s.freeCtr + 1 }
       exec (.hostRegisterWrite off w ⟨v, 0⟩) s = .next logged ∧
       exec (.rcRead off ⟨w, inc⟩) s = .next { logged with pcieData := 0 } ∧
       exec (.closedRangeAccess off b) s = .next (if b then logged else { logged with pcieData := 0 }))

/-- Some W1C registers, each with its W1C bits. -/
def clearedByOnes : List (Nat × Word) :=
  [(Reg.MEM_WIN_STAT, 0x3), (Reg.MEM_ERR_INFO, 0x80000000), (Reg.PWR_RST_CAUSE, 0xFF), (Reg.CLK_XOVR0, 0xFFFFFFFF),
    (Reg.CLK_XOVR1, 0xFF), (Reg.CAM_RXr_STAT 0, 0x1F), (Reg.CAM_RXr_STAT 11, 0x1F)]

/-- The access codes of chapter 0 and R3 to R5: inside a maintenance session a host write to a register whose every bit
software may write sets it to the value written, and changes no other register and no memory; a W1C bit written 1 is cleared,
unless the hardware sets it in the same cycle, when it stays 1. (That CAM_RXr_STAT has its W1C bits at [4:0] is log entry 73.)
The write opens its clock-domain crossing for one round trip (the crossings of registers: log entry 52). R438, R439: a write of
a value that finds the round trip of an earlier one open waits for the acknowledgement, and replaces one that waits; until the
first handshake after a reset of one side a write is discarded. (`u` as in MisalignedHostAccess, log entry 189.) -/
def Obligations.PlainRegisterWrite : Prop :=
  ∀ (off : BitVec 26) (v : BitVec 64) (sets : Word) (s : State),
    let u := deliver (usedBy .host s)
    let k := crossingKey off.toNat (v.truncate 32)
    let c := crossingAt k u
    let sent := setCrossing k ⟨now u + Config.crossingRoundTrip (crossingClock k), none, c.blindTo⟩ (usedBy .host u)
    pcieUp u = true → writesNow .host u = true →
    ((crossingAt (crossingClock k) u).blindTo ≤ now u → c.openUntil ≤ now u →
      (∀ m, (off.toNat, m) ∈ clearedByOnes →
        ∃ t, exec (.hostRegisterWrite off .w32 ⟨v, sets⟩) s = .next t ∧ onlyRegs [off.toNat] sent t ∧
          getReg off.toNat t = (getReg off.toNat u &&& ~~~(v.truncate 32 &&& m)) ||| (sets &&& m)) ∧
      (off.toNat ∈ [Reg.SAF_CHKk_PROOF_HI 0, Reg.TIM_STEP_LO, Reg.SLV_MODEL_ADDR_LO, Reg.SLV_MODEL_ADDR_HI,
          Reg.FAB_REG_ADDR_LO, Reg.FAB_REG_ADDR_HI, Reg.SRV_TRC_LEVEL] →
        ∃ t, exec (.hostRegisterWrite off .w32 ⟨v, sets⟩) s = .next t ∧ getReg off.toNat t = v.truncate 32 ∧
          onlyRegs [off.toNat] sent t)) ∧
    (off.toNat % 4 = 0 → 0x100000 ≤ off.toNat → off.toNat < 0xE00000 →
      ((crossingAt (crossingClock k) u).blindTo ≤ now u → now u < c.openUntil → 64 ≤ k →
        exec (.hostRegisterWrite off .w32 ⟨v, 0⟩) s =
          .next (setCrossing k { c with waiting := some (off.toNat, v.truncate 32, 0) } (usedBy .host u))) ∧
      (now u < (crossingAt (crossingClock k) u).blindTo →
        exec (.hostRegisterWrite off .w32 ⟨v, 0⟩) s = .next (usedBy .host u)))

/-- The offsets of the solver's RC counters. -/
def solverCounters : List Nat :=
  [Reg.SLV_MAX_CYCLES, Reg.SLV_EARLY_COUNT, Reg.SLV_STALE_COUNT, Reg.SLV_INVALID_COUNT, Reg.SLV_PIVOT_COUNT,
    Reg.SLV_SAT_COUNT, Reg.SLV_TABLE_REFUSED, Reg.SLV_ECC_COUNT]

/-- R236: every counter of the solver's map holds at 0xFFFF_FFFF; a read in the same cycle as `inc` increments returns the
value before them and clears the counter, and the increments are then applied to 0. Nothing else changes. (`u` as in
MisalignedHostAccess, log entry 189: the host reaches the solver's registers inside a maintenance session, with the blocks on.) -/
def Obligations.SolverCounterReads : Prop :=
  (∀ o ∈ solverCounters, ∀ (n : Nat) (s : State),
    (getReg o (bumpReg o n s)).toNat = min 0xFFFFFFFF ((getReg o s).toNat + n)) ∧
  (∀ (off : BitVec 26) (inc : BitVec 32) (s : State), off.toNat ∈ solverCounters →
    let u := deliver (usedBy .host s)
    pcieUp u = true → writesNow .host u = true →
    ∃ t, exec (.rcRead off ⟨.w32, inc⟩) s = .next t ∧ t.pcieData = getReg off.toNat u ∧ getReg off.toNat t = inc ∧
      onlyRegs [off.toNat] { usedBy .host u with pcieData := getReg off.toNat u } t)

/-! ### Assembler and dynamics solver -/

/-- R235, R494: enabling with a limit 0 gives FIELD_ZERO, with no model CFG_ERR, and otherwise the solver is enabled with
SOLVE restarting at 0; disabling with no solve in progress makes RUNNING 0 at once, and leaves a solve in progress and
RUNNING alone. R235: a write of 0 to DEADLINE or MAX_ITER while the solver is enabled is discarded with FIELD_ZERO; any
other write is kept. -/
def Obligations.SolverEnableAndLimits : Prop :=
  (∀ (w : Writer) (s : State), writesNow w s = true →
     (regBit Reg.SLV_CTL 31 s = false → regFld Reg.SLV_DEADLINE 23 0 s = 0 ∨ regFld Reg.SLV_MAX_ITER 9 0 s = 0 →
       ∃ t, exec (.solverEnable w) s = .next t ∧ regFld Reg.SLV_STAT 23 16 t = 0x01 ∧ regBit Reg.SLV_CTL 31 t = false ∧
         onlyRegs [Reg.SLV_STAT] (usedBy w s) t) ∧
     (regBit Reg.SLV_CTL 31 s = false → regFld Reg.SLV_DEADLINE 23 0 s ≠ 0 → regFld Reg.SLV_MAX_ITER 9 0 s ≠ 0 →
       s.slv.current = none → s.slv.pending = none →
       ∃ t, exec (.solverEnable w) s = .next t ∧ regBit Reg.SLV_STAT 4 t = true ∧ regBit Reg.SLV_CTL 31 t = false ∧
         onlyRegs [Reg.SLV_STAT] (usedBy w s) t) ∧
     (regBit Reg.SLV_CTL 31 s = false → regFld Reg.SLV_DEADLINE 23 0 s ≠ 0 → regFld Reg.SLV_MAX_ITER 9 0 s ≠ 0 →
       s.slv.current ≠ none ∨ s.slv.pending ≠ none →
       ∃ t, exec (.solverEnable w) s = .next t ∧ regBit Reg.SLV_CTL 31 t = true ∧ regBit Reg.SLV_STAT 30 t = true ∧
         regBit Reg.SLV_STAT 4 t = false ∧ regFld Reg.SLV_STAT 23 16 t = 0 ∧ t.slv.nextNum = 0 ∧
         onlySolver [Reg.SLV_CTL, Reg.SLV_STAT] (usedBy w s) t) ∧
     (∃ t, exec (.solverDisable w) s = .next t ∧ regBit Reg.SLV_CTL 31 t = false ∧ t.slv = s.slv ∧
       (s.slv.solve = none → regBit Reg.SLV_STAT 30 t = false) ∧
       (s.slv.solve ≠ none → getReg Reg.SLV_STAT t = getReg Reg.SLV_STAT s) ∧
       onlyRegs [Reg.SLV_CTL, Reg.SLV_STAT] (usedBy w s) t)) ∧
  (∀ (w : Writer) (m : Bool) (v : Word) (s : State), writesNow w s = true →
     let o := if m then Reg.SLV_MAX_ITER else Reg.SLV_DEADLINE
     let top := if m then 9 else 23
     (fld v top 0 = 0 ∧ regBit Reg.SLV_CTL 31 s = true →
       ∃ t, exec (.solverLimitWrite w m v) s = .next t ∧ regFld Reg.SLV_STAT 23 16 t = 0x01 ∧
         onlyRegs [Reg.SLV_STAT] (usedBy w s) t) ∧
     (fld v top 0 ≠ 0 ∨ regBit Reg.SLV_CTL 31 s = false →
       ∃ t, exec (.solverLimitWrite w m v) s = .next t ∧ regFld o top 0 t = fld v top 0 ∧ onlyRegs [o] (usedBy w s) t))

/-- How the load of the model image at `a` is judged (R214): ECC_UNCORR when a word of it is uncorrectable, unless its NJOINT is
0, which gives FIELD_ZERO; else the lowest-numbered reason that applies, as (CODE, REASON); none when it is accepted. -/
def modelVerdict (a : Word64) (s : State) : Option (Nat × Nat) :=
  let b := rdBytes .dram a.toNat (modelLen a s) s
  if leAt b 4 2 ≠ 0 ∧ marksIn .dram a.toNat (modelLen a s) true s ≠ [] then some (Code.eccUncorr, 0) else modelRefusal b

/-- R212, R215: a load started by SLV_MODEL_CMD or by LOAD_MODEL takes 1 µs and IMAGE_LEN, 68 + 128 × NJOINT bytes, at two bytes
a root cycle, with BUSY 1; while one is in progress another is turned away, and a write of SLV_MODEL_CMD with LOAD 0 does
nothing. R214, R215: whatever started it, when it ends the image's own verdict decides: REFUSED, CODE and REASON show it; a
refused image leaves both model slots and PENDING as they were, and an accepted one waits as PENDING from the instant at which
its load ended. LOAD_MODEL of the management port is then answered with the verdict. -/
def Obligations.ModelLoads : Prop :=
  (∀ (w : Writer) (v : Word) (s : State), writesNow w s = true →
    let a := reg64 Reg.SLV_MODEL_ADDR_LO Reg.SLV_MODEL_ADDR_HI s
    (bit v 0 = true → s.slv.loading = none →
      ∃ t, exec (.modelLoad w v) s = .next t ∧ regBit Reg.SLV_MODEL_STAT 31 t = true ∧
        t.slv.loading = some (a, now s + 4800 + (68 + 128 * leNat (rdBytes .dram (a.toNat + 4) 2 s) + 1) / 2, none) ∧
        t.slv = { s.slv with loading := t.slv.loading } ∧
        onlyRegs [Reg.SLV_MODEL_STAT] { usedBy w s with slv := t.slv } t) ∧
    (bit v 0 = true → s.slv.loading ≠ none →
      ∃ t, exec (.modelLoad w v) s = .next t ∧ t.slv = s.slv ∧ regsKept [Reg.MGT_EVT_LOST] s t ∧ memKept s t) ∧
    (bit v 0 = false → exec (.modelLoad w v) s = .next (usedBy w s))) ∧
  (∀ (i : Issue) (a : Word64) (s : State), mayIssue i Op.loadModel allowHPM s = true →
    (s.slv.loading = none →
      ∃ t, exec (.loadModel i a) s = .next t ∧ regBit Reg.SLV_MODEL_STAT 31 t = true ∧
        reg64 Reg.SLV_MODEL_ADDR_LO Reg.SLV_MODEL_ADDR_HI t = a ∧
        t.slv = { s.slv with loading := some (a,
            now s + 4800 + (68 + 128 * leNat (rdBytes .dram (a.toNat + 4) 2 s) + 1) / 2, some i) } ∧
        regsKept [Reg.SLV_MODEL_STAT, Reg.SLV_MODEL_ADDR_LO, Reg.SLV_MODEL_ADDR_HI, Reg.CMDQ_HEAD] s t ∧ memKept s t) ∧
    (s.slv.loading ≠ none → ∃ t, exec (.loadModel i a) s = .next t ∧ t.slv = s.slv)) ∧
  (∀ (a : Word64) (d : Nat) (q : Option Issue) (s : State), s.slv.loading = some (a, d, q) →
    let v := modelVerdict a s
    ∃ t, exec .modelLoadComplete s = .next t ∧ t.slv.loading = none ∧ t.slv.current = s.slv.current ∧
      now t = max (now s) d ∧ regBit Reg.SLV_MODEL_STAT 31 t = false ∧ regBit Reg.SLV_MODEL_STAT 28 t = v.isSome ∧
      regFld Reg.SLV_MODEL_STAT 23 16 t = (v.getD (0, 0)).1 ∧ regFld Reg.SLV_MODEL_STAT 7 0 t = (v.getD (0, 0)).2 ∧
      (v ≠ none → t.slv.pending = s.slv.pending ∧ regBit Reg.SLV_MODEL_STAT 30 t = regBit Reg.SLV_MODEL_STAT 30 s) ∧
      (v = none → t.slv.pending = some (parseModel (rdBytes .dram a.toNat (modelLen a s) s), d) ∧
        regBit Reg.SLV_MODEL_STAT 30 t = true) ∧
      (∀ sp x, sp ≠ .dram ∨ inLedger (memKey sp x) = false → rdByte sp x t = rdByte sp x s) ∧ (q = none → memKept s t ∧
          t.outbox = s.outbox) ∧
      (∀ i x, q = some i → i.via = .port → s.sess.port = some x →
        t.outbox = s.outbox ++ [.mgtDatagram (portCompletion .port x
          (cmplEntry i Op.loadModel (v.getD (0, 0)).1 (word (v.getD (0, 0)).2) []))]))

/-- R220, R216, R235: at a solve start of an enabled solver with a model in effect, none pending and no solve in progress, a
solve begins in phase 1 with the next SOLVE number, BUSY is 1, and no memory changes. The start lies on the grid of solver
periods from the day's start, at the first fabric cycle at or after the instant (R16, R344). R215: a model whose load ended before a solve start is in effect from it on, PENDING
clears, and no previous result stands. -/
def Obligations.SolveStartsWithTheModelInEffect : Prop :=
  (∀ (m : Model) (s : State), s.slv.solve = none → s.slv.current = some m → s.slv.pending = none →
     regBit Reg.SLV_CTL 31 s = true → 1 ≤ (getReg Reg.SOLVER_US s).toNat →
     ∃ t x, exec .solveStart s = .next t ∧ t.slv.solve = some x ∧ x.phase = 1 ∧ x.cycle = 0 ∧ x.number = s.slv.nextNum ∧
       x.input.model = m ∧ x.startRoot = now t ∧ t.slv.nextNum = s.slv.nextNum + 1 ∧ regBit Reg.SLV_STAT 31 t = true ∧
       (∃ k : Int, now t = dayAt (k * ((getReg Reg.SOLVER_US s).toNat * 4800 : Nat)) s) ∧ memKept s t) ∧
  (∀ (m : Model) (d : Nat) (s : State), s.slv.solve = none → s.slv.pending = some (m, d) → d < now s →
     ∃ t, exec .solveStart s = .next t ∧ t.slv.current = some m ∧ t.slv.pending = none ∧ t.slv.prevOk = false ∧
       regBit Reg.SLV_MODEL_STAT 30 t = false ∧ regBit Reg.SLV_MODEL_STAT 29 t = true)

/-- R220, R227: without an error, a phase of phases 1 to 5 that ends by the deadline ends after its fixed cycles and the
next phase begins there; DLS takes no time when NIK is 0. R224, R225, R226: an iteration that ends by the deadline counts in
ITER (and in PHASE1_ITER in phase 1) and takes ITER cycles; in phase 2 the iterate it leaves is the last feasible one. (That the
sum of the violations never rises in phase 1, and that a feasible iterate stays feasible, rest on log entry 156: a point that
fails either is not taken.) -/
def Obligations.SolvePhasesAndIterations : Prop :=
  (∀ (x : Solve) (s : State), s.slv.solve = some x → x.ending = .none → x.phase ∈ [1, 2, 3, 4, 5] →
     x.cycle + phaseCycles x.input x.phase ≤ x.deadline →
     ∃ t y, exec (.solvePhaseEnd none) s = .next t ∧ t.slv.solve = some y ∧
       now t = max (now s) (x.startRoot + 4 * (x.cycle + phaseCycles x.input x.phase)) ∧
       y.cycle = x.cycle + phaseCycles x.input x.phase ∧ y.input = x.input ∧
       y.work = valueOf (phaseWork x.input x.phase x.work) ∧ (x.phase = 1 → y.phase = 2) ∧ (x.phase = 2 → y.phase = 3) ∧
       (x.phase = 3 → y.phase = if taskNik x.input = 0 then 5 else 4) ∧ (x.phase = 4 → y.phase = 5) ∧
       (x.phase = 5 → y.x = (warmStart x.input x.work).map wordI ∧ y.phase ∈ [6, 7, 8]) ∧ memKept s t) ∧
  (∀ (x : Solve) (s : State), s.slv.solve = some x → x.ending = .none → x.phase = 6 ∨ x.phase = 7 →
     x.cycle + phaseCycles x.input x.phase ≤ x.deadline →
     ∃ t y, exec (.qpIterationEnd none) s = .next t ∧ t.slv.solve = some y ∧ y.iter = x.iter + 1 ∧
       y.phase1Iter = x.phase1Iter + (if x.phase = 6 then 1 else 0) ∧
       y.x = (valueOf (iterate x.input x.work (decide (x.phase = 6)) (intsOf x.x) x.working)).1.map wordI ∧
       (x.phase = 7 → y.feasible = some y.x) ∧
       (x.phase = 7 → feasibleAt x.input x.work.asm (intsOf x.x) = true →
         feasibleAt x.input x.work.asm (intsOf y.x) = true) ∧
       (x.phase = 6 → violationSum x.input x.work.asm (intsOf y.x) ≤ violationSum x.input x.work.asm (intsOf x.x)) ∧
           y.cycle = x.cycle + phaseCycles x.input x.phase ∧ memKept s t)

/-- R222: the pivots that a factorisation uses are above its floor or equal to it, and exactly the columns whose pivot was
at or below the floor are counted. -/
def Obligations.PivotsAtLeastFloor : Prop :=
  ∀ (i : SolveInput) (f n : Nat) (a : List (List Int)),
    let r := valueOf (ldl i f a n)
    (∀ d ∈ r.diag, (floorOf i f).toInt ≤ d) ∧ r.diag.length = n ∧
    (∀ j, j ∈ r.floored ↔ j < n ∧ valueOf (rawPivot i f a (valueOf (ldl i f a j)) j) ≤ (floorOf i f).toInt)

/-- R228, R229: a deadline inside a phase-2 iteration starts OUTPUT on the last feasible iterate with STATUS 2; inside an
earlier phase or a phase-1 iteration the solve is abandoned and commits a copy with STATUS 3, 120 cycles later. R231: an
uncorrectable error found at cycle `c` of a phase or an iteration abandons the solve at the end of that cycle, when that is
before the deadline, in its own cycle (log entry 79), or in OUTPUT; the copied record carries STALE and ECC_UNCORR with STATUS 6
and the error is counted. -/
def Obligations.SolvesCutShort : Prop :=
  (∀ (x : Solve) (s : State), s.slv.solve = some x → x.ending = .none → x.phase ≠ 8 →
     x.deadline < x.cycle + phaseCycles x.input x.phase →
     ∃ t y, exec .solveDeadline s = .next t ∧ t.slv.solve = some y ∧ y.iter = x.iter ∧ memKept s t ∧
       (x.phase = 7 → ∀ z, x.feasible = some z → y.x = z ∧ y.phase = 8 ∧ y.ending = .fresh 2 ∧
         y.commitAt = x.deadline + phaseCycles x.input 8) ∧
       (x.phase ≠ 7 → y.ending = .copied 0x0040 3 ∧ y.commitAt = x.deadline + 120)) ∧
  (∀ (x : Solve) (c : Nat) (s : State), s.slv.solve = some x → (∀ a b, x.ending ≠ .copied a b) →
     c < phaseCycles x.input x.phase → x.phase = 8 ∨ x.cycle + c + 1 ≤ x.deadline →
     getReg Reg.SLV_ECC_COUNT s ≠ 0xFFFFFFFF →
     ∃ t y, exec (if x.phase = 6 ∨ x.phase = 7 then .qpIterationEnd (some c) else .solvePhaseEnd (some c)) s = .next t ∧
         t.slv.solve = some y ∧ y.ending = .copied 0x0044 6 ∧
       y.commitAt = x.cycle + c + 1 + 120 ∧ getReg Reg.SLV_ECC_COUNT t = getReg Reg.SLV_ECC_COUNT s + 1)

/-- R234, R494: a solve that has left its phases commits one record at its commit instant, with its SOLVE number and the
tick of the commit; BUSY falls, SLV_SOLVE and SLV_LAST_CYCLES follow, and RUNNING falls when the solver was disabled. R229,
R230, R232: a copied record repeats the previous record's payload with its AGE plus 1, holding at 255; without a previous
record it is NO_PREVIOUS with INVALID. -/
def Obligations.SolveRecords : Prop :=
  (∀ (x : Solve) (s : State), s.slv.solve = some x → x.ending ≠ .none →
     ∃ t r, exec .solveCommit s = .next t ∧ t.slv.solve = none ∧
       now t = max (now s) (x.startRoot + 4 * x.commitAt) ∧ t.slv.records.head? = some (now t, r) ∧
       r.solve = x.number ∧ r.commitStamp = t.clk.tick ∧ getReg Reg.SLV_SOLVE t = x.number ∧
       getReg Reg.SLV_LAST_CYCLES t = word x.commitAt ∧ regBit Reg.SLV_STAT 31 t = false ∧
       (regBit Reg.SLV_CTL 31 s = false → regBit Reg.SLV_STAT 30 t = false) ∧
       (regBit Reg.SLV_CTL 31 s = true → regBit Reg.SLV_STAT 30 t = regBit Reg.SLV_STAT 30 s) ∧ memKept s t) ∧
  (∀ (x : Solve) (p : Record) (s : State), s.slv.solve = some x → x.ending = .copied 0x0040 3 →
     (s.slv.prevOk = true → s.slv.records.head?.map (·.2) = some p →
       ∃ t r, exec .solveCommit s = .next t ∧ t.slv.records.head? = some (now t, r) ∧ r.flags = 0x0040 ∧ r.status = 3 ∧
         r.age = min 255 (p.age + 1) ∧ r.axes = p.axes ∧ r.x = p.x ∧ r.frame = p.frame ∧ r.frameValid = p.frameValid ∧
         r.stamp = p.stamp ∧ r.sourceSolve = p.sourceSolve) ∧
     (s.slv.prevOk = false →
       ∃ t r, exec .solveCommit s = .next t ∧ t.slv.records.head? = some (now t, r) ∧ r.flags = 0x0010 ∧ r.status = 5 ∧
         r.age = 0 ∧ r.sourceSolve = x.number ∧ r.stamp = x.startTick ∧ r.frameValid = false))

/-- R233, R219: with the effective deadline, the end of OUTPUT and the 120 cycles of a copied record lie before the next
solve start, for every solver period of at least 125 µs and every model that a load accepts. A solve that begins has that
deadline, and one that its deadline cuts short commits in its own period. -/
def Obligations.SolveCommitsBeforeNextStart : Prop :=
  (∀ (i : SolveInput) (deadline : Nat), 125 ≤ i.periodUs → qpVars i ≤ 64 →
    effDeadline deadline i.periodUs + phaseCycles i 8 < 1200 * i.periodUs ∧
    effDeadline deadline i.periodUs + 120 < 1200 * i.periodUs) ∧
  (∀ (m : Model) (s : State), s.slv.solve = none → s.slv.current = some m → s.slv.pending = none →
    regBit Reg.SLV_CTL 31 s = true → 125 ≤ (getReg Reg.SOLVER_US s).toNat → m.ndof + m.nf ≤ 64 →
    ∃ t x, exec .solveStart s = .next t ∧ t.slv.solve = some x ∧ x.input.periodUs = (getReg Reg.SOLVER_US s).toNat ∧
      x.deadline + phaseCycles x.input 8 < 1200 * x.input.periodUs ∧ x.deadline + 120 < 1200 * x.input.periodUs) ∧
  (∀ (x : Solve) (s : State), s.slv.solve = some x → x.ending = .none → x.phase ≠ 8 →
    x.deadline < x.cycle + phaseCycles x.input x.phase →
    x.deadline + phaseCycles x.input 8 < 1200 * x.input.periodUs → x.deadline + 120 < 1200 * x.input.periodUs →
    ∃ t y, exec .solveDeadline s = .next t ∧ t.slv.solve = some y ∧ y.input = x.input ∧
      y.commitAt < 1200 * y.input.periodUs)

/-! ### Jobs, registration and loads -/

/-- R324, R328, R495, R306: a doorbell inside an open session sets the queue's tail, and is discarded and logged without a
session, or in a host session opened after a host loss; a fetch reads the next descriptor, which a reason of R316, R322 or
R495 refuses and which otherwise waits as a job, ready at once when every declared input is complete; an enabled standing
entry makes a job at its RELEASE_US of the day (R344). A doorbell is an access that keeps a maintenance session in use (R466). -/
def Obligations.JobsEnterTheDevice : Prop :=
  (∀ (q : Fin 8) (tail : Word) (s : State),
    (s.sess.host.isSome = true ∨ s.sess.maint.isSome = true →
      ¬(s.sess.host.isSome = true ∧ regBit Reg.DEV_STATUS 30 s = true) →
      ∃ t, exec (.jobDoorbell q tail) s = .next t ∧ getReg (Reg.JQq_TAIL q.val) t = tail ∧
        onlyRegs [Reg.JQq_TAIL q.val] (usedBy .host s) t) ∧
    (s.sess.host = none ∧ s.sess.maint = none ∨ s.sess.host.isSome = true ∧ regBit Reg.DEV_STATUS 30 s = true →
      exec (.jobDoorbell q tail) s = .next (logClosed (Reg.JQq_TAIL q.val) (usedBy .host s)))) ∧
  (∀ (q : Fin 8) (s : State),
    let r := getRing q.val s
    let head := regFld (Reg.JQq_STAT q.val) 15 0 s
    let d := parseJob (hostBytes (r.ring.toNat + 96 * head) 96 s)
    dispatcherUp s = true → regBit (Reg.JQq_STAT q.val) 31 s = true → r.size ≠ 0 → r.size ≤ 65535 →
    head ≠ (getReg (Reg.JQq_TAIL q.val) s).toNat % r.size → (∀ j ∈ s.disp.jobs, j.uid < s.disp.nextUid) →
    (descriptorReason d s = none →
      ∃ t j, exec (.jobFetch q) s = .next t ∧ t.disp.jobs.getLast? = some j ∧ j.uid = s.disp.nextUid ∧ j.desc = d ∧
        j.stage = .waiting ∧ j.queue = some q ∧
        j.readyAt = (if d.inputs.all (fun i => inputComplete j i s) then some (now s) else none) ∧
        regFld (Reg.JQq_STAT q.val) 15 0 t = (head + 1) % r.size) ∧
    (∀ n, descriptorReason d s = some n →
      ∃ t, exec (.jobFetch q) s = .next t ∧ t.disp.jobs = s.disp.jobs ∧
        getReg (Reg.JQq_DONE q.val) t = d.jobId.zeroExtend 32 ∧
        regFld (Reg.JQq_STAT q.val) 15 0 t = (head + 1) % r.size)) ∧
  (∀ (e : Fin 16) (s : State),
    let st := getStanding e.val s
    st.enabled = true → st.relDay ≠ some (getReg Reg.DAY_NUM s) → st.desc.releaseUs < (getReg Reg.DAY_US s).toNat →
    (∀ j ∈ s.disp.jobs, j.entry ≠ some e.val) →
    ∃ t j, exec (.standingRelease e) s = .next t ∧ now t = max (now s) (dayAt (st.desc.releaseUs * usRoot : Nat) s) ∧
      t.disp.jobs.getLast? = some j ∧ j.desc = st.desc ∧ j.client = st.client ∧ j.gen = st.gen ∧
      j.setNo = st.setNo ∧ j.entry = some e.val ∧ j.stage = .waiting)

/-- R306, R308, R309, R302, R62: a decision that dispatches a job holds its columns for it, shows it as their owner, notes the
dispatch instant, gives a first run of a standing entry the entry's present generation, and puts its load at the end of the
loader's queue. R58, R59, R63: the checks that the recorded header allows are made now, after a pending operating point has
been taken; a job that one of them refuses ends at the end of this fabric cycle, with its reason shown and its columns free. (The
instant of a dispatch in a cycle with a commit is log entry 15.) -/
def Obligations.DispatchHoldsColumns : Prop :=
  ∀ (j : Job) (s : State), dispatcherUp s = true → regBit Reg.MEM_POP 31 s = true → chooseJob s = some j →
    let u := takePoint s
    let check := (handleInfo j.desc.handle s).bind (fun i => dispatchCheck (dispatchedJob j [] s) i u)
    (check = none → j.desc.handle < 64 →
      ∃ t x, exec .jobDispatch s = .next t ∧ x ∈ t.disp.jobs ∧ x.uid = j.uid ∧ x.stage = .loading ∧ x.held = true ∧
        x.dispatchAt = dispatchInstant j s ∧ x.desc = j.desc ∧ t.disp.loads = s.disp.loads ++ [.load j.uid] ∧
        (∀ e, j.stage = .waiting → j.proof = none → j.entry = some e → (getStanding e s).setNo = j.setNo →
          x.gen = (getStanding e s).gen) ∧
        (∀ c ∈ jobCols j, colHeld c t = true ∧ regFld (Reg.FAB_COLn_OWNER c) 27 22 t = j.desc.handle ∧
          regFld (Reg.FAB_COLn_OWNER c) 15 0 t = j.desc.jobId.toNat) ∧
        (∀ c, c < 12 → c ∉ jobCols j → getReg (Reg.FAB_COLn_OWNER c) t = getReg (Reg.FAB_COLn_OWNER c) s) ∧
        memKeptButLedger s t) ∧
    (∀ c, check = some c →
      ∃ t, exec .jobDispatch s = .next t ∧ (∀ x ∈ t.disp.jobs, x.uid ≠ j.uid) ∧ (∀ k ∈ jobCols j, colHeld k t = false) ∧
        regFld Reg.FAB_LOAD_STAT 30 29 t = 3 ∧ regFld Reg.FAB_LOAD_STAT 28 24 t = c.reason ∧
        now t = fabricEdge (dispatchInstant j s + 1) u)

/-- R308, R312, R313: in service mode the job that a decision dispatches is ready, its columns are all free, no other ready
job that ranks ahead of it, by class and then by LEVEL, needs any of them, and none that could be dispatched as well goes
before it, by class, level, ready time and client. (That class goes before LEVEL is log entry 14; shares mode is not this
statement's.) -/
def Obligations.DispatchFollowsOrder : Prop :=
  ∀ (j : Job) (s : State), s.day.sharesMode = false → chooseJob s = some j →
    j ∈ s.disp.jobs ∧ isCandidate j s = true ∧ (∀ c ∈ jobCols j, colHeld c s = false) ∧
    (∀ x ∈ s.disp.jobs, isCandidate x s = true → shareCol x j = true →
        ¬ [jobClass x s, jobLevel x] < [jobClass j s, jobLevel j]) ∧
    (∀ x ∈ s.disp.jobs, mayDispatch x s = true →
      [jobClass j s, jobLevel j, j.readyAt.getD 0, j.client] ≤ [jobClass x s, jobLevel x, x.readyAt.getD 0, x.client])

/-- Whether a waiting or running job, or an enabled standing entry, names a handle. -/
def handleNamed (h : Nat) (s : State) : Prop :=
  (∃ j ∈ s.disp.jobs, j.desc.handle = h) ∨ ∃ e < 16, (getStanding e s).enabled = true ∧ (getStanding e s).desc.handle = h

/-- R64, R69: a retirement takes effect at once for a handle that no job and no enabled standing entry names (an entry counts
by log entry 16); otherwise the handle stays assigned until HANDLE_RETIRED finds that none names it. FAB_REG_CMD is served
only while BUSY is 0. R57, R60, R62, R491: on an idle loader a registration begins at once with BUSY 1 and, for an image that
is accepted, lasts as R491 says; when it ends, an accepted image has a handle that was free, recorded with its header and
address, and a refused one has none and its reason in FAB_LOAD_STAT. R106: a word that arrives with an uncorrectable error, from
memory or over the NoC, ends it there with ECC_UNCORR. -/
def Obligations.HandlesComeAndGo : Prop :=
  ((∀ (w : Writer) (h : BitVec 6) (i : HandleInfo) (s : State), writesNow w s = true → regBit Reg.FAB_LOAD_STAT 31 s = false →
     handleInfo h.toNat s = some i →
     ∃ t, exec (.regCmdRetire w h) s = .next t ∧ onlyRegs [] { usedBy w s with disp := t.disp } t ∧
       (∀ k, k ≠ h.toNat → handleInfo k t = handleInfo k s) ∧
       (¬handleNamed h.toNat s → handleInfo h.toNat t = none) ∧
       (handleNamed h.toNat s → handleInfo h.toNat t = some { i with retiring := true })) ∧
   (∀ (q : Issue) (h : BitVec 8) (i : HandleInfo) (s : State), mayIssue q Op.retire allowHPM s = true →
     handleInfo h.toNat s = some i →
     ∃ t, exec (.retire q h) s = .next t ∧ (∀ k, k ≠ h.toNat → handleInfo k t = handleInfo k s) ∧
       t.disp.jobs = s.disp.jobs ∧
       (¬handleNamed h.toNat s → handleInfo h.toNat t = none) ∧
       (handleNamed h.toNat s → handleInfo h.toNat t = some { i with retiring := true })) ∧
   (∀ (h : Fin 64) (i : HandleInfo) (s : State), handleInfo h.val s = some i → i.retiring = true →
     ¬handleNamed h.val s →
     ∃ t, exec (.handleRetired h) s = .next t ∧ handleInfo h.val t = none ∧
       (∀ k, k ≠ h.val → handleInfo k t = handleInfo k s) ∧ onlyRegs [] { s with disp := t.disp } t)) ∧
  ((∀ (w : Writer) (s : State), writesNow w s = true → regBit Reg.FAB_LOAD_STAT 31 s = false → s.disp.active = none →
     s.disp.loads = [] →
     let a := reg64 Reg.FAB_REG_ADDR_LO Reg.FAB_REG_ADDR_HI s
     ∃ t d, exec (.regCmdRegister w) s = .next t ∧ t.disp.active = some (.registration a none, now s, d) ∧ now s ≤ d ∧
       (∀ im, judge a.toNat s = .accepted im → d = now s + streamRoot im.hdr.imageLen + 4 * checkCycles im s) ∧
       regBit Reg.FAB_LOAD_STAT 31 t = true ∧ memKept s t) ∧
   (∀ (i : Issue) (a : Word64) (s : State), mayIssue i Op.register allowHPM s = true → s.disp.active = none → s.disp.loads = [] →
     ∃ t d, exec (.register i a) s = .next t ∧ t.disp.active = some (.registration a (some i), now s, d) ∧ now s ≤ d ∧
       regBit Reg.FAB_LOAD_STAT 31 t = true ∧ memKept s t) ∧
   (∀ (a : Word64) (b d : Nat) (s : State), s.disp.active = some (.registration a none, b, d) →
     let judged := judgeStream s.flits.bad a.toNat s
     ∃ t, exec .registrationComplete s = .next t ∧ t.flits = ⟨0, none⟩ ∧
       ((∀ o, judged ≠ .ecc o) → now t = max (now s) d) ∧
       (∀ im, judged = .accepted im → freeHandles s ≠ [] →
         ∃ h i, handleInfo h s = none ∧ h < 64 ∧ handleInfo h t = some i ∧ i.hdr = im.hdr ∧ i.addr = a ∧
           regFld Reg.FAB_LOAD_STAT 29 24 t = 0 ∧ regFld Reg.FAB_LOAD_STAT 5 0 t = h) ∧
       (∀ n c, judged = .refused n c → c.reason < 32 → c.code < 256 →
         t.disp.handles = s.disp.handles ∧ regFld Reg.FAB_LOAD_STAT 29 29 t = 1 ∧
           regFld Reg.FAB_LOAD_STAT 28 24 t = c.reason ∧ regFld Reg.FAB_LOAD_STAT 23 16 t = c.code) ∧
       (∀ o, judged = .ecc o → t.disp.handles = s.disp.handles ∧ regFld Reg.FAB_LOAD_STAT 23 16 t = 0x03 ∧
         now t = max (now s) (b + streamRoot (o + 8)))))

/-- R58, R59, R62, R66: the load at the head of the queue occupies an idle loader for 1.5 µs and the image and state at 8 bytes
a root cycle. A good image starts the job at the next fabric cycle; one that differs from the registered header is refused at
the end of the fabric cycle in which that is found, its job ends and its columns are free. (No flit arrives uncorrectable in a
good load; the words before a refusal may.) -/
def Obligations.LoadsRun : Prop :=
  (∀ (uid : Nat) (r : List LoadReq) (j : Job) (i : HandleInfo) (s : State), s.disp.active = none →
    s.disp.loads = .load uid :: r → getJob uid s = some j → handleInfo j.desc.handle s = some i →
    ∃ t, exec .loadStart s = .next t ∧ t.disp.loads = r ∧ regBit Reg.FAB_LOAD_STAT 31 t = true ∧
      t.disp.active = some (.load uid, now s,
        now s + (7200 + (i.hdr.imageLen + (if i.hdr.schedLen = 0 then 0 else i.stateLen) + 7) / 8)) ∧
      onlyRegs [Reg.FAB_LOAD_STAT] { s with disp := t.disp } t) ∧
  (∀ (uid began done : Nat) (j : Job) (i : HandleInfo) (s : State), s.disp.active = some (.load uid, began, done) →
    getJob uid s = some j → handleInfo j.desc.handle s = some i →
    (∀ b, streamImage i s = .good b → s.marks = [] → s.flits.bad = none → isRingJob j = false →
      (parseImage b).hdr.schedLen ≠ 0 →
      ∃ t x run, exec .loadComplete s = .next t ∧ x ∈ t.disp.jobs ∧ x.uid = uid ∧ x.stage = .running ∧
        x.run = some run ∧ run.image = parseImage b ∧ now t = max (now s) done ∧ now t ≤ run.cycle0 ∧
        run.cycle0 < now t + fcRoot s ∧ run.cycle0 % fcRoot s = 0) ∧
    (∀ c n, streamWith s.flits.bad i s = .refused c n → ∃ t, exec .loadComplete s = .next t ∧
        (∀ x ∈ t.disp.jobs, x.uid ≠ uid) ∧
      (j.held = true → ∀ k ∈ jobCols j, colHeld k t = false) ∧ regFld Reg.FAB_LOAD_STAT 30 29 t = 3 ∧
      regFld Reg.FAB_LOAD_STAT 28 24 t = c.reason ∧ now t = fabricEdge (max (now s) (began + streamRoot n)) s))

/-! ### A partition's schedule -/

/-- The state in which an instance of a partition's schedule begins: its cycle has come, and everything of the partition that
is done at that cycle stands (R34, R137). -/
def stoodAt (col : Nat) (x : Instance) (s : State) : State := settle col x.cycle (atCycle x.run x.cycle s)

/-- No byte of a bank range is noted as written in one of the last fabric cycles (R95, R96). -/
def quietBank (tile bank addr n : Nat) (s : State) : Prop := ∀ e ∈ s.bankLog, ∀ i < n, e.1 ≠ bankKey tile bank (addr + i)

/-- R48, R52, R101, R304, R305, R487, R492: a plain COPY_IN, COPY_OUT or COMMIT instance begins at its partition cycle and
flies with the bytes of its source, to land at its destination; one of LENGTH 0 moves nothing. Memory is unchanged until the
copy is complete. R36, R105, R492: a copy that is complete has landed, byte by byte, no earlier than its shares of the NoC and
of its side allow, and its partition no longer waits for it; one of a weight block whose CRC-32C or length disagrees is counted
and ends the job; a copy that is due and has not completed holds the partition from its due cycle on. (That the source bytes
are taken at the begin and the destination is written at the completion is log entry 38.) -/
def Obligations.CopiesRun : Prop :=
  ((∀ (col : Fin 12) (rec inst : Nat) (x0 x : Instance) (d : Desc) (sp : Space) (b : Nat) (s : State),
     instanceOf 1 col.val rec inst s = some x0 →
     let u := stoodAt col.val x0 s
     instanceOf 1 col.val rec inst u = some x → u.marks = [] → descOf x.run.image x.rec_ = some d → d.dtype = 1 →
     let c := parseCopy d
     let n := align8 x.rec_.length
     n ≠ 0 → c.weight = false → (extBase x.job c.extKind x.rec_.buf u).1 = .at_ sp b →
     ∃ t y r f, exec (.copyIn col rec inst) s = .next t ∧ runAt col.val t = some (y, r) ∧ y.uid = x.job.uid ∧
       (rec, inst) ∈ r.begun ∧ r.copies = x.run.copies ++ [f] ∧ f.rec_ = rec ∧ f.inst = inst ∧
       f.dueCycle = x.cycle + x.rec_.due ∧
       f.pieces = [.bank (absTile x.job x.rec_.tile) c.bank (c.bankAddr + c.bankStep * inst)
         (rdBytes sp (extAt sp b (c.extAddr + align8 x.rec_.step * inst)) n u)] ∧
       now t = now u ∧ memKept u t) ∧
   (∀ (commit : Bool) (col : Fin 12) (rec inst : Nat) (x0 x : Instance) (d : Desc) (sp : Space) (b : Nat) (s : State),
     let act := if commit then 5 else 2
     instanceOf act col.val rec inst s = some x0 →
     let u := stoodAt col.val x0 s
     instanceOf act col.val rec inst u = some x → u.marks = [] → getJob x.job.uid u = some x.job →
     descOf x.run.image x.rec_ = some d → d.dtype = 1 →
     let c := parseCopy d
     let n := align8 x.rec_.length
     n ≠ 0 → (extBase x.job c.extKind x.rec_.buf u).1 = .at_ sp b → (lockedOut x.job.uid c.extKind x.rec_.buf u).1 = false →
     ∃ t y r f, exec (if commit then .commit col rec inst else .copyOut col rec inst) s = .next t ∧
       runAt col.val t = some (y, r) ∧ y.uid = x.job.uid ∧ (rec, inst) ∈ r.begun ∧ r.copies = x.run.copies ++ [f] ∧
       f.rec_ = rec ∧ f.inst = inst ∧ f.dueCycle = x.cycle + x.rec_.due ∧
       f.pieces = [.ext sp (extAt sp b (c.extAddr + align8 x.rec_.step * inst))
         (bankRead (absTile x.job x.rec_.tile) c.bank (c.bankAddr + c.bankStep * inst) n u).1.bytes] ∧
       now t = now u ∧ memKept u t) ∧
   (∀ (col : Fin 12) (rec inst : Nat) (x0 x : Instance) (s : State), instanceOf 1 col.val rec inst s = some x0 →
     let u := stoodAt col.val x0 s
     instanceOf 1 col.val rec inst u = some x → align8 x.rec_.length = 0 →
     ∃ t y r, exec (.copyIn col rec inst) s = .next t ∧ runAt col.val t = some (y, r) ∧ (rec, inst) ∈ r.begun ∧
       r.copies = x.run.copies ∧ now t = now u ∧ memKept u t)) ∧
  ((∀ (col : Fin 12) (rec inst fixed : Nat) (j : Job) (r : Run) (f : Flight) (tl bk a : Nat) (bs : List Byte) (s : State),
     runAt col.val s = some (j, r) → r.copies.find? (fun f => f.rec_ = rec && f.inst = inst) = some f → f.ring = none →
     f.weight ≠ some false → f.pieces = [.bank tl bk a bs] → bs.length ≤ bankSize bk → quietBank tl bk a bs.length s →
     ∃ t y q, exec (.copyComplete col rec ⟨inst, fixed, false⟩) s = .next t ∧ runAt col.val t = some (y, q) ∧ y.uid = j.uid ∧
       q.copies = r.copies.erase f ∧ now t = max (now s) (max f.tileDone f.sideDone) ∧
       getReg Reg.MEM_CE_COUNT t = countUp (getReg Reg.MEM_CE_COUNT s) fixed ∧
       (∀ i (h : i < bs.length), rdByte .bank (bankKey tl bk (a + i)) t = bs[i]) ∧
       (∀ k, (∀ i < bs.length, k ≠ bankKey tl bk (a + i)) → rdByte .bank k t = rdByte .bank k s) ∧
       (∀ sp k, sp ≠ .bank → rdByte sp k t = rdByte sp k s)) ∧
   (∀ (col : Fin 12) (rec inst : Nat) (j : Job) (r : Run) (f : Flight) (s : State),
     runAt col.val s = some (j, r) → r.copies.find? (fun f => f.rec_ = rec && f.inst = inst) = some f → f.ring = none →
     f.weight = some false → getReg Reg.MEM_CRCW_COUNT s ≠ 0xFFFFFFFF → isRingJob j = false → j.proof = none →
     ∃ t, exec (.copyComplete col rec ⟨inst, 0, false⟩) s = .next t ∧ runAt col.val t ≠ some (j, r) ∧
       getReg Reg.MEM_CRCW_COUNT t = getReg Reg.MEM_CRCW_COUNT s + 1 ∧
       (∀ x ∈ t.disp.jobs, x.uid = j.uid → x.stage = .restart ∧ x.held = false)) ∧
   (∀ (col : Fin 12) (rec inst : Nat) (j : Job) (r : Run) (f : Flight) (s : State),
     runAt col.val s = some (j, r) → r.copies = [f] → f.rec_ = rec → f.inst = inst → r.heldFrom = none →
     ∃ t y q, exec (.copyDue col rec inst) s = .next t ∧ runAt col.val t = some (y, q) ∧
       now t = max (now s) (cycleAt r f.dueCycle s) ∧ q.heldFrom = some (now t) ∧ heldBefore q f.dueCycle = true ∧
       memKept s t))

/-- R34, R488, R126, R137: a SEND puts the words of its buffer on its route, each available L cycles after it leaves; the
word that is available first is written into its destination buffer at that cycle; an operator instance runs from its cycle,
or from the end of the one before it on its tile, for its duration, and its result stands in the banks at its end. (That a SEND
takes its words at its begin is log entry 38, that operands are read and results written at a stage's end 39, the port of a
route's write 140, and the cycle of a bank write 160.) -/
def Obligations.RoutesAndStages : Prop :=
  (∀ (col : Fin 12) (rec inst : Nat) (x0 x : Instance) (r : RouteRec) (src dst : CopyDesc) (s : State),
    instanceOf 3 col.val rec inst s = some x0 →
    let u := stoodAt col.val x0 s
    instanceOf 3 col.val rec inst u = some x → u.marks = [] → (routesOf x.run.image x.rec_).head? = some r →
    bufferOf x.run.image r.srcTile r.srcBuf = some src → bufferOf x.run.image r.dstTile r.dstBuf = some dst →
    r.dstTile < 8 * x.job.width →
    let n := align8 x.rec_.length
    let bytes := (bankRead (absTile x.job r.srcTile) src.bank (src.bankAddr + src.bankStep * inst) n u).1.bytes
    ∃ t y q ws, exec (.send col rec inst) s = .next t ∧ runAt col.val t = some (y, q) ∧ q.words = x.run.words ++ ws ∧
      ws.length = n / 8 ∧ now t = now u ∧ memKept u t ∧
      (∀ k (h : k < ws.length), (ws[k]).cycle = x.cycle + k / r.width + r.latency ∧
        (ws[k]).addr = dst.bankAddr + align8 x.rec_.step * inst + 8 * k ∧ (ws[k]).tile = absTile x.job r.dstTile ∧
        (ws[k]).bank = dst.bank ∧ (ws[k]).data = slice bytes (8 * k) 8)) ∧
  (∀ (col : Fin 12) (j : Job) (r : Run) (w : WordFlight) (s : State), runAt col.val s = some (j, r) →
    firstWord r.words = some w → heldBefore r w.cycle = false → w.data.length = 8 → quietBank w.tile w.bank w.addr 8 s →
    ∃ t y q, exec (.routeDelivery col) s = .next t ∧ runAt col.val t = some (y, q) ∧ q.words = r.words.erase w ∧
      now t = max (now s) (cycleAt r w.cycle s) ∧ bankBytes w.tile w.bank w.addr 8 t = w.data) ∧
  (∀ (col : Fin 12) (rec inst : Nat) (x0 x : Instance) (d : Desc) (tr : TileRec) (s : State),
    instanceOf 4 col.val rec inst s = some x0 →
    let u := stoodAt col.val x0 s
    instanceOf 4 col.val rec inst u = some x → descOf x.run.image x.rec_ = some d →
    tileRec x.run.image x.rec_.tile = some tr → d.dtype ≠ 0x20 ∨ inst ≠ 0 →
    ∃ t y q o, exec (.stageStart col rec inst) s = .next t ∧ runAt col.val t = some (y, q) ∧ q.ops = x.run.ops ++ [o] ∧
      o.tile = x.rec_.tile ∧ o.rec_ = rec ∧ o.inst = inst ∧ now t = now u ∧ memKept u t ∧
      (let busy := (x.run.ops.filter (fun p => p.tile = x.rec_.tile)).map (·.endCycle)
       let dur := opCycles d tr.arrayFmt inst (decide (inst + 1 = x.rec_.repeat_))
       (busy = [] → o.endCycle = x.cycle + dur) ∧ (∀ e ∈ busy, e + dur ≤ o.endCycle))) ∧
  (∀ (col : Fin 12) (tile : Nat) (j : Job) (r : Run) (o : OpFlight) (x : SchedRec) (tr : TileRec) (d : Desc) (s : State),
    s.marks = [] → runAt col.val s = some (j, r) → firstOp r.ops (fun o => o.tile = tile) = some o →
    heldBefore r o.endCycle = false → (∀ w ∈ r.words, o.endCycle < w.cycle) →
    r.image.sched[o.rec_]? = some x → tileRec r.image tile = some tr → descOf r.image x = some d →
    let u := atCycle r o.endCycle s
    let c := cycleBefore (now u) u
    let vs := ((r.visible.find? (fun v => v.1 = o.rec_)).map (·.2)).getD []
    let res := runOp d ⟨absTile j tile, tr.arrayFmt, truncOf tr.arithCtl⟩ o.inst x.step vs (decide (o.inst + 1 = x.repeat_))
      (bankView c u)
    res.fail = none →
    ∃ t y q, exec (.stageEnd col tile) s = .next t ∧ runAt col.val t = some (y, q) ∧ q.ops = r.ops.erase o ∧
      q.sat = r.sat + res.sat ∧ t.banks = (putResults c (opPort d) (absTile j tile) res.puts u).banks ∧
      now t = max (now s) (cycleAt r o.endCycle s))

/-- R37, R55, R66, R92, R100, R302, R317: a job whose schedule has run and whose outward copies are complete saves its state
to its other generation; the partition is released when that has left the banks; a job without checks then ends normally, its
handoff outputs flip unless their back slot was locked when the job met them, its saturation events are added, the generation
of the entry that made it swaps and it leaves the device. (That the outputs are the records of KIND 2 is log entry 17; that the
state words are all written at the release is 37. No flit of the save arrives uncorrectable.) -/
def Obligations.JobsEnd : Prop :=
  (∀ (col : Fin 12) (j k : Job) (r q : Run) (s : State), endingAt col.val s = some (j, r) →
    let ended := atCycle r r.image.hdr.schedLen s
    let u := if j.width = 0 then ended else settle col.val r.image.hdr.schedLen ended
    getJob j.uid u = some k → k.stage = .running → k.run = some q →
    ∃ t x, exec (.jobLastCycle col) s = .next t ∧ x ∈ t.disp.jobs ∧ x.uid = j.uid ∧ x.stage = .saving ∧
      x.held = k.held ∧ now t = now u ∧ memKept u t ∧
      (let last := fabricEdge (now u + 1) u
       x.endAt = last ∧ x.run = some { q with
         saveAt := fabricEdge (last + (((savedStates k q).map (·.len)).sum + 7) / 8) u })) ∧
  (∀ (col : Fin 12) (j : Job) (r : Run) (s : State), s.marks = [] → s.flits.bad = none → savingAt col.val s = some j →
    j.held = true → j.run = some r →
    ∃ t, exec (.partitionRelease col) s = .next t ∧ now t = max (now s) r.saveAt ∧
      (∀ c ∈ jobCols j, colHeld c t = false) ∧
      (∀ sr, savedStates j r = [sr] → sr.len ≤ bankSize sr.bank → ∀ i < sr.len,
        let a := (saveBase j + sr.save + i) % 2 ^ 64
        dramHas a s = true → inLedger a = false →
        rdByte .dram a t = (bankRead (8 * col.val + sr.tile) sr.bank sr.base sr.len s).1.bytes.getD i 0)) ∧
  (∀ (col : Fin 12) (j : Job) (r : Run) (s : State), s.marks = [] → s.flits.bad = none → savingAt col.val s = some j →
    getJob j.uid s = some j → j.held = true → j.run = some r → j.proof = none → isRingJob j = false →
    (∀ x ∈ s.saf.runs, x.uid ≠ j.uid) →
    ∃ t, exec (.jobEnd col) s = .next t ∧ now t = max (now s) r.saveAt ∧ (∀ x ∈ t.disp.jobs, x.uid ≠ j.uid) ∧
      (∀ h ∈ outputsOf j s, (decideOut j.uid h s).1 = false →
        (getHandoff (fabricKey h) t).commits = (getHandoff (fabricKey h) s).commits + 1 ∧
        (getHandoff (fabricKey h) t).front = !(getHandoff (fabricKey h) s).front) ∧
      (∀ e, j.entry = some e → (getStanding e s).setNo = j.setNo → (getStanding e t).gen = !j.gen) ∧
      getReg (Reg.FAB_COLn_SAT col.val) t = countUp (getReg (Reg.FAB_COLn_SAT col.val) s) r.sat)

/-! ### Memory -/

/-- No write of a bank byte is noted as later than the present fabric cycle, or as of a port that R95 does not have. -/
def notesPast (s : State) : Prop :=
  ∀ e ∈ s.bankLog, ∀ n, e.2 = some n → n.cycle ≤ fabricCycle (now s) s ∧ n.port ≤ Port.window

/-- R115, R3: inside a maintenance session a window access to a tile bank whose column is held returns 0, discards a write and
sets BLOCKED; one to an unmapped byte does the same and sets UNMAPPED; an uncorrectable read returns 0 and is captured in
MEM_ERR_INFO. A good access reads the four bytes of its word as this fabric cycle serves them, or writes them, and no other
byte; an access of another width or alignment reads 0 and is discarded. -/
def Obligations.HostWindow : Prop :=
  ∀ (off : BitVec 24) (w : Width) (s : State), s.sess.maint.isSome = true →
   let a := off.toNat
   (w ≠ .w32 ∨ a % 4 ≠ 0 →
     exec (.windowAccess off ⟨w, none⟩) s = .next { usedBy .host s with pcieData := 0 } ∧
     ∀ v, exec (.windowAccess off ⟨w, some v⟩) s = .next (usedBy .host s)) ∧
   (w = .w32 → a % 4 = 0 →
    (winTarget a s = .held →
      ∃ t u, exec (.windowAccess off ⟨w, none⟩) s = .next t ∧ t.pcieData = 0 ∧ regBit Reg.MEM_WIN_STAT 1 t = true ∧ memKept s t ∧
        (∀ v, exec (.windowAccess off ⟨w, some v⟩) s = .next u) ∧ regBit Reg.MEM_WIN_STAT 1 u = true ∧
        onlyRegs [Reg.MEM_WIN_STAT] (usedBy .host s) u) ∧
    (winTarget a s = .unmapped →
      ∃ t u, exec (.windowAccess off ⟨w, none⟩) s = .next t ∧ t.pcieData = 0 ∧ regBit Reg.MEM_WIN_STAT 0 t = true ∧ memKept s t ∧
        (∀ v, exec (.windowAccess off ⟨w, some v⟩) s = .next u) ∧ regBit Reg.MEM_WIN_STAT 0 u = true ∧
        onlyRegs [Reg.MEM_WIN_STAT] (usedBy .host s) u) ∧
    (∀ sp k, winTarget a s = .at_ sp k →
      (marksIn sp k 4 true s ≠ [] →
        ∃ t, exec (.windowAccess off ⟨w, none⟩) s = .next t ∧ t.pcieData = 0 ∧ regBit Reg.MEM_ERR_INFO 31 t = true ∧
          (regBit Reg.MEM_ERR_INFO 31 s = false → regFld Reg.MEM_ERR_INFO 23 16 t = 0x03) ∧ memKept s t) ∧
      (marksIn sp k 4 true s = [] →
        ∃ t, exec (.windowAccess off ⟨w, none⟩) s = .next t ∧ memKept s t ∧ t.pcieData = word (leNat (windowBytes sp k s)) ∧
          (sp ≠ .bank ∨ s.bankLog = [] → t.pcieData =
            word (leNat [rdByte sp k s, rdByte sp (k + 1) s, rdByte sp (k + 2) s, rdByte sp (k + 3) s]))) ∧
      (∀ v, notesPast s → ∃ t, exec (.windowAccess off ⟨w, some v⟩) s = .next t ∧ rdBytes sp k 4 t = wordBytes v ∧
        (∀ sp' b, sp' ≠ sp ∨ b < k ∨ k + 4 ≤ b → b < 2 ^ 23 ∨ sp' ≠ .stage → rdByte sp' b t = rdByte sp' b s))))

/-- R445, R111, R112, R484: when the training of a started memory ends on a population that R111 allows, MEM_POP, MEM_USABLE
and MEM_REGION_B show it and the boot goes on; one that R111 does not allow leaves MEM_POP alone, the memory domains off and
the boot in its failed stage. R114: a refresh of a trained channel changes no stored data, and leaves every error mark but the
corrected single-bit ones of the granule that it scrubs; its slot lasts from the refresh's start, and a hot channel shows in
MEM_REF_STAT. (Its instant, which upsets and flit errors it brings and in which order it scrubs are the model's choices, log entries 24,
154 and 155.) -/
def Obligations.MemoryTrainsAndRefreshes : Prop :=
  (∀ (caps : List Nat) (at_ : Nat) (s : State), s.pwr.trainAt = some at_ →
     (populationOk caps = true →
       ∃ t, exec (.memTrainingComplete caps) s = .next t ∧ now t = max (now s) at_ ∧ regBit Reg.MEM_POP 31 t = true ∧
         regFld Reg.MEM_POP 3 0 t = caps.getD 0 0 ∧ regFld Reg.MEM_POP 7 4 t = caps.getD 8 0 ∧
         regFld Reg.MEM_POP 11 8 t = caps.getD 16 0 ∧
         (let a := 24 * 512 * (caps.min?.getD 0 * 2 ^ 30 / 576)
          let total := (caps.map (fun c => 512 * (c * 2 ^ 30 / 576))).sum
          (getReg Reg.MEM_USABLE t).toNat = total / 2 ^ 20 ∧
          (getReg Reg.MEM_REGION_B t).toNat = if total = a then 0 else a / 2 ^ 20) ∧
         regFld Reg.PWR_BOOT_STAT 31 28 t = 6) ∧
     (populationOk caps = false →
       ∃ t, exec (.memTrainingComplete caps) s = .next t ∧ getReg Reg.MEM_POP t = getReg Reg.MEM_POP s ∧
         regFld Reg.PWR_DOM_STAT0 23 21 t = 0 ∧ regFld Reg.PWR_BOOT_STAT 31 28 t = 7 ∧ memKept s t)) ∧
  (∀ (c : Fin 24) (hot : Bool) (ups : List EccMark) (fl : FlitErrors) (s : State), regBit Reg.MEM_POP 31 s = true →
     let ms := (upset ups s).marks
     let a := granuleAddr c.val (tget (fun _ => 0) s.scrub c.val) (getReg Reg.MEM_POP s)
     ∃ t, exec (.refresh ⟨c, hot, ups, fl⟩) s = .next t ∧ t.flits = fl ∧ memKept s t ∧ now t = refreshAt c s ∧ now s < now t ∧
       tget (fun _ => 0) t.refresh c.val = now t + slotRoot (channelCap c (getReg Reg.MEM_POP s)) ∧
       regBit Reg.MEM_REF_STAT c t = hot ∧ (ups = [] → ms = s.marks) ∧ (∀ m ∈ t.marks, m ∈ ms) ∧
       (∀ m ∈ ms, m.double = true ∨ m.space ≠ .dram ∨ 8 * m.word < a ∨ a + 512 ≤ 8 * m.word → m ∈ t.marks) ∧
       (∀ m ∈ t.marks, m.space = .dram → m.double = false → 8 * m.word < a ∨ a + 512 ≤ 8 * m.word))

/-- R112, R113, R484: under a population that R111 allows, the granules of all channels lie at distinct addresses, multiples of
512, and together are the data addresses below the capacity: each lies below it, and each data address lies in one. (How region B
goes on once the smaller of its groups is used up is the model's choice, log entry 149.) -/
def Obligations.GranulesTileTheAddressSpace : Prop :=
  ∀ g0 g1 g2 : Nat, 1 ≤ g0 → g0 ≤ 3 → 1 ≤ g1 → g1 ≤ 3 → 1 ≤ g2 → g2 ≤ 3 →
    let pop := word (2 ^ 31 + g2 * 2 ^ 8 + g1 * 2 ^ 4 + g0)
    (∀ c k, c < 24 → k < granules (channelCap c pop) →
      granuleAddr c k pop % 512 = 0 ∧ granuleAddr c k pop + 512 ≤ dataCapacity pop) ∧
    (∀ a < dataCapacity pop, ∃ c k, c < 24 ∧ k < granules (channelCap c pop) ∧
      granuleAddr c k pop ≤ a ∧ a < granuleAddr c k pop + 512) ∧
    (∀ c k c' k', c < 24 → c' < 24 → k < granules (channelCap c pop) → k' < granules (channelCap c' pop) →
      granuleAddr c k pop = granuleAddr c' k' pop → c = c' ∧ k = k')

/-! ### The Postbox, the day and the host -/

/-- R311, R310, R332, R15, R312: an accepted SET_DAY or SET_MODE waits, with nothing in effect changed, and takes effect at
the next day boundary outside reset, DAY_US after the last one (R344), when R15 holds there with the servo period and on every
other device of the ring (log entry 166); a refused one changes no setting. The slot starts SLOT_US before the day's end and notes the jobs that are ready. R14, R63, R366: a request
of a point shows it as PENDING when it differs from the point in effect, and the value 0b11 is ignored; a pending point takes
effect at a day boundary at which no job holds a partition on any device of the ring (log entry 166), and waits otherwise. -/
def Obligations.DaySettingsAndOperatingPoint : Prop :=
  ((∀ (i : Issue) (d l v : Word) (s : State), mayIssue i Op.setDay allowPM s = true → notMaster s = false →
     (l ≠ 0 → dayOk d.toNat v.toNat (nextPeriod s) = true → l.toNat ≤ d.toNat / 2 →
       ∃ t, exec (.setDay i d l v) s = .next t ∧ t.day = { s.day with pending := some ⟨d.toNat, l.toNat, v.toNat⟩ } ∧
         getReg Reg.DAY_US t = getReg Reg.DAY_US s ∧ getReg Reg.SLOT_US t = getReg Reg.SLOT_US s ∧
         getReg Reg.SOLVER_US t = getReg Reg.SOLVER_US s) ∧
     (l = 0 ∨ dayOk d.toNat v.toNat (nextPeriod s) = false ∨ d.toNat / 2 < l.toNat →
       ∃ t, exec (.setDay i d l v) s = .next t ∧ t.day = s.day)) ∧
   (∀ (i : Issue) (m : BitVec 8) (sh : List Byte) (s : State), mayIssue i Op.setMode allowPM s = true → m.toNat ≤ 1 →
       sh.length = 16 →
     ((∀ b ∈ sh, b ≠ 0) → ∃ t, exec (.setMode i m sh) s = .next t ∧ t.day = { s.day with pendMode := some (m.toNat = 1, sh) }) ∧
     ((∃ b ∈ sh, b = 0) → ∃ t, exec (.setMode i m sh) s = .next t ∧ t.day = s.day)) ∧
   (∀ s : State, deviceReset s = false → ∃ t, exec .dayBoundary s = .next t ∧ getReg Reg.DAY_NUM t = getReg Reg.DAY_NUM s + 1 ∧
     t.day.start = s.day.start + ((getReg Reg.DAY_US s).toNat * usRoot : Nat) ∧
     now t = max (now s) (dayAt ((getReg Reg.DAY_US s).toNat * usRoot : Nat) s) ∧
     t.day.inSlot = false ∧ regBit Reg.DEV_STATUS 28 t = false ∧ t.day.pendMode = none ∧
     (∀ d, s.day.pending = some d → dayOk d.dayUs d.solverUs (nextPeriod s) = true → d.slotUs ≤ d.dayUs / 2 →
       othersMeet 0 { s with day := { s.day with start := t.day.start } } = true →
       t.day.pending = none ∧ getReg Reg.DAY_US t = word d.dayUs ∧ getReg Reg.SLOT_US t = word d.slotUs ∧
       getReg Reg.SOLVER_US t = word d.solverUs) ∧
     (s.day.pending = none → getReg Reg.DAY_US t = getReg Reg.DAY_US s) ∧
     (∀ m sh, s.day.pendMode = some (m, sh) → t.day.sharesMode = m ∧ t.day.shares = sh ∧ regBit Reg.DEV_STATUS 29 t = m) ∧
     (regBit Reg.SRV_STAT 29 s = true → (getReg Reg.SOLVER_US t).toNat % regFld Reg.SRV_PERIOD 6 0 s = 0 →
       t.day.periodUs = regFld Reg.SRV_PERIOD 6 0 s ∧ regBit Reg.SRV_STAT 29 t = false)) ∧
   (∀ s : State, deviceReset s = false → s.day.inSlot = false → ∃ t, exec .intercalarySlotStart s = .next t ∧
       t.day.inSlot = true ∧
     regBit Reg.DEV_STATUS 28 t = true ∧
     now t = max (now s) (dayAt (((getReg Reg.DAY_US s).toNat - (getReg Reg.SLOT_US s).toNat) * usRoot : Nat) s) ∧
     (∀ j ∈ t.disp.jobs, j.readyAt.isSome = true → j.beforeSlot = true) ∧ memKept s t)) ∧
  ((∀ (w : Writer) (v : Word) (s : State), writesNow w s = true →
     (fld v 1 0 ≤ 2 → ∃ t, exec (.opPointRequest w v) s = .next t ∧ regFld Reg.FAB_OP_CTL 1 0 t = fld v 1 0 ∧
       regFld Reg.FAB_OP_STAT 1 0 t = regFld Reg.FAB_OP_STAT 1 0 s ∧
       regBit Reg.FAB_OP_STAT 2 t = decide (regFld Reg.FAB_OP_STAT 1 0 s ≠ fld v 1 0) ∧
       onlyRegs [Reg.FAB_OP_CTL, Reg.FAB_OP_STAT] (usedBy w s) t) ∧
     (fld v 1 0 = 3 → exec (.opPointRequest w v) s = .next (usedBy w s))) ∧
   (∀ (i : Issue) (p : BitVec 8) (s : State), mayIssue i Op.setOpPoint allowPM s = true → notMaster s = false → p.toNat ≤ 2 →
     ∃ t, exec (.setOpPoint i p) s = .next t ∧ regFld Reg.FAB_OP_CTL 1 0 t = p.toNat ∧
       regFld Reg.FAB_OP_STAT 1 0 t = regFld Reg.FAB_OP_STAT 1 0 s ∧
       regBit Reg.FAB_OP_STAT 2 t = decide (regFld Reg.FAB_OP_STAT 1 0 s ≠ p.toNat)) ∧
   (∀ s : State, regBit Reg.FAB_OP_STAT 2 s = true → now s = dayAt 0 s →
     ((∀ j ∈ s.disp.jobs, j.held = false) → othersMeet 1 s = true → ∃ t, exec .opPointChange s = .next t ∧
       regFld Reg.FAB_OP_STAT 1 0 t = regFld Reg.FAB_OP_CTL 1 0 s ∧ regBit Reg.FAB_OP_STAT 2 t = false ∧
       onlyRegs [Reg.FAB_OP_STAT] { s with bankLog := [] } t) ∧
     ((∃ j ∈ s.disp.jobs, j.held = true) ∨ othersMeet 1 s = false → exec .opPointChange s = .next s)))

/-- R305, R326, R328, R495: QUEUE_CTL sets a host ring and enables or disables its queue, and enables none in a host session
after a host loss; HANDOFF sets a handoff's slot addresses and neither its commits nor its front; SET_STANDING sets an entry
from a descriptor that is not refused, and leaves it disabled otherwise; READ_LEDGER counts the read, writes the ledger's 1 088
bytes to host memory and, in a host session, ends HOST_LOST when its completion is written, after those of the commands of the
ring before it (log entry 28 for HEAD and the completion index of an enable; 32 for SET_STANDING's descriptor in DRAM).
R322: DRAM from 0x0010_0000 on shows the ledger as it stands. -/
def Obligations.DispatcherCommands : Prop :=
  (∀ (i : Issue) (q : QueueCtl) (s : State), mayIssue i Op.queueCtl allowHPM s = true → q.queue.toNat < 8 →
    let n := q.queue.toNat
    (q.enable ≠ 0 → ¬(i.via = .host ∧ regBit Reg.DEV_STATUS 30 s = true) →
      ∃ t, exec (.queueCtl i q) s = .next t ∧ regBit (Reg.JQq_STAT n) 31 t = true ∧ regFld (Reg.JQq_STAT n) 15 0 t = 0 ∧
        getRing n t = ⟨q.ring, q.size.toNat, q.cring, 0⟩) ∧
    (q.enable ≠ 0 → i.via = .host → regBit Reg.DEV_STATUS 30 s = true →
      ∃ t, exec (.queueCtl i q) s = .next t ∧ getReg (Reg.JQq_STAT n) t = getReg (Reg.JQq_STAT n) s ∧
        t.disp.rings = s.disp.rings) ∧
    (q.enable = 0 → ∃ t, exec (.queueCtl i q) s = .next t ∧ regBit (Reg.JQq_STAT n) 31 t = false)) ∧
  (∀ (i : Issue) (k : BitVec 8) (a b : Word64) (s : State), mayIssue i Op.handoff allowPM s = true → 2 ≤ k.toNat → k.toNat ≤ 15 →
    ∃ t, exec (.handoff i k a b) s = .next t ∧
      getHandoff (fabricKey k.toNat) t = { getHandoff (fabricKey k.toNat) s with slot0 := a, slot1 := b }) ∧
  (∀ (i : Issue) (e en c : BitVec 8) (a : Word64) (s : State), mayIssue i Op.setStanding allowHPM s = true → s.marks = [] →
    (∀ x, handleInfo (getStanding e.toNat s).desc.handle s = some x → x.retiring = false) → e.toNat < 16 → 8 ≤ c.toNat →
        c.toNat ≤ 14 →
    let d := parseJob (rdBytes .dram a.toNat 96 s)
    (en ≠ 0 → descriptorReason d s = none →
      ∃ t, exec (.setStanding i e en c a) s = .next t ∧
          getStanding e.toNat t = ⟨true, c.toNat, d, false, none, (getStanding e.toNat s).setNo + 1⟩) ∧
    (en = 0 ∨ descriptorReason d s ≠ none →
      ∃ t, exec (.setStanding i e en c a) s = .next t ∧ (getStanding e.toNat t).enabled = false)) ∧
  (∀ (i : Issue) (a : Word64) (s : State), mayIssue i Op.readLedger allowHPM s = true → s.disp.discarding = false →
    ∃ t, exec (.readLedger i a) s = .next t ∧ t.disp.ledger.seq = s.disp.ledger.seq + 1 ∧
      (i.via = .host → s.disp.cmds = [] → regBit Reg.DEV_STATUS 30 t = false ∧ regBit Reg.SESSION_STAT 27 t = true) ∧
      (i.via = .host → (∃ c r, s.disp.cmds = c :: r ∧ c.entry = none) → (∀ c ∈ s.disp.cmds, c.op ≠ Op.readLedger) →
        regBit Reg.DEV_STATUS 30 t = regBit Reg.DEV_STATUS 30 s ∧ t.disp.ledgerRead = s.disp.ledgerRead) ∧
      (i.via = .port → t.disp.ledger = { s.disp.ledger with seq := s.disp.ledger.seq + 1, readStamp := s.clk.tick } ∧
        hostBytes a.toNat 1088 t = ledgerBytes t)) ∧
  (∀ s : State, dramHas (0x100000 + 1087) s = true → rdBytes .dram 0x100000 1088 s = ledgerBytes s)

/-- R324, R329 to R331: a HEARTBEAT inside a host session restarts its timer; at the timer's end, or at CLOSE, the host
session closes, HOST_LOST is set, every host queue and the Sorter host path are disabled, what waits in a host queue is
dropped, standing entries without RESIDENT_SAFE are disabled and the others stay, and nothing more is written for the jobs on
the device; CLOSE writes no completion either. -/
def Obligations.HostLossKeepsTheDevice : Prop :=
  (∀ s : State, s.sess.host.isSome = true → dispatcherUp s = true →
    ∃ t, exec .heartbeat s = .next t ∧ t.sess.beatAt = now s ∧ t.sess.host = s.sess.host ∧
        onlyRegs [] { s with sess := t.sess } t) ∧
  (∀ s : State, s.sess.host.isSome = true → dispatcherUp s = true →
    ∃ t, exec .hostLost s = .next t ∧ now t = max (now s) (s.sess.beatAt + hbMs s * 1000 * usRoot) ∧ t.sess.host = none ∧
      regBit Reg.DEV_STATUS 30 t = true ∧ t.disp.ledger.hostLost = true ∧ t.disp.ledger.closed = false ∧
      t.disp.ledger.lostStamp = t.clk.tick ∧ (∀ q < 8, regBit (Reg.JQq_STAT q) 31 t = false) ∧
      regBit Reg.SRT_HP_CTL 31 t = false ∧
      (∀ j ∈ t.disp.jobs, j.lost = true ∧ (j.stage = .waiting → j.queue = none)) ∧
      (∀ e < 16, if (getStanding e s).desc.residentSafe then getStanding e t = getStanding e s
        else (getStanding e t).enabled = false) ∧ memKeptButLedger s t) ∧
  (∀ (i : Issue) (s : State), mayIssue i Op.close allowH s = true →
    ∃ t, exec (.close i) s = .next t ∧ t.sess.host = none ∧ regBit Reg.DEV_STATUS 30 t = true ∧
      t.disp.ledger.closed = true ∧ t.disp.ledger.lostStamp = s.clk.tick ∧ (∀ q < 8, regBit (Reg.JQq_STAT q) 31 t = false) ∧
      (∀ a, hostByte a t = hostByte a s))

/-! ### Power and reset -/

/-- What the assertion of a warm reset of the source of bit `b` leaves (R440, R442, R431): its cause bit beside the others,
RESET alone latched, SAFE_N and every torque-enable output low, the ring bypass closed, no job, the reverse sequence at 2 µs,
and fuses, flash, staging store and banks as they were. -/
def warmResetFrom (b : Nat) (s t : State) : Prop :=
  regBit Reg.PWR_RST_CAUSE b t = true ∧ (∀ k < 8, k ≠ b → regBit Reg.PWR_RST_CAUSE k t = regBit Reg.PWR_RST_CAUSE k s) ∧
  getReg Reg.SAF_LATCH t = 0x800 ∧ safeN t = false ∧ tenPins t = 0 ∧ t.pwr.bypassClosed = true ∧ t.pwr.inReset = true ∧
  t.pwr.seq = some ⟨false, (List.range 32).reverse, now s + 2 * usRoot⟩ ∧ regFld Reg.PWR_BOOT_STAT 31 28 t = 9 ∧
  t.disp.jobs = [] ∧ t.fuses = s.fuses ∧ t.flash = s.flash ∧ t.stage = s.stage ∧ t.banks = s.banks ∧ now t = now s

/-- R440, R442, R435, R441, R474: outside a start sequence, each source of a warm reset asserts one; PWR_RST_CMD does so
with its key value alone, a monitor only outside its window, a sensor only above the trip threshold, the device watchdog 100 ms
after the last service by a Postmaster that has stopped (R450), and a PCIe reset only with PCIE_FULL set; without it that
discards what waits at the crossings of the host's accesses (R439). R443: a source found while a reset is in progress, a cold
one included, sets its bit and stands, and neither restarts nor moves the sequence. R480: in the hold every ball is in its
state. -/
def Obligations.WarmResets : Prop :=
  (∀ s : State, s.pwr.porst = true → deviceReset s = false → s.pwr.seq = none →
     (∃ t, exec .sysrst s = .next t ∧ warmResetFrom 1 s t) ∧
     (∃ t, exec .pllLoss s = .next t ∧ warmResetFrom 2 s t ∧ t.pwr.locked = false) ∧
     (∀ (v : Fin 6) (mv : BitVec 16),
       (mv.toNat < (vmonWindow v.val).1 ∨ (vmonWindow v.val).2 < mv.toNat →
         ∃ t, exec (.vmon v mv) s = .next t ∧ warmResetFrom 3 s t) ∧
       ((vmonWindow v.val).1 ≤ mv.toNat → mv.toNat ≤ (vmonWindow v.val).2 →
         ∃ t, exec (.vmon v mv) s = .next t ∧ getReg (Reg.MGT_VMONv v.val) t = mv.zeroExtend 32 ∧
           onlyRegs [Reg.MGT_VMONv v.val] s t)) ∧
     (∀ (n : Fin 24) (r : BitVec 16), 920 < r.toInt → ∃ t, exec (.therm n r) s = .next t ∧ warmResetFrom 4 s t) ∧
     (postmasterUp s = false →
       ∃ t, exec .wdt s = .next t ∧ warmResetFrom 5 (runTo (s.mgt.servedAt + 100000 * usRoot) s) t) ∧
     (postmasterUp s = true → exec .wdt s = .next s) ∧
     (∀ (w : Writer) (v : Word), writesNow w s = true →
       (v = 0x52535443 → ∃ t, exec (.pwrRstCmd w v) s = .next t ∧ warmResetFrom 6 s t) ∧
       (v ≠ 0x52535443 → exec (.pwrRstCmd w v) s = .next (usedBy w s))) ∧
     (regBit Reg.PWR_RST_CFG 0 s = true → ∃ t, exec .pcieReset s = .next t ∧ warmResetFrom 7 s t) ∧
     (regBit Reg.PWR_RST_CFG 0 s = false → s.sess.host = none →
       ∃ t, exec .pcieReset s = .next t ∧ t.sess = { s.sess with hsPcie := none } ∧
         { t with sess := s.sess, pwr := { t.pwr with crossings := s.pwr.crossings } } = s ∧
         ∀ c < 40, crossingAt c t = ⟨0, none, now s + Config.crossingRoundTrip c⟩) ∧
     (regBit Reg.PWR_RST_CFG 0 s = false → s.sess.host.isSome = true → dispatcherUp s = true →
       ∃ t, exec .pcieReset s = .next t ∧ t.sess.host = none ∧ t.disp.ledger.hostLost = true ∧
         t.disp.ledger.closed = false ∧ { t.pwr with crossings := s.pwr.crossings } = s.pwr)) ∧
  (∀ s : State, s.pwr.porst = true → deviceReset s = true →
     ∃ t, exec .sysrst s = .next t ∧ regBit Reg.PWR_RST_CAUSE 1 t = true ∧
       t.pwr = { s.pwr with standing := s.pwr.standing ||| 2#8 } ∧ onlyRegs [Reg.PWR_RST_CAUSE] { s with pwr := t.pwr } t) ∧
  (∀ s : State, s.pwr.inReset = true →
     ballState .safeN s = .low ∧ (∀ n, ballState (.ten n) s = .low) ∧ (∀ l, ballState (.courierTransmit l) s = .staticLevel) ∧
       ballState .ringLanes s = .bypassClosed ∧ (∀ c, ballState (.canTxd c) s = .high) ∧ ballState .norSelect s = .high ∧
       ballState .norOther s = .highImpedance ∧ ballState .dramReset s = .low ∧ ballState .dramOther s = .highImpedance ∧
       ballState .pcie s = .electricalIdle ∧ ballState .sensorBus s = .highImpedance ∧ ballState .jtagTdo s = .highImpedance)

/-- The registers whose reset value is a fuse's or a strap's (R323, R28, R452, R462, R473). -/
def fusedRegs : List Nat :=
  [Reg.DEV_ID, Reg.FAB_ID, Reg.FAB_COL_MAP0, Reg.FAB_COL_MAP1, Reg.MGT_ROLLBACK, Reg.RNG_STAT]

/-- R444, R435, R442, R473, R476, R345, R404: PORST_N low leaves a device at its reset values, its straps as sampled, and its balls
as R480 gives them; its rise samples the straps, sets POR alone, and the boot stage is PLL once the fuses have loaded in 40 µs; at
lock, at most 50 µs after that, and at the release of a warm reset that nothing holds, device reset is released on the common edge
of 240 root cycles with TICK 0 and the firmware load starts; a source found before the lock holds the device in reset then, and
one that a sensor or a rail still gives holds it after. At the load's end a bank that boots starts the sequence, and none leaves
the device in FW_FAIL with the balls of the flash released (R461). R459, R460: a bank that boots is one of those tried, has its
MAGIC and is not marked BAD, and all four of its images pass; the tries change nothing but the flash. R469: with DBG_LOCK blown
JTAG answers IDCODE and BYPASS alone, and all without it. -/
def Obligations.PowerUpAndBoot : Prop :=
  ((∀ s : State, ∃ t, exec .porstFall s = .next t ∧ t.pwr.porst = false ∧ t.disp.jobs = [] ∧ safeN t = false ∧
     (∀ o, o ∉ fusedRegs → getReg o t = regReset o) ∧ getReg Reg.FAB_COL_MAP0 t = fuse 29 s ∧ tenPins t = 0 ∧
         t.fuses = s.fuses ∧ t.flash = s.flash ∧
     t.pwr.masterSel = s.pwr.masterSel ∧ t.pwr.ringSlot = s.pwr.ringSlot ∧ regFld Reg.RNG_STAT 2 0 t = s.pwr.ringSlot.toNat ∧
     (∀ g, ballState g t = coldBall g) ∧ ballState .norSelect t = .highImpedance ∧ (∀ c, ballState (.canTxd c) t = .high)) ∧
   (∀ (m : Bool) (p : BitVec 3) (w : List (Nat × Byte)) (s : State), s.pwr.porst = false →
     ∃ t, exec (.porstRise m ⟨p, w⟩) s = .next t ∧ t.pwr.porst = true ∧ getReg Reg.PWR_RST_CAUSE t = 1 ∧
       regBit Reg.RNG_STAT 28 t = m ∧ regFld Reg.RNG_STAT 2 0 t = p.toNat ∧ t.pwr.riseAt = now s ∧
       regFld Reg.DEV_ID 3 0 t = fld (fuse 24 s) 7 4 ∧ memKept (programmed w s) t ∧ (w = [] → memKept s t) ∧
       (regFld Reg.PWR_BOOT_STAT 31 28 s = 0 → deviceReset s = true → s.pwr.inReset = false → s.pwr.firmwareAt = none →
         ∀ n, fld (bootStat (advance n t)) 31 28 = if n < 40 * usRoot then 0 else 1)) ∧
   (∀ s : State, s.pwr.porst = true → s.pwr.locked = false → s.pwr.inReset = false →
     (s.pwr.standing = 0 →
       ∃ t d, exec .pllLock s = .next t ∧ t.pwr.locked = true ∧ regBit Reg.CLK_PLL_STAT 31 t = true ∧
         regFld Reg.CLK_PLL_STAT 15 0 t = (regFld Reg.CLK_PLL_STAT 15 0 s + 1) % 2 ^ 16 ∧ t.clk.tick = 0 ∧ now t % 240 = 0 ∧
         max (now s) (s.pwr.riseAt + 40 * usRoot) ≤ now t ∧ now t < max (now s) (s.pwr.riseAt + 90 * usRoot) + 240 ∧
         regFld Reg.PWR_BOOT_STAT 31 28 t = 2 ∧ t.pwr.firmwareAt = some d ∧ now t ≤ d) ∧
     (s.pwr.standing ≠ 0 →
       ∃ t, exec .pllLock s = .next t ∧ t.pwr.locked = true ∧ t.pwr.inReset = true ∧ t.pwr.holding = true ∧
         t.pwr.standing = s.pwr.standing ∧ regFld Reg.PWR_BOOT_STAT 31 28 t = 9)) ∧
   (∀ s : State, (s.pwr.standing.getLsbD 4 = true ∧ ∃ n < 24, 840 < tempOf n s) ∨
     (s.pwr.standing.getLsbD 3 = true ∧ ∃ v < 6, regFld (Reg.MGT_VMONv v) 15 0 s < (vmonWindow v).1 ∨
       (vmonWindow v).2 < regFld (Reg.MGT_VMONv v) 15 0 s) → exec .resetRelease s = .next s) ∧
   (∀ s : State, s.pwr.inReset = true → s.pwr.holding = true → s.pwr.locked = true →
     (s.pwr.standing.getLsbD 4 = true → ∀ n < 24, tempOf n s ≤ 840) →
     (s.pwr.standing.getLsbD 3 = true → ∀ v < 6, (vmonWindow v).1 ≤ regFld (Reg.MGT_VMONv v) 15 0 s ∧
       regFld (Reg.MGT_VMONv v) 15 0 s ≤ (vmonWindow v).2) →
     ∃ t d, exec .resetRelease s = .next t ∧ t.pwr.inReset = false ∧ t.clk.tick = 0 ∧ now t % 240 = 0 ∧
       now s ≤ now t ∧ now t < now s + 240 ∧ regFld Reg.PWR_BOOT_STAT 31 28 t = 2 ∧ t.pwr.firmwareAt = some d ∧ now t ≤ d) ∧
   (∀ (d : Nat) (s : State), s.pwr.firmwareAt = some d →
     (∀ b, (tryBanks (bankOrder s) s).1 = some b →
       ∃ t, exec .firmwareLoadEnd s = .next t ∧ now t = max (now s) d ∧ regFld Reg.PWR_BOOT_STAT 31 28 t = 4 ∧
         regFld Reg.PWR_BOOT_STAT 27 24 t = b.toNat ∧ t.mgt.bankB = b ∧ t.pwr.seq = some ⟨true, List.range 32, now t⟩ ∧
         ∀ c < 4, partitionGood c t = true) ∧
     ((tryBanks (bankOrder s) s).1 = none →
       ∃ t, exec .firmwareLoadEnd s = .next t ∧ regFld Reg.PWR_BOOT_STAT 31 28 t = 8 ∧ t.pwr.seq = s.pwr.seq ∧
         (deviceReset s = false → ballState .norSelect t = .highImpedance ∧ ballState .norOther t = .highImpedance)))) ∧
  (∀ (l : List Bool) (b : Bool) (n : Nat) (s t : State), tryBanks l s = (some b, n, t) →
     b ∈ l ∧ bankThere b t = true ∧ (∀ c < 4, imagePasses b c t = true) ∧ { t with flash := s.flash } = s) ∧
  (∀ s : State, jtagAnswers .idcode s = true ∧ jtagAnswers .bypass s = true ∧
     (jtagAnswers .access s = true ↔ bit (fuse 24 s) 3 = false) ∧ ∀ t, step s = .next t → jtagAnswers .access s = false →
       jtagAnswers .access t = false ∧ debugConnected t = false)

/-- R428 to R430, R432, R433, R442, R444: each slot of a start sequence takes 20 µs and turns its domain on, each of a
reverse sequence turns it off; after the last the device trains its memory, or is held in reset; a tile group that switches
in its slot changes its domain, and its column is free when it is on. R453, R436: a temperature sample is shown; above
TEMP_WARN its sensor is warned once; above 105 °C a device of no ring whose Postmaster runs asks for the next lower
operating point, and above 115 °C a warm reset follows (R440); while the Postmaster is stopped nothing is asked for and the time
of cool readings starts again (R449). -/
def Obligations.PowerSequencesAndTemperature : Prop :=
  ((∀ (k : Nat) (r : List Nat) (a : Nat) (s : State), s.pwr.seq = some ⟨true, k :: r, a⟩ → k < 32 →
     ∃ t, exec .sequenceSlot s = .next t ∧ now t = max (now s) (a + 20 * usRoot) ∧
       (¬(4 ≤ k ∧ k < 16 ∧ enabledCols s ≤ k - 4) → domainOn (slotDomain k) t = true) ∧
       (∀ n r', r = n :: r' → t.pwr.seq = some ⟨true, r, a + 20 * usRoot⟩ ∧ regFld Reg.PWR_BOOT_STAT 5 0 t = n % 64) ∧
       (r = [] → t.pwr.seq = none ∧ regFld Reg.PWR_BOOT_STAT 31 28 t = 5)) ∧
   (∀ (k : Nat) (r : List Nat) (a : Nat) (s : State), s.pwr.seq = some ⟨false, k :: r, a⟩ → k < 32 →
     ∃ t, exec .sequenceSlot s = .next t ∧ now t = max (now s) (a + 20 * usRoot) ∧ domainOn (slotDomain k) t = false ∧
       (r ≠ [] → t.pwr.seq = some ⟨false, r, a + 20 * usRoot⟩) ∧ (r = [] → t.pwr.seq = none ∧ t.pwr.holding = true)) ∧
   (∀ (g : Fin 12) (a : Nat) (r : List (Nat × Nat)) (s : State), s.pwr.tgs = (g.val, a) :: r →
     ∃ t, exec (.tileGroupSwitch g) s = .next t ∧ t.pwr.tgs = r ∧ now t = max (now s) (a + 20 * usRoot) ∧
       domainOn g.val t = !domainOn g.val s ∧ (domainOn g.val t = true → colHeld g.val t = false) ∧
       (∀ h, h < 12 → h ≠ g.val → domainOn h t = domainOn h s))) ∧
  (∀ (n : Fin 24) (r : BitVec 16) (s : State),
     (920 < r.toInt → s.pwr.porst = true → deviceReset s = false → s.pwr.seq = none →
       ∃ t, exec (.tempSample n r) s = .next t ∧ warmResetFrom 4 s t) ∧
     (r.toInt ≤ 920 → postmasterUp s = true → ringUp s = false → notMaster s = false →
         ∃ t, exec (.tempSample n r) s = .next t ∧ getReg (Reg.MGT_TEMPi n.val) t = r.zeroExtend 32 ∧
       ((BitVec.ofNat 16 (regFld Reg.MGT_TEMP_WARN 15 0 s)).toInt < r.toInt → n.val ∈ t.mgt.warned) ∧
       (840 < r.toInt → regFld Reg.FAB_OP_STAT 1 0 s ≤ 2 →
         regFld Reg.FAB_OP_CTL 1 0 t = min 2 (regFld Reg.FAB_OP_STAT 1 0 s + 1)) ∧ memKept s t) ∧
     (r.toInt ≤ 920 → postmasterUp s = false →
       ∃ t, exec (.tempSample n r) s = .next t ∧ regsKept [Reg.MGT_TEMPi n.val, Reg.MGT_TEMP_MAX, Reg.MGT_EVT_LOST] s t ∧
         t.mgt.coolSince = none))

/-! ### Management and security -/

/-- R448, R449, R451: a core restart, by its watchdog, by MGT_CORE_CTL or by CORE_RESTART, shows the core as RESTARTING,
clears its data RAM, counts, and leaves jobs, memories and latches alone, but that a restart of core 0 abandons an update in
progress and leaves the inactive bank not NEW (log entry 176); when its digest check is done the core is RUNNING where the
SHA-256 of its partition is the digest of its boot, and FAILED otherwise, and the commands of the ring that waited for it are
then taken. R455, R457, R497: the arbiter accepts the earliest arrival, the lowest source on equal arrival, numbers it and
writes its record at its place in the log, which then holds the 2 048 newest at most; READ_LOG copies the records of the
range asked for that are held, back to back, to host memory (log entry 33). -/
def Obligations.CoresAndEventLog : Prop :=
  ((∀ (c : Fin 4) (s : State),
     ∃ t, exec (.coreWatchdogExpiry c) s = .next t ∧ regFld Reg.MGT_CORE_STAT (8 * c.val + 7) (8 * c.val + 6) t = 1 ∧
       regBit Reg.MGT_CORE_STAT (8 * c.val + 5) t = true ∧
       getReg Reg.MGT_CORE_RESTARTS t = countUp (getReg Reg.MGT_CORE_RESTARTS s) 1 ∧ t.disp.jobs = s.disp.jobs ∧
       getReg Reg.SAF_LATCH t = getReg Reg.SAF_LATCH s ∧ (c.val ≠ 0 ∨ s.mgt.updating = false → memKept s t) ∧
       (c.val = 0 → s.mgt.updating = true → t.mgt.updating = false ∧ dirByte (inactive s) 8 t ≠ 0) ∧
       (c.val = 1 → regBit Reg.DEV_STATUS 31 t = false) ∧
       (∀ a, a / 2 ^ 15 = c.val → tget (fun _ => (0 : Byte)) t.mgt.coreRam a = 0)) ∧
   (∀ (w : Writer) (v : Word) (s : State), writesNow w s = true →
     ∃ t, exec (.coreCtlRestart w v) s = .next t ∧ t.disp.jobs = s.disp.jobs ∧
       (bit v 0 = false ∨ s.mgt.updating = false → memKept s t) ∧
       ∀ c < 4, (bit v c = true → regFld Reg.MGT_CORE_STAT (8 * c + 7) (8 * c + 6) t = 1 ∧
           regBit Reg.MGT_CORE_STAT (8 * c + 5) t = false) ∧
         (bit v c = false → regFld Reg.MGT_CORE_STAT (8 * c + 7) (8 * c) t = regFld Reg.MGT_CORE_STAT (8 * c + 7) (8 * c) s)) ∧
   (∀ (i : Issue) (c : BitVec 8) (s : State), mayIssue i Op.coreRestart allowPM s = true → c.toNat < 4 →
     ∃ t, exec (.coreRestart i c) s = .next t ∧ regFld Reg.MGT_CORE_STAT (8 * c.toNat + 7) (8 * c.toNat + 6) t = 1 ∧
       t.disp.jobs = s.disp.jobs) ∧
   (∀ (c : Fin 4) (bs : List (Nat × Byte)) (s : State), tget (fun _ => 0) s.mgt.resumeAt c.val ≠ 0 →
     let good := partitionGood c.val (changePartition c.val bs s)
     (bs = [] → good = partitionGood c.val s) ∧
     (good = false ∨ 2 ≤ c.val ∨ commandWaits (resumeCore c.val bs s) = false →
       ∃ t, exec (.coreResume c bs) s = .next t ∧
         regFld Reg.MGT_CORE_STAT (8 * c.val + 7) (8 * c.val + 6) t = (if good then 0 else 2) ∧
         now t = max (now s) (tget (fun _ => 0) s.mgt.resumeAt c.val)) ∧
     (good = true → c.val < 2 → coreUp c.val (resumeCore c.val bs s) = true →
       exec (.coreResume c bs) s = .next (takeCommands (resumeCore c.val bs s))))) ∧
  ((∀ (e : LogEvent) (s : State), nextEvent s.mgt.events = some e →
     let a := getReg Reg.MGT_ACCEPT_NEXT s
     e ∈ s.mgt.events ∧ (∀ x ∈ s.mgt.events, e.arrive < x.arrive ∨ (e.arrive = x.arrive ∧ e.source ≤ x.source)) ∧
     ∃ t, exec .eventAccept s = .next t ∧ getReg Reg.MGT_ACCEPT_NEXT t = a + 1 ∧ t.mgt.events = s.mgt.events.erase e ∧
       logBytes a t = logRecord a e (decide (e.source ∈ s.mgt.lost)) ∧
       ((a - getReg Reg.MGT_LOG_OLDEST s).toNat ≤ 2048 → (a + 1 - getReg Reg.MGT_LOG_OLDEST t).toNat ≤ 2048) ∧
       (∀ b : Word, b.toNat % 2048 ≠ a.toNat % 2048 → logBytes b t = logBytes b s) ∧ memKept s t) ∧
   (∀ (i : Issue) (first : Word) (count : BitVec 16) (addr : Word64) (s : State), mayIssue i Op.readLog allowHPM s = true →
     i.via = .port → s.disp.discarding = false →
     let ns := logRange first count.toNat s
     ∃ t, exec (.readLog i first count addr) s = .next t ∧
       hostBytes addr.toNat (32 * ns.length) t = ns.flatMap (fun n => logBytes n s) ∧ t.regs = s.regs))

/-- R459, R460, R462: the first UPDATE_WRITE of an update leaves the inactive bank erased but for the bytes written, and the
active bank alone; UPDATE_COMMIT marks a bank of four good images NEW with SEQ one above the active one and three tries, and
otherwise leaves it not NEW and changes no other byte of the flash; UPDATE_CONFIRM marks the running bank CONFIRMED and raises the ROLLBACK count to the
smallest SVN that runs, never past it (that a refused commit changes no other byte of the bank is log entry 176). R468: in a maintenance session FUSE_BLOW blows the key set while KEY_LOCK is 0,
KEY_HASH1 while it is all zero, a revocation unless the other slot is revoked or unprogrammed, and DBG_LOCK; it changes no
fuse otherwise. (That its value stands as 64 bytes in DRAM is log entry 27.) -/
def Obligations.FirmwareAndFuses : Prop :=
  ((∀ (i : Issue) (o : Word) (a : Word64) (n : Word) (s : State), mayIssue i Op.updateWrite allowPM s = true → s.marks = [] →
     s.mgt.updating = false → n ≠ 0 → o.toNat + n.toNat ≤ 2 ^ 24 →
     let b := bankAt (inactive s)
     ∃ t, exec (.updateWrite i o a n) s = .next t ∧ flashBytes (b + o.toNat) n.toNat t = rdBytes .dram a.toNat n.toNat s ∧
       (∀ k, b ≤ k → k < b + 2 ^ 24 → k < b + o.toNat ∨ b + o.toNat + n.toNat ≤ k → tget flashDefault t.flash k = 0xFF) ∧
       (∀ k, k < b ∨ b + 2 ^ 24 ≤ k → tget flashDefault t.flash k = tget flashDefault s.flash k)) ∧
   (∀ (i : Issue) (s : State), mayIssue i Op.updateCommit allowPM s = true →
     let b := inactive s
     (failingCore b s = none →
       ∃ t, exec (.updateCommit i) s = .next t ∧ dirByte b 8 t = 0 ∧ dirByte b 11 t = 7 ∧
         bankSeq b t = (bankSeq s.mgt.bankB s + 1) % 2 ^ 32 ∧ t.mgt.updating = false ∧
         (∀ k, k < bankAt b + 4 ∨ bankAt b + 11 < k ∨ k = bankAt b + 9 ∨ k = bankAt b + 10 →
           tget flashDefault t.flash k = tget flashDefault s.flash k)) ∧
     (failingCore b s ≠ none → ∃ t, exec (.updateCommit i) s = .next t ∧ dirByte b 8 t ≠ 0 ∧
       ∀ k, k ≠ bankAt b + 8 → tget flashDefault t.flash k = tget flashDefault s.flash k)) ∧
   (∀ (i : Issue) (s : State), mayIssue i Op.updateConfirm allowPM s = true →
     ∃ t, exec (.updateConfirm i) s = .next t ∧ dirByte s.mgt.bankB 9 t = 0 ∧
       rollbackCount t = max (rollbackCount s) (min (minSvn s) 64))) ∧
  (∀ (i : Issue) (f k : BitVec 8) (a : Word64) (s : State), mayIssue i Op.fuseBlow allowM s = true → s.marks = [] →
     let w := fun n : Nat => wordAt (rdBytes .dram a.toNat 64 s) (4 * n)
     (f = 0 → bit (fuse 24 s) 2 = false →
       ∃ t, exec (.fuseBlow i f k a) s = .next t ∧ fuse 24 t = fuse 24 s ||| 4 ∧
         (∀ n, n < 16 → fuse n t = fuse n s ||| w n) ∧ (∀ n, 16 ≤ n → n ≠ 24 → fuse n t = fuse n s)) ∧
     (f = 1 → slotProgrammed 1 s = false →
       ∃ t, exec (.fuseBlow i f k a) s = .next t ∧ (∀ n, n < 8 → fuse (16 + n) t = fuse (16 + n) s ||| w n) ∧
         (∀ n, n < 16 ∨ 24 ≤ n → fuse n t = fuse n s)) ∧
     (f = 2 → k.toNat ≤ 1 → bit (fuse 24 s) (1 - k.toNat) = false → slotProgrammed (1 - k.toNat) s = true →
       ∃ t, exec (.fuseBlow i f k a) s = .next t ∧ fuse 24 t = fuse 24 s ||| word (2 ^ k.toNat) ∧
         (∀ n, n ≠ 24 → fuse n t = fuse n s)) ∧
     (f = 3 → ∃ t, exec (.fuseBlow i f k a) s = .next t ∧ fuse 24 t = fuse 24 s ||| 8 ∧
       (∀ n, n ≠ 24 → fuse n t = fuse n s)) ∧
     (3 < f.toNat ∨ (f = 0 ∧ bit (fuse 24 s) 2 = true) ∨ (f = 1 ∧ slotProgrammed 1 s = true) ∨
         (f = 2 ∧ (1 < k.toNat ∨ bit (fuse 24 s) (1 - k.toNat) = true ∨ slotProgrammed (1 - k.toNat) s = false)) →
       ∃ t, exec (.fuseBlow i f k a) s = .next t ∧ t.fuses = s.fuses))

/-- The handshake in progress on an interface. -/
def handshakeOf (side : Side) (s : State) : Option Handshake :=
  match side with
  | .pcie => s.sess.hsPcie
  | .mgtPort => s.sess.hsPort

/-- The failed RESPONSEs in a row on an interface. -/
def failsOf (side : Side) (s : State) : Nat :=
  match side with
  | .pcie => s.sess.failPcie
  | .mgtPort => s.sess.failPort

/-- R464, R466, R444: a HELLO for a closed kind, outside a lockout and on an interface that is served, is answered with a challenge and opens nothing; a RESPONSE
with the right MAC opens one session of the kind, and any other counts as a failure, whose eighth in a row locks the
interface for 60 s; no HELLO is answered in a lockout; a maintenance session closes 60 s after its last use. R465: a COMMAND
datagram that is not good in its session is discarded and logged; a good HANDOFF takes effect, and the same datagram sent
again is discarded. -/
def Obligations.SessionsAndDatagrams : Prop :=
  ((∀ (side : Side) (kind : Byte) (nc : BitVec 128) (s : State), kindServed kind.toNat s = true →
     (∀ l, lockOf side s = some l → exec (.hello side kind nc) s = .next s) ∧
     (sideUp side s = false → exec (.hello side kind nc) s = .next s) ∧
     (sideUp side s = true → lockOf side s = none → kindOpen kind.toNat s = false → sideAllows side kind.toNat = true →
       ∃ t nd m, exec (.hello side kind nc) s = .next t ∧ t.outbox = s.outbox ++ [m] ∧
         handshakeOf side t = some ⟨kind, nc, nd, s.disp.ledger.epoch⟩ ∧ t.sess.host = s.sess.host ∧
         t.sess.port = s.sess.port ∧ t.sess.maint = s.sess.maint) ∧
     (lockOf side s = none → kindOpen kind.toNat s = true →
       ∃ t, exec (.hello side kind nc) s = .next t ∧ t.sess = s.sess)) ∧
   (∀ (side : Side) (mac : BitVec 256) (h : Handshake) (s : State), handshakeOf side s = some h →
     kindServed h.kind.toNat s = true →
     (leBytes 32 mac.toNat = macC h s → ∀ k, kindOf? h.kind.toNat = some k → sessionOf k s = none →
       ∃ t x, exec (.response side mac) s = .next t ∧ sessionOf k t = some x ∧ x.id = s.sess.nextId ∧ x.usedAt = now s ∧
         x.side = side ∧ handshakeOf side t = none ∧ failsOf side t = 0 ∧ (∀ j, j ≠ k → sessionOf j t = sessionOf j s) ∧
         t.disp.ledger.epoch = s.disp.ledger.epoch + (if k = .host then 1 else 0) ∧ regBit Reg.SESSION_STAT 31 t = true) ∧
     (leBytes 32 mac.toNat ≠ macC h s →
       ∃ t, exec (.response side mac) s = .next t ∧ (∀ k, sessionOf k t = sessionOf k s) ∧ handshakeOf side t = none ∧
         failsOf side t = failsOf side s + 1 ∧
         (8 ≤ failsOf side s + 1 → lockOf side t = some (now s + 60000000 * usRoot)))) ∧
   (∀ (m : SessionInfo) (s : State), s.sess.maint = some m →
     ∃ t, exec .maintenanceTimeout s = .next t ∧ t.sess.maint = none ∧ t.sess.host = s.sess.host ∧
       t.sess.port = s.sess.port ∧ now t = max (now s) (m.usedAt + 60000000 * usRoot)) ∧
   (∀ (side : Side) (l : Nat) (s : State), lockOf side s = some l →
     ∃ t, exec (.helloLockoutEnd side) s = .next t ∧ lockOf side t = none ∧ failsOf side t = 0 ∧ now t = max (now s) l)) ∧
  (∀ (d : List Byte) (k : Session) (x : SessionInfo) (s : State), postmasterUp s = true → byteAt d 0 = 5 →
     kindOf? (byteAt d 1) = some k → sessionOf k s = some x →
     (datagramGood d x = false → exec (.mgtCommandDatagram d) s = .next (discardDatagram s)) ∧
     (datagramGood d x = true → k ≠ .host → byteAt d 8 = 0x0C → 2 ≤ byteAt d 12 → byteAt d 12 ≤ 15 →
       let h := fabricKey (byteAt d 12)
       ∃ t, exec (.mgtCommandDatagram d) s = .next t ∧
         getHandoff h t = { getHandoff h s with slot0 := addrAt (slice d 8 64) 8, slot1 := addrAt (slice d 8 64) 16 } ∧
         exec (.mgtCommandDatagram d) t = .next (discardDatagram t)))

/-! ### Cameras and image pipelines -/

/-- R189, R171: a receiver is enabled with 1, 2 or 4 lanes, a stream with WIDTH, HEIGHT and DEPTH above 0, a context with
FROZEN_COUNT above 0 and the conditions of R171; a 0 gives FIELD_ZERO, a broken condition of R171 gives CFG_ERR, and either
leaves the block disabled. R181 to R184: a context queues up to 16 requests and refuses the next one; an idle bus starts the
writes of its next request once the latch point of T − DELAY − 1 has passed, and not before; at the end of its writes a
request leaves the queue, and a latch point takes in exactly the writes that ended in an earlier tick. (That CODE of CAM_RXr_STAT
stands at [23:16] is log entry 30, what may be written before the first latch point 101, that a stream that is enabled again keeps
the frame it receives and its slots 173, and the frame of the next latch point 180.) -/
def Obligations.CameraSettings : Prop :=
  ((∀ (w : Writer) (r : Fin 12) (v : Word) (s : State), writesNow w s = true →
     ∃ t, exec (.receiverEnable w r v) s = .next t ∧
       regBit (Reg.CAM_RXr_CTL r) 31 t = (bit v 31 && decide (fld v 2 0 ∈ [1, 2, 4])) ∧
       (bit v 31 = true → regFld (Reg.CAM_RXr_STAT r) 23 16 t = if fld v 2 0 = 0 then 0x01 else 0x00) ∧
       onlyRegs [Reg.CAM_RXr_CTL r, Reg.CAM_RXr_STAT r] (usedBy w s) t) ∧
   (∀ (w : Writer) (k : Fin 16) (v : Word) (s : State), writesNow w s = true →
     let ok := decide (strW k s ≠ 0) && decide (strH k s ≠ 0) && decide (strDepth k s ≠ 0)
     ∃ t, exec (.streamEnable w k v) s = .next t ∧ regBit (Reg.CAM_STRs_CTL k) 31 t = (bit v 31 && ok) ∧
       (bit v 31 = true → regFld (Reg.CAM_STRs_ERR k) 23 16 t = if ok then 0x00 else 0x01) ∧
       (regBit (Reg.CAM_STRs_CTL k) 31 s = false ∨ (bit v 31 && ok) = false →
         getStream k t = { Stream.reset with frame := (getStream k s).frame, slots := (getStream k s).slots }) ∧
       regsKept [Reg.CAM_STRs_CTL k, Reg.CAM_STRs_ERR k] s t ∧ memKept s t) ∧
   (∀ (w : Writer) (c : Fin 16) (v : Word) (s : State), writesNow w s = true →
     let n := fld v 8 0
     let zero := decide (n = 0) || decide (regFld (Reg.ISP_CTXc_FRZ c) 27 24 s = 0)
     let fits := regBit (Reg.CAM_STRs_CTL (fld v 23 20)) 31 s && decide (2 * n + 4 ≤ strDepth (fld v 23 20) s) &&
       decide (n % 8 = 0) && decide (8 ≤ n) && decide (n ≤ 256)
     ∃ t, exec (.contextEnable w c v) s = .next t ∧ regBit (Reg.ISP_CTXc_CTL c) 31 t = (bit v 31 && !zero && fits) ∧
       (bit v 31 = true → regFld (Reg.ISP_CTXc_STAT c) 23 16 t = if zero then 0x01 else 0x00) ∧
       (bit v 31 = true → zero = false → fits = false → regBit (Reg.ISP_CTXc_STAT c) 4 t = true) ∧ memKept s t)) ∧
  ((∀ (i : Issue) (q : SensorRequest) (s : State), mayIssue i Op.sensorReq allowHPM s = true →
     let x := getCtx q.context s
     (x.requests.length < 16 → ∃ t, exec (.sensorReq i q) s = .next t ∧
       (getCtx q.context t).requests = x.requests ++ [⟨i, q, s.cam.orders, false⟩] ∧ memKept s t) ∧
     (16 ≤ x.requests.length → ∃ t, exec (.sensorReq i q) s = .next t ∧ t.cam = s.cam)) ∧
   (∀ (b : Fin 4) (c : Nat) (q : SensorJob) (s : State), busRequest b s = none → sensorClerkUp s = true →
     nextRequest b s = some (c, q) →
     (mayWrite c q.req.target s = true → ∃ t, exec (.sensorWrite b) s = .next t ∧ busRequest b t = some (c, q.order) ∧
       t.outbox = s.outbox ++ q.req.writes.map (fun w => Out.sensorBus b w) ∧ t.regs = s.regs ∧ memKept s t) ∧
     (mayWrite c q.req.target s = false → exec (.sensorWrite b) s = .next s)) ∧
   (∀ (b : Fin 4) (c n : Nat) (q : SensorJob) (s : State), busRequest b s = some (c, n) →
     (getCtx c s).requests.find? (fun q => q.order = n) = some q →
     ∃ t, exec (.sensorWriteComplete b) s = .next t ∧ busRequest b t = none ∧
       (getCtx c t).requests = (getCtx c s).requests.filter (fun r => r.order ≠ n) ∧
       (getCtx c t).written = (getCtx c s).written ++ [(q.req.expected, q.req.target, s.clk.tick)] ∧
       (later 32 (governedBy c (latchFrame c s) s).toNat q.req.target.toNat = true →
         regBit (Reg.ISP_CTXc_STAT c) 0 t = true)) ∧
   (∀ (c : Fin 16) (g : Word) (at_ : Nat) (r : List (Word × Nat)) (s : State), (getCtx c s).latches = (g, at_) :: r →
     ∃ t, exec (.latchPoint c) s = .next t ∧ now t = max (now s) at_ ∧ (getCtx c t).latches = r ∧
       (getCtx c t).latched = some g ∧
       (getCtx c t).written = (getCtx c s).written.filter (fun w => decide (w.2.2 = t.clk.tick)) ∧ memKept s t))

/-- R161 to R165, R188: a frame start on an enabled stream numbers its frame and stamps it; a good line lands left-justified
in its ring slot and, where it completes no frame, nowhere else; a line whose slot is still needed is dropped with OVERRUN; a
packet with an uncorrectable header lands nothing; the first embedded line is kept; a frame end with another line count sets
SIZE; and a context without a frame start for ABSENT_MS reports absent. R168, R169, R164, R166, R170: an idle pipeline takes
the stripe that became ready earliest, of the lowest context in a tie, and is busy for its cycles, with a counted switch of
512 cycles before it when the context differs from the last; at its end the pipeline is free; a corrupt frame that is complete
commits its record, is counted, and none of its outputs (commitFrame: what the last event of a frame does, a stripe's end among
them). That a packet with an uncorrectable header lands nothing is log entry 91, one context per stream 93, and no switch before
the first stripe 100. -/
def Obligations.FramesAndStripes : Prop :=
  ((∀ (k : Fin 16) (s : State), streamOn k s = true →
     let n : Word := if (getStream k s).started then (getStream k s).counter + 1 else 0
     ∃ t, exec (.frameStart k) s = .next t ∧ getReg (Reg.CAM_STRs_FRAME k) t = n ∧ (getStream k t).counter = n ∧
       (getStream k t).frame = some ⟨n, s.clk.tick, 0, none⟩ ∧
       (∀ c, ctxOf k s = some c → ∃ f ∈ (getCtx c t).frames, f.number = n ∧ f.stamp = s.clk.tick ∧ f.lines = 0 ∧
         f.ended = false)) ∧
   (∀ (k : Fin 16) (px : List (BitVec 16)) (r : RxFrame) (b : Nat) (s : State), streamOn k s = true →
     (getStream k s).frame = some r → rawBits (regFld (Reg.CAM_STRs_CTL k) 5 0 s) = some b →
     let base := (getReg (Reg.CAM_STRs_BUF k) s).toNat + r.lines % strDepth k s * strPitch k s
     (px.length = strW k s → slotNeeded k r.lines s = false →
       (∀ c f, ctxOf k s = some c → (getCtx c s).frames.head? = some f →
         f.ready ≠ [] ∨ f.running.isSome = true ∨ (f.decided < stripeCount c s ∧ f.gone = [] ∧ f.ended = false)) →
       ∃ t, exec (.lineLanded k px ⟨false, false, false⟩) s = .next t ∧
         (getStream k t).frame = some { r with lines := r.lines + 1 } ∧
         rdBytes .stage base (2 * strW k s) t = px.flatMap (fun p => leBytes 2 (p.toNat * 2 ^ (16 - b) % 2 ^ 16)) ∧
         (∀ x < 2 ^ 23, (∀ i < 2 * strW k s, x ≠ (base + i) % 2 ^ 23) → rdByte .stage x t = rdByte .stage x s) ∧
         (∀ sp x, sp ≠ .stage → rdByte sp x t = rdByte sp x s)) ∧
     (∀ (f e : Bool), slotNeeded k r.lines s = true → ∃ t, exec (.lineLanded k px ⟨f, false, e⟩) s = .next t ∧
       regBit (Reg.CAM_STRs_ERR k) 4 t = true ∧ (getStream k t).frame = some { r with lines := r.lines + 1 } ∧
       ((∀ c g, ctxOf k s = some c → (getCtx c s).frames.head? = some g → g.ready ≠ [] ∨ g.running.isSome = true) →
         memKept s t)) ∧
     (∀ (f e : Bool), ∃ t, exec (.lineLanded k px ⟨f, true, e⟩) s = .next t ∧ regBit (Reg.CAM_STRs_ERR k) 0 t = true ∧
       (getStream k t).frame = some r ∧ memKept s t)) ∧
   (∀ (k : Fin 16) (bs : List Byte) (f e : Bool) (r : RxFrame) (s : State), streamOn k s = true →
     (getStream k s).frame = some r →
     ∃ t, exec (.embeddedLine k bs ⟨f, false, e⟩) s = .next t ∧ memKept s t ∧
       (getStream k t).frame = some (if r.embedded.isSome then r else { r with embedded := some (bs.take 4096) })) ∧
   (∀ (k : Fin 16) (r : RxFrame) (s : State), streamOn k s = true → (getStream k s).frame = some r →
     ∃ t, exec (.frameEnd k) s = .next t ∧ (getStream k t).frame = none ∧
       (r.lines ≠ strH k s → regBit (Reg.CAM_STRs_ERR k) 3 t = true)) ∧
   (∀ (c : Fin 16) (s : State), ctxOn c s = true → regFld (Reg.ISP_CTXc_FRZ c) 15 0 s ≠ 0 → (getCtx c s).absent = false →
     ∃ t, exec (.absentTimeout c) s = .next t ∧
       now t = max (now s) ((getCtx c s).seenAt + regFld (Reg.ISP_CTXc_FRZ c) 15 0 s * 1000 * usRoot) ∧
       (getCtx c t).absent = true ∧ regBit (Reg.ISP_CTXc_STAT c) 3 t = true ∧
       (∀ b < 16, (getBinding b s).enabled = true → regBit (Reg.SAF_CHKk_CAM b) c s = true →
         regBit Reg.SAF_LATCH Latch.camera t = true))) ∧
  ((∀ (p : Fin 2) (c i : Nat) (n : Word × Word64) (s : State), (getPipe p s).busy = none → nextCtx p s = some (c, n, i) →
     ∃ t at_, exec (.stripeStart p) s = .next t ∧ readyStripe c s = some (n, i, at_) ∧
       (∀ d m j u, d < 16 → ctxOn d s = true → regFld (Reg.ISP_CTXc_CTL d) 30 30 s = p.val →
         (getPipe p s).locked = none ∨ (getPipe p s).locked = some d → readyStripe d s = some (m, j, u) →
         at_ < u ∨ (at_ = u ∧ c ≤ d)) ∧
       (let switch := (getPipe p s).lastCtx.isSome && decide ((getPipe p s).lastCtx ≠ some c)
        let y := stripeLines c i s
        (getPipe p t).busy = some (c, i, 6 * (divUp (now s) 6 + ((if switch then 512 else 0) +
           divUp ((y.2 - y.1) * strW (ctxStream c s) s) 3))) ∧
        getReg (Reg.ISP_PIPEp_SWITCH p) t = (if switch then countUp (getReg (Reg.ISP_PIPEp_SWITCH p) s) 1
           else getReg (Reg.ISP_PIPEp_SWITCH p) s)) ∧
       getReg (Reg.ISP_PIPEp_STAT p) t = word (2 ^ 31 + c) ∧ memKept s t) ∧
   (∀ (p : Fin 2) (c i e : Nat) (s : State), (getPipe p s).busy = some (c, i, e) →
     ∃ t, exec (.stripeEnd p) s = .next t ∧ now t = max (now s) e ∧ (getPipe p t).busy = none) ∧
   (∀ (c : Nat) (f : CtxFrame) (s : State), c < 16 → f.corrupt = true →
     let t := commitFrame c f s
     getReg (Reg.ISP_CTXc_FRAME c) t = f.number ∧
       getReg (Reg.ISP_CTXc_CORRUPT c) t = countUp (getReg (Reg.ISP_CTXc_CORRUPT c) s) 1 ∧
       (∀ o < 7, getHandoff (ctxKey c o) t = getHandoff (ctxKey c o) s)))

/-! ### The Sorter -/

/-- R191, R202, R206: a tail write is stored; a queue is enabled unless MULT or BUDGET_MIN is 0, with A_q restarting at 0, and
a batch stream unless ROWS or ROW_LEN is 0 or its slots do not hold its batches (log entry 34), with batch 0 empty; a 0 gives
FIELD_ZERO. -/
def Obligations.SorterEnables : Prop :=
  (∀ (w : Writer) (q : Fin 8) (v : Word) (s : State), writesNow w s = true →
    ∃ t, exec (.queueTailWrite w q v) s = .next t ∧ getReg (Reg.SRT_Qq_TAIL q) t = v ∧
      onlyRegs [Reg.SRT_Qq_TAIL q] (usedBy w s) t) ∧
  (∀ (w : Writer) (q : Fin 8) (v : Word) (s : State), writesNow w s = true →
    let ok := decide (regFld (Reg.SRT_Qq_BUDGET q) 31 24 s ≠ 0) && decide (regFld (Reg.SRT_Qq_BUDGET q) 23 0 s ≠ 0)
    ∃ t, exec (.queueEnable w q v) s = .next t ∧ regBit (Reg.SRT_Qq_CTL q) 31 t = (bit v 31 && ok) ∧
      regFld (Reg.SRT_Qq_CTL q) 17 0 t = fld v 17 0 ∧
      (bit v 31 = true → regFld (Reg.SRT_Qq_STAT q) 23 16 t = if ok then 0x00 else 0x01) ∧
      (bit v 31 = true → ok = true → regBit (Reg.SRT_Qq_CTL q) 31 s = false → getReg (Reg.SRT_Qq_AVG q) t = 0) ∧
      onlyRegs [Reg.SRT_Qq_CTL q, Reg.SRT_Qq_STAT q, Reg.SRT_Qq_AVG q] (usedBy w s) t) ∧
  (∀ (w : Writer) (b : Fin 4) (v : Word) (s : State), writesNow w s = true →
    let zero := decide (bsRows b s = 0) || decide (bsLen b s = 0)
    let fits := slotsFit b (fld v 17 16) s
    ∃ t, exec (.batchStreamEnable w b v) s = .next t ∧ regBit (Reg.SRT_BSb_CFG b) 31 t = (bit v 31 && !zero && fits) ∧
      regFld (Reg.SRT_BSb_CFG b) 17 0 t = fld v 17 0 ∧
      (bit v 31 = true → regFld (Reg.SRT_BSb_STAT b) 23 16 t = if zero then 0x01 else 0x00) ∧
      (bit v 31 = true → zero = false → fits = false → regBit (Reg.SRT_BSb_STAT b) 0 t = true) ∧
      (bit v 31 = true → zero = false → fits = true → regBit (Reg.SRT_BSb_CFG b) 31 s = false →
        (getBatch b t).number = 0 ∧ (getBatch b t).segs = []) ∧
      regsKept [Reg.SRT_BSb_CFG b, Reg.SRT_BSb_STAT b] s t ∧ memKept s t)

/-- R191, R195, R198, R199, R201 to R203, R205: the lowest idle engine takes the oldest descriptor of the first waiting queue
after the one that it last served, with its budget max(BUDGET_MIN, MULT × A_q), or none on RET_Q; a sound sample that ends is
packed at the offset where it fits and updates A_q; a sample over its budget is posted to the host path, or counted as dropped
when that is full or disabled. R193, R194, R196, R197: at its close instant an enabled stream's batch closes, with or without
segments (R344); unless a consumer has locked the back slot it commits there with its header; the next batch is open and empty.
(That a sample's bytes are read at the end of its decoding is log entry 102; that SRT_HP_TAIL counts on past 32 is 35.) -/
def Obligations.SamplesAndBatches : Prop :=
  ((∀ (e q : Nat) (s : State), idleEngine s = some e → nextQueue e s = some q →
     s.marks = [] →
     let head := (getReg (Reg.SRT_Qq_HEAD q) s).toNat
     let size := regFld (Reg.SRT_Qq_CTL q) 15 0 s
     ∃ t d, exec .engineTake s = .next t ∧ getEngine e t = some d ∧ d.queue = q ∧
       d.sample = parseSample (rdBytes .dram ((reg64 (Reg.SRT_Qq_BASE_LO q) (Reg.SRT_Qq_BASE_HI q) s).toNat + 32 * head) 32 s) ∧
       d.budget = (if isReturn q s then none else some (max (regFld (Reg.SRT_Qq_BUDGET q) 23 0 s)
         (regFld (Reg.SRT_Qq_BUDGET q) 31 24 s * (getReg (Reg.SRT_Qq_AVG q) s).toNat))) ∧
       getReg (Reg.SRT_Qq_HEAD q) t = word ((head + 1) % size) ∧ lastQueue e t = q ∧
       (∀ i, i ≠ e → getEngine i t = getEngine i s ∧ lastQueue i t = lastQueue i s) ∧ regsKept [Reg.SRT_Qq_HEAD q] s t ∧
           memKept s t) ∧
   (∀ (e : Fin 8) (d : Decoding) (at_ : Nat) (es : List Word) (s : State), getEngine e s = some d → decodeEndAt d = some at_ →
     decodesEnding at_ s = [(e.val, d)] → d.queue < 8 → d.descBad = false → s.marks = [] →
     let b := queueStream d.queue s
     let x := getBatch b s
     let p := packAt x (bsLen b s) es.length
     sampleElems d.sample (bsLen b s) (bsFmt b s) (rdBytes .dram d.sample.inAddr.toNat d.sample.inLen s) false = some es →
     regBit (Reg.SRT_BSb_CFG b) 31 s = true → closeDue b (runTo at_ s) = false → p.1 < bsRows b s →
     let a : Int := (getReg (Reg.SRT_Qq_AVG d.queue) s).toNat
     ∃ t, exec (.decodeEnd e) s = .next t ∧ now t = max (now s) at_ ∧ getEngine e t = none ∧
       (getBatch b t).segs = x.segs ++ [⟨d.sample.id, 2 * (isReturn d.queue s).toNat, p.1, p.2, d.queue, d.sample.stamp, es,
         es.length⟩] ∧
       (getBatch b t).row = p.1 ∧ (getBatch b t).offset = p.2 + es.length ∧
       getReg (Reg.SRT_Qq_AVG d.queue) t = wordI (a + ((d.cycles : Int) - a) / 16) ∧ memKept s t) ∧
   (∀ (e : Fin 8) (d : Decoding) (b : Nat) (s : State), getEngine e s = some d → d.budget = some b → b < d.cycles →
     d.queue < 8 →
     let a := 4096 * regFld Reg.SRT_HP_CTL 7 0 s + 64 * ((getReg Reg.SRT_HP_TAIL s).toNat % 32)
     (regBit Reg.SRT_HP_CTL 31 s = true → hostPathCount s < 32 →
       ∃ t, exec (.budgetExpiry e) s = .next t ∧ now t = max (now s) (d.startAt + srtRoot * b) ∧ getEngine e t = none ∧
         getReg Reg.SRT_HP_TAIL t = getReg Reg.SRT_HP_TAIL s + 1 ∧
         getReg (Reg.SRT_Qq_HOSTED d.queue) t = countUp (getReg (Reg.SRT_Qq_HOSTED d.queue) s) 1 ∧
         ((∀ i < 64, dramHas (a + i) s = true) → rdBytes .dram a 64 t = sampleBytes d.sample ++ leBytes 32 d.queue) ∧
         t.srt.batches = s.srt.batches) ∧
     (regBit Reg.SRT_HP_CTL 31 s = false ∨ 32 ≤ hostPathCount s →
       ∃ t, exec (.budgetExpiry e) s = .next t ∧ getEngine e t = none ∧
         getReg Reg.SRT_HP_DROP t = countUp (getReg Reg.SRT_HP_DROP s) 1 ∧
         regFld (Reg.SRT_Qq_STAT d.queue) 23 16 t = 0x0B ∧ getReg Reg.SRT_HP_TAIL t = getReg Reg.SRT_HP_TAIL s))) ∧
  (∀ (b : Fin 4) (s : State), regBit (Reg.SRT_BSb_CFG b) 31 s = true →
     (getBatch b s).closedDay ≠ some (getReg Reg.DAY_NUM s).toNat →
     let h := getHandoff (streamKey b) s
     let a := regFld (if h.front then Reg.SRT_BSb_SLOT0 b else Reg.SRT_BSb_SLOT1 b) 22 0 s
     ∃ t, exec (.batchClose b) s = .next t ∧ now t = max (now s) (closeInstant b s) ∧
       (getBatch b t).number = (getBatch b s).number + 1 ∧ (getBatch b t).segs = [] ∧
       (getBatch b t).closedDay = some (getReg Reg.DAY_NUM s).toNat ∧
       (backLocked h = true → (getHandoff (streamKey b) t) = h ∧ memKept s t) ∧
       (backLocked h = false → (getHandoff (streamKey b) t).commits = h.commits + 1 ∧
         (getHandoff (streamKey b) t).front = !h.front ∧
         (slotsFit b (bsFmt b s) s = true → (getBatch b s).segs.length ≤ 64 * bsRows b s →
           rdBytes .stage a 64 t = batchHeader (getBatch b s))))

/-! ### The servo engine -/

/-- R243, R254, R258, R265, R267: SRV_CTL.ENABLE is stored for the next period start; PERIOD_US and INV_LIMIT of 0 are
refused with FIELD_ZERO and a period above 100 with CFG_ERR, and a period that keeps R15 waits as PENDING; COMMIT reads 1
and the active sets stay; clearing FAULT ends it with histories 0 and the ramp armed, but not one that the axis entered in the same
servo cycle (R5). R263, R264, R261: ARM sets RECORDING
and clears TRIGGERED and STOPPED; a read of SRV_TRC_DATA returns the word at SRV_TRC_ADDR and moves it on, and returns 0 and
moves nothing while RECORDING is 1; one record of N nodes is written per period at sc 464. -/
def Obligations.ServoSettingsAndTrace : Prop :=
  ((∀ (w : Writer) (v : Word) (s : State), writesNow w s = true →
     ∃ t, exec (.servoEnable w v) s = .next t ∧ regBit Reg.SRV_CTL 31 t = bit v 31 ∧ onlyRegs [Reg.SRV_CTL] (usedBy w s) t) ∧
   (∀ (w : Writer) (v : Word) (s : State), writesNow w s = true →
     (fld v 6 0 = 0 → ∃ t, exec (.servoConfigWrite w false v) s = .next t ∧ regFld Reg.SRV_STAT 23 16 t = 0x01 ∧
       onlyRegs [Reg.SRV_STAT] (usedBy w s) t) ∧
     (100 < fld v 6 0 → ∃ t, exec (.servoConfigWrite w false v) s = .next t ∧ regBit Reg.SRV_STAT 0 t = true ∧
       onlyRegs [Reg.SRV_STAT] (usedBy w s) t) ∧
     (1 ≤ fld v 6 0 → fld v 6 0 ≤ 100 → (nextDay s).solverUs % fld v 6 0 = 0 →
       ∃ t, exec (.servoConfigWrite w false v) s = .next t ∧ regFld Reg.SRV_PERIOD 6 0 t = fld v 6 0 ∧
         regBit Reg.SRV_STAT 29 t = true ∧ t.day = s.day ∧ onlyRegs [Reg.SRV_STAT, Reg.SRV_PERIOD] (usedBy w s) t) ∧
     (1 ≤ fld v 6 0 → fld v 6 0 ≤ 100 → (nextDay s).solverUs % fld v 6 0 ≠ 0 →
       exec (.servoConfigWrite w false v) s = .next (usedBy w s)) ∧
     (fld v 7 0 = 0 → ∃ t, exec (.servoConfigWrite w true v) s = .next t ∧ regFld Reg.SRV_STAT 23 16 t = 0x01 ∧
       onlyRegs [Reg.SRV_STAT] (usedBy w s) t) ∧
     (fld v 7 0 ≠ 0 → ∃ t, exec (.servoConfigWrite w true v) s = .next t ∧
       regFld Reg.SRV_LIMITS 15 0 t = fld v 15 0 ∧ onlyRegs [Reg.SRV_STAT, Reg.SRV_LIMITS] (usedBy w s) t)) ∧
   (∀ (w : Writer) (n : Fin 64) (v : Word) (s : State), writesNow w s = true →
     ∃ t, exec (.axisCommit w n v) s = .next t ∧
       regBit (Reg.SRV_AXISn_CTL n) 31 t = (regBit (Reg.SRV_AXISn_CTL n) 31 s || bit v 31) ∧
       regFld (Reg.SRV_AXISn_CTL n) 2 0 t = fld v 2 0 ∧ t.srv.active = s.srv.active ∧
       regsKept [Reg.SRV_AXISn_CTL n] s t ∧ memKept s t) ∧
   (∀ (w : Writer) (n : Fin 64) (s : State), writesNow w s = true →
     (regBit (Reg.SRV_AXISn_STAT n) 31 s = true → (getAxis n s).faultAt ≠ some (now s / scRoot) →
       ∃ t, exec (.faultClear w n) s = .next t ∧ regBit (Reg.SRV_AXISn_STAT n) 31 t = false ∧
         (getAxis n t).stages = Stage.three ∧ (getAxis n t).cmd = 0 ∧ (getAxis n t).armed = rampEn n s ∧
         regsKept [Reg.SRV_AXISn_STAT n] s t ∧ memKept s t) ∧
     (regBit (Reg.SRV_AXISn_STAT n) 31 s = false ∨ (getAxis n s).faultAt = some (now s / scRoot) →
       exec (.faultClear w n) s = .next (usedBy w s)))) ∧
  ((∀ (w : Writer) (s : State), writesNow w s = true →
     ∃ t, exec (.traceArm w) s = .next t ∧ regBit Reg.SRV_TRC_STAT 31 t = true ∧ regBit Reg.SRV_TRC_STAT 30 t = false ∧
       regBit Reg.SRV_TRC_STAT 29 t = false ∧ regsKept [Reg.SRV_TRC_STAT] s t ∧ memKept s t) ∧
   (∀ (w : Writer) (s : State), writesNow w s = true →
     ∃ t, exec (.traceForce w) s = .next t ∧ (regBit Reg.SRV_TRC_STAT 31 s = true → t.srv.trace.forced = true) ∧
       onlyRegs [] { usedBy w s with srv := t.srv } t) ∧
   (∀ s : State, writesNow .host s = true →
     let a := regFld Reg.SRV_TRC_ADDR 12 0 s
     (regBit Reg.SRV_TRC_STAT 31 s = true →
       exec (.traceDataRead .host) s = .next { usedBy .host s with pcieData := 0 }) ∧
     (regBit Reg.SRV_TRC_STAT 31 s = false → ∃ t, exec (.traceDataRead .host) s = .next t ∧
       t.pcieData = tget (fun _ => 0) s.srv.trace.buf a ∧ regFld Reg.SRV_TRC_ADDR 12 0 t = (a + 1) % 8192 ∧
       regsKept [Reg.SRV_TRC_ADDR] s t ∧ memKept s t)) ∧
   (∀ s : State, srvRunning s = true → regBit Reg.SRV_TRC_STAT 31 s = true → s.srv.trace.armNext = false →
     traceNodes s ≠ 0 →
     let n := traceNodes s
     let r := s.srv.trace.next % (8192 / n)
     ∃ t, exec .traceRecord s = .next t ∧ now t = max (now s) (s.srv.start + 464 * scRoot) ∧
       t.srv.trace.next = (r + 1) % (8192 / n) ∧
       (∀ j < n, tget (fun _ => 0) t.srv.trace.buf (r * n + j) = wordI (traceNode j s)) ∧
       (∀ k, k < r * n ∨ r * n + n ≤ k → tget (fun _ => 0) t.srv.trace.buf k = tget (fun _ => 0) s.srv.trace.buf k) ∧
       memKept s t))

/-- R237, R240, R254, R258: a cutoff lies at sc 240 of a slot; at a cutoff of an axis its latch takes a good
measurement and keeps its values at a missing one; a period starts on the grid of the day, in its first fabric cycle at or after
the instant (R16, R344), the engine runs from it on
exactly while ENABLE is set, and the periods are counted from the enable. R242, R243, R250, R257, R259, R386, R387, R260: in
a period of a running engine an axis that is OFF, in fault or without torque enable has command 0 and histories 0, one
without a measurement repeats its command, and any other steps its cascade; the checker's decision on each axis shows in
SAF_AXn_STAT, SRV_PERSIST disagreements latch SERVO_CMP; and at sc 896 a command that agrees is released, while one that
does not repeats the last released one. (That disagreements count whatever SAF_CTL.ENABLE is log entry 108, that a run past
SRV_PERSIST latches again 109, and that latches of axes go on while the engine is off 40.) -/
def Obligations.ServoPeriodsAndCommands : Prop :=
  ((∀ s : State,
     let at_ := slotInstant (max (now s) (s.srv.cutoffAt + 1)) 25 s
     ∃ t, exec .measurementCutoff s = .next t ∧ now t = at_ ∧ now s ≤ at_ ∧ s.srv.cutoffAt < at_ ∧ memKept s t ∧
       ∀ n < 64, ∀ m, axisMeas n at_ (decide (s.srv.start ≤ at_) && decide (at_ < s.srv.start + usRoot)) s = some m →
         (∀ v, m = some v → (getAxis n t).latchPos = v.pos ∧ (getAxis n t).latchVel = v.vel ∧
           (getAxis n t).latchCur = v.cur ∧ (getAxis n t).stamp = some v.stamp ∧ (getAxis n t).missing = false ∧
           regBit (Reg.SRV_AXISn_STAT n) 28 t = false) ∧
         (m = none → (getAxis n t).latchPos = (getAxis n s).latchPos ∧ (getAxis n t).latchVel = (getAxis n s).latchVel ∧
           (getAxis n t).latchCur = (getAxis n s).latchCur ∧ (getAxis n t).missing = true ∧
           regBit (Reg.SRV_AXISn_STAT n) 28 t = true)) ∧
   (∀ s : State, 1 ≤ s.day.periodUs →
     ∃ t, exec .servoPeriodStart s = .next t ∧ now t = nextStart s ∧ t.srv.start = now t ∧ now s ≤ now t ∧ s.srv.start < now t ∧
       (∃ k : Int, now t = dayAt (k * (s.day.periodUs * usRoot : Nat)) s) ∧ srvRunning t = regBit Reg.SRV_CTL 31 s ∧
       (regBit Reg.SRV_CTL 31 s = true → getReg Reg.SRV_PERIOD_NUM t =
         if srvRunning s then getReg Reg.SRV_PERIOD_NUM s + 1 else 0) ∧
       (regBit Reg.SRV_CTL 31 s = false → ∀ n < 64, srvRunning s = true → regFld (Reg.SRV_AXISn_STAT n) 15 8 t = 0) ∧
       memKept s t)) ∧
  (∀ s : State, srvRunning s = true →
     (∃ t, exec .servoCompute s = .next t ∧ now t = max (now s) (s.srv.start + 464 * scRoot) ∧ memKept s t ∧
       ∀ n < 64, (getAxis n s).runsNow = true →
         let a := getAxis n s
         let off := a.mode = 0 ∨ regBit (Reg.SRV_AXISn_STAT n) 31 s = true ∨ a.ten = false
         (off → (getAxis n t).cmd = 0 ∧ (getAxis n t).stages = Stage.three) ∧
         (¬off → a.missedPeriod = true → (getAxis n t).cmd = a.cmd ∧ (getAxis n t).stages = a.stages ∧
           (getAxis n t).rPos = a.rPos) ∧
         (¬off → a.missedPeriod = false → a.hasTgt = true →
           (getAxis n t).cmd = (stepAxis n a s).1.cmd ∧ (getAxis n t).stages = (stepAxis n a s).1.stages) ∧
         getReg (Reg.SRV_AXISn_CMD n) t = word (BitVec.ofInt 16 (getAxis n t).cmd).toNat) ∧
     (∀ pe pc : Bool, ∃ t, exec (.servoCheck pe pc) s = .next t ∧ now t = max (now s) (s.srv.start + 880 * scRoot) ∧
       memKept s t ∧
       (∀ n < 64, (getAxis n s).runsNow = true →
         let run := min 15 (regFld (Reg.SAF_AXn_STAT n) 3 0 s + 1)
         let ok := (checkAxis n (getAxis n s) s).agree
         (getAxis n t).agree = ok ∧ (ok = true → getReg (Reg.SAF_AXn_STAT n) t = 0) ∧
         (ok = false → getReg (Reg.SAF_AXn_STAT n) t = word (2 ^ 31 + run) ∧
           (srvPersist s ≤ run → regBit Reg.SAF_LATCH Latch.servoCmp t = true))) ∧
       ((pe && pc) = false → srvPersist s ≤ s.srv.proofRun + 1 → regBit Reg.SAF_LATCH Latch.servoProof t = true)) ∧
     (∃ t, exec .commandRelease s = .next t ∧ now t = max (now s) (s.srv.start + 896 * scRoot) ∧ memKept s t ∧
       ∀ n < 64, (getAxis n s).runsNow = true →
         let a := getAxis n s
         (getAxis n t).lastRel = (if a.agree && regBit Reg.SAF_CTL 31 s then a.cmd else a.lastRel) ∧
         (getAxis n t).buf = (getAxis n t).lastRel))

/-! ### Courier lanes -/

/-- R286, R288, R289: enabling a lane starts its enumeration with drive 0 in the next slot, disabling stops it; ENUM
restarts it while the lane is enabled and is discarded otherwise; a READ or WRITE request sets BUSY and waits, and is
discarded while BUSY is 1; a request without a reply by U(s + 4) sets TIMEOUT, or ends the requests of an enumeration. R269
to R274, R283, R284: at the next slot boundary each enabled lane, and no other, starts one down frame, coded in 8b/10b with
its running disparity, whose 39 characters after the delimiter carry TYPE and SEQ, the slot's tick and both CRCs; an up frame
whose code groups are good, with a good CRC, is kept for the cutoffs with the instant of its check and the tick of its
delimiter, and one with bad code groups or a bad CRC is counted and kept for none. (That BUSY falls and an enumeration ends at a
disable is log entry 72, the stamp of TICK − 102 is 110, and the running disparity of a first frame 157.) -/
def Obligations.CourierLanes : Prop :=
  ((∀ (w : Writer) (l : Fin 16) (v : Word) (s : State), writesNow w s = true →
     ∃ t, exec (.laneEnable w l v) s = .next t ∧ laneOn l t = bit v 31 ∧ memKept s t ∧
       (bit v 31 = true → laneOn l s = false → laneState l t = 1 ∧
         ∃ e, (getLane l t).enum = some e ∧ e.drive = 0 ∧ e.nextSlot = slotNumber s + 1 ∧ e.sentSlot = none) ∧
       (bit v 31 = false → laneOn l s = true → laneState l t = 0 ∧ (getLane l t).enum = none ∧
         regBit (Reg.SRV_LANEl_SVC_RES l) 31 t = false)) ∧
   (∀ (w : Writer) (l : Fin 16) (s : State), writesNow w s = true →
     (laneOn l s = true → ∃ t, exec (.enumLane w l) s = .next t ∧ laneState l t = 1 ∧
       (∃ e, (getLane l t).enum = some e ∧ e.drive = 0) ∧ regsKept [Reg.SRV_LANEl_STAT l] s t ∧ memKept s t) ∧
     (laneOn l s = false → exec (.enumLane w l) s = .next (usedBy w s))) ∧
   (∀ (w : Writer) (l : Fin 16) (v : Word) (s : State), writesNow w s = true →
     (fld v 31 30 = 1 ∨ fld v 31 30 = 2 → regBit (Reg.SRV_LANEl_SVC_RES l) 31 s = false →
       ∃ t, exec (.serviceRequest w l v) s = .next t ∧ getReg (Reg.SRV_LANEl_SVC_RES l) t = 0x80000000 ∧
         (getLane l t).svcNext = some (v &&& 0xF0FFFFFF) ∧ memKept s t) ∧
     (fld v 31 30 = 1 ∨ fld v 31 30 = 2 → regBit (Reg.SRV_LANEl_SVC_RES l) 31 s = true →
       ∃ t, exec (.serviceRequest w l v) s = .next t ∧ t.lanes = s.lanes ∧
         getReg (Reg.SRV_LANEl_SVC_RES l) t = getReg (Reg.SRV_LANEl_SVC_RES l) s) ∧
     (fld v 31 30 = 0 ∨ fld v 31 30 = 3 → exec (.serviceRequest w l v) s = .next (usedBy w s))) ∧
   (∀ (l : Fin 16) (k : Nat) (s : State), k < 2 ^ 50 → deviceReset s = false →
     (∀ w, (getLane l s).svc = some (w, k) →
       ∃ t, exec (.serviceTimeout l) s = .next t ∧ getReg (Reg.SRV_LANEl_SVC_RES l) t = 0x20000000 ∧
         (getLane l t).svc = none ∧ 100 * (k + 4) + 25 ≤ t.clk.tick.toNat ∧ memKept s t) ∧
     (∀ e, (getLane l s).svc = none → (getLane l s).enum = some e → e.sentSlot = some k → e.drive ≤ 4 →
       ∃ t, exec (.serviceTimeout l) s = .next t ∧ regFld (Reg.SRV_LANEl_STAT l) 18 16 t = e.drive ∧
         100 * (k + 4) + 25 ≤ t.clk.tick.toNat ∧ (e.drive = 0 → laneState l t = 3 ∧ (getLane l t).enum = none) ∧
         (e.drive ≠ 0 → ∃ f, (getLane l t).enum = some f ∧ f.measure = true) ∧ memKept s t))) ∧
  ((∀ s : State,
     let at_ := slotInstant (max (now s) (s.srv.slotAt + 1)) 0 s
     ∃ t, ∃ f : Nat → List Byte, exec .slotBoundary s = .next t ∧ now t = at_ ∧ now s ≤ at_ ∧ s.srv.slotAt < at_ ∧
       t.outbox = s.outbox ++ ((List.range 16).filter (fun l => laneOn l s)).map
         (fun l => Out.downFrame l (encodeFrame (f l) (getLane l s).txDisp).1) ∧
       (∀ l < 16, laneOn l s = true → (f l).length = 39 ∧
         (getLane l t).txDisp = (encodeFrame (f l) (getLane l s).txDisp).2 ∧
         byteAt (f l) 0 = (if srvRunning s && decide (laneState l t = 3) then 0 else 64) + slotNumber t % 16 ∧
         leAt (f l) 11 2 = (crc16 ((f l).take 11)).toNat ∧ leAt (f l) 13 8 = t.clk.tick.toNat ∧
         leAt (f l) 37 2 = (crc16 (((f l).drop 13).take 24)).toNat) ∧ memKept s t) ∧
   (∀ (l : Fin 16) (gs : List (BitVec 10)) (r : BitVec 9) (ecc : Bool) (s : State),
     let code := (decodeFrame gs (getLane l s).rxDisp).1
     (laneOn l s = false → exec (.upFrame l gs r ecc) s = .next s) ∧
     (∀ cs, laneOn l s = true → code = some cs → leAt cs 37 2 = (crc16 (cs.take 37)).toNat →
       ∃ t, exec (.upFrame l gs r ecc) s = .next t ∧
         (getLane l t).heard = hearFrame s.srv.cutoffAt ⟨cs, now s, s.clk.tick - 102, ecc⟩ (getLane l s).heard ∧
         reg64 (Reg.SRV_LANEl_UP_STAMP_LO l) (Reg.SRV_LANEl_UP_STAMP_HI l) t = s.clk.tick - 102 ∧
         regFld (Reg.SRV_LANEl_STAT l) 15 14 t = byteAt cs 0 / 16 % 4 ∧ now t = now s ∧ memKept s t) ∧
     (laneOn l s = true → (∀ cs, code = some cs → leAt cs 37 2 ≠ (crc16 (cs.take 37)).toNat) →
       ∃ t, exec (.upFrame l gs r ecc) s = .next t ∧ (getLane l t).heard = (getLane l s).heard ∧ memKept s t ∧
         (let o := if code.isNone then Reg.SRV_LANEl_CODE_ERR l else Reg.SRV_LANEl_CRC_ERR l
          getReg o t = countUp (getReg o s) 1 ∧ regsKept [o, Reg.CLK_EXT_STAT] s t))))

/-! ### CAN FD -/

/-- R295: a controller offers the safety frame first; without one, a waiting axis command of smallest identifier; without
any of those, the pending buffer of smallest identifier, the lowest index of equals. (The order of a base and an extended
identifier, by the base one's 11 bits with zeros below, is log entry 174.) -/
def Obligations.CanArbitrationOrder : Prop :=
  ∀ (c : Nat) (s : State),
    (∀ f, (getCan c s).safety = some f → canTop c s = some (.safety, f)) ∧
    ((getCan c s).safety = none → ∀ src g, canTop c s = some (src, g) →
      (∀ k f, (k, some f) ∈ (getCan c s).axisTx → (∃ j, src = .axis j) ∧ orderId g ≤ orderId f) ∧
      ((∀ k f, (k, some f) ∉ (getCan c s).axisTx) → ∃ b < 32, src = .buffer b ∧ regBit (Reg.CAN_Cc_TX_REQ c) b s = true ∧
        g = bufferFrame c b s ∧ ∀ d < 32, regBit (Reg.CAN_Cc_TX_REQ c) d s = true →
          orderId g < orderId (bufferFrame c d s) ∨ (orderId g = orderId (bufferFrame c d s) ∧ b ≤ d)))

/-- R292, R294 to R296: bit timing is written while CONFIG is 1 and discarded otherwise; a request makes its buffers pending,
and a free controller on the bus starts the frame that R295 puts first; an abort ends the pending state; a buffer that is sent
is done, no longer pending and on the bus; one that loses arbitration waits for the bus, where it came from (log entry 113). -/
def Obligations.CanTransmission : Prop :=
  (∀ (w : Writer) (c : Fin 4) (d : Bool) (v : Word) (s : State), writesNow w s = true →
    let o := if d then Reg.CAN_Cc_DBT c else Reg.CAN_Cc_NBT c
    (regBit (Reg.CAN_Cc_CTL c) 30 s = true → ∃ t, exec (.bitTimingWrite w c d v) s = .next t ∧
      (if d then regFld o 28 23 t = fld v 28 23 ∧ regFld o 21 16 t = fld v 21 16 ∧ regFld o 12 8 t = fld v 12 8 ∧
          regFld o 4 0 t = fld v 4 0
        else regFld o 31 16 t = fld v 31 16 ∧ regFld o 14 8 t = fld v 14 8 ∧ regFld o 6 0 t = fld v 6 0) ∧
      onlyRegs [o] (usedBy w s) t) ∧
    (regBit (Reg.CAN_Cc_CTL c) 30 s = false → exec (.bitTimingWrite w c d v) s = .next (usedBy w s))) ∧
  (∀ (w : Writer) (c : Fin 4) (v : Word) (s : State), writesNow w s = true →
    ∃ t, exec (.canTxRequest w c v) s = .next t ∧
      getReg (Reg.CAN_Cc_TX_REQ c) t = getReg (Reg.CAN_Cc_TX_REQ c) s ||| v ∧ regsKept [Reg.CAN_Cc_TX_REQ c] s t ∧
      ((getCan c s).sending = none → (getCan c s).waiting = false → canOn c s = true →
        regBit (Reg.CAN_Cc_CTL c) 29 s = false →
        (getCan c t).sending =
          (canTop c (orReg (Reg.CAN_Cc_TX_REQ c) v (usedBy w s))).map (fun p => (p.1, onBus c p.2 s))) ∧ memKept s t) ∧
  (∀ (w : Writer) (c : Fin 4) (v : Word) (s : State), writesNow w s = true →
    ∃ t, exec (.canTxAbort w c v) s = .next t ∧
      getReg (Reg.CAN_Cc_TX_REQ c) t = getReg (Reg.CAN_Cc_TX_REQ c) s &&& ~~~v ∧
      onlyRegs [Reg.CAN_Cc_TX_REQ c] (usedBy w s) t) ∧
  (∀ (c : Fin 4) (age b : Nat) (f : CanFrame) (s : State), (getCan c s).sending = some (.buffer b, f) → b < 32 →
    ∃ t, exec (.canTxDone c age) s = .next t ∧ t.outbox = s.outbox ++ [Out.canFrame c f] ∧
      regBit (Reg.CAN_Cc_TX_DONE c) b t = true ∧ regBit (Reg.CAN_Cc_TX_REQ c) b t = false ∧
      (let n := regFld (Reg.CAN_Cc_TXE_TAIL c) 4 0 s
       let e := fun i => getReg (Reg.CAN_Cc_TXE_FIFO c (4 * n + i)) t
       (getCan c s).txeFull = false → e 0 = lo32 (s.clk.tick - BitVec.ofNat 64 age) ∧
         e 1 = hi32 (s.clk.tick - BitVec.ofNat 64 age) ∧ e 2 = word b ∧
         regFld (Reg.CAN_Cc_TXE_TAIL c) 4 0 t = (n + 1) % 32) ∧
      ((getCan c s).txeFull = true → regBit (Reg.CAN_Cc_STAT c) 28 t = true) ∧ memKept s t) ∧
  (∀ (c : Fin 4) (src : CanSource) (f : CanFrame) (s : State), (getCan c s).sending = some (src, f) →
    ∃ t, exec (.canArbitrationLost c) s = .next t ∧ (getCan c t).sending = none ∧ (getCan c t).waiting = true ∧
      t.outbox = s.outbox ∧ getReg (Reg.CAN_Cc_TX_REQ c) t = getReg (Reg.CAN_Cc_TX_REQ c) s ∧
      (src = .safety → (getCan c t).safety.isSome = true) ∧
      (∀ k, src = .axis k → (tget (fun _ => none) (getCan c t).axisTx k).isSome = true))

/-- R293, R297, R299 (with the error counts of ISO 11898-1 as log entry 41 presumes them): an error raises TEC by 8 of a
transmitter but in the two cases ISO exempts, and REC by 1 of a receiver or by 8 in its heavier cases, and a TEC above 255
makes the controller bus-off, counted, or recovering with AUTO_RECOVER; RECOVER starts the recovery and its end makes the
controller error-active; a received frame goes to the latch of the axis it measures, else to the FIFO by its lowest matching
filter, and finds a full FIFO lost and counted. -/
def Obligations.CanErrorsAndReception : Prop :=
  (∀ (c : Fin 4) (tx : Bool) (kind : CanErr) (s : State), canOn c s = true →
    let n := if tx && kind != .exempt then tec c s + 8 else tec c s
    let m := if tx then rec_ c s else rec_ c s + (if kind = .heavy then 8 else 1)
    ∃ t, exec (.canBusError c ⟨tx, kind⟩) s = .next t ∧ tec c t = min 511 n ∧ rec_ c t = min 255 m ∧ memKept s t ∧
      (n ≤ 255 → canState c t = if 127 < n ∨ 127 < m then 1 else 0) ∧
      (255 < n → canState c t = (if regBit (Reg.CAN_Cc_CTL c) 28 s then 3 else 2) ∧
        getReg (Reg.CAN_Cc_BUSOFF_COUNT c) t = countUp (getReg (Reg.CAN_Cc_BUSOFF_COUNT c) s) 1 ∧
        (getCan c t).axisTx = [] ∧ (getCan c t).sending = none)) ∧
  (∀ (w : Writer) (c : Fin 4) (s : State), writesNow w s = true →
    (canState c s = 2 → ∃ t, exec (.canRecover w c) s = .next t ∧ canState c t = 3 ∧
      onlyRegs [Reg.CAN_Cc_STAT c] (usedBy w s) t) ∧
    (canState c s ≠ 2 → exec (.canRecover w c) s = .next (usedBy w s))) ∧
  (∀ (c : Fin 4) (s : State), canState c s = 3 →
    ∃ t, exec (.canRecoveryComplete c) s = .next t ∧ canState c t = 0 ∧ getReg (Reg.CAN_Cc_ERRCNT c) t = 0 ∧
      regsKept [Reg.CAN_Cc_STAT c, Reg.CAN_Cc_ERRCNT c] s t ∧ memKept s t) ∧
  (∀ (c : Fin 4) (f : CanFrame) (age k : Nat) (s : State), canOn c s = true →
    let stamp := s.clk.tick - BitVec.ofNat 64 age
    (measEntry c f s = some k → 12 ≤ f.data.length → (byteAt f.data 8).testBit 0 = true →
      ∃ t, exec (.canRxFrame c f age) s = .next t ∧
        tget (fun _ => []) (getCan c t).meas k =
          hearFrame s.srv.cutoffAt ⟨f.data, now s, stamp, false⟩ (tget (fun _ => []) (getCan c s).meas k) ∧
        getReg (Reg.CAN_Cc_RX_TAIL c) t = getReg (Reg.CAN_Cc_RX_TAIL c) s ∧ memKept s t) ∧
    (measEntry c f s = none → matchFilter c f s = some k → (getCan c s).rxFull = false →
      let n := regFld (Reg.CAN_Cc_RX_TAIL c) 5 0 s
      ∃ t, exec (.canRxFrame c f age) s = .next t ∧ regFld (Reg.CAN_Cc_RX_TAIL c) 5 0 t = (n + 1) % 64 ∧
        getReg (Reg.CAN_Cc_RX_FIFO c (20 * n)) t = idWord f ∧
        getReg (Reg.CAN_Cc_RX_FIFO c (20 * n + 2)) t = lo32 stamp ∧
        getReg (Reg.CAN_Cc_RX_FIFO c (20 * n + 3)) t = hi32 stamp ∧
        regFld (Reg.CAN_Cc_RX_FIFO c (20 * n + 1)) 20 16 t = k ∧
        (∀ i < 16, getReg (Reg.CAN_Cc_RX_FIFO c (20 * n + 4 + i)) t = wordAt (slice f.data 0 64) (4 * i)) ∧ memKept s t) ∧
    (measEntry c f s = none → matchFilter c f s = some k → (getCan c s).rxFull = true →
      ∃ t, exec (.canRxFrame c f age) s = .next t ∧ regBit (Reg.CAN_Cc_STAT c) 29 t = true ∧
        getReg (Reg.CAN_Cc_RX_LOST c) t = countUp (getReg (Reg.CAN_Cc_RX_LOST c) s) 1 ∧
        getReg (Reg.CAN_Cc_RX_TAIL c) t = getReg (Reg.CAN_Cc_RX_TAIL c) s ∧ memKept s t))

/-! ### Safety -/

/-- R394, R396, R397: setting a latch bit sets it and no other one; SAFE_N is low unless the bits that stand are WARN_DIAG
alone; and every output that it drops is low, held, and no longer armed. (That the pins change in the cycle of the latch, within
the 50 µs and 2 µs that R396 and R397 allow, is log entry 134.) -/
def Obligations.LatchesDropOutputs : Prop :=
  ∀ (b : Nat) (ten : BitVec 16) (s : State), b < 12 →
    let t := setLatch b ten s
    regBit Reg.SAF_LATCH b t = true ∧ (∀ k < 12, k ≠ b → regBit Reg.SAF_LATCH k t = regBit Reg.SAF_LATCH k s) ∧
      (b ≠ Latch.warnDiag → safeN t = false) ∧ now t = now s ∧ memKept s t ∧
      (∀ n < 16, ten.getLsbD n = true → (tenPins t).getLsbD n = false ∧ regBit Reg.SAF_TEN_STAT (16 + n) t = true ∧
        regBit Reg.SAF_TEN_ARM n t = false)

/-- R394, R396 to R400, R402: FORCE drops every output; an armed output rises exactly when no latch bit holds it; a latch bit
written 1 clears unless its condition stands or an event of the same cycle sets it, and SAFE_N follows, low throughout reset;
SRV_PERSIST and PROOF_DAYS of 0 are discarded; while a bit is set the safety frame goes again after REPEAT_MS with the next
SEQ. (That pins change in the cycle of the write is log entry 134.) -/
def Obligations.SafetyControls : Prop :=
  (∀ (w : Writer) (s : State), writesNow w s = true →
    ∃ t, exec (.safetyForce w) s = .next t ∧ regBit Reg.SAF_LATCH Latch.force t = true ∧ tenPins t = 0 ∧ safeN t = false ∧
      memKept s t) ∧
  (∀ (w : Writer) (v : Word) (s : State), writesNow w s = true →
    ∃ t, exec (.tenArm w v) s = .next t ∧ getReg Reg.SAF_LATCH t = getReg Reg.SAF_LATCH s ∧ memKept s t ∧
      ∀ n < 16, (tenPins t).getLsbD n = ((regBit Reg.SAF_TEN_ARM n s || bit v n) && !(heldTen s).getLsbD n)) ∧
  (∀ (w : Writer) (v sets : Word) (s : State), writesNow w s = true →
    ∃ t, exec (.latchClear w ⟨v, sets⟩) s = .next t ∧ memKept s t ∧
      (∀ e ∈ standingLatches s, regBit Reg.SAF_LATCH e.1 s = true → regBit Reg.SAF_LATCH e.1 t = true) ∧
      ((∀ e ∈ standingLatches s, bit v e.1 = false) →
        getReg Reg.SAF_LATCH t = getReg Reg.SAF_LATCH s &&& ~~~(v &&& ~~~sets) ∧
        safeN t = (decide (getReg Reg.SAF_LATCH t &&& latchSafeMask = 0) && !deviceReset s))) ∧
  (∀ (w : Writer) (p : Bool) (v : Word) (s : State), writesNow w s = true →
    let o := if p then Reg.SAF_PROOF_CFG else Reg.SAF_SRV_CFG
    let top := if p then 7 else 3
    (fld v top 0 = 0 → ∃ t, exec (.safetyConfigWrite w p v) s = .next t ∧ getReg o t = getReg o s) ∧
    (fld v top 0 ≠ 0 → ∃ t, exec (.safetyConfigWrite w p v) s = .next t ∧ regFld o top 0 t = fld v top 0 ∧
      onlyRegs [o] (usedBy w s) t)) ∧
  (∀ s : State,
    (getReg Reg.SAF_LATCH s = 0 ∨ regFld Reg.SAF_SF_CFG 7 0 s = 0 ∨ regBit Reg.SAF_SF_CFG 31 s = false →
      exec .safetyFrameRepeat s = .next s) ∧
    (getReg Reg.SAF_LATCH s ≠ 0 → regFld Reg.SAF_SF_CFG 7 0 s ≠ 0 → regBit Reg.SAF_SF_CFG 31 s = true →
      let c := regFld Reg.SAF_SF_CFG 29 28 s
      ∃ t, exec .safetyFrameRepeat s = .next t ∧
        now t = max (now s) (s.saf.frameAt.getD 0 + regFld Reg.SAF_SF_CFG 7 0 s * 1000 * usRoot) ∧
        getReg Reg.SAF_SF_SEQ t = getReg Reg.SAF_SF_SEQ s + 1 ∧
        ((getCan c t).safety = some (safetyFrame t) ∨ (getCan c t).sending = some (.safety, onBus c (safetyFrame t) t)) ∧
        memKept s t))

/-- R371, R383, R388, R402: a binding is enabled when it meets R371 and MAX_GAP_US is above 0, with DIAG 0 and its gap
counting, and one whose camera's report stands latches CAMERA at once (R384, R394); a 0 gives FIELD_ZERO and a broken condition
CFG_ERR, and either leaves it disabled, also where it was enabled (log entry 119); at the end of the tick in which MAX_GAP_US
after the last release has passed (log entry 120) it is INVALID and GAP latches. R373, R374: with no counterfoil run in
progress the oldest queued run starts at the later of its dispatch and the end of the run before it, and lasts its load and
its cycles; a program that fails its checks spoils it, and so does an uncorrectable error at its end, which leaves its output
as it was computed. -/
def Obligations.BindingsAndCounterfoil : Prop :=
  ((∀ (w : Writer) (k : Fin 16) (v : Word) (s : State), writesNow w s = true →
     (bit v 31 = false → ∃ t, exec (.bindingEnable w k v) s = .next t ∧ (getBinding k t).enabled = false ∧
       regBit (Reg.SAF_CHKk_CTL k) 31 t = false ∧ regBit (Reg.SAF_CHKk_STAT k) 31 t = false) ∧
     (bit v 31 = true → getReg (Reg.SAF_CHKk_GAP k) s = 0 → ∃ t, exec (.bindingEnable w k v) s = .next t ∧
       (getBinding k t).enabled = false ∧ regBit (Reg.SAF_CHKk_CTL k) 31 t = false ∧
       regFld (Reg.SAF_CHKk_STAT k) 23 16 t = 0x01) ∧
     (bit v 31 = true → getReg (Reg.SAF_CHKk_GAP k) s ≠ 0 → (bindingOk k v s).1 = false →
         ∃ t, exec (.bindingEnable w k v) s = .next t ∧
       (getBinding k t).enabled = false ∧ regBit (Reg.SAF_CHKk_CTL k) 31 t = false ∧
       regBit (Reg.SAF_CHKk_STAT k) 28 t = true) ∧
     (bit v 31 = true → getReg (Reg.SAF_CHKk_GAP k) s ≠ 0 → (bindingOk k v s).1 = true → (getBinding k s).enabled = false →
       ∃ t, exec (.bindingEnable w k v) s = .next t ∧ (getBinding k t).enabled = true ∧ (getBinding k t).since = now s ∧
         regBit (Reg.SAF_CHKk_CTL k) 31 t = true ∧ regFld (Reg.SAF_CHKk_STAT k) 7 0 t = 0 ∧
         regFld (Reg.SAF_CHKk_STAT k) 23 16 t = 0 ∧ memKept s t ∧
         (cameraStands k t = true → regBit Reg.SAF_LATCH Latch.camera t = true ∧ regBit (Reg.SAF_CHKk_STAT k) 31 t = true))) ∧
   (∀ (k : Fin 16) (s : State), (getBinding k s).enabled = true → (getBinding k s).gap = false →
     ∃ t, exec (.bindingExpiry k) s = .next t ∧
       now t = max (now s) (((((getBinding k s).since + (getReg (Reg.SAF_CHKk_GAP k) s).toNat * usRoot) / 48) + 1) * 48) ∧
       (getBinding k t).gap = true ∧ regBit (Reg.SAF_CHKk_STAT k) 31 t = true ∧ regBit Reg.SAF_LATCH Latch.gap t = true ∧
       memKept s t)) ∧
  ((∀ (r : CfRun) (s : State), (∀ x ∈ s.saf.runs, x.startAt.isSome = true → x.ended = true) →
     s.saf.runs.find? (fun r => r.startAt.isNone) = some r →
     ∃ t, exec .counterfoilRunStart s = .next t ∧ now t = max (now s) (max r.dispatchAt s.saf.cfFreeAt) ∧ memKept s t ∧
       ∃ x ∈ t.saf.runs, x.uid = r.uid ∧ x.binding = r.binding ∧ x.startAt = some (now t) ∧
         x.endAt = now t + cfRunRoot (rdBytes .dram (cfAddr r.binding s) 64 s) ∧ t.saf.cfFreeAt = x.endAt ∧
         (∀ j, getJob r.uid s = some j → (cfCheck r.binding (buildOf j.desc.handle s) s).1.ok = false → x.bad = true)) ∧
   (∀ (e : Bool) (ws : List Word64) (r : CfRun) (s : State),
     s.saf.runs.find? (fun r => r.startAt.isSome && !r.ended) = some r →
     ∃ t, exec (.counterfoilRunEnd e ws) s = .next t ∧ now t = max (now s) r.endAt ∧ memKept s t ∧
       ∃ x ∈ t.saf.runs, x.uid = r.uid ∧ x.binding = r.binding ∧ x.ended = true ∧ x.values = r.values ∧ x.bad = (r.bad || e)))

/-- R375, R378, R379, R381, R382, R391: the comparator takes its next decision at its instant. When the only binding of a job
agrees, its outputs flip and the job leaves accepted, and where the run is a replay, REPLAY_PENDING clears and the replay is
counted; a disagreement on an original run flips nothing, is counted and sets REPLAY_PENDING; one on a replay makes the binding
INVALID and latches CMP_PERSIST; a proof frame resets DIAG, or latches PROOF_FAIL. (A disagreement acts at its own decision,
while other bindings of the job are open: log entry 44. What DIGEST_CF covers: log entry 42.) -/
def Obligations.ComparatorDecides : Prop :=
  ∀ (d : Nat) (j : Job) (r : CfRun) (s : State), nextDecision s = some (d, j, r) → isRingJob j = false →
    let u := runTo d s
    ∃ t, exec .comparatorDecision s = .next t ∧ now t = max (now s) d ∧
      (j.proof = none → (getBinding r.binding s).enabled = true → (cfDecide j r u).1 = true → j.decided = [] →
        (∀ x ∈ s.saf.runs, x.uid = j.uid → x.binding = r.binding) →
        (∀ x ∈ t.disp.jobs, x.uid ≠ j.uid) ∧ (getBinding r.binding t).since = now t ∧
        (getBinding r.binding t).gap = false ∧ (getBinding r.binding t).persist = false ∧
        reg64 (Reg.SAF_CHKk_LAST_LO r.binding) (Reg.SAF_CHKk_LAST_HI r.binding) t = t.clk.tick ∧
        (j.isReplay = true → regBit (Reg.SAF_CHKk_STAT r.binding) 30 t = false ∧
          getReg Reg.SAF_REPLAY_OK_COUNT t = countUp (getReg Reg.SAF_REPLAY_OK_COUNT s) 1) ∧
        (j.isReplay = false → getReg Reg.SAF_REPLAY_OK_COUNT t = getReg Reg.SAF_REPLAY_OK_COUNT s ∧
          regBit (Reg.SAF_CHKk_STAT r.binding) 30 t = regBit (Reg.SAF_CHKk_STAT r.binding) 30 s) ∧
        (j.outs = [] → ∀ h ∈ outputsOf j s, backLocked (getHandoff (fabricKey h) s) = false →
          (getHandoff (fabricKey h) t).commits = (getHandoff (fabricKey h) s).commits + 1)) ∧
      (j.proof = none → (getBinding r.binding s).enabled = true → (cfDecide j r u).1 = false → j.isReplay = false →
        getReg Reg.SAF_DISAGREE_COUNT t = countUp (getReg Reg.SAF_DISAGREE_COUNT s) 1 ∧
        regBit (Reg.SAF_CHKk_STAT r.binding) 30 t = true ∧ (∀ h, getHandoff h t = getHandoff h s) ∧
        getReg Reg.SAF_LATCH t = getReg Reg.SAF_LATCH s) ∧
      (j.proof = none → (getBinding r.binding s).enabled = true → (cfDecide j r u).1 = false → j.isReplay = true →
        regBit Reg.SAF_LATCH Latch.cmpPersist t = true ∧ (getBinding r.binding t).persist = true ∧
        regBit (Reg.SAF_CHKk_STAT r.binding) 31 t = true) ∧
      (∀ k, j.proof = some k → (proofPasses j r u).1 = true →
        regFld (Reg.SAF_CHKk_STAT k) 7 0 t = 0 ∧ regBit (Reg.SAF_CHKk_STAT k) 29 t = false ∧
        (getBinding k t).proofFailed = false) ∧
      (∀ k, j.proof = some k → (proofPasses j r u).1 = false →
        regBit (Reg.SAF_CHKk_STAT k) 29 t = true ∧ (getBinding k t).proofFailed = true ∧
        regBit Reg.SAF_LATCH Latch.proofFail t = true)

/-! ### Ring -/

/-- R336, R337, R339, R348, R367: an ACTIVE port takes the next flit when its CRC is good, and counts and discards one whose
CRC is bad; 1 µs without an acknowledgement is a retry, the eighth in a row retrains; training goes DETECT, EQ, ALIGN, VERIFY,
ACTIVE, ALIGN and RETRAIN find polarity and lane order, and the third failure of EQ or RETRAIN leads to DOWN; a failure of
DETECT or EQ before that keeps the state and is counted (log entry 47); ENABLE takes a port from OFF to DETECT or puts it OFF;
RETRAIN and a loss of block lock retrain an ACTIVE port, and where a neighbour's bypass has changed, which shows as a loss of
block lock (log entry 170), the ring is BROKEN, whatever the port does while the ring is UP. -/
def Obligations.RingLinks : Prop :=
  (∀ (p : Fin 2) (f : Flit) (s : State),
    let b := slice f.bytes 0 272
    let good := decide (crc32 (slice b 0 268) = wordAt b 268)
    let errs := fun u => getReg (Reg.RNG_Pp_CRC_ERR p) u
    (portState p s ≠ 5 → exec (.flitReceived p f) s = .next s) ∧
    (portState p s = 5 → good = true → flitSeq b = (getPort p s).rxNext.toNat → leAt b 0 2 / 2 ^ 14 < 2 →
      ∃ t, exec (.flitReceived p f) s = .next t ∧ (getPort p t).rxNext = (getPort p s).rxNext + 1 ∧ errs t = errs s ∧
        memKept s t) ∧
    (portState p s = 5 → good = false → ∃ t, exec (.flitReceived p f) s = .next t ∧
      (getPort p t).rxNext = (getPort p s).rxNext ∧ (getPort p t).nakSent = true ∧ errs t = countUp (errs s) 1 ∧
      memKept s t)) ∧
  (∀ (p : Fin 2) (s : State), let x := getPort p s
    (x.unacked = [] ∨ portState p s ≠ 5 → exec (.ackTimeout p) s = .next s) ∧
    (x.unacked ≠ [] → portState p s = 5 → ∃ t, exec (.ackTimeout p) s = .next t ∧ now t = max (now s) (x.ackAt + usRoot) ∧
      getReg (Reg.RNG_Pp_RETRY p) t = countUp (getReg (Reg.RNG_Pp_RETRY p) s) 1 ∧ memKept s t ∧
      portState p t = (if 8 ≤ x.retries + 1 then 6 else 5) ∧
      (8 ≤ x.retries + 1 → getReg (Reg.RNG_Pp_RETRAIN p) t = countUp (getReg (Reg.RNG_Pp_RETRAIN p) s) 1))) ∧
  (∀ (p : Fin 2) (r : TrainResult) (s : State), linkClerkUp s = true → let x := getPort p s
    ∃ t, exec (.trainingStep p r) s = .next t ∧
      (r.ok = true → portState p s ∈ [1, 2, 3, 4] → portState p t = portState p s + 1) ∧
      (r.ok = true → portState p s = 6 → portState p t = 5) ∧
      (r.ok = true → portState p s ∈ [3, 6] → regFld (Reg.RNG_Pp_STAT p) 23 0 t = r.polarity.toNat ∧
        regBit (Reg.RNG_Pp_STAT p) 28 t = r.reversed) ∧
      (r.ok = false → portState p s = 2 → portState p t = if 3 ≤ x.eqFails + 1 then 7 else 2) ∧
      (r.ok = false → portState p s = 6 → portState p t = if 3 ≤ x.retrainFails + 1 then 7 else 6) ∧
      (r.ok = false → portState p s ∈ [1, 2] → portState p t ≠ 7 →
        regFld (Reg.RNG_Pp_STAT p) 27 24 t = min 15 (regFld (Reg.RNG_Pp_STAT p) 27 24 s + 1))) ∧
  (∀ (w : Writer) (p : Fin 2) (v : Word) (s : State), writesNow w s = true →
    ∃ t, exec (.portEnable w p v) s = .next t ∧ regBit (Reg.RNG_Pp_CTL p) 31 t = bit v 31 ∧ memKept s t ∧
      (bit v 31 = false → portState p t = 0) ∧ (bit v 31 = true → portState p s = 0 → portState p t = 1) ∧
      (bit v 31 = true → bit v 30 = false → portState p s ≠ 0 → portState p t = portState p s)) ∧
  (∀ (w : Writer) (p : Fin 2) (s : State),
    (portState p s ≠ 5 → (∀ b, b = false ∨ ringUp s = false → exec (.lossOfBlockLock ⟨p, b⟩) s = .next s) ∧
      (ringUp s = true → ∃ t, exec (.lossOfBlockLock ⟨p, true⟩) s = .next t ∧ regFld Reg.RNG_STAT 31 29 t = 4) ∧
      (writesNow w s = true → exec (.portRetrain w p) s = .next (usedBy w s))) ∧
    (portState p s = 5 → ∀ b, ∃ t, exec (.lossOfBlockLock ⟨p, b⟩) s = .next t ∧ portState p t = 6 ∧
      getReg (Reg.RNG_Pp_RETRAIN p) t = countUp (getReg (Reg.RNG_Pp_RETRAIN p) s) 1 ∧
      (b = false ∨ regBit Reg.RNG_CTL 31 s = false →
        regsKept [Reg.RNG_Pp_RETRAIN p, Reg.RNG_Pp_STAT p] s t ∧ memKept s t) ∧
      (b = true → regBit Reg.RNG_CTL 31 s = true → regFld Reg.RNG_STAT 31 29 t = 4)) ∧
    (portState p s = 5 → writesNow w s = true → ∃ t, exec (.portRetrain w p) s = .next t ∧ portState p t = 6 ∧
      getReg (Reg.RNG_Pp_RETRAIN p) t = countUp (getReg (Reg.RNG_Pp_RETRAIN p) s) 1 ∧
      regsKept [Reg.RNG_Pp_RETRAIN p, Reg.RNG_Pp_STAT p] s t ∧ memKept s t))

/-- No job of the device is a ring job. -/
def quietRing (s : State) : Prop := ∀ j ∈ s.disp.jobs, isRingJob j = false

/-- R340 to R343, R347, R367, R368, R407: an enable with EXPECT 0 gives FIELD_ZERO and changes nothing else, an enable leads to
STATE 1 and a disable to OFF with its ports; only an enabled master starts a reset, and the token that it sends carries its
time, OFS and RATE; a member's step takes 40 µs and adopts the master's time and rate (log entry 48); the token's return makes
the ring UP, or BROKEN with the reason; and so does its limit (a ring that breaks under a ring job is done at the end of that
fabric cycle). -/
def Obligations.RingResets : Prop :=
  (∀ (w : Writer) (v : Word) (s : State), writesNow w s = true →
    (bit v 31 = true → fld v 3 0 = 0 → ∃ t, exec (.ringEnable w v) s = .next t ∧ regFld Reg.RNG_STAT 23 16 t = 0x01 ∧
      onlyRegs [Reg.RNG_STAT] (usedBy w s) t) ∧
    (bit v 31 = true → fld v 3 0 ≠ 0 → bit v 30 = false → bit v 28 = false → regBit Reg.RNG_CTL 31 s = false →
      ∃ t, exec (.ringEnable w v) s = .next t ∧ regBit Reg.RNG_CTL 31 t = true ∧ regFld Reg.RNG_CTL 3 0 t = fld v 3 0 ∧
        regFld Reg.RNG_STAT 31 29 t = 1 ∧ memKept s t ∧
        ∀ p < 2, regBit (Reg.RNG_Pp_CTL p) 31 t = true ∧ (portState p s = 0 → portState p t = 1)) ∧
    (bit v 31 = false → bit v 30 = false → bit v 28 = false → regBit Reg.RNG_CTL 31 s = true →
      ∃ t, exec (.ringEnable w v) s = .next t ∧ regBit Reg.RNG_CTL 31 t = false ∧ regFld Reg.RNG_STAT 31 29 t = 0 ∧
        regFld Reg.RNG_STAT 15 12 t = 1 ∧ ∀ p < 2, regBit (Reg.RNG_Pp_CTL p) 31 t = false ∧ portState p t = 0)) ∧
  (∀ (w : Writer) (s : State), writesNow w s = true →
    (isMaster s = true → regBit Reg.RNG_CTL 31 s = true → ∃ t, exec (.ringResetStart (some w)) s = .next t ∧
      regFld Reg.RNG_STAT 31 29 t = 2 ∧ t.ring.resetAt = some (now s) ∧
      (let i := instantAfter 0 s
       let d : Int := (s.clk.tick.toNat : Int) - i.tick.toNat
       Out.ringControl 0 (.reset i 0 [ringSlot s] ((tokenClock s).1 - BitVec.ofInt 96 (d * rateActs (tokenClock s).2))
        (tokenClock s).2) ∈ t.outbox)) ∧
    (isMaster s = false ∨ regBit Reg.RNG_CTL 31 s = false →
      exec (.ringResetStart (some w)) s = .next (usedBy w s) ∧ exec (.ringResetStart none) s = .next s)) ∧
  (∀ (i : Instant) (h : Nat) (hop : BitVec 16) (sl : List (BitVec 3)) (bad : Bool) (ofs : BitVec 96) (r : Word) (s : State),
    let run := exec (.resetToken i h hop sl bad ofs r) s
    (regBit Reg.RNG_CTL 31 s = false → run = .next s) ∧
    (regBit Reg.RNG_CTL 31 s = true → isMaster s = true → let why := resetReason sl bad s
      ∃ t, run = .next t ∧ now s + 40 * usRoot ≤ now t ∧ (why = 0 → now t = now s + 40 * usRoot) ∧
        (∃ b, Out.ringControl 0 (.bcast b) ∈ t.outbox ∧ byteAt b 0 = 6 ∧ byteAt b 1 = why) ∧
        (why = 0 → regFld Reg.RNG_STAT 31 29 t = 3 ∧ regFld Reg.RNG_STAT 26 24 t = 0 ∧
          regFld Reg.RNG_STAT 15 12 t = sl.length ∧
          regBit Reg.RNG_STAT 27 t = decide (sl.length < regFld Reg.RNG_CTL 3 0 s) ∧
          getReg Reg.RNG_BARRIER_SEQ t = 0 ∧
          getReg Reg.RNG_RESET_COUNT t = countUp (getReg Reg.RNG_RESET_COUNT s) 1) ∧
        (why ≠ 0 → regFld Reg.RNG_STAT 31 29 t = 4 ∧ regFld Reg.RNG_STAT 11 8 t = why)) ∧
    (regBit Reg.RNG_CTL 31 s = true → isMaster s = false → bad = false → sl.length < 8 → deviceReset s = false →
      ∃ t, run = .next t ∧ now t = now s + 40 * usRoot ∧ regFld Reg.RNG_STAT 31 29 t = 2 ∧
        regFld Reg.RNG_STAT 26 24 t = sl.length ∧ getReg Reg.TIM_RATE t = r ∧ getReg Reg.RNG_BARRIER_SEQ t = 0 ∧
        t.clk.tick =
          BitVec.ofNat 64 ((i.tick.toNat * 16 + i.fine.toNat + h + hop.toNat + 19200 - now s % 48 / 3) / 16) + 2800 ∧
        Out.ringControl 0 (.reset ⟨i.tick + 4000, i.fine⟩ (h + hop.toNat) (sl ++ [ringSlot s])
          (ofs + BitVec.ofInt 96 (4000 * rateActs r)) r) ∈ t.outbox) ∧
    (regBit Reg.RNG_CTL 31 s = true → isMaster s = false → bad = true →
      ∃ t, run = .next t ∧ regFld Reg.RNG_STAT 31 29 t = 4 ∧ regFld Reg.RNG_STAT 11 8 t = 5)) ∧
  (∀ s : State,
    (∀ t0, s.ring.resetAt = some t0 → isMaster s = true → ∃ t, exec .ringResetTimeout s = .next t ∧
      max (now s) (t0 + 420 * usRoot) ≤ now t ∧ (quietRing s → now t = max (now s) (t0 + 420 * usRoot)) ∧
      regFld Reg.RNG_STAT 31 29 t = 4 ∧ regFld Reg.RNG_STAT 11 8 t = 6) ∧
    (s.ring.resetAt = none → isMaster s = false → regBit Reg.RNG_CTL 31 s = true → regFld Reg.RNG_STAT 31 29 s = 1 →
      ∃ t, exec .ringResetTimeout s = .next t ∧ max (now s) (s.ring.enabledAt + 420 * usRoot) ≤ now t ∧
        (quietRing s → now t = max (now s) (s.ring.enabledAt + 420 * usRoot)) ∧
        regFld Reg.RNG_STAT 31 29 t = 4 ∧ regFld Reg.RNG_STAT 11 8 t = 1))

/-- R344, R352 to R354: an ARRIVE waits at a device that has not arrived and goes on from one that has, with the higher vote;
at the master it has gone round, and the release is N × 180 ns + 0.6 µs later; a member releases at that instant, or at once
and counted when it has passed; the master checks that the release returns before its instant, and counts one that does not; a
release advances the sequence, begins the cycles of a job at its start barrier, and replays
or restarts one at its accept barrier as the highest vote says; a lap that does not return breaks the ring. (Which laps are
open, and so which RELEASE the master counts and when a barrier times out, is log entry 65.) -/
def Obligations.RingBarriers : Prop :=
  (∀ (q : Word) (v : BitVec 2) (s : State),
    (ringUp s = false ∨ q ≠ getReg Reg.RNG_BARRIER_SEQ s → exec (.arrive q v) s = .next s) ∧
    (ringUp s = true → q = getReg Reg.RNG_BARRIER_SEQ s → isMaster s = true → ∀ a k, s.ring.arrived = some (a, k) →
      let i := instantAfter (regFld Reg.RNG_STAT 15 12 s * 288 + 960) s
      ∃ t, exec (.arrive q v) s = .next t ∧ t.ring.releaseAt = some (i, maxVote a v) ∧ memKept s t ∧
        Out.ringControl 0 (.release q i (maxVote a v)) ∈ t.outbox) ∧
    (ringUp s = true → q = getReg Reg.RNG_BARRIER_SEQ s → isMaster s = false →
      (s.ring.arrived = none →
        exec (.arrive q v) s = .next { s with ring := { s.ring with heldArrive := some (q, v) } }) ∧
      (∀ a k, s.ring.arrived = some (a, k) → ∃ t, exec (.arrive q v) s = .next t ∧
        Out.ringControl 0 (.arrive q (maxVote a v)) ∈ t.outbox ∧ t.ring.arrived = some (a, k) ∧ memKept s t))) ∧
  (∀ (q : Word) (i : Instant) (v : BitVec 2) (s : State), ringUp s = true → isMaster s = false →
    q = getReg Reg.RNG_BARRIER_SEQ s →
    (now s ≤ instantRoot i s → ∃ t, exec (.release q i v) s = .next t ∧ t.ring.releaseAt = some (i, v) ∧
      Out.ringControl 0 (.release q i v) ∈ t.outbox ∧ getReg Reg.RNG_BARRIER_SEQ t = q ∧ memKept s t) ∧
    (instantRoot i s < now s → (∀ x, s.ring.barrierOf = some x → x.2 = true) →
      ∃ t, exec (.release q i v) s = .next t ∧ t.ring.releaseAt = none ∧ getReg Reg.RNG_BARRIER_SEQ t = q + 1 ∧
        getReg Reg.RNG_BARRIER_LATE t = countUp (getReg Reg.RNG_BARRIER_LATE s) 1 ∧
        (s.ring.barrierOf = none → memKept s t))) ∧
  (∀ (q : Word) (i : Instant) (v : BitVec 2) (s : State), ringUp s = true → isMaster s = true →
    ((∀ l ∈ s.ring.lapOpen, l.2 ≠ q) → exec (.release q i v) s = .next s) ∧
    (now s ≤ instantRoot i s → ∃ t, exec (.release q i v) s = .next t ∧ (∀ l ∈ t.ring.lapOpen, l.2 ≠ q) ∧
      t.ring.releaseAt = s.ring.releaseAt ∧ t.regs = s.regs ∧ memKept s t) ∧
    (instantRoot i s < now s → (∃ l ∈ s.ring.lapOpen, l.2 = q) → ∃ t, exec (.release q i v) s = .next t ∧
      getReg Reg.RNG_BARRIER_LATE t = countUp (getReg Reg.RNG_BARRIER_LATE s) 1)) ∧
  (∀ s : State, (s.ring.releaseAt = none → exec .barrierRelease s = .next s) ∧
    (∀ i v u j, s.ring.releaseAt = some (i, v) → getJob u s = some j →
      ∃ t, exec .barrierRelease s = .next t ∧ max (now s) (instantEdge i s) ≤ now t ∧
        t.ring.releaseAt = none ∧
        (∀ r, s.ring.barrierOf = some (u, true) → j.stage = .startBarrier → j.run = some r → r.image.hdr.schedLen ≠ 0 →
          getReg Reg.RNG_BARRIER_SEQ t = getReg Reg.RNG_BARRIER_SEQ s + 1 ∧ now t = max (now s) (instantEdge i s) ∧
          ∃ k, getJob u t = some k ∧ k.stage = .running ∧ k.run = some { r with cycle0 := fabricEdge (now t) s } ∧
            memKept s t) ∧
        (s.ring.barrierOf = some (u, false) → j.stage = .acceptBarrier → v = 1 →
          ∃ k, getJob u t = some k ∧ k.stage = .replay ∧ memKept s t) ∧
        (s.ring.barrierOf = some (u, false) → j.stage = .acceptBarrier → v = 2 →
          ∃ k, getJob u t = some k ∧ k.stage = .restart ∧ memKept s t) ∧
        (s.ring.barrierOf = some (u, false) → j.stage = .acceptBarrier → v = 0 ∨ v = 3 → getJob u t = none))) ∧
  (∀ s : State, (s.ring.lapOpen = [] → exec .barrierTimeout s = .next s) ∧
    (∀ k, (s.ring.lapOpen.map (·.1)).min? = some k → let d := k + regFld Reg.RNG_BARRIER_TIMEOUT 15 0 s * usRoot
      ∃ t, exec .barrierTimeout s = .next t ∧ regFld Reg.RNG_STAT 31 29 t = 4 ∧ max (now s) d ≤ now t ∧
        (quietRing s → now t = max (now s) d)))

/-- R351, R354, R363 (with the bodies of log entry 25): a member acts on a broadcast and sends it on, and the master takes
it off; a snapshot is captured at its instant, N × 180 ns after the master issues it, and collected by position; an ABORT
goes on round the ring to the device that sent it, and ends the job at its accept barrier with vote 2 where it has not come to
that yet. R356 to R358: a READY note is counted for the pair (as the highest instance that it has named: log entry 63), and a
sending instance that waited for it transmits its bank bytes; a transfer message is written to the bank, or combined with it by
the add of its RFMT; a length other than the instance's, or an absent peer, ends the job. -/
def Obligations.RingMessagesAndTransfers : Prop :=
  ((∀ (b : List Byte) (s : State), regBit Reg.RNG_CTL 31 s = true → 2 ≤ regFld Reg.RNG_STAT 31 29 s →
     (isMaster s = true → byteAt b 0 ≠ 3 → exec (.bcast b) s = .next s) ∧
     (isMaster s = false → byteAt b 0 = 3 → byteAt b 1 = ringPos s → exec (.bcast b) s = .next s) ∧
     (isMaster s = false → byteAt b 0 ≠ 3 → ∃ t, exec (.bcast b) s = .next t ∧ Out.ringControl 0 (.bcast b) ∈ t.outbox ∧
       (byteAt b 0 = 1 → t.day.pending = some ⟨leAt b 1 4, leAt b 5 4, leAt b 9 4⟩ ∧ memKept s t) ∧
       (byteAt b 0 = 2 → byteAt b 1 ≤ 2 → regFld Reg.FAB_OP_CTL 1 0 t = byteAt b 1 ∧ memKept s t) ∧
       (byteAt b 0 = 5 → memKept s t ∧
         t.tim.updates = s.tim.updates ++ [(⟨BitVec.ofNat 64 (leAt b 1 8), 0⟩, .rate (wordAt b 9))]) ∧
       (byteAt b 0 = 6 → byteAt b 1 = 0 → regFld Reg.RNG_STAT 31 29 t = 3 ∧
         regFld Reg.RNG_STAT 15 12 t = min 8 (byteAt b 2)))) ∧
   (∀ (w : Writer) (i : Instant) (s : State), writesNow w s = true → ringUp s = true →
     (isMaster s = true → let at_ := instantAfter (regFld Reg.RNG_STAT 15 12 s * 288) s
       ∃ t r, exec (.snap (some w) i) s = .next t ∧ now t = max (now s) (instantEdge at_ s) ∧ t.ring.snap = some r ∧
         Out.ringControl 0 (.snap at_) ∈ t.outbox ∧ Out.ringControl 0 (.collect [r]) ∈ t.outbox ∧ memKept s t) ∧
     (isMaster s = false → ∃ t, exec (.snap none i) s = .next t ∧ now t = max (now s) (instantEdge i s) ∧
       t.ring.snap = some (snapRecord t) ∧ Out.ringControl 0 (.snap i) ∈ t.outbox ∧ memKept s t)) ∧
   (∀ (rs : List SnapRecord) (s : State), ringUp s = true →
     ∃ t, exec (.collect rs) s = .next t ∧ t.ring.snap = none ∧ memKept s t ∧
       (isMaster s = true → ∀ q r, rs[q]? = some r → q < 8 → ∀ k < 16, getReg (Reg.RNG_SNAPq q k) t = wordAt r (4 * k)) ∧
       (isMaster s = false → Out.ringControl 0 (.collect (rs ++ s.ring.snap.toList)) ∈ t.outbox)) ∧
   (∀ (from_ : Fin 8) (n : BitVec 16) (c : Byte) (s : State),
     (ringUp s = false ∨ from_ = ringPos s → exec (.abort ⟨from_, n⟩ c) s = .next s) ∧
     (ringUp s = true → from_ ≠ ringPos s → ∃ t, exec (.abort ⟨from_, n⟩ c) s = .next t ∧
       Out.ringControl 0 (.abort from_ n c) ∈ t.outbox ∧
       ((∀ j ∈ s.disp.jobs, goesOn j = true → isRingJob j = true → j.desc.jobId ≠ n) → t.disp = s.disp ∧ now t = now s) ∧
       (∀ j, s.disp.jobs = [j] → goesOn j = true → isRingJob j = true → j.desc.jobId = n →
         now t = fabricEdge (now s + 1) s ∧ ∃ k, t.disp.jobs = [k] ∧ k.uid = j.uid ∧ k.stage = .acceptBarrier ∧ k.vote = 2 ∧
           k.held = false)))) ∧
  (∀ (p : Fin 8) (ch : Fin 64) (k : Nat) (data : List Byte) (j : Job) (r : Run) (s : State), s.disp.jobs = [j] →
     j.stage = .running → j.run = some r →
     (isRingJob j = true → ringFlight r p ch k true = none → ∃ t m, exec (.ready p ch k) s = .next t ∧
       t.disp.jobs = [{ j with run := some m }] ∧ memKept s t ∧
       (let key := pairKey p ch
        tget (fun _ => 0) m.readyGot key = max (k + 1) (tget (fun _ => 0) r.readyGot key))) ∧
     (∀ f x d, isRingJob j = true → s.marks = [] → ringFlight r p ch k true = some f → r.image.sched[f.rec_]? = some x →
       descOf r.image x = some d → let tr := parseTransfer d
       ∃ t, exec (.ready p ch k) s = .next t ∧ memKept s t ∧
         Out.ringTransfer tr.west.toNat p ch k
           (bankRead f.tile tr.bank (tr.bankAddr + tr.bankStep * f.inst) (align8 x.length) s).1.bytes ∈ t.outbox) ∧
     (ringFlight r p ch k false = none → exec (.ringTransferMessage p ch k data) s = .next s) ∧
     (∀ f x d, s.marks = [] → ringFlight r p ch k false = some f → r.image.sched[f.rec_]? = some x →
       descOf r.image x = some d → let tr := parseTransfer d
       let a := tr.bankAddr + tr.bankStep * f.inst
       (data.length = align8 x.length → p.val < regFld Reg.RNG_STAT 15 12 s → data.length ≤ bankSize tr.bank →
           quietBank f.tile tr.bank a data.length s → ∃ t, exec (.ringTransferMessage p ch k data) s = .next t ∧
           bankBytes f.tile tr.bank a data.length t = (if tr.rfmt = 0 then data
             else (ringAdd (decide (tr.rfmt = 1)) (bankRead f.tile tr.bank a data.length s).1.bytes data).1) ∧
           (∀ c, (∀ i < data.length, c ≠ bankKey f.tile tr.bank (a + i)) → rdByte .bank c t = rdByte .bank c s) ∧
           (∀ sp c, sp ≠ .bank → rdByte sp c t = rdByte sp c s) ∧ t.regs = s.regs) ∧
       (data.length ≠ align8 x.length ∨ regFld Reg.RNG_STAT 15 12 s ≤ p.val →
         ∃ t, exec (.ringTransferMessage p ch k data) s = .next t ∧ ∀ y ∈ t.disp.jobs, y.stage ≠ .running)))

/-! ### Time and Ethernet -/

/-- R344, R405 to R407, R414 to R417: reading TICK latches the rest of it and network time; a step moves network time by itself
at the next tick; a member of a ring discards a step or a rate with NOT_MASTER, and the master of one that is UP applies a rate
200 ticks later; an update applies in the first fabric cycle at or after its instant; a PTP message shows every domain that it
is of, which tracks, and steps nothing of domains that have locked; a complete Sync shows the offset that its stamps give, a
Delay_Resp and a peer's response give the path delay; a Sync is answered with a Delay_Req, in 802.1AS a Pdelay_Req, and a
peer-delay request in two steps, whose transmit stamps are recorded (what is open in the two profiles: log entry 159); an
Announce timeout makes the other domain active when it tracks within SWITCH_MAX, and is a holdover otherwise, in which RATE
holds (log entry 186); RATE is the domain's after the slew. -/
def Obligations.TimeControls : Prop :=
  (∀ s : State, writesNow .host s = true → let nt := netTime s
    ∃ t, exec (.tickRead .host) s = .next t ∧ t.pcieData = lo32 s.clk.tick ∧ getReg Reg.TIM_TICK_HI t = hi32 s.clk.tick ∧
      getReg Reg.TIM_NT_LO t = (nt >>> 32).truncate 32 ∧ getReg Reg.TIM_NT_HI t = (nt >>> 64).truncate 32 ∧
      getReg Reg.TIM_FRAC t = nt.truncate 32 ∧
      regsKept [Reg.TIM_TICK_HI, Reg.TIM_NT_LO, Reg.TIM_NT_HI, Reg.TIM_FRAC] s t ∧ memKept s t) ∧
  (∀ (w : Writer) (v : Word) (s : State), writesNow w s = true →
    (notMaster s = true → ∃ t u, exec (.timeStep w v) s = .next t ∧ exec (.rateWrite w v) s = .next u ∧ t = u ∧
      regBit Reg.TIM_STAT 29 t = true ∧ onlyRegs [Reg.TIM_STAT] (usedBy w s) t) ∧
    (ringUp s = false → s.tim.stepNext = none → deviceReset s = false → ∃ t, exec (.timeStep w v) s = .next t ∧
        netTime t = netTime s ∧
      netTime (advance 48 t) = netTime (advance 48 s) + ((join64 v (getReg Reg.TIM_STEP_LO s)).zeroExtend 96 <<< 32) ∧
      memKept s t) ∧
    (ringUp s = false → ∃ t, exec (.rateWrite w v) s = .next t ∧ getReg Reg.TIM_RATE t = v ∧
      regsKept [Reg.TIM_RATE] s t ∧ netTime t = netTime s ∧ { t with regs := s.regs, tim := s.tim } = usedBy w s ∧
      { t.tim with past := s.tim.past } = s.tim) ∧
    (ringUp s = true → isMaster s = true → ∃ t, exec (.rateWrite w v) s = .next t ∧
      getReg Reg.TIM_RATE t = getReg Reg.TIM_RATE s ∧
      t.tim.updates = s.tim.updates ++ [(⟨s.clk.tick + 200, 0⟩, .rate v)] ∧ memKept s t)) ∧
  (∀ s : State, (s.tim.updates = [] → exec .timeUpdateApply s = .next s) ∧
    (∀ i v, s.tim.updates = [(i, .rate v)] → ∃ t, exec .timeUpdateApply s = .next t ∧ t.tim.updates = [] ∧
      now t = max (now s) (instantEdge i s) ∧ getReg Reg.TIM_RATE t = v ∧ regsKept [Reg.TIM_RATE] s t ∧ memKept s t) ∧
    (∀ i v, s.tim.updates = [(i, .step v)] → ∃ t, exec .timeUpdateApply s = .next t ∧ t.tim.updates = [] ∧
      now t = max (now s) (instantEdge i s) ∧ regsKept [] s t ∧ memKept s t ∧
      netTime t = netTime (runTo (instantEdge i s) s) + (v.zeroExtend 96 <<< 32))) ∧
  (∀ (r : PtpReport) (s : State),
    (linkClerkUp s = false ∨ macUp r.port s = false → exec (.ptpMessage r) s = .next s) ∧
    (linkClerkUp s = true → macUp r.port s = true → r.kind ∉ [.pdelayReq, .pdelayResp, .pdelayFollowUp] →
      ∃ t, exec (.ptpMessage r) s = .next t ∧ memKept s t ∧
      ((∀ d < 2, ptpMatches d r s = false) → t = s) ∧
      ((∀ d < 2, ptpMatches d r s = true → (getDomain d s).locked = true) → t.clk = s.clk ∧ t.tim.stepNext = s.tim.stepNext) ∧
      (s.tim.holding = true → (ptpMatches (activeDomain s) r s = true → tracks (activeDomain s) s = true →
          reg64 (Reg.TIM_DOMd_GM_LO (activeDomain s)) (Reg.TIM_DOMd_GM_HI (activeDomain s)) s = r.gm) →
        getReg Reg.TIM_RATE t = getReg Reg.TIM_RATE s) ∧
      (∀ d < 2, ptpMatches d r s = true →
        reg64 (Reg.TIM_DOMd_GM_LO d) (Reg.TIM_DOMd_GM_HI d) t = r.gm ∧ tracks d t = true ∧
        (r.kind = .sync → let k := if r.as_ then PtpKind.pdelayReq else PtpKind.delayReq
          Out.ptpMessage r.port k r.number r.seq (sentStamp r.port s) ∈ t.outbox ∧
          (⟨r.port, k, r.number, r.seq, sentStamp r.port s⟩ : PtpSent) ∈ t.tim.sent) ∧
        ((∀ e < d, ptpMatches e r s = false) →
          (r.kind = .sync → r.twoStep = false →
            getReg (Reg.TIM_DOMd_OFS d) t = ofsShown (pathDelay d r s - (gotStamp r s - r.time).toInt)) ∧
          (∀ got, r.kind = .followUp → (getDomain d s).sync = some (r.seq, got) →
            getReg (Reg.TIM_DOMd_OFS d) t = ofsShown (pathDelay d r s - (got - r.time).toInt)) ∧
          (r.kind = .announce → getReg (Reg.TIM_DOMd_OFS d) t = getReg (Reg.TIM_DOMd_OFS d) s) ∧
          (∀ l sent, r.kind = .delayResp → r.as_ = false → (getDomain d s).lag = some l →
            sentOf r.port .delayReq r.number r.seq s = some sent →
            (getDomain d t).delay = (l + (r.time - sent).toInt) / 2)))) ∧
    (linkClerkUp s = true → macUp r.port s = true →
      (∃ d < 2, regBit (Reg.TIM_DOMd_CFG d) 31 s = true ∧ regBit (Reg.TIM_DOMd_CFG d) 24 s = true) →
      (r.kind = .pdelayReq → ∃ t, exec (.ptpMessage r) s = .next t ∧ t.regs = s.regs ∧ t.clk = s.clk ∧ memKept s t ∧
        t.outbox = s.outbox ++ [.ptpMessage r.port .pdelayResp r.number r.seq
            (ethStamp r.age (-corTicks (getReg (Reg.ETH_Mm_RXCOR r.port) s)) s).2,
          .ptpMessage r.port .pdelayFollowUp r.number r.seq (sentStamp r.port s)] ∧
        ∀ k ∈ [PtpKind.pdelayResp, .pdelayFollowUp],
          (⟨r.port, k, r.number, r.seq, sentStamp r.port s⟩ : PtpSent) ∈ t.tim.sent) ∧
      (∀ sent, r.kind = .pdelayResp → r.twoStep = false → sentOf r.port .pdelayReq r.number r.seq s = some sent →
        ∃ t, exec (.ptpMessage r) s = .next t ∧ t.regs = s.regs ∧ memKept s t ∧
          (tget (fun _ => PeerDelay.reset) t.tim.peers r.port).delay =
            ((gotStamp r s - sent).toInt - r.time.toInt) / 2))) ∧
  (∀ s : State, let a := activeDomain s
    let o := 1 - a
    let good := tracks o s && decide ((getReg (Reg.TIM_DOMd_OFS o) s).toInt.natAbs ≤ 256 * regFld Reg.TIM_SWITCH_MAX 15 0 s)
    (linkClerkUp s = false ∨ tracks a s = false → exec .announceTimeout s = .next s) ∧
    (linkClerkUp s = true → tracks a s = true → ∃ t, exec .announceTimeout s = .next t ∧ tracks a t = false ∧
      now t = max (now s) ((getDomain a s).lastAnn + (getDomain a s).timeout * 48) ∧ memKept s t ∧
      (good = true → activeDomain t = o ∧ regBit Reg.TIM_STAT 30 t = true ∧ t.tim.holding = false) ∧
      (good = false → activeDomain t = a ∧ regBit Reg.TIM_STAT 31 t = true ∧ t.tim.holding = true ∧
        getReg Reg.TIM_RATE t = getReg Reg.TIM_RATE s))) ∧
  (∀ s : State, (s.tim.slew = none ∨ linkClerkUp s = false → exec .slewEnd s = .next s) ∧
    (∀ e, s.tim.slew = some e → linkClerkUp s = true → ringUp s = false → ∃ t, exec .slewEnd s = .next t ∧
      now t = max (now s) e.1 ∧ t.tim.slew = none ∧ getReg Reg.TIM_RATE t = (getDomain (activeDomain s) s).rate ∧
      regsKept [Reg.TIM_RATE] s t ∧ memKept s t))

/-- R410 to R413, R417, R419, R421: a MAC that is down receives nothing; a frame that nothing matches is counted; the first
matching rule makes its payload a sample with the frame's stamp and a descriptor in the rule's queue, or counts a drop; the
next transmit entry is sent, with PM its stamp is queued, and a pop shows the oldest, served before a postmark of the same cycle;
a reserved SPEED is kept from a write,
and a change of EN or SPEED takes the link down. -/
def Obligations.EthernetFrames : Prop :=
  (∀ (m : Fin 2) (b : List Byte) (age : Nat) (s : State), let f := frameInfo b
    (macUp m s = false → exec (.ethRxFrame m b age) s = .next s) ∧
    (macUp m s = true → b.length ≤ 9216 → f.etype ≠ 0x8808 → isPtp f = false →
      f.udp.elim false (fun u => decide (u.1 = regFld (Reg.ETH_Mm_CTL m) 15 0 s)) = false →
      ((∀ r < 8, ruleMatches m r f s = false) → ∃ t, exec (.ethRxFrame m b age) s = .next t ∧
        getReg (Reg.ETH_Mm_RX_OTHER m) t = countUp (getReg (Reg.ETH_Mm_RX_OTHER m) s) 1 ∧
        onlyRegs [Reg.ETH_Mm_RX_OTHER m] s t) ∧
      (∀ r < 8, ruleMatches m r f s = true → (∀ k < r, ruleMatches m k f s = false) →
        let pay := rulePayload m r b f s
        let w := getReg (Reg.ETH_Mm_RULEr_SRT m r) s
        let q := fld w 10 8
        let n := regFld (Reg.SRT_Qq_CTL q) 15 0 s
        let at_ := (reg64 (Reg.SRT_Qq_BASE_LO q) (Reg.SRT_Qq_BASE_HI q) s).toNat + 32 * (getReg (Reg.SRT_Qq_TAIL q) s).toNat
        let buf := 0x400000 + m.val * 0x400000 + 2048 * ((getMac m s).bufNext % 2048)
        (pay.length < 8 ∨ 2048 < pay.length ∨ sorterFull q s = true → ∃ t, exec (.ethRxFrame m b age) s = .next t ∧
          getReg (Reg.ETH_Mm_RULE_DROP m) t = countUp (getReg (Reg.ETH_Mm_RULE_DROP m) s) 1 ∧
          onlyRegs [Reg.ETH_Mm_RULE_DROP m] s t) ∧
        (8 ≤ pay.length → pay.length ≤ 2048 → sorterFull q s = false →
          (∀ i < 32, dramHas ((at_ + i) % 2 ^ 64) s = true ∧
              inLedger ((at_ + i) % 2 ^ 64) = false) → ∃ t, exec (.ethRxFrame m b age) s = .next t ∧
          getReg (Reg.SRT_Qq_TAIL q) t = word (((getReg (Reg.SRT_Qq_TAIL q) s).toNat + 1) % n) ∧
          rdBytes .dram at_ 32 t = sampleBytes ⟨BitVec.ofNat 24 (leAt pay 0 3), BitVec.ofNat 8 (fld w 7 0), pay.length - 8,
            BitVec.ofNat 64 (buf + 8), leAt pay 4 4, 0,
            (ethStamp age (-corTicks (getReg (Reg.ETH_Mm_RXCOR m) s)) s).1⟩ ∧
          regsKept [Reg.SRT_Qq_TAIL q] s t ∧ (∀ sp c, sp ≠ .dram → rdByte sp c t = rdByte sp c s))))) ∧
  (∀ (m : Fin 2) (s : State), let n := regFld (Reg.ETH_Mm_TXR_CTL m) 15 0 s
    let head := (getReg (Reg.ETH_Mm_TXR_HEAD m) s).toNat
    let e := hostBytes ((reg64 (Reg.ETH_Mm_TXR_BASE_LO m) (Reg.ETH_Mm_TXR_BASE_HI m) s).toNat + 16 * head) 16 s
    (macUp m s = false ∨ regBit (Reg.ETH_Mm_TXR_CTL m) 31 s = false → exec (.ethTxFrame m) s = .next s) ∧
    (macUp m s = true → regBit (Reg.ETH_Mm_TXR_CTL m) 31 s = true → n ≠ 0 →
      head ≠ (getReg (Reg.ETH_TXR_TAIL m) s).toNat % n → leAt e 8 2 ≤ 9216 → (getMac m s).postmarks.length < 32 →
      ∃ t, exec (.ethTxFrame m) s = .next t ∧ getReg (Reg.ETH_Mm_TXR_HEAD m) t = word ((head + 1) % n) ∧
        t.outbox = s.outbox ++ [Out.ethFrame m (hostBytes (leAt e 0 8) (leAt e 8 2) s)] ∧ memKept s t ∧
        ((byteAt e 12).testBit 0 = false → t.macs = s.macs) ∧
        ((byteAt e 12).testBit 0 = true → let st := ethStamp 0 (corTicks (getReg (Reg.ETH_Mm_TXCOR m) s)) s
          ∃ p, (getMac m t).postmarks = (getMac m s).postmarks ++ [p] ∧ leAt p 0 8 = st.1.toNat ∧
            leAt p 8 8 = st.2.toNat / 2 ^ 32 ∧ leAt p 16 4 = st.2.toNat % 2 ^ 32 ∧ leAt p 20 2 = leAt e 10 2))) ∧
  (∀ (w : Writer) (m : Fin 2) (s : State), writesNow w s = true →
    ((getMac m s).postmarks = [] → ∃ t, exec (.postmarkPop w ⟨m, false⟩) s = .next t ∧
      regBit (Reg.ETH_Mm_PM_DATAi m 5) 31 t = true ∧ onlyRegs [Reg.ETH_Mm_PM_DATAi m 5] (usedBy w s) t) ∧
    (∀ e r, (getMac m s).postmarks = e :: r → r.length < 32 → ∃ t, exec (.postmarkPop w ⟨m, false⟩) s = .next t ∧
      (getMac m t).postmarks = r ∧ regFld (Reg.ETH_Mm_PM_STAT m) 5 0 t = r.length ∧
      (∀ i < 6, getReg (Reg.ETH_Mm_PM_DATAi m i) t = wordAt e (4 * i)) ∧ memKept s t) ∧
    (let n := regFld (Reg.ETH_Mm_TXR_CTL m) 15 0 s
     let head := (getReg (Reg.ETH_Mm_TXR_HEAD m) s).toNat
     let e := hostBytes ((reg64 (Reg.ETH_Mm_TXR_BASE_LO m) (Reg.ETH_Mm_TXR_BASE_HI m) s).toNat + 16 * head) 16 s
     macUp m s = true → regBit (Reg.ETH_Mm_TXR_CTL m) 31 s = true → n ≠ 0 →
     head ≠ (getReg (Reg.ETH_TXR_TAIL m) s).toNat % n → leAt e 8 2 ≤ 9216 → (byteAt e 12).testBit 0 = true →
     (getMac m s).postmarks.length ≤ 32 → ∃ t p, exec (.postmarkPop w ⟨m, true⟩) s = .next t ∧
       (getMac m t).postmarks = (getMac m s).postmarks.drop 1 ++ [p] ∧ leAt p 20 2 = leAt e 10 2 ∧
       getReg (Reg.ETH_Mm_PM_LOST m) t = getReg (Reg.ETH_Mm_PM_LOST m) s ∧ memKept s t)) ∧
  (∀ (w : Writer) (m : Fin 2) (v : Word) (s : State), writesNow w s = true →
    let o := Reg.ETH_Mm_CTL m
    ∃ t, exec (.macCtlWrite w m v) s = .next t ∧ regBit o 31 t = bit v 31 ∧ regFld o 15 0 t = fld v 15 0 ∧
      regFld o 30 28 t = (if 4 < fld v 30 28 then regFld o 30 28 s else fld v 30 28) ∧
      (regFld o 31 28 t = regFld o 31 28 s → t.macs = s.macs) ∧
      (regFld o 31 28 t ≠ regFld o 31 28 s → (getMac m t).linkUp = false) ∧ regsKept [o] s t ∧ memKept s t) ∧
  (∀ (m : Fin 2) (s : State),
    (regBit (Reg.ETH_Mm_CTL m) 31 s = true → ∃ t, exec (.ethLinkUp m) s = .next t ∧ (getMac m t).linkUp = true ∧
      regsKept [Reg.CLK_EXT_STAT] s t ∧ memKept s t) ∧
    (regBit (Reg.ETH_Mm_CTL m) 31 s = false → exec (.ethLinkUp m) s = .next s))
end

