-- ==== Sys2Proof/Laws/Bits.lean ====
section
/-! SUPPORT. What fields of a word read after a field has been set, and how bytes and numbers convert into each other. -/

namespace Sys2Proof.Machine

/-- A field as the bits that it reads. -/
theorem fld_testBit (w : Word) (hi lo i : Nat) : (fld w hi lo).testBit i = (decide (i < hi + 1 - lo) && w.getLsbD (lo + i)) := by
  unfold fld
  rw [Nat.testBit_mod_two_pow, Nat.testBit_div_two_pow]
  congr 1
  rw [BitVec.getLsbD, Nat.add_comm]

theorem fld_lt (w : Word) (hi lo : Nat) : fld w hi lo < 2 ^ (hi + 1 - lo) := Nat.mod_lt _ (by positivity)

/-- Bits of a mask. -/
theorem maskOf_getLsbD (hi lo i : Nat) : (maskOf hi lo).getLsbD i = (decide (i < 32) && decide (lo ≤ i) && decide (i ≤ hi)) := by
  unfold maskOf
  rw [BitVec.getLsbD_ofNat, Nat.testBit_mul_two_pow, Nat.testBit_two_pow_sub_one]
  by_cases h1 : i < 32 <;> by_cases h2 : lo ≤ i <;> by_cases h3 : i ≤ hi <;> simp [h1, h2, h3] <;> omega

/-- Bits of a word with a field set. -/
theorem setFld_getLsbD (w : Word) (hi lo v i : Nat) :
    (setFld w hi lo v).getLsbD i =
      if i < 32 ∧ lo ≤ i ∧ i ≤ hi then v.testBit (i - lo) else w.getLsbD i := by
  unfold setFld
  simp only [BitVec.getLsbD_or, BitVec.getLsbD_and, BitVec.getLsbD_not, maskOf_getLsbD, BitVec.getLsbD_ofNat,
    Nat.testBit_mul_two_pow]
  by_cases h1 : i < 32
  · by_cases h2 : lo ≤ i <;> by_cases h3 : i ≤ hi <;> simp [h1, h2, h3]
  · simp [h1, BitVec.getLsbD_of_ge _ _ (not_lt.mp h1)]

/-- A field that was set reads as its value, cut to its width. -/
theorem fld_setFld_same (w : Word) (hi lo v : Nat) (h : hi < 32) :
    fld (setFld w hi lo v) hi lo = v % 2 ^ (hi + 1 - lo) := by
  refine Nat.eq_of_testBit_eq (fun i => ?_)
  rw [fld_testBit, setFld_getLsbD, Nat.testBit_mod_two_pow]
  by_cases hi' : i < hi + 1 - lo
  · have h1 : lo + i < 32 ∧ lo ≤ lo + i ∧ lo + i ≤ hi := by omega
    simp [hi', h1]
  · simp [hi']

/-- A field apart from the one that was set reads as before. -/
theorem fld_setFld_other (w : Word) (hi lo v a b : Nat) (h : a < lo ∨ hi < b) :
    fld (setFld w hi lo v) a b = fld w a b := by
  refine Nat.eq_of_testBit_eq (fun i => ?_)
  rw [fld_testBit, fld_testBit, setFld_getLsbD]
  by_cases ha : i < a + 1 - b
  · have h1 : ¬(b + i < 32 ∧ lo ≤ b + i ∧ b + i ≤ hi) := by omega
    rw [if_neg h1]
  · simp [ha]

theorem bit_setFld_other (w : Word) (hi lo v i : Nat) (h : i < lo ∨ hi < i) : bit (setFld w hi lo v) i = bit w i := by
  unfold bit
  rw [setFld_getLsbD]
  have h1 : ¬(i < 32 ∧ lo ≤ i ∧ i ≤ hi) := by omega
  rw [if_neg h1]

theorem bit_setFld_inside (w : Word) (hi lo v i : Nat) (h : hi < 32) (h1 : lo ≤ i) (h2 : i ≤ hi) :
    bit (setFld w hi lo v) i = v.testBit (i - lo) := by
  unfold bit
  rw [setFld_getLsbD, if_pos (by omega)]

@[simp] theorem bit_setBit_same (w : Word) (i : Nat) (v : Bool) (h : i < 32) : bit (setBit w i v) i = v := by
  unfold setBit
  rw [bit_setFld_inside _ _ _ _ _ h le_rfl le_rfl]
  cases v <;> simp

theorem bit_setBit_other (w : Word) {i j : Nat} (v : Bool) (h : j ≠ i) : bit (setBit w i v) j = bit w j :=
  bit_setFld_other _ _ _ _ _ (by omega)

@[simp] theorem bit_or (a b : Word) (i : Nat) : bit (a ||| b) i = (bit a i || bit b i) := by simp [bit]
@[simp] theorem bit_and (a b : Word) (i : Nat) : bit (a &&& b) i = (bit a i && bit b i) := by simp [bit]
theorem bit_not (a : Word) (i : Nat) (h : i < 32) : bit (~~~a) i = !bit a i := by simp [bit, h]
@[simp] theorem bit_zero (i : Nat) : bit 0 i = false := by simp [bit]

/-- Two words that agree on every bit are equal. -/
theorem word_ext (a b : Word) (h : ∀ i < 32, bit a i = bit b i) : a = b :=
  BitVec.eq_of_getLsbD_eq (fun i hi => h i hi)

/-! ### Bytes -/

@[simp] theorem leBytes_length (n v : Nat) : (leBytes n v).length = n := by
  induction n generalizing v with
  | zero => rfl
  | succ n ih => simp [leBytes, ih]

@[simp] theorem wordBytes_length (w : Word) : (wordBytes w).length = 4 := leBytes_length 4 _

theorem leNat_lt (bs : List Byte) : leNat bs < 256 ^ bs.length := by
  induction bs with
  | nil => simp [leNat]
  | cons b r ih =>
    have := b.isLt
    simp only [leNat, List.length_cons, pow_succ]
    omega

/-- The bytes of a number spell it, cut to their length. -/
theorem leNat_leBytes (n v : Nat) : leNat (leBytes n v) = v % 256 ^ n := by
  induction n generalizing v with
  | zero => simp [leBytes, leNat, Nat.mod_one]
  | succ n ih =>
    simp only [leBytes, leNat, ih, BitVec.toNat_ofNat]
    have h : v % 256 ^ (n + 1) = v % 256 + 256 * (v / 256 % 256 ^ n) := by rw [pow_succ', Nat.mod_mul]
    rw [h]

/-- The bytes that a list spells are the list. -/
theorem leBytes_leNat (bs : List Byte) : leBytes bs.length (leNat bs) = bs := by
  induction bs with
  | nil => rfl
  | cons b r ih =>
    have h := b.isLt
    have h1 : (b.toNat + 256 * leNat r) / 256 = leNat r := by omega
    simp only [List.length_cons, leNat, leBytes, h1, ih, List.cons.injEq, and_true]
    apply BitVec.eq_of_toNat_eq
    simp only [BitVec.toNat_ofNat]
    omega

/-- The four bytes of a word spell it. -/
@[simp] theorem word_leNat_wordBytes (w : Word) : word (leNat (wordBytes w)) = w := by
  apply BitVec.eq_of_toNat_eq
  have h := w.isLt
  simp only [word, wordBytes, leNat_leBytes, BitVec.toNat_ofNat]
  omega

@[simp] theorem slice_length (bs : List Byte) (o n : Nat) : (slice bs o n).length = n := by
  simp [slice]

end Sys2Proof.Machine
end

