-- ==== Sys2Proof/Laws/Tab.lean ====
section
/-! SUPPORT. What reading and writing a sparse table do: a read after a write, and that a write keeps the canonical form. -/

namespace Sys2Proof.Machine

variable {α : Type}

@[simp] theorem tget_nil (d : Nat → α) (k : Nat) : tget d [] k = d k := rfl

/-- A key that is not listed reads as its default. -/
theorem tget_of_not_listed (d : Nat → α) (t : Tab α) (k : Nat) (h : ∀ e ∈ t, e.1 ≠ k) : tget d t k = d k := by
  induction t with
  | nil => rfl
  | cons e t ih =>
    obtain ⟨k', v⟩ := e
    have h1 : ¬ k' = k := h (k', v) (by simp)
    simp only [tget, h1, if_false]
    exact ih (fun e he => h e (by simp [he]))

/-- Erasing leaves no entry at the key, and adds none. -/
theorem mem_terase {e : Nat × α} {t : Tab α} {k : Nat} (h : e ∈ terase k t) : e ∈ t ∧ e.1 ≠ k := by
  induction t with
  | nil => simp [terase] at h
  | cons a t ih =>
    obtain ⟨k', v⟩ := a
    by_cases hk : k' = k
    · simp only [terase, hk, if_true] at h
      exact ⟨by simp [(ih h).1], (ih h).2⟩
    · simp only [terase, hk, if_false, List.mem_cons] at h
      rcases h with h | h
      · subst h; exact ⟨by simp, hk⟩
      · exact ⟨by simp [(ih h).1], (ih h).2⟩

theorem mem_tinsert {e : Nat × α} {t : Tab α} {k : Nat} {v : α} : e ∈ tinsert k v t ↔ e = (k, v) ∨ e ∈ t := by
  induction t with
  | nil => simp [tinsert]
  | cons a t ih =>
    obtain ⟨k', w⟩ := a
    by_cases hk : k < k'
    · simp [tinsert, hk]
    · simp only [tinsert, hk, if_false, List.mem_cons, ih]
      tauto

@[simp] theorem tget_terase_same (d : Nat → α) (t : Tab α) (k : Nat) : tget d (terase k t) k = d k :=
  tget_of_not_listed d _ k (fun _ he => (mem_terase he).2)

theorem tget_terase_other (d : Nat → α) (t : Tab α) {k j : Nat} (h : j ≠ k) : tget d (terase k t) j = tget d t j := by
  induction t with
  | nil => rfl
  | cons a t ih =>
    obtain ⟨k', v⟩ := a
    by_cases hk : k' = k
    · have : ¬ k' = j := fun e => h (e.symm.trans hk)
      simp only [terase, hk, if_true, ih]
      simp only [tget, ← hk, this, if_false]
    · simp only [terase, hk, if_false, tget, ih]

theorem tget_tinsert_same (d : Nat → α) (t : Tab α) (k : Nat) (v : α) (h : ∀ e ∈ t, e.1 ≠ k) :
    tget d (tinsert k v t) k = v := by
  induction t with
  | nil => simp [tinsert, tget]
  | cons a t ih =>
    obtain ⟨k', w⟩ := a
    have h1 : ¬ k' = k := h (k', w) (by simp)
    by_cases hk : k < k'
    · simp [tinsert, hk, tget]
    · simp only [tinsert, hk, if_false, tget, h1]
      exact ih (fun e he => h e (by simp [he]))

theorem tget_tinsert_other (d : Nat → α) (t : Tab α) {k j : Nat} (v : α) (h : j ≠ k) :
    tget d (tinsert k v t) j = tget d t j := by
  have hkj : ¬ k = j := fun e => h e.symm
  induction t with
  | nil => simp [tinsert, tget, hkj]
  | cons a t ih =>
    obtain ⟨k', w⟩ := a
    by_cases hk : k < k'
    · simp [tinsert, hk, tget, hkj]
    · simp only [tinsert, hk, if_false, tget, ih]

/-- A read of the key that was set gives its value. -/
@[simp] theorem tget_tset_same [DecidableEq α] (d : Nat → α) (k : Nat) (v : α) (t : Tab α) : tget d (tset d k v t) k = v := by
  unfold tset
  by_cases hv : v = d k
  · simp [hv]
  · simp only [hv, if_false]
    exact tget_tinsert_same d _ k v (fun e he => (mem_terase he).2)

/-- A read of any other key gives what it gave. -/
theorem tget_tset_other [DecidableEq α] (d : Nat → α) {k j : Nat} (v : α) (t : Tab α) (h : j ≠ k) :
    tget d (tset d k v t) j = tget d t j := by
  unfold tset
  by_cases hv : v = d k
  · simp only [hv, if_true]; exact tget_terase_other d t h
  · simp only [hv, if_false]; rw [tget_tinsert_other d _ v h, tget_terase_other d t h]

/-- A read after a write, whichever the key. -/
theorem tget_tset [DecidableEq α] (d : Nat → α) (k j : Nat) (v : α) (t : Tab α) :
    tget d (tset d k v t) j = if j = k then v else tget d t j := by
  by_cases h : j = k
  · subst h; simp
  · simp [h, tget_tset_other d v t h]

/-! ### The canonical form -/

theorem tsorted_cons {k : Nat} {v : α} {t : Tab α} : tsorted ((k, v) :: t) = true ↔ (∀ e ∈ t, k < e.1) ∧ tsorted t = true := by
  simp [tsorted, List.all_eq_true]

theorem tsorted_terase {t : Tab α} (k : Nat) (h : tsorted t = true) : tsorted (terase k t) = true := by
  induction t with
  | nil => rfl
  | cons a t ih =>
    obtain ⟨k', v⟩ := a
    rw [tsorted_cons] at h
    by_cases hk : k' = k
    · simp only [terase, hk, if_true]; exact ih h.2
    · simp only [terase, hk, if_false]
      rw [tsorted_cons]
      exact ⟨fun e he => h.1 e (mem_terase he).1, ih h.2⟩

theorem tsorted_tinsert {t : Tab α} {k : Nat} (v : α) (h : tsorted t = true) (hk : ∀ e ∈ t, e.1 ≠ k) :
    tsorted (tinsert k v t) = true := by
  induction t with
  | nil => rfl
  | cons a t ih =>
    obtain ⟨k', w⟩ := a
    have h1 : k' ≠ k := hk (k', w) (by simp)
    have h2 := tsorted_cons.mp h
    by_cases hlt : k < k'
    · simp only [tinsert, hlt, if_true]
      refine tsorted_cons.mpr ⟨fun e he => ?_, h⟩
      rcases List.mem_cons.mp he with he | he
      · subst he; exact hlt
      · exact lt_trans hlt (h2.1 e he)
    · simp only [tinsert, hlt, if_false]
      refine tsorted_cons.mpr ⟨fun e he => ?_, ih h2.2 (fun e he => hk e (by simp [he]))⟩
      rcases mem_tinsert.mp he with he | he
      · subst he; omega
      · exact h2.1 e he

/-- The empty table is in canonical form. -/
@[simp] theorem twf_nil [DecidableEq α] (d : Nat → α) : twf d [] = true := rfl

/-- A write keeps the canonical form. -/
theorem twf_tset [DecidableEq α] (d : Nat → α) (k : Nat) (v : α) (t : Tab α) (h : twf d t = true) :
    twf d (tset d k v t) = true := by
  simp only [twf, Bool.and_eq_true, tnodefault, List.all_eq_true, decide_eq_true_eq] at h ⊢
  obtain ⟨hs, hd⟩ := h
  unfold tset
  by_cases hv : v = d k
  · simp only [hv, if_true]
    exact ⟨tsorted_terase k hs, fun e he => hd e (mem_terase he).1⟩
  · simp only [hv, if_false]
    refine ⟨tsorted_tinsert v (tsorted_terase k hs) (fun e he => (mem_terase he).2), fun e he => ?_⟩
    rcases mem_tinsert.mp he with he | he
    · subst he; exact hv
    · exact hd e (mem_terase he).1

/-- Leaving entries out keeps the canonical form. -/
theorem twf_filter [DecidableEq α] (d : Nat → α) (p : Nat × α → Bool) (t : Tab α) (h : twf d t = true) :
    twf d (t.filter p) = true := by
  simp only [twf, Bool.and_eq_true, tnodefault, List.all_eq_true, decide_eq_true_eq] at h ⊢
  refine ⟨?_, fun e he => h.2 e (List.mem_of_mem_filter he)⟩
  replace h := h.1
  induction t with
  | nil => rfl
  | cons a t ih =>
    obtain ⟨k', v⟩ := a
    have h2 := tsorted_cons.mp h
    by_cases hp : p (k', v) = true
    · rw [List.filter_cons_of_pos hp]
      exact tsorted_cons.mpr ⟨fun e he => h2.1 e (List.mem_of_mem_filter he), ih h2.2⟩
    · rw [List.filter_cons_of_neg hp]; exact ih h2.2

/-- Two tables in canonical form that read alike are equal. -/
theorem tab_ext [DecidableEq α] (d : Nat → α) (t u : Tab α) (ht : twf d t = true) (hu : twf d u = true)
    (h : ∀ k, tget d t k = tget d u k) : t = u := by
  induction t generalizing u with
  | nil =>
    cases u with
    | nil => rfl
    | cons b u =>
      exfalso
      have h1 := h b.1
      simp only [twf, tnodefault, Bool.and_eq_true, List.all_cons, decide_eq_true_eq] at hu
      simp [tget] at h1
      exact hu.2.1 h1.symm
  | cons a t ih =>
    obtain ⟨ka, va⟩ := a
    simp only [twf, tnodefault, Bool.and_eq_true, List.all_cons, decide_eq_true_eq] at ht
    obtain ⟨hts, htd, htr⟩ := ht
    have ha := tsorted_cons.mp hts
    have below : ∀ (s : Tab α), tsorted s = true → ∀ k, (∀ e ∈ s, k < e.1) → tget d s k = d k := fun s _ k hk =>
      tget_of_not_listed d s k (fun e he => by have := hk e he; omega)
    cases u with
    | nil =>
      exfalso
      have h1 := h ka
      simp [tget] at h1
      exact htd h1
    | cons b u =>
      obtain ⟨kb, vb⟩ := b
      simp only [twf, tnodefault, Bool.and_eq_true, List.all_cons, decide_eq_true_eq] at hu
      obtain ⟨hus, hud, hur⟩ := hu
      have hb := tsorted_cons.mp hus
      have hk : ka = kb := by
        rcases Nat.lt_trichotomy ka kb with hl | hl | hl
        · exfalso
          have h1 := h ka
          have h2 : tget d ((kb, vb) :: u) ka = d ka := tget_of_not_listed d _ ka (fun e he => by
            rcases List.mem_cons.mp he with he | he
            · subst he; exact Nat.ne_of_gt hl
            · have := hb.1 e he; omega)
          rw [h2] at h1
          simp [tget] at h1
          exact htd h1
        · exact hl
        · exfalso
          have h1 := h kb
          have h2 : tget d ((ka, va) :: t) kb = d kb := tget_of_not_listed d _ kb (fun e he => by
            rcases List.mem_cons.mp he with he | he
            · subst he; exact Nat.ne_of_gt hl
            · have := ha.1 e he; omega)
          rw [h2] at h1
          simp [tget] at h1
          exact hud h1.symm
      subst hk
      have hv : va = vb := by have := h ka; simpa [tget] using this
      subst hv
      refine congrArg _ (ih u ?_ ?_ (fun k => ?_))
      · simp only [twf, tnodefault, Bool.and_eq_true]; exact ⟨ha.2, htr⟩
      · simp only [twf, tnodefault, Bool.and_eq_true]; exact ⟨hb.2, hur⟩
      · by_cases hka : ka = k
        · subst hka
          rw [below t ha.2 ka ha.1, below u hb.2 ka hb.1]
        · have := h k
          simpa [tget, hka] using this

end Sys2Proof.Machine
end

