-- ==== Sys2Proof/Laws/State.lean ====
section
/-! SUPPORT. What each named update of the state leaves as it was, field by field, and what a read gives after it. Every
equation about a field is true by definition and rewrites toward the state before the update. -/

namespace Sys2Proof.Machine

/-! ### Register updates are writes of one register -/

@[simp] theorem modReg_eq (o : Nat) (f : Word → Word) (s : State) : modReg o f s = setReg o (f (getReg o s)) s := rfl
@[simp] theorem setRegFld_eq (o hi lo v : Nat) (s : State) :
    setRegFld o hi lo v s = setReg o (setFld (getReg o s) hi lo v) s := rfl
@[simp] theorem orReg_eq (o : Nat) (m : Word) (s : State) : orReg o m s = setReg o (getReg o s ||| m) s := rfl
@[simp] theorem bumpReg_eq (o n : Nat) (s : State) : bumpReg o n s = setReg o (countUp (getReg o s) n) s := rfl
@[simp] theorem incReg_eq (o : Nat) (s : State) : incReg o s = setReg o (getReg o s + 1) s := rfl

/-! ### setReg -/

@[simp] theorem setReg_pending (o : Nat) (v : Word) (s : State) : (setReg o v s).pending = s.pending := rfl
@[simp] theorem setReg_clk (o : Nat) (v : Word) (s : State) : (setReg o v s).clk = s.clk := rfl
@[simp] theorem setReg_fuses (o : Nat) (v : Word) (s : State) : (setReg o v s).fuses = s.fuses := rfl
@[simp] theorem setReg_dram (o : Nat) (v : Word) (s : State) : (setReg o v s).dram = s.dram := rfl
@[simp] theorem setReg_stage (o : Nat) (v : Word) (s : State) : (setReg o v s).stage = s.stage := rfl
@[simp] theorem setReg_banks (o : Nat) (v : Word) (s : State) : (setReg o v s).banks = s.banks := rfl
@[simp] theorem setReg_tables (o : Nat) (v : Word) (s : State) : (setReg o v s).tables = s.tables := rfl
@[simp] theorem setReg_hostMem (o : Nat) (v : Word) (s : State) : (setReg o v s).hostMem = s.hostMem := rfl
@[simp] theorem setReg_flash (o : Nat) (v : Word) (s : State) : (setReg o v s).flash = s.flash := rfl
@[simp] theorem setReg_marks (o : Nat) (v : Word) (s : State) : (setReg o v s).marks = s.marks := rfl
@[simp] theorem setReg_losses (o : Nat) (v : Word) (s : State) : (setReg o v s).losses = s.losses := rfl
@[simp] theorem setReg_scrub (o : Nat) (v : Word) (s : State) : (setReg o v s).scrub = s.scrub := rfl
@[simp] theorem setReg_flits (o : Nat) (v : Word) (s : State) : (setReg o v s).flits = s.flits := rfl
@[simp] theorem setReg_disp (o : Nat) (v : Word) (s : State) : (setReg o v s).disp = s.disp := rfl
@[simp] theorem setReg_day (o : Nat) (v : Word) (s : State) : (setReg o v s).day = s.day := rfl
@[simp] theorem setReg_cam (o : Nat) (v : Word) (s : State) : (setReg o v s).cam = s.cam := rfl
@[simp] theorem setReg_srt (o : Nat) (v : Word) (s : State) : (setReg o v s).srt = s.srt := rfl
@[simp] theorem setReg_slv (o : Nat) (v : Word) (s : State) : (setReg o v s).slv = s.slv := rfl
@[simp] theorem setReg_srv (o : Nat) (v : Word) (s : State) : (setReg o v s).srv = s.srv := rfl
@[simp] theorem setReg_lanes (o : Nat) (v : Word) (s : State) : (setReg o v s).lanes = s.lanes := rfl
@[simp] theorem setReg_cans (o : Nat) (v : Word) (s : State) : (setReg o v s).cans = s.cans := rfl
@[simp] theorem setReg_ring (o : Nat) (v : Word) (s : State) : (setReg o v s).ring = s.ring := rfl
@[simp] theorem setReg_saf (o : Nat) (v : Word) (s : State) : (setReg o v s).saf = s.saf := rfl
@[simp] theorem setReg_tim (o : Nat) (v : Word) (s : State) : (setReg o v s).tim = s.tim := rfl
@[simp] theorem setReg_macs (o : Nat) (v : Word) (s : State) : (setReg o v s).macs = s.macs := rfl
@[simp] theorem setReg_pwr (o : Nat) (v : Word) (s : State) : (setReg o v s).pwr = s.pwr := rfl
@[simp] theorem setReg_mgt (o : Nat) (v : Word) (s : State) : (setReg o v s).mgt = s.mgt := rfl
@[simp] theorem setReg_sess (o : Nat) (v : Word) (s : State) : (setReg o v s).sess = s.sess := rfl
@[simp] theorem setReg_pcieData (o : Nat) (v : Word) (s : State) : (setReg o v s).pcieData = s.pcieData := rfl
@[simp] theorem setReg_outbox (o : Nat) (v : Word) (s : State) : (setReg o v s).outbox = s.outbox := rfl
@[simp] theorem setReg_freeCtr (o : Nat) (v : Word) (s : State) : (setReg o v s).freeCtr = s.freeCtr := rfl

/-! ### setReg64 -/

@[simp] theorem setReg64_pending (l h : Nat) (v : Word64) (s : State) : (setReg64 l h v s).pending = s.pending := rfl
@[simp] theorem setReg64_clk (l h : Nat) (v : Word64) (s : State) : (setReg64 l h v s).clk = s.clk := rfl
@[simp] theorem setReg64_fuses (l h : Nat) (v : Word64) (s : State) : (setReg64 l h v s).fuses = s.fuses := rfl
@[simp] theorem setReg64_dram (l h : Nat) (v : Word64) (s : State) : (setReg64 l h v s).dram = s.dram := rfl
@[simp] theorem setReg64_stage (l h : Nat) (v : Word64) (s : State) : (setReg64 l h v s).stage = s.stage := rfl
@[simp] theorem setReg64_banks (l h : Nat) (v : Word64) (s : State) : (setReg64 l h v s).banks = s.banks := rfl
@[simp] theorem setReg64_tables (l h : Nat) (v : Word64) (s : State) : (setReg64 l h v s).tables = s.tables := rfl
@[simp] theorem setReg64_hostMem (l h : Nat) (v : Word64) (s : State) : (setReg64 l h v s).hostMem = s.hostMem := rfl
@[simp] theorem setReg64_flash (l h : Nat) (v : Word64) (s : State) : (setReg64 l h v s).flash = s.flash := rfl
@[simp] theorem setReg64_marks (l h : Nat) (v : Word64) (s : State) : (setReg64 l h v s).marks = s.marks := rfl
@[simp] theorem setReg64_losses (l h : Nat) (v : Word64) (s : State) : (setReg64 l h v s).losses = s.losses := rfl
@[simp] theorem setReg64_scrub (l h : Nat) (v : Word64) (s : State) : (setReg64 l h v s).scrub = s.scrub := rfl
@[simp] theorem setReg64_flits (l h : Nat) (v : Word64) (s : State) : (setReg64 l h v s).flits = s.flits := rfl
@[simp] theorem setReg64_disp (l h : Nat) (v : Word64) (s : State) : (setReg64 l h v s).disp = s.disp := rfl
@[simp] theorem setReg64_day (l h : Nat) (v : Word64) (s : State) : (setReg64 l h v s).day = s.day := rfl
@[simp] theorem setReg64_cam (l h : Nat) (v : Word64) (s : State) : (setReg64 l h v s).cam = s.cam := rfl
@[simp] theorem setReg64_srt (l h : Nat) (v : Word64) (s : State) : (setReg64 l h v s).srt = s.srt := rfl
@[simp] theorem setReg64_slv (l h : Nat) (v : Word64) (s : State) : (setReg64 l h v s).slv = s.slv := rfl
@[simp] theorem setReg64_srv (l h : Nat) (v : Word64) (s : State) : (setReg64 l h v s).srv = s.srv := rfl
@[simp] theorem setReg64_lanes (l h : Nat) (v : Word64) (s : State) : (setReg64 l h v s).lanes = s.lanes := rfl
@[simp] theorem setReg64_cans (l h : Nat) (v : Word64) (s : State) : (setReg64 l h v s).cans = s.cans := rfl
@[simp] theorem setReg64_ring (l h : Nat) (v : Word64) (s : State) : (setReg64 l h v s).ring = s.ring := rfl
@[simp] theorem setReg64_saf (l h : Nat) (v : Word64) (s : State) : (setReg64 l h v s).saf = s.saf := rfl
@[simp] theorem setReg64_tim (l h : Nat) (v : Word64) (s : State) : (setReg64 l h v s).tim = s.tim := rfl
@[simp] theorem setReg64_macs (l h : Nat) (v : Word64) (s : State) : (setReg64 l h v s).macs = s.macs := rfl
@[simp] theorem setReg64_pwr (l h : Nat) (v : Word64) (s : State) : (setReg64 l h v s).pwr = s.pwr := rfl
@[simp] theorem setReg64_mgt (l h : Nat) (v : Word64) (s : State) : (setReg64 l h v s).mgt = s.mgt := rfl
@[simp] theorem setReg64_sess (l h : Nat) (v : Word64) (s : State) : (setReg64 l h v s).sess = s.sess := rfl
@[simp] theorem setReg64_pcieData (l h : Nat) (v : Word64) (s : State) : (setReg64 l h v s).pcieData = s.pcieData := rfl
@[simp] theorem setReg64_outbox (l h : Nat) (v : Word64) (s : State) : (setReg64 l h v s).outbox = s.outbox := rfl
@[simp] theorem setReg64_freeCtr (l h : Nat) (v : Word64) (s : State) : (setReg64 l h v s).freeCtr = s.freeCtr := rfl

/-! ### useFree -/

@[simp] theorem useFree_pending (s : State) : (useFree s).pending = s.pending := rfl
@[simp] theorem useFree_clk (s : State) : (useFree s).clk = s.clk := rfl
@[simp] theorem useFree_regs (s : State) : (useFree s).regs = s.regs := rfl
@[simp] theorem useFree_fuses (s : State) : (useFree s).fuses = s.fuses := rfl
@[simp] theorem useFree_dram (s : State) : (useFree s).dram = s.dram := rfl
@[simp] theorem useFree_stage (s : State) : (useFree s).stage = s.stage := rfl
@[simp] theorem useFree_banks (s : State) : (useFree s).banks = s.banks := rfl
@[simp] theorem useFree_tables (s : State) : (useFree s).tables = s.tables := rfl
@[simp] theorem useFree_hostMem (s : State) : (useFree s).hostMem = s.hostMem := rfl
@[simp] theorem useFree_flash (s : State) : (useFree s).flash = s.flash := rfl
@[simp] theorem useFree_marks (s : State) : (useFree s).marks = s.marks := rfl
@[simp] theorem useFree_losses (s : State) : (useFree s).losses = s.losses := rfl
@[simp] theorem useFree_scrub (s : State) : (useFree s).scrub = s.scrub := rfl
@[simp] theorem useFree_flits (s : State) : (useFree s).flits = s.flits := rfl
@[simp] theorem useFree_disp (s : State) : (useFree s).disp = s.disp := rfl
@[simp] theorem useFree_day (s : State) : (useFree s).day = s.day := rfl
@[simp] theorem useFree_cam (s : State) : (useFree s).cam = s.cam := rfl
@[simp] theorem useFree_srt (s : State) : (useFree s).srt = s.srt := rfl
@[simp] theorem useFree_slv (s : State) : (useFree s).slv = s.slv := rfl
@[simp] theorem useFree_srv (s : State) : (useFree s).srv = s.srv := rfl
@[simp] theorem useFree_lanes (s : State) : (useFree s).lanes = s.lanes := rfl
@[simp] theorem useFree_cans (s : State) : (useFree s).cans = s.cans := rfl
@[simp] theorem useFree_ring (s : State) : (useFree s).ring = s.ring := rfl
@[simp] theorem useFree_saf (s : State) : (useFree s).saf = s.saf := rfl
@[simp] theorem useFree_tim (s : State) : (useFree s).tim = s.tim := rfl
@[simp] theorem useFree_macs (s : State) : (useFree s).macs = s.macs := rfl
@[simp] theorem useFree_pwr (s : State) : (useFree s).pwr = s.pwr := rfl
@[simp] theorem useFree_mgt (s : State) : (useFree s).mgt = s.mgt := rfl
@[simp] theorem useFree_sess (s : State) : (useFree s).sess = s.sess := rfl
@[simp] theorem useFree_pcieData (s : State) : (useFree s).pcieData = s.pcieData := rfl
@[simp] theorem useFree_outbox (s : State) : (useFree s).outbox = s.outbox := rfl

/-! ### emit -/

@[simp] theorem emit_pending (x : Out) (s : State) : (emit x s).pending = s.pending := rfl
@[simp] theorem emit_clk (x : Out) (s : State) : (emit x s).clk = s.clk := rfl
@[simp] theorem emit_regs (x : Out) (s : State) : (emit x s).regs = s.regs := rfl
@[simp] theorem emit_fuses (x : Out) (s : State) : (emit x s).fuses = s.fuses := rfl
@[simp] theorem emit_dram (x : Out) (s : State) : (emit x s).dram = s.dram := rfl
@[simp] theorem emit_stage (x : Out) (s : State) : (emit x s).stage = s.stage := rfl
@[simp] theorem emit_banks (x : Out) (s : State) : (emit x s).banks = s.banks := rfl
@[simp] theorem emit_tables (x : Out) (s : State) : (emit x s).tables = s.tables := rfl
@[simp] theorem emit_hostMem (x : Out) (s : State) : (emit x s).hostMem = s.hostMem := rfl
@[simp] theorem emit_flash (x : Out) (s : State) : (emit x s).flash = s.flash := rfl
@[simp] theorem emit_marks (x : Out) (s : State) : (emit x s).marks = s.marks := rfl
@[simp] theorem emit_losses (x : Out) (s : State) : (emit x s).losses = s.losses := rfl
@[simp] theorem emit_scrub (x : Out) (s : State) : (emit x s).scrub = s.scrub := rfl
@[simp] theorem emit_flits (x : Out) (s : State) : (emit x s).flits = s.flits := rfl
@[simp] theorem emit_disp (x : Out) (s : State) : (emit x s).disp = s.disp := rfl
@[simp] theorem emit_day (x : Out) (s : State) : (emit x s).day = s.day := rfl
@[simp] theorem emit_cam (x : Out) (s : State) : (emit x s).cam = s.cam := rfl
@[simp] theorem emit_srt (x : Out) (s : State) : (emit x s).srt = s.srt := rfl
@[simp] theorem emit_slv (x : Out) (s : State) : (emit x s).slv = s.slv := rfl
@[simp] theorem emit_srv (x : Out) (s : State) : (emit x s).srv = s.srv := rfl
@[simp] theorem emit_lanes (x : Out) (s : State) : (emit x s).lanes = s.lanes := rfl
@[simp] theorem emit_cans (x : Out) (s : State) : (emit x s).cans = s.cans := rfl
@[simp] theorem emit_ring (x : Out) (s : State) : (emit x s).ring = s.ring := rfl
@[simp] theorem emit_saf (x : Out) (s : State) : (emit x s).saf = s.saf := rfl
@[simp] theorem emit_tim (x : Out) (s : State) : (emit x s).tim = s.tim := rfl
@[simp] theorem emit_macs (x : Out) (s : State) : (emit x s).macs = s.macs := rfl
@[simp] theorem emit_pwr (x : Out) (s : State) : (emit x s).pwr = s.pwr := rfl
@[simp] theorem emit_mgt (x : Out) (s : State) : (emit x s).mgt = s.mgt := rfl
@[simp] theorem emit_sess (x : Out) (s : State) : (emit x s).sess = s.sess := rfl
@[simp] theorem emit_pcieData (x : Out) (s : State) : (emit x s).pcieData = s.pcieData := rfl
@[simp] theorem emit_freeCtr (x : Out) (s : State) : (emit x s).freeCtr = s.freeCtr := rfl

/-! ### advance -/

@[simp] theorem advance_pending (n : Nat) (s : State) : (advance n s).pending = s.pending := rfl
@[simp] theorem advance_regs (n : Nat) (s : State) : (advance n s).regs = s.regs := rfl
@[simp] theorem advance_fuses (n : Nat) (s : State) : (advance n s).fuses = s.fuses := rfl
@[simp] theorem advance_dram (n : Nat) (s : State) : (advance n s).dram = s.dram := rfl
@[simp] theorem advance_stage (n : Nat) (s : State) : (advance n s).stage = s.stage := rfl
@[simp] theorem advance_banks (n : Nat) (s : State) : (advance n s).banks = s.banks := rfl
@[simp] theorem advance_tables (n : Nat) (s : State) : (advance n s).tables = s.tables := rfl
@[simp] theorem advance_hostMem (n : Nat) (s : State) : (advance n s).hostMem = s.hostMem := rfl
@[simp] theorem advance_flash (n : Nat) (s : State) : (advance n s).flash = s.flash := rfl
@[simp] theorem advance_marks (n : Nat) (s : State) : (advance n s).marks = s.marks := rfl
@[simp] theorem advance_losses (n : Nat) (s : State) : (advance n s).losses = s.losses := rfl
@[simp] theorem advance_scrub (n : Nat) (s : State) : (advance n s).scrub = s.scrub := rfl
@[simp] theorem advance_flits (n : Nat) (s : State) : (advance n s).flits = s.flits := rfl
@[simp] theorem advance_disp (n : Nat) (s : State) : (advance n s).disp = s.disp := rfl
@[simp] theorem advance_day (n : Nat) (s : State) : (advance n s).day = s.day := rfl
@[simp] theorem advance_cam (n : Nat) (s : State) : (advance n s).cam = s.cam := rfl
@[simp] theorem advance_srt (n : Nat) (s : State) : (advance n s).srt = s.srt := rfl
@[simp] theorem advance_slv (n : Nat) (s : State) : (advance n s).slv = s.slv := rfl
@[simp] theorem advance_srv (n : Nat) (s : State) : (advance n s).srv = s.srv := rfl
@[simp] theorem advance_lanes (n : Nat) (s : State) : (advance n s).lanes = s.lanes := rfl
@[simp] theorem advance_cans (n : Nat) (s : State) : (advance n s).cans = s.cans := rfl
@[simp] theorem advance_ring (n : Nat) (s : State) : (advance n s).ring = s.ring := rfl
@[simp] theorem advance_saf (n : Nat) (s : State) : (advance n s).saf = s.saf := rfl
@[simp] theorem advance_macs (n : Nat) (s : State) : (advance n s).macs = s.macs := rfl
@[simp] theorem advance_pwr (n : Nat) (s : State) : (advance n s).pwr = s.pwr := rfl
@[simp] theorem advance_mgt (n : Nat) (s : State) : (advance n s).mgt = s.mgt := rfl
@[simp] theorem advance_sess (n : Nat) (s : State) : (advance n s).sess = s.sess := rfl
@[simp] theorem advance_pcieData (n : Nat) (s : State) : (advance n s).pcieData = s.pcieData := rfl
@[simp] theorem advance_outbox (n : Nat) (s : State) : (advance n s).outbox = s.outbox := rfl
@[simp] theorem advance_freeCtr (n : Nat) (s : State) : (advance n s).freeCtr = s.freeCtr := rfl

/-! ### runTo -/

@[simp] theorem runTo_pending (n : Nat) (s : State) : (runTo n s).pending = s.pending := rfl
@[simp] theorem runTo_regs (n : Nat) (s : State) : (runTo n s).regs = s.regs := rfl
@[simp] theorem runTo_fuses (n : Nat) (s : State) : (runTo n s).fuses = s.fuses := rfl
@[simp] theorem runTo_dram (n : Nat) (s : State) : (runTo n s).dram = s.dram := rfl
@[simp] theorem runTo_stage (n : Nat) (s : State) : (runTo n s).stage = s.stage := rfl
@[simp] theorem runTo_banks (n : Nat) (s : State) : (runTo n s).banks = s.banks := rfl
@[simp] theorem runTo_tables (n : Nat) (s : State) : (runTo n s).tables = s.tables := rfl
@[simp] theorem runTo_hostMem (n : Nat) (s : State) : (runTo n s).hostMem = s.hostMem := rfl
@[simp] theorem runTo_flash (n : Nat) (s : State) : (runTo n s).flash = s.flash := rfl
@[simp] theorem runTo_marks (n : Nat) (s : State) : (runTo n s).marks = s.marks := rfl
@[simp] theorem runTo_losses (n : Nat) (s : State) : (runTo n s).losses = s.losses := rfl
@[simp] theorem runTo_scrub (n : Nat) (s : State) : (runTo n s).scrub = s.scrub := rfl
@[simp] theorem runTo_flits (n : Nat) (s : State) : (runTo n s).flits = s.flits := rfl
@[simp] theorem runTo_disp (n : Nat) (s : State) : (runTo n s).disp = s.disp := rfl
@[simp] theorem runTo_day (n : Nat) (s : State) : (runTo n s).day = s.day := rfl
@[simp] theorem runTo_cam (n : Nat) (s : State) : (runTo n s).cam = s.cam := rfl
@[simp] theorem runTo_srt (n : Nat) (s : State) : (runTo n s).srt = s.srt := rfl
@[simp] theorem runTo_slv (n : Nat) (s : State) : (runTo n s).slv = s.slv := rfl
@[simp] theorem runTo_srv (n : Nat) (s : State) : (runTo n s).srv = s.srv := rfl
@[simp] theorem runTo_lanes (n : Nat) (s : State) : (runTo n s).lanes = s.lanes := rfl
@[simp] theorem runTo_cans (n : Nat) (s : State) : (runTo n s).cans = s.cans := rfl
@[simp] theorem runTo_ring (n : Nat) (s : State) : (runTo n s).ring = s.ring := rfl
@[simp] theorem runTo_saf (n : Nat) (s : State) : (runTo n s).saf = s.saf := rfl
@[simp] theorem runTo_macs (n : Nat) (s : State) : (runTo n s).macs = s.macs := rfl
@[simp] theorem runTo_pwr (n : Nat) (s : State) : (runTo n s).pwr = s.pwr := rfl
@[simp] theorem runTo_mgt (n : Nat) (s : State) : (runTo n s).mgt = s.mgt := rfl
@[simp] theorem runTo_sess (n : Nat) (s : State) : (runTo n s).sess = s.sess := rfl
@[simp] theorem runTo_pcieData (n : Nat) (s : State) : (runTo n s).pcieData = s.pcieData := rfl
@[simp] theorem runTo_outbox (n : Nat) (s : State) : (runTo n s).outbox = s.outbox := rfl
@[simp] theorem runTo_freeCtr (n : Nat) (s : State) : (runTo n s).freeCtr = s.freeCtr := rfl

/-! ### setHandoff -/

@[simp] theorem setHandoff_pending (k : Nat) (h : Handoff) (s : State) : (setHandoff k h s).pending = s.pending := rfl
@[simp] theorem setHandoff_clk (k : Nat) (h : Handoff) (s : State) : (setHandoff k h s).clk = s.clk := rfl
@[simp] theorem setHandoff_regs (k : Nat) (h : Handoff) (s : State) : (setHandoff k h s).regs = s.regs := rfl
@[simp] theorem setHandoff_fuses (k : Nat) (h : Handoff) (s : State) : (setHandoff k h s).fuses = s.fuses := rfl
@[simp] theorem setHandoff_dram (k : Nat) (h : Handoff) (s : State) : (setHandoff k h s).dram = s.dram := rfl
@[simp] theorem setHandoff_stage (k : Nat) (h : Handoff) (s : State) : (setHandoff k h s).stage = s.stage := rfl
@[simp] theorem setHandoff_banks (k : Nat) (h : Handoff) (s : State) : (setHandoff k h s).banks = s.banks := rfl
@[simp] theorem setHandoff_tables (k : Nat) (h : Handoff) (s : State) : (setHandoff k h s).tables = s.tables := rfl
@[simp] theorem setHandoff_hostMem (k : Nat) (h : Handoff) (s : State) : (setHandoff k h s).hostMem = s.hostMem := rfl
@[simp] theorem setHandoff_flash (k : Nat) (h : Handoff) (s : State) : (setHandoff k h s).flash = s.flash := rfl
@[simp] theorem setHandoff_marks (k : Nat) (h : Handoff) (s : State) : (setHandoff k h s).marks = s.marks := rfl
@[simp] theorem setHandoff_losses (k : Nat) (h : Handoff) (s : State) : (setHandoff k h s).losses = s.losses := rfl
@[simp] theorem setHandoff_scrub (k : Nat) (h : Handoff) (s : State) : (setHandoff k h s).scrub = s.scrub := rfl
@[simp] theorem setHandoff_flits (k : Nat) (h : Handoff) (s : State) : (setHandoff k h s).flits = s.flits := rfl
@[simp] theorem setHandoff_day (k : Nat) (h : Handoff) (s : State) : (setHandoff k h s).day = s.day := rfl
@[simp] theorem setHandoff_cam (k : Nat) (h : Handoff) (s : State) : (setHandoff k h s).cam = s.cam := rfl
@[simp] theorem setHandoff_srt (k : Nat) (h : Handoff) (s : State) : (setHandoff k h s).srt = s.srt := rfl
@[simp] theorem setHandoff_slv (k : Nat) (h : Handoff) (s : State) : (setHandoff k h s).slv = s.slv := rfl
@[simp] theorem setHandoff_srv (k : Nat) (h : Handoff) (s : State) : (setHandoff k h s).srv = s.srv := rfl
@[simp] theorem setHandoff_lanes (k : Nat) (h : Handoff) (s : State) : (setHandoff k h s).lanes = s.lanes := rfl
@[simp] theorem setHandoff_cans (k : Nat) (h : Handoff) (s : State) : (setHandoff k h s).cans = s.cans := rfl
@[simp] theorem setHandoff_ring (k : Nat) (h : Handoff) (s : State) : (setHandoff k h s).ring = s.ring := rfl
@[simp] theorem setHandoff_saf (k : Nat) (h : Handoff) (s : State) : (setHandoff k h s).saf = s.saf := rfl
@[simp] theorem setHandoff_tim (k : Nat) (h : Handoff) (s : State) : (setHandoff k h s).tim = s.tim := rfl
@[simp] theorem setHandoff_macs (k : Nat) (h : Handoff) (s : State) : (setHandoff k h s).macs = s.macs := rfl
@[simp] theorem setHandoff_pwr (k : Nat) (h : Handoff) (s : State) : (setHandoff k h s).pwr = s.pwr := rfl
@[simp] theorem setHandoff_mgt (k : Nat) (h : Handoff) (s : State) : (setHandoff k h s).mgt = s.mgt := rfl
@[simp] theorem setHandoff_sess (k : Nat) (h : Handoff) (s : State) : (setHandoff k h s).sess = s.sess := rfl
@[simp] theorem setHandoff_pcieData (k : Nat) (h : Handoff) (s : State) : (setHandoff k h s).pcieData = s.pcieData := rfl
@[simp] theorem setHandoff_outbox (k : Nat) (h : Handoff) (s : State) : (setHandoff k h s).outbox = s.outbox := rfl
@[simp] theorem setHandoff_freeCtr (k : Nat) (h : Handoff) (s : State) : (setHandoff k h s).freeCtr = s.freeCtr := rfl

/-! ### setJob -/

@[simp] theorem setJob_pending (j : Job) (s : State) : (setJob j s).pending = s.pending := rfl
@[simp] theorem setJob_clk (j : Job) (s : State) : (setJob j s).clk = s.clk := rfl
@[simp] theorem setJob_regs (j : Job) (s : State) : (setJob j s).regs = s.regs := rfl
@[simp] theorem setJob_fuses (j : Job) (s : State) : (setJob j s).fuses = s.fuses := rfl
@[simp] theorem setJob_dram (j : Job) (s : State) : (setJob j s).dram = s.dram := rfl
@[simp] theorem setJob_stage (j : Job) (s : State) : (setJob j s).stage = s.stage := rfl
@[simp] theorem setJob_banks (j : Job) (s : State) : (setJob j s).banks = s.banks := rfl
@[simp] theorem setJob_tables (j : Job) (s : State) : (setJob j s).tables = s.tables := rfl
@[simp] theorem setJob_hostMem (j : Job) (s : State) : (setJob j s).hostMem = s.hostMem := rfl
@[simp] theorem setJob_flash (j : Job) (s : State) : (setJob j s).flash = s.flash := rfl
@[simp] theorem setJob_marks (j : Job) (s : State) : (setJob j s).marks = s.marks := rfl
@[simp] theorem setJob_losses (j : Job) (s : State) : (setJob j s).losses = s.losses := rfl
@[simp] theorem setJob_scrub (j : Job) (s : State) : (setJob j s).scrub = s.scrub := rfl
@[simp] theorem setJob_flits (j : Job) (s : State) : (setJob j s).flits = s.flits := rfl
@[simp] theorem setJob_day (j : Job) (s : State) : (setJob j s).day = s.day := rfl
@[simp] theorem setJob_cam (j : Job) (s : State) : (setJob j s).cam = s.cam := rfl
@[simp] theorem setJob_srt (j : Job) (s : State) : (setJob j s).srt = s.srt := rfl
@[simp] theorem setJob_slv (j : Job) (s : State) : (setJob j s).slv = s.slv := rfl
@[simp] theorem setJob_srv (j : Job) (s : State) : (setJob j s).srv = s.srv := rfl
@[simp] theorem setJob_lanes (j : Job) (s : State) : (setJob j s).lanes = s.lanes := rfl
@[simp] theorem setJob_cans (j : Job) (s : State) : (setJob j s).cans = s.cans := rfl
@[simp] theorem setJob_ring (j : Job) (s : State) : (setJob j s).ring = s.ring := rfl
@[simp] theorem setJob_saf (j : Job) (s : State) : (setJob j s).saf = s.saf := rfl
@[simp] theorem setJob_tim (j : Job) (s : State) : (setJob j s).tim = s.tim := rfl
@[simp] theorem setJob_macs (j : Job) (s : State) : (setJob j s).macs = s.macs := rfl
@[simp] theorem setJob_pwr (j : Job) (s : State) : (setJob j s).pwr = s.pwr := rfl
@[simp] theorem setJob_mgt (j : Job) (s : State) : (setJob j s).mgt = s.mgt := rfl
@[simp] theorem setJob_sess (j : Job) (s : State) : (setJob j s).sess = s.sess := rfl
@[simp] theorem setJob_pcieData (j : Job) (s : State) : (setJob j s).pcieData = s.pcieData := rfl
@[simp] theorem setJob_outbox (j : Job) (s : State) : (setJob j s).outbox = s.outbox := rfl
@[simp] theorem setJob_freeCtr (j : Job) (s : State) : (setJob j s).freeCtr = s.freeCtr := rfl

/-! ### setHandle -/

@[simp] theorem setHandle_pending (h : Nat) (v : Option HandleInfo) (s : State) : (setHandle h v s).pending = s.pending := rfl
@[simp] theorem setHandle_clk (h : Nat) (v : Option HandleInfo) (s : State) : (setHandle h v s).clk = s.clk := rfl
@[simp] theorem setHandle_regs (h : Nat) (v : Option HandleInfo) (s : State) : (setHandle h v s).regs = s.regs := rfl
@[simp] theorem setHandle_fuses (h : Nat) (v : Option HandleInfo) (s : State) : (setHandle h v s).fuses = s.fuses := rfl
@[simp] theorem setHandle_dram (h : Nat) (v : Option HandleInfo) (s : State) : (setHandle h v s).dram = s.dram := rfl
@[simp] theorem setHandle_stage (h : Nat) (v : Option HandleInfo) (s : State) : (setHandle h v s).stage = s.stage := rfl
@[simp] theorem setHandle_banks (h : Nat) (v : Option HandleInfo) (s : State) : (setHandle h v s).banks = s.banks := rfl
@[simp] theorem setHandle_tables (h : Nat) (v : Option HandleInfo) (s : State) : (setHandle h v s).tables = s.tables := rfl
@[simp] theorem setHandle_hostMem (h : Nat) (v : Option HandleInfo) (s : State) : (setHandle h v s).hostMem = s.hostMem := rfl
@[simp] theorem setHandle_flash (h : Nat) (v : Option HandleInfo) (s : State) : (setHandle h v s).flash = s.flash := rfl
@[simp] theorem setHandle_marks (h : Nat) (v : Option HandleInfo) (s : State) : (setHandle h v s).marks = s.marks := rfl
@[simp] theorem setHandle_losses (h : Nat) (v : Option HandleInfo) (s : State) : (setHandle h v s).losses = s.losses := rfl
@[simp] theorem setHandle_scrub (h : Nat) (v : Option HandleInfo) (s : State) : (setHandle h v s).scrub = s.scrub := rfl
@[simp] theorem setHandle_flits (h : Nat) (v : Option HandleInfo) (s : State) : (setHandle h v s).flits = s.flits := rfl
@[simp] theorem setHandle_day (h : Nat) (v : Option HandleInfo) (s : State) : (setHandle h v s).day = s.day := rfl
@[simp] theorem setHandle_cam (h : Nat) (v : Option HandleInfo) (s : State) : (setHandle h v s).cam = s.cam := rfl
@[simp] theorem setHandle_srt (h : Nat) (v : Option HandleInfo) (s : State) : (setHandle h v s).srt = s.srt := rfl
@[simp] theorem setHandle_slv (h : Nat) (v : Option HandleInfo) (s : State) : (setHandle h v s).slv = s.slv := rfl
@[simp] theorem setHandle_srv (h : Nat) (v : Option HandleInfo) (s : State) : (setHandle h v s).srv = s.srv := rfl
@[simp] theorem setHandle_lanes (h : Nat) (v : Option HandleInfo) (s : State) : (setHandle h v s).lanes = s.lanes := rfl
@[simp] theorem setHandle_cans (h : Nat) (v : Option HandleInfo) (s : State) : (setHandle h v s).cans = s.cans := rfl
@[simp] theorem setHandle_ring (h : Nat) (v : Option HandleInfo) (s : State) : (setHandle h v s).ring = s.ring := rfl
@[simp] theorem setHandle_saf (h : Nat) (v : Option HandleInfo) (s : State) : (setHandle h v s).saf = s.saf := rfl
@[simp] theorem setHandle_tim (h : Nat) (v : Option HandleInfo) (s : State) : (setHandle h v s).tim = s.tim := rfl
@[simp] theorem setHandle_macs (h : Nat) (v : Option HandleInfo) (s : State) : (setHandle h v s).macs = s.macs := rfl
@[simp] theorem setHandle_pwr (h : Nat) (v : Option HandleInfo) (s : State) : (setHandle h v s).pwr = s.pwr := rfl
@[simp] theorem setHandle_mgt (h : Nat) (v : Option HandleInfo) (s : State) : (setHandle h v s).mgt = s.mgt := rfl
@[simp] theorem setHandle_sess (h : Nat) (v : Option HandleInfo) (s : State) : (setHandle h v s).sess = s.sess := rfl
@[simp] theorem setHandle_pcieData (h : Nat) (v : Option HandleInfo) (s : State) : (setHandle h v s).pcieData = s.pcieData := rfl
@[simp] theorem setHandle_outbox (h : Nat) (v : Option HandleInfo) (s : State) : (setHandle h v s).outbox = s.outbox := rfl
@[simp] theorem setHandle_freeCtr (h : Nat) (v : Option HandleInfo) (s : State) : (setHandle h v s).freeCtr = s.freeCtr := rfl

/-! ### setStandingEntry -/

@[simp] theorem setStandingEntry_pending (e : Nat) (v : Standing) (s : State) : (setStandingEntry e v s).pending = s.pending := rfl
@[simp] theorem setStandingEntry_clk (e : Nat) (v : Standing) (s : State) : (setStandingEntry e v s).clk = s.clk := rfl
@[simp] theorem setStandingEntry_regs (e : Nat) (v : Standing) (s : State) : (setStandingEntry e v s).regs = s.regs := rfl
@[simp] theorem setStandingEntry_fuses (e : Nat) (v : Standing) (s : State) : (setStandingEntry e v s).fuses = s.fuses := rfl
@[simp] theorem setStandingEntry_dram (e : Nat) (v : Standing) (s : State) : (setStandingEntry e v s).dram = s.dram := rfl
@[simp] theorem setStandingEntry_stage (e : Nat) (v : Standing) (s : State) : (setStandingEntry e v s).stage = s.stage := rfl
@[simp] theorem setStandingEntry_banks (e : Nat) (v : Standing) (s : State) : (setStandingEntry e v s).banks = s.banks := rfl
@[simp] theorem setStandingEntry_tables (e : Nat) (v : Standing) (s : State) : (setStandingEntry e v s).tables = s.tables := rfl
@[simp] theorem setStandingEntry_hostMem (e : Nat) (v : Standing) (s : State) : (setStandingEntry e v s).hostMem = s.hostMem := rfl
@[simp] theorem setStandingEntry_flash (e : Nat) (v : Standing) (s : State) : (setStandingEntry e v s).flash = s.flash := rfl
@[simp] theorem setStandingEntry_marks (e : Nat) (v : Standing) (s : State) : (setStandingEntry e v s).marks = s.marks := rfl
@[simp] theorem setStandingEntry_losses (e : Nat) (v : Standing) (s : State) : (setStandingEntry e v s).losses = s.losses := rfl
@[simp] theorem setStandingEntry_scrub (e : Nat) (v : Standing) (s : State) : (setStandingEntry e v s).scrub = s.scrub := rfl
@[simp] theorem setStandingEntry_flits (e : Nat) (v : Standing) (s : State) : (setStandingEntry e v s).flits = s.flits := rfl
@[simp] theorem setStandingEntry_day (e : Nat) (v : Standing) (s : State) : (setStandingEntry e v s).day = s.day := rfl
@[simp] theorem setStandingEntry_cam (e : Nat) (v : Standing) (s : State) : (setStandingEntry e v s).cam = s.cam := rfl
@[simp] theorem setStandingEntry_srt (e : Nat) (v : Standing) (s : State) : (setStandingEntry e v s).srt = s.srt := rfl
@[simp] theorem setStandingEntry_slv (e : Nat) (v : Standing) (s : State) : (setStandingEntry e v s).slv = s.slv := rfl
@[simp] theorem setStandingEntry_srv (e : Nat) (v : Standing) (s : State) : (setStandingEntry e v s).srv = s.srv := rfl
@[simp] theorem setStandingEntry_lanes (e : Nat) (v : Standing) (s : State) : (setStandingEntry e v s).lanes = s.lanes := rfl
@[simp] theorem setStandingEntry_cans (e : Nat) (v : Standing) (s : State) : (setStandingEntry e v s).cans = s.cans := rfl
@[simp] theorem setStandingEntry_ring (e : Nat) (v : Standing) (s : State) : (setStandingEntry e v s).ring = s.ring := rfl
@[simp] theorem setStandingEntry_saf (e : Nat) (v : Standing) (s : State) : (setStandingEntry e v s).saf = s.saf := rfl
@[simp] theorem setStandingEntry_tim (e : Nat) (v : Standing) (s : State) : (setStandingEntry e v s).tim = s.tim := rfl
@[simp] theorem setStandingEntry_macs (e : Nat) (v : Standing) (s : State) : (setStandingEntry e v s).macs = s.macs := rfl
@[simp] theorem setStandingEntry_pwr (e : Nat) (v : Standing) (s : State) : (setStandingEntry e v s).pwr = s.pwr := rfl
@[simp] theorem setStandingEntry_mgt (e : Nat) (v : Standing) (s : State) : (setStandingEntry e v s).mgt = s.mgt := rfl
@[simp] theorem setStandingEntry_sess (e : Nat) (v : Standing) (s : State) : (setStandingEntry e v s).sess = s.sess := rfl
@[simp] theorem setStandingEntry_pcieData (e : Nat) (v : Standing) (s : State) : (setStandingEntry e v s).pcieData = s.pcieData := rfl
@[simp] theorem setStandingEntry_outbox (e : Nat) (v : Standing) (s : State) : (setStandingEntry e v s).outbox = s.outbox := rfl
@[simp] theorem setStandingEntry_freeCtr (e : Nat) (v : Standing) (s : State) : (setStandingEntry e v s).freeCtr = s.freeCtr := rfl

/-! ### setRing -/

@[simp] theorem setRing_pending (q : Nat) (r : RingCfg) (s : State) : (setRing q r s).pending = s.pending := rfl
@[simp] theorem setRing_clk (q : Nat) (r : RingCfg) (s : State) : (setRing q r s).clk = s.clk := rfl
@[simp] theorem setRing_regs (q : Nat) (r : RingCfg) (s : State) : (setRing q r s).regs = s.regs := rfl
@[simp] theorem setRing_fuses (q : Nat) (r : RingCfg) (s : State) : (setRing q r s).fuses = s.fuses := rfl
@[simp] theorem setRing_dram (q : Nat) (r : RingCfg) (s : State) : (setRing q r s).dram = s.dram := rfl
@[simp] theorem setRing_stage (q : Nat) (r : RingCfg) (s : State) : (setRing q r s).stage = s.stage := rfl
@[simp] theorem setRing_banks (q : Nat) (r : RingCfg) (s : State) : (setRing q r s).banks = s.banks := rfl
@[simp] theorem setRing_tables (q : Nat) (r : RingCfg) (s : State) : (setRing q r s).tables = s.tables := rfl
@[simp] theorem setRing_hostMem (q : Nat) (r : RingCfg) (s : State) : (setRing q r s).hostMem = s.hostMem := rfl
@[simp] theorem setRing_flash (q : Nat) (r : RingCfg) (s : State) : (setRing q r s).flash = s.flash := rfl
@[simp] theorem setRing_marks (q : Nat) (r : RingCfg) (s : State) : (setRing q r s).marks = s.marks := rfl
@[simp] theorem setRing_losses (q : Nat) (r : RingCfg) (s : State) : (setRing q r s).losses = s.losses := rfl
@[simp] theorem setRing_scrub (q : Nat) (r : RingCfg) (s : State) : (setRing q r s).scrub = s.scrub := rfl
@[simp] theorem setRing_flits (q : Nat) (r : RingCfg) (s : State) : (setRing q r s).flits = s.flits := rfl
@[simp] theorem setRing_day (q : Nat) (r : RingCfg) (s : State) : (setRing q r s).day = s.day := rfl
@[simp] theorem setRing_cam (q : Nat) (r : RingCfg) (s : State) : (setRing q r s).cam = s.cam := rfl
@[simp] theorem setRing_srt (q : Nat) (r : RingCfg) (s : State) : (setRing q r s).srt = s.srt := rfl
@[simp] theorem setRing_slv (q : Nat) (r : RingCfg) (s : State) : (setRing q r s).slv = s.slv := rfl
@[simp] theorem setRing_srv (q : Nat) (r : RingCfg) (s : State) : (setRing q r s).srv = s.srv := rfl
@[simp] theorem setRing_lanes (q : Nat) (r : RingCfg) (s : State) : (setRing q r s).lanes = s.lanes := rfl
@[simp] theorem setRing_cans (q : Nat) (r : RingCfg) (s : State) : (setRing q r s).cans = s.cans := rfl
@[simp] theorem setRing_ring (q : Nat) (r : RingCfg) (s : State) : (setRing q r s).ring = s.ring := rfl
@[simp] theorem setRing_saf (q : Nat) (r : RingCfg) (s : State) : (setRing q r s).saf = s.saf := rfl
@[simp] theorem setRing_tim (q : Nat) (r : RingCfg) (s : State) : (setRing q r s).tim = s.tim := rfl
@[simp] theorem setRing_macs (q : Nat) (r : RingCfg) (s : State) : (setRing q r s).macs = s.macs := rfl
@[simp] theorem setRing_pwr (q : Nat) (r : RingCfg) (s : State) : (setRing q r s).pwr = s.pwr := rfl
@[simp] theorem setRing_mgt (q : Nat) (r : RingCfg) (s : State) : (setRing q r s).mgt = s.mgt := rfl
@[simp] theorem setRing_sess (q : Nat) (r : RingCfg) (s : State) : (setRing q r s).sess = s.sess := rfl
@[simp] theorem setRing_pcieData (q : Nat) (r : RingCfg) (s : State) : (setRing q r s).pcieData = s.pcieData := rfl
@[simp] theorem setRing_outbox (q : Nat) (r : RingCfg) (s : State) : (setRing q r s).outbox = s.outbox := rfl
@[simp] theorem setRing_freeCtr (q : Nat) (r : RingCfg) (s : State) : (setRing q r s).freeCtr = s.freeCtr := rfl

/-! ### setStream -/

@[simp] theorem setStream_pending (k : Nat) (v : Stream) (s : State) : (setStream k v s).pending = s.pending := rfl
@[simp] theorem setStream_clk (k : Nat) (v : Stream) (s : State) : (setStream k v s).clk = s.clk := rfl
@[simp] theorem setStream_regs (k : Nat) (v : Stream) (s : State) : (setStream k v s).regs = s.regs := rfl
@[simp] theorem setStream_fuses (k : Nat) (v : Stream) (s : State) : (setStream k v s).fuses = s.fuses := rfl
@[simp] theorem setStream_dram (k : Nat) (v : Stream) (s : State) : (setStream k v s).dram = s.dram := rfl
@[simp] theorem setStream_stage (k : Nat) (v : Stream) (s : State) : (setStream k v s).stage = s.stage := rfl
@[simp] theorem setStream_banks (k : Nat) (v : Stream) (s : State) : (setStream k v s).banks = s.banks := rfl
@[simp] theorem setStream_tables (k : Nat) (v : Stream) (s : State) : (setStream k v s).tables = s.tables := rfl
@[simp] theorem setStream_hostMem (k : Nat) (v : Stream) (s : State) : (setStream k v s).hostMem = s.hostMem := rfl
@[simp] theorem setStream_flash (k : Nat) (v : Stream) (s : State) : (setStream k v s).flash = s.flash := rfl
@[simp] theorem setStream_marks (k : Nat) (v : Stream) (s : State) : (setStream k v s).marks = s.marks := rfl
@[simp] theorem setStream_losses (k : Nat) (v : Stream) (s : State) : (setStream k v s).losses = s.losses := rfl
@[simp] theorem setStream_scrub (k : Nat) (v : Stream) (s : State) : (setStream k v s).scrub = s.scrub := rfl
@[simp] theorem setStream_flits (k : Nat) (v : Stream) (s : State) : (setStream k v s).flits = s.flits := rfl
@[simp] theorem setStream_disp (k : Nat) (v : Stream) (s : State) : (setStream k v s).disp = s.disp := rfl
@[simp] theorem setStream_day (k : Nat) (v : Stream) (s : State) : (setStream k v s).day = s.day := rfl
@[simp] theorem setStream_srt (k : Nat) (v : Stream) (s : State) : (setStream k v s).srt = s.srt := rfl
@[simp] theorem setStream_slv (k : Nat) (v : Stream) (s : State) : (setStream k v s).slv = s.slv := rfl
@[simp] theorem setStream_srv (k : Nat) (v : Stream) (s : State) : (setStream k v s).srv = s.srv := rfl
@[simp] theorem setStream_lanes (k : Nat) (v : Stream) (s : State) : (setStream k v s).lanes = s.lanes := rfl
@[simp] theorem setStream_cans (k : Nat) (v : Stream) (s : State) : (setStream k v s).cans = s.cans := rfl
@[simp] theorem setStream_ring (k : Nat) (v : Stream) (s : State) : (setStream k v s).ring = s.ring := rfl
@[simp] theorem setStream_saf (k : Nat) (v : Stream) (s : State) : (setStream k v s).saf = s.saf := rfl
@[simp] theorem setStream_tim (k : Nat) (v : Stream) (s : State) : (setStream k v s).tim = s.tim := rfl
@[simp] theorem setStream_macs (k : Nat) (v : Stream) (s : State) : (setStream k v s).macs = s.macs := rfl
@[simp] theorem setStream_pwr (k : Nat) (v : Stream) (s : State) : (setStream k v s).pwr = s.pwr := rfl
@[simp] theorem setStream_mgt (k : Nat) (v : Stream) (s : State) : (setStream k v s).mgt = s.mgt := rfl
@[simp] theorem setStream_sess (k : Nat) (v : Stream) (s : State) : (setStream k v s).sess = s.sess := rfl
@[simp] theorem setStream_pcieData (k : Nat) (v : Stream) (s : State) : (setStream k v s).pcieData = s.pcieData := rfl
@[simp] theorem setStream_outbox (k : Nat) (v : Stream) (s : State) : (setStream k v s).outbox = s.outbox := rfl
@[simp] theorem setStream_freeCtr (k : Nat) (v : Stream) (s : State) : (setStream k v s).freeCtr = s.freeCtr := rfl

/-! ### setCtx -/

@[simp] theorem setCtx_pending (c : Nat) (v : Ctx) (s : State) : (setCtx c v s).pending = s.pending := rfl
@[simp] theorem setCtx_clk (c : Nat) (v : Ctx) (s : State) : (setCtx c v s).clk = s.clk := rfl
@[simp] theorem setCtx_regs (c : Nat) (v : Ctx) (s : State) : (setCtx c v s).regs = s.regs := rfl
@[simp] theorem setCtx_fuses (c : Nat) (v : Ctx) (s : State) : (setCtx c v s).fuses = s.fuses := rfl
@[simp] theorem setCtx_dram (c : Nat) (v : Ctx) (s : State) : (setCtx c v s).dram = s.dram := rfl
@[simp] theorem setCtx_stage (c : Nat) (v : Ctx) (s : State) : (setCtx c v s).stage = s.stage := rfl
@[simp] theorem setCtx_banks (c : Nat) (v : Ctx) (s : State) : (setCtx c v s).banks = s.banks := rfl
@[simp] theorem setCtx_tables (c : Nat) (v : Ctx) (s : State) : (setCtx c v s).tables = s.tables := rfl
@[simp] theorem setCtx_hostMem (c : Nat) (v : Ctx) (s : State) : (setCtx c v s).hostMem = s.hostMem := rfl
@[simp] theorem setCtx_flash (c : Nat) (v : Ctx) (s : State) : (setCtx c v s).flash = s.flash := rfl
@[simp] theorem setCtx_marks (c : Nat) (v : Ctx) (s : State) : (setCtx c v s).marks = s.marks := rfl
@[simp] theorem setCtx_losses (c : Nat) (v : Ctx) (s : State) : (setCtx c v s).losses = s.losses := rfl
@[simp] theorem setCtx_scrub (c : Nat) (v : Ctx) (s : State) : (setCtx c v s).scrub = s.scrub := rfl
@[simp] theorem setCtx_flits (c : Nat) (v : Ctx) (s : State) : (setCtx c v s).flits = s.flits := rfl
@[simp] theorem setCtx_disp (c : Nat) (v : Ctx) (s : State) : (setCtx c v s).disp = s.disp := rfl
@[simp] theorem setCtx_day (c : Nat) (v : Ctx) (s : State) : (setCtx c v s).day = s.day := rfl
@[simp] theorem setCtx_srt (c : Nat) (v : Ctx) (s : State) : (setCtx c v s).srt = s.srt := rfl
@[simp] theorem setCtx_slv (c : Nat) (v : Ctx) (s : State) : (setCtx c v s).slv = s.slv := rfl
@[simp] theorem setCtx_srv (c : Nat) (v : Ctx) (s : State) : (setCtx c v s).srv = s.srv := rfl
@[simp] theorem setCtx_lanes (c : Nat) (v : Ctx) (s : State) : (setCtx c v s).lanes = s.lanes := rfl
@[simp] theorem setCtx_cans (c : Nat) (v : Ctx) (s : State) : (setCtx c v s).cans = s.cans := rfl
@[simp] theorem setCtx_ring (c : Nat) (v : Ctx) (s : State) : (setCtx c v s).ring = s.ring := rfl
@[simp] theorem setCtx_saf (c : Nat) (v : Ctx) (s : State) : (setCtx c v s).saf = s.saf := rfl
@[simp] theorem setCtx_tim (c : Nat) (v : Ctx) (s : State) : (setCtx c v s).tim = s.tim := rfl
@[simp] theorem setCtx_macs (c : Nat) (v : Ctx) (s : State) : (setCtx c v s).macs = s.macs := rfl
@[simp] theorem setCtx_pwr (c : Nat) (v : Ctx) (s : State) : (setCtx c v s).pwr = s.pwr := rfl
@[simp] theorem setCtx_mgt (c : Nat) (v : Ctx) (s : State) : (setCtx c v s).mgt = s.mgt := rfl
@[simp] theorem setCtx_sess (c : Nat) (v : Ctx) (s : State) : (setCtx c v s).sess = s.sess := rfl
@[simp] theorem setCtx_pcieData (c : Nat) (v : Ctx) (s : State) : (setCtx c v s).pcieData = s.pcieData := rfl
@[simp] theorem setCtx_outbox (c : Nat) (v : Ctx) (s : State) : (setCtx c v s).outbox = s.outbox := rfl
@[simp] theorem setCtx_freeCtr (c : Nat) (v : Ctx) (s : State) : (setCtx c v s).freeCtr = s.freeCtr := rfl

/-! ### setPipe -/

@[simp] theorem setPipe_pending (p : Nat) (v : Pipe) (s : State) : (setPipe p v s).pending = s.pending := rfl
@[simp] theorem setPipe_clk (p : Nat) (v : Pipe) (s : State) : (setPipe p v s).clk = s.clk := rfl
@[simp] theorem setPipe_regs (p : Nat) (v : Pipe) (s : State) : (setPipe p v s).regs = s.regs := rfl
@[simp] theorem setPipe_fuses (p : Nat) (v : Pipe) (s : State) : (setPipe p v s).fuses = s.fuses := rfl
@[simp] theorem setPipe_dram (p : Nat) (v : Pipe) (s : State) : (setPipe p v s).dram = s.dram := rfl
@[simp] theorem setPipe_stage (p : Nat) (v : Pipe) (s : State) : (setPipe p v s).stage = s.stage := rfl
@[simp] theorem setPipe_banks (p : Nat) (v : Pipe) (s : State) : (setPipe p v s).banks = s.banks := rfl
@[simp] theorem setPipe_tables (p : Nat) (v : Pipe) (s : State) : (setPipe p v s).tables = s.tables := rfl
@[simp] theorem setPipe_hostMem (p : Nat) (v : Pipe) (s : State) : (setPipe p v s).hostMem = s.hostMem := rfl
@[simp] theorem setPipe_flash (p : Nat) (v : Pipe) (s : State) : (setPipe p v s).flash = s.flash := rfl
@[simp] theorem setPipe_marks (p : Nat) (v : Pipe) (s : State) : (setPipe p v s).marks = s.marks := rfl
@[simp] theorem setPipe_losses (p : Nat) (v : Pipe) (s : State) : (setPipe p v s).losses = s.losses := rfl
@[simp] theorem setPipe_scrub (p : Nat) (v : Pipe) (s : State) : (setPipe p v s).scrub = s.scrub := rfl
@[simp] theorem setPipe_flits (p : Nat) (v : Pipe) (s : State) : (setPipe p v s).flits = s.flits := rfl
@[simp] theorem setPipe_disp (p : Nat) (v : Pipe) (s : State) : (setPipe p v s).disp = s.disp := rfl
@[simp] theorem setPipe_day (p : Nat) (v : Pipe) (s : State) : (setPipe p v s).day = s.day := rfl
@[simp] theorem setPipe_srt (p : Nat) (v : Pipe) (s : State) : (setPipe p v s).srt = s.srt := rfl
@[simp] theorem setPipe_slv (p : Nat) (v : Pipe) (s : State) : (setPipe p v s).slv = s.slv := rfl
@[simp] theorem setPipe_srv (p : Nat) (v : Pipe) (s : State) : (setPipe p v s).srv = s.srv := rfl
@[simp] theorem setPipe_lanes (p : Nat) (v : Pipe) (s : State) : (setPipe p v s).lanes = s.lanes := rfl
@[simp] theorem setPipe_cans (p : Nat) (v : Pipe) (s : State) : (setPipe p v s).cans = s.cans := rfl
@[simp] theorem setPipe_ring (p : Nat) (v : Pipe) (s : State) : (setPipe p v s).ring = s.ring := rfl
@[simp] theorem setPipe_saf (p : Nat) (v : Pipe) (s : State) : (setPipe p v s).saf = s.saf := rfl
@[simp] theorem setPipe_tim (p : Nat) (v : Pipe) (s : State) : (setPipe p v s).tim = s.tim := rfl
@[simp] theorem setPipe_macs (p : Nat) (v : Pipe) (s : State) : (setPipe p v s).macs = s.macs := rfl
@[simp] theorem setPipe_pwr (p : Nat) (v : Pipe) (s : State) : (setPipe p v s).pwr = s.pwr := rfl
@[simp] theorem setPipe_mgt (p : Nat) (v : Pipe) (s : State) : (setPipe p v s).mgt = s.mgt := rfl
@[simp] theorem setPipe_sess (p : Nat) (v : Pipe) (s : State) : (setPipe p v s).sess = s.sess := rfl
@[simp] theorem setPipe_pcieData (p : Nat) (v : Pipe) (s : State) : (setPipe p v s).pcieData = s.pcieData := rfl
@[simp] theorem setPipe_outbox (p : Nat) (v : Pipe) (s : State) : (setPipe p v s).outbox = s.outbox := rfl
@[simp] theorem setPipe_freeCtr (p : Nat) (v : Pipe) (s : State) : (setPipe p v s).freeCtr = s.freeCtr := rfl

/-! ### setBatch -/

@[simp] theorem setBatch_pending (b : Nat) (v : Batch) (s : State) : (setBatch b v s).pending = s.pending := rfl
@[simp] theorem setBatch_clk (b : Nat) (v : Batch) (s : State) : (setBatch b v s).clk = s.clk := rfl
@[simp] theorem setBatch_regs (b : Nat) (v : Batch) (s : State) : (setBatch b v s).regs = s.regs := rfl
@[simp] theorem setBatch_fuses (b : Nat) (v : Batch) (s : State) : (setBatch b v s).fuses = s.fuses := rfl
@[simp] theorem setBatch_dram (b : Nat) (v : Batch) (s : State) : (setBatch b v s).dram = s.dram := rfl
@[simp] theorem setBatch_stage (b : Nat) (v : Batch) (s : State) : (setBatch b v s).stage = s.stage := rfl
@[simp] theorem setBatch_banks (b : Nat) (v : Batch) (s : State) : (setBatch b v s).banks = s.banks := rfl
@[simp] theorem setBatch_tables (b : Nat) (v : Batch) (s : State) : (setBatch b v s).tables = s.tables := rfl
@[simp] theorem setBatch_hostMem (b : Nat) (v : Batch) (s : State) : (setBatch b v s).hostMem = s.hostMem := rfl
@[simp] theorem setBatch_flash (b : Nat) (v : Batch) (s : State) : (setBatch b v s).flash = s.flash := rfl
@[simp] theorem setBatch_marks (b : Nat) (v : Batch) (s : State) : (setBatch b v s).marks = s.marks := rfl
@[simp] theorem setBatch_losses (b : Nat) (v : Batch) (s : State) : (setBatch b v s).losses = s.losses := rfl
@[simp] theorem setBatch_scrub (b : Nat) (v : Batch) (s : State) : (setBatch b v s).scrub = s.scrub := rfl
@[simp] theorem setBatch_flits (b : Nat) (v : Batch) (s : State) : (setBatch b v s).flits = s.flits := rfl
@[simp] theorem setBatch_disp (b : Nat) (v : Batch) (s : State) : (setBatch b v s).disp = s.disp := rfl
@[simp] theorem setBatch_day (b : Nat) (v : Batch) (s : State) : (setBatch b v s).day = s.day := rfl
@[simp] theorem setBatch_cam (b : Nat) (v : Batch) (s : State) : (setBatch b v s).cam = s.cam := rfl
@[simp] theorem setBatch_slv (b : Nat) (v : Batch) (s : State) : (setBatch b v s).slv = s.slv := rfl
@[simp] theorem setBatch_srv (b : Nat) (v : Batch) (s : State) : (setBatch b v s).srv = s.srv := rfl
@[simp] theorem setBatch_lanes (b : Nat) (v : Batch) (s : State) : (setBatch b v s).lanes = s.lanes := rfl
@[simp] theorem setBatch_cans (b : Nat) (v : Batch) (s : State) : (setBatch b v s).cans = s.cans := rfl
@[simp] theorem setBatch_ring (b : Nat) (v : Batch) (s : State) : (setBatch b v s).ring = s.ring := rfl
@[simp] theorem setBatch_saf (b : Nat) (v : Batch) (s : State) : (setBatch b v s).saf = s.saf := rfl
@[simp] theorem setBatch_tim (b : Nat) (v : Batch) (s : State) : (setBatch b v s).tim = s.tim := rfl
@[simp] theorem setBatch_macs (b : Nat) (v : Batch) (s : State) : (setBatch b v s).macs = s.macs := rfl
@[simp] theorem setBatch_pwr (b : Nat) (v : Batch) (s : State) : (setBatch b v s).pwr = s.pwr := rfl
@[simp] theorem setBatch_mgt (b : Nat) (v : Batch) (s : State) : (setBatch b v s).mgt = s.mgt := rfl
@[simp] theorem setBatch_sess (b : Nat) (v : Batch) (s : State) : (setBatch b v s).sess = s.sess := rfl
@[simp] theorem setBatch_pcieData (b : Nat) (v : Batch) (s : State) : (setBatch b v s).pcieData = s.pcieData := rfl
@[simp] theorem setBatch_outbox (b : Nat) (v : Batch) (s : State) : (setBatch b v s).outbox = s.outbox := rfl
@[simp] theorem setBatch_freeCtr (b : Nat) (v : Batch) (s : State) : (setBatch b v s).freeCtr = s.freeCtr := rfl

/-! ### setEngine -/

@[simp] theorem setEngine_pending (e : Nat) (v : Option Decoding) (s : State) : (setEngine e v s).pending = s.pending := rfl
@[simp] theorem setEngine_clk (e : Nat) (v : Option Decoding) (s : State) : (setEngine e v s).clk = s.clk := rfl
@[simp] theorem setEngine_regs (e : Nat) (v : Option Decoding) (s : State) : (setEngine e v s).regs = s.regs := rfl
@[simp] theorem setEngine_fuses (e : Nat) (v : Option Decoding) (s : State) : (setEngine e v s).fuses = s.fuses := rfl
@[simp] theorem setEngine_dram (e : Nat) (v : Option Decoding) (s : State) : (setEngine e v s).dram = s.dram := rfl
@[simp] theorem setEngine_stage (e : Nat) (v : Option Decoding) (s : State) : (setEngine e v s).stage = s.stage := rfl
@[simp] theorem setEngine_banks (e : Nat) (v : Option Decoding) (s : State) : (setEngine e v s).banks = s.banks := rfl
@[simp] theorem setEngine_tables (e : Nat) (v : Option Decoding) (s : State) : (setEngine e v s).tables = s.tables := rfl
@[simp] theorem setEngine_hostMem (e : Nat) (v : Option Decoding) (s : State) : (setEngine e v s).hostMem = s.hostMem := rfl
@[simp] theorem setEngine_flash (e : Nat) (v : Option Decoding) (s : State) : (setEngine e v s).flash = s.flash := rfl
@[simp] theorem setEngine_marks (e : Nat) (v : Option Decoding) (s : State) : (setEngine e v s).marks = s.marks := rfl
@[simp] theorem setEngine_losses (e : Nat) (v : Option Decoding) (s : State) : (setEngine e v s).losses = s.losses := rfl
@[simp] theorem setEngine_scrub (e : Nat) (v : Option Decoding) (s : State) : (setEngine e v s).scrub = s.scrub := rfl
@[simp] theorem setEngine_flits (e : Nat) (v : Option Decoding) (s : State) : (setEngine e v s).flits = s.flits := rfl
@[simp] theorem setEngine_disp (e : Nat) (v : Option Decoding) (s : State) : (setEngine e v s).disp = s.disp := rfl
@[simp] theorem setEngine_day (e : Nat) (v : Option Decoding) (s : State) : (setEngine e v s).day = s.day := rfl
@[simp] theorem setEngine_cam (e : Nat) (v : Option Decoding) (s : State) : (setEngine e v s).cam = s.cam := rfl
@[simp] theorem setEngine_slv (e : Nat) (v : Option Decoding) (s : State) : (setEngine e v s).slv = s.slv := rfl
@[simp] theorem setEngine_srv (e : Nat) (v : Option Decoding) (s : State) : (setEngine e v s).srv = s.srv := rfl
@[simp] theorem setEngine_lanes (e : Nat) (v : Option Decoding) (s : State) : (setEngine e v s).lanes = s.lanes := rfl
@[simp] theorem setEngine_cans (e : Nat) (v : Option Decoding) (s : State) : (setEngine e v s).cans = s.cans := rfl
@[simp] theorem setEngine_ring (e : Nat) (v : Option Decoding) (s : State) : (setEngine e v s).ring = s.ring := rfl
@[simp] theorem setEngine_saf (e : Nat) (v : Option Decoding) (s : State) : (setEngine e v s).saf = s.saf := rfl
@[simp] theorem setEngine_tim (e : Nat) (v : Option Decoding) (s : State) : (setEngine e v s).tim = s.tim := rfl
@[simp] theorem setEngine_macs (e : Nat) (v : Option Decoding) (s : State) : (setEngine e v s).macs = s.macs := rfl
@[simp] theorem setEngine_pwr (e : Nat) (v : Option Decoding) (s : State) : (setEngine e v s).pwr = s.pwr := rfl
@[simp] theorem setEngine_mgt (e : Nat) (v : Option Decoding) (s : State) : (setEngine e v s).mgt = s.mgt := rfl
@[simp] theorem setEngine_sess (e : Nat) (v : Option Decoding) (s : State) : (setEngine e v s).sess = s.sess := rfl
@[simp] theorem setEngine_pcieData (e : Nat) (v : Option Decoding) (s : State) : (setEngine e v s).pcieData = s.pcieData := rfl
@[simp] theorem setEngine_outbox (e : Nat) (v : Option Decoding) (s : State) : (setEngine e v s).outbox = s.outbox := rfl
@[simp] theorem setEngine_freeCtr (e : Nat) (v : Option Decoding) (s : State) : (setEngine e v s).freeCtr = s.freeCtr := rfl

/-! ### setAxis -/

@[simp] theorem setAxis_pending (n : Nat) (a : Axis) (s : State) : (setAxis n a s).pending = s.pending := rfl
@[simp] theorem setAxis_clk (n : Nat) (a : Axis) (s : State) : (setAxis n a s).clk = s.clk := rfl
@[simp] theorem setAxis_regs (n : Nat) (a : Axis) (s : State) : (setAxis n a s).regs = s.regs := rfl
@[simp] theorem setAxis_fuses (n : Nat) (a : Axis) (s : State) : (setAxis n a s).fuses = s.fuses := rfl
@[simp] theorem setAxis_dram (n : Nat) (a : Axis) (s : State) : (setAxis n a s).dram = s.dram := rfl
@[simp] theorem setAxis_stage (n : Nat) (a : Axis) (s : State) : (setAxis n a s).stage = s.stage := rfl
@[simp] theorem setAxis_banks (n : Nat) (a : Axis) (s : State) : (setAxis n a s).banks = s.banks := rfl
@[simp] theorem setAxis_tables (n : Nat) (a : Axis) (s : State) : (setAxis n a s).tables = s.tables := rfl
@[simp] theorem setAxis_hostMem (n : Nat) (a : Axis) (s : State) : (setAxis n a s).hostMem = s.hostMem := rfl
@[simp] theorem setAxis_flash (n : Nat) (a : Axis) (s : State) : (setAxis n a s).flash = s.flash := rfl
@[simp] theorem setAxis_marks (n : Nat) (a : Axis) (s : State) : (setAxis n a s).marks = s.marks := rfl
@[simp] theorem setAxis_losses (n : Nat) (a : Axis) (s : State) : (setAxis n a s).losses = s.losses := rfl
@[simp] theorem setAxis_scrub (n : Nat) (a : Axis) (s : State) : (setAxis n a s).scrub = s.scrub := rfl
@[simp] theorem setAxis_flits (n : Nat) (a : Axis) (s : State) : (setAxis n a s).flits = s.flits := rfl
@[simp] theorem setAxis_disp (n : Nat) (a : Axis) (s : State) : (setAxis n a s).disp = s.disp := rfl
@[simp] theorem setAxis_day (n : Nat) (a : Axis) (s : State) : (setAxis n a s).day = s.day := rfl
@[simp] theorem setAxis_cam (n : Nat) (a : Axis) (s : State) : (setAxis n a s).cam = s.cam := rfl
@[simp] theorem setAxis_srt (n : Nat) (a : Axis) (s : State) : (setAxis n a s).srt = s.srt := rfl
@[simp] theorem setAxis_slv (n : Nat) (a : Axis) (s : State) : (setAxis n a s).slv = s.slv := rfl
@[simp] theorem setAxis_lanes (n : Nat) (a : Axis) (s : State) : (setAxis n a s).lanes = s.lanes := rfl
@[simp] theorem setAxis_cans (n : Nat) (a : Axis) (s : State) : (setAxis n a s).cans = s.cans := rfl
@[simp] theorem setAxis_ring (n : Nat) (a : Axis) (s : State) : (setAxis n a s).ring = s.ring := rfl
@[simp] theorem setAxis_saf (n : Nat) (a : Axis) (s : State) : (setAxis n a s).saf = s.saf := rfl
@[simp] theorem setAxis_tim (n : Nat) (a : Axis) (s : State) : (setAxis n a s).tim = s.tim := rfl
@[simp] theorem setAxis_macs (n : Nat) (a : Axis) (s : State) : (setAxis n a s).macs = s.macs := rfl
@[simp] theorem setAxis_pwr (n : Nat) (a : Axis) (s : State) : (setAxis n a s).pwr = s.pwr := rfl
@[simp] theorem setAxis_mgt (n : Nat) (a : Axis) (s : State) : (setAxis n a s).mgt = s.mgt := rfl
@[simp] theorem setAxis_sess (n : Nat) (a : Axis) (s : State) : (setAxis n a s).sess = s.sess := rfl
@[simp] theorem setAxis_pcieData (n : Nat) (a : Axis) (s : State) : (setAxis n a s).pcieData = s.pcieData := rfl
@[simp] theorem setAxis_outbox (n : Nat) (a : Axis) (s : State) : (setAxis n a s).outbox = s.outbox := rfl
@[simp] theorem setAxis_freeCtr (n : Nat) (a : Axis) (s : State) : (setAxis n a s).freeCtr = s.freeCtr := rfl

/-! ### setLane -/

@[simp] theorem setLane_pending (l : Nat) (v : Lane) (s : State) : (setLane l v s).pending = s.pending := rfl
@[simp] theorem setLane_clk (l : Nat) (v : Lane) (s : State) : (setLane l v s).clk = s.clk := rfl
@[simp] theorem setLane_regs (l : Nat) (v : Lane) (s : State) : (setLane l v s).regs = s.regs := rfl
@[simp] theorem setLane_fuses (l : Nat) (v : Lane) (s : State) : (setLane l v s).fuses = s.fuses := rfl
@[simp] theorem setLane_dram (l : Nat) (v : Lane) (s : State) : (setLane l v s).dram = s.dram := rfl
@[simp] theorem setLane_stage (l : Nat) (v : Lane) (s : State) : (setLane l v s).stage = s.stage := rfl
@[simp] theorem setLane_banks (l : Nat) (v : Lane) (s : State) : (setLane l v s).banks = s.banks := rfl
@[simp] theorem setLane_tables (l : Nat) (v : Lane) (s : State) : (setLane l v s).tables = s.tables := rfl
@[simp] theorem setLane_hostMem (l : Nat) (v : Lane) (s : State) : (setLane l v s).hostMem = s.hostMem := rfl
@[simp] theorem setLane_flash (l : Nat) (v : Lane) (s : State) : (setLane l v s).flash = s.flash := rfl
@[simp] theorem setLane_marks (l : Nat) (v : Lane) (s : State) : (setLane l v s).marks = s.marks := rfl
@[simp] theorem setLane_losses (l : Nat) (v : Lane) (s : State) : (setLane l v s).losses = s.losses := rfl
@[simp] theorem setLane_scrub (l : Nat) (v : Lane) (s : State) : (setLane l v s).scrub = s.scrub := rfl
@[simp] theorem setLane_flits (l : Nat) (v : Lane) (s : State) : (setLane l v s).flits = s.flits := rfl
@[simp] theorem setLane_disp (l : Nat) (v : Lane) (s : State) : (setLane l v s).disp = s.disp := rfl
@[simp] theorem setLane_day (l : Nat) (v : Lane) (s : State) : (setLane l v s).day = s.day := rfl
@[simp] theorem setLane_cam (l : Nat) (v : Lane) (s : State) : (setLane l v s).cam = s.cam := rfl
@[simp] theorem setLane_srt (l : Nat) (v : Lane) (s : State) : (setLane l v s).srt = s.srt := rfl
@[simp] theorem setLane_slv (l : Nat) (v : Lane) (s : State) : (setLane l v s).slv = s.slv := rfl
@[simp] theorem setLane_srv (l : Nat) (v : Lane) (s : State) : (setLane l v s).srv = s.srv := rfl
@[simp] theorem setLane_cans (l : Nat) (v : Lane) (s : State) : (setLane l v s).cans = s.cans := rfl
@[simp] theorem setLane_ring (l : Nat) (v : Lane) (s : State) : (setLane l v s).ring = s.ring := rfl
@[simp] theorem setLane_saf (l : Nat) (v : Lane) (s : State) : (setLane l v s).saf = s.saf := rfl
@[simp] theorem setLane_tim (l : Nat) (v : Lane) (s : State) : (setLane l v s).tim = s.tim := rfl
@[simp] theorem setLane_macs (l : Nat) (v : Lane) (s : State) : (setLane l v s).macs = s.macs := rfl
@[simp] theorem setLane_pwr (l : Nat) (v : Lane) (s : State) : (setLane l v s).pwr = s.pwr := rfl
@[simp] theorem setLane_mgt (l : Nat) (v : Lane) (s : State) : (setLane l v s).mgt = s.mgt := rfl
@[simp] theorem setLane_sess (l : Nat) (v : Lane) (s : State) : (setLane l v s).sess = s.sess := rfl
@[simp] theorem setLane_pcieData (l : Nat) (v : Lane) (s : State) : (setLane l v s).pcieData = s.pcieData := rfl
@[simp] theorem setLane_outbox (l : Nat) (v : Lane) (s : State) : (setLane l v s).outbox = s.outbox := rfl
@[simp] theorem setLane_freeCtr (l : Nat) (v : Lane) (s : State) : (setLane l v s).freeCtr = s.freeCtr := rfl

/-! ### setCan -/

@[simp] theorem setCan_pending (c : Nat) (v : Can) (s : State) : (setCan c v s).pending = s.pending := rfl
@[simp] theorem setCan_clk (c : Nat) (v : Can) (s : State) : (setCan c v s).clk = s.clk := rfl
@[simp] theorem setCan_regs (c : Nat) (v : Can) (s : State) : (setCan c v s).regs = s.regs := rfl
@[simp] theorem setCan_fuses (c : Nat) (v : Can) (s : State) : (setCan c v s).fuses = s.fuses := rfl
@[simp] theorem setCan_dram (c : Nat) (v : Can) (s : State) : (setCan c v s).dram = s.dram := rfl
@[simp] theorem setCan_stage (c : Nat) (v : Can) (s : State) : (setCan c v s).stage = s.stage := rfl
@[simp] theorem setCan_banks (c : Nat) (v : Can) (s : State) : (setCan c v s).banks = s.banks := rfl
@[simp] theorem setCan_tables (c : Nat) (v : Can) (s : State) : (setCan c v s).tables = s.tables := rfl
@[simp] theorem setCan_hostMem (c : Nat) (v : Can) (s : State) : (setCan c v s).hostMem = s.hostMem := rfl
@[simp] theorem setCan_flash (c : Nat) (v : Can) (s : State) : (setCan c v s).flash = s.flash := rfl
@[simp] theorem setCan_marks (c : Nat) (v : Can) (s : State) : (setCan c v s).marks = s.marks := rfl
@[simp] theorem setCan_losses (c : Nat) (v : Can) (s : State) : (setCan c v s).losses = s.losses := rfl
@[simp] theorem setCan_scrub (c : Nat) (v : Can) (s : State) : (setCan c v s).scrub = s.scrub := rfl
@[simp] theorem setCan_flits (c : Nat) (v : Can) (s : State) : (setCan c v s).flits = s.flits := rfl
@[simp] theorem setCan_disp (c : Nat) (v : Can) (s : State) : (setCan c v s).disp = s.disp := rfl
@[simp] theorem setCan_day (c : Nat) (v : Can) (s : State) : (setCan c v s).day = s.day := rfl
@[simp] theorem setCan_cam (c : Nat) (v : Can) (s : State) : (setCan c v s).cam = s.cam := rfl
@[simp] theorem setCan_srt (c : Nat) (v : Can) (s : State) : (setCan c v s).srt = s.srt := rfl
@[simp] theorem setCan_slv (c : Nat) (v : Can) (s : State) : (setCan c v s).slv = s.slv := rfl
@[simp] theorem setCan_srv (c : Nat) (v : Can) (s : State) : (setCan c v s).srv = s.srv := rfl
@[simp] theorem setCan_lanes (c : Nat) (v : Can) (s : State) : (setCan c v s).lanes = s.lanes := rfl
@[simp] theorem setCan_ring (c : Nat) (v : Can) (s : State) : (setCan c v s).ring = s.ring := rfl
@[simp] theorem setCan_saf (c : Nat) (v : Can) (s : State) : (setCan c v s).saf = s.saf := rfl
@[simp] theorem setCan_tim (c : Nat) (v : Can) (s : State) : (setCan c v s).tim = s.tim := rfl
@[simp] theorem setCan_macs (c : Nat) (v : Can) (s : State) : (setCan c v s).macs = s.macs := rfl
@[simp] theorem setCan_pwr (c : Nat) (v : Can) (s : State) : (setCan c v s).pwr = s.pwr := rfl
@[simp] theorem setCan_mgt (c : Nat) (v : Can) (s : State) : (setCan c v s).mgt = s.mgt := rfl
@[simp] theorem setCan_sess (c : Nat) (v : Can) (s : State) : (setCan c v s).sess = s.sess := rfl
@[simp] theorem setCan_pcieData (c : Nat) (v : Can) (s : State) : (setCan c v s).pcieData = s.pcieData := rfl
@[simp] theorem setCan_outbox (c : Nat) (v : Can) (s : State) : (setCan c v s).outbox = s.outbox := rfl
@[simp] theorem setCan_freeCtr (c : Nat) (v : Can) (s : State) : (setCan c v s).freeCtr = s.freeCtr := rfl

/-! ### setPort -/

@[simp] theorem setPort_pending (p : Nat) (v : RingPort) (s : State) : (setPort p v s).pending = s.pending := rfl
@[simp] theorem setPort_clk (p : Nat) (v : RingPort) (s : State) : (setPort p v s).clk = s.clk := rfl
@[simp] theorem setPort_regs (p : Nat) (v : RingPort) (s : State) : (setPort p v s).regs = s.regs := rfl
@[simp] theorem setPort_fuses (p : Nat) (v : RingPort) (s : State) : (setPort p v s).fuses = s.fuses := rfl
@[simp] theorem setPort_dram (p : Nat) (v : RingPort) (s : State) : (setPort p v s).dram = s.dram := rfl
@[simp] theorem setPort_stage (p : Nat) (v : RingPort) (s : State) : (setPort p v s).stage = s.stage := rfl
@[simp] theorem setPort_banks (p : Nat) (v : RingPort) (s : State) : (setPort p v s).banks = s.banks := rfl
@[simp] theorem setPort_tables (p : Nat) (v : RingPort) (s : State) : (setPort p v s).tables = s.tables := rfl
@[simp] theorem setPort_hostMem (p : Nat) (v : RingPort) (s : State) : (setPort p v s).hostMem = s.hostMem := rfl
@[simp] theorem setPort_flash (p : Nat) (v : RingPort) (s : State) : (setPort p v s).flash = s.flash := rfl
@[simp] theorem setPort_marks (p : Nat) (v : RingPort) (s : State) : (setPort p v s).marks = s.marks := rfl
@[simp] theorem setPort_losses (p : Nat) (v : RingPort) (s : State) : (setPort p v s).losses = s.losses := rfl
@[simp] theorem setPort_scrub (p : Nat) (v : RingPort) (s : State) : (setPort p v s).scrub = s.scrub := rfl
@[simp] theorem setPort_flits (p : Nat) (v : RingPort) (s : State) : (setPort p v s).flits = s.flits := rfl
@[simp] theorem setPort_disp (p : Nat) (v : RingPort) (s : State) : (setPort p v s).disp = s.disp := rfl
@[simp] theorem setPort_day (p : Nat) (v : RingPort) (s : State) : (setPort p v s).day = s.day := rfl
@[simp] theorem setPort_cam (p : Nat) (v : RingPort) (s : State) : (setPort p v s).cam = s.cam := rfl
@[simp] theorem setPort_srt (p : Nat) (v : RingPort) (s : State) : (setPort p v s).srt = s.srt := rfl
@[simp] theorem setPort_slv (p : Nat) (v : RingPort) (s : State) : (setPort p v s).slv = s.slv := rfl
@[simp] theorem setPort_srv (p : Nat) (v : RingPort) (s : State) : (setPort p v s).srv = s.srv := rfl
@[simp] theorem setPort_lanes (p : Nat) (v : RingPort) (s : State) : (setPort p v s).lanes = s.lanes := rfl
@[simp] theorem setPort_cans (p : Nat) (v : RingPort) (s : State) : (setPort p v s).cans = s.cans := rfl
@[simp] theorem setPort_saf (p : Nat) (v : RingPort) (s : State) : (setPort p v s).saf = s.saf := rfl
@[simp] theorem setPort_tim (p : Nat) (v : RingPort) (s : State) : (setPort p v s).tim = s.tim := rfl
@[simp] theorem setPort_macs (p : Nat) (v : RingPort) (s : State) : (setPort p v s).macs = s.macs := rfl
@[simp] theorem setPort_pwr (p : Nat) (v : RingPort) (s : State) : (setPort p v s).pwr = s.pwr := rfl
@[simp] theorem setPort_mgt (p : Nat) (v : RingPort) (s : State) : (setPort p v s).mgt = s.mgt := rfl
@[simp] theorem setPort_sess (p : Nat) (v : RingPort) (s : State) : (setPort p v s).sess = s.sess := rfl
@[simp] theorem setPort_pcieData (p : Nat) (v : RingPort) (s : State) : (setPort p v s).pcieData = s.pcieData := rfl
@[simp] theorem setPort_outbox (p : Nat) (v : RingPort) (s : State) : (setPort p v s).outbox = s.outbox := rfl
@[simp] theorem setPort_freeCtr (p : Nat) (v : RingPort) (s : State) : (setPort p v s).freeCtr = s.freeCtr := rfl

/-! ### setBinding -/

@[simp] theorem setBinding_pending (k : Nat) (b : Binding) (s : State) : (setBinding k b s).pending = s.pending := rfl
@[simp] theorem setBinding_clk (k : Nat) (b : Binding) (s : State) : (setBinding k b s).clk = s.clk := rfl
@[simp] theorem setBinding_regs (k : Nat) (b : Binding) (s : State) : (setBinding k b s).regs = s.regs := rfl
@[simp] theorem setBinding_fuses (k : Nat) (b : Binding) (s : State) : (setBinding k b s).fuses = s.fuses := rfl
@[simp] theorem setBinding_dram (k : Nat) (b : Binding) (s : State) : (setBinding k b s).dram = s.dram := rfl
@[simp] theorem setBinding_stage (k : Nat) (b : Binding) (s : State) : (setBinding k b s).stage = s.stage := rfl
@[simp] theorem setBinding_banks (k : Nat) (b : Binding) (s : State) : (setBinding k b s).banks = s.banks := rfl
@[simp] theorem setBinding_tables (k : Nat) (b : Binding) (s : State) : (setBinding k b s).tables = s.tables := rfl
@[simp] theorem setBinding_hostMem (k : Nat) (b : Binding) (s : State) : (setBinding k b s).hostMem = s.hostMem := rfl
@[simp] theorem setBinding_flash (k : Nat) (b : Binding) (s : State) : (setBinding k b s).flash = s.flash := rfl
@[simp] theorem setBinding_marks (k : Nat) (b : Binding) (s : State) : (setBinding k b s).marks = s.marks := rfl
@[simp] theorem setBinding_losses (k : Nat) (b : Binding) (s : State) : (setBinding k b s).losses = s.losses := rfl
@[simp] theorem setBinding_scrub (k : Nat) (b : Binding) (s : State) : (setBinding k b s).scrub = s.scrub := rfl
@[simp] theorem setBinding_flits (k : Nat) (b : Binding) (s : State) : (setBinding k b s).flits = s.flits := rfl
@[simp] theorem setBinding_disp (k : Nat) (b : Binding) (s : State) : (setBinding k b s).disp = s.disp := rfl
@[simp] theorem setBinding_day (k : Nat) (b : Binding) (s : State) : (setBinding k b s).day = s.day := rfl
@[simp] theorem setBinding_cam (k : Nat) (b : Binding) (s : State) : (setBinding k b s).cam = s.cam := rfl
@[simp] theorem setBinding_srt (k : Nat) (b : Binding) (s : State) : (setBinding k b s).srt = s.srt := rfl
@[simp] theorem setBinding_slv (k : Nat) (b : Binding) (s : State) : (setBinding k b s).slv = s.slv := rfl
@[simp] theorem setBinding_srv (k : Nat) (b : Binding) (s : State) : (setBinding k b s).srv = s.srv := rfl
@[simp] theorem setBinding_lanes (k : Nat) (b : Binding) (s : State) : (setBinding k b s).lanes = s.lanes := rfl
@[simp] theorem setBinding_cans (k : Nat) (b : Binding) (s : State) : (setBinding k b s).cans = s.cans := rfl
@[simp] theorem setBinding_ring (k : Nat) (b : Binding) (s : State) : (setBinding k b s).ring = s.ring := rfl
@[simp] theorem setBinding_tim (k : Nat) (b : Binding) (s : State) : (setBinding k b s).tim = s.tim := rfl
@[simp] theorem setBinding_macs (k : Nat) (b : Binding) (s : State) : (setBinding k b s).macs = s.macs := rfl
@[simp] theorem setBinding_pwr (k : Nat) (b : Binding) (s : State) : (setBinding k b s).pwr = s.pwr := rfl
@[simp] theorem setBinding_mgt (k : Nat) (b : Binding) (s : State) : (setBinding k b s).mgt = s.mgt := rfl
@[simp] theorem setBinding_sess (k : Nat) (b : Binding) (s : State) : (setBinding k b s).sess = s.sess := rfl
@[simp] theorem setBinding_pcieData (k : Nat) (b : Binding) (s : State) : (setBinding k b s).pcieData = s.pcieData := rfl
@[simp] theorem setBinding_outbox (k : Nat) (b : Binding) (s : State) : (setBinding k b s).outbox = s.outbox := rfl
@[simp] theorem setBinding_freeCtr (k : Nat) (b : Binding) (s : State) : (setBinding k b s).freeCtr = s.freeCtr := rfl

/-! ### setBallast -/

@[simp] theorem setBallast_pending (c : Nat) (b : Ballast) (s : State) : (setBallast c b s).pending = s.pending := rfl
@[simp] theorem setBallast_clk (c : Nat) (b : Ballast) (s : State) : (setBallast c b s).clk = s.clk := rfl
@[simp] theorem setBallast_regs (c : Nat) (b : Ballast) (s : State) : (setBallast c b s).regs = s.regs := rfl
@[simp] theorem setBallast_fuses (c : Nat) (b : Ballast) (s : State) : (setBallast c b s).fuses = s.fuses := rfl
@[simp] theorem setBallast_dram (c : Nat) (b : Ballast) (s : State) : (setBallast c b s).dram = s.dram := rfl
@[simp] theorem setBallast_stage (c : Nat) (b : Ballast) (s : State) : (setBallast c b s).stage = s.stage := rfl
@[simp] theorem setBallast_banks (c : Nat) (b : Ballast) (s : State) : (setBallast c b s).banks = s.banks := rfl
@[simp] theorem setBallast_tables (c : Nat) (b : Ballast) (s : State) : (setBallast c b s).tables = s.tables := rfl
@[simp] theorem setBallast_hostMem (c : Nat) (b : Ballast) (s : State) : (setBallast c b s).hostMem = s.hostMem := rfl
@[simp] theorem setBallast_flash (c : Nat) (b : Ballast) (s : State) : (setBallast c b s).flash = s.flash := rfl
@[simp] theorem setBallast_marks (c : Nat) (b : Ballast) (s : State) : (setBallast c b s).marks = s.marks := rfl
@[simp] theorem setBallast_losses (c : Nat) (b : Ballast) (s : State) : (setBallast c b s).losses = s.losses := rfl
@[simp] theorem setBallast_scrub (c : Nat) (b : Ballast) (s : State) : (setBallast c b s).scrub = s.scrub := rfl
@[simp] theorem setBallast_flits (c : Nat) (b : Ballast) (s : State) : (setBallast c b s).flits = s.flits := rfl
@[simp] theorem setBallast_disp (c : Nat) (b : Ballast) (s : State) : (setBallast c b s).disp = s.disp := rfl
@[simp] theorem setBallast_day (c : Nat) (b : Ballast) (s : State) : (setBallast c b s).day = s.day := rfl
@[simp] theorem setBallast_cam (c : Nat) (b : Ballast) (s : State) : (setBallast c b s).cam = s.cam := rfl
@[simp] theorem setBallast_srt (c : Nat) (b : Ballast) (s : State) : (setBallast c b s).srt = s.srt := rfl
@[simp] theorem setBallast_slv (c : Nat) (b : Ballast) (s : State) : (setBallast c b s).slv = s.slv := rfl
@[simp] theorem setBallast_srv (c : Nat) (b : Ballast) (s : State) : (setBallast c b s).srv = s.srv := rfl
@[simp] theorem setBallast_lanes (c : Nat) (b : Ballast) (s : State) : (setBallast c b s).lanes = s.lanes := rfl
@[simp] theorem setBallast_cans (c : Nat) (b : Ballast) (s : State) : (setBallast c b s).cans = s.cans := rfl
@[simp] theorem setBallast_ring (c : Nat) (b : Ballast) (s : State) : (setBallast c b s).ring = s.ring := rfl
@[simp] theorem setBallast_saf (c : Nat) (b : Ballast) (s : State) : (setBallast c b s).saf = s.saf := rfl
@[simp] theorem setBallast_tim (c : Nat) (b : Ballast) (s : State) : (setBallast c b s).tim = s.tim := rfl
@[simp] theorem setBallast_macs (c : Nat) (b : Ballast) (s : State) : (setBallast c b s).macs = s.macs := rfl
@[simp] theorem setBallast_mgt (c : Nat) (b : Ballast) (s : State) : (setBallast c b s).mgt = s.mgt := rfl
@[simp] theorem setBallast_sess (c : Nat) (b : Ballast) (s : State) : (setBallast c b s).sess = s.sess := rfl
@[simp] theorem setBallast_pcieData (c : Nat) (b : Ballast) (s : State) : (setBallast c b s).pcieData = s.pcieData := rfl
@[simp] theorem setBallast_outbox (c : Nat) (b : Ballast) (s : State) : (setBallast c b s).outbox = s.outbox := rfl
@[simp] theorem setBallast_freeCtr (c : Nat) (b : Ballast) (s : State) : (setBallast c b s).freeCtr = s.freeCtr := rfl

/-! ### setDomainState -/

@[simp] theorem setDomainState_pending (d : Nat) (v : Domain) (s : State) : (setDomainState d v s).pending = s.pending := rfl
@[simp] theorem setDomainState_clk (d : Nat) (v : Domain) (s : State) : (setDomainState d v s).clk = s.clk := rfl
@[simp] theorem setDomainState_regs (d : Nat) (v : Domain) (s : State) : (setDomainState d v s).regs = s.regs := rfl
@[simp] theorem setDomainState_fuses (d : Nat) (v : Domain) (s : State) : (setDomainState d v s).fuses = s.fuses := rfl
@[simp] theorem setDomainState_dram (d : Nat) (v : Domain) (s : State) : (setDomainState d v s).dram = s.dram := rfl
@[simp] theorem setDomainState_stage (d : Nat) (v : Domain) (s : State) : (setDomainState d v s).stage = s.stage := rfl
@[simp] theorem setDomainState_banks (d : Nat) (v : Domain) (s : State) : (setDomainState d v s).banks = s.banks := rfl
@[simp] theorem setDomainState_tables (d : Nat) (v : Domain) (s : State) : (setDomainState d v s).tables = s.tables := rfl
@[simp] theorem setDomainState_hostMem (d : Nat) (v : Domain) (s : State) : (setDomainState d v s).hostMem = s.hostMem := rfl
@[simp] theorem setDomainState_flash (d : Nat) (v : Domain) (s : State) : (setDomainState d v s).flash = s.flash := rfl
@[simp] theorem setDomainState_marks (d : Nat) (v : Domain) (s : State) : (setDomainState d v s).marks = s.marks := rfl
@[simp] theorem setDomainState_losses (d : Nat) (v : Domain) (s : State) : (setDomainState d v s).losses = s.losses := rfl
@[simp] theorem setDomainState_scrub (d : Nat) (v : Domain) (s : State) : (setDomainState d v s).scrub = s.scrub := rfl
@[simp] theorem setDomainState_flits (d : Nat) (v : Domain) (s : State) : (setDomainState d v s).flits = s.flits := rfl
@[simp] theorem setDomainState_disp (d : Nat) (v : Domain) (s : State) : (setDomainState d v s).disp = s.disp := rfl
@[simp] theorem setDomainState_day (d : Nat) (v : Domain) (s : State) : (setDomainState d v s).day = s.day := rfl
@[simp] theorem setDomainState_cam (d : Nat) (v : Domain) (s : State) : (setDomainState d v s).cam = s.cam := rfl
@[simp] theorem setDomainState_srt (d : Nat) (v : Domain) (s : State) : (setDomainState d v s).srt = s.srt := rfl
@[simp] theorem setDomainState_slv (d : Nat) (v : Domain) (s : State) : (setDomainState d v s).slv = s.slv := rfl
@[simp] theorem setDomainState_srv (d : Nat) (v : Domain) (s : State) : (setDomainState d v s).srv = s.srv := rfl
@[simp] theorem setDomainState_lanes (d : Nat) (v : Domain) (s : State) : (setDomainState d v s).lanes = s.lanes := rfl
@[simp] theorem setDomainState_cans (d : Nat) (v : Domain) (s : State) : (setDomainState d v s).cans = s.cans := rfl
@[simp] theorem setDomainState_ring (d : Nat) (v : Domain) (s : State) : (setDomainState d v s).ring = s.ring := rfl
@[simp] theorem setDomainState_saf (d : Nat) (v : Domain) (s : State) : (setDomainState d v s).saf = s.saf := rfl
@[simp] theorem setDomainState_macs (d : Nat) (v : Domain) (s : State) : (setDomainState d v s).macs = s.macs := rfl
@[simp] theorem setDomainState_pwr (d : Nat) (v : Domain) (s : State) : (setDomainState d v s).pwr = s.pwr := rfl
@[simp] theorem setDomainState_mgt (d : Nat) (v : Domain) (s : State) : (setDomainState d v s).mgt = s.mgt := rfl
@[simp] theorem setDomainState_sess (d : Nat) (v : Domain) (s : State) : (setDomainState d v s).sess = s.sess := rfl
@[simp] theorem setDomainState_pcieData (d : Nat) (v : Domain) (s : State) : (setDomainState d v s).pcieData = s.pcieData := rfl
@[simp] theorem setDomainState_outbox (d : Nat) (v : Domain) (s : State) : (setDomainState d v s).outbox = s.outbox := rfl
@[simp] theorem setDomainState_freeCtr (d : Nat) (v : Domain) (s : State) : (setDomainState d v s).freeCtr = s.freeCtr := rfl

/-! ### setMac -/

@[simp] theorem setMac_pending (m : Nat) (v : Mac) (s : State) : (setMac m v s).pending = s.pending := rfl
@[simp] theorem setMac_clk (m : Nat) (v : Mac) (s : State) : (setMac m v s).clk = s.clk := rfl
@[simp] theorem setMac_regs (m : Nat) (v : Mac) (s : State) : (setMac m v s).regs = s.regs := rfl
@[simp] theorem setMac_fuses (m : Nat) (v : Mac) (s : State) : (setMac m v s).fuses = s.fuses := rfl
@[simp] theorem setMac_dram (m : Nat) (v : Mac) (s : State) : (setMac m v s).dram = s.dram := rfl
@[simp] theorem setMac_stage (m : Nat) (v : Mac) (s : State) : (setMac m v s).stage = s.stage := rfl
@[simp] theorem setMac_banks (m : Nat) (v : Mac) (s : State) : (setMac m v s).banks = s.banks := rfl
@[simp] theorem setMac_tables (m : Nat) (v : Mac) (s : State) : (setMac m v s).tables = s.tables := rfl
@[simp] theorem setMac_hostMem (m : Nat) (v : Mac) (s : State) : (setMac m v s).hostMem = s.hostMem := rfl
@[simp] theorem setMac_flash (m : Nat) (v : Mac) (s : State) : (setMac m v s).flash = s.flash := rfl
@[simp] theorem setMac_marks (m : Nat) (v : Mac) (s : State) : (setMac m v s).marks = s.marks := rfl
@[simp] theorem setMac_losses (m : Nat) (v : Mac) (s : State) : (setMac m v s).losses = s.losses := rfl
@[simp] theorem setMac_scrub (m : Nat) (v : Mac) (s : State) : (setMac m v s).scrub = s.scrub := rfl
@[simp] theorem setMac_flits (m : Nat) (v : Mac) (s : State) : (setMac m v s).flits = s.flits := rfl
@[simp] theorem setMac_disp (m : Nat) (v : Mac) (s : State) : (setMac m v s).disp = s.disp := rfl
@[simp] theorem setMac_day (m : Nat) (v : Mac) (s : State) : (setMac m v s).day = s.day := rfl
@[simp] theorem setMac_cam (m : Nat) (v : Mac) (s : State) : (setMac m v s).cam = s.cam := rfl
@[simp] theorem setMac_srt (m : Nat) (v : Mac) (s : State) : (setMac m v s).srt = s.srt := rfl
@[simp] theorem setMac_slv (m : Nat) (v : Mac) (s : State) : (setMac m v s).slv = s.slv := rfl
@[simp] theorem setMac_srv (m : Nat) (v : Mac) (s : State) : (setMac m v s).srv = s.srv := rfl
@[simp] theorem setMac_lanes (m : Nat) (v : Mac) (s : State) : (setMac m v s).lanes = s.lanes := rfl
@[simp] theorem setMac_cans (m : Nat) (v : Mac) (s : State) : (setMac m v s).cans = s.cans := rfl
@[simp] theorem setMac_ring (m : Nat) (v : Mac) (s : State) : (setMac m v s).ring = s.ring := rfl
@[simp] theorem setMac_saf (m : Nat) (v : Mac) (s : State) : (setMac m v s).saf = s.saf := rfl
@[simp] theorem setMac_tim (m : Nat) (v : Mac) (s : State) : (setMac m v s).tim = s.tim := rfl
@[simp] theorem setMac_pwr (m : Nat) (v : Mac) (s : State) : (setMac m v s).pwr = s.pwr := rfl
@[simp] theorem setMac_mgt (m : Nat) (v : Mac) (s : State) : (setMac m v s).mgt = s.mgt := rfl
@[simp] theorem setMac_sess (m : Nat) (v : Mac) (s : State) : (setMac m v s).sess = s.sess := rfl
@[simp] theorem setMac_pcieData (m : Nat) (v : Mac) (s : State) : (setMac m v s).pcieData = s.pcieData := rfl
@[simp] theorem setMac_outbox (m : Nat) (v : Mac) (s : State) : (setMac m v s).outbox = s.outbox := rfl
@[simp] theorem setMac_freeCtr (m : Nat) (v : Mac) (s : State) : (setMac m v s).freeCtr = s.freeCtr := rfl

/-! ### A read after a write of the same kind -/

@[simp] theorem getHandoff_setHandoff_same (k : Nat) (v : Handoff) (s : State) : getHandoff k (setHandoff k v s) = v := tget_tset_same _ k v _
theorem getHandoff_setHandoff_other {k j : Nat} (v : Handoff) (s : State) (h : j ≠ k) : getHandoff j (setHandoff k v s) = getHandoff j s :=
  tget_tset_other _ v _ h
@[simp] theorem getStanding_setStandingEntry_same (k : Nat) (v : Standing) (s : State) : getStanding k (setStandingEntry k v s) = v := tget_tset_same _ k v _
theorem getStanding_setStandingEntry_other {k j : Nat} (v : Standing) (s : State) (h : j ≠ k) : getStanding j (setStandingEntry k v s) = getStanding j s :=
  tget_tset_other _ v _ h
@[simp] theorem getRing_setRing_same (k : Nat) (v : RingCfg) (s : State) : getRing k (setRing k v s) = v := tget_tset_same _ k v _
theorem getRing_setRing_other {k j : Nat} (v : RingCfg) (s : State) (h : j ≠ k) : getRing j (setRing k v s) = getRing j s :=
  tget_tset_other _ v _ h
@[simp] theorem getStream_setStream_same (k : Nat) (v : Stream) (s : State) : getStream k (setStream k v s) = v := tget_tset_same _ k v _
theorem getStream_setStream_other {k j : Nat} (v : Stream) (s : State) (h : j ≠ k) : getStream j (setStream k v s) = getStream j s :=
  tget_tset_other _ v _ h
@[simp] theorem getCtx_setCtx_same (k : Nat) (v : Ctx) (s : State) : getCtx k (setCtx k v s) = v := tget_tset_same _ k v _
theorem getCtx_setCtx_other {k j : Nat} (v : Ctx) (s : State) (h : j ≠ k) : getCtx j (setCtx k v s) = getCtx j s :=
  tget_tset_other _ v _ h
@[simp] theorem getPipe_setPipe_same (k : Nat) (v : Pipe) (s : State) : getPipe k (setPipe k v s) = v := tget_tset_same _ k v _
theorem getPipe_setPipe_other {k j : Nat} (v : Pipe) (s : State) (h : j ≠ k) : getPipe j (setPipe k v s) = getPipe j s :=
  tget_tset_other _ v _ h
@[simp] theorem getBatch_setBatch_same (k : Nat) (v : Batch) (s : State) : getBatch k (setBatch k v s) = v := tget_tset_same _ k v _
theorem getBatch_setBatch_other {k j : Nat} (v : Batch) (s : State) (h : j ≠ k) : getBatch j (setBatch k v s) = getBatch j s :=
  tget_tset_other _ v _ h
@[simp] theorem getEngine_setEngine_same (k : Nat) (v : Option Decoding) (s : State) : getEngine k (setEngine k v s) = v := tget_tset_same _ k v _
theorem getEngine_setEngine_other {k j : Nat} (v : Option Decoding) (s : State) (h : j ≠ k) : getEngine j (setEngine k v s) = getEngine j s :=
  tget_tset_other _ v _ h
@[simp] theorem getAxis_setAxis_same (k : Nat) (v : Axis) (s : State) : getAxis k (setAxis k v s) = v := tget_tset_same _ k v _
theorem getAxis_setAxis_other {k j : Nat} (v : Axis) (s : State) (h : j ≠ k) : getAxis j (setAxis k v s) = getAxis j s :=
  tget_tset_other _ v _ h
@[simp] theorem getLane_setLane_same (k : Nat) (v : Lane) (s : State) : getLane k (setLane k v s) = v := tget_tset_same _ k v _
theorem getLane_setLane_other {k j : Nat} (v : Lane) (s : State) (h : j ≠ k) : getLane j (setLane k v s) = getLane j s :=
  tget_tset_other _ v _ h
@[simp] theorem getCan_setCan_same (k : Nat) (v : Can) (s : State) : getCan k (setCan k v s) = v := tget_tset_same _ k v _
theorem getCan_setCan_other {k j : Nat} (v : Can) (s : State) (h : j ≠ k) : getCan j (setCan k v s) = getCan j s :=
  tget_tset_other _ v _ h
@[simp] theorem getPort_setPort_same (k : Nat) (v : RingPort) (s : State) : getPort k (setPort k v s) = v := tget_tset_same _ k v _
theorem getPort_setPort_other {k j : Nat} (v : RingPort) (s : State) (h : j ≠ k) : getPort j (setPort k v s) = getPort j s :=
  tget_tset_other _ v _ h
@[simp] theorem getBinding_setBinding_same (k : Nat) (v : Binding) (s : State) : getBinding k (setBinding k v s) = v := tget_tset_same _ k v _
theorem getBinding_setBinding_other {k j : Nat} (v : Binding) (s : State) (h : j ≠ k) : getBinding j (setBinding k v s) = getBinding j s :=
  tget_tset_other _ v _ h
@[simp] theorem getBallast_setBallast_same (k : Nat) (v : Ballast) (s : State) : getBallast k (setBallast k v s) = v := tget_tset_same _ k v _
theorem getBallast_setBallast_other {k j : Nat} (v : Ballast) (s : State) (h : j ≠ k) : getBallast j (setBallast k v s) = getBallast j s :=
  tget_tset_other _ v _ h
@[simp] theorem getDomain_setDomainState_same (k : Nat) (v : Domain) (s : State) : getDomain k (setDomainState k v s) = v := tget_tset_same _ k v _
theorem getDomain_setDomainState_other {k j : Nat} (v : Domain) (s : State) (h : j ≠ k) : getDomain j (setDomainState k v s) = getDomain j s :=
  tget_tset_other _ v _ h
@[simp] theorem getMac_setMac_same (k : Nat) (v : Mac) (s : State) : getMac k (setMac k v s) = v := tget_tset_same _ k v _
theorem getMac_setMac_other {k j : Nat} (v : Mac) (s : State) (h : j ≠ k) : getMac j (setMac k v s) = getMac j s :=
  tget_tset_other _ v _ h
@[simp] theorem handleInfo_setHandle_same (k : Nat) (v : Option HandleInfo) (s : State) : handleInfo k (setHandle k v s) = v := tget_tset_same _ k v _
theorem handleInfo_setHandle_other {k j : Nat} (v : Option HandleInfo) (s : State) (h : j ≠ k) : handleInfo j (setHandle k v s) = handleInfo j s :=
  tget_tset_other _ v _ h
@[simp] theorem getReg_setReg_same (k : Nat) (v : Word) (s : State) : getReg k (setReg k v s) = v := tget_tset_same _ k v _
theorem getReg_setReg_other {k j : Nat} (v : Word) (s : State) (h : j ≠ k) : getReg j (setReg k v s) = getReg j s :=
  tget_tset_other _ v _ h

/-! ### A register read after any other update -/

@[simp] theorem getReg_useFree (g : Nat) (s : State) : getReg g (useFree s) = getReg g s := rfl
@[simp] theorem getReg_emit (g : Nat) (x : Out) (s : State) : getReg g (emit x s) = getReg g s := rfl
@[simp] theorem getReg_advance (g : Nat) (n : Nat) (s : State) : getReg g (advance n s) = getReg g s := rfl
@[simp] theorem getReg_runTo (g : Nat) (n : Nat) (s : State) : getReg g (runTo n s) = getReg g s := rfl
@[simp] theorem getReg_setHandoff (g : Nat) (k : Nat) (h : Handoff) (s : State) : getReg g (setHandoff k h s) = getReg g s := rfl
@[simp] theorem getReg_setJob (g : Nat) (j : Job) (s : State) : getReg g (setJob j s) = getReg g s := rfl
@[simp] theorem getReg_setHandle (g : Nat) (h : Nat) (v : Option HandleInfo) (s : State) : getReg g (setHandle h v s) = getReg g s := rfl
@[simp] theorem getReg_setStandingEntry (g : Nat) (e : Nat) (v : Standing) (s : State) : getReg g (setStandingEntry e v s) = getReg g s := rfl
@[simp] theorem getReg_setRing (g : Nat) (q : Nat) (r : RingCfg) (s : State) : getReg g (setRing q r s) = getReg g s := rfl
@[simp] theorem getReg_setStream (g : Nat) (k : Nat) (v : Stream) (s : State) : getReg g (setStream k v s) = getReg g s := rfl
@[simp] theorem getReg_setCtx (g : Nat) (c : Nat) (v : Ctx) (s : State) : getReg g (setCtx c v s) = getReg g s := rfl
@[simp] theorem getReg_setPipe (g : Nat) (p : Nat) (v : Pipe) (s : State) : getReg g (setPipe p v s) = getReg g s := rfl
@[simp] theorem getReg_setBatch (g : Nat) (b : Nat) (v : Batch) (s : State) : getReg g (setBatch b v s) = getReg g s := rfl
@[simp] theorem getReg_setEngine (g : Nat) (e : Nat) (v : Option Decoding) (s : State) : getReg g (setEngine e v s) = getReg g s := rfl
@[simp] theorem getReg_setAxis (g : Nat) (n : Nat) (a : Axis) (s : State) : getReg g (setAxis n a s) = getReg g s := rfl
@[simp] theorem getReg_setLane (g : Nat) (l : Nat) (v : Lane) (s : State) : getReg g (setLane l v s) = getReg g s := rfl
@[simp] theorem getReg_setCan (g : Nat) (c : Nat) (v : Can) (s : State) : getReg g (setCan c v s) = getReg g s := rfl
@[simp] theorem getReg_setPort (g : Nat) (p : Nat) (v : RingPort) (s : State) : getReg g (setPort p v s) = getReg g s := rfl
@[simp] theorem getReg_setBinding (g : Nat) (k : Nat) (b : Binding) (s : State) : getReg g (setBinding k b s) = getReg g s := rfl
@[simp] theorem getReg_setBallast (g : Nat) (c : Nat) (b : Ballast) (s : State) : getReg g (setBallast c b s) = getReg g s := rfl
@[simp] theorem getReg_setDomainState (g : Nat) (d : Nat) (v : Domain) (s : State) : getReg g (setDomainState d v s) = getReg g s := rfl
@[simp] theorem getReg_setMac (g : Nat) (m : Nat) (v : Mac) (s : State) : getReg g (setMac m v s) = getReg g s := rfl

end Sys2Proof.Machine
end

