-- ==== Sys2Proof/Laws/Ops.lean ====
section
/-! SUPPORT. What the shared operations do: a register field that was written, a memory that was written, a time that was
reached, an event that was raised, a write by the host; and that every operation on memory keeps the canonical form. -/

namespace Sys2Proof.Machine

/-! ### Registers -/

theorem getReg_setReg (o p : Nat) (v : Word) (s : State) : getReg p (setReg o v s) = if p = o then v else getReg p s :=
  tget_tset _ _ _ _ _

/-- Writing what a register holds changes no register. -/
theorem regFld_setRegFld_same (o hi lo v : Nat) (s : State) (h : hi < 32) :
    regFld o hi lo (setRegFld o hi lo v s) = v % 2 ^ (hi + 1 - lo) := by
  simp [regFld, fld_setFld_same _ _ _ _ h]

theorem regFld_setRegFld_apart (o hi lo v a b : Nat) (s : State) (h : a < lo ∨ hi < b) :
    regFld o a b (setRegFld o hi lo v s) = regFld o a b s := by
  simp [regFld, fld_setFld_other _ _ _ _ _ _ h]

theorem regFld_setReg_other {o p : Nat} (hi lo : Nat) (v : Word) (s : State) (h : p ≠ o) :
    regFld p hi lo (setReg o v s) = regFld p hi lo s := by
  simp [regFld, getReg_setReg_other _ _ h]

theorem regBit_setReg_other {o p : Nat} (i : Nat) (v : Word) (s : State) (h : p ≠ o) :
    regBit p i (setReg o v s) = regBit p i s := by
  simp [regBit, getReg_setReg_other _ _ h]

@[simp] theorem regBit_setReg_same (o i : Nat) (v : Word) (s : State) : regBit o i (setReg o v s) = bit v i := by
  simp [regBit]

@[simp] theorem regFld_setReg_same (o hi lo : Nat) (v : Word) (s : State) : regFld o hi lo (setReg o v s) = fld v hi lo := by
  simp [regFld]

/-- A pair of registers that was set reads as its value. -/
theorem reg64_setReg64 (l h : Nat) (v : Word64) (s : State) (hne : l ≠ h) : reg64 l h (setReg64 l h v s) = v := by
  have h1 : getReg h (setReg64 l h v s) = hi32 v := getReg_setReg_same _ _ _
  have h2 : getReg l (setReg64 l h v s) = lo32 v := by
    rw [setReg64, getReg_setReg_other _ _ hne, getReg_setReg_same]
  rw [reg64, h1, h2]
  apply BitVec.eq_of_getLsbD_eq
  intro i hi
  unfold join64 hi32 lo32
  rw [BitVec.getLsbD_append]
  by_cases h3 : i < 32
  · simp [h3]
  · have h4 : i - 32 < 32 := by omega
    have h5 : 32 + (i - 32) = i := by omega
    simp [h3, h4, h5]

/-- Writing one register keeps every other one. -/
theorem regsKept_setReg (o : Nat) (v : Word) (s : State) : regsKept [o] s (setReg o v s) := fun p hp =>
  getReg_setReg_other _ _ (by simpa using hp)

/-- Writing one register changes that register alone. -/
theorem onlyRegs_setReg (o : Nat) (v : Word) (s : State) : onlyRegs [o] s (setReg o v s) := ⟨regsKept_setReg o v s, rfl⟩

theorem onlyRegs_refl (l : List Nat) (s : State) : onlyRegs l s s := ⟨fun _ _ => rfl, rfl⟩

theorem onlyRegs_trans {l m : List Nat} {s t u : State} (h1 : onlyRegs l s t) (h2 : onlyRegs m t u) :
    onlyRegs (l ++ m) s u := by
  refine ⟨fun p hp => ?_, ?_⟩
  · simp only [List.mem_append, not_or] at hp
    rw [h2.1 p hp.2, h1.1 p hp.1]
  · have e := h2.2
    have f := h1.2
    cases s; cases t; cases u
    simp only [State.mk.injEq] at e f ⊢
    simp_all

/-! ### Time -/

@[simp] theorem now_setReg (o : Nat) (v : Word) (s : State) : now (setReg o v s) = now s := rfl
@[simp] theorem now_emit (x : Out) (s : State) : now (emit x s) = now s := rfl
@[simp] theorem now_useFree (s : State) : now (useFree s) = now s := rfl
@[simp] theorem now_advance (n : Nat) (s : State) : now (advance n s) = now s + n := rfl

/-- After running to an instant it is that instant, or later when it had passed already. -/
@[simp] theorem now_runTo (n : Nat) (s : State) : now (runTo n s) = max (now s) n := by
  simp only [runTo, now_advance]; omega

/-- Running to an instant that has passed changes nothing. -/
theorem advance_zero (s : State) : advance 0 s = s := by
  simp only [advance, Nat.add_zero, Nat.sub_self, ite_self]
  split <;> simp

theorem runTo_past (n : Nat) (s : State) (h : n ≤ now s) : runTo n s = s := by
  rw [runTo, Nat.sub_eq_zero_of_le h, advance_zero]

/-! ### Memories -/

@[simp] theorem dramHas_setMem (k : Nat) (sp : Space) (t : Tab Byte) (s : State) :
    dramHas k (setMem sp t s) = dramHas k s := by cases sp <;> rfl
@[simp] theorem memDefault_setMem (q sp : Space) (t : Tab Byte) (s : State) :
    memDefault q (setMem sp t s) = memDefault q s := by cases sp <;> cases q <;> rfl
theorem memOf_setMem (q sp : Space) (t : Tab Byte) (s : State) :
    memOf q (setMem sp t s) = if q = sp then t else memOf q s := by cases sp <;> cases q <;> rfl

/-- The contents of a space are no part of the ledger. -/
@[simp] theorem ledgerBytes_setMem (sp : Space) (t : Tab Byte) (s : State) : ledgerBytes (setMem sp t s) = ledgerBytes s := by
  cases sp <;> rfl

/-- A write of one byte of a space reads back where the address exists and does not lie in the ledger, and every other byte
reads as before. -/
theorem rdByte_wrByte (sp q : Space) (a b : Nat) (v : Byte) (s : State)
    (h : sp = .dram → dramHas (memKey sp a) s = true ∧ inLedger (memKey sp a) = false) :
    rdByte q b (wrByte sp a v s) = if q = sp ∧ memKey sp b = memKey sp a then v else rdByte q b s := by
  have hw : ¬(sp = .dram ∧ dramHas (memKey sp a) s = false) := fun e => by simp [(h e.1).1] at e
  have hl : ¬(sp = .dram ∧ inLedger (memKey sp a) = true) := fun e => by simp [(h e.1).2] at e
  unfold wrByte
  rw [if_neg hw]
  simp only [rdByte, dramHas_setMem, memDefault_setMem, memOf_setMem, ledgerBytes_setMem]
  by_cases hq : q = sp
  · subst hq
    by_cases hk : memKey q b = memKey q a
    · simp only [hk, hw, hl, if_false, if_true, and_self, tget_tset_same]
    · simp only [hk, if_false, if_true, and_false, tget_tset_other _ _ _ hk]
  · simp only [hq, if_false, false_and]

/-- A byte of the ledger shows the ledger as it stands. -/
theorem rdByte_ledger (a : Nat) (s : State) (h : dramHas (memKey .dram a) s = true) (hl : inLedger (memKey .dram a) = true) :
    rdByte .dram a s = (ledgerBytes s).getD (memKey .dram a - 0x100000) 0 := by simp [rdByte, h, hl]

/-- A write to a DRAM address above the capacity changes nothing. -/
theorem wrByte_absent (a : Nat) (v : Byte) (s : State) (h : dramHas (memKey .dram a) s = false) : wrByte .dram a v s = s := by
  simp [wrByte, h]

/-- A byte of host memory after a store of one byte. -/
theorem hostByte_store_one (a b : Nat) (v : Byte) (s : State) :
    hostByte b { s with hostMem := tset hostDefault (a % 2 ^ 64) v s.hostMem } =
      if b % 2 ^ 64 = a % 2 ^ 64 then v else hostByte b s := tget_tset _ _ _ _ _

/-! ### The canonical form -/

/-- A write of one byte keeps every space in canonical form. -/
theorem spaceWf_wrByte (sp q : Space) (a : Nat) (v : Byte) (s : State) (h : spaceWf q s = true) :
    spaceWf q (wrByte sp a v s) = true := by
  unfold wrByte
  split
  · exact h
  · cases sp <;> cases q <;> first | exact h | exact twf_tset _ _ _ _ h

theorem wf_iff (s : State) : Memory.wf s = true ↔
    (∀ sp, spaceWf sp s = true) ∧ twf hostDefault s.hostMem = true ∧ twf flashDefault s.flash = true ∧
      twf regReset s.regs = true ∧ twf fuseShipped s.fuses = true := by
  simp only [Memory.wf, Bool.and_eq_true]
  constructor
  · rintro ⟨⟨⟨⟨⟨⟨⟨h1, h2⟩, h3⟩, h4⟩, h5⟩, h6⟩, h7⟩, h8⟩
    refine ⟨fun sp => by cases sp <;> assumption, h5, h6, h7, h8⟩
  · rintro ⟨h, h5, h6, h7, h8⟩
    exact ⟨⟨⟨⟨⟨⟨⟨h _, h _⟩, h _⟩, h _⟩, h5⟩, h6⟩, h7⟩, h8⟩

/-- The canonical form rests on the memories, the registers, the fuses and the losses alone. -/
theorem wf_congr {s t : State} (h1 : t.dram = s.dram) (h2 : t.stage = s.stage) (h3 : t.banks = s.banks)
    (h4 : t.tables = s.tables) (h5 : t.hostMem = s.hostMem) (h6 : t.flash = s.flash) (h7 : t.regs = s.regs)
    (h8 : t.fuses = s.fuses) (h9 : t.losses = s.losses) : Memory.wf t = Memory.wf s := by
  cases s; cases t; cases h1; cases h2; cases h3; cases h4; cases h5; cases h6; cases h7; cases h8; cases h9; rfl

theorem wf_setReg (o : Nat) (v : Word) (s : State) (h : Memory.wf s = true) : Memory.wf (setReg o v s) = true := by
  rw [wf_iff] at h ⊢
  exact ⟨h.1, h.2.1, h.2.2.1, twf_tset _ _ _ _ h.2.2.2.1, h.2.2.2.2⟩

theorem wf_wrByte (sp : Space) (a : Nat) (v : Byte) (s : State) (h : Memory.wf s = true) :
    Memory.wf (wrByte sp a v s) = true := by
  rw [wf_iff] at h ⊢
  have e : (wrByte sp a v s).hostMem = s.hostMem ∧ (wrByte sp a v s).flash = s.flash ∧ (wrByte sp a v s).regs = s.regs ∧
      (wrByte sp a v s).fuses = s.fuses := by
    unfold wrByte
    split
    · simp
    · cases sp <;> simp [setMem]
  rw [e.1, e.2.1, e.2.2.1, e.2.2.2]
  exact ⟨fun q => spaceWf_wrByte sp q a v s (h.1 q), h.2⟩

theorem wf_wrRaw (sp : Space) (a : Nat) (bs : List Byte) (s : State) (h : Memory.wf s = true) :
    Memory.wf (wrRaw sp a bs s) = true := by
  induction bs generalizing a s with
  | nil => exact h
  | cons b r ih => exact ih (a + 1) _ (wf_wrByte sp a b s h)

theorem wf_wrBytes (sp : Space) (a : Nat) (bs : List Byte) (s : State) (h : Memory.wf s = true) :
    Memory.wf (wrBytes sp a bs s) = true :=
  (wf_congr (s := wrRaw sp a bs s) rfl rfl rfl rfl rfl rfl rfl rfl rfl).trans (wf_wrRaw sp a bs s h)

theorem wf_hostStore (a : Nat) (bs : List Byte) (s : State) (h : Memory.wf s = true) : Memory.wf (hostStore a bs s) = true := by
  induction bs generalizing a s with
  | nil => exact h
  | cons b r ih =>
    refine ih (a + 1) _ ?_
    rw [wf_iff] at h ⊢
    exact ⟨h.1, twf_tset _ _ _ _ h.2.1, h.2.2⟩

theorem wf_flashStore (a : Nat) (bs : List Byte) (s : State) (h : Memory.wf s = true) :
    Memory.wf (flashStore a bs s) = true := by
  induction bs generalizing a s with
  | nil => exact h
  | cons b r ih =>
    refine ih (a + 1) _ ?_
    rw [wf_iff] at h ⊢
    exact ⟨h.1, h.2.1, twf_tset _ _ _ _ h.2.2.1, h.2.2.2⟩

theorem wf_flashProgram (a : Nat) (bs : List Byte) (s : State) (h : Memory.wf s = true) :
    Memory.wf (flashProgram a bs s) = true := wf_flashStore _ _ _ h

theorem wf_blow (w : Nat) (v : Word) (s : State) (h : Memory.wf s = true) : Memory.wf (blow w v s) = true := by
  rw [wf_iff] at h ⊢
  exact ⟨h.1, h.2.1, h.2.2.1, h.2.2.2.1, twf_tset _ _ _ _ h.2.2.2.2⟩

@[simp] theorem wf_emit (x : Out) (s : State) : Memory.wf (emit x s) = Memory.wf s := rfl
@[simp] theorem wf_useFree (s : State) : Memory.wf (useFree s) = Memory.wf s := rfl
@[simp] theorem wf_advance (n : Nat) (s : State) : Memory.wf (advance n s) = Memory.wf s := rfl
@[simp] theorem wf_runTo (n : Nat) (s : State) : Memory.wf (runTo n s) = Memory.wf s := rfl

/-! ### Fuses -/

/-- Blowing bits of a word sets them, and leaves the other words. -/
theorem fuse_blow (w x : Nat) (v : Word) (s : State) : fuse x (blow w v s) = if x = w then fuse w s ||| v else fuse x s :=
  tget_tset _ _ _ _ _

/-- Blowing keeps every blown fuse. -/
theorem fusesKept_blow (w : Nat) (v : Word) (s : State) : fusesKept s (blow w v s) := by
  intro x
  rw [fuse_blow]
  split
  · rename_i h
    subst h
    apply word_ext
    intro i hi
    rw [bit_and, bit_or]
    cases bit (fuse x s) i <;> simp
  · apply word_ext
    intro i hi
    rw [bit_and]
    cases bit (fuse x s) i <;> simp

/-! ### Events and writers -/

/-- A raise changes MGT_EVT_LOST, the event queue, the free-value counter and, of the safety block, the outputs. -/
theorem raise_frame (src : Nat) (ev : Config.Ev) (code : Nat) (d : List (Option Word)) (s : State) :
    { raise src ev code d s with regs := s.regs, mgt := s.mgt, outbox := s.outbox, freeCtr := s.freeCtr } = s := by
  unfold raise
  by_cases h1 : src = Src.safety <;> by_cases h2 : 4 ≤ (s.mgt.events.filter (fun e => e.source = src)).length <;>
    simp [h1, h2, emit, useFree, bumpReg, modReg, setReg] <;> split <;> rfl

theorem getReg_raise (o src : Nat) (ev : Config.Ev) (code : Nat) (d : List (Option Word)) (s : State)
    (h : o ≠ Reg.MGT_EVT_LOST) : getReg o (raise src ev code d s) = getReg o s := by
  unfold raise
  by_cases h1 : src = Src.safety <;> simp only [h1, if_true, if_false] <;> split <;>
    simp [useFree, emit, getReg, setReg, tget_tset_other _ _ _ h]

theorem wf_raise (src : Nat) (ev : Config.Ev) (code : Nat) (d : List (Option Word)) (s : State) (h : Memory.wf s = true) :
    Memory.wf (raise src ev code d s) = true := by
  unfold raise
  by_cases hs : src = Src.safety <;> simp only [hs, if_true, if_false] <;> split
  · exact (wf_congr (s := bumpReg Reg.MGT_EVT_LOST 1 (emit (.msix 10) s)) rfl rfl rfl rfl rfl rfl rfl rfl rfl).trans
      (wf_setReg _ _ _ h)
  · exact h
  · exact (wf_congr (s := bumpReg Reg.MGT_EVT_LOST 1 s) rfl rfl rfl rfl rfl rfl rfl rfl rfl).trans (wf_setReg _ _ _ h)
  · exact h

/-- With every switched domain of the blocks on, every block is usable. -/
theorem blockUsable_of_blocksUp (off : Nat) (s t : State) (h : blocksUp s = true) (ht : t.regs = s.regs) :
    blockUsable off t = true := by
  have hg : ∀ d, regBit Reg.PWR_DOM_STAT0 d t = regBit Reg.PWR_DOM_STAT0 d s := fun d => by
    simp only [regBit, getReg, ht]
  have hd : ∀ d, 12 ≤ d → d < 29 → regBit Reg.PWR_DOM_STAT0 d s = true := fun d h12 h29 => by
    have := List.all_eq_true.mp h (d - 12) (List.mem_range.mpr (by omega))
    rwa [Nat.add_sub_cancel' h12] at this
  unfold blockUsable blockDomains
  repeat' split
  all_goals simp [hg, hd]

/-- A write that takes effect now is the write on the state that its writer has used. -/
theorem asWriter_now (w : Writer) (off : Nat) (f : State → State) (s : State) (h : writesNow w s = true) :
    asWriter w off f s = f (usedBy w s) := by
  cases w with
  | firmware => simp [asWriter, usedBy, blockUsable_of_blocksUp off s s h rfl]
  | host =>
    simp only [writesNow, Bool.and_eq_true, Option.isSome_iff_exists] at h
    obtain ⟨hb, m, hm⟩ := h
    have hu := blockUsable_of_blocksUp off s { s with sess := { s.sess with maint := some { m with usedAt := now s } } } hb rfl
    simp [asWriter, usedBy, hm, hu]

/-- The host's write outside a maintenance session is logged and does nothing else (R23). -/
theorem asWriter_closed (off : Nat) (f : State → State) (s : State) (h : s.sess.maint = none) :
    asWriter .host off f s = logClosed off s := by
  simp [asWriter, h]

@[simp] theorem getReg_usedBy (o : Nat) (w : Writer) (s : State) : getReg o (usedBy w s) = getReg o s := by
  cases w <;> rfl

@[simp] theorem rdByte_usedBy (sp : Space) (a : Nat) (w : Writer) (s : State) : rdByte sp a (usedBy w s) = rdByte sp a s := by
  cases w <;> rfl

@[simp] theorem now_usedBy (w : Writer) (s : State) : now (usedBy w s) = now s := by
  cases w <;> rfl

@[simp] theorem wf_usedBy (w : Writer) (s : State) : Memory.wf (usedBy w s) = Memory.wf s := by
  cases w <;> rfl

/-! ### What a command leaves in memory -/

theorem memKept_refl (s : State) : memKept s s := ⟨fun _ _ => rfl, fun _ => rfl, rfl, rfl⟩

theorem memKept_trans {s t u : State} (h1 : memKept s t) (h2 : memKept t u) : memKept s u :=
  ⟨fun sp a => (h2.1 sp a).trans (h1.1 sp a), fun a => (h2.2.1 a).trans (h1.2.1 a), h2.2.2.1.trans h1.2.2.1,
    h2.2.2.2.trans h1.2.2.2⟩

/-- A write of a register other than MEM_POP leaves every memory as it reads. -/
theorem memKept_setReg (o : Nat) (v : Word) (s : State) (h : o ≠ Reg.MEM_POP) : memKept s (setReg o v s) := by
  refine ⟨fun sp a => ?_, fun _ => rfl, rfl, rfl⟩
  have e : dramHas (memKey sp a) (setReg o v s) = dramHas (memKey sp a) s := by
    simp [dramHas, getReg_setReg_other _ _ (Ne.symm h)]
  unfold rdByte
  rw [e]
  cases sp <;> rfl

theorem memKept_emit (x : Out) (s : State) : memKept s (emit x s) := ⟨fun sp _ => by cases sp <;> rfl, fun _ => rfl, rfl, rfl⟩

theorem memKept_advance (n : Nat) (s : State) : memKept s (advance n s) :=
  ⟨fun sp _ => by cases sp <;> rfl, fun _ => rfl, rfl, rfl⟩

theorem memKept_runTo (n : Nat) (s : State) : memKept s (runTo n s) := memKept_advance _ s

theorem memKept_usedBy (w : Writer) (s : State) : memKept s (usedBy w s) := by
  cases w
  · exact memKept_refl s
  · exact ⟨fun sp _ => by cases sp <;> rfl, fun _ => rfl, rfl, rfl⟩

end Sys2Proof.Machine
end

