-- ==== Sys2Proof/Laws/Commands.lean ====
section
/-! SUPPORT. What serving and completing a command changes, and what the safety latches change, whatever the command. -/

namespace Sys2Proof.Machine

/-! ### Completions -/

/-- Storing to host memory changes host memory alone. -/
theorem hostStore_frame (a : Nat) (bs : List Byte) (s : State) : { hostStore a bs s with hostMem := s.hostMem } = s := by
  induction bs generalizing a s with
  | nil => rfl
  | cons b r ih =>
    have h := ih (a + 1) { s with hostMem := tset hostDefault (a % 2 ^ 64) b s.hostMem }
    simp only [hostStore]
    generalize hostStore (a + 1) r _ = t at h ⊢
    cases s; cases t
    simp only [State.mk.injEq] at h ⊢
    simp_all

/-- A discarded write changes HOST_DISCARD and the ledger. -/
theorem discardWrite_frame (c : Nat) (s : State) :
    { discardWrite c s with regs := s.regs, disp := s.disp } = s ∧
      { (discardWrite c s).disp with ledger := s.disp.ledger } = s.disp := ⟨rfl, rfl⟩

theorem getReg_discardWrite (o c : Nat) (s : State) (h : o ≠ Reg.HOST_DISCARD) :
    getReg o (discardWrite c s) = getReg o s := by
  simp only [discardWrite, bumpReg, modReg]
  exact getReg_setReg_other _ _ h

/-- What the completion of commands may change: registers, host memory, outputs, and of the Dispatcher the ledger and which
ring commands wait. -/
def onlyCompletion (s t : State) : Prop :=
  { t with regs := s.regs, hostMem := s.hostMem, outbox := s.outbox, disp := s.disp } = s ∧
    { t.disp with cmds := s.disp.cmds, ledger := s.disp.ledger } = s.disp

theorem onlyCompletion_trans {s t u : State} (h1 : onlyCompletion s t) (h2 : onlyCompletion t u) : onlyCompletion s u := by
  obtain ⟨a, b⟩ := h1
  obtain ⟨c, d⟩ := h2
  cases s; cases t; cases u
  rename_i d1 _ _ _ _ _ _ _ _ _ _ _ _ _ _ _ _ _ d2 _ _ _ _ _ _ _ _ _ _ _ _ _ _ _ _ _ d3 _ _ _ _ _ _ _ _ _ _ _ _ _ _ _ _ _
  simp only [onlyCompletion, State.mk.injEq] at a b c d ⊢
  refine ⟨?_, ?_⟩
  · simp_all
  · rw [← b, ← d]

/-- Posting a completion changes the completion ring's tail, the discard counter, the ledger, host memory and the outputs. -/
theorem onlyCompletion_postCmpl (e : List Byte) (s : State) : onlyCompletion s (postCmpl e s) := by
  unfold postCmpl
  split
  · exact ⟨rfl, rfl⟩
  · dsimp only
    split
    · exact ⟨rfl, rfl⟩
    · have h := hostStore_frame ((reg64 Reg.CMPL_BASE_LO Reg.CMPL_BASE_HI s).toNat + 32 * (getReg Reg.CMPL_TAIL s).toNat) e s
      generalize hostStore _ e s = t at h ⊢
      have hd : t.disp = s.disp := by have := congrArg State.disp h; simpa using this
      refine ⟨?_, ?_⟩
      · cases s; cases t
        simp only [emit, setReg, State.mk.injEq] at h ⊢
        simp_all
      · show { t.disp with cmds := s.disp.cmds, ledger := s.disp.ledger } = s.disp
        rw [hd]

theorem postCmpl_reg (o : Nat) (e : List Byte) (s : State) (h1 : o ≠ Reg.CMPL_TAIL) (h2 : o ≠ Reg.HOST_DISCARD) :
    getReg o (postCmpl e s) = getReg o s := by
  unfold postCmpl
  split
  · exact getReg_discardWrite _ _ _ h2
  · dsimp only
    split
    · rfl
    · have h := hostStore_frame ((reg64 Reg.CMPL_BASE_LO Reg.CMPL_BASE_HI s).toNat + 32 * (getReg Reg.CMPL_TAIL s).toNat) e s
      generalize hostStore _ e s = t at h ⊢
      have hr : t.regs = s.regs := by have := congrArg State.regs h; simpa using this
      simp only [emit]
      show getReg o (setReg Reg.CMPL_TAIL _ t) = _
      rw [getReg_setReg_other _ _ h1]
      simp only [getReg, hr]

/-- Flushing the command ring changes what posting changes, and which ring commands wait. -/
theorem flushCmds_frame (l : List CmdSlot) (s : State) : onlyCompletion s (flushCmds l s) := by
  induction l generalizing s with
  | nil => exact ⟨rfl, rfl⟩
  | cons c r ih =>
    simp only [flushCmds]
    split
    · refine onlyCompletion_trans ?_ (ih _)
      split
      · exact ⟨rfl, rfl⟩
      · exact onlyCompletion_postCmpl _ s
    · exact ⟨rfl, rfl⟩

theorem flushCmds_reg (o : Nat) (l : List CmdSlot) (s : State) (h1 : o ≠ Reg.CMPL_TAIL) (h2 : o ≠ Reg.HOST_DISCARD) :
    getReg o (flushCmds l s) = getReg o s := by
  induction l generalizing s with
  | nil => rfl
  | cons c r ih =>
    simp only [flushCmds]
    split
    · rw [ih]
      split
      · exact getReg_discardWrite _ _ _ h2
      · exact postCmpl_reg o _ _ h1 h2
    · rfl

/-- Completing a command changes what posting changes, and which ring commands wait. -/
theorem completeCmd_frame (i : Issue) (op code : Nat) (d : Word) (m : List Byte) (s : State) :
    onlyCompletion s (completeCmd i op code d m s) := by
  unfold completeCmd
  dsimp only
  split
  · exact flushCmds_frame _ s
  · split
    · exact ⟨rfl, rfl⟩
    · exact ⟨rfl, rfl⟩

theorem completeCmd_reg (o : Nat) (i : Issue) (op code : Nat) (d : Word) (m : List Byte) (s : State)
    (h1 : o ≠ Reg.CMPL_TAIL) (h2 : o ≠ Reg.HOST_DISCARD) : getReg o (completeCmd i op code d m s) = getReg o s := by
  unfold completeCmd
  dsimp only
  split
  · exact flushCmds_reg o _ s h1 h2
  · split <;> rfl

/-- Entering a command changes the head of the command ring and which ring commands wait. -/
theorem beginCmd_frame (i : Issue) (op : Nat) (s : State) :
    { beginCmd i op s with regs := s.regs, disp := s.disp } = s ∧ { (beginCmd i op s).disp with cmds := s.disp.cmds } = s.disp := by
  unfold beginCmd
  split
  · dsimp only
    split <;> exact ⟨rfl, rfl⟩
  · exact ⟨rfl, rfl⟩

theorem beginCmd_reg (o : Nat) (i : Issue) (op : Nat) (s : State) (h : o ≠ Reg.CMDQ_HEAD) :
    getReg o (beginCmd i op s) = getReg o s := by
  unfold beginCmd
  split
  · dsimp only
    split
    · rfl
    · exact getReg_setReg_other _ _ h
  · rfl

/-- A command that its session may issue, and whose core runs, runs after it has been entered. -/
theorem commandZ_runs (i : Issue) (op : Nat) (allow : List Session) (zero : Bool) (run : State → State) (s : State)
    (h : mayIssue i op allow s = true) : commandZ i op allow zero run s = run (touchMaint i.via (beginCmd i op s)) := by
  simp only [mayIssue, Bool.and_eq_true, decide_eq_true_eq, Option.isSome_iff_exists] at h
  obtain ⟨⟨⟨x, hx⟩, hs⟩, ha⟩ := h
  simp only [commandZ, hx, hs, if_true, ha]

theorem command_runs (i : Issue) (op : Nat) (allow : List Session) (run : State → State) (s : State)
    (h : mayIssue i op allow s = true) : command i op allow run s = run (touchMaint i.via (beginCmd i op s)) :=
  commandZ_runs i op allow false run s h

/-- A command of a session that is not open is discarded and logged. -/
theorem command_closed (i : Issue) (op : Nat) (allow : List Session) (run : State → State) (s : State)
    (h : sessionOf i.via s = none) (hp : i.via ≠ .port) : command i op allow run s = logClosed Reg.CMDQ_TAIL s := by
  cases hv : i.via <;> simp_all [command, commandZ]

/-! ### Latches -/

/-- Arming ramps changes axes alone. -/
theorem armRamps_frame (m : BitVec 16) (s : State) : { armRamps m s with srv := s.srv } = s := by
  unfold armRamps
  induction List.range 64 generalizing s with
  | nil => rfl
  | cons n l ih =>
    simp only [List.foldl_cons]
    split
    · have h := ih (setAxis n { getAxis n s with armed := true } s)
      generalize l.foldl _ (setAxis n { getAxis n s with armed := true } s) = t at h ⊢
      cases s; cases t
      simp only [setAxis, State.mk.injEq] at h ⊢
      simp_all
    · exact ih s

theorem getReg_armRamps (o : Nat) (m : BitVec 16) (s : State) : getReg o (armRamps m s) = getReg o s := by
  have h : (armRamps m s).regs = s.regs := by have := congrArg State.regs (armRamps_frame m s); simpa using this
  simp [getReg, h]

/-- Driving the torque enables changes SAF_TEN_STAT and axes. -/
theorem driveTen_frame (s : State) : { driveTen s with regs := s.regs, srv := s.srv } = s := by
  unfold driveTen
  dsimp only
  have h := armRamps_frame (BitVec.truncate 16 (getReg Reg.SAF_TEN_ARM s) &&& ~~~(heldTen s) &&& ~~~(tenPins s))
    (setReg Reg.SAF_TEN_STAT (heldTen s ++ (BitVec.truncate 16 (getReg Reg.SAF_TEN_ARM s) &&& ~~~(heldTen s))) s)
  generalize armRamps _ _ = t at h ⊢
  cases s; cases t
  simp only [setReg, State.mk.injEq] at h ⊢
  simp_all

theorem driveTen_reg (o : Nat) (s : State) (h : o ≠ Reg.SAF_TEN_STAT) : getReg o (driveTen s) = getReg o s := by
  unfold driveTen
  dsimp only
  rw [getReg_armRamps, getReg_setReg_other _ _ h]

/-- The outputs as driven: armed ones that no latch bit holds. -/
theorem tenPins_driveTen (s : State) : tenPins (driveTen s) = (getReg Reg.SAF_TEN_ARM s).truncate 16 &&& ~~~(heldTen s) := by
  unfold tenPins driveTen
  dsimp only
  rw [getReg_armRamps, getReg_setReg_same]
  apply BitVec.eq_of_getLsbD_eq
  intro i hi
  rw [BitVec.truncate_eq_setWidth, BitVec.getLsbD_setWidth, BitVec.getLsbD_append]
  simp [hi]

/-- Outside reset SAFE_N follows the latches. -/
theorem safeN_driveSafe (s : State) (hr : deviceReset s = false) :
    safeN (driveSafe s) = decide (getReg Reg.SAF_LATCH s &&& latchSafeMask = 0) := by
  simp only [safeN, driveSafe, modReg_eq, regBit_setReg_same, hr, Bool.false_or]
  rw [bit_setBit_other _ _ (by decide), bit_setBit_same _ _ _ (by decide)]
  by_cases h : getReg Reg.SAF_LATCH s &&& latchSafeMask = 0
  · simp [h]
  · rw [show (getReg Reg.SAF_LATCH s &&& latchSafeMask != 0) = true from bne_iff_ne.mpr h]
    simp only [Bool.not_true]
    exact (decide_eq_false h).symm

end Sys2Proof.Machine
end

