-- ==== Sys2Proof/Tests/Slice0.lean ====
section
/-! SUPPORT. Tests: the well-formedness checks refuse what they should, examples worked by hand from the manual, and for
every statement of Obligations a state and operands that meet its hypotheses, clause by clause. -/

namespace Sys2Proof.Tests

open Sys2Proof Sys2Proof.Machine

-- One theorem is checked at a time, which keeps the memory that the checks need small.
set_option Elab.async false

/-! ### Helpers -/

/-- The state right after reset. -/
def cold : State := State.reset

/-- The state with registers set. -/
def withRegs (l : List (Nat × Word)) (s : State) : State := l.foldl (fun s p => setReg p.1 p.2 s) s

/-- A device in service: the PLL is locked, every domain is on and every core runs. -/
def z : State :=
  withRegs [(Reg.PWR_DOM_STAT0, 0xFFFFFFFF), (Reg.PWR_DOM_STAT1, 0xFF)] { cold with pwr := { cold.pwr with locked := true } }

/-- A register written over a field. -/
def bits (hi lo v : Nat) : Word := setFld 0 hi lo v

/-- Whether a command answers a next state. -/
def runs (c : Instr) (s : State) : Bool := (nextOf (exec c s)).isSome

/-- The state after a command, the same one where it does not go on. -/
def after (c : Instr) (s : State) : State := (nextOf (exec c s)).getD s

/-- A session of an interface. -/
def session (side : Side) : SessionInfo := ⟨1, [], 0, side, 0⟩

/-- A maintenance session is open, and the command ring is enabled. -/
def maint (s : State) : State :=
  withRegs [(Reg.CMDQ_CTL, 0x80000000)] { s with sess := { s.sess with maint := some (session .pcie) } }

/-- A management-port session is open. -/
def port (s : State) : State := { s with sess := { s.sess with port := some (session .mgtPort) } }

/-- A host session is open, and the command ring is enabled. -/
def host (s : State) : State :=
  withRegs [(Reg.CMDQ_CTL, 0x80000000)] { s with sess := { s.sess with host := some (session .pcie) } }

/-- A command of the management port. -/
def byPort : Issue := ⟨.port, 0⟩

/-! ### Well-formedness: a term that each check refuses -/

theorem test_wf_training : WellFormed (.memTrainingComplete [1, 2]) = false := by decide +kernel
theorem test_wf_line : WellFormed (.lineLanded 0 (List.replicate 3 7) ⟨false, false, false⟩) = true := by decide +kernel
theorem test_wf_sensor_writes : 
    WellFormed (.sensorReq byPort ⟨0, 0, List.replicate 5 ⟨0, [1]⟩, List.replicate 4 none⟩) = false := by decide +kernel
theorem test_wf_sensor_length : WellFormed (.sensorReq byPort ⟨0, 0, [⟨0, []⟩], List.replicate 4 none⟩) = false := by decide +kernel
theorem test_wf_sensor_long : WellFormed (.sensorReq byPort ⟨0, 0, [⟨0, [1, 2, 3, 4, 5]⟩], List.replicate 4 none⟩) = false := by decide +kernel
theorem test_wf_sensor_fields : WellFormed (.sensorReq byPort ⟨0, 0, [], [none]⟩) = false := by decide +kernel
theorem test_wf_up_frame : WellFormed (.upFrame 0 (List.replicate 41 0) 0 false) = false := by decide +kernel
theorem test_wf_can_brs : WellFormed (.canRxFrame 0 ⟨false, false, true, false, false, 0, 0, []⟩ 0) = false := by decide +kernel
theorem test_wf_can_esi : WellFormed (.canRxFrame 0 ⟨false, false, false, true, false, 0, 0, []⟩ 0) = false := by decide +kernel
theorem test_wf_can_rtr : WellFormed (.canRxFrame 0 ⟨false, true, false, false, true, 0, 0, []⟩ 0) = false := by decide +kernel
theorem test_wf_can_id : WellFormed (.canRxFrame 0 ⟨false, false, false, false, false, 1, 0, []⟩ 0) = false := by decide +kernel
theorem test_wf_can_dlc : WellFormed (.canRxFrame 0 ⟨false, true, false, false, false, 0, 9, List.replicate 11 0⟩ 0) = false := by decide +kernel
theorem test_wf_can_good : WellFormed (.canRxFrame 0 ⟨false, true, false, false, false, 0, 9, List.replicate 12 0⟩ 0) = true := by decide +kernel
theorem test_wf_shares : WellFormed (.setMode byPort 1 [1, 2]) = false := by decide +kernel
theorem test_wf_flit : WellFormed (.flitReceived 0 ⟨[1]⟩) = false := by decide +kernel
theorem test_wf_token : WellFormed (.resetToken ⟨0, 0⟩ 0 0 (List.replicate 9 0) false 0 0) = false := by decide +kernel
theorem test_wf_bcast : WellFormed (.bcast (List.replicate 257 0)) = false := by decide +kernel
theorem test_wf_collect_count : WellFormed (.collect (List.replicate 9 (List.replicate 64 0))) = false := by decide +kernel
theorem test_wf_collect_length : WellFormed (.collect [[1]]) = false := by decide +kernel
theorem test_wf_datagram : WellFormed (.mgtCommandDatagram [5]) = false := by decide +kernel

/-! ### CRCs: the published check values of CRC-32C and CRC-32, over the digits 1 to 9 -/

theorem test_crc32c : crc32c [0x31, 0x32, 0x33, 0x34, 0x35, 0x36, 0x37, 0x38, 0x39] = 0xE3069283 := by decide +kernel
theorem test_crc32 : crc32 [0x31, 0x32, 0x33, 0x34, 0x35, 0x36, 0x37, 0x38, 0x39] = 0xCBF43926 := by decide +kernel

/-! ### Table words -/

theorem test_no_word_is_a_command (n w : Nat) : decodeTableWord n w = none := rfl
theorem test_fetch_word_leaves_the_state (s : State) (n w : Nat) : s.withFetchWord n w = s := rfl

/-! ### The step and the queue -/

/-- The PLL is locked. -/
def locked (s : State) : State := { s with pwr := { s.pwr with locked := true } }

theorem witness_EmptyQueueIdles : z.pending = [] ∧ z.pwr.locked = true ∧ cold.pending = [] ∧ cold.pwr.locked = false ∧
    (∀ e ∈ z.pwr.crossings, e.2.waiting = none) := by decide +kernel
theorem witness_CommandKeepsQueue : runs (.rateWrite .firmware 5) z = true := by decide +kernel
theorem witness_MemoryCanonicalKeptByEveryStep :
    Memory.wf { z with pending := [.rateWrite .firmware 5] } = true ∧
      (nextOf (step { z with pending := [.rateWrite .firmware 5] })).isSome = true := by decide +kernel
theorem witness_FusesNeverCleared : (nextOf (step z)).isSome = true := by decide +kernel

/-! ### Host access -/

theorem witness_MisalignedHostAccess :
    (Width.w16 ≠ .w32) ∧ (0x100001#26).toNat % 4 ≠ 0 ∧ (0x3FFFFFF#26).toNat % 4 ≠ 0 ∧
      (let u := deliver (usedBy .host (maint z)); pcieUp u = true ∧ u.sess.maint.isSome = true) := by decide +kernel
theorem witness_ReservedRangeAccess :
    (0x10000 ≤ (0x10000#26).toNat ∧ (0x10000#26).toNat < 0x100000) ∧
      (0xE00000 ≤ (0xFFFFFC#26).toNat ∧ (0xFFFFFC#26).toNat < 0x1000000) ∧ 0x2000000 ≤ (0x2000000#26).toNat ∧
      0x2000000 ≤ (0x3FFFFFC#26).toNat ∧ pcieUp (deliver (usedBy .host z)) = true := by decide +kernel
theorem witness_ClosedRangeIsolated :
    z.sess.maint = none ∧ pcieUp z = true ∧ (∀ e ∈ z.pwr.crossings, e.2.waiting = none) ∧ (0x100000 ≤ (0x100000#26).toNat ∧ (0x100000#26).toNat < 0xE00000) ∧ (0x100000#26).toNat % 4 = 0 ∧
      (0x1000000 ≤ (0x1FFFFFC#26).toNat ∧ (0x1FFFFFC#26).toNat < 0x2000000) ∧
      (z.mgt.events.filter (fun e => e.source = 11)).length < 4 ∧ runs (.closedRangeAccess 0x100000 true) z = true := by decide +kernel
/-- R5, worked by hand: a W1C bit written 1 is cleared, and stays 1 where an event sets it in the same cycle. -/
theorem test_w1c :
    let s := withRegs [(Reg.MEM_WIN_STAT, 3)] (maint z)
    (Reg.MEM_WIN_STAT, (0x3 : Word)) ∈ clearedByOnes ∧ (BitVec.ofNat 26 Reg.MEM_WIN_STAT).toNat = Reg.MEM_WIN_STAT ∧
      getReg Reg.MEM_WIN_STAT (after (.hostRegisterWrite (BitVec.ofNat 26 Reg.MEM_WIN_STAT) .w32 ⟨1, 0⟩) s) = 2 ∧
      getReg Reg.MEM_WIN_STAT (after (.hostRegisterWrite (BitVec.ofNat 26 Reg.MEM_WIN_STAT) .w32 ⟨3, 1⟩) s) = 1 := by decide +kernel
/-- A crossing in a state. -/
def withCrossing (off : Nat) (x : Crossing) (s : State) : State := setCrossing (crossingKey off 5) x s

theorem witness_PlainRegisterWrite_crossings :
    let o := Reg.SLV_MODEL_ADDR_LO
    let k := crossingKey o 5
    (let u := deliver (usedBy .host (maint z))
     pcieUp u = true ∧ writesNow .host u = true ∧ (crossingAt (crossingClock k) u).blindTo ≤ now u ∧
     (crossingAt k u).openUntil ≤ now u) ∧
    (let u := deliver (usedBy .host (withCrossing o ⟨7, none, 0⟩ (maint z)))
     pcieUp u = true ∧ writesNow .host u = true ∧ (crossingAt (crossingClock k) u).blindTo ≤ now u ∧
     now u < (crossingAt k u).openUntil ∧ 64 ≤ k ∧ o % 4 = 0 ∧ 0x100000 ≤ o ∧ o < 0xE00000) ∧
    (let u := deliver (usedBy .host (setCrossing (crossingClock k) ⟨0, none, 7⟩ (maint z)))
     pcieUp u = true ∧ writesNow .host u = true ∧ now u < (crossingAt (crossingClock k) u).blindTo) := by decide +kernel
/-- R438, worked by hand: of two writes within one round trip the second waits and the third replaces it, and is sent when the
acknowledgement has returned. -/
theorem test_write_waits :
    let o := BitVec.ofNat 26 Reg.SLV_MODEL_ADDR_LO
    let s := withCrossing Reg.SLV_MODEL_ADDR_LO ⟨7, none, 0⟩ (maint z)
    let t := after (.hostRegisterWrite o .w32 ⟨6, 0⟩) (after (.hostRegisterWrite o .w32 ⟨5, 0⟩) s)
    getReg Reg.SLV_MODEL_ADDR_LO t = 0 ∧ getReg Reg.SLV_MODEL_ADDR_LO (deliver (advance 7 t)) = 6 := by decide +kernel
theorem witness_PlainRegisterWrite :
    (maint z).sess.maint.isSome = true ∧ (BitVec.ofNat 26 Reg.SLV_MODEL_ADDR_LO).toNat = Reg.SLV_MODEL_ADDR_LO ∧
      getReg Reg.SLV_MODEL_ADDR_LO (after (.hostRegisterWrite (BitVec.ofNat 26 Reg.SLV_MODEL_ADDR_LO) .w32 ⟨0x12345678, 0⟩) (maint z)) =
        0x12345678 := by decide +kernel
theorem witness_SolverCounterReads :
    (let u := deliver (usedBy .host (maint z)); pcieUp u = true ∧ writesNow .host u = true) ∧
      (BitVec.ofNat 26 Reg.SLV_ECC_COUNT).toNat ∈ solverCounters := by decide +kernel
/-- R236, worked by hand: a counter at 7 read in the cycle of one increment gives 7 and holds 1. -/
theorem test_solver_counter_read :
    let t := after (.rcRead (BitVec.ofNat 26 Reg.SLV_ECC_COUNT) ⟨.w32, 1⟩) (withRegs [(Reg.SLV_ECC_COUNT, 7)] (maint z))
    t.pcieData = 7 ∧ getReg Reg.SLV_ECC_COUNT t = 1 := by decide +kernel

/-! ### Solver -/

/-- A model of one joint without torque or limit rows. -/
def model0 : Model :=
  ⟨1, 0, false, false, 0, 0, 0, 0, 0, 0, 0, 0, 0, [], [⟨255, 0, 0, List.replicate 9 0, [0, 0, 0], [0, 0, 0], 0, [0, 0, 0],
    List.replicate 6 0, 0, 0, 0⟩]⟩

/-- The solver with DEADLINE 100 and MAX_ITER 8. -/
def slv0 (s : State) : State := withRegs [(Reg.SLV_DEADLINE, 100), (Reg.SLV_MAX_ITER, 8)] s

/-- The solver with a model in effect. -/
def slvModel (s : State) : State := { s with slv := { s.slv with current := some model0 } }

/-- The solver enabled. -/
def slvOn (s : State) : State := withRegs [(Reg.SLV_CTL, 0x80000000)] s

/-- What a solve without tables reads. -/
def input0 : SolveInput := ⟨model0, TaskTable.empty, ConTable.empty, [], 125, none, none⟩

/-- A solve in a phase, with a deadline in cycles. -/
def solve0 (phase deadline : Nat) (e : SolveEnd) : Solve :=
  { input := input0, number := 3, startRoot := 0, startTick := 0, cycle := 0, phase := phase, deadline := deadline,
    maxIter := 8, work := Work.empty, x := [], feasible := if phase = 7 then some [] else none, working := [], iter := 0, phase1Iter := 0,
    pivotFirst := 0xFF, pivotCount := 0, satCount := 0, notes := 0, missing := 0, ending := e, commitAt := 400 }

/-- The solver in a solve. -/
def solving (phase deadline : Nat) (e : SolveEnd) : State :=
  { slvOn (slvModel (slv0 z)) with slv := { (slvModel z).slv with solve := some (solve0 phase deadline e) } }

theorem witness_SolverEnableAndLimits :
    writesNow .firmware z = true ∧ writesNow .host (maint z) = true ∧ regBit Reg.SLV_CTL 31 z = false ∧
      regFld Reg.SLV_DEADLINE 23 0 (withRegs [(Reg.SLV_DEADLINE, 0)] z) = 0 ∧
      (regFld Reg.SLV_DEADLINE 23 0 (slv0 z) ≠ 0 ∧ regFld Reg.SLV_MAX_ITER 9 0 (slv0 z) ≠ 0 ∧ (slv0 z).slv.current = none ∧
        (slv0 z).slv.pending = none ∧ regBit Reg.SLV_CTL 31 (slv0 z) = false) ∧
      (slvModel (slv0 z)).slv.current ≠ none ∧ (solving 1 100 .none).slv.solve ≠ none ∧ z.slv.solve = none ∧
      (fld (0 : Word) 23 0 = 0 ∧ regBit Reg.SLV_CTL 31 (slvOn z) = true) ∧ fld (0xFFFFFF : Word) 23 0 ≠ 0 ∧
      runs (.solverEnable .host) (slvModel (slv0 (maint z))) = true ∧
      runs (.solverLimitWrite .firmware true 1) z = true := by decide +kernel
/-- The image of a model of one revolute joint without an axis (R212, R213); its CRC-32C was computed outside the model. -/
def modelImage : List Byte :=
  slice (wordBytes 0x4C444F4D ++ leBytes 2 1 ++ [1]) 0 64 ++ slice [0xFF, 1, 0xFF] 0 128 ++ wordBytes 0x87E74BC8
/-- That image in DRAM at address 0, and the end of its load. -/
def modelEnd (q : Option Issue) (s : State) : State :=
  { s with dram := (modelImage.zipIdx.filter (fun p => p.1 ≠ 0)).map (fun p => (p.2, p.1))
           slv := { s.slv with loading := some (0, 9000, q) } }

/-- The CRC of the image, in four steps. -/
theorem modelImage_crc : crc32c (slice modelImage 0 192) = wordAt modelImage 192 := by
  have h : slice modelImage 0 192 = slice modelImage 0 48 ++ (slice modelImage 48 48 ++ (slice modelImage 96 48 ++
      slice modelImage 144 48)) := by decide +kernel
  have h1 : (slice modelImage 0 48).foldl (crcByte 0x82F63B78) 0xFFFFFFFF = 0x92BEA1D2 := by decide +kernel
  have h2 : (slice modelImage 48 48).foldl (crcByte 0x82F63B78) 0x92BEA1D2 = 0xEFBBDE41 := by decide +kernel
  have h3 : (slice modelImage 96 48).foldl (crcByte 0x82F63B78) 0xEFBBDE41 = 0x3BBD48B8 := by decide +kernel
  have h4 : (slice modelImage 144 48).foldl (crcByte 0x82F63B78) 0x3BBD48B8 = 0x7818B437 := by decide +kernel
  rw [crc32c, crcRefl, h, List.foldl_append, List.foldl_append, List.foldl_append, h1, h2, h3, h4]
  decide +kernel
theorem modelImage_accepted : modelRefusal modelImage = none := by
  have h0 : leAt modelImage 4 2 = 1 := by decide +kernel
  have h : crc32c (slice modelImage 0 (64 + 128 * 1)) = wordAt modelImage (64 + 128 * 1) := modelImage_crc
  simp only [modelRefusal, h0, h, ne_eq, not_true_eq_false, if_false]
  decide +kernel
theorem witness_ModelLoads_accepted :
    (modelEnd none z).slv.loading = some (0, 9000, none) ∧ modelVerdict 0 (modelEnd none z) = none ∧
      runs .modelLoadComplete (modelEnd none z) = true := by
  have h : rdBytes .dram (0 : Word64).toNat (modelLen 0 (modelEnd none z)) (modelEnd none z) = modelImage := by decide +kernel
  refine ⟨rfl, ?_, rfl⟩
  simp only [modelVerdict, h, modelImage_accepted]
  decide +kernel
theorem witness_ModelLoads_refused :
    let s : State := { port z with slv := { z.slv with loading := some (0, 9000, some byPort) } }
    modelVerdict 0 s = some (0x01, 0) ∧ byPort.via = .port ∧ s.sess.port = some (session .mgtPort) ∧
      runs .modelLoadComplete s = true ∧ s.slv.loading ≠ none ∧ mayIssue byPort Op.loadModel allowHPM s = true ∧
      runs (.loadModel byPort 0) s = true ∧ runs (.modelLoad .firmware 1) s = true := by decide +kernel
theorem witness_ModelLoads :
    bit (1 : Word) 0 = true ∧ bit (2 : Word) 0 = false ∧ writesNow .host (maint z) = true ∧ z.slv.loading = none ∧ mayIssue byPort Op.loadModel allowHPM (port z) = true ∧
      runs (.modelLoad .firmware 1) z = true ∧ runs (.loadModel byPort 0x100) (port z) = true ∧
      runs .modelLoadComplete { z with slv := { z.slv with loading := some (0, 9000, none) } } = true := by decide +kernel
theorem witness_SolveStartsWithTheModelInEffect :
    (slvOn (slvModel z)).slv.solve = none ∧ (slvOn (slvModel z)).slv.current = some model0 ∧
      (slvOn (slvModel z)).slv.pending = none ∧ regBit Reg.SLV_CTL 31 (slvOn (slvModel z)) = true ∧
      1 ≤ (getReg Reg.SOLVER_US z).toNat ∧ runs .solveStart (slvOn (slvModel z)) = true := by decide +kernel
theorem witness_PendingModel :
    let s : State := { z with clk := ⟨1, 0, 0⟩, slv := { z.slv with pending := some (model0, 0) } }
    s.slv.solve = none ∧ s.slv.pending = some (model0, 0) ∧ 0 < now s ∧ runs .solveStart s = true := by decide +kernel
theorem witness_SolvePhasesAndIterations :
    (∀ p ∈ [1, 2, 3, 4, 5], (solve0 p 150000 .none).cycle + phaseCycles input0 p ≤ 150000) ∧
      (∀ p ∈ [6, 7], (solve0 p 150000 .none).cycle + phaseCycles input0 p ≤ 150000) ∧
      (solving 5 150000 .none).slv.solve = some (solve0 5 150000 .none) ∧
      runs (.solvePhaseEnd none) (solving 1 150000 .none) = true ∧
      runs (.qpIterationEnd none) (solving 7 150000 .none) = true := by decide +kernel
theorem witness_SolvesCutShort :
    (∀ p ∈ [1, 2, 3, 5, 6, 7], (solve0 p 0 .none).deadline < (solve0 p 0 .none).cycle + phaseCycles input0 p) ∧
      (solve0 7 0 .none).feasible = some [] ∧ (∀ p ∈ [1, 2, 3, 5], 0 < phaseCycles input0 p) ∧
      getReg Reg.SLV_ECC_COUNT z ≠ 0xFFFFFFFF ∧ runs .solveDeadline (solving 7 0 .none) = true ∧
      runs (.solvePhaseEnd (some 0)) (solving 2 150000 .none) = true ∧
      (∀ p ∈ [6, 7, 8], 0 < phaseCycles input0 p) ∧ (∀ a b, (SolveEnd.fresh 2) ≠ .copied a b) ∧
      runs (.solvePhaseEnd (some 0)) (solving 8 150000 (.fresh 2)) = true ∧
      runs (.qpIterationEnd (some 0)) (solving 6 150000 .none) = true := by
  refine ⟨by decide +kernel, by decide +kernel, by decide +kernel, by decide +kernel, by decide +kernel, by decide +kernel,
    by decide +kernel, ?_, by decide +kernel, by decide +kernel⟩
  intro a b h
  cases h
theorem witness_SolveRecords :
    (solve0 8 0 (.fresh 2)).ending ≠ .none ∧ (solving 8 0 (.copied 0x0040 3)).slv.prevOk = false ∧
      regBit Reg.SLV_CTL 31 (solving 8 0 (.fresh 2)) = true ∧ runs .solveCommit (solving 8 0 (.copied 0x0040 3)) = true := by
  decide +kernel
/-- A previous record of zeros. -/
def record0 : Record :=
  ⟨1, 0, 0, 254, 0, false, 0, 0, 0, 0, 0xFF, 0, 0, 0, 0, 0, 0, 0, 0, 1, [], []⟩
theorem witness_SolveRecords_copied :
    let s := { solving 8 0 (.copied 0x0040 3) with slv := { (solving 8 0 (.copied 0x0040 3)).slv with
      prevOk := true, records := [(0, record0)] } }
    s.slv.prevOk = true ∧ s.slv.records.head?.map (·.2) = some record0 ∧ runs .solveCommit s = true := by decide +kernel
theorem witness_SolveCommitsBeforeNextStart :
    125 ≤ input0.periodUs ∧ qpVars input0 ≤ 64 ∧
      (let s := slvOn (slvModel z)
       s.slv.solve = none ∧ s.slv.current = some model0 ∧ s.slv.pending = none ∧ regBit Reg.SLV_CTL 31 s = true ∧
       125 ≤ (getReg Reg.SOLVER_US s).toNat ∧ model0.ndof + model0.nf ≤ 64) ∧
      (let x := solve0 7 0 .none
       x.deadline < x.cycle + phaseCycles x.input x.phase ∧ x.deadline + phaseCycles x.input 8 < 1200 * x.input.periodUs ∧
       x.deadline + 120 < 1200 * x.input.periodUs) := by decide +kernel

/-! ### Jobs -/

/-- A descriptor for one column from column 0, handle 3. -/
def desc0 : JobDesc := { JobDesc.zero with jobId := 7, handle := 3 }

/-- A waiting job that is ready. -/
def job0 : Job := { newJob 1 0 (some 0) none desc0 false 1 with readyAt := some 0 }

/-- Memory is trained. -/
def trained (s : State) : State := withRegs [(Reg.MEM_POP, 0x80000111)] s

/-- The device with jobs. -/
def withJobs (js : List Job) (s : State) : State := { s with disp := { s.disp with jobs := js, nextUid := 9 } }

/-- A header of one tile. -/
def hdr0 : AlmHeader := ⟨260, 1, 0, 1, 0, 100, 0, 0, 0⟩

/-- What handle 3 records. -/
def info0 : HandleInfo := ⟨hdr0, 0x1000000, [], 0, [], false⟩

/-- Handle 3 is registered. -/
def withHandle (i : HandleInfo) (s : State) : State := setHandle 3 (some i) s

/-- Host queue 0 is enabled with 4 entries and one to fetch, a descriptor of handle `h`. -/
def withQueue (h : Byte) (s : State) : State :=
  hostStore 0x100 [7, 0, h] (withRegs [(Reg.JQq_STAT 0, 0x80000000), (Reg.JQq_TAIL 0, 1)] (setRing 0 ⟨0x100, 4, 0x1000, 0⟩ s))

theorem witness_JobsEnterTheDevice :
    (host z).sess.host.isSome = true ∧ regBit Reg.DEV_STATUS 30 (host z) = false ∧
      (z.sess.host = none ∧ z.sess.maint = none) ∧ runs (.jobDoorbell 0 1) (host z) = true ∧
      (let s := withQueue 3 (withHandle info0 z)
       let d := parseJob (hostBytes ((getRing 0 s).ring.toNat + 0) 96 s)
       dispatcherUp s = true ∧ regBit (Reg.JQq_STAT 0) 31 s = true ∧ (getRing 0 s).size ≠ 0 ∧ (getRing 0 s).size ≤ 65535 ∧
       regFld (Reg.JQq_STAT 0) 15 0 s ≠ (getReg (Reg.JQq_TAIL 0) s).toNat % (getRing 0 s).size ∧
       (∀ j ∈ s.disp.jobs, j.uid < s.disp.nextUid) ∧ descriptorReason d s = none ∧ runs (.jobFetch 0) s = true) := by decide +kernel
theorem witness_JobsEnterTheDevice_refused :
    let s := withQueue 5 (withHandle info0 z)
    let d := parseJob (hostBytes ((getRing 0 s).ring.toNat + 0) 96 s)
    descriptorReason d s = some 18 ∧ runs (.jobFetch 0) s = true := by decide +kernel

/-- Standing entry 0 is enabled. -/
def withEntry (s : State) : State := setStandingEntry 0 ⟨true, 8, desc0, false, none, 1⟩ s

theorem witness_JobsEnterTheDevice_standing :
    let s := withEntry (withHandle info0 z)
    (getStanding 0 s).enabled = true ∧ (getStanding 0 s).relDay ≠ some (getReg Reg.DAY_NUM s) ∧
      (getStanding 0 s).desc.releaseUs < (getReg Reg.DAY_US s).toNat ∧ (∀ j ∈ s.disp.jobs, j.entry ≠ some 0) ∧
      runs (.standingRelease 0) s = true := by decide +kernel
/-- A device that can dispatch `job0`. -/
def ready0 : State := withJobs [job0] (withHandle info0 (trained z))

theorem witness_DispatchHoldsColumns :
    dispatcherUp ready0 = true ∧ regBit Reg.MEM_POP 31 ready0 = true ∧ chooseJob ready0 = some job0 ∧
      runs .jobDispatch ready0 = true := by decide +kernel
theorem witness_DispatchHoldsColumns_checks :
    let i := { info0 with hdr := { info0.hdr with tileCount := 97 } }
    let s := withJobs [job0] (withHandle i (trained z))
    (handleInfo job0.desc.handle ready0).bind (fun i => dispatchCheck (dispatchedJob job0 [] ready0) i (takePoint ready0)) = none ∧
      chooseJob s = some job0 ∧ (handleInfo job0.desc.handle s).bind (fun i =>
        dispatchCheck (dispatchedJob job0 [] s) i (takePoint s)) = some ⟨0, 7, 0xFFFFFFFF⟩ ∧ runs .jobDispatch s = true := by
  decide +kernel
/-- R31, worked by hand: after the dispatch column 0 shows HELD, handle 3 and JOB_ID 7. -/
theorem test_dispatch_owner : getReg (Reg.FAB_COLn_OWNER 0) (after .jobDispatch ready0) = 0x80C00007 := by decide +kernel
theorem witness_DispatchFollowsOrder :
    ready0.day.sharesMode = false ∧ chooseJob ready0 = some job0 ∧ job0 ∈ ready0.disp.jobs ∧ mayDispatch job0 ready0 = true ∧
      isCandidate job0 ready0 = true ∧ shareCol job0 job0 = true := by decide +kernel
theorem witness_HandlesComeAndGo :
    let s := withHandle info0 z
    regBit Reg.FAB_LOAD_STAT 31 s = false ∧ handleInfo (3#6).toNat s = some info0 ∧
      ((∀ j ∈ s.disp.jobs, j.desc.handle ≠ (3#6).toNat) ∧ ∀ e < 16, (getStanding e s).enabled = false) ∧
      runs (.regCmdRetire .firmware 3) s = true ∧ mayIssue byPort Op.retire allowHPM (port s) = true ∧
      handleInfo (3#8).toNat (port s) = some info0 ∧ runs (.retire byPort 3) (port s) = true := by decide +kernel
theorem witness_HandlesComeAndGo_busy :
    let s := withJobs [job0] (withHandle info0 z)
    (∃ j ∈ s.disp.jobs, j.desc.handle = (3#6).toNat) ∧ runs (.regCmdRetire .firmware 3) s = true := by decide +kernel
theorem witness_HandlesComeAndGo_retired :
    let s := withHandle { info0 with retiring := true } z
    handleInfo 3 s = some { info0 with retiring := true } ∧ (∀ j ∈ s.disp.jobs, j.desc.handle ≠ 3) ∧
      runs (.handleRetired 3) s = true := by decide +kernel
theorem witness_HandlesComeAndGo_register :
    z.disp.active = none ∧ z.disp.loads = [] ∧ regBit Reg.FAB_LOAD_STAT 31 z = false ∧
      runs (.regCmdRegister .firmware) z = true ∧ runs (.register byPort 0) (port z) = true := by decide +kernel
/-- A registration of the zeros at address 0 is refused at its end. -/
theorem witness_HandlesComeAndGo_refused :
    let s : State := { z with disp := { z.disp with active := some (.registration 0 none, 0, 0) } }
    let r := { s with flits := ⟨0, some 8⟩ }
    judgeStream s.flits.bad 0 s = .refused 1 ⟨0, 1, 0⟩ ∧ runs .registrationComplete s = true ∧
      judgeStream r.flits.bad 0 r = .ecc 8 ∧ runs .registrationComplete r = true := by decide +kernel

/-! A shortest image that registration accepts: three empty sections (R38 to R42), written byte by byte. -/

/-- The header but its CRC (0x9754D0D8): MAGIC, version 1.0, 132 bytes, 64 of header, three sections, one tile, ring size 1. -/
def imageHead : List Byte :=
  slice (wordBytes 0x4E4D4C41 ++ leBytes 2 1 ++ leBytes 2 0 ++ leBytes 4 132 ++ leBytes 2 64 ++ leBytes 2 3 ++ leBytes 2 1 ++
    [0, 1, 0]) 0 0x3C
/-- A section table entry of an empty section at 128. -/
def section0 (type : Nat) : List Byte := slice (leBytes 4 type ++ leBytes 4 128) 0 16
/-- The image but its CRC, which is 0x8007ECF0. -/
def imageBody : List Byte :=
  slice (imageHead ++ wordBytes 0x9754D0D8 ++ section0 1 ++ section0 3 ++ section0 4) 0 128
/-- The image. -/
def image0 : List Byte := imageBody ++ wordBytes 0x8007ECF0
/-- The image in DRAM at 0x1000000. -/
def withImage (s : State) : State :=
  { s with dram := (image0.zipIdx.filter (fun p => p.1 ≠ 0)).map (fun p => (0x1000000 + p.2, p.1)) }

theorem test_image_good : judge 0x1000000 (withImage z) = .accepted (parseImage image0) := by decide +kernel

theorem witness_HandlesComeAndGo_accepted :
    let s : State := { withImage z with disp := { z.disp with active := some (.registration 0x1000000 none, 0, 0) } }
    judgeStream s.flits.bad 0x1000000 s = .accepted (parseImage image0) ∧ freeHandles s ≠ [] ∧
      runs .registrationComplete s = true := by
  decide +kernel

/-- What handle 3 records of that image, and a job of it that loads. -/
def info1 : HandleInfo := ⟨⟨132, 1, 0, 1, 0, 0, 0, 0x9754D0D8, 0x8007ECF0⟩, 0x1000000, [], 0, [], false⟩
/-- `job0`, dispatched. -/
def loading0 : Job := { job0 with stage := .loading, held := true }
/-- The device about to load it. -/
def load0 (i : HandleInfo) (s : State) : State :=
  { withJobs [loading0] (withHandle i s) with disp := { (withJobs [loading0] (withHandle i s)).disp with loads := [.load 1] } }
/-- The device that loads it. -/
def load1 (i : HandleInfo) (s : State) : State :=
  { load0 i s with disp := { (load0 i s).disp with loads := [], active := some (.load 1, 0, 9000) } }

theorem witness_LoadsRun :
    let s := load0 info0 z
    s.disp.active = none ∧ s.disp.loads = [.load 1] ∧ getJob 1 s = some loading0 ∧
      handleInfo loading0.desc.handle s = some info0 ∧ runs .loadStart s = true := by decide +kernel
theorem witness_LoadsRun_good :
    let s := load1 info1 (withImage z)
    s.disp.active = some (.load 1, 0, 9000) ∧ getJob 1 s = some loading0 ∧ handleInfo loading0.desc.handle s = some info1 ∧
      s.marks = [] ∧ s.flits.bad = none ∧ isRingJob loading0 = false ∧ loading0.held = true := by decide +kernel
theorem witness_LoadsRun_stream : streamImage info1 (load1 info1 (withImage z)) = .good image0 := by decide +kernel
theorem witness_LoadsRun_header :
    let s : State := { load1 info0 (withImage z) with flits := ⟨1, some 80⟩ }
    streamWith s.flits.bad info0 s = .refused ⟨0, 3, 0x3C⟩ 64 ∧ runs .loadComplete s = true := by decide +kernel

/-! ### A partition's schedule -/

/-- A copy descriptor: 8 bytes of DRAM at its base to the weight bank (R101). -/
def copyDesc (kind : Byte) : Desc := ⟨1, 0, slice [1, 0, 0, kind] 0 32⟩
/-- A compression operator of one line of one element (R135), an operator that reads and writes the activation bank. -/
def opDesc : Desc := ⟨0x13, 32, slice [0x13, 1] 0 32⟩
/-- Tile 0 and tile 1 with buffers and an operator. -/
def tile0 (n : Nat) : TileRec := ⟨n, 128, 2, 0, 1, 0, 0, 0, 0, 0, 0, 0, 0, [copyDesc 0, copyDesc 3, opDesc, copyDesc 2], true⟩
/-- A schedule record of an action that names a descriptor. -/
def record (action desc length : Nat) : SchedRec := ⟨0, 0, 1, 1, 0, action, 0, desc, 0, length, 5⟩
/-- An image with one record of each action, and one copy of length 0. -/
def image1 : Image :=
  ⟨hdr0, [tile0 0, tile0 1], [⟨0, 0, 0, 0, 0, 1, 1, 8⟩],
    [record 1 1 8, record 2 1 8, record 3 0 8, record 4 2 0, record 5 3 8, record 1 1 0], [], []⟩
/-- A run of it at its first cycle. -/
def run0 : Run := ⟨image1, 0, 0, none, [], [], [], [], 0, [], [], [], [], [], [], 0⟩
/-- A job that runs. -/
def running (r : Run) : Job := { loading0 with stage := .running, run := some r }
/-- The device that runs it. -/
def runState (r : Run) : State := withJobs [running r] (withHandle info0 z)
/-- A copy of 8 bytes in flight to bank 0 of tile 0. -/
def flight0 (w : Option Bool) : Flight := ⟨0, 0, 0, [.bank 0 0 0 [1, 2, 3, 4, 5, 6, 7, 8]], 5, w, 0, 3, 0, 0, none, none⟩

/-- A device that has noted no bank write is quiet at every address, which the witnesses below use. -/
theorem quietBank_of_no_notes {s : State} (h : s.bankLog = []) (tile bank addr n : Nat) : quietBank tile bank addr n s := by
  intro e he
  rw [h] at he
  cases he
theorem witness_CopiesRun_begin :
    let s := runState run0
    s.marks = [] ∧ (∃ x, instanceOf 1 0 0 0 s = some x ∧ instanceOf 1 0 0 0 (stoodAt 0 x s) = some x ∧
      (stoodAt 0 x s).marks = [] ∧ descOf x.run.image x.rec_ = some (copyDesc 3) ∧ align8 x.rec_.length ≠ 0 ∧
      (extBase x.job (parseCopy (copyDesc 3)).extKind x.rec_.buf s).1 = .at_ .dram 0) ∧
      (copyDesc 3).dtype = 1 ∧ (parseCopy (copyDesc 3)).weight = false ∧ runs (.copyIn 0 0 0) s = true := by
  refine ⟨rfl, ⟨⟨running run0, { run0 with begun := [(0, 0)] }, record 1 1 8, 0⟩, ?_⟩, ?_⟩ <;> decide +kernel
theorem witness_CopiesRun_out :
    let s := runState run0
    (∃ x, instanceOf 2 0 1 0 s = some x ∧ instanceOf 2 0 1 0 (stoodAt 0 x s) = some x ∧
      getJob x.job.uid s = some x.job ∧ descOf x.run.image x.rec_ = some (copyDesc 3) ∧ align8 x.rec_.length ≠ 0 ∧
      (extBase x.job (parseCopy (copyDesc 3)).extKind x.rec_.buf s).1 = .at_ .dram 0 ∧
      (lockedOut x.job.uid (parseCopy (copyDesc 3)).extKind x.rec_.buf s).1 = false) ∧ runs (.copyOut 0 1 0) s = true := by
  refine ⟨⟨⟨running run0, { run0 with begun := [(1, 0)] }, record 2 1 8, 0⟩, ?_⟩, ?_⟩ <;> decide +kernel
theorem witness_CopiesRun_commit :
    let s := runState run0
    (∃ x, instanceOf 5 0 4 0 s = some x ∧ instanceOf 5 0 4 0 (stoodAt 0 x s) = some x ∧
      descOf x.run.image x.rec_ = some (copyDesc 2) ∧ align8 x.rec_.length ≠ 0 ∧
      (match (extBase x.job (parseCopy (copyDesc 2)).extKind x.rec_.buf s).1 with | .at_ _ _ => true | _ => false) = true ∧
      (lockedOut x.job.uid (parseCopy (copyDesc 2)).extKind x.rec_.buf s).1 = false) ∧ runs (.commit 0 4 0) s = true := by
  refine ⟨⟨⟨running run0, { run0 with begun := [(4, 0)] }, record 5 3 8, 0⟩, ?_⟩, ?_⟩ <;> decide +kernel
theorem witness_CopiesRun_none :
    (∃ x, instanceOf 1 0 5 0 (runState run0) = some x ∧ instanceOf 1 0 5 0 (stoodAt 0 x (runState run0)) = some x ∧ align8 x.rec_.length = 0) ∧ runs (.copyIn 0 5 0) (runState run0) = true := by
  refine ⟨⟨⟨running run0, { run0 with begun := [(5, 0)] }, record 1 1 0, 0⟩, ?_⟩, ?_⟩ <;> decide +kernel
theorem witness_CopiesRun_complete :
    let r := { run0 with copies := [flight0 none] }
    let s := runState r
    runAt 0 s = some (running r, r) ∧ r.copies.find? (fun f => f.rec_ = 0 && f.inst = 0) = some (flight0 none) ∧
      (flight0 none).ring = none ∧ (flight0 none).weight ≠ some false ∧
      (flight0 none).pieces = [.bank 0 0 0 [1, 2, 3, 4, 5, 6, 7, 8]] ∧ 8 ≤ bankSize 0 ∧ r.heldFrom = none ∧ s.bankLog = [] ∧
      runs (.copyComplete 0 0 ⟨0, 1, false⟩) s = true ∧ runs (.copyDue 0 0 0) s = true := by decide +kernel
theorem witness_CopiesRun_weight :
    let r := { run0 with copies := [flight0 (some false)] }
    let s := withJobs [{ running r with desc := { desc0 with restartLimit := 1 } }] z
    (runAt 0 s).isSome = true ∧ getReg Reg.MEM_CRCW_COUNT s ≠ 0xFFFFFFFF ∧ isRingJob (running r) = false ∧
      (running r).proof = none ∧ runs (.copyComplete 0 0 ⟨0, 0, false⟩) s = true := by decide +kernel
theorem witness_RoutesAndStages :
    let s := runState run0
    (∃ x, instanceOf 3 0 2 0 s = some x ∧ instanceOf 3 0 2 0 (stoodAt 0 x s) = some x ∧
        ((routesOf x.run.image x.rec_).head?).isSome = true) ∧
      (bufferOf image1 0 0).isSome = true ∧ (bufferOf image1 1 0).isSome = true ∧ runs (.send 0 2 0) s = true ∧
      (∃ x, instanceOf 4 0 3 0 s = some x ∧ instanceOf 4 0 3 0 (stoodAt 0 x s) = some x ∧ descOf x.run.image x.rec_ = some opDesc ∧
        tileRec x.run.image x.rec_.tile = some (tile0 0)) ∧ opDesc.dtype ≠ 0x20 ∧ runs (.stageStart 0 3 0) s = true := by
  refine ⟨⟨⟨running run0, { run0 with begun := [(2, 0)] }, record 3 0 8, 0⟩, ?_⟩, ?_, ?_, ?_,
    ⟨⟨running run0, { run0 with begun := [(3, 0)] }, record 4 2 0, 0⟩, ?_⟩, ?_, ?_⟩ <;> decide +kernel
theorem witness_RoutesAndStages_word :
    let w : WordFlight := ⟨0, 0, 0, [1, 2, 3, 4, 5, 6, 7, 8], 9⟩
    let r := { run0 with words := [w] }
    runAt 0 (runState r) = some (running r, r) ∧ firstWord r.words = some w ∧ heldBefore r w.cycle = false ∧
      w.data.length = 8 ∧ (runState r).bankLog = [] ∧ runs (.routeDelivery 0) (runState r) = true := by decide +kernel
theorem witness_RoutesAndStages_end :
    let o : OpFlight := ⟨0, 3, 0, 9⟩
    let r := { run0 with ops := [o] }
    let s := runState r
    s.marks = [] ∧ runAt 0 s = some (running r, r) ∧ firstOp r.ops (fun o => o.tile = 0) = some o ∧ heldBefore r o.endCycle = false ∧
      r.image.sched[o.rec_]? = some (record 4 2 0) ∧ tileRec r.image 0 = some (tile0 0) ∧
      descOf r.image (record 4 2 0) = some opDesc ∧
      (let u := atCycle r 9 s
       runOp opDesc ⟨absTile (running r) 0, 1, truncOf 0⟩ 0 0 [] true (bankView (cycleBefore (now u) u) u)).fail = none ∧
      runs (.stageEnd 0 0) s = true := by decide +kernel
/-- A run whose schedule is over. -/
def ended0 : Run := { run0 with begun := (List.range 6).map (fun i => (i, 0)) }
theorem witness_JobsEnd :
    let s := runState ended0
    endingAt 0 s = some (running ended0, ended0) ∧ (running ended0).width ≠ 0 ∧
      (let u := settle 0 ended0.image.hdr.schedLen (atCycle ended0 ended0.image.hdr.schedLen s)
       (getJob 1 u).elim false (fun k => decide (k.stage = .running) && k.run.isSome) = true) ∧ allBegun ended0 = true ∧ outInFlight ended0 = false ∧
      heldBefore ended0 ended0.image.hdr.schedLen = false ∧ runs (.jobLastCycle 0) s = true := by decide +kernel
theorem witness_JobsEnd_save :
    let r := { run0 with image := { image1 with states := [⟨0, 0, 0, 0, 8, 0⟩] } }
    let j := { running r with stage := .saving, entry := some 0 }
    let s := withJobs [j] (withHandle info0 z)
    s.marks = [] ∧ s.flits.bad = none ∧ savingAt 0 s = some j ∧ j.held = true ∧ j.run = some r ∧ j.proof = none ∧ getJob j.uid s = some j ∧
      isRingJob j = false ∧ (∀ x ∈ s.saf.runs, x.uid ≠ j.uid) ∧
      (∀ i < 8, dramHas ((saveBase j + 0 + i) % 2 ^ 64) s = true) ∧ 8 ≤ bankSize 0 ∧
      runs (.partitionRelease 0) s = true ∧ runs (.jobEnd 0) s = true := by decide +kernel
theorem witness_JobsEnd_output :
    let i := { info0 with bounds := [⟨0, 2, 4, 0, 8⟩] }
    let s := withJobs [running run0] (withHandle i z)
    4 ∈ outputsOf (running run0) s ∧ backLocked (getHandoff (fabricKey 4) s) = false := by decide +kernel

/-! ### Memory -/

theorem witness_HostWindow_held :
    let s := withRegs [(Reg.MEM_WIN_PAGE, 1), (Reg.FAB_COLn_OWNER 0, 0x80C00007)] (maint z)
    s.sess.maint.isSome = true ∧ winTarget (0#24).toNat s = .held ∧ runs (.windowAccess 0 ⟨.w32, none⟩) s = true ∧
      runs (.windowAccess 0 ⟨.w32, some 5⟩) s = true ∧ (Width.w8 ≠ .w32) ∧ (2#24).toNat % 4 ≠ 0 := by decide +kernel
theorem witness_HostWindow_unmapped :
    winTarget (0x800000#24).toNat (maint z) = .unmapped ∧
      winTarget (0#24).toNat (withRegs [(Reg.MEM_WIN_PAGE, 97)] (maint z)) = .unmapped ∧
      runs (.windowAccess 0x800000 ⟨.w32, none⟩) (maint z) = true := by decide +kernel
theorem witness_HostWindow_at :
    winTarget (0x7FFFFC#24).toNat (maint z) = .at_ .stage 0x7FFFFC ∧ marksIn .stage 0x7FFFFC 4 true (maint z) = [] ∧
      winTarget (0x13FFFC#24).toNat (withRegs [(Reg.MEM_WIN_PAGE, 96)] (maint z)) = .at_ .bank (95 * 2 ^ 21 + 0x13FFFC) ∧
      (maint z).bankLog = [] ∧ runs (.windowAccess 0x7FFFFC ⟨.w32, some 0xFFFFFFFF⟩) (maint z) = true := by decide +kernel
theorem witness_HostWindow_marks :
    let s := { maint z with marks := [⟨.stage, 0, true⟩] }
    marksIn .stage 0 4 true s ≠ [] ∧ regBit Reg.MEM_ERR_INFO 31 s = false ∧ runs (.windowAccess 0 ⟨.w32, none⟩) s = true := by decide +kernel

/-- Populations: the largest and the smallest that R111 allows, and one that it does not allow. -/
def caps3 : List Nat := List.replicate 16 3 ++ List.replicate 8 2
theorem witness_MemoryTrainsAndRefreshes :
    let s := { z with pwr := { z.pwr with trainAt := some 9000 } }
    populationOk caps3 = true ∧ populationOk (List.replicate 24 1) = true ∧ populationOk (List.replicate 24 3) = false ∧
      populationOk [] = false ∧ s.pwr.trainAt = some 9000 ∧ runs (.memTrainingComplete caps3) s = true ∧
      runs (.memTrainingComplete []) s = true := by decide +kernel
theorem witness_MemoryTrainsAndRefreshes_refresh :
    let s := { trained z with marks := [⟨.dram, 0, false⟩, ⟨.dram, 64, false⟩, ⟨.bank, 0, false⟩] }
    regBit Reg.MEM_POP 31 s = true ∧ (after (.refresh ⟨0, true, [], ⟨2, none⟩⟩) s).marks = [⟨.dram, 64, false⟩, ⟨.bank, 0, false⟩] ∧
      runs (.refresh ⟨23, false, [], ⟨0, none⟩⟩) s = true := by decide +kernel
/-- R112: 24 channels of 1 GiB, ⌊2^30 / 576⌋ = 1 864 135 granules of 512 bytes each. -/
theorem test_capacity : dataCapacity 0x80000111 = 24 * 512 * 1864135 := by decide +kernel
/-- R113 with channels of 2, 1 and 2 GiB: the first granule of region B is on channel 0, the second row's group 1 is left
out, so channel 16 follows channel 7. -/
theorem test_granule_b : granuleAddr 0 1864135 0x80000212 = regionA 0x80000212 ∧
    granuleAddr 16 1864135 0x80000212 = regionA 0x80000212 + 512 * 8 := by decide +kernel
theorem witness_GranulesTileTheAddressSpace :
    (1 ≤ 1 ∧ 3 ≤ 3) ∧ 23 < 24 ∧ granules 3 - 1 < granules (channelCap 23 (word (2 ^ 31 + 3 * 2 ^ 8 + 1 * 2 ^ 4 + 2))) := by
  decide +kernel

/-! ### The Postbox, the day and the host -/

theorem witness_DaySettingsAndOperatingPoint_set :
    mayIssue byPort Op.setDay allowPM (port z) = true ∧ notMaster (port z) = false ∧ dayOk 1000 500 (nextPeriod (port z)) = true ∧
      dayOk 100000 125 (nextPeriod (port z)) = true ∧ dayOk 999 500 (nextPeriod (port z)) = false ∧
      (500#32).toNat ≤ (1000#32).toNat / 2 ∧ ¬((501#32).toNat ≤ (1000#32).toNat / 2) ∧
      runs (.setDay byPort 1000 500 500) (port z) = true ∧ runs (.setDay byPort 1000 0 500) (port z) = true ∧
      runs (.setMode byPort 1 (List.replicate 16 1)) (port z) = true ∧
      runs (.setMode byPort 0 (List.replicate 16 0)) (port z) = true := by decide +kernel
theorem witness_DaySettingsAndOperatingPoint_boundary :
    let s := withRegs [(Reg.SRV_STAT, bits 29 29 1)] { z with day := { z.day with pending := some ⟨1000, 500, 500⟩, pendMode := some (true, []) } }
    s.day.pending = some ⟨1000, 500, 500⟩ ∧ s.day.pendMode = some (true, []) ∧ regBit Reg.SRV_STAT 29 s = true ∧
      z.day.pending = none ∧ runs .dayBoundary s = true ∧ z.day.inSlot = false ∧ runs .intercalarySlotStart (withJobs [job0] z) = true ∧
      (withJobs [job0] z).disp.jobs = [job0] ∧ job0.readyAt.isSome = true := by decide +kernel
theorem witness_DaySettingsAndOperatingPoint_point :
    writesNow .firmware z = true ∧ fld (2 : Word) 1 0 ≤ 2 ∧ fld (3 : Word) 1 0 = 3 ∧ (2#8).toNat ≤ 2 ∧
      runs (.opPointRequest .firmware 2) z = true ∧ runs (.setOpPoint byPort 2) (port z) = true ∧
      (let s := withRegs [(Reg.FAB_OP_STAT, 4), (Reg.FAB_OP_CTL, 1)] z
       regBit Reg.FAB_OP_STAT 2 s = true ∧ now s = s.day.start ∧ s.disp.jobs = [] ∧ runs .opPointChange s = true ∧
       ∃ j ∈ (withJobs [loading0] s).disp.jobs, j.held = true) := by decide +kernel
theorem witness_DispatcherCommands_queue :
    let q : QueueCtl := ⟨7, 1, 4, 0x100, 0x1000⟩
    mayIssue byPort Op.queueCtl allowHPM (port z) = true ∧ q.queue.toNat < 8 ∧ q.enable ≠ 0 ∧ byPort.via ≠ .host ∧
      runs (.queueCtl byPort q) (port z) = true ∧
      (let s := host (withRegs [(Reg.DEV_STATUS, 0xC0000000)] z)
       (Issue.mk .host 0).via = .host ∧ regBit Reg.DEV_STATUS 30 s = true ∧ mayIssue ⟨.host, 0⟩ Op.queueCtl allowHPM s = true ∧
       runs (.queueCtl ⟨.host, 0⟩ q) s = true) ∧ runs (.queueCtl byPort { q with enable := 0 }) (port z) = true := by decide +kernel
theorem witness_DispatcherCommands :
    2 ≤ (2#8).toNat ∧ (15#8).toNat ≤ 15 ∧ runs (.handoff byPort 15 0 8) (port z) = true ∧ (port z).marks = [] ∧
      (8 ≤ (8#8).toNat ∧ (14#8).toNat ≤ 14) ∧ (15#8).toNat < 16 ∧ runs (.setStanding byPort 15 0 8 0) (port z) = true ∧
      (let s := setHandle 0 (some info0) (port z)
       descriptorReason (parseJob (rdBytes .dram (0#64).toNat 96 s)) s = none ∧ s.marks = [] ∧
       runs (.setStanding byPort 0 1 14 0) s = true) ∧
      descriptorReason (parseJob (rdBytes .dram (0#64).toNat 96 (port z))) (port z) ≠ none := by decide +kernel
theorem witness_DispatcherCommands_handles :
    ∀ h x, handleInfo h (setHandle 0 (some info0) (port z)) = some x → x.retiring = false := by
  intro h x e
  unfold handleInfo setHandle at e
  by_cases hh : h = 0
  · subst hh
    have : x = info0 := by
      simpa [port, z, cold, withRegs, setReg, State.reset, tget, tset, terase, tinsert] using e.symm
    subst this; rfl
  · have : ¬ (0 = h) := fun e => hh e.symm
    simp [port, z, cold, withRegs, setReg, State.reset, tget, tset, terase, tinsert, this] at e
theorem witness_DispatcherCommands_ledger :
    (port z).disp.discarding = false ∧ byPort.via = .port ∧ runs (.readLedger byPort 0x1000) (port z) = true ∧
      runs (.readLedger ⟨.host, 0⟩ 0x1000) (host z) = true ∧ mayIssue ⟨.host, 0⟩ Op.readLedger allowHPM (host z) = true ∧
      (host z).disp.discarding = false ∧ (host z).disp.cmds = [] ∧
      (let c : CmdSlot := ⟨⟨.host, 0⟩, Op.loadModel, none, false⟩
       let s := { host z with disp := { (host z).disp with cmds := [c] } }
       s.disp.cmds = c :: [] ∧ c.entry = none ∧ (∀ c ∈ s.disp.cmds, c.op ≠ Op.readLedger) ∧
       runs (.readLedger ⟨.host, 0⟩ 0x1000) s = true) := by decide +kernel
theorem witness_HostLossKeepsTheDevice :
    (host z).sess.host.isSome = true ∧ dispatcherUp (host z) = true ∧ mayIssue ⟨.host, 0⟩ Op.close allowH (host z) = true ∧
      runs .heartbeat (host z) = true ∧ runs .hostLost (host z) = true ∧ runs (.close ⟨.host, 0⟩) (host z) = true := by decide +kernel

/-! ### Power and reset -/

/-- A device with PORST_N high and its PLL locked. -/
def powered (s : State) : State := { locked s with pwr := { (locked s).pwr with porst := true } }

theorem witness_WarmResets :
    let s := powered (maint z)
    s.pwr.porst = true ∧ deviceReset s = false ∧ s.pwr.seq = none ∧ postmasterUp s = true ∧
      postmasterUp (withRegs [(Reg.MGT_CORE_STAT, 0x40)] s) = false ∧
      runs .wdt (withRegs [(Reg.MGT_CORE_STAT, 0x40)] s) = true ∧ runs .pcieReset s = true ∧
      ((699#16).toNat < (vmonWindow 0).1 ∧ (vmonWindow 5).2 < (1951#16).toNat) ∧
      ((vmonWindow 0).1 ≤ (700#16).toNat ∧ (800#16).toNat ≤ (vmonWindow 0).2) ∧ 920 < (921#16).toInt ∧
      writesNow .host s = true ∧ regBit Reg.PWR_RST_CFG 0 s = false ∧ s.sess.host = none ∧
      regBit Reg.PWR_RST_CFG 0 (withRegs [(Reg.PWR_RST_CFG, 1)] s) = true ∧ (host s).sess.host.isSome = true ∧
      dispatcherUp (host s) = true := by decide +kernel
theorem witness_WarmResets_runs :
    let s := powered (maint z)
    runs .sysrst s = true ∧ runs .pllLoss s = true ∧ runs (.vmon 0 699) s = true ∧ runs (.vmon 0 700) s = true ∧
      runs (.therm 23 921) s = true ∧ runs (.tempSample 23 921) s = true ∧ runs .wdt s = true ∧ runs (.pwrRstCmd .host 0x52535443) s = true ∧
      runs .pcieReset (host s) = true := by decide +kernel
theorem witness_WarmResets_again :
    let s := { powered z with pwr := { (powered z).pwr with inReset := true } }
    s.pwr.porst = true ∧ deviceReset s = true ∧ s.pwr.inReset = true ∧ runs .sysrst s = true ∧
      (let u := { cold with pwr := { cold.pwr with porst := true } }
       u.pwr.porst = true ∧ deviceReset u = true ∧ runs .sysrst u = true) := by decide +kernel

/-! A bank of four firmware images without bodies (R458). The key pair is the one of d = 0x1234567890ABCDEF1122334455667788;
the signatures were computed outside the model from the definition of ECDSA. -/

/-- The 256 bytes of core `c`'s image with the signature (r, s). -/
def fwImage (c r s : Nat) : List Byte :=
  wordBytes 0x57465A44 ++ [BitVec.ofNat 8 c, 1, 0, 0] ++ wordBytes (word (256 + c)) ++ leBytes 4 0 ++
    beBytes 32 0xf9ebedceb69ab0a5223a04f7055404405e66b073e2929fb798a4a9a96b26ecea ++
    beBytes 32 0xaa2ee7ca58381eb1e2ce699604b38b1f693b30c564749e4d9142ab3b8f06c6 ++ List.replicate 48 0 ++ beBytes 32 r ++
    beBytes 32 s ++ List.replicate 64 0xFF
def fwImage0 : List Byte := fwImage 0 0x5ecbe4d1a6330a44c8f7ef951d4bf165e6c6b721efada985fb41661bc6e7fd6c
  0xf2f98a08225e3aec62918ad7a7dd78813532a10a756d49352a52ed63a5fbc9e6
def fwImage1 : List Byte := fwImage 1 0xe2534a3532d08fbba02dde659ee62bd0031fe2db785596ef509302446b030852
  0x8ca63d93a18461ce443daafc6ca5e79c88f660b197b3f0e78d201f91b124b39f
def fwImage2 : List Byte := fwImage 2 0x51590b7a515140d2d784c85608668fdfef8c82fd1f5be52421554a0dc3d033ed
  0x1279d9efa6fd2acc220fb9e6bda1d82babd50175652547a15135348fc73dd97a
def fwImage3 : List Byte := fwImage 3 0xb01a172a76a4602c92d3242cb897dde3024c740debb215b4c6b0aae93c2291a9
  0xf2cfc7edf6f06a24404147ee3fb5e16281bef834307c6b82680d2db4bdc11120
/-- Bytes at consecutive addresses. -/
def cellsFrom (a : Nat) : List Byte → List (Nat × Byte)
  | [] => []
  | b :: r => (a, b) :: cellsFrom (a + 1) r
/-- An image at a flash address; its last 64 bytes are erased. -/
def imageCells (a : Nat) (i : List Byte) : List (Nat × Byte) := cellsFrom a (i.take 192)
/-- The directory of bank A: SEQ 1, neither NEW nor BAD, the images from 0x100 on. -/
def fwDir : List (Nat × Byte) :=
  (wordBytes 0x52494442 ++ leBytes 4 1).zipIdx.map (fun p => (p.2, p.1)) ++
  (wordBytes 256 ++ wordBytes 512 ++ wordBytes 768 ++ wordBytes 1024).zipIdx.map (fun p => (16 + p.2, p.1))
/-- Bank A. -/
def fwBank : List (Nat × Byte) :=
  fwDir ++ imageCells 256 fwImage0 ++ imageCells 512 fwImage1 ++ imageCells 768 fwImage2 ++ imageCells 1024 fwImage3
/-- KEY_HASH0 holds the digest of that key; KEY_HASH1 stays unprogrammed. -/
def fwFuses : List (Nat × Word) :=
  [(8, 0xee2683a), (9, 0xf474684b), (10, 0xdf8e945d), (11, 0x7442f943), (12, 0xf4ebb8), (13, 0x2453d585), (14, 0xb8783561),
    (15, 0x5ef22f5d)]
/-- A device whose flash holds that bank A. -/
def flashed (s : State) : State := { s with flash := fwBank, fuses := fwFuses }

/-- RFC 6979, A.2.5: the signature of the message "sample" with P-256 and SHA-256. -/
theorem test_ecdsa_rfc6979 :
    ecdsaVerify 0x60FED4BA255A9D31C961EB74C6356D68C049B8923B61FA6CE669622E60F29FB6
      0x7903FE1008B8BC99A41AE9E95628BC64F2F1B20C2D7E9F5177A3C294D4462299
      0xEFD48B2AACB6A8FD1140DD9CD45E81D69D2C877B56AAF991C34D0EA84EAF3716
      0xF7CB1C942D657C41D436C7A1B6E29F65F3E900DBB9AFF4064DC4AB2F843ACDA8 (sha256 (ascii "sample")) = true := by decide +kernel
/-- FIPS 180-4: the digest of the empty message begins with e3b0c442. -/
theorem test_sha256_empty : (sha256 []).take 4 = [0xe3, 0xb0, 0xc4, 0x42] := by decide +kernel

/-- A key that is not listed reads as its default. -/
theorem tget_unlisted (d : Nat → Byte) (l : List (Nat × Byte)) (k : Nat) (h : ∀ e ∈ l, e.1 ≠ k) : tget d l k = d k := by
  induction l with
  | nil => rfl
  | cons e l ih =>
    obtain ⟨k', v⟩ := e
    have h1 : ¬ k' = k := h (k', v) (by simp)
    simp only [tget, h1, if_false]
    exact ih (fun e he => h e (by simp [he]))
/-- Cells at other addresses do not matter to a read. -/
theorem tget_skip (d : Nat → Byte) (l r : List (Nat × Byte)) (k : Nat) (h : ∀ e ∈ l, e.1 ≠ k) :
    tget d (l ++ r) k = tget d r k := by
  induction l with
  | nil => rfl
  | cons e l ih =>
    obtain ⟨k', v⟩ := e
    have h1 : ¬ k' = k := h (k', v) (by simp)
    simp only [List.cons_append, tget, h1, if_false]
    exact ih (fun e he => h e (by simp [he]))
theorem cellsFrom_key (l : List Byte) (a : Nat) : ∀ e ∈ cellsFrom a l, a ≤ e.1 ∧ e.1 < a + l.length := by
  induction l generalizing a with
  | nil => simp [cellsFrom]
  | cons b l ih =>
    intro e he
    simp only [cellsFrom, List.mem_cons] at he
    rcases he with he | he
    · subst he; simp
    · have := ih (a + 1) e he
      simp only [List.length_cons]; omega
theorem tget_cells (d : Nat → Byte) (r : List (Nat × Byte)) (l : List Byte) (a i : Nat) (h : i < l.length) :
    tget d (cellsFrom a l ++ r) (a + i) = l[i] := by
  induction l generalizing a i with
  | nil => simp at h
  | cons b l ih =>
    match i with
    | 0 => simp [cellsFrom, tget]
    | i + 1 =>
      have h2 : a + (i + 1) = a + 1 + i := by omega
      have h1 : ¬ a = a + 1 + i := by omega
      simp only [cellsFrom, List.cons_append, tget, h2, h1, if_false, List.getElem_cons_succ]
      exact ih (a + 1) i (by simpa using h)
/-- The 256 bytes at an image whose cells stand between other cells. -/
theorem flashBytes_image (s : State) (l r : List (Nat × Byte)) (a : Nat) (i : List Byte)
    (hf : s.flash = l ++ (imageCells a i ++ r)) (hi : i.length = 256) (hff : ∀ b ∈ i.drop 192, b = 0xFF)
    (hl : l.all (fun e => decide (e.1 < a)) = true) (hr : r.all (fun e => decide (a + 256 ≤ e.1)) = true) :
    flashBytes a 256 s = i := by
  simp only [List.all_eq_true, decide_eq_true_eq] at hl hr
  refine List.ext_getElem (by simp [flashBytes, hi]) (fun n h1 h2 => ?_)
  have hn : n < 256 := by omega
  simp only [flashBytes, List.getElem_map, List.getElem_range, hf]
  rw [tget_skip _ l _ _ (fun e he => by have := hl e he; omega)]
  by_cases hk : n < 192
  · rw [imageCells, tget_cells _ _ _ _ _ (by simp [hi]; omega)]
    simp
  · rw [tget_unlisted]
    · have h3 : i[n] = (i.drop 192)[n - 192]'(by simp [hi]; omega) := by
        have h4 : 192 + (n - 192) = n := by omega
        simp only [List.getElem_drop, h4]
      exact (h3.trans (hff _ (List.getElem_mem _))).symm
    · intro e he
      rw [List.mem_append] at he
      rcases he with he | he
      · have := cellsFrom_key _ _ e he
        simp [hi] at this; omega
      · have := hr e he; omega
/-- An image passes by what its header holds (R459). -/
theorem imagePasses_of (b : Bool) (c a : Nat) (h : List Byte) (s : State) (ha : imageAt b c s = a)
    (hh : flashBytes a 256 s = h) :
    imagePasses b c s = (leAt h 0 4 = 0x57465A44 && byteAt h 4 = c && decide (leAt h 0xC 4 ≤ partitionOf c) &&
      (let d := sha256 (slice h 0x10 64)
       (keyUsable 0 s && d = keyHash 0 s) || (keyUsable 1 s && d = keyHash 1 s)) &&
      decide (rollbackCount s ≤ byteAt h 5) &&
      ecdsaVerify (beNat (slice h 0x10 32)) (beNat (slice h 0x30 32)) (beNat (slice h 0x80 32)) (beNat (slice h 0xA0 32))
        (sha256 (slice h 0 0x80 ++ flashBytes (a + 0x100) (leAt h 0xC 4) s))) := by
  subst ha; subst hh; rfl
theorem witness_PowerUpAndBoot_image0 : imagePasses false 0 (flashed z) = true := by
  rw [imagePasses_of false 0 256 fwImage0 _ (by decide +kernel)
    (flashBytes_image _ (fwDir) (imageCells 512 fwImage1 ++ imageCells 768 fwImage2 ++ imageCells 1024 fwImage3) _ _
      (by simp [flashed, fwBank]) (by decide +kernel) (by decide +kernel) (by decide +kernel) (by decide +kernel))]
  decide +kernel
theorem witness_PowerUpAndBoot_image1 : imagePasses false 1 (flashed z) = true := by
  rw [imagePasses_of false 1 512 fwImage1 _ (by decide +kernel)
    (flashBytes_image _ (fwDir ++ imageCells 256 fwImage0) (imageCells 768 fwImage2 ++ imageCells 1024 fwImage3) _ _
      (by simp [flashed, fwBank]) (by decide +kernel) (by decide +kernel) (by decide +kernel) (by decide +kernel))]
  decide +kernel
theorem witness_PowerUpAndBoot_image2 : imagePasses false 2 (flashed z) = true := by
  rw [imagePasses_of false 2 768 fwImage2 _ (by decide +kernel)
    (flashBytes_image _ (fwDir ++ imageCells 256 fwImage0 ++ imageCells 512 fwImage1) (imageCells 1024 fwImage3) _ _
      (by simp [flashed, fwBank]) (by decide +kernel) (by decide +kernel) (by decide +kernel) (by decide +kernel))]
  decide +kernel
theorem witness_PowerUpAndBoot_image3 : imagePasses false 3 (flashed z) = true := by
  rw [imagePasses_of false 3 1024 fwImage3 _ (by decide +kernel)
    (flashBytes_image _ (fwDir ++ imageCells 256 fwImage0 ++ imageCells 512 fwImage1 ++ imageCells 768 fwImage2) ([]) _ _
      (by simp [flashed, fwBank]) (by decide +kernel) (by decide +kernel) (by decide +kernel) (by decide +kernel))]
  decide +kernel
theorem witness_PowerUpAndBoot_pass : failingCore false (flashed z) = none := by
  simp [failingCore, List.range, List.range.loop, witness_PowerUpAndBoot_image0, witness_PowerUpAndBoot_image1,
    witness_PowerUpAndBoot_image2, witness_PowerUpAndBoot_image3]

/-- What a bank's images give rests on flash and fuses alone. -/
theorem failingCore_congr (b : Bool) (s t : State) (h1 : t.flash = s.flash) (h2 : t.fuses = s.fuses) :
    failingCore b t = failingCore b s := by
  cases s; cases t; cases h1; cases h2; rfl
/-- A bank that is there, is no trial and passes boots, and the tries change nothing. -/
theorem tryBanks_boots (b : Bool) (r : List Bool) (s : State) (h1 : bankThere b s = true) (h2 : bankTrial b s = false)
    (h3 : failingCore b s = none) : ∃ n, tryBanks (b :: r) s = (some b, n, s) := by
  simp [tryBanks, h1, h2, h3]

/-- That device at the end of its firmware load. -/
def fwEnd : State := { flashed z with pwr := { z.pwr with firmwareAt := some 9 } }
/-- R469: with DBG_LOCK blown the port gives no access, and an idle step leaves it so. -/
theorem witness_PowerUpAndBoot_jtag :
    let s : State := { z with fuses := [(24, 8)] }
    jtagAnswers .access s = false ∧ (nextOf (step s)).isSome = true ∧ jtagAnswers .access z = true := by decide +kernel

theorem witness_PowerUpAndBoot_boots :
    fwEnd.pwr.firmwareAt = some 9 ∧ (∃ n, tryBanks [false, true] fwEnd = (some false, n, fwEnd)) ∧
      bankOrder fwEnd = [false, true] :=
  ⟨rfl, tryBanks_boots false [true] fwEnd (by decide +kernel) (by decide +kernel)
    ((failingCore_congr false (flashed z) fwEnd rfl rfl).trans witness_PowerUpAndBoot_pass), by decide +kernel⟩

theorem witness_PowerUpAndBoot :
    (cold.pwr.porst = false ∧ regFld Reg.PWR_BOOT_STAT 31 28 cold = 0 ∧ deviceReset cold = true ∧ cold.pwr.inReset = false ∧
      cold.pwr.firmwareAt = none) ∧ (tryBanks (bankOrder z) z).1 = none ∧ deviceReset z = false ∧ runs .porstFall z = true ∧
      runs (.porstRise true ⟨3, [(0, 5)]⟩) cold = true ∧
      (∀ st ∈ ([0, 8] : List (BitVec 8)), let s := { cold with pwr := { cold.pwr with porst := true, standing := st } }
       s.pwr.porst = true ∧ s.pwr.locked = false ∧ s.pwr.inReset = false ∧ s.pwr.standing = st ∧ runs .pllLock s = true) ∧
      (let s := { powered z with pwr := { (powered z).pwr with inReset := true, holding := true, standing := 8 } }
       s.pwr.standing.getLsbD 3 = true ∧ (∃ v < 6, regFld (Reg.MGT_VMONv v) 15 0 s < (vmonWindow v).1) ∧
       runs .resetRelease s = true ∧
       (let u := withRegs ((List.range 6).map (fun v => (Reg.MGT_VMONv v, word (vmonWindow v).1))) s
        u.pwr.inReset = true ∧ u.pwr.holding = true ∧ u.pwr.locked = true ∧
        (∀ v < 6, (vmonWindow v).1 ≤ regFld (Reg.MGT_VMONv v) 15 0 u ∧ regFld (Reg.MGT_VMONv v) 15 0 u ≤ (vmonWindow v).2) ∧
        u.pwr.standing.getLsbD 4 = false)) ∧
      (let s := withRegs [(Reg.MGT_TEMPi 23, 841)] { z with pwr := { z.pwr with standing := 16 } }
       s.pwr.standing.getLsbD 4 = true ∧ 840 < tempOf 23 s) ∧
      (let s := { powered z with pwr := { (powered z).pwr with inReset := true, holding := true } }
       s.pwr.inReset = true ∧ s.pwr.holding = true ∧ s.pwr.locked = true ∧ s.pwr.standing.getLsbD 4 = false ∧
       runs .resetRelease s = true) ∧
      (let s := { z with pwr := { z.pwr with firmwareAt := some 9 } }
       s.pwr.firmwareAt = some 9 ∧ runs .firmwareLoadEnd s = true) := by decide +kernel
theorem witness_PowerSequencesAndTemperature :
    (let s := { powered z with pwr := { (powered z).pwr with seq := some ⟨true, [30, 31], 9⟩ } }
     s.pwr.seq = some ⟨true, [30, 31], 9⟩ ∧ runs .sequenceSlot s = true) ∧
      (let s := { powered z with pwr := { (powered z).pwr with seq := some ⟨true, [31], 9⟩ } }
       s.pwr.seq = some ⟨true, [31], 9⟩ ∧ runs .sequenceSlot s = true) ∧
      (let s := { powered z with pwr := { (powered z).pwr with seq := some ⟨false, [0], 9⟩ } }
       s.pwr.seq = some ⟨false, [0], 9⟩ ∧ runs .sequenceSlot s = true) ∧ ¬(4 ≤ 15 ∧ 15 < 16 ∧ enabledCols z ≤ 15 - 4) ∧
      (let s := { powered z with pwr := { (powered z).pwr with tgs := [(11, 9)] } }
       s.pwr.tgs = ((11 : Fin 12).val, 9) :: [] ∧ domainOn 11 s = true ∧ domainOn 11 (after (.tileGroupSwitch 11) s) = false ∧
       runs (.tileGroupSwitch 11) s = true) := by decide +kernel
theorem witness_PowerSequencesAndTemperature_sample :
    postmasterUp z = true ∧ ringUp z = false ∧ notMaster z = false ∧
      (BitVec.ofNat 16 (regFld Reg.MGT_TEMP_WARN 15 0 z)).toInt < (841#16).toInt ∧ 840 < (841#16).toInt ∧
      (841#16).toInt ≤ 920 ∧ regFld Reg.FAB_OP_STAT 1 0 z ≤ 2 ∧ runs (.tempSample 23 841) z = true ∧
      (let s := withRegs [(Reg.MGT_CORE_STAT, 0x40)] z
       postmasterUp s = false ∧ runs (.tempSample 23 841) s = true) := by decide +kernel

/-! ### Management and security -/

/-- A record on its way to the log. -/
def event0 (src arrive : Nat) : LogEvent := ⟨src, arrive, 0, 0, 0, 0, 0, 0⟩
/-- A command of the maintenance session. -/
def byMaint : Issue := ⟨.maint, 0⟩

theorem witness_CoresAndEventLog :
    runs (.coreWatchdogExpiry 1) z = true ∧ writesNow .host (maint z) = true ∧ (bit (5 : Word) 0 = true ∧ bit (5 : Word) 1 = false) ∧
      runs (.coreCtlRestart .host 5) (maint z) = true ∧ mayIssue byPort Op.coreRestart allowPM (port z) = true ∧ (3#8).toNat < 4 ∧
      runs (.coreRestart byPort 3) (port z) = true ∧
      (let s := { z with mgt := { z.mgt with resumeAt := [(3, 9)] } }
       tget (fun _ => 0) s.mgt.resumeAt (3 : Fin 4).val ≠ 0 ∧ partitionGood 3 (changePartition 3 [] s) = false ∧
       runs (.coreResume 3 []) s = true) ∧
      (let s := { host z with mgt := { z.mgt with resumeAt := [(1, 9)], digest := [(1, sha256 [])] } }
       tget (fun _ => 0) s.mgt.resumeAt (1 : Fin 4).val ≠ 0 ∧ partitionGood 1 (changePartition 1 [] s) = true ∧
       commandWaits (resumeCore 1 [] s) = false ∧ coreUp 1 (resumeCore 1 [] s) = true ∧ runs (.coreResume 1 []) s = true) ∧
      (let s := flashStore (bankAt true + 8) [0] { z with mgt := { z.mgt with updating := true } }
       s.mgt.updating = true ∧ dirByte (inactive s) 8 s = 0 ∧
       dirByte (inactive s) 8 (after (.coreWatchdogExpiry 0) s) = 0xFF) := by decide +kernel
theorem witness_CoresAndEventLog_accept :
    let s := { z with mgt := { z.mgt with events := [event0 9 5, event0 3 5, event0 1 6] } }
    nextEvent s.mgt.events = some (event0 3 5) ∧ (getReg Reg.MGT_ACCEPT_NEXT s - getReg Reg.MGT_LOG_OLDEST s).toNat ≤ 2048 ∧
      (1#32).toNat % 2048 ≠ (getReg Reg.MGT_ACCEPT_NEXT s).toNat % 2048 := by decide +kernel
theorem witness_CoresAndEventLog_read :
    let s := withRegs [(Reg.MGT_ACCEPT_NEXT, 2)] (port z)
    mayIssue byPort Op.readLog allowHPM s = true ∧ byPort.via = .port ∧ s.disp.discarding = false ∧ logRange 0 3 s = [0, 1] ∧
      runs (.readLog byPort 0 3 0x1000) s = true := by decide +kernel
theorem witness_FirmwareAndFuses_update :
    mayIssue byPort Op.updateWrite allowPM (port z) = true ∧ (port z).marks = [] ∧ (port z).mgt.updating = false ∧
      (0xFFFFFC#32).toNat + (4#32).toNat ≤ 2 ^ 24 ∧ runs (.updateWrite byPort 0xFFFFFC 0 4) (port z) = true ∧
      failingCore (inactive (port z)) (port z) ≠ none ∧ runs (.updateCommit byPort) (port z) = true ∧
      runs (.updateConfirm byPort) (port z) = true := by decide +kernel
/-- Bank A passes and is the inactive one. -/
theorem witness_FirmwareAndFuses_commit :
    let s := { flashed (port z) with mgt := { (port z).mgt with bankB := true } }
    mayIssue byPort Op.updateCommit allowPM s = true ∧ inactive s = false ∧ failingCore false s = none :=
  ⟨by decide, by decide, (failingCore_congr false (flashed z) _ rfl rfl).trans witness_PowerUpAndBoot_pass⟩
theorem witness_FirmwareAndFuses_fuses :
    let s := { maint z with fuses := [(8, 1)] }
    mayIssue byMaint Op.fuseBlow allowM s = true ∧ s.marks = [] ∧ bit (fuse 24 s) 2 = false ∧ slotProgrammed 1 s = false ∧
      ((1#8).toNat ≤ 1 ∧ bit (fuse 24 s) (1 - (1#8).toNat) = false ∧ slotProgrammed (1 - (1#8).toNat) s = true) ∧
      3 < (4#8).toNat ∧ runs (.fuseBlow byMaint 0 0 0) s = true ∧ runs (.fuseBlow byMaint 1 0 0) s = true ∧
      runs (.fuseBlow byMaint 2 1 0) s = true ∧ runs (.fuseBlow byMaint 3 0 0) s = true ∧
      runs (.fuseBlow byMaint 4 0 0) s = true := by decide +kernel
theorem witness_FirmwareAndFuses_locked :
    let s := { maint z with fuses := [(16, 1), (24, 0x17)] }
    bit (fuse 24 s) 2 = true ∧ slotProgrammed 1 s = true ∧ 1 < (2#8).toNat ∧ bit (fuse 24 s) (1 - (1#8).toNat) = true ∧
      slotProgrammed (1 - (1#8).toNat) s = false := by decide +kernel
/-- R462, worked by hand: a programming of 0x0F over 0xF5 leaves 0x05, since bits only turn from 1 to 0. -/
theorem test_flash_program : flashBytes 3 1 (flashProgram 3 [0x0F] (flashStore 3 [0xF5] z)) = [0x05] := by decide +kernel

theorem witness_SessionsAndDatagrams_hello :
    kindServed (2#8).toNat z = true ∧ sideUp .mgtPort z = true ∧ sideUp .pcie cold = false ∧ lockOf .mgtPort z = none ∧ kindOpen (2#8).toNat z = false ∧
      sideAllows .mgtPort (2#8).toNat = true ∧ runs (.hello .mgtPort 2 5) z = true ∧ kindOpen (2#8).toNat (port z) = true ∧
      (let s := { z with sess := { z.sess with lockPcie := some 9 } }
       lockOf .pcie s = some 9 ∧ runs (.hello .pcie 1 5) s = true ∧ runs (.helloLockoutEnd .pcie) s = true) ∧
      (maint z).sess.maint = some (session .pcie) ∧ runs .maintenanceTimeout (maint z) = true := by decide +kernel
/-- A handshake for a host session over PCIe, after seven failures in a row. -/
def shaking (s : State) : State :=
  { s with sess := { s.sess with hsPcie := some ⟨1, 2, 3, 0⟩, failPcie := 7 } }
/-- Its right tag. -/
def mac0 : BitVec 256 := BitVec.ofNat 256 (leNat (macC ⟨1, 2, 3, 0⟩ (shaking z)))
theorem witness_SessionsAndDatagrams_good :
    handshakeOf .pcie (shaking z) = some ⟨1, 2, 3, 0⟩ ∧ kindServed (1#8).toNat (shaking z) = true ∧
      leBytes 32 mac0.toNat = macC ⟨1, 2, 3, 0⟩ (shaking z) ∧ kindOf? (1#8).toNat = some .host ∧
      sessionOf .host (shaking z) = none := by decide +kernel
theorem witness_SessionsAndDatagrams_bad :
    leBytes 32 (0#256).toNat ≠ macC ⟨1, 2, 3, 0⟩ (shaking z) ∧ 8 ≤ failsOf .pcie (shaking z) + 1 := by decide +kernel
/-- RFC 4231, test case 2: the tag of "what do ya want for nothing?" under "Jefe" begins with 5bdcc146. -/
theorem test_hmac_rfc4231 :
    (hmac (ascii "Jefe") (ascii "what do ya want for nothing?")).take 4 = [0x5b, 0xdc, 0xc1, 0x46] := by decide +kernel

/-- A HANDOFF datagram of a port session with SEQ 1 but its tag. -/
def datagramHead : List Byte := slice ([5, 2, 1, 0, 1, 0, 0, 0, 0x0C, 0, 0, 0, 15] ++ List.replicate 59 7) 0 72
/-- The datagram with its tag under the empty key. -/
def datagram0 : List Byte := datagramHead ++ (hmac [] datagramHead).take 16
/-- A port session over the management port. -/
def overPort (s : State) : State := { s with sess := { s.sess with port := some (session .mgtPort) } }

theorem witness_SessionsAndDatagrams_datagram :
    postmasterUp (overPort z) = true ∧ byteAt datagram0 0 = 5 ∧ kindOf? (byteAt datagram0 1) = some .port ∧
      sessionOf .port (overPort z) = some (session .mgtPort) ∧ datagramGood datagram0 (session .mgtPort) = true ∧
      byteAt datagram0 8 = 0x0C ∧ 2 ≤ byteAt datagram0 12 ∧ byteAt datagram0 12 ≤ 15 := by decide +kernel
theorem witness_SessionsAndDatagrams_discard :
    let d := datagramHead ++ List.replicate 16 0
    byteAt d 0 = 5 ∧ kindOf? (byteAt d 1) = some .port ∧ datagramGood d (session .mgtPort) = false ∧
      runs (.mgtCommandDatagram d) (overPort z) = true := by decide +kernel

/-! ### Cameras -/

/-- Stream 0: 4 × 8 pixels of RAW16, a ring of 20 lines at 0x1000, in a frame. -/
def streaming (s : State) : State :=
  setStream 0 { Stream.reset with started := true, frame := some ⟨0, 0, 7, none⟩ }
    (withRegs [(Reg.CAM_RXr_CTL 0, 0x80000001), (Reg.CAM_STRs_CTL 0, 0x8000002E), (Reg.CAM_STRs_SIZE 0, 0x00080004),
      (Reg.CAM_STRs_GEOM 0, 0x00010014), (Reg.CAM_STRs_BUF 0, 0x1000)] s)
/-- Context 0 on stream 0 with stripes of 8 lines, FROZEN_COUNT 2 and ABSENT_MS 1. -/
def contexted (s : State) : State :=
  withRegs [(Reg.ISP_CTXc_CTL 0, 0x80000008), (Reg.ISP_CTXc_FRZ 0, 0x02000001)] (streaming s)
/-- A frame of a context with one stripe ready. -/
def ctxFrame0 : CtxFrame :=
  ⟨0, 0, [], 8, [], true, false, false, false, false, false, [], [], 0, [(0, 3)], 1, none, false, [], [], []⟩
/-- Context 0 with that frame. -/
def withFrame (f : CtxFrame) (s : State) : State := setCtx 0 { getCtx 0 s with frames := [f] } (contexted s)
/-- A request of context 0 for frame T. -/
def request0 (t : BitVec 32) : SensorRequest := ⟨0, t, [⟨0x3012, [1, 2]⟩], [some 1, none, none, none]⟩
/-- Context 0 with requests. -/
def withRequests (l : List SensorJob) (s : State) : State := setCtx 0 { getCtx 0 s with requests := l } s

theorem witness_CameraSettings_enables :
    writesNow .firmware z = true ∧ (bit (0x80000004 : Word) 31 = true ∧ fld (0x80000004 : Word) 2 0 ∈ [1, 2, 4]) ∧
      fld (0x80000003 : Word) 2 0 ∉ [1, 2, 4] ∧ fld (0x80000000 : Word) 2 0 = 0 ∧
      runs (.receiverEnable .firmware 11 0x80000004) z = true ∧ runs (.streamEnable .firmware 15 0x80000000) z = true ∧
      (strW 0 (streaming z) ≠ 0 ∧ strH 0 (streaming z) ≠ 0 ∧ strDepth 0 (streaming z) ≠ 0) ∧
      regBit (Reg.CAM_STRs_CTL 0) 31 z = false ∧ runs (.contextEnable .firmware 0 0x80000008) (contexted z) = true ∧
      (let s := contexted z
       let n := fld (0x80000008 : Word) 8 0
       regFld (Reg.ISP_CTXc_FRZ 0) 27 24 s ≠ 0 ∧ regBit (Reg.CAM_STRs_CTL 0) 31 s = true ∧ 2 * n + 4 ≤ strDepth 0 s ∧
       n % 8 = 0 ∧ 8 ≤ n) := by decide +kernel
theorem witness_CameraSettings_requests :
    mayIssue byPort Op.sensorReq allowHPM (port z) = true ∧ (getCtx (request0 5).context (port z)).requests.length < 16 ∧
      runs (.sensorReq byPort (request0 5)) (port z) = true ∧
      (let s := withRequests (List.replicate 16 ⟨byPort, request0 0, 0, false⟩) (port z)
       16 ≤ (getCtx (request0 5).context s).requests.length ∧ runs (.sensorReq byPort (request0 5)) s = true) ∧
      (let q : SensorJob := ⟨byPort, request0 0, 0, false⟩
       let s := withRequests [q] z
       busRequest 0 s = none ∧ sensorClerkUp s = true ∧ nextRequest 0 s = some (0, q) ∧ mayWrite 0 q.req.target s = true ∧
       runs (.sensorWrite 0) s = true) ∧
      (let q : SensorJob := ⟨byPort, request0 1, 0, false⟩
       let s := withRequests [q] z
       nextRequest 0 s = some (0, q) ∧ mayWrite 0 q.req.target s = false ∧ runs (.sensorWrite 0) s = true) := by decide +kernel
theorem witness_CameraSettings_latch :
    let q : SensorJob := ⟨byPort, request0 0, 4, true⟩
    let s := withRequests [q] z
    let u := { s with cam := { s.cam with buses := [(0, some (0, 4))] } }
    busRequest 0 u = some (0, 4) ∧ (getCtx 0 u).requests.find? (fun q => q.order = 4) = some q ∧
      later 32 (governedBy 0 (latchFrame 0 u) u).toNat q.req.target.toNat = false ∧
      later 32 (governedBy 0 9 u).toNat q.req.target.toNat = true ∧ runs (.sensorWriteComplete 0) u = true ∧
      (let v := setCtx 0 { Ctx.reset with latches := [(3, 9)] } z
       (getCtx 0 v).latches = (3, 9) :: [] ∧ runs (.latchPoint 0) v = true) := by decide +kernel
theorem witness_CameraSettings_late :
    let q : SensorJob := ⟨byPort, request0 0, 4, true⟩
    let s := setStream 0 { Stream.reset with started := true, counter := 7 } (setCtx 0 { Ctx.reset with requests := [q] } z)
    later 32 (governedBy 0 (latchFrame 0 s) s).toNat q.req.target.toNat = true := by decide +kernel

theorem witness_FramesAndStripes_lines :
    let s := streaming z
    streamOn 0 s = true ∧ (getStream 0 s).frame = some ⟨0, 0, 7, none⟩ ∧ rawBits (regFld (Reg.CAM_STRs_CTL 0) 5 0 s) = some 16 ∧
      (List.replicate 4 (0xFFFF#16)).length = strW 0 s ∧ slotNeeded 0 7 s = false ∧ (7 : Nat) ≠ strH 0 s ∧
      runs (.lineLanded 0 (List.replicate 4 0xFFFF) ⟨false, false, false⟩) s = true ∧ runs (.frameStart 0) s = true ∧
      runs (.lineLanded 0 [] ⟨true, true, false⟩) s = true ∧ runs (.embeddedLine 0 [1] ⟨false, false, true⟩) s = true ∧
      runs (.frameEnd 0) s = true ∧ ctxOf 0 s = none ∧ ctxOf 0 (contexted z) = some 0 := by decide +kernel
theorem witness_FramesAndStripes_frames :
    ∀ f ∈ (getCtx 0 (withFrame { ctxFrame0 with ended := false } z)).frames, f.ended = false ∨ f.running.isSome = true := by
  decide +kernel
theorem witness_FramesAndStripes_overrun :
    let s := withFrame { ctxFrame0 with ended := false, lines := 7, decided := 0, ready := [] } z
    let s := setStream 0 { getStream 0 s with slots := [(7, some (0, 0, 7))] } s
    streamOn 0 s = true ∧ (getStream 0 s).frame = some ⟨0, 0, 7, none⟩ ∧ slotNeeded 0 7 s = true ∧
      runs (.lineLanded 0 (List.replicate 4 1) ⟨false, false, false⟩) s = true := by decide +kernel
theorem witness_FramesAndStripes_absent :
    let s := withRegs [(Reg.SAF_CHKk_CAM 0, 1)] (contexted z)
    let s := { s with saf := { s.saf with bindings := [(0, { Binding.reset with enabled := true })] } }
    ctxOn 0 s = true ∧ regFld (Reg.ISP_CTXc_FRZ 0) 15 0 s ≠ 0 ∧ (getCtx 0 s).absent = false ∧ (getBinding 0 s).enabled = true ∧
      regBit (Reg.SAF_CHKk_CAM 0) 0 s = true ∧ runs (.absentTimeout 0) s = true := by decide +kernel
theorem witness_FramesAndStripes_stripes :
    let s := withFrame ctxFrame0 z
    (getPipe 0 s).busy = none ∧ nextCtx 0 s = some (0, (0, 0), 0) ∧ readyStripe 0 s = some ((0, 0), 0, 3) ∧ ctxOn 0 s = true ∧
      regFld (Reg.ISP_CTXc_CTL 0) 30 30 s = 0 ∧ (getPipe 0 s).locked = none ∧ runs (.stripeStart 0) s = true ∧
      (let u := setPipe 0 ⟨some (0, 0, 9), (0, 0), some 1, none⟩ s
       (getPipe 0 u).busy = some (0, 0, 9) ∧ runs (.stripeEnd 0) u = true) ∧ ({ ctxFrame0 with corrupt := true }).corrupt = true := by
  decide +kernel

/-! ### The Sorter -/

/-- Queue 0 to stream 0 with MULT 2 and BUDGET_MIN 16, ring of 4 at 0x2000 with one sample; stream 0 of 4 rows of 64. -/
def sorting (s : State) : State :=
  withRegs [(Reg.SRT_Qq_CTL 0, 0x80000004), (Reg.SRT_Qq_TAIL 0, 1), (Reg.SRT_Qq_BASE_LO 0, 0x2000),
    (Reg.SRT_Qq_BUDGET 0, 0x02000010), (Reg.SRT_BSb_CFG 0, 0x80000000), (Reg.SRT_BSb_GEOM 0, 0x00040040),
    (Reg.SRT_BSb_SLOT0 0, 0), (Reg.SRT_BSb_SLOT1 0, 0x100000)] s
/-- A sample of no elements, and one of one element. -/
def sample0 : Sample := ⟨5, 0, 0, 0, 0, 0, 9⟩
def sample1 : Sample := ⟨5, 0, 1, 0x3000, 1, 0, 9⟩
/-- Engine 0 decodes a sample. -/
def decoding (d : Decoding) (s : State) : State := setEngine 0 (some d) (sorting s)

theorem witness_SorterEnables :
    writesNow .firmware z = true ∧ runs (.queueTailWrite .firmware 7 5) z = true ∧
      (regFld (Reg.SRT_Qq_BUDGET 0) 31 24 (sorting z) ≠ 0 ∧ regFld (Reg.SRT_Qq_BUDGET 0) 23 0 (sorting z) ≠ 0) ∧
      bit (0x80000004 : Word) 31 = true ∧ regBit (Reg.SRT_Qq_CTL 7) 31 z = false ∧
      runs (.queueEnable .firmware 0 0x80000004) (sorting z) = true ∧ (bsRows 0 (sorting z) ≠ 0 ∧ bsLen 0 (sorting z) ≠ 0) ∧
      slotsFit 0 (fld (0x80000000 : Word) 17 16) (sorting z) = true ∧
      slotsFit 0 0 (withRegs [(Reg.SRT_BSb_SLOT1 0, 0x7FFFC0)] (sorting z)) = false ∧ bsRows 3 z = 0 ∧
      runs (.batchStreamEnable .firmware 0 0x80000000) (sorting z) = true := by decide +kernel
theorem witness_SamplesAndBatches_take :
    let s := sorting z
    idleEngine s = some 0 ∧ nextQueue 0 s = some 0 ∧ s.marks = [] ∧
      runs .engineTake s = true := by decide +kernel
theorem witness_SamplesAndBatches_decode :
    let d : Decoding := ⟨0, 0, sample1, 0, 17, some 17, false⟩
    let s := decoding d z
    getEngine 0 s = some d ∧ decodeEndAt d = some 68 ∧ decodesEnding 68 s = [(0, d)] ∧ d.queue < 8 ∧ s.marks = [] ∧
      sampleElems sample1 (bsLen 0 s) (bsFmt 0 s) (rdBytes .dram 0x3000 1 s) false = some [0] ∧
      regBit (Reg.SRT_BSb_CFG 0) 31 s = true ∧ (packAt (getBatch 0 s) (bsLen 0 s) 1).1 < bsRows 0 s ∧
      runs (.decodeEnd 0) s = true := by decide +kernel
theorem witness_SamplesAndBatches_before_close :
    let s := withRegs [(Reg.SRT_BSb_CLOSE 0, 1)] (decoding ⟨0, 0, sample1, 0, 17, some 17, false⟩ z)
    closeDue 0 (runTo 68 s) = false := by decide +kernel
theorem witness_SamplesAndBatches_expiry :
    let d : Decoding := ⟨0, 0, sample1, 0, 17, some 16, false⟩
    let s := decoding d z
    getEngine 0 s = some d ∧ d.budget = some 16 ∧ 16 < d.cycles ∧ d.queue < 8 ∧ regBit Reg.SRT_HP_CTL 31 s = false ∧
      runs (.budgetExpiry 0) s = true ∧
      (let u := withRegs [(Reg.SRT_HP_CTL, 0x80000000), (Reg.SRT_HP_TAIL, 31)] s
       regBit Reg.SRT_HP_CTL 31 u = true ∧ hostPathCount u < 32 ∧
       (∀ i < 64, dramHas (4096 * regFld Reg.SRT_HP_CTL 7 0 u + 64 * ((getReg Reg.SRT_HP_TAIL u).toNat % 32) + i) u = true) ∧
       runs (.budgetExpiry 0) u = true) ∧
      32 ≤ hostPathCount (withRegs [(Reg.SRT_HP_TAIL, 32)] s) := by decide +kernel
theorem witness_SamplesAndBatches_close :
    let s := sorting z
    regBit (Reg.SRT_BSb_CFG 0) 31 s = true ∧ (getBatch 0 s).closedDay ≠ some (getReg Reg.DAY_NUM s).toNat ∧
      backLocked (getHandoff (streamKey 0) s) = false ∧ slotsFit 0 (bsFmt 0 s) s = true ∧
      (getBatch 0 s).segs.length ≤ 64 * bsRows 0 s := by decide +kernel
theorem witness_SamplesAndBatches_locked :
    ∃ s : State, regBit (Reg.SRT_BSb_CFG 0) 31 s = true ∧ (getBatch 0 s).closedDay ≠ some (getReg Reg.DAY_NUM s).toNat ∧
      backLocked (getHandoff (streamKey 0) s) = true ∧ runs (.batchClose 0) s = true :=
  ⟨setHandoff (streamKey 0) { getHandoff (streamKey 0) z with locks0 := 1 } (sorting z), by decide⟩

/-! ### The servo engine -/

/-- The engine runs, with periods of 25 µs. -/
def servoOn (s : State) : State :=
  withRegs [(Reg.SRV_STAT, 0x80000000), (Reg.SRV_CTL, 0x80000000)] { s with day := { s.day with periodUs := 25 } }
/-- Axis 0 with a state. -/
def withAxis (a : Axis) (s : State) : State := { s with srv := { s.srv with axes := [(0, a)] } }
/-- An axis that runs in the present period. -/
def axis0 : Axis := { Axis.reset with runsNow := true, hasTgt := true, ten := true, mode := 1, missedPeriod := false }

theorem witness_ServoSettingsAndTrace_config :
    writesNow .firmware z = true ∧ fld (0 : Word) 6 0 = 0 ∧ 100 < fld (101 : Word) 6 0 ∧ (1 ≤ fld (1 : Word) 6 0 ∧ fld (100 : Word) 6 0 ≤ 100) ∧
      (nextDay z).solverUs % fld (1 : Word) 6 0 = 0 ∧ (nextDay z).solverUs % fld (99 : Word) 6 0 ≠ 0 ∧ fld (0x100 : Word) 7 0 = 0 ∧
      fld (0xFFFF : Word) 7 0 ≠ 0 ∧ runs (.servoEnable .firmware 0x80000000) z = true ∧
      runs (.servoConfigWrite .firmware false 1) z = true ∧ runs (.servoConfigWrite .firmware true 0) z = true ∧
      runs (.axisCommit .firmware 63 0x80000001) z = true := by decide +kernel
theorem witness_ServoSettingsAndTrace_fault :
    let s := withRegs [(Reg.SRV_AXISn_STAT 63, 0x80000000)] z
    regBit (Reg.SRV_AXISn_STAT ((63 : Fin 64) : Nat)) 31 s = true ∧ regBit (Reg.SRV_AXISn_STAT 0) 31 z = false ∧
      (getAxis 63 s).faultAt ≠ some (now s / scRoot) ∧ runs (.faultClear .firmware 63) s = true ∧
      (getAxis 0 (withAxis { axis0 with faultAt := some 0 } z)).faultAt = some (now z / scRoot) := by decide +kernel
theorem witness_ServoSettingsAndTrace_trace :
    let s := withRegs [(Reg.SRV_TRC_STAT, 0x80000000), (Reg.SRV_TRC_CTL, 16)] (servoOn (maint z))
    srvRunning s = true ∧ regBit Reg.SRV_TRC_STAT 31 s = true ∧ s.srv.trace.armNext = false ∧ traceNodes s ≠ 0 ∧
      s.sess.maint.isSome = true ∧ regBit Reg.SRV_TRC_STAT 31 z = false ∧ runs .traceRecord s = true ∧
      runs (.traceArm .host) s = true ∧ runs (.traceForce .host) s = true ∧ runs (.traceDataRead .host) s = true := by decide +kernel
/-- R261 and R264: with TRC_ADDR at 8 191 a read wraps to 0. -/
theorem test_trace_read_wraps :
    regFld Reg.SRV_TRC_ADDR 12 0 (after (.traceDataRead .host) (withRegs [(Reg.SRV_TRC_ADDR, 8191)] (maint z))) = 0 := by decide +kernel

theorem witness_ServoPeriodsAndCommands_cutoff :
    let at_ := slotInstant (max (now z) (z.srv.cutoffAt + 1)) 25 z
    axisMeas 0 at_ (decide (z.srv.start ≤ at_) && decide (at_ < z.srv.start + usRoot)) z = some none ∧ runs .measurementCutoff z = true ∧
      1 ≤ z.day.periodUs ∧ runs .servoPeriodStart z = true ∧ regBit Reg.SRV_CTL 31 z = false ∧
      (srvRunning (servoOn z) = true ∧ regBit Reg.SRV_CTL 31 (servoOn z) = true) := by decide +kernel
/-- Drive 0 of lane 0 has a good measurement for axis 0. -/
theorem witness_ServoPeriodsAndCommands_good :
    let chars := slice [0, 8] 0 39
    let s := withRegs [(Reg.SRV_LANEl_CTL 0, 0x80000000), (Reg.SRV_LANEl_STAT 0, 0x60000000)]
      { z with lanes := [(0, { Lane.reset with heard := [⟨chars, 1000, 5, false⟩] })] }
    let at_ := slotInstant (max (now s) (s.srv.cutoffAt + 1)) 25 s
    axisMeas 0 at_ (decide (s.srv.start ≤ at_) && decide (at_ < s.srv.start + usRoot)) s = some (some (upMeas chars 0 5)) := by decide +kernel
theorem witness_ServoPeriodsAndCommands_axis :
    let s := withRegs [(Reg.SAF_SRV_CFG, 1)] (servoOn (withAxis axis0 z))
    srvRunning s = true ∧ (getAxis 0 s).runsNow = true ∧ (getAxis 0 s).missedPeriod = false ∧ (getAxis 0 s).hasTgt = true ∧
      ¬((getAxis 0 s).mode = 0 ∨ regBit (Reg.SRV_AXISn_STAT 0) 31 s = true ∨ (getAxis 0 s).ten = false) ∧
      ({ axis0 with ten := false }).ten = false ∧ ({ axis0 with missedPeriod := true }).missedPeriod = true ∧
      (checkAxis 0 (getAxis 0 s) s).agree = true ∧ srvPersist s ≤ s.srv.proofRun + 1 := by decide +kernel
theorem witness_ServoPeriodsAndCommands_disagree :
    let s := withRegs [(Reg.SAF_SRV_CFG, 1)] (servoOn (withAxis { axis0 with stepped := true, mode := 0, cmd := 5 } z))
    (checkAxis 0 (getAxis 0 s) s).agree = false ∧ srvPersist s ≤ min 15 (regFld (Reg.SAF_AXn_STAT 0) 3 0 s + 1) := by
  decide +kernel

/-! ### Courier lanes -/

/-- Lane 0 is enabled. -/
def laneUp (s : State) : State := withRegs [(Reg.SRV_LANEl_CTL 0, 0x80000000)] s
/-- The 39 characters of an up frame of zeros with its CRC. -/
def upChars : List Byte := slice [] 0 37 ++ leBytes 2 (crc16 (slice [] 0 37)).toNat

theorem witness_CourierLanes_control :
    writesNow .firmware z = true ∧ bit (0x80000000 : Word) 31 = true ∧ laneOn 0 z = false ∧ laneOn 0 (laneUp z) = true ∧
      runs (.laneEnable .firmware 15 0x80000000) z = true ∧ runs (.laneEnable .firmware 0 0) (laneUp z) = true ∧
      runs (.enumLane .firmware 0) (laneUp z) = true ∧ fld (0x40000000 : Word) 31 30 = 1 ∧ fld (0x80000000 : Word) 31 30 = 2 ∧
      fld (0 : Word) 31 30 = 0 ∧ fld (0xC0000000 : Word) 31 30 = 3 ∧ regBit (Reg.SRV_LANEl_SVC_RES 0) 31 z = false ∧
      regBit (Reg.SRV_LANEl_SVC_RES 0) 31 (withRegs [(Reg.SRV_LANEl_SVC_RES 0, 0x80000000)] z) = true ∧
      runs (.serviceRequest .firmware 0 0x40000000) z = true := by decide +kernel
theorem witness_CourierLanes_timeout :
    let e : Enum := ⟨4, some 9, 0, false, [], 0, false, 0⟩
    let s := locked { z with lanes := [(0, { Lane.reset with svc := some (5, 9) }), (1, { Lane.reset with enum := some e })] }
    9 < 2 ^ 50 ∧ deviceReset s = false ∧ (getLane 0 s).svc = some (5, 9) ∧ (getLane 1 s).svc = none ∧ (getLane 1 s).enum = some e ∧
      e.sentSlot = some 9 ∧ e.drive ≤ 4 ∧ runs (.serviceTimeout 0) s = true ∧ runs (.serviceTimeout 1) s = true := by decide +kernel
theorem witness_CourierLanes_slot :
    laneOn 0 (laneUp z) = true ∧ srvRunning (servoOn z) = true ∧ runs .slotBoundary (laneUp z) = true := by decide +kernel
theorem witness_CourierLanes_up :
    upChars.length = 39 ∧ leAt upChars 37 2 = (crc16 (upChars.take 37)).toNat ∧
      leAt (slice [] 0 39) 37 2 ≠ (crc16 ((slice [] 0 39).take 37)).toNat ∧
      (decodeFrame (encodeFrame upChars false).1 (getLane 0 (laneUp z)).rxDisp).1 = some upChars ∧
      (decodeFrame (encodeFrame (slice [] 0 39) true).1 (getLane 0 (laneUp z)).rxDisp).1 = some (slice [] 0 39) ∧
      (decodeFrame [] (getLane 0 (laneUp z)).rxDisp).1 = none ∧
      runs (.upFrame 0 (encodeFrame upChars false).1 80 false) (laneUp z) = true ∧
      runs (.upFrame 0 [] 0 false) (laneUp z) = true := by decide +kernel
/-- IEEE 802.3 Tables 36-1 and 36-2: D.0.0, D.11.7, D.17.7 and K28.5 at both running disparities. -/
theorem test_code_groups :
    [dataGroup 0x00 false, dataGroup 0x00 true, dataGroup 0xEB false, dataGroup 0xEB true, dataGroup 0xF1 false,
      dataGroup 0xF1 true, commaGroup false, commaGroup true] =
      [0b1001110100, 0b0110001011, 0b1101001110, 0b1101001000, 0b1000110111, 0b1000110001, 0b0011111010, 0b1100000101] := by
  decide +kernel
/-- R271: the CRC-16 of polynomial 0x8BB7 from 0xFFFF, worked by hand on one bit: 0xFFFF shifts out a 1, which leaves
0xFFFE ⊕ 0x8BB7 = 0x7449. -/
theorem test_crc16_bit : crc16Bit 0xFFFF = 0x7449 := by decide +kernel

/-! ### CAN FD -/

/-- A frame. -/
def canFrame0 : CanFrame := ⟨false, true, false, false, false, 5, 9, slice [0, 0, 0, 0, 0, 0, 0, 0, 1] 0 12⟩
/-- Controller 0 is on the bus. -/
def canUp (s : State) : State := withRegs [(Reg.CAN_Cc_CTL 0, 0x80000000)] s
/-- Controller 0 in a state. -/
def withCan (x : Can) (s : State) : State := { s with cans := [(0, x)] }

theorem witness_CanArbitrationOrder :
    let s := withRegs [(Reg.CAN_Cc_TX_REQ 0, 0x80000001), (Reg.CAN_Cc_TX_BUF 0 0, 7), (Reg.CAN_Cc_TX_BUF 0 620, 7)] (canUp z)
    let x := withCan { Can.reset with axisTx := [(3, some canFrame0)] } s
    let y := withCan { Can.reset with axisTx := [(3, some canFrame0)], safety := some canFrame0 } s
    (getCan 0 y).safety = some canFrame0 ∧ (getCan 0 x).safety = none ∧ canTop 0 x = some (.axis 3, canFrame0) ∧
      (3, some canFrame0) ∈ (getCan 0 x).axisTx ∧ (getCan 0 s).axisTx = [] ∧
      canTop 0 s = some (.buffer 0, bufferFrame 0 0 s) := by decide +kernel
theorem witness_CanTransmission :
    writesNow .firmware z = true ∧ regBit (Reg.CAN_Cc_CTL 0) 30 (withRegs [(Reg.CAN_Cc_CTL 0, 0x40000000)] z) = true ∧
      regBit (Reg.CAN_Cc_CTL 0) 30 (canUp z) = false ∧ runs (.bitTimingWrite .firmware 0 true 5) z = true ∧
      ((getCan 0 (canUp z)).sending = none ∧ (getCan 0 (canUp z)).waiting = false ∧ canOn 0 (canUp z) = true ∧
        regBit (Reg.CAN_Cc_CTL 0) 29 (canUp z) = false) ∧ runs (.canTxRequest .firmware 0 1) (canUp z) = true ∧
      runs (.canTxAbort .firmware 0 1) (canUp z) = true ∧
      (let s := withCan { Can.reset with sending := some (.buffer 31, canFrame0) } (canUp z)
       (getCan 0 s).sending = some (.buffer 31, canFrame0) ∧ (getCan 0 s).txeFull = false ∧ runs (.canTxDone 0 3) s = true ∧
       runs (.canArbitrationLost 0) s = true) ∧
      ({ Can.reset with txeFull := true }).txeFull = true := by decide +kernel
theorem witness_CanErrorsAndReception_errors :
    canOn 0 (canUp z) = true ∧ (if true then tec 0 (canUp z) + 8 else tec 0 (canUp z)) ≤ 255 ∧
      (let s := withRegs [(Reg.CAN_Cc_ERRCNT 0, 0x00F80000)] (canUp z)
       canOn 0 s = true ∧ 255 < tec 0 s + 8 ∧ runs (.canBusError 0 ⟨true, .usual⟩) s = true) ∧ runs (.canBusError 0 ⟨false, .heavy⟩) (canUp z) = true ∧
      (let s := withRegs [(Reg.CAN_Cc_STAT 0, 0x80000000)] z
       writesNow .firmware s = true ∧ canState 0 s = 2 ∧ canState 0 z ≠ 2 ∧ runs (.canRecover .firmware 0) s = true) ∧
      (let s := withRegs [(Reg.CAN_Cc_STAT 0, 0xC0000000)] z
       canState 0 s = 3 ∧ runs (.canRecoveryComplete 0) s = true) := by decide +kernel
theorem witness_CanErrorsAndReception_frames :
    (let s := withRegs [(Reg.CAN_Cc_AXIS_TABLE 0 1, 5), (Reg.CAN_Cc_AXIS_TABLE 0 2, 0x80000000)] (canUp z)
     canOn 0 s = true ∧ measEntry 0 canFrame0 s = some 0 ∧ 12 ≤ canFrame0.data.length ∧
     (byteAt canFrame0.data 8).testBit 0 = true ∧ runs (.canRxFrame 0 canFrame0 7) s = true) ∧
      (let s := withRegs [(Reg.CAN_Cc_FILTf_ID 0 31, 0x80000000)] (canUp z)
       let f := { canFrame0 with fdf := false }
       measEntry 0 f s = none ∧ matchFilter 0 f s = some 31 ∧ (getCan 0 s).rxFull = false ∧
       runs (.canRxFrame 0 f 7) s = true ∧ ({ Can.reset with rxFull := true }).rxFull = true) := by decide +kernel

/-! ### Safety -/

theorem witness_LatchesDropOutputs : (11 : Nat) < 12 ∧ (11 : Nat) ≠ Latch.warnDiag ∨ (0 : Nat) ≠ Latch.warnDiag := by decide +kernel
theorem witness_SafetyControls :
    writesNow .firmware z = true ∧ runs (.safetyForce .firmware) z = true ∧ runs (.tenArm .firmware 0xFFFF) z = true ∧
      (let s := withRegs [(Reg.SAF_LATCH, 0xFFF), (Reg.SRV_STAT, 0x40000000)] z
       (∃ e ∈ standingLatches s, regBit Reg.SAF_LATCH e.1 s = true) ∧ runs (.latchClear .firmware ⟨0xFFF, 0⟩) s = true) ∧
      (∀ e ∈ standingLatches z, bit (0 : Word) e.1 = false) ∧ (fld (0 : Word) 7 0 = 0 ∧ fld (0xFF : Word) 7 0 ≠ 0) ∧
      (fld (0xF0 : Word) 3 0 = 0 ∧ fld (0xF : Word) 3 0 ≠ 0) ∧ runs (.safetyConfigWrite .firmware true 0) z = true ∧
      runs (.safetyConfigWrite .firmware false 15) z = true ∧ getReg Reg.SAF_LATCH z ≠ 0 ∧ regBit Reg.SAF_SF_CFG 31 z = false ∧
      (let s := withRegs [(Reg.SAF_SF_CFG, 0x800000FF)] z
       getReg Reg.SAF_LATCH s ≠ 0 ∧ regFld Reg.SAF_SF_CFG 7 0 s ≠ 0 ∧ regBit Reg.SAF_SF_CFG 31 s = true ∧
       runs .safetyFrameRepeat s = true) := by decide +kernel

/-- A counterfoil program of 68 bytes for BUILD_ID 0 at 0x2000. -/
def withProgram (s : State) : State :=
  wrBytes .dram 0x2000 (slice (wordBytes 0x4C4F4643 ++ wordBytes 68) 0 64 ++ wordBytes 0x6E5380C6)
    (withRegs [(Reg.SAF_CHKk_PROG_LO 15, 0x2000), (Reg.SAF_CHKk_GAP 15, 1000)] s)
/-- Standing entry 0 replays handle 3. -/
def replayEntry (s : State) : State :=
  setStandingEntry 0 ⟨true, 8, { desc0 with replay := true, restartLimit := 1 }, false, none, 0⟩ (withHandle { info0 with hdr := { hdr0 with buildId := 0 } } s)

theorem witness_BindingsAndCounterfoil_enable :
    let s := replayEntry (withProgram z)
    bit (0x80100000 : Word) 31 = true ∧ getReg (Reg.SAF_CHKk_GAP 0) z = 0 ∧ (bindingOk 0 0x80100000 z).1 = false ∧
      (let u := withRegs [(Reg.SAF_CHKk_GAP 0, 5)] z
       getReg (Reg.SAF_CHKk_GAP 0) u ≠ 0 ∧ (bindingOk 0 0x80100000 u).1 = false ∧ runs (.bindingEnable .firmware 0 0x80100000) u = true) ∧
      (getReg (Reg.SAF_CHKk_GAP 15) s ≠ 0 ∧ (bindingOk 15 0x80100000 s).1 = true ∧ (getBinding 15 s).enabled = false) ∧
      runs (.bindingEnable .firmware 15 0x80100000) s = true ∧ runs (.bindingEnable .firmware 15 0) s = true := by decide +kernel
/-- A counterfoil run of job 1 for binding 15, ended, and that binding. -/
def cfRun0 : CfRun := ⟨1, 15, 7, some 9, 20, true, false, []⟩
def binding0 : Binding := { Binding.reset with enabled := true }
/-- The device with runs and binding 15 enabled. -/
def withCf (rs : List CfRun) (j : Job) (s : State) : State :=
  withRegs [(Reg.SAF_CTL, 0x80000000), (Reg.SAF_CHKk_CTL 15, 0x80200000)]
    { withJobs [j] s with saf := { s.saf with runs := rs, bindings := [(15, binding0)] } }

theorem witness_BindingsAndCounterfoil_runs :
    let r := { cfRun0 with startAt := none, ended := false }
    let u := { cfRun0 with ended := false }
    (∀ x ∈ (withCf [r] job0 z).saf.runs, x.startAt.isSome = true → x.ended = true) ∧
      (withCf [r] job0 z).saf.runs.find? (fun r => r.startAt.isNone) = some r ∧ runs .counterfoilRunStart (withCf [r] job0 z) = true ∧
      (withCf [u] job0 z).saf.runs.find? (fun r => r.startAt.isSome && !r.ended) = some u ∧
      runs (.counterfoilRunEnd true [0x40]) (withCf [u] job0 z) = true ∧ (getBinding 15 (withCf [] job0 z)).enabled = true ∧
      (getBinding 15 (withCf [] job0 z)).gap = false ∧ runs (.bindingExpiry 15) (withCf [] job0 z) = true := by decide +kernel
/-- A job that waits for its decision. -/
def deciding0 : Job := { running run0 with stage := .deciding }

theorem witness_ComparatorDecides :
    let s := withCf [cfRun0] deciding0 (withHandle info0 z)
    let d := decisionAt deciding0 cfRun0 s
    nextDecision s = some (d, deciding0, cfRun0) ∧ isRingJob deciding0 = false ∧ deciding0.proof = none ∧
      (getBinding cfRun0.binding s).enabled = true ∧ (cfDecide deciding0 cfRun0 (runTo d s)).1 = true ∧ deciding0.decided = [] ∧
      (∀ x ∈ s.saf.runs, x.uid = deciding0.uid → x.binding = cfRun0.binding) ∧ runs .comparatorDecision s = true := by
  decide +kernel
theorem witness_ComparatorDecides_disagrees :
    let r := { cfRun0 with bad := true }
    let j := { deciding0 with isReplay := true }
    let s := withCf [r] deciding0 (withHandle info0 z)
    let u := withCf [r] j (withHandle info0 z)
    nextDecision s = some (decisionAt deciding0 r s, deciding0, r) ∧ (cfDecide deciding0 r s).1 = false ∧
      deciding0.isReplay = false ∧ nextDecision u = some (decisionAt j r u, j, r) ∧ (cfDecide j r u).1 = false ∧
      j.isReplay = true ∧ runs .comparatorDecision s = true ∧ runs .comparatorDecision u = true := by decide +kernel
theorem witness_ComparatorDecides_proof :
    let j := { deciding0 with proof := some 15 }
    let r := { cfRun0 with bad := true }
    let s := withCf [cfRun0] j (withHandle info0 z)
    let u := withCf [r] j (withHandle info0 z)
    nextDecision s = some (decisionAt j cfRun0 s, j, cfRun0) ∧ (proofPasses j cfRun0 (runTo (decisionAt j cfRun0 s) s)).1 = true ∧
      nextDecision u = some (decisionAt j r u, j, r) ∧ (proofPasses j r (runTo (decisionAt j r u) u)).1 = false ∧
      runs .comparatorDecision s = true ∧ runs .comparatorDecision u = true := by decide +kernel
theorem witness_ComparatorDecides_output :
    let s := withHandle { info0 with bounds := [⟨0, 2, 4, 0, 8⟩] } z
    deciding0.outs = [] ∧ 4 ∈ outputsOf deciding0 s ∧ backLocked (getHandoff (fabricKey 4) s) = false := by decide +kernel

/-! ### Ring -/

/-- The ring is UP with `n` devices; bit 28 of `pins` is MASTER_SEL. -/
def ringOf (n pins : Nat) (s : State) : State :=
  withRegs [(Reg.RNG_CTL, 0x80000002), (Reg.RNG_STAT, word (0x60000000 + n * 2 ^ 12 + pins))] s
/-- Port 0 in a state of its training. -/
def portIn (st : Nat) (s : State) : State := withRegs [(Reg.RNG_Pp_STAT 0, word (st * 2 ^ 29))] s
/-- An IDLE flit of zeros with its CRC-32. -/
def flit0 : Flit := ⟨List.replicate 268 0 ++ wordBytes 0x7AEE6CB9⟩

/-- The CRC of 268 zeros, in four steps. -/
theorem crc32_zeros : crc32 (List.replicate 268 0) = 0x7AEE6CB9 := by
  have h : List.replicate 268 (0 : Byte) = List.replicate 67 0 ++ (List.replicate 67 0 ++ (List.replicate 67 0 ++
      List.replicate 67 0)) := by decide +kernel
  have h1 : (List.replicate 67 (0 : Byte)).foldl (crcByte 0xEDB88320) 0xFFFFFFFF = 0xFD817843 := by decide +kernel
  have h2 : (List.replicate 67 (0 : Byte)).foldl (crcByte 0xEDB88320) 0xFD817843 = 0xF7B560F9 := by decide +kernel
  have h3 : (List.replicate 67 (0 : Byte)).foldl (crcByte 0xEDB88320) 0xF7B560F9 = 0x9452B5D3 := by decide +kernel
  have h4 : (List.replicate 67 (0 : Byte)).foldl (crcByte 0xEDB88320) 0x9452B5D3 = 0x85119346 := by decide +kernel
  rw [crc32, crcRefl, h, List.foldl_append, List.foldl_append, List.foldl_append, h1, h2, h3, h4]
  decide
theorem witness_RingLinks_crc : crc32 (slice (slice flit0.bytes 0 272) 0 268) = wordAt (slice flit0.bytes 0 272) 268 := by
  have h : slice (slice flit0.bytes 0 272) 0 268 = List.replicate 268 0 := by decide +kernel
  rw [h, crc32_zeros]
  decide +kernel
theorem witness_RingLinks_flit :
    let s := portIn 5 z
    let b := slice flit0.bytes 0 272
    portState ((0 : Fin 2) : Nat) s = 5 ∧ portState 0 z ≠ 5 ∧ flitSeq b = (getPort 0 s).rxNext.toNat ∧ leAt b 0 2 / 2 ^ 14 < 2 := by
  decide +kernel
theorem witness_RingLinks_bad :
    decide (crc32 (List.replicate 268 0) = wordAt (slice (List.replicate 272 0) 0 272) 268) = false := by
  rw [crc32_zeros]; decide +kernel
theorem witness_RingLinks_ack :
    let x := { RingPort.reset with unacked := [[1]], retries := 7 }
    let s := setPort 0 x (portIn 5 z)
    (getPort 0 s).unacked ≠ [] ∧ portState 0 s = 5 ∧ 8 ≤ (getPort 0 s).retries + 1 ∧ (getPort 0 z).unacked = [] ∧
      runs (.ackTimeout 0) s = true := by decide +kernel
theorem witness_RingLinks_training :
    linkClerkUp z = true ∧ portState 0 (portIn 4 z) ∈ [1, 2, 3, 4] ∧ portState 0 (portIn 6 z) = 6 ∧
      portState 0 (portIn 2 z) ∈ [1, 2] ∧ (let s := setPort 0 { RingPort.reset with eqFails := 2 } (portIn 2 z)
        3 ≤ (getPort 0 s).eqFails + 1 ∧ portState 0 (after (.trainingStep 0 ⟨false, false, 0⟩) s) = 7) ∧
      runs (.trainingStep 0 ⟨true, false, 0⟩) (portIn 1 z) = true ∧
      portState 0 (after (.trainingStep 0 ⟨false, false, 0⟩) (portIn 2 z)) ≠ 7 := by decide +kernel
theorem witness_RingLinks_bypass :
    let s := ringOf 2 0 z
    portState ((0 : Fin 2) : Nat) s ≠ 5 ∧ ringUp s = true ∧ ringUp z = false ∧ runs (.lossOfBlockLock ⟨0, true⟩) s = true ∧
      portState 0 (portIn 3 z) ∈ [3, 6] ∧ portState 0 (portIn 6 z) ∈ [3, 6] := by decide +kernel
theorem witness_RingLinks_enable :
    writesNow .firmware z = true ∧ bit (0x80000000 : Word) 31 = true ∧ bit (0x80000000 : Word) 30 = false ∧ portState 0 z = 0 ∧
      portState 0 (portIn 5 z) ≠ 0 ∧ runs (.portEnable .firmware 1 0x80000000) z = true ∧
      runs (.portRetrain .firmware 0) (portIn 5 z) = true ∧ runs (.lossOfBlockLock ⟨0, false⟩) (portIn 5 z) = true ∧
      (let s := withRegs [(Reg.RNG_CTL, 0x80000002)] (portIn 5 z)
       regBit Reg.RNG_CTL 31 s = true ∧ portState 0 s = 5 ∧ runs (.lossOfBlockLock ⟨0, true⟩) s = true) := by decide +kernel

theorem witness_RingResets_enable :
    bit (0x80000002 : Word) 31 = true ∧ fld (0x80000000 : Word) 3 0 = 0 ∧ fld (0x80000002 : Word) 3 0 ≠ 0 ∧
      (bit (0x80000002 : Word) 30 = false ∧ bit (0x80000002 : Word) 28 = false) ∧ regBit Reg.RNG_CTL 31 z = false ∧
      regBit Reg.RNG_CTL 31 (ringOf 2 0 z) = true ∧ runs (.ringEnable .firmware 0x80000002) z = true ∧
      runs (.ringEnable .firmware 2) (ringOf 2 0 z) = true ∧ isMaster (ringOf 2 0x10000000 z) = true ∧ isMaster z = false ∧
      runs (.ringResetStart (some .firmware)) (ringOf 2 0x10000000 z) = true := by decide +kernel
theorem witness_RingResets_token :
    let s := ringOf 2 0x10000000 { z with ring := { z.ring with resetAt := some 0 } }
    regBit Reg.RNG_CTL 31 s = true ∧ isMaster s = true ∧ resetReason [0, 1] false s = 0 ∧ resetReason [0, 0] false s ≠ 0 ∧
      s.ring.resetAt = some 0 ∧ runs (.resetToken ⟨0, 0⟩ 0 0 [0, 1] false 0 0) s = true ∧ runs .ringResetTimeout s = true ∧
      (let u := ringOf 2 1 z
       regBit Reg.RNG_CTL 31 u = true ∧ isMaster u = false ∧ ([0, 2, 3, 4, 5, 6, 7] : List (BitVec 3)).length < 8 ∧
       runs (.resetToken ⟨5, 3⟩ 7 9 [0] false 0 0) u = true ∧ runs (.resetToken ⟨5, 3⟩ 7 9 [0] true 0 0) u = true) ∧
      (let v := withRegs [(Reg.RNG_CTL, 0x80000002), (Reg.RNG_STAT, 0x20000000)] z
       v.ring.resetAt = none ∧ isMaster v = false ∧ regBit Reg.RNG_CTL 31 v = true ∧ regFld Reg.RNG_STAT 31 29 v = 1 ∧
       runs .ringResetTimeout v = true) := by decide +kernel

/-- A ring job. -/
def ringJob (st : JobStage) (r : Run) : Job :=
  { running r with stage := st, ports := (true, true) }
/-- A ring with that job, a barrier of it and a release instant. -/
def barrier (start : Bool) (v : BitVec 2) (j : Job) (pins : Nat) (s : State) : State :=
  ringOf 2 pins { withJobs [j] (withHandle info0 s) with
    ring := { s.ring with arrived := some (0, 5), barrierOf := some (1, start), releaseAt := some (⟨9, 3⟩, v) } }

theorem witness_RingBarriers_arrive :
    let m := barrier true 0 (ringJob .startBarrier run0) 0x10000000 z
    let u := barrier true 0 (ringJob .startBarrier run0) 0 z
    (ringUp m = true ∧ (0 : Word) = getReg Reg.RNG_BARRIER_SEQ m ∧ isMaster m = true ∧ m.ring.arrived = some (0, 5)) ∧
      (ringUp u = true ∧ isMaster u = false ∧ u.ring.arrived = some (0, 5)) ∧ (1 : Word) ≠ getReg Reg.RNG_BARRIER_SEQ m ∧
      ringUp z = false ∧ (ringOf 2 0 z).ring.arrived = none ∧ runs (.arrive 0 2) m = true ∧ runs (.arrive 0 2) u = true := by
  decide +kernel
theorem witness_RingBarriers_release :
    let u := barrier true 0 (ringJob .startBarrier run0) 0 z
    let late := { u with clk := ⟨5000, 104, 0⟩ }
    (ringUp u = true ∧ isMaster u = false ∧ (0 : Word) = getReg Reg.RNG_BARRIER_SEQ u ∧ now u ≤ instantRoot ⟨9, 3⟩ u) ∧
      instantRoot ⟨9, 3⟩ late < now late ∧ (∀ x, late.ring.barrierOf = some x → x.2 = true) ∧
      runs (.release 0 ⟨9, 3⟩ 0) u = true ∧ runs (.release 0 ⟨9, 3⟩ 0) late = true := by
  refine ⟨by decide +kernel, by decide +kernel, ?_, by decide +kernel, by decide +kernel⟩
  intro x h
  cases h
  rfl
theorem witness_RingBarriers_released :
    (let s := barrier true 0 (ringJob .startBarrier run0) 0 z
     s.ring.releaseAt = some (⟨9, 3⟩, 0) ∧ getJob 1 s = some (ringJob .startBarrier run0) ∧ s.ring.barrierOf = some (1, true) ∧
     (ringJob .startBarrier run0).run = some run0 ∧ run0.image.hdr.schedLen ≠ 0 ∧
     runs .barrierRelease s = true) ∧
      (∀ v ∈ ([0, 1, 2, 3] : List (BitVec 2)), let s := barrier false v (ringJob .acceptBarrier run0) 0 z
       s.ring.releaseAt = some (⟨9, 3⟩, v) ∧ getJob 1 s = some (ringJob .acceptBarrier run0) ∧
       s.ring.barrierOf = some (1, false) ∧ runs .barrierRelease s = true) ∧ z.ring.releaseAt = none := by decide +kernel
theorem witness_RingBarriers_lap :
    z.ring.lapOpen = [] ∧ (let s := ringOf 2 0x10000000 { z with ring := { z.ring with lapOpen := [(9, 1), (3, 0)] } }
      (s.ring.lapOpen.map (·.1)).min? = some 3 ∧ runs .barrierTimeout s = true ∧ ringUp s = true ∧ isMaster s = true ∧
      (∀ l ∈ s.ring.lapOpen, l.2 ≠ 5) ∧ now s ≤ instantRoot ⟨9, 3⟩ s ∧ runs (.release 0 ⟨9, 3⟩ 0) s = true ∧
      (let u := { s with clk := ⟨5000, 104, 0⟩ }
       instantRoot ⟨9, 3⟩ u < now u ∧ (∃ l ∈ u.ring.lapOpen, l.2 = 0) ∧ runs (.release 0 ⟨9, 3⟩ 0) u = true)) := by decide +kernel

theorem witness_RingMessagesAndTransfers_bcast :
    let m := ringOf 2 0x10000000 z
    let u := ringOf 2 0x01000000 z
    (regBit Reg.RNG_CTL 31 m = true ∧ 2 ≤ regFld Reg.RNG_STAT 31 29 m ∧ isMaster m = true) ∧
      (regBit Reg.RNG_CTL 31 u = true ∧ isMaster u = false ∧ byteAt [3, 1] 0 = 3 ∧ byteAt [3, 1] 1 = ringPos u) ∧
      (∀ k ∈ [1, 2, 5, 6], runs (.bcast [BitVec.ofNat 8 k, 0]) u = true) ∧ (byteAt [2, 2] 0 = 2 ∧ byteAt [2, 2] 1 ≤ 2) ∧
      (byteAt [6, 0] 0 = 6 ∧ byteAt [6, 0] 1 = 0) := by decide +kernel
theorem witness_RingMessagesAndTransfers_snap :
    let m := ringOf 2 0x10000000 z
    let u := ringOf 2 0x01000000 z
    writesNow .firmware m = true ∧ ringUp m = true ∧ ringUp u = true ∧ runs (.snap (some .firmware) ⟨0, 0⟩) m = true ∧
      runs (.snap none ⟨9, 0⟩) u = true ∧ runs (.collect [List.replicate 64 5]) m = true ∧ runs (.collect []) u = true ∧
      ([List.replicate 64 5] : List SnapRecord)[0]? = some (List.replicate 64 5) := by decide +kernel
theorem witness_RingMessagesAndTransfers_abort :
    let j := ringJob .running run0
    let s := ringOf 2 0 (withJobs [j] (withHandle info0 z))
    s.disp.jobs = [j] ∧ goesOn j = true ∧ isRingJob j = true ∧ j.desc.jobId = 7 ∧ ringUp s = true ∧ ringUp z = false ∧
      (1 : Fin 8) ≠ ringPos s ∧ (0 : Fin 8) = ringPos s ∧
      (∀ j ∈ s.disp.jobs, goesOn j = true → isRingJob j = true → j.desc.jobId ≠ 8) ∧
      runs (.abort ⟨1, 7⟩ 5) s = true ∧ runs (.abort ⟨1, 8⟩ 5) s = true := by decide +kernel

/-- A transfer descriptor of R355: its flags (WEST, RFMT), bank 1, peer 1, channel 2. -/
def transferDesc (flags : Byte) : Desc := ⟨3, 0, slice [3, flags, 1, 0, 0, 0, 0, 0, 1, 2] 0 32⟩
/-- An image with one record of an action that names it, on tile 0. -/
def ringImage (action : Nat) (flags : Byte) : Image :=
  { image1 with tiles := [{ tile0 0 with prog := [transferDesc flags] }], sched := [record action 0 8] }
/-- A ring transfer with peer 1 over channel 2 that waits. -/
def ringFlight0 : Flight := ⟨0, 0, 0, [], 9, none, 0, 3, 0, 0, none, some (1, 2, 0, false)⟩
/-- A run that waits for its peer on that record. -/
def ringRun (action : Nat) (flags : Byte) : Run :=
  { run0 with image := ringImage action flags, copies := [ringFlight0] }
/-- The device that runs it in a ring of two. -/
def ringRunning (action : Nat) (flags : Byte) : State :=
  ringOf 2 0 (withJobs [ringJob .running (ringRun action flags)] (withHandle info0 z))

theorem witness_RingMessagesAndTransfers_ready :
    let r := ringRun 2 1
    let j := ringJob .running r
    let s := ringRunning 2 1
    s.disp.jobs = [j] ∧ j.stage = .running ∧ j.run = some r ∧ isRingJob j = true ∧ s.marks = [] ∧
      ringFlight r ((1 : Fin 8) : Nat) ((2 : Fin 64) : Nat) 0 true = some ringFlight0 ∧
      r.image.sched[0]? = some (record 2 0 8) ∧ descOf r.image (record 2 0 8) = some (transferDesc 1) ∧
      ringFlight r 0 63 0 true = none ∧ runs (.ready 1 2 0) s = true ∧ runs (.ready 0 63 0) s = true := by decide +kernel
theorem witness_RingMessagesAndTransfers_transfer :
    ∀ f ∈ ([0, 2, 4] : List Byte), let r := ringRun 1 f
      let s := ringRunning 1 f
      ringFlight r ((1 : Fin 8) : Nat) ((2 : Fin 64) : Nat) 0 false = some ringFlight0 ∧
      r.image.sched[0]? = some (record 1 0 8) ∧ descOf r.image (record 1 0 8) = some (transferDesc f) ∧
      (List.replicate 8 (1 : Byte)).length = align8 (record 1 0 8).length ∧ s.bankLog = [] ∧ ((1 : Fin 8) : Nat) < regFld Reg.RNG_STAT 15 12 s ∧
      8 ≤ bankSize (parseTransfer (transferDesc f)).bank ∧ (parseTransfer (transferDesc f)).rfmt = f.toNat / 2 ∧
      runs (.ringTransferMessage 1 2 0 (List.replicate 8 1)) s = true ∧ runs (.ringTransferMessage 1 2 0 []) s = true ∧
      ringFlight r 0 63 0 false = none := by decide +kernel

/-! ### Time and Ethernet -/

theorem witness_TimeControls_writes :
    writesNow .host (maint z) = true ∧ writesNow .firmware z = true ∧ ringUp z = false ∧ z.tim.stepNext = none ∧ deviceReset (locked z) = false ∧
      notMaster (ringOf 2 0 z) = true ∧ (ringUp (ringOf 2 0x10000000 z) = true ∧ isMaster (ringOf 2 0x10000000 z) = true) ∧
      runs (.tickRead .host) (maint z) = true ∧ runs (.timeStep .firmware 5) z = true ∧ runs (.rateWrite .firmware 5) z = true ∧
      (∀ u ∈ [TimeUpdate.rate 5, .step 5], let s := { z with tim := { z.tim with updates := [(⟨9, 0⟩, u)] } }
       s.tim.updates = [(⟨9, 0⟩, u)] ∧ runs .timeUpdateApply s = true) := by decide +kernel
/-- R405, worked by hand: RATE 2^20 is limited to 858 993, so one tick of 48 root cycles adds 2^32 + 858 993. -/
theorem test_rate_limit :
    netTime (advance 48 (withRegs [(Reg.TIM_RATE, 0x100000)] (locked z))) = 4294967296 + 858993 := by decide +kernel
theorem witness_TimeControls_ptp :
    let s := withRegs [(Reg.ETH_Mm_CTL 1, 0x80000000), (Reg.TIM_DOMd_CFG 1, 0x8002000A), (Reg.TIM_DOMd_CFG 0, 0x81000000)]
      { z with macs := [(1, { Mac.reset with linkUp := true })] }
    let r : PtpReport := ⟨1, 9, false, 10, .sync, 4, 5, 6, false, 7, 8⟩
    linkClerkUp s = true ∧ macUp r.port s = true ∧ macUp 0 s = false ∧
      r.kind ∉ [PtpKind.pdelayReq, .pdelayResp, .pdelayFollowUp] ∧ ptpMatches 1 r s = true ∧
      ptpMatches 0 r s = false ∧ (∀ d < 2, ptpMatches d { r with number := 11 } s = false) ∧ runs (.ptpMessage r) s = true ∧
      (∃ d < 2, regBit (Reg.TIM_DOMd_CFG d) 31 s = true ∧ regBit (Reg.TIM_DOMd_CFG d) 24 s = true) ∧
      runs (.ptpMessage { r with kind := .pdelayReq }) s = true ∧
      (let u := { s with tim := { s.tim with sent := [⟨1, .pdelayReq, 10, 4, 3⟩] } }
       sentOf r.port .pdelayReq r.number r.seq u = some 3 ∧ runs (.ptpMessage { r with kind := .pdelayResp }) u = true) ∧
      (let u := { s with tim := { s.tim with sent := [⟨1, .delayReq, 10, 4, 3⟩], holding := true
                                             domains := [(1, ⟨0, 8, 0, true, some (4, 9), some 5, 0⟩)] } }
       sentOf r.port .delayReq r.number r.seq u = some 3 ∧ (getDomain 1 u).lag = some 5 ∧
       (getDomain 1 u).sync = some (r.seq, 9) ∧ (∀ e < 1, ptpMatches e r u = false) ∧ u.tim.holding = true ∧
       ptpMatches (activeDomain u) r u = false ∧ runs (.ptpMessage { r with kind := .delayResp }) u = true ∧
       runs (.ptpMessage { r with kind := .followUp }) u = true ∧ runs (.ptpMessage { r with kind := .announce }) u = true) := by
  decide +kernel
/-- R416: a domain that has locked steps network time no more. -/
theorem witness_TimeControls_locked :
    let s := withRegs [(Reg.ETH_Mm_CTL 1, 0x80000000), (Reg.TIM_DOMd_CFG 0, 0x8002000A)]
      { z with macs := [(1, { Mac.reset with linkUp := true })], tim := { z.tim with domains := [(0, ⟨0, 8, 0, true, none, none, 0⟩)] } }
    let r : PtpReport := ⟨1, 0, false, 10, .sync, 4, 5, 0x100000000, false, 7, 8⟩
    (∀ d < 2, ptpMatches d r s = true → (getDomain d s).locked = true) ∧ ptpMatches 0 r s = true ∧
      (after (.ptpMessage r) s).tim.stepNext = none ∧
      (after (.ptpMessage r) { s with tim := z.tim }).tim.stepNext = some 1 := by decide +kernel
theorem witness_TimeControls_announce :
    (let s := withRegs [(Reg.TIM_STAT, 3)] z
     linkClerkUp s = true ∧ tracks (activeDomain s) s = true ∧
     (tracks (1 - activeDomain s) s && decide ((getReg (Reg.TIM_DOMd_OFS (1 - activeDomain s)) s).toInt.natAbs ≤
       256 * regFld Reg.TIM_SWITCH_MAX 15 0 s)) = true ∧ runs .announceTimeout s = true) ∧
      (let s := withRegs [(Reg.TIM_STAT, 1)] z
       tracks (activeDomain s) s = true ∧ tracks (1 - activeDomain s) s = false ∧ runs .announceTimeout s = true) ∧
      tracks (activeDomain z) z = false ∧
      (let s := { z with tim := { z.tim with slew := some (9, 5) } }
       s.tim.slew = some (9, 5) ∧ linkClerkUp s = true ∧ ringUp s = false ∧ runs .slewEnd s = true) := by decide +kernel

/-- MAC 0 is up with its transmit ring of 4 entries at 0x5000 in host memory, and rule 7 takes EtherType 0x1234 to queue 1. -/
def macOn (s : State) : State :=
  withRegs [(Reg.ETH_Mm_CTL 0, 0x80000000), (Reg.ETH_Mm_TXR_CTL 0, 0x80000004), (Reg.ETH_TXR_TAIL 0, 1),
    (Reg.ETH_Mm_TXR_BASE_LO 0, 0x5000), (Reg.ETH_Mm_RULEr_MATCH 0 7, 0x80001234), (Reg.ETH_Mm_RULEr_SRT 0 7, 0x100),
    (Reg.SRT_Qq_CTL 1, 0x80000004)] { s with macs := [(0, { Mac.reset with linkUp := true })] }
/-- A frame of an EtherType with a payload of `n` bytes. -/
def etherFrame (t : List Byte) (n : Nat) : List Byte := List.replicate 12 1 ++ t ++ List.replicate n 2

theorem witness_EthernetFrames_receive :
    let s := macOn z
    let f := etherFrame [0x12, 0x34] 8
    let g := etherFrame [0x12, 0x35] 8
    macUp ((0 : Fin 2) : Nat) s = true ∧ macUp 1 s = false ∧ f.length ≤ 9216 ∧ (frameInfo f).etype ≠ 0x8808 ∧
      isPtp (frameInfo f) = false ∧ (frameInfo f).udp.elim false (fun u => decide (u.1 = regFld (Reg.ETH_Mm_CTL 0) 15 0 s)) = false ∧
      (∀ r < 8, ruleMatches 0 r (frameInfo g) s = false) ∧ ruleMatches 0 7 (frameInfo f) s = true ∧
      (∀ k < 7, ruleMatches 0 k (frameInfo f) s = false) ∧ 8 ≤ (rulePayload 0 7 f (frameInfo f) s).length ∧
      sorterFull 1 s = false ∧ (rulePayload 0 7 (etherFrame [0x12, 0x34] 7) (frameInfo f) s).length < 8 ∧
      (∀ i < 32, dramHas ((0 + 32 * 0 + i) % 2 ^ 64) s = true ∧ inLedger ((0 + 32 * 0 + i) % 2 ^ 64) = false) := by
  decide +kernel
theorem witness_EthernetFrames_runs :
    let s := macOn z
    runs (.ethRxFrame 0 (etherFrame [0x12, 0x34] 8) 3) s = true ∧ runs (.ethRxFrame 0 (etherFrame [0x12, 0x35] 8) 3) s = true ∧
      runs (.ethRxFrame 0 (etherFrame [0x12, 0x34] 7) 3) s = true := by decide +kernel
theorem witness_EthernetFrames_transmit :
    ∀ pm ∈ ([0, 1] : List Byte), let s := hostStore 0x5008 [60, 0, 7, 0, pm] (macOn z)
      let e := hostBytes ((reg64 (Reg.ETH_Mm_TXR_BASE_LO 0) (Reg.ETH_Mm_TXR_BASE_HI 0) s).toNat + 16 * 0) 16 s
      macUp 0 s = true ∧ regBit (Reg.ETH_Mm_TXR_CTL 0) 31 s = true ∧ regFld (Reg.ETH_Mm_TXR_CTL 0) 15 0 s ≠ 0 ∧
      (getReg (Reg.ETH_Mm_TXR_HEAD 0) s).toNat ≠ (getReg (Reg.ETH_TXR_TAIL 0) s).toNat % 4 ∧ leAt e 8 2 ≤ 9216 ∧
      (getMac 0 s).postmarks.length < 32 ∧ (byteAt e 12).testBit 0 = decide (pm = 1) ∧ runs (.ethTxFrame 0) s = true := by
  decide +kernel
/-- R419, worked by hand: on a full queue a pop in the cycle of a stamp keeps that stamp's postmark. -/
theorem witness_EthernetFrames_pop :
    let s := hostStore 0x5008 [60, 0, 7, 0, 1] (macOn z)
    let s := setMac 0 { getMac 0 s with postmarks := List.replicate 32 [1] } s
    let e := hostBytes ((reg64 (Reg.ETH_Mm_TXR_BASE_LO 0) (Reg.ETH_Mm_TXR_BASE_HI 0) s).toNat + 16 * 0) 16 s
    writesNow .firmware s = true ∧ macUp 0 s = true ∧ regBit (Reg.ETH_Mm_TXR_CTL 0) 31 s = true ∧ leAt e 8 2 ≤ 9216 ∧
      (byteAt e 12).testBit 0 = true ∧ (getMac 0 s).postmarks.length ≤ 32 ∧
      (getMac 0 (after (.postmarkPop .firmware ⟨0, true⟩) s)).postmarks.length = 32 ∧
      (getMac 0 (after (.postmarkPop .firmware ⟨0, false⟩) (after (.ethTxFrame 0) s))).postmarks.length = 31 := by decide +kernel
theorem witness_EthernetFrames_control :
    writesNow .firmware z = true ∧ (getMac 0 z).postmarks = [] ∧ runs (.postmarkPop .firmware ⟨0, false⟩) z = true ∧
      (let s := { z with macs := [(0, { Mac.reset with postmarks := [[1], [2]] })] }
       (getMac 0 s).postmarks = [1] :: [[2]] ∧ ([[2]] : List (List Byte)).length < 32 ∧ runs (.postmarkPop .firmware ⟨0, false⟩) s = true) ∧
      (4 < fld (0xF0000000 : Word) 30 28 ∧ fld (0xC0000000 : Word) 30 28 ≤ 4) ∧
      runs (.macCtlWrite .firmware 1 0xC0000000) z = true ∧ regBit (Reg.ETH_Mm_CTL 0) 31 (macOn z) = true ∧
      regBit (Reg.ETH_Mm_CTL 0) 31 z = false ∧ runs (.ethLinkUp 0) (macOn z) = true := by decide +kernel

end Sys2Proof.Tests
end

section
/-! Host accesses to BAR0: what `execHostRegisterWrite` and `execRcRead` do by width, alignment and range, what a write to a
block does at its crossing, and the settlements of O8 and O11. -/

namespace Sys2Proof.Machine

open Sys2Proof.Config

/-! ### A use of the maintenance session -/

/-- Marking the maintenance session as used by a command is marking it as used by a host access. -/
theorem touchMaint_maint (s : State) : touchMaint .maint s = usedBy .host s := by
  cases h : s.sess.maint <;> simp only [touchMaint, usedBy, h, Option.map_none, Option.map_some]
  rw [← h]

@[simp] theorem crossingAt_usedBy (k : Nat) (w : Writer) (s : State) : crossingAt k (usedBy w s) = crossingAt k s := by
  cases w <;> rfl

/-! ### W1C bits that hardware sets in the cycle of a write -/

@[simp] theorem setMeanwhile_zero (off : Nat) (s : State) : setMeanwhile off 0 s = s := by
  cases h : regRowAt off <;> simp [setMeanwhile, h]

/-- Bits set meanwhile change their register alone. -/
theorem onlyRegs_setMeanwhile (off : Nat) (sets : Word) (s : State) : onlyRegs [off] s (setMeanwhile off sets s) := by
  unfold setMeanwhile
  split
  · exact onlyRegs_refl _ s
  · split
    · exact onlyRegs_refl _ s
    · exact onlyRegs_setReg _ _ s

theorem getReg_setMeanwhile {off : Nat} {r : RegRow} (sets : Word) (s : State) (hr : regRowAt off = some r) :
    getReg off (setMeanwhile off sets s) = getReg off s ||| (sets &&& r.w1c) := by
  simp only [setMeanwhile, hr]
  split
  · next h => rw [h, BitVec.ofNat_eq_ofNat, BitVec.or_zero]
  · exact getReg_setReg_same _ _ _

/-! ### Writes without an action of their own -/

/-- A plain write changes its register alone. -/
theorem onlyRegs_plainWrite (off : Nat) (v : Word) (s : State) : onlyRegs [off] s (plainWrite off v s) := by
  unfold plainWrite
  split
  · exact onlyRegs_refl _ s
  · split <;> exact onlyRegs_setReg _ _ s

/-- What a plain write leaves in its register, by the register's access codes. -/
theorem getReg_plainWrite {off : Nat} {r : RegRow} (v : Word) (s : State) (hr : regRowAt off = some r) :
    getReg off (plainWrite off v s) =
      if r.wo then v else ((getReg off s &&& ~~~r.rw) ||| (v &&& r.rw)) &&& ~~~(v &&& r.w1c) := by
  by_cases h : r.wo = true <;> simp [plainWrite, hr, h]

/-- A plain write clears the W1C bits written 1 of a register without other software-writable bits. -/
theorem getReg_plainWrite_w1c {off : Nat} {r : RegRow} (v : Word) (s : State) (hr : regRowAt off = some r)
    (hwo : r.wo = false) (hrw : r.rw = 0) : getReg off (plainWrite off v s) = getReg off s &&& ~~~(v &&& r.w1c) := by
  rw [getReg_plainWrite v s hr, hwo, hrw]
  simp only [Bool.false_eq_true, if_false, BitVec.ofNat_eq_ofNat, BitVec.not_zero, BitVec.and_allOnes, BitVec.and_zero,
    BitVec.or_zero]

/-- A plain write is what a register holds of which software may write every bit. -/
theorem getReg_plainWrite_full {off : Nat} {r : RegRow} (v : Word) (s : State) (hr : regRowAt off = some r)
    (hrw : r.wo = true ∨ r.rw = BitVec.allOnes 32) (hw1c : r.w1c = 0) : getReg off (plainWrite off v s) = v := by
  rw [getReg_plainWrite v s hr, hw1c]
  rcases hrw with hwo | hrw
  · rw [hwo, if_pos rfl]
  · simp only [hrw, BitVec.ofNat_eq_ofNat, BitVec.not_allOnes, BitVec.and_zero, BitVec.zero_or, BitVec.not_zero,
      BitVec.and_allOnes, ite_self]

/-- A plain write, and bits set meanwhile, change their register alone. -/
theorem onlyRegs_setMeanwhile_plainWrite (off : Nat) (v sets : Word) (s : State) :
    onlyRegs [off] s (setMeanwhile off sets (plainWrite off v s)) := by
  have h := onlyRegs_trans (onlyRegs_plainWrite off v s) (onlyRegs_setMeanwhile off sets (plainWrite off v s))
  exact ⟨fun p hp => h.1 p (by simpa using hp), h.2⟩

/-! ### What a host access does -/

/-- A host write of 32 aligned bits, with the PCIe domain on. -/
theorem exec_hostRegisterWrite_aligned (off : BitVec 26) (v : BitVec 64) (sets : Word) (s : State)
    (ha : off.toNat % 4 = 0) (hp : pcieUp (deliver (usedBy .host s)) = true) :
    exec (.hostRegisterWrite off .w32 ⟨v, sets⟩) s =
      .next (setMeanwhile off.toNat sets (hostWrite off.toNat (v.truncate 32) sets (deliver (usedBy .host s)))) := by
  simp only [exec, execHostRegisterWrite, touchMaint_maint, hp, ha, Bool.not_true, Bool.false_eq_true, if_false, and_self,
    if_true]

/-- A host write of another width or alignment (R3): of its value nothing is used. -/
theorem exec_hostRegisterWrite_misaligned (off : BitVec 26) (w : Width) (x : HostWrite) (s : State)
    (hm : w ≠ .w32 ∨ off.toNat % 4 ≠ 0) :
    exec (.hostRegisterWrite off w x) s =
      .next (let u := deliver (usedBy .host s)
        if !pcieUp u then u
        else setMeanwhile (off.toNat / 4 * 4) x.sets (if writeClosed off.toNat u then logClosed off.toNat u else u)) := by
  have hm' : ¬(w = .w32 ∧ off.toNat % 4 = 0) := by tauto
  simp only [exec, execHostRegisterWrite, touchMaint_maint, hm', if_false]

/-- A host read of another width or alignment (R3), with the PCIe domain on. -/
theorem exec_rcRead_misaligned (off : BitVec 26) (w : Width) (inc : BitVec 32) (s : State)
    (hm : w ≠ .w32 ∨ off.toNat % 4 ≠ 0) (hp : pcieUp (deliver (usedBy .host s)) = true) :
    exec (.rcRead off ⟨w, inc⟩) s =
      .next (let u := deliver (usedBy .host s)
        returnTo .host 0 (if rangeClosed off.toNat u then logClosed off.toNat u else u)) := by
  have hm' : ¬(w = .w32 ∧ off.toNat % 4 = 0) := by tauto
  simp only [exec, execRcRead, touchMaint_maint, hp, Bool.not_true, Bool.false_eq_true, hm', if_false]

/-- A maintenance session opens every range to writes (R22, R324). -/
theorem writeClosed_of_maint (off : Nat) (s : State) (h : s.sess.maint.isSome = true) : writeClosed off s = false := by
  have hn : s.sess.maint.isNone = false := by simpa using h
  cases hb : barRange off <;> simp [writeClosed, hb, hn]

/-- A maintenance session opens every range to reads (R22). -/
theorem rangeClosed_of_maint (off : Nat) (s : State) (h : s.sess.maint.isSome = true) : rangeClosed off s = false := by
  have hn : s.sess.maint.isNone = false := by simpa using h
  cases hb : barRange off <;> simp [rangeClosed, hb, hn]

/-! ### What an event leaves in memory -/

/-- An event leaves every memory as it reads. -/
theorem memKept_raise (src : Nat) (ev : Ev) (code : Nat) (d : List (Option Word)) (s : State) :
    memKept s (raise src ev code d s) := by
  have hp : getReg Reg.MEM_POP (raise src ev code d s) = getReg Reg.MEM_POP s := getReg_raise _ _ _ _ _ _ (by decide)
  have h := raise_frame src ev code d s
  generalize raise src ev code d s = t at hp h
  have hd : ∀ a, dramHas a t = dramHas a s := fun a => by simp only [dramHas, hp]
  have hread : ∀ sp a, rdByte sp a t = rdByte sp a s := fun sp a => by
    unfold rdByte
    rw [hd, ← h]
    cases sp <;> rfl
  exact ⟨hread, fun a => (congrArg (hostByte a) h :), (congrArg State.flash h :), (congrArg State.fuses h :)⟩

/-- Data returned to the host change no memory. -/
theorem memKept_returnTo (w : Writer) (v : Word) (s : State) : memKept s (returnTo w v s) := by
  cases w
  · exact ⟨fun sp _ => by cases sp <;> rfl, fun _ => rfl, rfl, rfl⟩
  · exact memKept_refl s

/-- A record of a closed access, where one is written, changes no memory and no register but MGT_EVT_LOST. -/
theorem logClosed_if_keeps (b : Bool) (off : Nat) (s : State) :
    let t := if b then logClosed off s else s
    regsKept [Reg.MGT_EVT_LOST] s t ∧ memKept s t := by
  cases b
  · exact ⟨fun _ _ => rfl, memKept_refl s⟩
  · exact ⟨fun o ho => getReg_raise _ _ _ _ _ _ (by simpa using ho), memKept_raise _ _ _ _ s⟩

/-! ### Writes to a block, through its crossing -/

/-- The block windows as a range of offsets (R22). -/
theorem barRange_block {off : Nat} (h1 : 0x100000 ≤ off) (h2 : off < 0xE00000) : barRange off = .block := by
  have h3 : ¬ off < 0xF000 := by omega
  have h4 : ¬ off < 0x10000 := by omega
  simp [barRange, h1, h2, h3, h4]

/-- A host write that takes effect now on a block register is the write through its crossing. -/
theorem exec_hostRegisterWrite_block (off : BitVec 26) (v : BitVec 64) (sets : Word) (s : State)
    (ha : off.toNat % 4 = 0) (hb : barRange off.toNat = .block) (hp : pcieUp (deliver (usedBy .host s)) = true)
    (hw : writesNow .host (deliver (usedBy .host s)) = true) :
    exec (.hostRegisterWrite off .w32 ⟨v, sets⟩) s =
      .next (setMeanwhile off.toNat sets
        (writeThrough off.toNat (v.truncate 32) sets (usedBy .host (deliver (usedBy .host s))))) := by
  rw [exec_hostRegisterWrite_aligned off v sets s ha hp]
  simp only [hostWrite, hb, asWriter_now _ _ _ _ hw]

section
variable (off : Nat) (v sets : Word) (s : State)

/-- R439: until the first handshake after a reset of one side nothing is taken. -/
theorem writeThrough_blind (h : now s < (crossingAt (crossingClock (crossingKey off v)) s).blindTo) :
    writeThrough off v sets s = s := by simp only [writeThrough, h, if_true]

/-- A crossing at rest sends the write. -/
theorem writeThrough_rest (hb : (crossingAt (crossingClock (crossingKey off v)) s).blindTo ≤ now s)
    (ho : (crossingAt (crossingKey off v) s).openUntil ≤ now s) :
    writeThrough off v sets s = launch (crossingKey off v) off v sets (now s) s := by
  simp only [writeThrough, not_lt.mpr hb, ho, if_false, if_true]

/-- R438: a value that finds a round trip open waits for the acknowledgement, in the place of one that waits. -/
theorem writeThrough_waits (hb : (crossingAt (crossingClock (crossingKey off v)) s).blindTo ≤ now s)
    (ho : now s < (crossingAt (crossingKey off v) s).openUntil) (hk : 64 ≤ crossingKey off v) :
    writeThrough off v sets s =
      setCrossing (crossingKey off v) { crossingAt (crossingKey off v) s with waiting := some (off, v, sets) } s := by
  simp only [writeThrough, not_lt.mpr hb, not_le.mpr ho, not_lt.mpr hk, false_and, if_false]

end

/-! ### Block registers without an action of their own -/

/-- A register of a block window whose write is plain. -/
def PlainBlockReg (off : Nat) : Prop :=
  off % 4 = 0 ∧ barRange off = .block ∧ ∀ v sets s, writeBlock off v sets s = plainWrite off v s

/-- Some registers of which software may write every bit. -/
def fullyWritable : List Nat :=
  [Reg.SAF_CHKk_PROOF_HI 0, Reg.TIM_STEP_LO, Reg.SLV_MODEL_ADDR_LO, Reg.SLV_MODEL_ADDR_HI, Reg.FAB_REG_ADDR_LO,
    Reg.FAB_REG_ADDR_HI, Reg.SRV_TRC_LEVEL]

theorem plainBlockReg_of_clearedByOnes {off : Nat} {m : Word} (h : (off, m) ∈ clearedByOnes) : PlainBlockReg off := by
  simp only [clearedByOnes, List.mem_cons, Prod.mk.injEq, List.not_mem_nil, or_false] at h
  rcases h with ⟨rfl, -⟩ | ⟨rfl, -⟩ | ⟨rfl, -⟩ | ⟨rfl, -⟩ | ⟨rfl, -⟩ | ⟨rfl, -⟩ | ⟨rfl, -⟩ <;>
    exact ⟨rfl, rfl, fun _ _ _ => rfl⟩

theorem plainBlockReg_of_fullyWritable {off : Nat} (h : off ∈ fullyWritable) : PlainBlockReg off := by
  simp only [fullyWritable, List.mem_cons, List.not_mem_nil, or_false] at h
  rcases h with rfl | rfl | rfl | rfl | rfl | rfl | rfl <;> exact ⟨rfl, rfl, fun _ _ _ => rfl⟩

/-- The map gives a W1C register no other software-writable bits. -/
theorem regRowAt_clearedByOnes {off : Nat} {m : Word} (h : (off, m) ∈ clearedByOnes) :
    ∃ r, regRowAt off = some r ∧ r.wo = false ∧ r.rw = 0 ∧ r.w1c = m := by
  have hall : ∀ p ∈ clearedByOnes, (regRowAt p.1).any (fun r => !r.wo && r.rw == 0 && r.w1c == p.2) = true := by
    decide +kernel
  simpa [Option.any_eq_true, and_assoc] using hall _ h

/-- The map gives a fully writable register no W1C bits. -/
theorem regRowAt_fullyWritable {off : Nat} (h : off ∈ fullyWritable) :
    ∃ r, regRowAt off = some r ∧ (r.wo = true ∨ r.rw = BitVec.allOnes 32) ∧ r.w1c = 0 := by
  have hall : ∀ o ∈ fullyWritable, (regRowAt o).any (fun r => (r.wo || r.rw == BitVec.allOnes 32) && r.w1c == 0) = true := by
    decide +kernel
  simpa [Option.any_eq_true] using hall _ h

/-- A host write that takes effect now on a register without an action of its own, whose crossing is at rest. -/
theorem exec_hostRegisterWrite_plain (off : BitVec 26) (v : BitVec 64) (sets : Word) (s : State)
    (hreg : PlainBlockReg off.toNat) :
    let u := deliver (usedBy .host s)
    let k := crossingKey off.toNat (v.truncate 32)
    pcieUp u = true → writesNow .host u = true → (crossingAt (crossingClock k) u).blindTo ≤ now u →
    (crossingAt k u).openUntil ≤ now u →
    exec (.hostRegisterWrite off .w32 ⟨v, sets⟩) s =
      .next (setMeanwhile off.toNat sets (plainWrite off.toNat (v.truncate 32)
        (setCrossing k ⟨now u + crossingRoundTrip (crossingClock k), none, (crossingAt k u).blindTo⟩ (usedBy .host u)))) := by
  intro u k hp hw hb ho
  obtain ⟨ha, hr, hwrite⟩ := hreg
  rw [exec_hostRegisterWrite_block off v sets s ha hr hp hw, writeThrough_rest _ _ _ _ (by simpa using hb) (by simpa using ho),
    launch, hwrite, crossingAt_usedBy, now_usedBy]

/-! ### Settlements -/

/-- Settles O8: a misaligned access falls past the value it carries, and inside a maintenance session no range is closed. -/
theorem misalignedHostAccess : Obligations.MisalignedHostAccess := by
  unfold Obligations.MisalignedHostAccess
  intro off w v inc s hm
  refine ⟨fun x sets => ?_, fun hp => ⟨?_, fun hs => ⟨?_, ?_⟩⟩⟩
  · rw [exec_hostRegisterWrite_misaligned _ _ _ _ hm, exec_hostRegisterWrite_misaligned _ _ _ _ hm]
  · obtain ⟨hregs, hmem⟩ :=
      logClosed_if_keeps (rangeClosed off.toNat (deliver (usedBy .host s))) off.toNat (deliver (usedBy .host s))
    exact ⟨_, exec_rcRead_misaligned off w inc s hm hp, rfl, hregs, memKept_trans hmem (memKept_returnTo _ _ _)⟩
  · simp only [exec_hostRegisterWrite_misaligned _ _ _ _ hm, hp, Bool.not_true, Bool.false_eq_true, if_false,
      writeClosed_of_maint _ _ hs, setMeanwhile_zero]
  · simp only [exec_rcRead_misaligned off w inc s hm hp, rangeClosed_of_maint _ _ hs, Bool.false_eq_true, if_false, returnTo]

/-- Settles O11: at rest the write is sent and is plain, so the register map's row of the register says what it leaves; while
a round trip is open it waits, and while the crossing takes nothing it is discarded. -/
theorem plainRegisterWrite : Obligations.PlainRegisterWrite := by
  unfold Obligations.PlainRegisterWrite
  intro off v sets s u k c sent hp hw
  refine ⟨fun hb ho => ⟨fun m hmem => ?_, fun hmem => ?_⟩, fun ha h1 h2 => ⟨fun hb ho hk => ?_, fun hb => ?_⟩⟩
  · obtain ⟨r, hr, hwo, hrw, rfl⟩ := regRowAt_clearedByOnes hmem
    refine ⟨_, exec_hostRegisterWrite_plain off v sets s (plainBlockReg_of_clearedByOnes hmem) hp hw hb ho,
      onlyRegs_setMeanwhile_plainWrite _ _ _ _, ?_⟩
    have hsent : getReg off.toNat sent = getReg off.toNat u := getReg_usedBy _ _ _
    rw [getReg_setMeanwhile _ _ hr, getReg_plainWrite_w1c _ _ hr hwo hrw, ← hsent]
  · obtain ⟨r, hr, hrw, hw1c⟩ := regRowAt_fullyWritable hmem
    refine ⟨_, exec_hostRegisterWrite_plain off v sets s (plainBlockReg_of_fullyWritable hmem) hp hw hb ho, ?_,
      onlyRegs_setMeanwhile_plainWrite _ _ _ _⟩
    rw [getReg_setMeanwhile _ _ hr, getReg_plainWrite_full _ _ hr hrw hw1c, hw1c, BitVec.ofNat_eq_ofNat, BitVec.and_zero,
      BitVec.or_zero]
  · rw [exec_hostRegisterWrite_block off v 0 s ha (barRange_block h1 h2) hp hw,
      writeThrough_waits _ _ _ _ (by simpa using hb) (by simpa using ho) hk, setMeanwhile_zero, crossingAt_usedBy]
  · rw [exec_hostRegisterWrite_block off v 0 s ha (barRange_block h1 h2) hp hw,
      writeThrough_blind _ _ _ _ (by simpa using hb), setMeanwhile_zero]

end Sys2Proof.Machine
end

section
/-! Host accesses to closed and to reserved ranges: where the registers of the map lie, what a closed access leaves in the
log, and the settlements of O2, O9 and O10. -/

namespace Sys2Proof.Machine

open Sys2Proof.Config

/-! ### Crossings where nothing waits, and the idle step -/

/-- Where no write waits at a crossing, nothing is sent (log entry 189). -/
theorem deliver_of_none_waits (s : State) (h : ∀ e ∈ s.pwr.crossings, e.2.waiting = none) : deliver s = s := by
  unfold deliver
  rw [List.foldl_ext _ (fun t _ => t) s (fun t e he => by rw [h e he]), List.foldl_fixed]

theorem step_of_empty (s : State) (h : s.pending = []) : step s = .next (idle s) := by
  simp only [step, h]

/-- Without a maintenance session no access marks one as used. -/
theorem usedBy_of_no_maint (w : Writer) (s : State) (h : s.sess.maint = none) : usedBy w s = s := by
  cases w
  · simp only [usedBy, h, Option.map_none]
    rw [← h]
  · rfl

/-! ### Where the registers of the map lie -/

/-- The last register of a row. -/
def RegRow.last (r : RegRow) : Nat :=
  r.base + (r.count - 1) * r.stride + (r.count2 - 1) * r.stride2 + (r.count3 - 1) * r.stride3

/-- A row's registers lie between its base and its last register. -/
theorem RegRow.bounds_of_has {r : RegRow} {off : Nat} (h : r.has off = true) : r.base ≤ off ∧ off ≤ r.last := by
  simp only [RegRow.has, Bool.and_eq_true, decide_eq_true_eq] at h
  obtain ⟨hbase, ⟨⟨ha, hb⟩, hc⟩, hrest⟩ := h
  have h1 := Nat.div_add_mod' (off - r.base) r.stride
  have h2 := Nat.div_add_mod' ((off - r.base) % r.stride) r.stride2
  have h3 := Nat.div_add_mod' ((off - r.base) % r.stride % r.stride2) r.stride3
  have ka := Nat.mul_le_mul_right r.stride (Nat.le_sub_one_of_lt ha)
  have kb := Nat.mul_le_mul_right r.stride2 (Nat.le_sub_one_of_lt hb)
  have kc := Nat.mul_le_mul_right r.stride3 (Nat.le_sub_one_of_lt hc)
  unfold RegRow.last
  omega

/-- Every row of the map lies in the Postbox and the doorbell page, or in the block windows (R22). -/
theorem regRows_open : ∀ r ∈ regRows, r.last < 0x10000 ∨ (0x100000 ≤ r.base ∧ r.last < 0xE00000) := by
  decide +kernel

/-- The reserved ranges of R22 and R24. -/
def ReservedOffset (off : Nat) : Prop :=
  (0x10000 ≤ off ∧ off < 0x100000) ∨ (0xE00000 ≤ off ∧ off < 0x1000000) ∨ 0x2000000 ≤ off

theorem barRange_reserved {off : Nat} (h : ReservedOffset off) : barRange off = .reserved := by
  unfold ReservedOffset at h
  have h1 : ¬ off < 0xF000 := by omega
  have h2 : ¬ off < 0x10000 := by omega
  have h3 : ¬ (0x100000 ≤ off ∧ off < 0xE00000) := by omega
  have h4 : ¬ (0x1000000 ≤ off ∧ off < 0x2000000) := by omega
  simp only [barRange, h1, h2, h3, h4, if_false]

/-- No register is named in a reserved range. -/
theorem regRowAt_reserved {off : Nat} (h : ReservedOffset off) : regRowAt off = none := by
  refine List.find?_eq_none.mpr fun r hr hhas => ?_
  obtain ⟨hlo, hhi⟩ := RegRow.bounds_of_has hhas
  have hrow := regRows_open r hr
  unfold ReservedOffset at h
  omega

/-- With no register named there, an event sets no bit of a reserved range in the cycle of a write. -/
theorem setMeanwhile_reserved {off : Nat} (sets : Word) (s : State) (h : ReservedOffset off) :
    setMeanwhile off sets s = s := by
  simp only [setMeanwhile, regRowAt_reserved h]

/-- The aligned word of a reserved byte is reserved. -/
theorem reservedOffset_aligned {off : Nat} (h : ReservedOffset off) : ReservedOffset (off / 4 * 4) := by
  unfold ReservedOffset at h ⊢
  omega

/-! ### Accesses to reserved ranges -/

/-- R24: a write to a reserved range is discarded, whatever its width and alignment. -/
theorem exec_hostRegisterWrite_reserved (off : BitVec 26) (w : Width) (v : BitVec 64) (sets : Word) (s : State)
    (h : ReservedOffset off.toNat) :
    exec (.hostRegisterWrite off w ⟨v, sets⟩) s = .next (deliver (usedBy .host s)) := by
  have hopen : ∀ u, writeClosed off.toNat u = false := fun u => by simp only [writeClosed, barRange_reserved h]
  have hwrite : ∀ u, hostWrite off.toNat (v.truncate 32) sets u = u := fun u => by simp only [hostWrite, barRange_reserved h]
  simp only [exec, execHostRegisterWrite, touchMaint_maint, hwrite, hopen, Bool.false_eq_true, if_false,
    setMeanwhile_reserved _ _ h, setMeanwhile_reserved _ _ (reservedOffset_aligned h), ite_self]

/-- R24: a read of a reserved range returns 0, whatever its width and alignment. -/
theorem exec_rcRead_reserved (off : BitVec 26) (w : Width) (inc : BitVec 32) (s : State) (h : ReservedOffset off.toNat)
    (hp : pcieUp (deliver (usedBy .host s)) = true) :
    exec (.rcRead off ⟨w, inc⟩) s = .next (returnTo .host 0 (deliver (usedBy .host s))) := by
  have hopen : ∀ u, rangeClosed off.toNat u = false := fun u => by simp only [rangeClosed, barRange_reserved h]
  have hread : ∀ u, hostRead off.toNat inc.toNat u = returnTo .host 0 u := fun u => by
    simp only [hostRead, barRange_reserved h]
  simp only [exec, execRcRead, touchMaint_maint, hp, Bool.not_true, hread, hopen, Bool.false_eq_true, if_false, ite_self]

/-! ### The record of a closed access -/

/-- The event that an access to a closed range raises (R23, R454). -/
def closedAccessEvent (off : Nat) (s : State) : LogEvent :=
  { source := Src.security, arrive := (divUp (now s) (mcNow s) + eventDelay Src.security) * mcNow s, stamp := s.clk.tick,
    code := BitVec.ofNat 8 Code.session, event := (eventNumber .hostAccess).zeroExtend 16, d0 := word off,
    d1 := eventDetail .hostAccess 1 s.freeCtr, d2 := eventDetail .hostAccess 2 s.freeCtr }

/-- While its source holds fewer than 4 events, a closed access adds its event to the queue and uses a free value: nothing
else (R23, R456). -/
theorem logClosed_of_room (off : Nat) (s : State) (h : (s.mgt.events.filter (fun e => e.source = 11)).length < 4) :
    logClosed off s =
      { s with mgt := { s.mgt with events := s.mgt.events ++ [closedAccessEvent off s] }, freeCtr := s.freeCtr + 1 } := by
  have hsafety : ¬ Src.security = Src.safety := by decide
  simp only [logClosed, raise, hsafety, if_false, not_le.mpr h]
  rfl

/-- The record of a closed access does not depend on the data returned, nor touch them. -/
theorem logClosed_returnTo (off : Nat) (w : Writer) (v : Word) (s : State) :
    logClosed off (returnTo w v s) = returnTo w v (logClosed off s) := by
  cases w
  · have hsafety : ¬ Src.security = Src.safety := by decide
    simp only [logClosed, raise, returnTo, hsafety, if_false]
    split <;> rfl
  · rfl

/-! ### Accesses to closed ranges -/

/-- The offsets that only a maintenance session opens: the block windows and the paged window (R22). -/
def SessionOffset (off : Nat) : Prop :=
  (0x100000 ≤ off ∧ off < 0xE00000) ∨ (0x1000000 ≤ off ∧ off < 0x2000000)

theorem barRange_sessionOffset {off : Nat} (h : SessionOffset off) : barRange off = .block ∨ barRange off = .window := by
  rcases h with ⟨h1, h2⟩ | ⟨h1, h2⟩
  · exact .inl (barRange_block h1 h2)
  · have h3 : ¬ off < 0xF000 := by omega
    have h4 : ¬ off < 0x10000 := by omega
    have h5 : ¬ off < 0xE00000 := by omega
    exact .inr (by simp only [barRange, h1, h2, h3, h4, h5, and_false, and_self, if_false, if_true])

section
variable {off : Nat} {s : State} (hoff : SessionOffset off) (hm : s.sess.maint = none)
include hoff hm

theorem writeClosed_of_no_maint : writeClosed off s = true := by
  rcases barRange_sessionOffset hoff with h | h <;> simp only [writeClosed, h, hm, Option.isNone_none]

theorem rangeClosed_of_no_maint : rangeClosed off s = true := by
  rcases barRange_sessionOffset hoff with h | h <;> simp only [rangeClosed, h, hm, Option.isNone_none]

/-- An aligned write is logged and does nothing else. -/
theorem hostWrite_closed (v sets : Word) : hostWrite off v sets s = logClosed off s := by
  rcases barRange_sessionOffset hoff with h | h <;> simp only [hostWrite, h, asWriter_closed _ _ s hm]

/-- An aligned read returns 0 and is logged: of a block by its reader, of the window by the writer's rule. -/
theorem hostRead_closed (inc : Nat) : hostRead off inc s = returnTo .host 0 (logClosed off s) := by
  rcases barRange_sessionOffset hoff with h | h
  · simp only [hostRead, h, asReader, hm]
  · have hm' : (returnTo .host 0 s).sess.maint = none := hm
    simp only [hostRead, h, hm, Option.isNone_none, if_true, asWriter_closed _ _ _ hm', logClosed_returnTo]

end

/-- R23, as an event of its own. -/
theorem exec_closedRangeAccess_closed (off : BitVec 26) (b : Bool) (s : State) (hoff : SessionOffset off.toNat)
    (hm : s.sess.maint = none) :
    exec (.closedRangeAccess off b) s =
      .next (if b then logClosed off.toNat s else returnTo .host 0 (logClosed off.toNat s)) := by
  simp only [exec, execClosedRangeAccess, rangeClosed_of_no_maint hoff hm, if_true]
  cases b
  · simp only [Bool.false_eq_true, if_false, logClosed_returnTo]
  · simp only [if_true]

section
variable (off : BitVec 26) (s : State) (hoff : SessionOffset off.toNat) (hm : s.sess.maint = none)
  (hw : ∀ e ∈ s.pwr.crossings, e.2.waiting = none)
include hm hw

/-- With no session and no write that waits, the host's access finds the state as it is. -/
theorem deliver_usedBy_closed : deliver (usedBy .host s) = s := by
  rw [usedBy_of_no_maint _ s hm, deliver_of_none_waits s hw]

include hoff

/-- R23: a write to a closed range, of any width and alignment, is logged and does nothing else. -/
theorem exec_hostRegisterWrite_closed (w : Width) (v : BitVec 64) (hp : pcieUp s = true) :
    exec (.hostRegisterWrite off w ⟨v, 0⟩) s = .next (logClosed off.toNat s) := by
  simp only [exec, execHostRegisterWrite, touchMaint_maint, deliver_usedBy_closed s hm hw, hp, Bool.not_true,
    Bool.false_eq_true, if_false, hostWrite_closed hoff hm, writeClosed_of_no_maint hoff hm, if_true, setMeanwhile_zero,
    ite_self]

/-- R23: a read of a closed range, of any width and alignment, returns 0 and is logged. -/
theorem exec_rcRead_closed (w : Width) (inc : BitVec 32) (hp : pcieUp s = true) :
    exec (.rcRead off ⟨w, inc⟩) s = .next (returnTo .host 0 (logClosed off.toNat s)) := by
  simp only [exec, execRcRead, touchMaint_maint, deliver_usedBy_closed s hm hw, hp, Bool.not_true, Bool.false_eq_true,
    if_false, hostRead_closed hoff hm, rangeClosed_of_no_maint hoff hm, if_true, ite_self]

end

/-! ### Settlements -/

/-- Settles O2: the idle step, by whether the PLL is locked; time that passes leaves the crossings as they are. -/
theorem emptyQueueIdles : Obligations.EmptyQueueIdles := by
  unfold Obligations.EmptyQueueIdles
  intro s hq
  refine ⟨fun hl => ?_, fun hl => ?_⟩
  · have hstep : step s = .next (deliver (advance 1 s)) := by rw [step_of_empty s hq, idle, if_pos hl]
    exact ⟨hstep, fun hw => by rw [hstep, deliver_of_none_waits _ (by simpa using hw)]⟩
  · rw [step_of_empty s hq, idle, if_neg (by simp [hl])]

/-- Settles O9: no row of the register map reaches into a reserved range, so not even an event's W1C bits land there. -/
theorem reservedRangeAccess : Obligations.ReservedRangeAccess := by
  unfold Obligations.ReservedRangeAccess
  intro off w v sets inc s h
  exact ⟨exec_hostRegisterWrite_reserved off w v sets s h, exec_rcRead_reserved off w inc s h⟩

/-- Settles O10: all three accesses leave the log's event and nothing else, and a read its 0. -/
theorem closedRangeIsolated : Obligations.ClosedRangeIsolated := by
  unfold Obligations.ClosedRangeIsolated
  intro off w v inc b s hm hp hw hoff hroom
  refine ⟨closedAccessEvent off.toNat s, rfl, rfl, rfl, rfl, ?_⟩
  rw [exec_hostRegisterWrite_closed off s hoff hm hw w v hp, exec_rcRead_closed off s hoff hm hw w inc hp,
    exec_closedRangeAccess_closed off b s hoff hm, logClosed_of_room _ _ hroom]
  exact ⟨rfl, rfl, rfl⟩

end Sys2Proof.Machine
end

section
/-! The jobs: what is found by identity and at a column after one of them has been replaced. -/

namespace Sys2Proof.Machine

open Sys2Proof.Config

/-! ### Jobs -/

theorem getJob_congr {s t : State} (h : t.disp.jobs = s.disp.jobs) (uid : Nat) : getJob uid t = getJob uid s := by
  simp only [getJob, h]

theorem jobAt_congr {s t : State} (h : t.disp.jobs = s.disp.jobs) (col : Nat) : jobAt col t = jobAt col s := by
  simp only [jobAt, h]

theorem runAt_congr {s t : State} (h : t.disp.jobs = s.disp.jobs) (col : Nat) : runAt col t = runAt col s := by
  simp only [runAt, jobAt_congr h]

theorem getJob_mem {uid : Nat} {j : Job} {s : State} (h : getJob uid s = some j) : j ∈ s.disp.jobs ∧ j.uid = uid :=
  ⟨List.mem_of_find?_eq_some h, by simpa using List.find?_some h⟩

theorem jobAt_mem {col : Nat} {j : Job} {s : State} (h : jobAt col s = some j) :
    j ∈ s.disp.jobs ∧ j.held = true ∧ j.desc.baseCol = col := by
  have hmem : j ∈ s.disp.jobs.filter (fun j => j.held && j.desc.baseCol = col) := by
    rw [jobAt, Option.or_eq_some_iff] at h
    rcases h with h | ⟨-, h⟩
    · exact List.mem_of_find?_eq_some h
    · exact List.mem_of_head? h
  simpa using hmem

theorem runAt_eq_some {col : Nat} {j : Job} {r : Run} {s : State} :
    runAt col s = some (j, r) ↔ jobAt col s = some j ∧ j.stage = .running ∧ j.run = some r := by
  unfold runAt
  cases jobAt col s with
  | none => simp
  | some k =>
    by_cases hk : k.stage = .running
    · simp only [hk, if_true, Option.map_eq_some_iff, Prod.mk.injEq, Option.some.injEq]
      constructor
      · rintro ⟨q, hq, rfl, rfl⟩; exact ⟨rfl, hk, hq⟩
      · rintro ⟨rfl, -, hr⟩; exact ⟨r, hr, rfl, rfl⟩
    · simp only [hk, if_false, Option.some.injEq, reduceCtorEq, false_iff, not_and]
      rintro rfl h; exact absurd h hk

/-- The jobs after one is replaced: the new form, or jobs of another identity as they were. -/
theorem mem_setJob {j x : Job} {s : State} (h : x ∈ (setJob j s).disp.jobs) :
    x = j ∨ (x ∈ s.disp.jobs ∧ x.uid ≠ j.uid) := by
  simp only [setJob, List.mem_map] at h
  obtain ⟨y, hy, rfl⟩ := h
  by_cases hu : y.uid = j.uid
  · exact .inl (if_pos hu)
  · exact .inr (by simpa only [hu, if_false, ne_eq, not_false_iff, and_true] using hy)

theorem mem_setJob_self {j k : Job} {s : State} (hk : k ∈ s.disp.jobs) (hu : k.uid = j.uid) :
    j ∈ (setJob j s).disp.jobs :=
  List.mem_map.mpr ⟨k, hk, if_pos hu⟩

theorem getJob_setJob {j k : Job} {s : State} (hk : k ∈ s.disp.jobs) (hu : k.uid = j.uid) :
    getJob j.uid (setJob j s) = some j := by
  obtain ⟨x, hx⟩ : ∃ x, getJob j.uid (setJob j s) = some x := by
    rw [← Option.isSome_iff_exists, getJob, List.find?_isSome]
    exact ⟨j, mem_setJob_self hk hu, by simp⟩
  obtain ⟨hmem, hxu⟩ := getJob_mem hx
  rcases mem_setJob hmem with rfl | ⟨-, hne⟩
  · exact hx
  · exact absurd hxu hne

/-- The first element that meets a condition is the replaced one, where no element kept meets it unless it met it before. -/
theorem find?_map_replace {p : Job → Bool} {j j' : Job} {l : List Job} (hp : l.find? p = some j) (hu : j'.uid = j.uid)
    (hj : p j' = true) : (l.map (fun x => if x.uid = j'.uid then j' else x)).find? p = some j' := by
  induction l with
  | nil => simp at hp
  | cons x l ih =>
    by_cases hx : x.uid = j'.uid
    · simp [hx, hj]
    · have hpx : p x ≠ true := fun h => by
        rw [List.find?_cons_of_pos h, Option.some.injEq] at hp
        exact hx (by rw [hp, hu])
      rw [List.find?_cons_of_neg hpx] at hp
      rw [List.map_cons, if_neg hx, List.find?_cons_of_neg hpx]
      exact ih hp

/-- `jobAt` as two searches: a job of columns first, then any. -/
theorem jobAt_eq (col : Nat) (s : State) :
    jobAt col s = (s.disp.jobs.find? (fun j => j.held && j.desc.baseCol = col && decide (0 < j.width))).or
      (s.disp.jobs.find? (fun j => j.held && j.desc.baseCol = col)) := by
  simp only [jobAt, List.find?_filter, List.head?_filter]
  congr 1
  simp only [Bool.decide_and, Bool.decide_eq_true]

/-- The job that stands at a column stands there in its new form, when that has its place and width. -/
theorem jobAt_setJob {col : Nat} {j j' : Job} {s : State} (h : jobAt col s = some j) (hu : j'.uid = j.uid)
    (hh : j'.held = true) (hb : j'.desc.baseCol = j.desc.baseCol) (hw : j'.width = j.width) :
    jobAt col (setJob j' s) = some j' := by
  obtain ⟨-, hheld, hbase⟩ := jobAt_mem h
  have hplace : (j'.held && decide (j'.desc.baseCol = col)) = true := by simp [hh, hb, hbase]
  rw [jobAt_eq, Option.or_eq_some_iff] at h ⊢
  rcases h with hwide | ⟨hnone, hany⟩
  · have hpos : 0 < j.width := by have := List.find?_some hwide; simp_all
    exact .inl (find?_map_replace hwide hu (by simp [hh, hb, hbase, hw, hpos]))
  · refine .inr ⟨?_, find?_map_replace hany hu hplace⟩
    rw [List.find?_eq_none] at hnone ⊢
    have hzero : ¬ 0 < j.width := fun hpos => hnone j (List.mem_of_find?_eq_some hany) (by simp [hheld, hbase, hpos])
    intro x hx
    rcases mem_setJob hx with rfl | ⟨hmem, -⟩
    · simp [hw, hzero]
    · exact hnone x hmem

/-- A partition's run after its job is given another form that still runs. -/
theorem runAt_setJob {col : Nat} {j j' : Job} {r : Run} {s : State} (h : jobAt col s = some j) (hu : j'.uid = j.uid)
    (hh : j'.held = true) (hb : j'.desc.baseCol = j.desc.baseCol) (hw : j'.width = j.width) (hs : j'.stage = .running)
    (hr : j'.run = some r) : runAt col (setJob j' s) = some (j', r) :=
  runAt_eq_some.mpr ⟨jobAt_setJob h hu hh hb hw, hs, hr⟩

/-- A partition's run after the run has been set. -/
theorem runAt_setRun {col : Nat} {j : Job} {r q : Run} {s t : State} (h : runAt col s = some (j, r))
    (ht : t.disp.jobs = s.disp.jobs) : runAt col (setRun j q t) = some ({ j with run := some q }, q) := by
  obtain ⟨hj, hs, -⟩ := runAt_eq_some.mp h
  exact runAt_setJob ((jobAt_congr ht col).trans hj) rfl (jobAt_mem hj).2.1 rfl rfl hs rfl

@[simp] theorem now_setJob (j : Job) (s : State) : now (setJob j s) = now s := rfl
@[simp] theorem now_setRun (j : Job) (r : Run) (s : State) : now (setRun j r s) = now s := rfl

theorem memKept_setJob (j : Job) (s : State) : memKept s (setJob j s) :=
  ⟨fun sp _ => by cases sp <;> rfl, fun _ => rfl, rfl, rfl⟩

theorem memKept_setRun (j : Job) (r : Run) (s : State) : memKept s (setRun j r s) := memKept_setJob _ s

end Sys2Proof.Machine
end

section
/-! What operations on the memories leave alone: the reads that only count errors, and the writes. -/

namespace Sys2Proof.Machine

open Sys2Proof.Config

/-! ### What operations on memory leave alone -/

/-- The registers that errors of the memories count and are captured in (R106 to R109). -/
def errRegs : List Nat :=
  [Reg.MEM_CE_COUNT, Reg.MEM_UE_COUNT, Reg.MEM_ERR_INFO, Reg.MEM_ERR_ADDR_LO, Reg.MEM_ERR_ADDR_HI]

/-- `t` with everything that counting an error may change as `s` has it. -/
def errsFrom (s t : State) : State := { t with regs := s.regs, errAt := s.errAt, freeCtr := s.freeCtr }

/-- Nothing changed but what counts and captures errors of the memories. -/
structure ErrsOnly (s t : State) : Prop where
  rest : errsFrom s t = s
  regs : regsKept errRegs s t

/-- `t` with everything that writing the device's memories may change as `s` has it. -/
def writesFrom (s t : State) : State :=
  { t with dram := s.dram, stage := s.stage, banks := s.banks, tables := s.tables, bankLog := s.bankLog, marks := s.marks }

/-- Nothing changed but the device's memories and the notes about them; memories without an error mark stay so. -/
structure WritesOnly (s t : State) : Prop where
  rest : writesFrom s t = s
  marks : s.marks = [] → t.marks = []

/-- `t` with everything that reading and writing the device's memories may change as `s` has it. -/
def memFrom (s t : State) : State :=
  { t with dram := s.dram, stage := s.stage, banks := s.banks, tables := s.tables, bankLog := s.bankLog, marks := s.marks
           regs := s.regs, errAt := s.errAt, freeCtr := s.freeCtr, flits := s.flits }

/-- Nothing changed but the device's memories, the notes about them, and what counts and captures their errors; memories
without an error mark stay so. -/
structure MemOnly (s t : State) : Prop where
  rest : memFrom s t = s
  regs : regsKept errRegs s t
  marks : s.marks = [] → t.marks = []

namespace ErrsOnly

variable {s t u : State}

theorem refl (s : State) : ErrsOnly s s := ⟨rfl, fun _ _ => rfl⟩

theorem trans (h1 : ErrsOnly s t) (h2 : ErrsOnly t u) : ErrsOnly s u :=
  ⟨calc errsFrom s u = errsFrom s (errsFrom t u) := rfl
      _ = s := by rw [h2.rest, h1.rest],
    fun o ho => (h2.regs o ho).trans (h1.regs o ho)⟩

theorem marks (h : ErrsOnly s t) : t.marks = s.marks := (congrArg State.marks h.rest :)
theorem flits (h : ErrsOnly s t) : t.flits = s.flits := (congrArg State.flits h.rest :)
theorem disp (h : ErrsOnly s t) : t.disp = s.disp := (congrArg State.disp h.rest :)
theorem clk (h : ErrsOnly s t) : t.clk = s.clk := (congrArg State.clk h.rest :)
theorem fuses (h : ErrsOnly s t) : t.fuses = s.fuses := (congrArg State.fuses h.rest :)

theorem memOnly (h : ErrsOnly s t) : MemOnly s t :=
  ⟨calc memFrom s t = memFrom s (errsFrom s t) := rfl
      _ = s := by rw [h.rest]; rfl,
    h.regs, fun hm => h.marks.trans hm⟩

end ErrsOnly

namespace WritesOnly

variable {s t u : State}

theorem refl (s : State) : WritesOnly s s := ⟨rfl, id⟩

theorem trans (h1 : WritesOnly s t) (h2 : WritesOnly t u) : WritesOnly s u :=
  ⟨calc writesFrom s u = writesFrom s (writesFrom t u) := rfl
      _ = s := by rw [h2.rest, h1.rest],
    fun hm => h2.marks (h1.marks hm)⟩

theorem regs (h : WritesOnly s t) : t.regs = s.regs := (congrArg State.regs h.rest :)
theorem getReg (h : WritesOnly s t) (o : Nat) : Machine.getReg o t = Machine.getReg o s := by
  simp only [Machine.getReg, h.regs]
theorem disp (h : WritesOnly s t) : t.disp = s.disp := (congrArg State.disp h.rest :)
theorem now (h : WritesOnly s t) : Machine.now t = Machine.now s := (congrArg Machine.now h.rest :)

theorem memOnly (h : WritesOnly s t) : MemOnly s t :=
  ⟨calc memFrom s t = memFrom s (writesFrom s t) := rfl
      _ = s := by rw [h.rest]; rfl,
    fun o _ => h.getReg o, h.marks⟩

theorem foldl {α : Type} {f : State → α → State} (hf : ∀ s a, WritesOnly s (f s a)) (l : List α) (s : State) :
    WritesOnly s (l.foldl f s) := by
  induction l generalizing s with
  | nil => exact refl s
  | cons a l ih => exact (hf s a).trans (ih _)

end WritesOnly

namespace MemOnly

variable {s t u : State}

theorem refl (s : State) : MemOnly s s := ⟨rfl, fun _ _ => rfl, id⟩

theorem trans (h1 : MemOnly s t) (h2 : MemOnly t u) : MemOnly s u :=
  ⟨calc memFrom s u = memFrom s (memFrom t u) := rfl
      _ = s := by rw [h2.rest, h1.rest],
    fun o ho => (h2.regs o ho).trans (h1.regs o ho), fun hm => h2.marks (h1.marks hm)⟩

theorem disp (h : MemOnly s t) : t.disp = s.disp := (congrArg State.disp h.rest :)
theorem clk (h : MemOnly s t) : t.clk = s.clk := (congrArg State.clk h.rest :)
theorem saf (h : MemOnly s t) : t.saf = s.saf := (congrArg State.saf h.rest :)
theorem now (h : MemOnly s t) : Machine.now t = Machine.now s := (congrArg Clock.root h.clk :)

theorem fcRoot (h : MemOnly s t) : Machine.fcRoot t = Machine.fcRoot s := by
  simp only [Machine.fcRoot, regFld, h.regs Reg.FAB_OP_STAT (by decide)]

theorem foldl {α : Type} {f : State → α → State} (hf : ∀ s a, MemOnly s (f s a)) (l : List α) (s : State) :
    MemOnly s (l.foldl f s) := by
  induction l generalizing s with
  | nil => exact refl s
  | cons a l ih => exact (hf s a).trans (ih _)

end MemOnly

/-! ### Reads -/

theorem errsOnly_setReg {o : Nat} (h : o ∈ errRegs) (v : Word) (s : State) : ErrsOnly s (setReg o v s) :=
  ⟨rfl, fun _ hp => getReg_setReg_other _ _ (fun e => hp (e ▸ h))⟩

theorem errsOnly_captureErr (code source tile addr : Nat) (s : State) :
    ErrsOnly s (captureErr code source tile addr s) := by
  unfold captureErr
  split
  · exact .refl s
  · refine .trans (t := { s with errAt := now s / 4 }) ⟨rfl, fun _ _ => rfl⟩ (.trans ?_ (errsOnly_setReg (by decide) _ _))
    exact (errsOnly_setReg (o := Reg.MEM_ERR_ADDR_LO) (by decide) _ _).trans (errsOnly_setReg (by decide) _ _)

theorem errsOnly_countErrs (sp : Space) (fixed bad : Nat) (first : Option Nat) (s : State) :
    ErrsOnly s (countErrs sp fixed bad first s) := by
  have hfixed : ErrsOnly s (if fixed = 0 then s else bumpReg Reg.MEM_CE_COUNT fixed s) := by
    split
    · exact .refl s
    · exact errsOnly_setReg (by decide) _ s
  cases first with
  | none => exact hfixed
  | some b =>
    exact hfixed.trans ((errsOnly_setReg (o := Reg.MEM_UE_COUNT) (by decide) _ _).trans (errsOnly_captureErr _ _ _ _ _))

theorem errsOnly_readMem (sp : Space) (a n : Nat) (s : State) : ErrsOnly s (readMem sp a n s).2 :=
  errsOnly_countErrs _ _ _ _ s

theorem errsOnly_readAll (sp : Space) (a n : Nat) (s : State) : ErrsOnly s (readAll sp a n s).2 :=
  errsOnly_countErrs _ _ _ _ s

theorem errsOnly_flitError (s : State) : ErrsOnly s (flitError s) :=
  ((errsOnly_setReg (o := Reg.MEM_UE_COUNT) (by decide) _ s).trans (errsOnly_captureErr _ _ _ _ _)).trans
    ⟨rfl, fun _ _ => rfl⟩

theorem errsOnly_readStream (flit : Option Nat) (a n : Nat) (s : State) : ErrsOnly s (readStream flit a n s) := by
  cases flit with
  | none => exact errsOnly_readMem _ _ _ s
  | some f =>
    unfold readStream
    dsimp only
    split
    · split
      · exact errsOnly_readMem _ _ _ s
      · exact (errsOnly_readMem _ _ _ s).trans (errsOnly_flitError _)
    · exact errsOnly_readMem _ _ _ s

theorem errsOnly_bankReadGo (tile bank fuel addr n : Nat) (s : State) :
    ErrsOnly s (bankReadGo tile bank fuel addr n s).2 := by
  induction fuel generalizing addr n s with
  | zero => exact .refl s
  | succ fuel ih =>
    simp only [bankReadGo]
    split
    · exact .refl s
    · split
      · exact errsOnly_readMem _ _ _ s
      · exact (errsOnly_readMem _ _ _ s).trans (ih _ _ _)

theorem errsOnly_bankRead (tile bank addr n : Nat) (s : State) : ErrsOnly s (bankRead tile bank addr n s).2 := by
  unfold bankRead
  dsimp only
  split
  · exact .refl s
  · exact errsOnly_bankReadGo _ _ _ _ _ s

/-- Without error marks a checked read finds nothing and counts nothing. -/
theorem readMem_of_no_marks (sp : Space) (a n : Nat) {s : State} (h : s.marks = []) :
    readMem sp a n s = (⟨rdBytes sp a n s, 0, none⟩, s) := by
  simp [readMem, marksIn, h, countErrs]

/-- The bytes of a checked read of a bank: each as the present fabric cycle serves it. -/
theorem bankRead_bytes (tile bank addr n : Nat) (s : State) : (bankRead tile bank addr n s).1.bytes =
    (List.range n).map (fun i => bankByteAt (fabricCycle (now s) s) (bankKey tile bank (addr + i)) s) := by
  unfold bankRead
  dsimp only
  split <;> rfl

/-- Without error marks a read of a bank finds nothing and counts nothing. -/
theorem bankRead_of_no_marks (tile bank addr n : Nat) {s : State} (h : s.marks = []) :
    (bankRead tile bank addr n s).1.bad = none ∧ (bankRead tile bank addr n s).2 = s := by
  simp only [bankRead, h, if_true, and_self]

/-! ### Writes -/

theorem writesOnly_wrByte (sp : Space) (a : Nat) (b : Byte) (s : State) : WritesOnly s (wrByte sp a b s) := by
  unfold wrByte
  split
  · exact .refl s
  · cases sp <;> exact ⟨rfl, id⟩

theorem writesOnly_wrRaw (sp : Space) (a : Nat) (bs : List Byte) (s : State) : WritesOnly s (wrRaw sp a bs s) := by
  induction bs generalizing a s with
  | nil => exact .refl s
  | cons b r ih => exact (writesOnly_wrByte sp a b s).trans (ih _ _)

theorem writesOnly_filterMarks (p : EccMark → Bool) (s : State) : WritesOnly s { s with marks := s.marks.filter p } :=
  ⟨rfl, fun h => by simp [h]⟩

theorem writesOnly_wrBytes (sp : Space) (a : Nat) (bs : List Byte) (s : State) : WritesOnly s (wrBytes sp a bs s) :=
  (writesOnly_wrRaw sp a bs s).trans (writesOnly_filterMarks _ _)

theorem writesOnly_bankLog (l : Tab (Option BankNote)) (s : State) : WritesOnly s { s with bankLog := l } :=
  ⟨rfl, id⟩

theorem writesOnly_bankPutByte (c port k : Nat) (b : Byte) (s : State) : WritesOnly s (bankPutByte c port k b s) := by
  unfold bankPutByte
  dsimp only
  have hwrite (l : Tab (Option BankNote)) : WritesOnly s (wrByte .bank k b { s with bankLog := l }) :=
    (writesOnly_bankLog l s).trans (writesOnly_wrByte _ _ _ _)
  split
  · exact hwrite _
  · split
    · exact hwrite _
    · split
      · split
        · exact hwrite _
        · exact .refl s
      · exact writesOnly_bankLog _ s

theorem writesOnly_bankPutRaw (c port k : Nat) (bs : List Byte) (s : State) : WritesOnly s (bankPutRaw c port k bs s) := by
  induction bs generalizing k s with
  | nil => exact .refl s
  | cons b r ih => exact (writesOnly_bankPutByte c port k b s).trans (ih _ _)

theorem writesOnly_bankPutWord (c port k : Nat) (bs : List Byte) (s : State) : WritesOnly s (bankPutWord c port k bs s) :=
  (writesOnly_bankPutRaw c port k bs s).trans (writesOnly_filterMarks _ _)

theorem writesOnly_bankWriteGo (c port tile bank addr : Nat) (bs : List Byte) (fuel : Nat) (s : State) :
    WritesOnly s (bankWriteGo c port tile bank addr bs fuel s) := by
  induction fuel generalizing addr bs s with
  | zero => exact .refl s
  | succ fuel ih =>
    cases bs with
    | nil => exact .refl s
    | cons b r => exact (writesOnly_bankPutWord _ _ _ _ s).trans (ih _ _ _)

theorem writesOnly_bankWrite (c port tile bank addr : Nat) (bs : List Byte) (s : State) :
    WritesOnly s (bankWrite c port tile bank addr bs s) :=
  (writesOnly_bankLog _ s).trans (writesOnly_bankWriteGo _ _ _ _ _ _ _ _)

theorem writesOnly_landPiece (p : Piece) (s : State) : WritesOnly s (landPiece p s) := by
  cases p with
  | bank t b a bs => exact writesOnly_bankWrite _ _ _ _ _ _ s
  | ext sp a bs => exact writesOnly_wrBytes _ _ _ s

theorem writesOnly_putResults (c port tile : Nat) (ps : List (Nat × List Byte)) (s : State) :
    WritesOnly s (putResults c port tile ps s) := .foldl (fun s _ => writesOnly_bankWrite _ _ _ _ _ _ s) ps s

theorem writesOnly_landWords (r : Run) (ws : List WordFlight) (s : State) : WritesOnly s (landWords r ws s) :=
  .foldl (fun s _ => writesOnly_bankWrite _ _ _ _ _ _ s) ws s

theorem memOnly_flitsMet (s : State) : MemOnly s (flitsMet s) :=
  .trans (t := { s with flits := ⟨0, none⟩ }) ⟨rfl, fun _ _ => rfl, id⟩ (errsOnly_setReg (by decide) _ _).memOnly

end Sys2Proof.Machine
end

section
/-! What a bank reads after a write in a quiet fabric cycle. -/

namespace Sys2Proof.Machine

open Sys2Proof.Config

/-! ### What a bank reads after a write in a quiet fabric cycle -/

/-- The bytes of a word of a bank lie side by side (R103). -/
theorem bankKey_add (tile bank addr i : Nat) (h : addr % 8 + i < 8) :
    bankKey tile bank (addr + i) = bankKey tile bank addr + i := by
  unfold bankKey bankSize
  split <;> omega

/-- Fewer bytes than the bank holds never wrap onto one another. -/
theorem bankKey_inj {tile bank addr i j : Nat} (hi : i < bankSize bank) (hj : j < bankSize bank)
    (h : bankKey tile bank (addr + i) = bankKey tile bank (addr + j)) : i = j := by
  unfold bankKey at h
  unfold bankSize at h hi hj
  split at h <;> simp only [*, if_true, if_false] at hi hj <;> omega

theorem rdByte_bankLog (q : Space) (x : Nat) (l : Tab (Option BankNote)) (s : State) :
    rdByte q x { s with bankLog := l } = rdByte q x s := by cases q <;> rfl

theorem rdByte_filterMarks (q : Space) (x : Nat) (p : EccMark → Bool) (s : State) :
    rdByte q x { s with marks := s.marks.filter p } = rdByte q x s := by cases q <;> rfl

theorem rdByte_wrByte_bank (q : Space) (x k : Nat) (b : Byte) (s : State) :
    rdByte q x (wrByte .bank k b s) = if q = .bank ∧ x = k then b else rdByte q x s :=
  rdByte_wrByte .bank q k x b s (fun h => by cases h)

theorem mem_tset {α : Type} [DecidableEq α] {d : Nat → α} {k : Nat} {v : α} {t : Tab α} {e : Nat × α}
    (h : e ∈ tset d k v t) : e ∈ t ∨ e.1 = k := by
  unfold tset at h
  split at h
  · exact .inl (mem_terase h).1
  · rcases mem_tinsert.mp h with rfl | h
    · exact .inr rfl
    · exact .inl (mem_terase h).1

theorem bankLog_wrByte (sp : Space) (a : Nat) (b : Byte) (s : State) : (wrByte sp a b s).bankLog = s.bankLog := by
  unfold wrByte
  split
  · rfl
  · cases sp <;> rfl

section
variable (c port tile bank : Nat)

/-- A byte that no note names is written, and noted (R95, R96). -/
theorem bankPutByte_quiet (k : Nat) (b : Byte) (s : State) (h : ∀ e ∈ s.bankLog, e.1 ≠ k) :
    bankPutByte c port k b s =
      wrByte .bank k b { s with bankLog := tset (fun _ => none) k (some ⟨c, port, rdByte .bank k s⟩) s.bankLog } := by
  have hnote : bankNote k s = none := tget_of_not_listed _ _ _ h
  simp only [bankPutByte, hnote]

theorem rdByte_bankPutByte (q : Space) (x k : Nat) (b : Byte) (s : State) (h : ∀ e ∈ s.bankLog, e.1 ≠ k) :
    rdByte q x (bankPutByte c port k b s) = if q = .bank ∧ x = k then b else rdByte q x s := by
  rw [bankPutByte_quiet c port k b s h, rdByte_wrByte_bank, rdByte_bankLog]

theorem mem_bankLog_bankPutByte {k : Nat} {b : Byte} {s : State} (h : ∀ e ∈ s.bankLog, e.1 ≠ k) {e : Nat × Option BankNote}
    (he : e ∈ (bankPutByte c port k b s).bankLog) : e ∈ s.bankLog ∨ e.1 = k := by
  rw [bankPutByte_quiet c port k b s h, bankLog_wrByte] at he
  dsimp only at he
  exact mem_tset he

/-- Bytes written side by side read back, every other byte reads as before, and no other byte gains a note. -/
theorem bankPutRaw_quiet (k : Nat) (bs : List Byte) (s : State)
    (h : ∀ e ∈ s.bankLog, ∀ i < bs.length, e.1 ≠ k + i) :
    (∀ q x, rdByte q x (bankPutRaw c port k bs s) =
      if q = .bank ∧ k ≤ x ∧ x < k + bs.length then bs.getD (x - k) 0 else rdByte q x s) ∧
    (∀ e ∈ (bankPutRaw c port k bs s).bankLog, e ∈ s.bankLog ∨ (k ≤ e.1 ∧ e.1 < k + bs.length)) := by
  induction bs generalizing k s with
  | nil => exact ⟨fun q x => (if_neg (by simp)).symm, fun e he => .inl he⟩
  | cons b r ih =>
    have hk : ∀ e ∈ s.bankLog, e.1 ≠ k := fun e he => h e he 0 (by simp)
    obtain ⟨hread, hlog⟩ := ih (k + 1) (bankPutByte c port k b s) (fun e he i hi => by
      rcases mem_bankLog_bankPutByte c port hk he with he | he
      · have := h e he (i + 1) (by simpa using hi); omega
      · omega)
    simp only [bankPutRaw, List.length_cons]
    refine ⟨fun q x => ?_, fun e he => ?_⟩
    · rw [hread, rdByte_bankPutByte c port q x k b s hk]
      by_cases hq : q = .bank
      · rcases Nat.lt_trichotomy x k with hx | rfl | hx
        · simp [hq, show ¬ k + 1 ≤ x by omega, show ¬ k ≤ x by omega, show x ≠ k by omega]
        · simp [hq]
        · have hsub : x - k = (x - (k + 1)) + 1 := by omega
          simp only [hq, true_and, hsub, List.getD_cons_succ, show x ≠ k by omega, if_false]
          exact if_congr (by omega) rfl rfl
      · simp [hq]
    · rcases hlog e he with he | he
      · rcases mem_bankLog_bankPutByte c port hk he with he | he
        · exact .inl he
        · exact .inr (by omega)
      · exact .inr (by omega)

/-- What a write of `bs` from `addr` of a bank leaves: its bytes read back, and every other byte reads as before. -/
structure BankHolds (addr : Nat) (bs : List Byte) (s t : State) : Prop where
  same : ∀ i < bs.length, rdByte .bank (bankKey tile bank (addr + i)) t = bs.getD i 0
  other : ∀ q x, (q ≠ .bank ∨ ∀ i < bs.length, x ≠ bankKey tile bank (addr + i)) → rdByte q x t = rdByte q x s

/-- The first bytes of a write, up to the end of their word, and the word's place among the keys. -/
theorem bankPutWord_quiet (addr : Nat) (bs : List Byte) (s : State) (hsize : bs.length ≤ bankSize bank)
    (h : quietBank tile bank addr bs.length s) :
    let n := 8 - addr % 8
    let t := bankPutWord c port (bankKey tile bank addr) (bs.take n) s
    BankHolds tile bank addr (bs.take n) s t ∧ quietBank tile bank (addr + n) (bs.drop n).length t := by
  intro n t
  have hn : (bs.take n).length = min n bs.length := List.length_take
  have hkey : ∀ i < n, bankKey tile bank (addr + i) = bankKey tile bank addr + i := fun i hi =>
    bankKey_add _ _ _ _ (by omega)
  obtain ⟨hread, hlog⟩ := bankPutRaw_quiet c port (bankKey tile bank addr) (bs.take n) s (fun e he i hi => by
    rw [← hkey i (by omega)]
    exact h e he i (by omega))
  have hput : ∀ q x, rdByte q x t = rdByte q x (bankPutRaw c port (bankKey tile bank addr) (bs.take n) s) := fun q x =>
    rdByte_filterMarks q x _ _
  refine ⟨⟨fun i hi => ?_, fun q x hx => ?_⟩, fun e he i hi => ?_⟩
  · rw [hput, hread, hkey i (by omega), if_pos ⟨rfl, by omega, by omega⟩, Nat.add_sub_cancel_left]
  · rw [hput, hread, if_neg]
    rintro ⟨rfl, hle, hlt⟩
    rcases hx with hx | hx
    · exact hx rfl
    · refine hx (x - bankKey tile bank addr) (by omega) ?_
      rw [hkey _ (by omega)]
      omega
  · rw [List.length_drop] at hi
    rw [Nat.add_assoc]
    rcases hlog e he with he | ⟨hle, hlt⟩
    · exact h e he (n + i) (by omega)
    · intro heq
      have hnear : e.1 = bankKey tile bank (addr + (e.1 - bankKey tile bank addr)) := by
        rw [hkey _ (by omega)]
        omega
      have := bankKey_inj (by omega) (by omega) (heq.symm.trans hnear)
      omega

theorem bankWriteGo_holds (fuel addr : Nat) (bs : List Byte) (s : State) (hfuel : bs.length ≤ fuel)
    (hsize : bs.length ≤ bankSize bank) (h : quietBank tile bank addr bs.length s) :
    BankHolds tile bank addr bs s (bankWriteGo c port tile bank addr bs fuel s) := by
  induction fuel generalizing addr bs s with
  | zero =>
    obtain rfl : bs = [] := List.eq_nil_of_length_eq_zero (by omega)
    exact ⟨fun i hi => by simp at hi, fun _ _ _ => rfl⟩
  | succ fuel ih =>
    cases bs with
    | nil => exact ⟨fun i hi => by simp at hi, fun _ _ _ => rfl⟩
    | cons b r =>
      obtain ⟨hword, hquiet⟩ := bankPutWord_quiet c port tile bank addr (b :: r) s hsize h
      simp only [bankWriteGo]
      generalize hn : 8 - addr % 8 = n at hword hquiet
      generalize hbs : b :: r = bs at *
      have hdrop : (bs.drop n).length = bs.length - n := List.length_drop
      have htake : (bs.take n).length = min n bs.length := List.length_take
      have hrest := ih (addr + n) (bs.drop n) _ (by omega) (by omega) hquiet
      refine ⟨fun i hi => ?_, fun q x hx => ?_⟩
      · by_cases hin : i < n
        · rw [hrest.other _ _ (.inr fun k hk heq => ?_), hword.same i (by omega)]
          · simp only [List.getD_eq_getElem?_getD, List.getElem?_take_of_lt hin]
          · rw [Nat.add_assoc] at heq
            have := bankKey_inj (by omega) (by omega) heq
            omega
        · have := hrest.same (i - n) (by omega)
          rw [show addr + n + (i - n) = addr + i by omega] at this
          rw [this]
          simp only [List.getD_eq_getElem?_getD, List.getElem?_drop, show n + (i - n) = i by omega]
      · rw [hrest.other _ _ (hx.imp id fun hx i hi => ?_), hword.other _ _ (hx.imp id fun hx i hi => hx i (by omega))]
        rw [Nat.add_assoc]
        exact hx (n + i) (by omega)

/-- R95, R103: where no byte of its range is noted, a write to a bank stands. -/
theorem bankWrite_holds (addr : Nat) (bs : List Byte) (s : State) (hsize : bs.length ≤ bankSize bank)
    (h : quietBank tile bank addr bs.length s) :
    BankHolds tile bank addr bs s (bankWrite c port tile bank addr bs s) := by
  obtain ⟨hsame, hother⟩ := bankWriteGo_holds c port tile bank bs.length addr bs (forgetWrites c s) le_rfl hsize
    (fun e he => h e (List.mem_of_mem_filter he))
  exact ⟨hsame, fun q x hx => (hother q x hx).trans (rdByte_bankLog q x _ s)⟩

end

end Sys2Proof.Machine
end

section
/-! Instances of a schedule, routes and operators, and the settlement of O27. -/

namespace Sys2Proof.Machine

open Sys2Proof.Config

/-! ### Instances of a schedule -/

/-- What may begin belongs to the job that runs in the partition, and its run notes it. -/
theorem instanceOf_eq_some {act col rec inst : Nat} {s : State} {x : Instance} (h : instanceOf act col rec inst s = some x) :
    ∃ r, runAt col s = some (x.job, r) ∧ x.run = { r with begun := r.begun ++ [(rec, inst)] } := by
  unfold instanceOf at h
  split at h
  · simp at h
  · next j r hrun =>
    split at h
    · simp at h
    · dsimp only at h
      split at h
      · obtain rfl := Option.some.inj h
        exact ⟨r, hrun, rfl⟩
      · simp at h

theorem beginAt_eq {act col rec inst : Nat} {f : Instance → State → State} {s : State} {x0 x : Instance}
    (h0 : instanceOf act col rec inst s = some x0) (hx : instanceOf act col rec inst (stoodAt col x0 s) = some x) :
    beginAt act col rec inst f s = f x (stoodAt col x0 s) := by
  unfold stoodAt at *
  simp only [beginAt, h0, hx, Option.elim_some]

section
variable {act col rec inst : Nat} {u : State} {x : Instance} (hx : instanceOf act col rec inst u = some x)
include hx

theorem mem_begun_of_instanceOf : (rec, inst) ∈ x.run.begun := by
  obtain ⟨r, -, hrun⟩ := instanceOf_eq_some hx
  simp [hrun]

theorem runAt_setRun_of_instanceOf (q : Run) {t : State} (ht : t.disp.jobs = u.disp.jobs) :
    runAt col (setRun x.job q t) = some ({ x.job with run := some q }, q) := by
  obtain ⟨r, hr, -⟩ := instanceOf_eq_some hx
  exact runAt_setRun hr ht

end

/-! ### Routes -/

theorem sendWords_length (x : Instance) (r : RouteRec) (dst : CopyDesc) (inst : Nat) (bytes : List Byte) :
    (sendWords x r dst inst bytes).length = bytes.length / 8 := by
  simp only [sendWords, List.length_map, List.length_range]

theorem bankRead_length (tile bank addr n : Nat) (s : State) : (bankRead tile bank addr n s).1.bytes.length = n := by
  rw [bankRead_bytes, List.length_map, List.length_range]

/-- A SEND whose route lies in the partition puts the words of its source buffer on it. -/
theorem beginSend_eq {inst : Nat} {x : Instance} {r : RouteRec} {src dst : CopyDesc} {u : State} (hm : u.marks = [])
    (hr : (routesOf x.run.image x.rec_).head? = some r) (hsrc : bufferOf x.run.image r.srcTile r.srcBuf = some src)
    (hdst : bufferOf x.run.image r.dstTile r.dstBuf = some dst) (htile : r.dstTile < 8 * x.job.width) :
    let bytes :=
      (bankRead (absTile x.job r.srcTile) src.bank (src.bankAddr + src.bankStep * inst) (align8 x.rec_.length) u).1.bytes
    beginSend inst x u = setRun x.job { x.run with words := x.run.words ++ sendWords x r dst inst bytes } u := by
  intro bytes
  obtain ⟨hbad, hstate⟩ := bankRead_of_no_marks (absTile x.job r.srcTile) src.bank (src.bankAddr + src.bankStep * inst)
    (align8 x.rec_.length) hm
  simp only [beginSend, hr, hsrc, hdst, not_le.mpr htile, if_false, hbad, hstate, Option.isSome_none, Bool.false_eq_true,
    bytes]

theorem landWords_one (r : Run) (w : WordFlight) (s : State) :
    landWords r [w] s = bankWrite (cycleBefore (cycleAt r w.cycle s) s) Port.landing w.tile w.bank w.addr w.data s := rfl

/-- The earliest word of a partition, delivered. -/
theorem deliverWord_eq {col : Nat} {j : Job} {r : Run} {w : WordFlight} {s : State} (hrun : runAt col s = some (j, r))
    (hw : firstWord r.words = some w) (hheld : heldBefore r w.cycle = false) :
    deliverWord col s = landWords r [w] (setRun j { r with words := r.words.erase w } (atCycle r w.cycle s)) := by
  simp only [deliverWord, hrun, hw, hheld, Bool.false_eq_true, if_false]

/-- Bytes that a bank holds over a whole range are what a read of the range gives. -/
theorem BankHolds.bankBytes_eq {tile bank addr : Nat} {bs : List Byte} {s t : State} (h : BankHolds tile bank addr bs s t) :
    bankBytes tile bank addr bs.length t = bs := by
  refine List.ext_getElem (by simp [bankBytes]) fun i hi hb => ?_
  simp only [bankBytes, List.getElem_map, List.getElem_range]
  rw [h.same i hb, List.getD_eq_getElem?_getD, List.getElem?_eq_getElem hb, Option.getD_some]

/-! ### Operators -/

/-- A STAGE_START that reads no headers: its operator ends its duration after the partition's cycle and the operators before
it on its tile. -/
theorem beginStage_eq {rec inst : Nat} {x : Instance} {d : Desc} {tr : TileRec} {u : State}
    (hd : descOf x.run.image x.rec_ = some d) (htr : tileRec x.run.image x.rec_.tile = some tr)
    (hno : d.dtype ≠ 0x20 ∨ inst ≠ 0) :
    beginStage rec inst x u = setRun x.job { x.run with ops := x.run.ops ++ [
      { tile := x.rec_.tile, rec_ := rec, inst := inst
        endCycle := ((x.run.ops.filter (fun o => o.tile = x.rec_.tile)).map (·.endCycle)).foldl max x.cycle +
          opCycles d tr.arrayFmt inst (decide (inst + 1 = x.rec_.repeat_)) }] } u := by
  have hno' : (decide (d.dtype = 0x20) && decide (inst = 0)) = false := by
    rcases hno with h | h <;> simp [h]
  simp only [beginStage, hd, htr, hno', Bool.false_eq_true, if_false]

/-- The operator that ends first is one of those asked for. -/
theorem firstOp_mem {os : List OpFlight} {p : OpFlight → Bool} {o : OpFlight} (h : firstOp os p = some o) :
    o ∈ os ∧ p o = true := by
  have hfold : ∀ (l : List OpFlight) (b : Option OpFlight), l.foldl (fun b o => match b with
      | none => some o
      | some x => if o.endCycle < x.endCycle then some o else some x) b = some o → o ∈ l ∨ b = some o := by
    intro l
    induction l with
    | nil => exact fun b hb => .inr hb
    | cons a l ih =>
      intro b hb
      rcases ih _ hb with hl | hl
      · exact .inl (List.mem_cons_of_mem _ hl)
      · cases b with
        | none => exact .inl (by simp [Option.some.inj hl])
        | some y =>
          dsimp only at hl
          split at hl
          · exact .inl (by simp [Option.some.inj hl])
          · exact .inr hl
  rcases hfold _ _ h with hmem | hnone
  · exact ⟨List.mem_of_mem_filter hmem, List.of_mem_filter hmem⟩
  · cases hnone

/-- Where no word comes up to a cycle, none lands. -/
theorem landDue_of_none {j : Job} {r : Run} {c : Nat} (s : State) (h : ∀ w ∈ r.words, c < w.cycle) :
    landDue j r c s = (r, s) := by
  have hdue : r.words.filter (fun w => decide (w.cycle ≤ c)) = [] :=
    List.filter_eq_nil_iff.mpr fun w hw => by simpa using h w hw
  simp only [landDue, hdue, if_true]

/-- An operator that meets no error mark and does not fail leaves its results in the banks. -/
theorem applyOp_eq {j : Job} {r : Run} {o : OpFlight} {d : Desc} {x : SchedRec} {t : TileRec} {s : State} (hm : s.marks = []) :
    let c := cycleBefore (now s) s
    let vs := ((r.visible.find? (fun v => v.1 = o.rec_)).map (·.2)).getD []
    let res := runOp d ⟨absTile j o.tile, t.arrayFmt, truncOf t.arithCtl⟩ o.inst x.step vs (decide (o.inst + 1 = x.repeat_))
      (bankView c s)
    res.fail = none → applyOp j r o d x t s =
      setRun j { r with sat := r.sat + res.sat } (putResults c (opPort d) (absTile j o.tile) res.puts s) := by
  intro c vs res hfail
  simp only [applyOp, hm, if_true, Bool.false_eq_true, if_false]
  split
  · next code hcode => exact absurd (hfail.symm.trans hcode) (by simp)
  · rfl

/-- The operator of a tile, ended, where no word comes before its end. -/
theorem endStage_eq {col tile : Nat} {j : Job} {r : Run} {o : OpFlight} {x : SchedRec} {tr : TileRec} {d : Desc} {s : State}
    (hrun : runAt col s = some (j, r)) (ho : firstOp r.ops (fun o => o.tile = tile) = some o)
    (hheld : heldBefore r o.endCycle = false) (hw : ∀ w ∈ r.words, o.endCycle < w.cycle)
    (hx : r.image.sched[o.rec_]? = some x) (htr : tileRec r.image tile = some tr) (hd : descOf r.image x = some d) :
    endStage col tile s =
      applyOp j { r with ops := r.ops.erase o } o d x tr (atCycle r o.endCycle s) := by
  obtain rfl : o.tile = tile := by simpa using (firstOp_mem ho).2
  simp only [endStage, hrun, ho, hheld, Bool.false_eq_true, if_false, endOp]
  rw [landDue_of_none (r := { r with ops := r.ops.erase o }) _ hw]
  simp only [hx, htr, hd, Option.elim_some]

theorem le_foldl_max {l : List Nat} {a e : Nat} (he : e ∈ l) : e ≤ l.foldl max a := by
  induction l generalizing a with
  | nil => simp at he
  | cons b l ih =>
    rcases List.mem_cons.mp he with rfl | he
    · have hmono : ∀ (l : List Nat) (a : Nat), a ≤ l.foldl max a := by
        intro l
        induction l with
        | nil => exact fun _ => le_rfl
        | cons b l ih => exact fun a => (le_max_left a b).trans (ih _)
      exact (le_max_right a e).trans (hmono l _)
    · exact ih he

theorem now_atCycle (r : Run) (c : Nat) (s : State) : now (atCycle r c s) = max (now s) (cycleAt r c s) := now_runTo _ s

/-- Settles O27: a SEND and a STAGE_START set the run of their job, a delivery writes one bank word where the cycle is quiet,
and the end of a stage writes what its operator gives. -/
theorem routesAndStages : Obligations.RoutesAndStages := by
  unfold Obligations.RoutesAndStages
  refine ⟨?send, ?delivery, ?start, ?stop⟩
  case send =>
    intro col rec inst x0 x r src dst s h0 u hx hm hr hsrc hdst htile n bytes
    have hlen : (sendWords x r dst inst bytes).length = n / 8 := by rw [sendWords_length, bankRead_length]
    refine ⟨_, _, _, sendWords x r dst inst bytes,
      congrArg Host.Outcome.next ((beginAt_eq h0 hx).trans (beginSend_eq hm hr hsrc hdst htile)),
      runAt_setRun_of_instanceOf hx _ rfl, rfl, hlen, rfl, memKept_setRun _ _ _, fun k hk => ?_⟩
    simp only [sendWords, List.getElem_map, List.getElem_range, and_self]
  case delivery =>
    intro col j r w s hrun hw hheld hlen hquiet
    have hland := writesOnly_landWords r [w] (setRun j { r with words := r.words.erase w } (atCycle r w.cycle s))
    refine ⟨_, _, _, congrArg Host.Outcome.next (deliverWord_eq hrun hw hheld),
      (runAt_congr (congrArg Dispatcher.jobs hland.disp) _).trans (runAt_setRun hrun rfl), rfl,
      hland.now.trans (now_atCycle _ _ _), ?_⟩
    have hsize : w.data.length ≤ bankSize w.bank := by rw [hlen]; unfold bankSize; split <;> norm_num
    have hheld := bankWrite_holds (cycleBefore (cycleAt r w.cycle s) s) Port.landing w.tile w.bank w.addr w.data
      (setRun j { r with words := r.words.erase w } (atCycle r w.cycle s)) hsize (by rw [hlen]; exact hquiet)
    have hbytes := hheld.bankBytes_eq
    rw [hlen] at hbytes
    exact hbytes
  case start =>
    intro col rec inst x0 x d tr s h0 u hx hd htr hno
    refine ⟨_, _, _, _, congrArg Host.Outcome.next ((beginAt_eq h0 hx).trans (beginStage_eq hd htr hno)),
      runAt_setRun_of_instanceOf hx _ rfl, rfl, rfl, rfl, rfl, rfl, memKept_setRun _ _ _, fun hb => ?_, fun e he => ?_⟩
    · simp only [hb, List.foldl_nil]
    · exact Nat.add_le_add_right (le_foldl_max he) _
  case stop =>
    intro col tile j r o x tr d s hm hrun ho hheld hw hx htr hd u c vs res hfail
    obtain rfl : o.tile = tile := by simpa using (firstOp_mem ho).2
    have hput := writesOnly_putResults c (opPort d) (absTile j o.tile) res.puts u
    refine ⟨_, _, _, congrArg Host.Outcome.next ((endStage_eq hrun ho hheld hw hx htr hd).trans (applyOp_eq hm hfail)),
      runAt_setRun hrun (congrArg Dispatcher.jobs hput.disp), rfl, rfl, rfl, ?_⟩
    exact hput.now.trans (now_atCycle _ _ _)

end Sys2Proof.Machine
end

section
/-! What the books of a job leave alone: its completion, the ledger, the safety block's reports; how a partition is released
and how a job leaves the device. -/

namespace Sys2Proof.Machine

open Sys2Proof.Config

/-! ### What the bookkeeping around a job leaves alone -/

/-- The registers that the statements about jobs speak of: the fabric's block, the trained population, the weight errors. -/
def fabricReg (o : Nat) : Bool :=
  (decide (0x100000 ≤ o) && decide (o < 0x200000)) || decide (o = Reg.MEM_POP) || decide (o = Reg.MEM_CRCW_COUNT)

theorem ne_of_fabricReg {o p : Nat} (ho : fabricReg o = true) (hp : fabricReg p = false) : o ≠ p := by
  rintro rfl
  rw [ho] at hp
  cases hp

/-- Time, the jobs, the standing entries, handoffs and handles, and the fabric's registers are as they were. -/
structure Bookkept (s t : State) : Prop where
  clk : t.clk = s.clk
  jobs : t.disp.jobs = s.disp.jobs
  standing : t.disp.standing = s.disp.standing
  handoffs : t.disp.handoffs = s.disp.handoffs
  handles : t.disp.handles = s.disp.handles
  regs : ∀ o, fabricReg o = true → getReg o t = getReg o s

namespace Bookkept

variable {s t u : State}

theorem refl (s : State) : Bookkept s s := ⟨rfl, rfl, rfl, rfl, rfl, fun _ _ => rfl⟩

theorem trans (h1 : Bookkept s t) (h2 : Bookkept t u) : Bookkept s u :=
  ⟨h2.clk.trans h1.clk, h2.jobs.trans h1.jobs, h2.standing.trans h1.standing, h2.handoffs.trans h1.handoffs,
    h2.handles.trans h1.handles, fun o ho => (h2.regs o ho).trans (h1.regs o ho)⟩

theorem foldl {α : Type} {f : State → α → State} {l : List α} (hf : ∀ a ∈ l, ∀ s, Bookkept s (f s a)) (s : State) :
    Bookkept s (l.foldl f s) := by
  induction l generalizing s with
  | nil => exact refl s
  | cons a l ih => exact (hf a List.mem_cons_self s).trans (ih (fun b hb => hf b (List.mem_cons_of_mem _ hb)) _)

theorem of_disp (hclk : t.clk = s.clk) (hdisp : t.disp = s.disp) (hregs : ∀ o, fabricReg o = true → getReg o t = getReg o s) :
    Bookkept s t := ⟨hclk, by rw [hdisp], by rw [hdisp], by rw [hdisp], by rw [hdisp], hregs⟩

theorem of_regs (hclk : t.clk = s.clk) (hdisp : t.disp = s.disp) (hregs : t.regs = s.regs) : Bookkept s t :=
  of_disp hclk hdisp fun _ _ => by simp only [getReg, hregs]

theorem ite {c : Prop} [Decidable c] {a b : State} (ha : Bookkept s a) (hb : Bookkept s b) :
    Bookkept s (if c then a else b) := by
  split
  · exact ha
  · exact hb

end Bookkept

theorem bookkept_setReg {o : Nat} (h : fabricReg o = false) (v : Word) (s : State) : Bookkept s (setReg o v s) :=
  .of_disp rfl rfl fun _ hp => getReg_setReg_other _ _ (ne_of_fabricReg hp h)

theorem bookkept_emit (x : Out) (s : State) : Bookkept s (emit x s) := .of_regs rfl rfl rfl

theorem bookkept_modAccount (c : Nat) (f : Account → Account) (s : State) : Bookkept s (modAccount c f s) :=
  ⟨rfl, rfl, rfl, rfl, rfl, fun _ _ => rfl⟩

theorem MemOnly.bookkept {s t : State} (h : MemOnly s t) : Bookkept s t := by
  have herr : ∀ p ∈ errRegs, fabricReg p = false := by decide
  exact .of_disp h.clk h.disp fun o ho => h.regs o fun hmem => ne_of_fabricReg ho (herr o hmem) rfl

/-! ### Completions -/

theorem bookkept_hostStore (a : Nat) (bs : List Byte) (s : State) : Bookkept s (hostStore a bs s) := by
  have h := hostStore_frame a bs s
  exact .of_regs (congrArg State.clk h :) (congrArg State.disp h :) (congrArg State.regs h :)

theorem bookkept_discardWrite (c : Nat) (s : State) : Bookkept s (discardWrite c s) :=
  .trans (t := { s with disp := (discardWrite c s).disp }) ⟨rfl, rfl, rfl, rfl, rfl, fun _ _ => rfl⟩
    (bookkept_setReg (o := Reg.HOST_DISCARD) rfl _ _)

theorem bookkept_postCmpl (e : List Byte) (s : State) : Bookkept s (postCmpl e s) := by
  obtain ⟨hrest, hdisp⟩ := onlyCompletion_postCmpl e s
  exact ⟨(congrArg State.clk hrest :), (congrArg Dispatcher.jobs hdisp :), (congrArg Dispatcher.standing hdisp :),
    (congrArg Dispatcher.handoffs hdisp :), (congrArg Dispatcher.handles hdisp :),
    fun o ho => postCmpl_reg o e s (ne_of_fabricReg ho rfl) (ne_of_fabricReg ho rfl)⟩

theorem bookkept_postJob (q : Nat) (rec : List Byte) (s : State) : Bookkept s (postJob q rec s) := by
  unfold postJob
  refine .ite (bookkept_postCmpl rec s) (.ite (.refl s) ?_)
  refine .trans ?_ (bookkept_emit _ _)
  exact (bookkept_hostStore _ rec s).trans ⟨rfl, rfl, rfl, rfl, rfl, fun _ _ => rfl⟩

theorem bookkept_deliverJob (j : Job) (rec : List Byte) (s : State) : Bookkept s (deliverJob j rec s) := by
  unfold deliverJob
  exact .ite (bookkept_discardWrite _ s) (.ite (bookkept_postJob _ rec s) ⟨rfl, rfl, rfl, rfl, rfl, fun _ _ => rfl⟩)

/-- A job that leaves: its records are kept, and then no job has its identity. -/
theorem finishJob_eq (j : Job) (flags : BitVec 16) (outcome reason : Nat) (s : State) :
    ∃ u, Bookkept s u ∧ finishJob j flags outcome reason s = removeJob j.uid u := by
  have hdone : ∀ q : Fin 8, fabricReg (Reg.JQq_DONE q) = false := by decide
  unfold finishJob
  dsimp only
  refine ⟨_, ?_, rfl⟩
  have hrecord : Bookkept s (if j.proof.isSome then s else deliverJob j (jobRecord j flags outcome reason) s) :=
    .ite (.refl s) (bookkept_deliverJob j _ s)
  split
  · exact (hrecord.trans (bookkept_modAccount _ _ _)).trans (bookkept_setReg (hdone _) _ _)
  · exact hrecord.trans (bookkept_modAccount _ _ _)

/-! ### The safety block -/

theorem bookkept_raise (src : Nat) (ev : Ev) (code : Nat) (d : List (Option Word)) (s : State) :
    Bookkept s (raise src ev code d s) := by
  have h := raise_frame src ev code d s
  exact .of_disp (congrArg State.clk h :) (congrArg State.disp h :) fun o ho =>
    getReg_raise o _ _ _ _ s (ne_of_fabricReg ho rfl)

theorem bookkept_driveTen (s : State) : Bookkept s (driveTen s) := by
  have h := driveTen_frame s
  exact .of_disp (congrArg State.clk h :) (congrArg State.disp h :) fun o ho =>
    driveTen_reg o s (ne_of_fabricReg ho rfl)

theorem bookkept_driveSafe (s : State) : Bookkept s (driveSafe s) :=
  bookkept_setReg rfl _ s

theorem bookkept_latchBit (b : Nat) (ten : BitVec 16) (s : State) : Bookkept s (latchBit b ten s) := by
  have hset (d : Tab (BitVec 16)) : Bookkept s (modReg Reg.SAF_TEN_ARM (· &&& ~~~(ten.zeroExtend 32))
      (orReg Reg.SAF_LATCH (word (2 ^ b)) { s with saf := { s.saf with dropped := d } })) := by
    refine .trans ?_ (bookkept_setReg (o := Reg.SAF_TEN_ARM) rfl _ _)
    refine .trans ?_ (bookkept_setReg (o := Reg.SAF_LATCH) rfl _ _)
    exact .of_regs rfl rfl rfl
  unfold latchBit
  exact .ite ((hset _).trans (bookkept_raise _ _ _ _ _)) (hset _)

theorem bookkept_putLatches (bs : List (Nat × BitVec 16)) (s : State) : Bookkept s (putLatches bs s) := by
  unfold putLatches
  refine .trans ?_ (bookkept_driveSafe _)
  refine .trans ?_ (bookkept_driveTen _)
  exact .foldl (fun e _ s => bookkept_latchBit e.1 e.2 s) s

theorem bookkept_offerCan (c : Nat) (s : State) : Bookkept s (offerCan c s) := by
  unfold offerCan
  refine .ite (.refl s) ?_
  split
  · exact .refl s
  · exact .of_regs rfl rfl rfl
  · exact .of_regs rfl rfl rfl
  · exact .of_regs rfl rfl rfl

theorem bookkept_queueSafety (s : State) : Bookkept s (queueSafety s) := by
  unfold queueSafety
  refine .ite ?_ (.refl s)
  extract_lets joins u c x v
  have hu : Bookkept s u := .ite (.refl s) (bookkept_setReg (o := Reg.SAF_SF_SEQ) rfl _ s)
  have hv : Bookkept u v := by
    refine .ite (.of_regs rfl rfl rfl) (.trans ?_ (bookkept_offerCan c _))
    exact .of_regs rfl rfl rfl
  clear_value v
  exact (hu.trans hv).trans (.of_regs rfl rfl rfl)

theorem bookkept_withFrame {f : State → State} {s : State} (hf : Bookkept s (f s)) : Bookkept s (withFrame f s) := by
  unfold withFrame
  exact .ite hf (hf.trans (bookkept_queueSafety _))

/-- The status of the check bindings lies in the safety block. -/
theorem bookkept_setChkStat {k : Nat} (hk : k < 16) (hi lo v : Nat) (s : State) :
    Bookkept s (setRegFld (Reg.SAF_CHKk_STAT k) hi lo v s) := by
  have hstat : ∀ k : Fin 16, fabricReg (Reg.SAF_CHKk_STAT k) = false := by decide
  exact bookkept_setReg (hstat ⟨k, hk⟩) _ s

end Sys2Proof.Machine
end

section
/-! A binding's report, the locks of handoff slots, and what the device keeps when a job leaves it or its partition is released. -/

namespace Sys2Proof.Machine

open Sys2Proof.Config

/-! ### A binding's report -/

theorem bookkept_putInvalid (s : State) : Bookkept s (putInvalid s) := by
  unfold putInvalid setInvalidMask
  refine .trans ?_ (bookkept_setReg (o := Reg.SAF_CMP_STAT) rfl _ _)
  exact .foldl (fun k hk s => bookkept_setChkStat (List.mem_range.mp hk) _ _ _ s) s

theorem bookkept_proofFails (k : Fin 16) (s : State) : Bookkept s (proofFails k s) := by
  unfold proofFails latchInvalid
  refine .trans ?_ (bookkept_withFrame ((bookkept_putInvalid _).trans (bookkept_putLatches _ _)))
  refine .trans ?_ (bookkept_setChkStat k.isLt _ _ _ _)
  exact .of_regs rfl rfl rfl

theorem bookkept_clearPending (ks : List (Fin 16)) (s : State) : Bookkept s (clearPending (ks.map (·.val)) s) := by
  refine .foldl (fun k hk s => ?_) s
  obtain ⟨i, -, rfl⟩ := List.mem_map.mp hk
  exact bookkept_setChkStat i.isLt _ _ _ s

/-! ### Locks of the inputs -/

/-- Nothing changed but how many locks the handoffs' slots have. -/
structure LocksOnly (s t : State) : Prop where
  rest : { t with disp := { t.disp with handoffs := s.disp.handoffs } } = s
  slots : ∀ k, (getHandoff k t).commits = (getHandoff k s).commits ∧ (getHandoff k t).front = (getHandoff k s).front

theorem locksOnly_lockSlot (k : Nat) (slot take : Bool) (s : State) : LocksOnly s (lockSlot k slot take s) := by
  refine ⟨rfl, fun j => ?_⟩
  unfold lockSlot
  by_cases hj : j = k
  · subst hj
    cases slot <;> simp
  · simp [getHandoff_setHandoff_other _ _ hj]

theorem LocksOnly.trans {s t u : State} (h1 : LocksOnly s t) (h2 : LocksOnly t u) : LocksOnly s u := by
  refine ⟨?_, fun k => ⟨(h2.slots k).1.trans (h1.slots k).1, (h2.slots k).2.trans (h1.slots k).2⟩⟩
  have h := congrArg (fun v : State => { v with disp := { v.disp with handoffs := s.disp.handoffs } }) h2.rest
  exact h.trans h1.rest

theorem locksOnly_unlockInputs (j : Job) (s : State) : LocksOnly s (unlockInputs j s) := by
  unfold unlockInputs
  induction j.taken generalizing s with
  | nil => exact ⟨rfl, fun _ => ⟨rfl, rfl⟩⟩
  | cons p l ih => exact (locksOnly_lockSlot p.1 p.2 false s).trans (ih _)

/-! ### A job leaves the device -/

/-- A job has left: nothing has its identity, and what is not its own is as it was, but for locks and books. -/
structure JobLeft (uid : Nat) (s t : State) : Prop where
  clk : t.clk = s.clk
  gone : ∀ x ∈ t.disp.jobs, x.uid ≠ uid
  standing : t.disp.standing = s.disp.standing
  slots : ∀ k, (getHandoff k t).commits = (getHandoff k s).commits ∧ (getHandoff k t).front = (getHandoff k s).front
  regs : ∀ o, fabricReg o = true → getReg o t = getReg o s

theorem Bookkept.jobLeft {uid : Nat} {s t u : State} (h : Bookkept s t) (hl : JobLeft uid t u) : JobLeft uid s u :=
  ⟨hl.clk.trans h.clk, hl.gone, hl.standing.trans h.standing, fun k => by
    have := hl.slots k
    rwa [show getHandoff k t = getHandoff k s by simp only [getHandoff, h.handoffs]] at this,
    fun o ho => (hl.regs o ho).trans (h.regs o ho)⟩

theorem LocksOnly.jobLeft {uid : Nat} {s t u : State} (h : LocksOnly s t) (hl : JobLeft uid t u) : JobLeft uid s u :=
  ⟨hl.clk.trans (congrArg State.clk h.rest :), hl.gone,
    hl.standing.trans (congrArg (fun s : State => s.disp.standing) h.rest :),
    fun k => ⟨(hl.slots k).1.trans (h.slots k).1, (hl.slots k).2.trans (h.slots k).2⟩,
    fun o ho => (hl.regs o ho).trans (congrArg (getReg o) h.rest :)⟩

/-- Retiring a handle, where it happens, frees it and does nothing else. -/
theorem retireIfIdle_eq (h : Nat) (s : State) : retireIfIdle h s = s ∨ retireIfIdle h s = setHandle h none s := by
  unfold retireIfIdle
  split
  · exact .inl rfl
  · split
    · exact .inr rfl
    · exact .inl rfl

theorem jobLeft_finishJob (j : Job) (flags : BitVec 16) (outcome reason h : Nat) (s : State) :
    JobLeft j.uid s (retireIfIdle h (finishJob j flags outcome reason s)) := by
  obtain ⟨u, hu, heq⟩ := finishJob_eq j flags outcome reason s
  have hleft : JobLeft j.uid u (removeJob j.uid u) :=
    ⟨rfl, fun x hx => by simpa using (List.mem_filter.mp hx).2, rfl, fun _ => ⟨rfl, rfl⟩, fun _ _ => rfl⟩
  rw [heq]
  refine hu.jobLeft ?_
  rcases retireIfIdle_eq h (removeJob j.uid u) with hr | hr
  · rw [hr]; exact hleft
  · rw [hr]; exact ⟨hleft.clk, hleft.gone, hleft.standing, hleft.slots, hleft.regs⟩

theorem bookkept_dropCfRuns (uid : Nat) (s : State) : Bookkept s (dropCfRuns uid s) := .of_regs rfl rfl rfl

theorem bookkept_proofReport (j : Job) (s : State) :
    Bookkept s (match j.proof with | some k => proofFails k s | none => s) := by
  cases j.proof with
  | none => exact .refl s
  | some k => exact bookkept_proofFails k s

theorem jobLeft_refuseJob (j : Job) (flags : BitVec 16) (reason : Nat) (s : State) :
    JobLeft j.uid s (refuseJob j flags reason s) := by
  refine (bookkept_proofReport j s).jobLeft ?_
  refine (locksOnly_unlockInputs j _).jobLeft ?_
  exact (bookkept_dropCfRuns j.uid _).jobLeft (jobLeft_finishJob j flags _ reason j.desc.handle _)

theorem bookkept_pendingReport (j : Job) (s : State) :
    Bookkept s (if j.isReplay then clearPending ((checksOf j s).map (·.val)) s else s) :=
  .ite (bookkept_clearPending _ s) (.refl s)

theorem jobLeft_giveUp (j : Job) (flags : BitVec 16) (s : State) : JobLeft j.uid s (giveUp j flags s) := by
  refine (bookkept_proofReport j s).jobLeft ?_
  refine (bookkept_pendingReport j _).jobLeft ?_
  refine (locksOnly_unlockInputs j _).jobLeft ?_
  exact (bookkept_dropCfRuns j.uid _).jobLeft (jobLeft_finishJob j flags _ _ j.desc.handle _)

/-! ### A partition is released -/

/-- A fold of register writes changes registers alone. -/
theorem foldl_setReg_frame {α : Type} (f : α → Nat) (g : State → α → Word) (l : List α) (s : State) :
    { l.foldl (fun s a => setReg (f a) (g s a) s) s with regs := s.regs } = s := by
  induction l generalizing s with
  | nil => rfl
  | cons a l ih => exact (congrArg (fun t : State => { t with regs := s.regs }) (ih (setReg (f a) (g s a) s)) :)

theorem getReg_foldl_setReg_other {α : Type} {f : α → Nat} (g : State → α → Word) {l : List α} {o : Nat}
    (h : ∀ a ∈ l, o ≠ f a) (s : State) : getReg o (l.foldl (fun s a => setReg (f a) (g s a) s) s) = getReg o s := by
  induction l generalizing s with
  | nil => rfl
  | cons a l ih =>
    rw [List.foldl_cons, ih (fun b hb => h b (List.mem_cons_of_mem _ hb)),
      getReg_setReg_other _ _ (h a List.mem_cons_self)]

theorem getReg_foldl_setReg_const {α : Type} {f : α → Nat} (v : Word) {l : List α} {o : Nat} (h : ∃ a ∈ l, o = f a)
    (s : State) : getReg o (l.foldl (fun s a => setReg (f a) v s) s) = v := by
  induction l generalizing s with
  | nil => simp at h
  | cons a l ih =>
    by_cases hl : ∃ b ∈ l, o = f b
    · exact ih hl _
    · rw [List.foldl_cons, getReg_foldl_setReg_other (fun _ _ => v) (by simpa using hl)]
      obtain ⟨b, hb, rfl⟩ := h
      rcases List.mem_cons.mp hb with rfl | hb
      · exact getReg_setReg_same _ _ _
      · exact absurd ⟨b, hb, rfl⟩ hl

theorem showHeld_frame (r : Tab Word) (s : State) : { showHeld s with regs := r } = { s with regs := r } := by
  simp only [showHeld, setRegFld_eq, setReg]

theorem releaseCols_frame (cols : List Nat) (s : State) : { releaseCols cols s with regs := s.regs } = s :=
  (showHeld_frame s.regs _).trans (foldl_setReg_frame Reg.FAB_COLn_OWNER (fun _ _ => 0) cols s)

theorem getReg_showHeld {o : Nat} (hd : o ≠ Reg.DEV_STATUS) (hh : o ≠ Reg.FAB_HELD) (s : State) :
    getReg o (showHeld s) = getReg o s := by
  unfold showHeld
  rw [setRegFld_eq, getReg_setReg_other _ _ hd, getReg_setReg_other _ _ hh]

theorem colHeld_showHeld (c : Nat) (s : State) : colHeld c (showHeld s) = colHeld c s := by
  unfold colHeld regBit
  rw [getReg_showHeld] <;> (unfold Reg.FAB_COLn_OWNER; simp only [Reg.DEV_STATUS, Reg.FAB_HELD]; omega)

/-- What releasing a held partition leaves: its job holds it no more, its columns are free, and what is neither that nor the
ledger's is as it was. -/
structure Released (j : Job) (s t : State) : Prop where
  clk : t.clk = s.clk
  saf : t.saf = s.saf
  dram : t.dram = s.dram
  losses : t.losses = s.losses
  jobs : t.disp.jobs = (setJob { j with held := false } s).disp.jobs
  standing : t.disp.standing = s.disp.standing
  handoffs : t.disp.handoffs = s.disp.handoffs
  handles : t.disp.handles = s.disp.handles
  free : ∀ c ∈ jobCols j, colHeld c t = false
  regs : ∀ o, fabricReg o = true → o ≠ Reg.FAB_HELD → (∀ c < 12, o ≠ Reg.FAB_COLn_OWNER c) → getReg o t = getReg o s

theorem ballastFall_eq (j : Job) (s : State) : ∃ p, ballastFall j s = { s with pwr := p } := by
  unfold ballastFall
  split
  · exact ⟨s.pwr, rfl⟩
  · exact ⟨_, rfl⟩

theorem released (j : Job) (s : State) (h : j.held = true) : Released j s (releasePartition j s) := by
  have hframe := releaseCols_frame (jobCols j) s
  have hcols : ∀ c ∈ jobCols j, c < 12 := fun c hc => by simpa using (List.mem_filter.mp hc).2
  have hother : ∀ o, o ≠ Reg.DEV_STATUS → o ≠ Reg.FAB_HELD → (∀ c < 12, o ≠ Reg.FAB_COLn_OWNER c) →
      getReg o (releaseCols (jobCols j) s) = getReg o s := fun o hd hh ho => by
    unfold releaseCols
    rw [getReg_showHeld hd hh, getReg_foldl_setReg_other (fun _ _ => 0) (fun c hc => ho c (hcols c hc))]
  have hfree : ∀ c ∈ jobCols j, colHeld c (releaseCols (jobCols j) s) = false := fun c hc => by
    unfold releaseCols
    rw [colHeld_showHeld, colHeld, regBit, getReg_foldl_setReg_const 0 ⟨c, hc, rfl⟩, bit_zero]
  unfold releasePartition
  rw [if_pos h]
  generalize releaseCols (jobCols j) s = u at *
  obtain ⟨p, hp⟩ := ballastFall_eq j u
  have hdisp : u.disp = s.disp := (congrArg State.disp hframe :)
  dsimp only
  rw [hp]
  refine ⟨(congrArg State.clk hframe :), (congrArg State.saf hframe :), (congrArg State.dram hframe :),
    (congrArg State.losses hframe :), ?_, (congrArg Dispatcher.standing hdisp :), (congrArg Dispatcher.handoffs hdisp :),
    (congrArg Dispatcher.handles hdisp :), fun c hc => ?_, fun o ho hh hc => ?_⟩
  · exact (congrArg (fun d : Dispatcher => d.jobs.map (fun x => if x.uid = j.uid then { j with held := false } else x)) hdisp :)
  · have hne : Reg.FAB_COLn_OWNER c ≠ Reg.RNG_PORT_OWNER := by
      have := hcols c hc
      simp only [Reg.FAB_COLn_OWNER, Reg.RNG_PORT_OWNER]
      omega
    rw [← hfree c hc, colHeld, colHeld, showPorts, regBit_setReg_other _ _ _ hne]
    rfl
  · rw [← hother o (ne_of_fabricReg ho rfl) hh hc, showPorts, getReg_setReg_other _ _ (ne_of_fabricReg ho rfl)]
    rfl

end Sys2Proof.Machine
end

section
/-! The loader between two services, and how a job that fails leaves its partition. -/

namespace Sys2Proof.Machine

open Sys2Proof.Config

/-! ### The loader between two services -/

/-- `t` with the loader's queue and registers as `s` has them. -/
def loaderFrom (s t : State) : State :=
  { t with regs := s.regs, disp := { t.disp with loads := s.disp.loads, active := s.disp.active } }

/-- Nothing changed but what the loader serves, and BUSY (R60, R62). -/
structure LoaderOnly (s t : State) : Prop where
  rest : loaderFrom s t = s
  regs : ∀ o, o ≠ Reg.FAB_LOAD_STAT → getReg o t = getReg o s
  shown : ∀ hi lo, hi < 31 → regFld Reg.FAB_LOAD_STAT hi lo t = regFld Reg.FAB_LOAD_STAT hi lo s

namespace LoaderOnly

variable {s t u : State}

theorem refl (s : State) : LoaderOnly s s := ⟨rfl, fun _ _ => rfl, fun _ _ _ => rfl⟩

theorem trans (h1 : LoaderOnly s t) (h2 : LoaderOnly t u) : LoaderOnly s u :=
  ⟨calc loaderFrom s u = loaderFrom s (loaderFrom t u) := rfl
      _ = s := by rw [h2.rest, h1.rest],
    fun o ho => (h2.regs o ho).trans (h1.regs o ho),
    fun hi lo h => (h2.shown hi lo h).trans (h1.shown hi lo h)⟩

theorem clk (h : LoaderOnly s t) : t.clk = s.clk := (congrArg State.clk h.rest :)
theorem flits (h : LoaderOnly s t) : t.flits = s.flits := (congrArg State.flits h.rest :)
theorem jobs (h : LoaderOnly s t) : t.disp.jobs = s.disp.jobs := (congrArg (fun s : State => s.disp.jobs) h.rest :)
theorem handles (h : LoaderOnly s t) : t.disp.handles = s.disp.handles :=
  (congrArg (fun s : State => s.disp.handles) h.rest :)

theorem memKept (h : LoaderOnly s t) : Machine.memKept s t := by
  have hpop : ∀ a, dramHas a t = dramHas a s := fun a => by
    simp only [dramHas, h.regs Reg.MEM_POP (by decide)]
  refine ⟨fun sp a => ?_, fun a => (congrArg (hostByte a) h.rest :), (congrArg State.flash h.rest :),
    (congrArg State.fuses h.rest :)⟩
  have hread : rdByte sp a (loaderFrom s t) = rdByte sp a s := congrArg (rdByte sp a) h.rest
  rw [← hread]
  unfold rdByte
  rw [show dramHas (memKey sp a) (loaderFrom s t) = dramHas (memKey sp a) t from (hpop _).symm]
  cases sp <;> rfl

end LoaderOnly

/-- A write of BUSY shows nothing else. -/
theorem loaderOnly_busy (v : Nat) (s : State) : LoaderOnly s (setRegFld Reg.FAB_LOAD_STAT 31 31 v s) :=
  ⟨rfl, fun _ ho => getReg_setReg_other _ _ ho, fun _ _ h => regFld_setRegFld_apart _ _ _ _ _ _ s (.inl h)⟩

theorem loaderOnly_queue (l : List LoadReq) (a : Option (LoadReq × Nat × Nat)) (s : State) :
    LoaderOnly s { s with disp := { s.disp with loads := l, active := a } } := ⟨rfl, fun _ _ => rfl, fun _ _ _ => rfl⟩

theorem loaderOnly_startNext (s : State) : LoaderOnly s (startNext s) := by
  unfold startNext
  split
  · exact (loaderOnly_queue _ _ s).trans (loaderOnly_busy _ _)
  · exact .refl s

theorem loaderOnly_endService (s : State) : LoaderOnly s (endService s) :=
  ((loaderOnly_queue s.disp.loads none s).trans (loaderOnly_busy 0 _)).trans (loaderOnly_startNext _)

theorem loaderOnly_dropLoad (uid : Nat) (s : State) : LoaderOnly s (dropLoad uid s) := by
  have hdrop := loaderOnly_queue (s.disp.loads.filter (fun l => l ≠ LoadReq.load uid)) s.disp.active s
  unfold dropLoad
  dsimp only
  split
  · split
    · exact hdrop.trans (loaderOnly_endService _)
    · exact hdrop
  · exact hdrop

/-! ### A job that fails -/

/-- The columns of the fabric: what is counted in one of them, or shows its owner, is no count of the memory's. -/
theorem crcwCount_ne_colReg {c : Nat} (hc : c < 12) : Reg.MEM_CRCW_COUNT ≠ Reg.FAB_COLn_OWNER c ∧
    Reg.MEM_CRCW_COUNT ≠ Reg.FAB_COLn_STALL c ∧ Reg.MEM_CRCW_COUNT ≠ Reg.FAB_COLn_SAT c := by
  have h : ∀ c : Fin 12, Reg.MEM_CRCW_COUNT ≠ Reg.FAB_COLn_OWNER c ∧ Reg.MEM_CRCW_COUNT ≠ Reg.FAB_COLn_STALL c ∧
    Reg.MEM_CRCW_COUNT ≠ Reg.FAB_COLn_SAT c := by decide
  exact h ⟨c, hc⟩

section
variable (j : Job) (s : State) (hheld : j.held = true) (hbase : j.desc.baseCol < 12)
include hheld hbase

theorem crcwCount_stopPartition : getReg Reg.MEM_CRCW_COUNT (stopPartition j s) = getReg Reg.MEM_CRCW_COUNT s := by
  obtain ⟨-, hstall, hsat⟩ := crcwCount_ne_colReg hbase
  unfold stopPartition countSat countStall
  rw [(loaderOnly_dropLoad _ _).regs _ (by decide), bumpReg_eq, getReg_setReg_other _ _ hsat]
  rw [← (released j s hheld).regs Reg.MEM_CRCW_COUNT rfl (by decide) (fun c hc => (crcwCount_ne_colReg hc).1)]
  cases j.run with
  | none => rfl
  | some r =>
    dsimp only
    split
    · rw [bumpReg_eq, getReg_setReg_other _ _ hstall]; rfl
    · rfl

end

/-- R313: a job without ring ports that has failed waits for its restart off the fabric, or has left the device. -/
theorem afterFailure_alone (j : Job) (code : Nat) (own : Bool) (s : State) (hring : isRingJob j = false) :
    let t := afterFailure j code own false s
    (∀ o, fabricReg o = true → getReg o t = getReg o s) ∧
      ∀ x ∈ t.disp.jobs, x.uid = j.uid → x.stage = .restart ∧ x.held = false := by
  unfold afterFailure
  extract_lets more sat k aborted vote t
  have huid : k.uid = j.uid := rfl
  have hheld : k.held = false := rfl
  have hports : isRingJob k = false := hring
  clear_value k
  have ht : t = if more then setJob { k with stage := .restart } s else giveUp k k.codes s := by
    simp only [t, hports, Bool.false_and, Bool.false_eq_true, if_false]
  rw [ht]
  split
  · refine ⟨fun _ _ => rfl, fun x hx hu => ?_⟩
    rcases mem_setJob hx with rfl | ⟨-, hne⟩
    · exact ⟨rfl, hheld⟩
    · exact absurd (hu.trans huid.symm) hne
  · have hleft := jobLeft_giveUp k k.codes s
    exact ⟨hleft.regs, fun x hx hu => absurd (hu.trans huid.symm) (hleft.gone x hx)⟩

end Sys2Proof.Machine
end

section
/-! Copies of a partition, and the settlement of O26. -/

namespace Sys2Proof.Machine

open Sys2Proof.Config

/-! ### The external side -/

/-- Without error marks the look at a copy's external side counts nothing. -/
theorem extBase_state (j : Job) (kind buf : Nat) {u : State} (hm : u.marks = []) : (extBase j kind buf u).2 = u := by
  unfold extBase
  split
  · split
    · split
      · rfl
      · rw [readMem_of_no_marks _ _ _ hm]
    · split <;> rfl
  · dsimp only
    split
    · rfl
    · split <;> rfl
  all_goals rfl

/-- Where a copy's external side lies does not rest on the runs of the partitions. -/
theorem extBase_setRun (j k : Job) (r : Run) (kind buf : Nat) {u : State} (hm : u.marks = []) :
    (extBase j kind buf (setRun k r u)).1 = (extBase j kind buf u).1 := by
  have hm' : (setRun k r u).marks = [] := hm
  have hread : ∀ a n, rdBytes .dram a n (setRun k r u) = rdBytes .dram a n u := fun _ _ => rfl
  unfold extBase
  split
  · split
    · split
      · rfl
      · rw [readMem_of_no_marks _ _ _ hm, readMem_of_no_marks _ _ _ hm', hread]
        rfl
    · split <;> rfl
  · change (ite (16 ≤ buf) (ExtSide.nowhere, setRun k r u) (ite (buf < 2) _ _)).1 =
      (ite (16 ≤ buf) (ExtSide.nowhere, u) (ite (buf < 2) _ _)).1
    split
    · rfl
    · split <;> rfl
  all_goals rfl

/-- R306: whether a handoff output is skipped was found at its first write, or is found now. -/
theorem decideOut_fst {uid : Nat} {j : Job} {s : State} (hj : getJob uid s = some j) (h : Nat) :
    (decideOut uid h s).1 =
      ((j.outs.find? (fun o => o.1 = h)).map (·.2)).getD (backLocked (getHandoff (fabricKey h) s)) := by
  simp only [decideOut, hj]
  cases j.outs.find? (fun o => o.1 = h) <;> rfl

/-- An output that is not skipped: the job notes it, where it had not met it, and nothing else changes. -/
theorem decideOut_open {uid : Nat} {j : Job} {s : State} (hj : getJob uid s = some j) {h : Nat}
    (hopen : (decideOut uid h s).1 = false) :
    ((decideOut uid h s).2 = s ∧ ∃ o, j.outs.find? (fun o => o.1 = h) = some o) ∨
      ((decideOut uid h s).2 = setJob { j with outs := j.outs ++ [(h, false)] } s ∧ j.outs.find? (fun o => o.1 = h) = none) := by
  simp only [decideOut, hj] at hopen ⊢
  cases hfind : j.outs.find? (fun o => o.1 = h) with
  | some o => exact .inl ⟨rfl, o, rfl⟩
  | none =>
    rw [hfind] at hopen
    dsimp only at hopen ⊢
    rw [hopen]
    exact .inr ⟨rfl, rfl⟩

/-- The job of a partition, after it has looked at an output that is open to it. -/
theorem lockedOut_open {col kind buf : Nat} {k : Job} {v : State} (hat : jobAt col v = some k)
    (hk : getJob k.uid v = some k) (hopen : (lockedOut k.uid kind buf v).1 = false) :
    let w := (lockedOut k.uid kind buf v).2
    ∃ y, getJob k.uid w = some y ∧ jobAt col w = some y ∧ y.uid = k.uid ∧ y.stage = k.stage ∧ now w = now v ∧ memKept v w := by
  have hsame : ∃ y, getJob k.uid v = some y ∧ jobAt col v = some y ∧ y.uid = k.uid ∧ y.stage = k.stage ∧ now v = now v ∧
      memKept v v := ⟨k, hk, hat, rfl, rfl, rfl, memKept_refl v⟩
  unfold lockedOut at hopen ⊢
  by_cases hkind : kind = 2
  · simp only [hkind, if_true] at hopen ⊢
    rcases decideOut_open hk hopen with ⟨hs, -⟩ | ⟨hs, -⟩
    · rw [hs]; exact hsame
    · rw [hs]
      let y := { k with outs := k.outs ++ [(buf, false)] }
      exact ⟨y, getJob_setJob (j := y) (getJob_mem hk).1 rfl,
        jobAt_setJob hat rfl (jobAt_mem hat).2.1 rfl rfl, rfl, rfl, rfl, memKept_setJob _ v⟩
  · rw [if_neg hkind]
    exact hsame

/-! ### Copies that begin -/

/-- A plain copy in from a place that its job declares flies with the bytes of its source. -/
theorem plainIn_eq {x : Instance} {d : CopyDesc} {rec inst b : Nat} {sp : Space} {u : State} (hm : u.marks = [])
    (hb : (extBase x.job d.extKind x.rec_.buf u).1 = .at_ sp b) :
    let a := extAt sp b (d.extAddr + align8 x.rec_.step * inst)
    let n := align8 x.rec_.length
    plainIn x d rec inst u = flyTo x sp a n (flightIn x d rec inst a (rdBytes sp a n u)) u := by
  intro a n
  have hext : extBase x.job d.extKind x.rec_.buf u = (.at_ sp b, u) := Prod.ext hb (extBase_state _ _ _ hm)
  simp only [plainIn, hext, readMem_of_no_marks _ _ _ hm, Option.isSome_none, Bool.false_eq_true, if_false, a, n]

/-- A plain copy out to a place that its job declares and that is open flies with the bytes of the bank. -/
theorem plainOut_eq {x : Instance} {d : CopyDesc} {rec inst b : Nat} {sp : Space} {u : State} (hm : u.marks = [])
    (hb : (extBase x.job d.extKind x.rec_.buf u).1 = .at_ sp b) :
    let l := lockedOut x.job.uid d.extKind x.rec_.buf (setRun x.job x.run u)
    let a := extAt sp b (d.extAddr + align8 x.rec_.step * inst)
    let n := align8 x.rec_.length
    let t := absTile x.job x.rec_.tile
    l.1 = false → plainOut x d rec inst u =
      flyTo { x with job := (getJob x.job.uid l.2).getD x.job } sp a n { newFlight rec inst t (x.cycle + x.rec_.due) with
        pieces := [.ext sp a (bankRead t d.bank (d.bankAddr + d.bankStep * inst) n u).1.bytes], extAddr := a } l.2 := by
  intro l a n t hl
  obtain ⟨hbad, hstate⟩ := bankRead_of_no_marks t d.bank (d.bankAddr + d.bankStep * inst) n hm
  have hext : extBase x.job d.extKind x.rec_.buf (setRun x.job x.run u) = (.at_ sp b, setRun x.job x.run u) :=
    Prod.ext ((extBase_setRun _ _ _ _ _ hm).trans hb) (extBase_state _ _ _ hm)
  simp only [plainOut]
  rw [hbad, hstate, hext]
  simp only [Option.isSome_none, Bool.false_eq_true, if_false]
  exact if_neg (by rw [hl]; exact Bool.false_ne_true)

/-- A plain copy of some bytes is no paged one and no ring transfer. -/
theorem beginCopy_plain {out : Bool} {rec inst : Nat} {x : Instance} {d : Desc} {u : State}
    (hd : descOf x.run.image x.rec_ = some d) (ht : d.dtype = 1) (hn : align8 x.rec_.length ≠ 0) :
    beginCopy out rec inst x u =
      if out then plainOut x (parseCopy d) rec inst u else plainIn x (parseCopy d) rec inst u := by
  simp only [beginCopy, hd, ht, hn, if_false, OfNat.one_ne_ofNat]

/-- R52: a copy of no bytes is complete as it begins. -/
theorem beginCopy_empty {out : Bool} {rec inst : Nat} {x : Instance} {u : State} (hn : align8 x.rec_.length = 0) :
    beginCopy out rec inst x u = setRun x.job x.run u := by
  unfold beginCopy
  cases descOf x.run.image x.rec_ with
  | none => rfl
  | some d => simp only [hn, if_true]

/-! ### Copies that complete -/

/-- A copy that completes with its flits good: it lands no earlier than its shares allow (R492). -/
theorem completeCopy_eq {col rec inst : Nat} {j : Job} {r : Run} {f : Flight} {s : State} (hrun : runAt col s = some (j, r))
    (hf : r.copies.find? (fun f => f.rec_ = rec && f.inst = inst) = some f) (hring : f.ring = none) (fixed : Nat) :
    completeCopy col rec inst fixed false s =
      landFlight j r f (bumpReg Reg.MEM_CE_COUNT fixed (runTo (max f.tileDone f.sideDone) s)) := by
  simp only [completeCopy, hrun, hf, hring, Option.elim_none, Bool.false_eq_true, if_false]

/-- A completed copy is taken out of the run; at most the stall counter of the partition's column changes (R36). -/
theorem takeFlight_eq (j : Job) (r : Run) (f : Flight) (s : State) :
    (takeFlight j r f s).1.copies = r.copies.erase f ∧
      ∃ n, (takeFlight j r f s).2 = s ∨ (takeFlight j r f s).2 = bumpReg (Reg.FAB_COLn_STALL j.desc.baseCol) n s := by
  unfold takeFlight
  dsimp only
  split
  · exact ⟨rfl, 0, .inl rfl⟩
  · exact ⟨rfl, _, .inr rfl⟩

/-- A register that is no column's stall counter is as it was when a copy has been taken out. -/
theorem getReg_takeFlight {j : Job} {o : Nat} (h : o ≠ Reg.FAB_COLn_STALL j.desc.baseCol) (r : Run) (f : Flight) (s : State) :
    getReg o (takeFlight j r f s).2 = getReg o s := by
  obtain ⟨-, n, hs | hs⟩ := takeFlight_eq j r f s <;> rw [hs]
  rw [bumpReg_eq, getReg_setReg_other _ _ h]

theorem stall_ne {c : Nat} (hc : c < 12) :
    Reg.FAB_COLn_STALL c ≠ Reg.MEM_POP ∧ Reg.FAB_COLn_STALL c ≠ Reg.MEM_CE_COUNT := by
  have h : ∀ c : Fin 12, Reg.FAB_COLn_STALL c ≠ Reg.MEM_POP ∧ Reg.FAB_COLn_STALL c ≠ Reg.MEM_CE_COUNT := by decide
  exact h ⟨c, hc⟩

theorem takeFlight_frame {j : Job} (hb : j.desc.baseCol < 12) (r : Run) (f : Flight) (s : State) :
    memKept s (takeFlight j r f s).2 ∧ now (takeFlight j r f s).2 = now s ∧ (takeFlight j r f s).2.disp = s.disp := by
  obtain ⟨-, n, hs | hs⟩ := takeFlight_eq j r f s <;> rw [hs]
  · exact ⟨memKept_refl s, rfl, rfl⟩
  · exact ⟨memKept_setReg _ _ s (stall_ne hb).1, rfl, rfl⟩

/-- A counter that has not reached its largest value counts one. -/
theorem countUp_one {w : Word} (h : w ≠ 0xFFFFFFFF) : countUp w 1 = w + 1 := by
  have hlt : w.toNat ≠ 0xFFFFFFFF := fun e => h (BitVec.eq_of_toNat_eq e)
  have := w.isLt
  apply BitVec.eq_of_toNat_eq
  have hone : (1 : Word).toNat = 1 := rfl
  simp only [countUp, satAdd, word, BitVec.toNat_ofNat, BitVec.toNat_add, hone]
  omega

/-- R107, R313: a job without ring ports fails. -/
theorem failJob_alone {uid code : Nat} {own : Bool} {j : Job} {s : State} (hj : getJob uid s = some j) (hh : j.held = true)
    (hb : j.desc.baseCol < 12) (hring : isRingJob j = false) :
    getReg Reg.MEM_CRCW_COUNT (failJob uid code own s) = getReg Reg.MEM_CRCW_COUNT s ∧
      ∀ x ∈ (failJob uid code own s).disp.jobs, x.uid = j.uid → x.stage = .restart ∧ x.held = false := by
  obtain ⟨hregs, hjobs⟩ := afterFailure_alone j code own (stopPartition j s) hring
  simp only [failJob, hj]
  exact ⟨(hregs _ rfl).trans (crcwCount_stopPartition j s hh hb), hjobs⟩

/-- R105: a weight block that fails its check is counted, and its job fails. -/
theorem landFlight_weight {col : Nat} {j : Job} {r : Run} {f : Flight} {s v : State} (hcol : col < 12)
    (hrun : runAt col s = some (j, r)) (hv : v.disp.jobs = s.disp.jobs) (hw : f.weight = some false)
    (hring : isRingJob j = false) :
    getReg Reg.MEM_CRCW_COUNT (landFlight j r f v) = countUp (getReg Reg.MEM_CRCW_COUNT v) 1 ∧
      ∀ x ∈ (landFlight j r f v).disp.jobs, x.uid = j.uid → x.stage = .restart ∧ x.held = false := by
  obtain ⟨hat, -, -⟩ := runAt_eq_some.mp hrun
  obtain ⟨hmem, hheld, hbase⟩ := jobAt_mem hat
  have hb : j.desc.baseCol < 12 := hbase ▸ hcol
  have hland := WritesOnly.foldl (fun s p => writesOnly_landPiece p s) f.pieces v
  generalize hl : f.pieces.foldl (fun s p => landPiece p s) v = l at hland
  obtain ⟨-, -, hdisp⟩ := takeFlight_frame hb r f l
  have hcount := getReg_takeFlight (crcwCount_ne_colReg hb).2.1 r f l
  simp only [landFlight, hl]
  rw [if_pos hw]
  generalize takeFlight j r f l = tk at *
  generalize hq : ({ tk.1 with grown := tk.1.grown ++ f.advance.toList } : Run) = q
  have herr := errsOnly_captureErr Code.crcWeight 0 f.tile f.extAddr (bumpReg Reg.MEM_CRCW_COUNT 1 (setRun j q tk.2))
  generalize captureErr Code.crcWeight 0 f.tile f.extAddr (bumpReg Reg.MEM_CRCW_COUNT 1 (setRun j q tk.2)) = e at *
  have hjob : getJob j.uid (runTo (fabricEdge (now e) e) e) = some { j with run := some q } := by
    rw [getJob_congr (t := runTo (fabricEdge (now e) e) e) (congrArg Dispatcher.jobs herr.disp)]
    refine getJob_setJob (j := { j with run := some q }) (k := j) ?_ rfl
    rw [hdisp, hland.disp, hv]
    exact hmem
  obtain ⟨hcrc, hjobs⟩ := failJob_alone (code := Code.crcWeight) (own := true) hjob hheld hb hring
  refine ⟨?_, hjobs⟩
  rw [hcrc, getReg_runTo, herr.regs _ (by decide), bumpReg_eq, getReg_setReg_same]
  exact congrArg (countUp · 1) (hcount.trans (hland.getReg _))

/-- A copy that is no bad weight block lands. -/
theorem landFlight_good {j : Job} {r : Run} {f : Flight} (hw : f.weight ≠ some false) (v : State) :
    let tk := takeFlight j r f (f.pieces.foldl (fun s p => landPiece p s) v)
    landFlight j r f v = setRun j { tk.1 with grown := tk.1.grown ++ f.advance.toList } tk.2 := by
  intro tk
  simp only [landFlight, hw, if_false, tk]

/-- Settles O26: what is read at the begin flies, one write lands it, and a bad weight block makes its job fail. -/
theorem copiesRun : Obligations.CopiesRun := by
  unfold Obligations.CopiesRun
  refine ⟨⟨?copyIn, ?copyOut, ?empty⟩, ?complete, ?weight, ?due⟩
  case copyIn =>
    intro col rec inst x0 x d sp b s h0 u hx hm hd ht c n hn hw hb
    have hrun : beginCopy false rec inst x u = _ := (beginCopy_plain hd ht hn).trans (plainIn_eq hm hb)
    refine ⟨_, _, _, _, congrArg Host.Outcome.next ((beginAt_eq h0 hx).trans hrun), runAt_setRun_of_instanceOf hx _ rfl, rfl,
      mem_begun_of_instanceOf hx, rfl, rfl, rfl, rfl, ?_, rfl, memKept_setRun _ _ _⟩
    have hw' : (parseCopy d).weight = false := hw
    simp only [timeFlight, flightIn, hw', Bool.false_eq_true, if_false, c, n]
  case copyOut =>
    intro commit col rec inst x0 x d sp b s act h0 u hx hm hj hd ht c n hn hb hopen
    obtain ⟨r0, hr0, -⟩ := instanceOf_eq_some hx
    obtain ⟨hat, hstage, -⟩ := runAt_eq_some.mp hr0
    have hk : getJob x.job.uid (setRun x.job x.run u) = some { x.job with run := some x.run } :=
      getJob_setJob (j := { x.job with run := some x.run }) (getJob_mem hj).1 rfl
    have hat' : jobAt col (setRun x.job x.run u) = some { x.job with run := some x.run } :=
      jobAt_setJob hat rfl (jobAt_mem hat).2.1 rfl rfl
    have hopen' : (lockedOut x.job.uid c.extKind x.rec_.buf (setRun x.job x.run u)).1 = false := by
      unfold lockedOut at hopen ⊢
      split at hopen
      · rw [if_pos ‹_›, decideOut_fst hk]
        exact (decideOut_fst hj _).symm.trans hopen
      · rw [if_neg ‹_›]
    obtain ⟨y, hy, hyat, hyu, hys, hnow, hmem⟩ := lockedOut_open (k := { x.job with run := some x.run }) hat' hk hopen'
    have hrun : beginCopy true rec inst x u = _ := (beginCopy_plain hd ht hn).trans (plainOut_eq hm hb hopen')
    rw [hy, Option.getD_some] at hrun
    have hexec : exec (if commit then .commit col rec inst else .copyOut col rec inst) s = .next (beginCopy true rec inst x u) := by
      cases commit <;> exact congrArg Host.Outcome.next (beginAt_eq h0 hx)
    rw [hrun] at hexec
    exact ⟨_, _, _, _, hexec, runAt_setJob hyat rfl (jobAt_mem hyat).2.1 rfl rfl (hys.trans hstage) rfl, hyu,
      (mem_begun_of_instanceOf hx :), rfl, rfl, rfl, rfl, rfl, hnow,
      memKept_trans (memKept_trans (memKept_setRun _ _ u) hmem) (memKept_setRun _ _ _)⟩
  case empty =>
    intro col rec inst x0 x s h0 u hx hn
    exact ⟨_, _, _, congrArg Host.Outcome.next ((beginAt_eq h0 hx).trans (beginCopy_empty hn)),
      runAt_setRun_of_instanceOf hx _ rfl, mem_begun_of_instanceOf hx, rfl, rfl, memKept_setRun _ _ _⟩
  case complete =>
    intro col rec inst fixed j r f tl bk a bs s hrun hf hring hw hp hsize hquiet
    obtain ⟨-, -, hbase⟩ := jobAt_mem (runAt_eq_some.mp hrun).1
    have hb : j.desc.baseCol < 12 := hbase ▸ col.isLt
    let v := bumpReg Reg.MEM_CE_COUNT fixed (runTo (max f.tileDone f.sideDone) s)
    let l := bankWrite (cycleBefore (now v) v) Port.copy tl bk a bs v
    have hl : f.pieces.foldl (fun s p => landPiece p s) v = l := by rw [hp]; rfl
    have hwrite : WritesOnly v l := writesOnly_bankWrite _ _ _ _ _ _ v
    have hholds : BankHolds tl bk a bs v l := bankWrite_holds _ _ _ _ _ _ v hsize hquiet
    have hvread : ∀ sp k, rdByte sp k v = rdByte sp k s :=
      (memKept_trans (memKept_runTo _ s) (memKept_setReg _ _ _ (by decide))).1
    obtain ⟨hkept, hnow, hdisp⟩ := takeFlight_frame hb r f l
    have hend : landFlight j r f v = _ := landFlight_good hw v
    rw [hl] at hend
    refine ⟨_, _, _, congrArg Host.Outcome.next ((completeCopy_eq hrun hf hring fixed).trans hend),
      runAt_setRun hrun (by rw [hdisp, hwrite.disp]; rfl), rfl, (takeFlight_eq j r f l).1, ?_, ?_, fun i hi => ?_,
      fun k hk => ?_, fun sp k hsp => ?_⟩
    · exact (hnow.trans hwrite.now).trans (now_runTo _ s)
    · exact ((getReg_takeFlight (stall_ne hb).2.symm r f l).trans (hwrite.getReg _)).trans (getReg_setReg_same _ _ _)
    · rw [(memKept_setRun _ _ _).1, hkept.1, hholds.same i hi, List.getD_eq_getElem?_getD, List.getElem?_eq_getElem hi,
        Option.getD_some]
    · rw [(memKept_setRun _ _ _).1, hkept.1, hholds.other _ _ (.inr hk), hvread]
    · rw [(memKept_setRun _ _ _).1, hkept.1, hholds.other _ _ (.inl hsp), hvread]
  case weight =>
    intro col rec inst j r f s hrun hf hring hw hcount hports _
    let v := bumpReg Reg.MEM_CE_COUNT 0 (runTo (max f.tileDone f.sideDone) s)
    obtain ⟨hcrc, hjobs⟩ := landFlight_weight (f := f) (v := v) col.isLt hrun rfl hw hports
    have hv : getReg Reg.MEM_CRCW_COUNT v = getReg Reg.MEM_CRCW_COUNT s := getReg_setReg_other _ _ (by decide)
    refine ⟨_, congrArg Host.Outcome.next (completeCopy_eq hrun hf hring 0), fun hsame => ?_, ?_, hjobs⟩
    · obtain ⟨hat, hstage, -⟩ := runAt_eq_some.mp hsame
      have hrestart := (hjobs j (jobAt_mem hat).1 rfl).1
      rw [hstage] at hrestart
      cases hrestart
    · rw [hcrc, hv, countUp_one hcount]
  case due =>
    intro col rec inst j r f s hrun hcopies hrec hinst hfrom
    have hfind : r.copies.find? (fun f => f.rec_ = rec && f.inst = inst) = some f := by simp [hcopies, hrec, hinst]
    have hdue : firstDue r.copies = some f.dueCycle := by simp [hcopies, firstDue]
    let v := atCycle r f.dueCycle s
    have hnow : now v = max (now s) (cycleAt r f.dueCycle s) := now_atCycle _ _ _
    have hlate : ¬(r.heldFrom.isSome = true ∨ now v < cycleAt r f.dueCycle v) := by
      rw [hfrom, hnow]
      have : cycleAt r f.dueCycle v = cycleAt r f.dueCycle s := rfl
      simp [this]
    have hend : copyDueNow col.val rec inst s = setRun j { r with heldFrom := some (now v) } v := by
      simp only [copyDueNow, hrun, hfind, hdue, Option.getD_some]
      exact if_neg hlate
    refine ⟨_, _, _, congrArg Host.Outcome.next hend, runAt_setRun hrun rfl, hnow, rfl, ?_,
      memKept_trans (memKept_runTo _ s) (memKept_setRun _ _ _)⟩
    simp [heldBefore, hcopies]

end Sys2Proof.Machine
end

section
/-! Handles: how they retire and are registered, and the settlement of O24. -/

namespace Sys2Proof.Machine

open Sys2Proof.Config

/-! ### Retirement (R64) -/

theorem handleInfo_congr {s t : State} (hh : t.disp.handles = s.disp.handles) (h : Nat) : handleInfo h t = handleInfo h s := by
  simp only [handleInfo, hh]

theorem handleNamed_congr {s t : State} (hj : t.disp.jobs = s.disp.jobs) (hs : t.disp.standing = s.disp.standing) (h : Nat) :
    handleNamed h t ↔ handleNamed h s := by
  simp only [handleNamed, getStanding, hj, hs]

/-- The check that the machine makes before it frees a handle is that nothing names it. -/
theorem unnamed_iff (h : Nat) (s : State) :
    (s.disp.jobs.all (fun j => j.desc.handle ≠ h) &&
        (List.range 16).all (fun e => !((getStanding e s).enabled && (getStanding e s).desc.handle = h))) = true ↔
      ¬handleNamed h s := by
  simp only [handleNamed, List.all_eq_true, Bool.and_eq_true, decide_eq_true_eq, List.mem_range, not_or, not_exists, not_and,
    Bool.not_eq_true', Bool.and_eq_false_iff, decide_eq_false_iff_not, ne_eq]
  exact and_congr_right fun _ => forall₂_congr fun e _ => by cases (getStanding e s).enabled <;> simp

/-- A handle that waits for its retirement is freed when nothing names it, and else stays as it is. -/
theorem retireIfIdle_retiring {h : Nat} {i : HandleInfo} {s : State} (hi : handleInfo h s = some i) (hr : i.retiring = true) :
    (¬handleNamed h s → retireIfIdle h s = setHandle h none s) ∧ (handleNamed h s → retireIfIdle h s = s) := by
  have hchk := unnamed_iff h s
  simp only [retireIfIdle, hi, hr, Bool.true_and]
  exact ⟨fun hn => if_pos (hchk.mpr hn), fun hn => if_neg (fun hc => hchk.mp hc hn)⟩

/-- What a retirement of handle `h`, whose record was `i`, leaves behind. -/
structure Retired (h : Nat) (i : HandleInfo) (s t : State) : Prop where
  rest : { t with disp := { t.disp with handles := s.disp.handles } } = s
  others : ∀ k, k ≠ h → handleInfo k t = handleInfo k s
  idle : ¬handleNamed h s → handleInfo h t = none
  named : handleNamed h s → handleInfo h t = some { i with retiring := true }

theorem retired_askRetire {h : Nat} {i : HandleInfo} {s : State} (hi : handleInfo h s = some i) :
    Retired h i s (askRetire h s) := by
  have hask : askRetire h s = retireIfIdle h (setHandle h (some { i with retiring := true }) s) := by
    simp only [askRetire, hi]
  obtain ⟨hidle, hnamed⟩ := retireIfIdle_retiring (s := setHandle h (some { i with retiring := true }) s)
    (handleInfo_setHandle_same h (some { i with retiring := true }) s) rfl
  have hsame : handleNamed h (setHandle h (some { i with retiring := true }) s) ↔ handleNamed h s := Iff.rfl
  rw [hask]
  by_cases hn : handleNamed h s
  · rw [hnamed (hsame.mpr hn)]
    exact ⟨rfl, fun k hk => handleInfo_setHandle_other _ _ hk, fun h' => absurd hn h',
      fun _ => handleInfo_setHandle_same _ _ _⟩
  · rw [hidle (fun h' => hn (hsame.mp h'))]
    refine ⟨rfl, fun k hk => ?_, fun _ => handleInfo_setHandle_same _ _ _, fun h' => absurd h' hn⟩
    rw [handleInfo_setHandle_other _ _ hk, handleInfo_setHandle_other _ _ hk]

theorem Retired.jobs {h : Nat} {i : HandleInfo} {s t : State} (hr : Retired h i s t) : t.disp.jobs = s.disp.jobs :=
  (congrArg (fun s : State => s.disp.jobs) hr.rest :)

/-- A retirement changes nothing but the handles. -/
theorem Retired.onlyRegs {h : Nat} {i : HandleInfo} {s t : State} (hr : Retired h i s t) :
    onlyRegs [] { s with disp := t.disp } t := by
  have hregs : t.regs = s.regs := (congrArg State.regs hr.rest :)
  refine ⟨fun o _ => ?_, ?_⟩
  · simp only [getReg, hregs]
  · exact (congrArg (fun u : State => ({ u with disp := t.disp, regs := s.regs } : State)) hr.rest :)

/-- What a command that is taken to run leaves alone. -/
structure Taken (s u : State) : Prop where
  disp : { u.disp with cmds := s.disp.cmds } = s.disp
  clk : u.clk = s.clk
  mem : memKept s u

theorem taken_beginCmd (i : Issue) (op : Nat) (s : State) : Taken s (touchMaint i.via (beginCmd i op s)) := by
  have hbegin : Taken s (beginCmd i op s) := by
    obtain ⟨hrest, hdisp⟩ := beginCmd_frame i op s
    refine ⟨hdisp, (congrArg State.clk hrest :), ?_⟩
    unfold beginCmd
    have hcmds : ∀ v : State, memKept v { v with disp := { v.disp with cmds := s.disp.cmds ++ [⟨i, op, none, false⟩] } } :=
      fun v => ⟨fun sp _ => by cases sp <;> rfl, fun _ => rfl, rfl, rfl⟩
    split
    · dsimp only
      split
      · exact hcmds s
      · exact memKept_trans (memKept_setReg _ _ s (by decide)) (hcmds _)
    · exact memKept_refl s
  unfold touchMaint
  split
  · exact ⟨hbegin.disp, hbegin.clk, memKept_trans hbegin.mem ⟨fun sp _ => by cases sp <;> rfl, fun _ => rfl, rfl, rfl⟩⟩
  · exact hbegin

/-- RETIRE (R64, R326): what the command does to handles and jobs is what the retirement does. -/
theorem retire_runs {q : Issue} {h : BitVec 8} {i : HandleInfo} {s : State} (hm : mayIssue q Op.retire allowHPM s = true)
    (hi : handleInfo h.toNat s = some i) :
    ∃ t, exec (.retire q h) s = .next t ∧ (∀ k, k ≠ h.toNat → handleInfo k t = handleInfo k s) ∧
      t.disp.jobs = s.disp.jobs ∧ (¬handleNamed h.toNat s → handleInfo h.toNat t = none) ∧
      (handleNamed h.toNat s → handleInfo h.toNat t = some { i with retiring := true }) := by
  have htaken := (taken_beginCmd q Op.retire s).disp
  generalize hu : touchMaint q.via (beginCmd q Op.retire s) = u at htaken
  have hjobs : u.disp.jobs = s.disp.jobs := (congrArg Dispatcher.jobs htaken :)
  have hstanding : u.disp.standing = s.disp.standing := (congrArg Dispatcher.standing htaken :)
  have hinfo := handleInfo_congr (s := s) (t := u) (congrArg Dispatcher.handles htaken :)
  have hret := retired_askRetire ((hinfo h.toNat).trans hi)
  obtain ⟨-, hdone⟩ := completeCmd_frame q Op.retire 0 (word 0) [] (askRetire h.toNat u)
  generalize ht : completeCmd q Op.retire 0 (word 0) [] (askRetire h.toNat u) = t at hdone
  have hinfo' := handleInfo_congr (s := askRetire h.toNat u) (t := t) (congrArg Dispatcher.handles hdone :)
  have hrun : command q Op.retire allowHPM (fun s => answer q Op.retire 0 0 (askRetire h.toNat s)) s = t := by
    rw [command_runs _ _ _ _ _ hm, hu]
    exact ht
  refine ⟨t, congrArg Host.Outcome.next hrun, fun k hk => ?_, ?_, fun hn => ?_, fun hn => ?_⟩
  · rw [hinfo', hret.others k hk, hinfo]
  · exact (congrArg Dispatcher.jobs hdone :).trans (hret.jobs.trans hjobs)
  · rw [hinfo', hret.idle (fun hn' => hn ((handleNamed_congr hjobs hstanding _).mp hn'))]
  · rw [hinfo', hret.named ((handleNamed_congr hjobs hstanding _).mpr hn)]

/-! ### Judging an image (R489 to R491) -/

/-- The checks that rest on the device rest on its grade and column map alone (R28). -/
theorem judgeImage_congr {s t : State} (hf : t.fuses = s.fuses) (b : List Byte) : judgeImage b t = judgeImage b s := by
  have hcols : enabledCols t = enabledCols s := by simp only [enabledCols, fuse, hf]
  have hphys : ∀ c, physCol c t = physCol c s := fun c => by simp only [physCol, fuse, hf]
  have hlinks : ∀ r k, linksAt r k t = linksAt r k s := fun r k => by simp only [linksAt, hphys]
  have hfits : ∀ im r k, routeFits im r k t = routeFits im r k s := fun im r k => by simp only [routeFits, hlinks]
  have hroute : ∀ im r, routeCauses im t r = routeCauses im s r := fun im r => by simp only [routeCauses, hcols, hfits]
  simp only [judgeImage, stage6, hcols, funext (hroute _)]

theorem checkCycles_congr {s t : State} (hf : t.fuses = s.fuses) (im : Image) : checkCycles im t = checkCycles im s := by
  simp only [checkCycles, enabledCols, fuse, hf]

theorem rdBytes_congr {s t : State} (hm : memKept s t) (sp : Space) (a n : Nat) : rdBytes sp a n t = rdBytes sp a n s := by
  simp only [rdBytes, hm.1]

theorem streamErr_congr {s t : State} (hk : t.marks = s.marks) (flit : Option Nat) (a n : Nat) :
    streamErr flit a n t = streamErr flit a n s := by
  simp only [streamErr, eccIn, marksIn, hk]

theorem imageBytes_congr {s t : State} (hm : memKept s t) (a : Nat) : imageBytes a t = imageBytes a s := by
  simp only [imageBytes, imageLen, rdBytes_congr hm]

/-- The same bytes under the same error marks are judged in the same way. -/
theorem judgeStream_congr {s t : State} (hm : memKept s t) (hk : t.marks = s.marks) (flit : Option Nat) (a : Nat) :
    judgeStream flit a t = judgeStream flit a s := by
  simp only [judgeStream, streamErr_congr hk, imageBytes_congr hm, judgeImage_congr hm.2.2.2]

/-! ### A registration begins (R57, R62) -/

theorem now_le_registrationDone (a : Nat) (s : State) : now s ≤ registrationDone a s := by
  unfold registrationDone
  split
  · omega
  · omega
  · split <;> omega

/-- R491: how long the registration of an image takes that is accepted. -/
theorem registrationDone_accepted {a : Nat} {s q : State} (hm : memKept s q) (hk : q.marks = s.marks) {im : Image}
    (h : judge a s = .accepted im) :
    registrationDone a q = now q + streamRoot im.hdr.imageLen + 4 * checkCycles im s := by
  have hq : judge a q = .accepted im := (judgeStream_congr hm hk none a).trans h
  simp only [registrationDone, hq, checkCycles_congr hm.2.2.2]

theorem marks_usedBy (w : Writer) (s : State) : (usedBy w s).marks = s.marks := by
  cases w <;> rfl

/-- On an idle loader a registration begins at once. -/
theorem issueRegistration_idle {s : State} (hact : s.disp.active = none) (hloads : s.disp.loads = []) (a : Word64)
    (i : Option Issue) :
    let q : State := { s with disp := { s.disp with loads := [.registration a i] } }
    let t := issueRegistration a i s
    t.disp.active = some (.registration a i, now s, registrationDone a.toNat q) ∧ regBit Reg.FAB_LOAD_STAT 31 t = true ∧
      now s ≤ registrationDone a.toNat q ∧ memKept s q ∧ q.marks = s.marks ∧ memKept s t := by
  intro q t
  have hq : ({ s with disp := { s.disp with loads := s.disp.loads ++ [.registration a i] } } : State) = q := by
    rw [hloads]; rfl
  have ht : t = startNext q := congrArg startNext hq
  have hstart : startNext q = setRegFld Reg.FAB_LOAD_STAT 31 31 1
      { q with disp := { q.disp with loads := [], active := some (.registration a i, now q, registrationDone a.toNat q) } } := by
    have hactq : q.disp.active = none := hact
    have hloadsq : q.disp.loads = [.registration a i] := rfl
    simp only [startNext, hactq, hloadsq]
  have hmem := (loaderOnly_queue [.registration a i] s.disp.active s).memKept
  refine ⟨by rw [ht, hstart]; rfl, ?_, now_le_registrationDone a.toNat q, hmem, rfl, ?_⟩
  · rw [ht, hstart, regBit, setRegFld_eq, getReg_setReg_same]
    rw [bit_setFld_inside _ _ _ _ _ (by decide) le_rfl le_rfl]
    rfl
  · rw [ht]
    exact memKept_trans hmem (loaderOnly_startNext q).memKept

/-- R69, R57: a write of FAB_REG_CMD that takes effect, while BUSY is 0. -/
theorem regCmd_runs {w : Writer} {s : State} (hw : writesNow w s = true) (hb : regBit Reg.FAB_LOAD_STAT 31 s = false)
    (f : State → State) : regCmd w f s = f (usedBy w s) := by
  have hb' : regBit Reg.FAB_LOAD_STAT 31 (usedBy w s) = false := by rw [regBit, getReg_usedBy]; exact hb
  rw [regCmd, asWriter_now _ _ _ _ hw, hb']
  rfl

theorem exec_regCmdRegister {w : Writer} {s : State} (hw : writesNow w s = true) (hb : regBit Reg.FAB_LOAD_STAT 31 s = false) :
    exec (.regCmdRegister w) s =
      .next (issueRegistration (reg64 Reg.FAB_REG_ADDR_LO Reg.FAB_REG_ADDR_HI s) none (usedBy w s)) := by
  refine (congrArg Host.Outcome.next (regCmd_runs hw hb _)).trans ?_
  simp only [reg64, getReg_usedBy]

/-! ### What FAB_LOAD_STAT shows (R60) -/

/-- A field below BUSY of what is shown is that of the number that is shown. -/
theorem fld_shown (w : Word) (n : Nat) {hi : Nat} (lo : Nat) (hhi : hi < 31) :
    fld ((w &&& 0x80000000) ||| word n) hi lo = n / 2 ^ lo % 2 ^ (hi + 1 - lo) := by
  apply Nat.eq_of_testBit_eq
  intro i
  rw [fld_testBit, Nat.testBit_mod_two_pow, Nat.testBit_div_two_pow]
  by_cases hi' : i < hi + 1 - lo
  · have hbusy : (0x80000000 : Word).getLsbD (lo + i) = false := by
      have h : ∀ k, k < 31 → (0x80000000 : Word).getLsbD k = false := by decide
      exact h _ (by omega)
    have hlow : lo + i < 32 := by omega
    simp only [hi', decide_true, Bool.true_and, BitVec.getLsbD_or, BitVec.getLsbD_and, hbusy, Bool.and_false, Bool.false_or, word,
      BitVec.getLsbD_ofNat, hlow, Nat.add_comm i lo]
  · simp only [hi', decide_false, Bool.false_and]

section
variable {reason code handle : Nat} (load refused : Bool)
  (offset : Option Nat) (s : State)

/-- The fields of FAB_LOAD_STAT after a result is shown. -/
theorem regFld_showLoad {hi : Nat} (lo : Nat) (hhi : hi < 31) :
    regFld Reg.FAB_LOAD_STAT hi lo (showLoad load refused reason code handle offset s) =
      (load.toNat * 2 ^ 30 + refused.toNat * 2 ^ 29 + reason * 2 ^ 24 + code * 2 ^ 16 + handle) / 2 ^ lo % 2 ^ (hi + 1 - lo) := by
  rw [← fld_shown (getReg Reg.FAB_LOAD_STAT s) _ lo hhi]
  unfold showLoad
  cases offset with
  | none => exact congrArg (fld · hi lo) (getReg_setReg_same _ _ _)
  | some o =>
    exact congrArg (fld · hi lo) ((getReg_setReg_other _ _ (by decide)).trans (getReg_setReg_same _ _ _))

theorem reason_showLoad (hreason : reason < 32) (hcode : code < 256) (hhandle : handle < 64) :
    regFld Reg.FAB_LOAD_STAT 28 24 (showLoad load refused reason code handle offset s) = reason := by
  rw [regFld_showLoad _ _ _ _ _ (by decide)]
  omega

theorem code_showLoad (hcode : code < 256) (hhandle : handle < 64) :
    regFld Reg.FAB_LOAD_STAT 23 16 (showLoad load refused reason code handle offset s) = code := by
  rw [regFld_showLoad _ _ _ _ _ (by decide)]
  omega

theorem handle_showLoad (hhandle : handle < 64) :
    regFld Reg.FAB_LOAD_STAT 5 0 (showLoad load refused reason code handle offset s) = handle := by
  rw [regFld_showLoad _ _ _ _ _ (by decide)]
  omega

theorem refused_showLoad (hreason : reason < 32) (hcode : code < 256) (hhandle : handle < 64) :
    regFld Reg.FAB_LOAD_STAT 29 29 (showLoad load refused reason code handle offset s) = refused.toNat := by
  have hr := Bool.toNat_le refused
  rw [regFld_showLoad _ _ _ _ _ (by decide)]
  omega

theorem loadRefused_showLoad (hreason : reason < 32) (hcode : code < 256) (hhandle : handle < 64) :
    regFld Reg.FAB_LOAD_STAT 30 29 (showLoad load refused reason code handle offset s) = 2 * load.toNat + refused.toNat := by
  have hl := Bool.toNat_le load
  have hr := Bool.toNat_le refused
  rw [regFld_showLoad _ _ _ _ _ (by decide)]
  omega

end

/-- What a result that is shown leaves alone. -/
theorem showLoad_frame (load refused : Bool) (reason code handle : Nat) (offset : Option Nat) (s : State) :
    { showLoad load refused reason code handle offset s with regs := s.regs } = s ∧
      ∀ o, o ≠ Reg.FAB_LOAD_STAT → o ≠ Reg.FAB_LOAD_OFFSET →
        getReg o (showLoad load refused reason code handle offset s) = getReg o s := by
  unfold showLoad
  cases offset with
  | none => exact ⟨rfl, fun o h _ => getReg_setReg_other _ _ h⟩
  | some a => exact ⟨rfl, fun o h h' => (getReg_setReg_other _ _ h').trans (getReg_setReg_other _ _ h)⟩

/-! ### A registration ends (R57, R106) -/

theorem ErrsOnly.memKept {s t : State} (h : ErrsOnly s t) : Machine.memKept s t := by
  refine ⟨fun sp a => ?_, fun a => (congrArg (hostByte a) h.rest :), (congrArg State.flash h.rest :), h.fuses⟩
  have hpop : ∀ a, dramHas a t = dramHas a s := fun a => by
    simp only [dramHas, h.regs Reg.MEM_POP (by decide)]
  have hread : rdByte sp a (errsFrom s t) = rdByte sp a s := congrArg (rdByte sp a) h.rest
  rw [← hread]
  unfold rdByte
  rw [show dramHas (memKey sp a) (errsFrom s t) = dramHas (memKey sp a) t from (hpop _).symm]
  cases sp <;> rfl

/-- The handle that a registration assigns is one of those that are free. -/
theorem freeHandle_mem {s : State} (h : freeHandles s ≠ []) : ∃ k, freeHandle s = some k ∧ k ∈ freeHandles s := by
  unfold freeHandle
  cases hf : freeHandles s with
  | nil => exact absurd hf h
  | cons a r =>
    refine ⟨_, rfl, ?_⟩
    rw [List.getD_eq_getElem?_getD, List.getElem?_eq_getElem (by exact Nat.mod_lt _ (Nat.succ_pos _)), Option.getD_some]
    exact List.getElem_mem _

theorem mem_freeHandles {k : Nat} {s : State} : k ∈ freeHandles s ↔ k < 64 ∧ handleInfo k s = none := by
  simp only [freeHandles, List.mem_filter, List.mem_range, Option.isNone_iff_eq_none]

/-- The state in which the loader judges the image: the flits have been met and the words read. -/
def judgedAt (a : Nat) (end_ : Nat) (s : State) : State :=
  let u := flitsMet (runTo end_ s)
  readStream s.flits.bad a (judgedBytes s.flits.bad a u) u

/-- The image is judged at the end as it was judged before, and handles and flits stand as they were. -/
theorem judgedAt_frame (a end_ : Nat) (s : State) :
    let u := judgedAt a end_ s
    judgeStream s.flits.bad a u = judgeStream s.flits.bad a s ∧ u.disp = s.disp ∧ u.flits = ⟨0, none⟩ ∧
      now u = max (now s) end_ := by
  have hread := errsOnly_readStream s.flits.bad a (judgedBytes s.flits.bad a (flitsMet (runTo end_ s))) (flitsMet (runTo end_ s))
  have hmet : memKept s (flitsMet (runTo end_ s)) :=
    memKept_trans (memKept_runTo end_ s) (memKept_trans (t := { runTo end_ s with flits := ⟨0, none⟩ })
      ⟨fun sp _ => by cases sp <;> rfl, fun _ => rfl, rfl, rfl⟩ (memKept_setReg _ _ _ (by decide)))
  refine ⟨judgeStream_congr (memKept_trans hmet hread.memKept) hread.marks _ _, hread.disp, hread.flits, ?_⟩
  exact (congrArg Clock.root hread.clk :).trans (now_runTo end_ s)

/-- What the loader leaves when it has shown a result and ends its service. -/
theorem endService_showLoad (load refused : Bool) (reason code handle : Nat) (offset : Option Nat) (u : State) :
    let v := showLoad load refused reason code handle offset u
    let t := endService v
    t.flits = u.flits ∧ now t = now u ∧ t.disp.handles = u.disp.handles ∧
      ∀ hi lo, hi < 31 → regFld Reg.FAB_LOAD_STAT hi lo t = regFld Reg.FAB_LOAD_STAT hi lo v := by
  intro v t
  have hend := loaderOnly_endService v
  obtain ⟨hrest, -⟩ := showLoad_frame load refused reason code handle offset u
  exact ⟨hend.flits.trans (congrArg State.flits hrest :),
    (congrArg Clock.root hend.clk).trans (congrArg (fun s : State => s.clk.root) hrest :),
    hend.handles.trans (congrArg (fun s : State => s.disp.handles) hrest :), hend.shown⟩

section
variable {a : Word64} {b d : Nat} {s : State} (hact : s.disp.active = some (.registration a none, b, d))
include hact

/-- R106: an uncorrectable word ends the registration when it has streamed. -/
theorem registrationComplete_ecc {o : Nat} (hj : judgeStream s.flits.bad a.toNat s = .ecc o) :
    registrationComplete s =
      endService (showLoad false true 0 Code.eccUncorr 0 (some o) (judgedAt a.toNat (b + streamRoot (o + 8)) s)) := by
  have hj' := (judgedAt_frame a.toNat (b + streamRoot (o + 8)) s).1.trans hj
  unfold judgedAt at hj' ⊢
  simp only [registrationComplete, hact, hj, finishRegistration, hj', replyRegister]

/-- R60: an image that is refused. -/
theorem registrationComplete_refused {n : Nat} {c : Cause} (hj : judgeStream s.flits.bad a.toNat s = .refused n c) :
    registrationComplete s =
      endService (showLoad false true c.reason c.code 0 (some c.offset) (judgedAt a.toNat d s)) := by
  have hj' := (judgedAt_frame a.toNat d s).1.trans hj
  unfold judgedAt at hj' ⊢
  simp only [registrationComplete, hact, hj, finishRegistration, hj', replyRegister]

/-- R57: an image that is accepted while a handle is free. -/
theorem registrationComplete_accepted {im : Image} (hj : judgeStream s.flits.bad a.toNat s = .accepted im)
    (hfree : freeHandles s ≠ []) :
    ∃ h i v, h < 64 ∧ handleInfo h s = none ∧ i.hdr = im.hdr ∧ i.addr = a ∧ v.flits = ⟨0, none⟩ ∧ now v = max (now s) d ∧
      registrationComplete s = endService (showLoad false false 0 0 h none (setHandle h (some i) v)) := by
  obtain ⟨hsame, hdisp, hflits, hnow⟩ := judgedAt_frame a.toNat d s
  have hinfo := handleInfo_congr (congrArg Dispatcher.handles hdisp)
  obtain ⟨h, hh, hmem⟩ := freeHandle_mem (s := judgedAt a.toNat d s) (by simpa only [freeHandles, hinfo] using hfree)
  obtain ⟨hlt, hnone⟩ := mem_freeHandles.mp hmem
  refine ⟨h, ⟨im.hdr, a, im.bounds, (im.states.map (·.len)).sum, im.states, false⟩, useFree (judgedAt a.toNat d s), hlt, (hinfo h).symm.trans hnone, rfl, rfl, hflits, hnow, ?_⟩
  have hj' := hsame.trans hj
  unfold judgedAt at hj' hh ⊢
  simp only [registrationComplete, hact, hj, finishRegistration, hj', hh, replyRegister]

/-- R65: an image that is accepted while no handle is free. -/
theorem registrationComplete_full {im : Image} (hj : judgeStream s.flits.bad a.toNat s = .accepted im)
    (hfull : freeHandles s = []) :
    registrationComplete s = endService (showLoad false true 17 0 0 (some noOffset) (judgedAt a.toNat d s)) := by
  obtain ⟨hsame, hdisp, -, -⟩ := judgedAt_frame a.toNat d s
  have hinfo := handleInfo_congr (congrArg Dispatcher.handles hdisp)
  have hfree : freeHandle (judgedAt a.toNat d s) = none := by
    have hnone : freeHandles (judgedAt a.toNat d s) = [] := by simpa only [freeHandles, hinfo] using hfull
    simp only [freeHandle, hnone]
  have hj' := hsame.trans hj
  unfold judgedAt at hj' hfree ⊢
  simp only [registrationComplete, hact, hj, finishRegistration, hj', hfree, replyRegister]

end

/-- Settles O24: a retirement asks and then frees what nothing names; a registration is judged at its begin for its time, and again,
over the same bytes, at its end. -/
theorem handlesComeAndGo : Obligations.HandlesComeAndGo := by
  unfold Obligations.HandlesComeAndGo
  refine ⟨⟨?retireWrite, fun q h i s hm hi => retire_runs hm hi, ?idle⟩, ?registerWrite, ?register, ?complete⟩
  case retireWrite =>
    intro w h i s hw hb hi
    have hi' : handleInfo h.toNat (usedBy w s) = some i := by cases w <;> exact hi
    have hnamed : handleNamed h.toNat (usedBy w s) ↔ handleNamed h.toNat s := by cases w <;> exact Iff.rfl
    have hinfo : ∀ k, handleInfo k (usedBy w s) = handleInfo k s := by cases w <;> exact fun _ => rfl
    have hret := retired_askRetire hi'
    exact ⟨_, congrArg Host.Outcome.next (regCmd_runs hw hb _), hret.onlyRegs,
      fun k hk => (hret.others k hk).trans (hinfo k), fun hn => hret.idle (fun hn' => hn (hnamed.mp hn')),
      fun hn => hret.named (hnamed.mpr hn)⟩
  case idle =>
    intro h i s hi hr hn
    refine ⟨_, rfl, ?_⟩
    rw [(retireIfIdle_retiring hi hr).1 hn]
    exact ⟨handleInfo_setHandle_same _ _ _, fun k hk => handleInfo_setHandle_other _ _ hk, fun _ _ => rfl, rfl⟩
  case registerWrite =>
    intro w s hw hb hact hloads a
    have hrun : exec (.regCmdRegister w) s = .next (issueRegistration a none (usedBy w s)) := exec_regCmdRegister hw hb
    clear_value a
    have hact' : (usedBy w s).disp.active = none := by cases w <;> exact hact
    have hloads' : (usedBy w s).disp.loads = [] := by cases w <;> exact hloads
    obtain ⟨hactive, hbusy, hle, hq, hmarks, hkept⟩ := issueRegistration_idle hact' hloads' a none
    have hused := memKept_trans (memKept_usedBy w s) hq
    have husedMarks := hmarks.trans (marks_usedBy w s)
    rw [now_usedBy] at hactive
    refine ⟨_, _, hrun, hactive, ?_, fun im him => ?_, hbusy, memKept_trans (memKept_usedBy w s) hkept⟩
    · exact (now_usedBy w s).symm.le.trans hle
    · exact (registrationDone_accepted hused husedMarks him).trans (congrArg (· + _ + _) (now_usedBy w s))
  case register =>
    intro i a s hm hact hloads
    have htaken := taken_beginCmd i Op.register s
    have hrun := command_runs i Op.register allowHPM (issueRegistration a (some i)) s hm
    generalize touchMaint i.via (beginCmd i Op.register s) = u at htaken hrun
    obtain ⟨hactive, hbusy, hle, -, -, hkept⟩ := issueRegistration_idle (s := u)
      ((congrArg Dispatcher.active htaken.disp :).trans hact) ((congrArg Dispatcher.loads htaken.disp :).trans hloads) a (some i)
    have hnow : now u = now s := (congrArg Clock.root htaken.clk :)
    rw [hnow] at hactive
    exact ⟨_, _, congrArg Host.Outcome.next hrun, hactive,
      hnow.symm.le.trans hle, hbusy, memKept_trans htaken.mem hkept⟩
  case complete =>
    intro a b d s hact judged
    have hjudged : judgeStream s.flits.bad a.toNat s = judged := rfl
    clear_value judged
    refine ⟨_, rfl, ?_⟩
    cases judged with
    | ecc o =>
      obtain ⟨-, hdisp, hflits, hnow⟩ := judgedAt_frame a.toNat (b + streamRoot (o + 8)) s
      obtain ⟨hf, hn, hh, hshown⟩ := endService_showLoad false true 0 Code.eccUncorr 0 (some o)
        (judgedAt a.toNat (b + streamRoot (o + 8)) s)
      rw [registrationComplete_ecc hact hjudged]
      refine ⟨hf.trans hflits, fun h => absurd rfl (h o), nofun, nofun, fun o' ho => ?_⟩
      cases ho
      refine ⟨hh.trans (congrArg Dispatcher.handles hdisp), ?_, hn.trans hnow⟩
      exact (hshown _ _ (by decide)).trans (code_showLoad _ _ _ _ (by decide) (by decide))
    | refused n c =>
      obtain ⟨-, hdisp, hflits, hnow⟩ := judgedAt_frame a.toNat d s
      obtain ⟨hf, hn, hh, hshown⟩ := endService_showLoad false true c.reason c.code 0 (some c.offset) (judgedAt a.toNat d s)
      rw [registrationComplete_refused hact hjudged]
      refine ⟨hf.trans hflits, fun _ => hn.trans hnow, nofun, fun n' c' hc hreason hcode => ?_, nofun⟩
      cases hc
      exact ⟨hh.trans (congrArg Dispatcher.handles hdisp),
        (hshown _ _ (by decide)).trans (refused_showLoad _ _ _ _ hreason hcode (by decide)),
        (hshown _ _ (by decide)).trans (reason_showLoad _ _ _ _ hreason hcode (by decide)),
        (hshown _ _ (by decide)).trans (code_showLoad _ _ _ _ hcode (by decide))⟩
    | accepted im =>
      by_cases hfree : freeHandles s = []
      · obtain ⟨-, -, hflits, hnow⟩ := judgedAt_frame a.toNat d s
        obtain ⟨hf, hn, -, -⟩ := endService_showLoad false true 17 0 0 (some noOffset) (judgedAt a.toNat d s)
        rw [registrationComplete_full hact hjudged hfree]
        exact ⟨hf.trans hflits, fun _ => hn.trans hnow, fun _ _ h => absurd hfree h, nofun, nofun⟩
      · obtain ⟨h, i, v, hlt, hnone, hhdr, haddr, hflits, hnow, hend⟩ := registrationComplete_accepted hact hjudged hfree
        obtain ⟨hf, hn, hh, hshown⟩ := endService_showLoad false false 0 0 h none (setHandle h (some i) v)
        rw [hend]
        refine ⟨hf.trans hflits, fun _ => hn.trans hnow, fun im' him _ => ?_, nofun, nofun⟩
        cases him
        refine ⟨h, i, hnone, hlt, ?_, hhdr, haddr, ?_, ?_⟩
        · exact (handleInfo_congr hh h).trans (handleInfo_setHandle_same h _ v)
        · rw [hshown _ _ (by decide), regFld_showLoad _ _ _ _ _ (by decide)]
          simp only [Bool.toNat_false]
          omega
        · exact (hshown _ _ (by decide)).trans (handle_showLoad _ _ _ _ hlt)

end Sys2Proof.Machine
end

section
/-! Loads: the stream of an image, the restore of its state, the first cycle of a run, and the settlement of O25. -/

namespace Sys2Proof.Machine

open Sys2Proof.Config

/-! ### The fabric clock (R12) -/

theorem fcRoot_pos (s : State) : 0 < fcRoot s := by
  unfold fcRoot
  split <;> decide

theorem fcRoot_congr {s t : State} (h : getReg Reg.FAB_OP_STAT t = getReg Reg.FAB_OP_STAT s) : fcRoot t = fcRoot s := by
  simp only [fcRoot, regFld, h]

theorem fabricEdge_congr {s t : State} (h : getReg Reg.FAB_OP_STAT t = getReg Reg.FAB_OP_STAT s) (n : Nat) :
    fabricEdge n t = fabricEdge n s := by
  simp only [fabricEdge, fcRoot_congr h]

/-- The next fabric cycle begins less than one fabric cycle after an instant. -/
theorem fabricEdge_bounds (n : Nat) (s : State) :
    n ≤ fabricEdge n s ∧ fabricEdge n s < n + fcRoot s ∧ fabricEdge n s % fcRoot s = 0 := by
  have hpos := fcRoot_pos s
  refine ⟨?_, ?_, Nat.mul_mod_left _ _⟩
  · have := Nat.lt_div_mul_add (a := n + fcRoot s - 1) hpos
    simp only [fabricEdge, divUp]
    omega
  · have := Nat.div_mul_le_self (n + fcRoot s - 1) (fcRoot s)
    simp only [fabricEdge, divUp]
    omega

/-! ### The stream of an image (R58) -/

/-- The same bytes under the same error marks stream in the same way. -/
theorem streamWith_congr {s t : State} (hm : memKept s t) (hk : t.marks = s.marks) (flit : Option Nat) (i : HandleInfo) :
    streamWith flit i t = streamWith flit i s := by
  simp only [streamWith, streamErr_congr hk, rdBytes_congr hm]

theorem memKept_flitsMet (s : State) : memKept s (flitsMet s) :=
  memKept_trans (t := { s with flits := ⟨0, none⟩ }) ⟨fun sp _ => by cases sp <;> rfl, fun _ => rfl, rfl, rfl⟩
    (memKept_setReg _ _ _ (by decide))

/-- A cause that is reported is one of those that were found. -/
theorem firstCause_mem {cs : List Cause} {c : Cause} (h : firstCause cs = some c) : c ∈ cs := by
  have hall : ∀ d, firstCause cs = some d → d ∈ cs := by
    unfold firstCause
    refine List.foldlRecOn cs _ (motive := fun b => ∀ d, b = some d → d ∈ cs) nofun fun b hb a ha d hd => ?_
    cases b with
    | none => cases hd; exact ha
    | some x =>
      dsimp only at hd
      split at hd
      · cases hd; exact ha
      · exact hb d hd
  exact hall c h

theorem mem_need {ok : Bool} {c d : Cause} (h : d ∈ need ok c) : d = c := by
  cases ok with
  | true => cases h
  | false => exact List.mem_singleton.mp h

/-- A load is refused for a reason of its own and no code (R59, R61). -/
theorem streamWith_refused {flit : Option Nat} {i : HandleInfo} {s : State} {c : Cause} {n : Nat}
    (h : streamWith flit i s = .refused c n) : c.reason < 32 ∧ c.code = 0 := by
  have hneed : ∀ {p q : Bool} {x y : Cause}, firstCause (need p x ++ need q y) = some c → c = x ∨ c = y := fun h' =>
    (List.mem_append.mp (firstCause_mem h')).imp mem_need mem_need
  unfold streamWith at h
  dsimp only at h
  split at h
  · cases h
  · split at h
    · cases h
      rcases hneed ‹_› with rfl | rfl <;> exact ⟨Nat.lt_of_sub_eq_succ rfl, rfl⟩
    · split at h
      · cases h
      · split at h
        · cases h
          rcases hneed ‹_› with rfl | rfl <;> exact ⟨Nat.lt_of_sub_eq_succ rfl, rfl⟩
        · cases h

/-! ### A load that is refused (R59) -/

/-- What a release leaves alone, whether the job held its partition or not. -/
theorem releasePartition_frame (j : Job) (s : State) :
    (releasePartition j s).clk = s.clk ∧ getReg Reg.FAB_LOAD_STAT (releasePartition j s) = getReg Reg.FAB_LOAD_STAT s ∧
      (j.held = true → ∀ c ∈ jobCols j, colHeld c (releasePartition j s) = false) := by
  cases hj : j.held with
  | false => exact ⟨by rw [releasePartition, hj]; rfl, by rw [releasePartition, hj]; rfl, nofun⟩
  | true =>
    have hr := released j s hj
    have howner : ∀ c : Fin 12, Reg.FAB_LOAD_STAT ≠ Reg.FAB_COLn_OWNER c := by decide
    exact ⟨hr.clk, hr.regs _ rfl (by decide) (fun c hc => howner ⟨c, hc⟩), fun _ => hr.free⟩

/-- What a load that is refused for a cause leaves. -/
theorem refuseLoad_frame (j : Job) {c : Cause} (s : State) (hreason : c.reason < 32) (hcode : c.code < 256) :
    let t := refuseLoad j c s
    now t = now s ∧ (∀ x ∈ t.disp.jobs, x.uid ≠ j.uid) ∧ (j.held = true → ∀ k ∈ jobCols j, colHeld k t = false) ∧
      regFld Reg.FAB_LOAD_STAT 30 29 t = 3 ∧ regFld Reg.FAB_LOAD_STAT 28 24 t = c.reason := by
  intro t
  let u := showLoad true true c.reason c.code j.desc.handle (some c.offset) s
  let v := releasePartition j u
  have hleft : JobLeft j.uid (dropLoad j.uid v) t :=
    jobLeft_refuseJob { j with held := false, endTick := u.clk.tick } (codeBit c.code) c.reason (dropLoad j.uid v)
  have hdrop : LoaderOnly v (dropLoad j.uid v) := loaderOnly_dropLoad j.uid v
  obtain ⟨hclk, hstat, hfree⟩ := releasePartition_frame j u
  have hshow : u.clk = s.clk := (congrArg State.clk (showLoad_frame true true c.reason c.code j.desc.handle (some c.offset) s).1 :)
  have hshown : ∀ hi lo, hi < 31 → regFld Reg.FAB_LOAD_STAT hi lo t = regFld Reg.FAB_LOAD_STAT hi lo u := fun hi lo hhi => by
    rw [regFld, hleft.regs _ rfl]
    exact (hdrop.shown hi lo hhi).trans (congrArg (fld · hi lo) hstat)
  refine ⟨congrArg Clock.root (hleft.clk.trans (hdrop.clk.trans (hclk.trans hshow))), hleft.gone, fun hh k hk => ?_, ?_, ?_⟩
  · have hk12 : k < 12 := by simpa using (List.mem_filter.mp hk).2
    have howner : ∀ c : Fin 12, fabricReg (Reg.FAB_COLn_OWNER c) = true ∧ Reg.FAB_COLn_OWNER c ≠ Reg.FAB_LOAD_STAT := by decide
    obtain ⟨hfab, hne⟩ := howner ⟨k, hk12⟩
    rw [← hfree hh k hk]
    simp only [colHeld, regBit, hleft.regs _ hfab, hdrop.regs _ hne, v]
  · rw [hshown _ _ (by decide), loadRefused_showLoad _ _ _ _ hreason hcode j.desc.handle.isLt]
    rfl
  · rw [hshown _ _ (by decide), reason_showLoad _ _ _ _ hreason hcode j.desc.handle.isLt]

/-! ### A load that succeeds (R55, R66) -/

theorem restoreBase_of_no_marks (j : Job) {s : State} (h : s.marks = []) :
    ∃ b, restoreBase j s = (some b, s) := by
  unfold restoreBase
  split
  · rw [readMem_of_no_marks _ _ _ h]
    exact ⟨_, rfl⟩
  · exact ⟨_, rfl⟩

theorem stateEcc_of_no_marks (base : Nat) (rs : List StateRec) (n : Nat) {s : State} (h : s.marks = []) :
    stateEcc base rs n s = none := by
  induction rs generalizing n with
  | nil => rfl
  | cons r rs ih => simp [stateEcc, marksIn, h, ih]

/-- Without error marks and with good flits the whole state is restored. -/
theorem restoreState_of_no_marks (base col : Nat) (rs : List StateRec) (n : Nat) {s : State} (h : s.marks = []) :
    ∃ t, restoreState base col none rs n s = (true, t) ∧ MemOnly s t := by
  induction rs generalizing n s with
  | nil => exact ⟨s, rfl, .refl s⟩
  | cons r rs ih =>
    have hwrite := (writesOnly_bankWrite (cycleBefore (now s) s) Port.copy (8 * col + r.tile) r.bank r.base
      (rdBytes .dram (base + r.save) r.len s) s).memOnly
    obtain ⟨t, ht, hmem⟩ := ih (n + r.len) (hwrite.marks h)
    refine ⟨t, ?_, hwrite.trans hmem⟩
    rw [← ht]
    simp only [restoreState, Option.filter_none, Option.elim_none, readMem_of_no_marks _ _ _ h, Option.isSome_none,
      Bool.false_eq_true, if_false]

/-- A load over memory without error marks, with good flits: the job of a schedule of some length runs from the next fabric
cycle on. -/
theorem finishLoad_good {j : Job} {i : HandleInfo} {b : List Byte} {s : State} (hstream : streamWith none i s = .good b)
    (hm : s.marks = []) (hring : isRingJob j = false) (hlen : (parseImage b).hdr.schedLen ≠ 0) (began done : Nat) :
    ∃ v, MemOnly (runTo done s) v ∧ finishLoad none j i began done s = endService (setJob { j with
      stage := .running, run := some (freshRun (parseImage b) (fabricEdge (now v) (loadShown j began v))) } (loadShown j began v)) := by
  obtain ⟨base, hbase⟩ := restoreBase_of_no_marks j hm
  obtain ⟨v, hv, hmem⟩ := restoreState_of_no_marks base j.desc.baseCol (ownStates (parseImage b) j.width) i.hdr.imageLen
    (s := runTo done s) hm
  refine ⟨v, hmem, ?_⟩
  simp only [finishLoad, hstream, hlen, if_false, readMem_of_no_marks _ _ _ hm, restoreAndBegin, hbase,
    stateEcc_of_no_marks _ _ _ hm, Option.filter_none, Option.toList_none, List.map_nil, List.append_nil, List.min?_nil,
    Option.elim_none, hv, beginRun, hring, Bool.false_and, Bool.false_eq_true]
  rfl

/-- What a load that succeeds shows leaves alone. -/
theorem loadShown_frame (j : Job) (began : Nat) (s : State) :
    { loadShown j began s with regs := s.regs } = s ∧
      ∀ o, o ≠ Reg.FAB_LOAD_STAT → o ≠ Reg.FAB_LOAD_OFFSET → o ≠ Reg.FAB_LOAD_TIME →
        getReg o (loadShown j began s) = getReg o s := by
  obtain ⟨hrest, hregs⟩ := showLoad_frame true false 0 0 j.desc.handle none s
  exact ⟨hrest, fun o h1 h2 h3 => (getReg_setReg_other _ _ h3).trans (hregs o h1 h2)⟩

/-- Settles O25: the load's span is fixed at its begin; at its end the stream is judged over the bytes that stand. -/
theorem loadsRun : Obligations.LoadsRun := by
  unfold Obligations.LoadsRun
  refine ⟨?start, fun uid began done j i s hact hj hi => ⟨?good, ?refused⟩⟩
  case start =>
    intro uid r j i s hact hloads hj hi
    have hrun : loadStart s = setRegFld Reg.FAB_LOAD_STAT 31 31 1 { s with disp := { s.disp with
        loads := r, active := some (.load uid, now s, now s + loadSpan i) } } := by
      have hfound : (getJob uid s).bind (fun j => handleInfo j.desc.handle s) = some i := by rw [hj, Option.bind_some, hi]
      unfold loadStart
      rw [hact, hloads]
      dsimp only
      split
      · exact absurd (‹_ = none›.symm.trans hfound) (by simp)
      · cases ‹_ = some _›.symm.trans hfound
        rfl
    refine ⟨_, congrArg Host.Outcome.next hrun, rfl, ?_, ?_, fun o ho => ?_, rfl⟩
    · rw [regBit, setRegFld_eq, getReg_setReg_same, bit_setFld_inside _ _ _ _ _ (by decide) le_rfl le_rfl]
      rfl
    · rfl
    · exact getReg_setReg_other _ _ (by simpa using ho)
  case good =>
    intro b hb hm hflit hring hlen
    have hstream : streamWith none i (flitsMet s) = .good b :=
      (streamWith_congr (memKept_flitsMet s) rfl none i).trans hb
    obtain ⟨v, hmem, hend⟩ := finishLoad_good hstream (s := flitsMet s) hm hring hlen began done
    have hrun : loadComplete s = finishLoad none j i began done (flitsMet s) := by
      simp only [loadComplete, hact, hj, hi, hflit, Option.elim_some]
    let u := loadShown j began v
    obtain ⟨hshow, hregs⟩ := loadShown_frame j began v
    have hdisp : u.disp = s.disp := (congrArg State.disp hshow :).trans hmem.disp
    have hnow : now u = max (now s) done :=
      (congrArg now hshow :).trans (hmem.now.trans (now_runTo done (flitsMet s)))
    have hfc : fcRoot u = fcRoot s := by
      refine fcRoot_congr (((hregs _ (by decide) (by decide) (by decide)).trans (hmem.regs _ (by decide))).trans ?_)
      exact getReg_setReg_other _ _ (by decide)
    have hedge := fabricEdge_bounds (now v) u
    have hv : now v = now u := (congrArg now hshow :).symm
    rw [hv, hfc] at hedge
    obtain ⟨hle, hlt, hmod⟩ := hedge
    let run := freshRun (parseImage b) (fabricEdge (now v) u)
    let y : Job := { j with stage := .running, run := some run }
    have hcycle : run.cycle0 = fabricEdge (now u) u := congrArg (fabricEdge · u) hv
    have hservice := loaderOnly_endService (setJob y u)
    have htnow : now (endService _) = now u := congrArg Clock.root hservice.clk
    have hmemj : j ∈ u.disp.jobs := by rw [hdisp]; exact (getJob_mem hj).1
    refine ⟨_, y, run, congrArg Host.Outcome.next (hrun.trans hend), ?_, (getJob_mem hj).2, rfl, rfl, rfl, htnow.trans hnow, ?_, ?_, ?_⟩
    · exact hservice.jobs ▸ mem_setJob_self hmemj rfl
    · rw [htnow, hcycle]; exact hle
    · rw [htnow, hcycle]; exact hlt
    · rw [hcycle]; exact hmod
  case refused =>
    intro c n hc
    obtain ⟨hreason, hcode⟩ := streamWith_refused hc
    have hstream : streamWith s.flits.bad i (flitsMet s) = .refused c n :=
      (streamWith_congr (memKept_flitsMet s) rfl _ i).trans hc
    let u := runTo (began + streamRoot n) (flitsMet s)
    have hread := errsOnly_readStream s.flits.bad i.addr.toNat n u
    generalize hw : readStream s.flits.bad i.addr.toNat n u = w at hread
    have hrun : loadComplete s = refuseLoad j c (runTo (fabricEdge (now w) w) w) := by
      simp only [loadComplete, hact, hj, hi, Option.elim_some, finishLoad, hstream]
      rw [← hw]
    have hnow : now w = max (now s) (began + streamRoot n) :=
      (congrArg Clock.root hread.clk :).trans (now_runTo _ (flitsMet s))
    have hedge : fabricEdge (now w) w = fabricEdge (now w) s :=
      fabricEdge_congr ((hread.regs _ (by decide)).trans (getReg_setReg_other _ _ (by decide))) _
    obtain ⟨htnow, hgone, hfree, hflags, hwhy⟩ := refuseLoad_frame j (runTo (fabricEdge (now w) w) w) hreason
      (hcode ▸ Nat.zero_lt_succ 255)
    refine ⟨_, congrArg Host.Outcome.next hrun, (getJob_mem hj).2 ▸ hgone, hfree, hflags, hwhy, ?_⟩
    rw [htnow, now_runTo, hedge, max_eq_right (fabricEdge_bounds _ s).1, hnow]

end Sys2Proof.Machine
end

section
/-! The save of a job's state and the release of its partition. -/

namespace Sys2Proof.Machine

open Sys2Proof.Config

/-! ### Bytes of DRAM that are written -/

theorem rdByte_wrByte_apart {x a : Nat} (h : memKey .dram x ≠ memKey .dram a) (v : Byte) (s : State) :
    rdByte .dram x (wrByte .dram a v s) = rdByte .dram x s := by
  unfold wrByte
  split
  · rfl
  · simp only [rdByte, dramHas_setMem, memDefault_setMem, memOf_setMem, ledgerBytes_setMem, if_true, tget_tset_other _ _ _ h]

/-- A run of bytes that DRAM stores changes no byte whose key it does not meet. -/
theorem rdByte_wrRaw_apart {x : Nat} (b : Nat) (bs : List Byte) (s : State)
    (h : ∀ i < bs.length, memKey .dram x ≠ memKey .dram (b + i)) : rdByte .dram x (wrRaw .dram b bs s) = rdByte .dram x s := by
  induction bs generalizing b s with
  | nil => rfl
  | cons v r ih =>
    refine (ih (b + 1) (wrByte .dram b v s) fun i hi => ?_).trans (rdByte_wrByte_apart (h 0 (Nat.succ_pos _)) v s)
    have := h (i + 1) (Nat.succ_lt_succ hi)
    rwa [show b + (i + 1) = b + 1 + i by omega] at this

/-- What has been written to DRAM within its capacity and outside the ledger reads back. -/
theorem rdByte_wrRaw_same {b : Nat} {bs : List Byte} {s : State} (hlen : bs.length ≤ 2 ^ 64) {i : Nat} (hi : i < bs.length)
    (hhas : dramHas (memKey .dram (b + i)) s = true) (hled : inLedger (memKey .dram (b + i)) = false) :
    rdByte .dram (b + i) (wrRaw .dram b bs s) = bs[i] := by
  induction bs generalizing b s i with
  | nil => cases hi
  | cons v r ih =>
    have hstep : wrRaw .dram b (v :: r) s = wrRaw .dram (b + 1) r (wrByte .dram b v s) := rfl
    simp only [List.length_cons] at hlen hi
    rw [hstep]
    cases i with
    | zero =>
      simp only [Nat.add_zero] at hhas hled ⊢
      rw [rdByte_wrRaw_apart]
      · rw [rdByte_wrByte _ _ _ _ _ _ (fun _ => ⟨hhas, hled⟩)]
        exact if_pos ⟨rfl, rfl⟩
      · intro k hk
        simp only [memKey]
        omega
    | succ i =>
      have hkey : b + (i + 1) = b + 1 + i := by omega
      rw [hkey] at hhas hled ⊢
      refine ih (by omega) (by omega) ?_ hled
      rw [← hhas]
      simp only [dramHas, (writesOnly_wrByte .dram b v s).getReg]

/-- A byte of DRAM outside the ledger rests on what is stored, the population that is trained and the losses. -/
theorem rdByte_dram_congr {s t : State} (hd : t.dram = s.dram) (hl : t.losses = s.losses)
    (hp : getReg Reg.MEM_POP t = getReg Reg.MEM_POP s) {a : Nat} (hled : inLedger (memKey .dram a) = false) :
    rdByte .dram a t = rdByte .dram a s := by
  have hhas : dramHas (memKey .dram a) t = dramHas (memKey .dram a) s := by simp only [dramHas, hp]
  have hdef : ∀ k, memDefault .dram t k = memDefault .dram s k := fun k => by simp only [memDefault, hl]
  simp only [rdByte, hhas, hled, memOf, hd, funext hdef, Bool.false_eq_true, and_false, if_false]

/-! ### The save (R37, R55) -/

/-- Without error marks and with good flits every record is saved. -/
theorem saveState_of_no_marks (base col : Nat) (rs : List StateRec) (n : Nat) {s : State} (h : s.marks = []) :
    ∃ t, saveState base col none rs n s = (none, t) ∧ MemOnly s t := by
  induction rs generalizing n s with
  | nil => exact ⟨s, rfl, .refl s⟩
  | cons r rs ih =>
    obtain ⟨hbad, hstate⟩ := bankRead_of_no_marks (8 * col + r.tile) r.bank r.base r.len h
    have hwrite := (writesOnly_wrBytes .dram (base + r.save) (bankRead (8 * col + r.tile) r.bank r.base r.len s).1.bytes s).memOnly
    obtain ⟨t, ht, hmem⟩ := ih (n + r.len) (hwrite.marks h)
    refine ⟨t, ?_, hwrite.trans hmem⟩
    rw [← ht]
    simp only [saveState, Option.filter_none, Option.elim_none, hbad, hstate]

theorem savingAt_mem {col : Nat} {j : Job} {s : State} (h : savingAt col s = some j) :
    j ∈ s.disp.jobs ∧ j.stage = .saving ∧ j.desc.baseCol = col := by
  have hmem : j ∈ s.disp.jobs.filter (fun j => j.stage = .saving && j.desc.baseCol = col) := by
    rw [savingAt, Option.or_eq_some_iff] at h
    rcases h with h | ⟨-, h⟩
    · exact List.mem_of_find?_eq_some h
    · exact List.mem_of_head? h
  simpa using hmem

section
variable {col : Nat} {j : Job} {r : Run} {s : State} (hm : s.marks = []) (hf : s.flits.bad = none)
  (hsave : savingAt col s = some j) (hh : j.held = true) (hr : j.run = some r)
include hm hf hsave hh hr

/-- R37: a good save writes the records and releases the partition at its instant. -/
theorem partitionRelease_eq :
    ∃ v, saveState (saveBase j) col none (savedStates j r) 0 (flitsMet s) = (none, v) ∧ MemOnly s v ∧
      partitionRelease col s = releasePartition j (runTo r.saveAt v) := by
  obtain ⟨v, hv, hmem⟩ := saveState_of_no_marks (saveBase j) col (savedStates j r) 0 (s := flitsMet s) hm
  refine ⟨v, hv, (memOnly_flitsMet s).trans hmem, ?_⟩
  have hcol := (savingAt_mem hsave).2.2
  rw [← hcol] at hv
  simp only [partitionRelease, hsave, hh, if_true, saveAndRelease, hr, hf, hv]

end

/-- The flits that a save meets change nothing that a bank read returns. -/
theorem bankRead_flitsMet (tile bank addr n : Nat) (s : State) :
    (bankRead tile bank addr n (flitsMet s)).1.bytes = (bankRead tile bank addr n s).1.bytes := by
  have hcycle : fabricCycle (now (flitsMet s)) (flitsMet s) = fabricCycle (now s) s :=
    congrArg (now s / ·) (memOnly_flitsMet s).fcRoot
  have hbyte : ∀ m k, bankByteAt m k (flitsMet s) = bankByteAt m k s := fun m k => by
    have hnote : bankNote k (flitsMet s) = bankNote k s := rfl
    unfold bankByteAt
    rw [hnote, (memKept_flitsMet s).1]
  simp only [bankRead_bytes, hcycle, hbyte]

/-- The bytes of a single record stand in DRAM after its save. -/
theorem rdByte_saveState {base col : Nat} {sr : StateRec} {s v : State} (hm : s.marks = [])
    (hv : saveState base col none [sr] 0 (flitsMet s) = (none, v)) (hlen : sr.len ≤ bankSize sr.bank) {i : Nat} (hi : i < sr.len)
    (hhas : dramHas ((base + sr.save + i) % 2 ^ 64) s = true) (hled : inLedger ((base + sr.save + i) % 2 ^ 64) = false) :
    rdByte .dram (base + sr.save + i) v = (bankRead (8 * col + sr.tile) sr.bank sr.base sr.len s).1.bytes.getD i 0 := by
  let bytes := (bankRead (8 * col + sr.tile) sr.bank sr.base sr.len (flitsMet s)).1.bytes
  have hlength : bytes.length = sr.len := bankRead_length _ _ _ _ _
  have hbytes : bytes = (bankRead (8 * col + sr.tile) sr.bank sr.base sr.len s).1.bytes := bankRead_flitsMet _ _ _ _ s
  obtain ⟨hbad, hstate⟩ := bankRead_of_no_marks (8 * col + sr.tile) sr.bank sr.base sr.len (s := flitsMet s) hm
  have hwrote : v = wrBytes .dram (base + sr.save) bytes (flitsMet s) := by
    simp only [saveState, Option.filter_none, Option.elim_none, hbad, hstate] at hv
    exact (congrArg Prod.snd hv).symm
  have hsize : sr.len ≤ 2 ^ 64 := hlen.trans (by unfold bankSize; split <;> decide)
  have hpop : ∀ a, dramHas a (flitsMet s) = dramHas a s := fun a => by
    simp only [dramHas, (memOnly_flitsMet s).regs Reg.MEM_POP (by decide)]
  have hread : rdByte .dram (base + sr.save + i) (wrRaw .dram (base + sr.save) bytes (flitsMet s)) = bytes[i] :=
    rdByte_wrRaw_same (hlength.le.trans hsize) (hlength.symm ▸ hi)
      ((hpop _).trans hhas) hled
  rw [← hbytes, hwrote, List.getD_eq_getElem?_getD, List.getElem?_eq_getElem (hlength.symm ▸ hi), Option.getD_some]
  exact hread

end Sys2Proof.Machine
end

section
/-! A job's normal end: its outputs flip, its generation swaps, it leaves the device; and the settlement of O28. -/

namespace Sys2Proof.Machine

open Sys2Proof.Config

/-! ### Outputs that flip (R100, R306) -/

theorem fabricKey_inj {g h : Nat} (e : fabricKey g = fabricKey h) : g = h := by
  simp only [fabricKey, handoffKey] at e
  omega

theorem getHandoff_congr {s t : State} (h : t.disp.handoffs = s.disp.handoffs) (k : Nat) : getHandoff k t = getHandoff k s := by
  simp only [getHandoff, h]

/-- Refreshed readiness: a job of the same identity that has met the same outputs. -/
theorem getJob_refreshReady {uid : Nat} {j : Job} {s : State} (h : getJob uid s = some j) :
    ∃ k, getJob uid (refreshReady s) = some k ∧ k.outs = j.outs := by
  have huid : ∀ x, (refreshJob s x).uid = x.uid := fun x => by unfold refreshJob; split <;> rfl
  have houts : (refreshJob s j).outs = j.outs := by unfold refreshJob; split <;> rfl
  refine ⟨refreshJob s j, ?_, houts⟩
  have hp : ((fun x : Job => decide (x.uid = uid)) ∘ refreshJob s) = fun x => decide (x.uid = uid) :=
    funext fun x => by simp only [Function.comp, huid]
  simp only [getJob] at h
  simp only [getJob, refreshReady, List.find?_map, hp, h, Option.map_some]

/-- What the flip of outputs leaves alone. -/
structure FlipKept (s t : State) : Prop where
  clk : t.clk = s.clk
  saf : t.saf = s.saf
  standing : t.disp.standing = s.disp.standing
  regs : ∀ o, fabricReg o = true → getReg o t = getReg o s

theorem FlipKept.trans {s t u : State} (h1 : FlipKept s t) (h2 : FlipKept t u) : FlipKept s u :=
  ⟨h2.clk.trans h1.clk, h2.saf.trans h1.saf, h2.standing.trans h1.standing, fun o ho => (h2.regs o ho).trans (h1.regs o ho)⟩

/-- Output `h` of a job flips, unless it is skipped. -/
def flipOne (uid : Nat) (s : State) (h : Nat) : State :=
  let d := decideOut uid h s
  if d.1 then d.2 else commitOut (fabricKey h) d.2

/-- What a job's decision about one output leaves. -/
theorem decideOut_frame {uid : Nat} {j : Job} {s : State} (hj : getJob uid s = some j) (h : Nat) :
    FlipKept s (decideOut uid h s).2 ∧ (decideOut uid h s).2.disp.handoffs = s.disp.handoffs ∧
      ∃ k, getJob uid (decideOut uid h s).2 = some k ∧
        ∀ g, g ≠ h → k.outs.find? (fun o => o.1 = g) = j.outs.find? (fun o => o.1 = g) := by
  obtain ⟨hmem, rfl⟩ := getJob_mem hj
  simp only [decideOut, hj]
  cases j.outs.find? (fun o => o.1 = h) with
  | some o => exact ⟨⟨rfl, rfl, rfl, fun _ _ => rfl⟩, rfl, j, hj, fun _ _ => rfl⟩
  | none =>
    dsimp only
    generalize hl : backLocked (getHandoff (fabricKey h) s) = locked
    let y : Job := { j with outs := j.outs ++ [(h, locked)] }
    have houts : ∀ g, g ≠ h → y.outs.find? (fun o => o.1 = g) = j.outs.find? (fun o => o.1 = g) := fun g hg => by
      simp [y, List.find?_append, hg.symm]
    have hskip : FlipKept s (skipLocked s) := ⟨rfl, rfl, rfl, fun o ho => getReg_setReg_other _ _ (ne_of_fabricReg ho rfl)⟩
    cases locked with
    | true =>
      exact ⟨⟨rfl, rfl, rfl, hskip.regs⟩, rfl, y, getJob_setJob (j := y) hmem rfl, houts⟩
    | false =>
      exact ⟨⟨rfl, rfl, rfl, fun _ _ => rfl⟩, rfl, y, getJob_setJob (j := y) hmem rfl, houts⟩

theorem flipOne_frame {uid : Nat} {j : Job} {s : State} (hj : getJob uid s = some j) (h : Nat) :
    FlipKept s (flipOne uid s h) ∧ (∀ g, g ≠ h → getHandoff (fabricKey g) (flipOne uid s h) = getHandoff (fabricKey g) s) ∧
      ((decideOut uid h s).1 = false →
        (getHandoff (fabricKey h) (flipOne uid s h)).commits = (getHandoff (fabricKey h) s).commits + 1 ∧
        (getHandoff (fabricKey h) (flipOne uid s h)).front = !(getHandoff (fabricKey h) s).front) ∧
      ∃ k, getJob uid (flipOne uid s h) = some k ∧
        ∀ g, g ≠ h → k.outs.find? (fun o => o.1 = g) = j.outs.find? (fun o => o.1 = g) := by
  obtain ⟨hkept, hslots, k, hk, houts⟩ := decideOut_frame hj h
  have hsame := getHandoff_congr hslots
  cases hd : (decideOut uid h s).1 with
  | true =>
    have hskip : flipOne uid s h = (decideOut uid h s).2 := if_pos hd
    rw [hskip]
    exact ⟨hkept, fun g _ => hsame _, nofun, k, hk, houts⟩
  | false =>
    have hopen : flipOne uid s h = commitOut (fabricKey h) (decideOut uid h s).2 := if_neg (by simp [hd])
    rw [hopen]
    obtain ⟨y, hy, hyouts⟩ := getJob_refreshReady (s := commitHandoff (fabricKey h) (decideOut uid h s).2) hk
    refine ⟨⟨hkept.clk, hkept.saf, hkept.standing, hkept.regs⟩, fun g hg => ?_, fun _ => ?_, y, hy, fun g hg => ?_⟩
    · exact (getHandoff_setHandoff_other _ _ (fun e => hg (fabricKey_inj e))).trans (hsame _)
    · have hset : getHandoff (fabricKey h) (commitOut (fabricKey h) (decideOut uid h s).2) = _ := getHandoff_setHandoff_same _ _ _
      rw [hset, ← hsame]
      exact ⟨rfl, rfl⟩
    · rw [hyouts]; exact houts g hg

/-- Whether an output is skipped rests on what the job has met of it and on its handoff. -/
theorem decideOut_congr {uid g : Nat} {j k : Job} {s t : State} (hj : getJob uid s = some j) (hk : getJob uid t = some k)
    (houts : k.outs.find? (fun o => o.1 = g) = j.outs.find? (fun o => o.1 = g))
    (hslot : getHandoff (fabricKey g) t = getHandoff (fabricKey g) s) : (decideOut uid g t).1 = (decideOut uid g s).1 := by
  rw [decideOut_fst hj, decideOut_fst hk, houts, hslot]

/-- The flip of a list of distinct outputs: each that is not skipped flips once, and no other does. -/
theorem flips_frame {uid : Nat} {l : List Nat} (hl : l.Nodup) {j : Job} {s : State} (hj : getJob uid s = some j) :
    let t := l.foldl (flipOne uid) s
    FlipKept s t ∧ (∀ g, g ∉ l → getHandoff (fabricKey g) t = getHandoff (fabricKey g) s) ∧
      ∀ h ∈ l, (decideOut uid h s).1 = false →
        (getHandoff (fabricKey h) t).commits = (getHandoff (fabricKey h) s).commits + 1 ∧
        (getHandoff (fabricKey h) t).front = !(getHandoff (fabricKey h) s).front := by
  induction l generalizing j s with
  | nil => exact ⟨⟨rfl, rfl, rfl, fun _ _ => rfl⟩, fun _ _ => rfl, nofun⟩
  | cons a l ih =>
    obtain ⟨hal, hl⟩ := List.nodup_cons.mp hl
    obtain ⟨hkept, hother, hflip, k, hk, houts⟩ := flipOne_frame hj a
    obtain ⟨hkept', hother', hflip'⟩ := ih hl hk
    refine ⟨hkept.trans hkept', fun g hg => ?_, fun h hh hopen => ?_⟩
    · obtain ⟨hga, hgl⟩ := not_or.mp (fun e => hg (List.mem_cons.mpr e))
      exact (hother' g hgl).trans (hother g hga)
    · rcases List.mem_cons.mp hh with rfl | hmem
      · rw [List.foldl_cons, hother' h hal]
        exact hflip hopen
      · have hne : h ≠ a := fun e => hal (e ▸ hmem)
        have hopen' := (decideOut_congr hj hk (houts h hne) (hother h hne)).trans hopen
        have := hflip' h hmem hopen'
        rwa [hother h hne] at this

/-! ### Acceptance (R302, R317) -/

/-- The generation of the entry that made a job swaps, unless SET_STANDING has set it anew. -/
def generationSwapped (j : Job) (s : State) : State :=
  match j.entry with
  | some e =>
    if j.proof.isSome || (getStanding e s).setNo ≠ j.setNo then s
    else setStandingEntry e { getStanding e s with gen := !j.gen } s
  | none => s

theorem generationSwapped_frame (j : Job) (s : State) :
    let t := generationSwapped j s
    t.clk = s.clk ∧ t.disp.handoffs = s.disp.handoffs ∧ t.regs = s.regs ∧
      ∀ e, j.proof = none → j.entry = some e → (getStanding e s).setNo = j.setNo → (getStanding e t).gen = !j.gen := by
  unfold generationSwapped
  cases hj : j.entry with
  | none => exact ⟨rfl, rfl, rfl, nofun⟩
  | some e =>
    dsimp only
    split
    · refine ⟨rfl, rfl, rfl, fun e' hp he hs => ?_⟩
      cases he
      simp_all
    · refine ⟨rfl, rfl, rfl, fun e' _ he _ => ?_⟩
      cases he
      rw [getStanding_setStandingEntry_same]

/-- What an accepted job leaves: locks and books aside, the generation of its entry has swapped and it has left. -/
theorem jobLeft_acceptJob (j : Job) (flags : BitVec 16) (s : State) :
    JobLeft j.uid (generationSwapped j s) (acceptJob j flags s) := by
  have hbook : ∀ u : State, Bookkept u (if j.desc.resultLen = 0 then u
      else if j.lost || u.disp.discarding then discardWrite j.client u
      else
        let r := readAll .dram j.desc.resultSrc.toNat j.desc.resultLen u
        hostStore j.desc.resultAddr.toNat r.1.bytes r.2) := fun u => by
    refine .ite (.refl u) (.ite (bookkept_discardWrite _ u) ?_)
    exact .trans (errsOnly_readAll .dram j.desc.resultSrc.toNat j.desc.resultLen u).memOnly.bookkept (bookkept_hostStore _ _ _)
  have hlocks := locksOnly_unlockInputs j (generationSwapped j s)
  exact hlocks.jobLeft ((hbook _).jobLeft (jobLeft_finishJob j flags Outcome_.accepted 0 j.desc.handle _))

/-! ### The normal end (R37, R92) -/

theorem memOnly_growTables (gs : List (Nat × Nat × Nat)) (s : State) : MemOnly s (growTables gs s) := by
  refine .foldl (fun s g => ?_) gs s
  have hread := (errsOnly_readMem .dram g.1 4 s).memOnly
  dsimp only
  split
  · exact hread.trans (writesOnly_wrBytes _ _ _ _).memOnly
  · exact hread

/-- A job as its normal end makes it. -/
def endedJob (x : Job) (flags : BitVec 16) (s : State) : Job :=
  { x with endTick := s.clk.tick, endAt := now s, codes := flags, run := none, held := false }

/-- A job without checks and ring ports ends: its saturation events are counted, its outputs flip, and it is accepted. -/
theorem endNormally_eq {uid : Nat} {x : Job} {r : Run} {s : State} (hx : getJob uid s = some x) (hr : x.run = some r)
    (hring : isRingJob x = false) (hsaf : ∀ y ∈ s.saf.runs, y.uid ≠ uid) :
    ∃ u flags, Bookkept (countSat x r.sat s) u ∧
      endNormally uid s = acceptJob (endedJob x flags u) flags
        (setJob (endedJob x flags u) ((outputsOf x u).foldl (flipOne uid) u)) := by
  obtain ⟨-, rfl⟩ := getJob_mem hx
  let g := growTables r.grown (countSat x r.sat s)
  let flags := endFlags x r.sat g
  let u := if flags.getLsbD 5 then modAccount x.client (fun a => { a with deadlines := count32 a.deadlines 1 }) g else g
  have hgrow := memOnly_growTables r.grown (countSat x r.sat s)
  have hu : Bookkept g u := .ite (bookkept_modAccount _ _ g) (.refl g)
  have husaf : u.saf.runs = s.saf.runs := by
    have hsame : u.saf = g.saf := by simp only [u]; split <;> rfl
    rw [hsame, hgrow.saf]
    rfl
  have hany : u.saf.runs.any (fun r => r.uid = x.uid) = false := by
    rw [husaf, List.any_eq_false]
    exact fun y hy => by simpa using hsaf y hy
  refine ⟨u, flags, hgrow.bookkept.trans hu, ?_⟩
  have hports : isRingJob (endedJob x flags u) = false := hring
  have hend : endNormally x.uid s = if u.saf.runs.any (fun r => r.uid = x.uid) then
      setJob { endedJob x flags u with stage := .deciding } u
    else if isRingJob (endedJob x flags u) && ringUp (setJob (endedJob x flags u) (flipOutputs (endedJob x flags u) u)) then
      arriveBarrier x.uid false 0 (setJob { endedJob x flags u with stage := .acceptBarrier, vote := 0 }
        (setJob (endedJob x flags u) (flipOutputs (endedJob x flags u) u)))
    else acceptJob (endedJob x flags u) flags (setJob (endedJob x flags u) (flipOutputs (endedJob x flags u) u)) := by
    simp only [endNormally, hx, hr, Option.elim_some]
    rfl
  rw [hend, hany, hports]
  rfl

/-- The saturation counters of the columns are the fabric's, and no owner or hold is shown in them. -/
theorem satReg_apart {c : Nat} (hc : c < 12) : fabricReg (Reg.FAB_COLn_SAT c) = true ∧ Reg.FAB_COLn_SAT c ≠ Reg.FAB_HELD ∧
    (∀ d < 12, Reg.FAB_COLn_SAT c ≠ Reg.FAB_COLn_OWNER d) ∧ Reg.FAB_COLn_SAT c ∉ errRegs := by
  have h : ∀ c : Fin 12, fabricReg (Reg.FAB_COLn_SAT c) = true ∧ Reg.FAB_COLn_SAT c ≠ Reg.FAB_HELD ∧
    (∀ d : Fin 12, Reg.FAB_COLn_SAT c ≠ Reg.FAB_COLn_OWNER d) ∧ Reg.FAB_COLn_SAT c ∉ errRegs := by decide
  obtain ⟨hfab, hheld, howner, herr⟩ := h ⟨c, hc⟩
  exact ⟨hfab, hheld, fun d hd => howner ⟨d, hd⟩, herr⟩

section
variable {col : Fin 12} {j : Job} {r : Run} {s : State} (hm : s.marks = []) (hf : s.flits.bad = none)
  (hsave : savingAt col.val s = some j) (hh : j.held = true) (hr : j.run = some r)
include hm hf hsave hh hr

/-- What a release after a good save leaves of the device, beyond the columns. -/
theorem partitionRelease_frame :
    let t := partitionRelease col.val s
    now t = max (now s) r.saveAt ∧ t.saf = s.saf ∧ t.disp.standing = s.disp.standing ∧ t.disp.handoffs = s.disp.handoffs ∧
      t.disp.handles = s.disp.handles ∧ getJob j.uid t = some { j with held := false } ∧
      getReg (Reg.FAB_COLn_SAT col.val) t = getReg (Reg.FAB_COLn_SAT col.val) s := by
  obtain ⟨v, -, hmem, hrel⟩ := partitionRelease_eq hm hf hsave hh hr
  have hfree := released j (runTo r.saveAt v) hh
  obtain ⟨hfab, hheld, howner, herr⟩ := satReg_apart col.isLt
  have hdisp : (runTo r.saveAt v).disp = s.disp := hmem.disp
  dsimp only
  rw [hrel]
  refine ⟨?_, hfree.saf.trans hmem.saf, hfree.standing.trans (congrArg Dispatcher.standing hdisp),
    hfree.handoffs.trans (congrArg Dispatcher.handoffs hdisp), hfree.handles.trans (congrArg Dispatcher.handles hdisp), ?_, ?_⟩
  · rw [show now (releasePartition j (runTo r.saveAt v)) = now (runTo r.saveAt v) from congrArg Clock.root hfree.clk, now_runTo,
      hmem.now]
  · rw [getJob_congr hfree.jobs]
    have hmemj : j ∈ (runTo r.saveAt v).disp.jobs := hdisp ▸ (savingAt_mem hsave).1
    exact getJob_setJob (j := { j with held := false }) hmemj rfl
  · exact (hfree.regs _ hfab hheld howner).trans (hmem.regs _ herr)

/-- JOB_END ends a job normally whose state has been saved. -/
theorem jobEnd_eq : jobEnd col.val s = endNormally j.uid (partitionRelease col.val s) := by
  obtain ⟨hnow, -, -, -, -, hget, -⟩ := partitionRelease_frame hm hf hsave hh hr
  have hpast : runTo r.saveAt (partitionRelease col.val s) = partitionRelease col.val s :=
    runTo_past _ _ (hnow ▸ le_max_right _ _)
  have hstage := (savingAt_mem hsave).2.1
  simp only [jobEnd, hsave, hget, hstage, if_true, hr, Option.elim_some, hpast]

end

theorem outputsOf_congr {j k : Job} {s t : State} (hh : t.disp.handles = s.disp.handles) (hk : k.desc = j.desc) :
    outputsOf k t = outputsOf j s := by
  simp only [outputsOf, hk, handleInfo_congr hh]

theorem outputsOf_nodup (j : Job) (s : State) : (outputsOf j s).Nodup := by
  unfold outputsOf
  split
  · exact List.nodup_nil
  · exact List.nodup_dedup _

theorem ownerReg_ne {c : Nat} (hc : c < 12) : Reg.FAB_COLn_OWNER c ≠ Reg.MEM_POP := by
  have h : ∀ c : Fin 12, Reg.FAB_COLn_OWNER c ≠ Reg.MEM_POP := by decide
  exact h ⟨c, hc⟩

/-- Settles O28: a good save releases the partition; the job then ends, flips its outputs, is accepted and leaves. -/
theorem jobsEnd : Obligations.JobsEnd := by
  unfold Obligations.JobsEnd
  refine ⟨?last, ?release, ?done⟩
  case last =>
    intro col j k r q s hending ended u hk hstage hq
    obtain ⟨hmem, huid⟩ := getJob_mem hk
    have hrun : lastCycle col.val s = startSave k q u := by
      have hk' : getJob j.uid u = some k := hk
      simp only [lastCycle, hending]
      change (match getJob j.uid u with
        | some j => if j.stage = JobStage.running then j.run.elim u (fun r => startSave j r u) else u
        | none => u) = _
      rw [hk']
      simp only [hstage, if_true, hq, Option.elim_some]
    exact ⟨_, _, congrArg Host.Outcome.next hrun, mem_setJob_self hmem rfl, huid, rfl, rfl, rfl, memKept_setJob _ u, rfl, rfl⟩
  case release =>
    intro col j r s hm hf hsave hh hr
    obtain ⟨v, hv, hmem, hrel⟩ := partitionRelease_eq hm hf hsave hh hr
    have hfree := released j (runTo r.saveAt v) hh
    refine ⟨_, rfl, (partitionRelease_frame hm hf hsave hh hr).1, ?_, ?_⟩
    · rw [hrel]; exact hfree.free
    · intro sr hsr hlen i hi a hhas hled
      rw [hsr] at hv
      have hpop := (hfree.regs Reg.MEM_POP rfl (by decide) fun c hc => (ownerReg_ne hc).symm).trans (getReg_runTo _ _ v)
      have hkey : inLedger (memKey .dram a) = false := by rw [memKey, Nat.mod_mod]; exact hled
      have hsame := rdByte_dram_congr (s := v) (hfree.dram.trans rfl) (hfree.losses.trans rfl) hpop hkey
      have hmod : rdByte .dram a v = rdByte .dram (saveBase j + sr.save + i) v := by
        simp only [rdByte, memKey, a, Nat.mod_mod]
      rw [hrel, hsame, hmod, rdByte_saveState hm hv hlen hi hhas hled]
  case done =>
    intro col j r s hm hf hsave hget hh hr hproof hring hsaf
    obtain ⟨hnow, hsafs, hstanding, hslots, hhandles, hx, hsat⟩ := partitionRelease_frame hm hf hsave hh hr
    have hrun := jobEnd_eq hm hf hsave hh hr
    generalize partitionRelease col.val s = p at *
    let x : Job := { j with held := false }
    obtain ⟨u, flags, hbook, hend⟩ := endNormally_eq hx hr hring (by rw [hsafs]; exact hsaf)
    let y := endedJob x flags u
    have hxu : getJob j.uid u = some x := (getJob_congr hbook.jobs _).trans hx
    have hlist : outputsOf x u = outputsOf j s := outputsOf_congr (hbook.handles.trans hhandles) rfl
    have hslotu : ∀ k, getHandoff k u = getHandoff k s := getHandoff_congr (hbook.handoffs.trans hslots)
    obtain ⟨hflip, -, hflipped⟩ := flips_frame (outputsOf_nodup j s) hxu
    rw [hlist] at hend
    generalize (outputsOf j s).foldl (flipOne j.uid) u = w at *
    have hleft := jobLeft_acceptJob y flags (setJob y w)
    obtain ⟨hgclk, hgslots, hgregs, hgen⟩ := generationSwapped_frame y (setJob y w)
    have hslott := getHandoff_congr hgslots
    have hstandw : w.disp.standing = s.disp.standing := hflip.standing.trans (hbook.standing.trans hstanding)
    refine ⟨_, congrArg Host.Outcome.next (hrun.trans hend), ?_, hleft.gone, fun h hmem hopen => ?_, fun e he hset => ?_, ?_⟩
    · exact (congrArg Clock.root (hleft.clk.trans (hgclk.trans (hflip.clk.trans hbook.clk))) : _ = now p).trans hnow
    · have hopen' := (decideOut_congr hget hxu rfl (hslotu (fabricKey h))).trans hopen
      obtain ⟨hcommits, hfront⟩ := hflipped h hmem hopen'
      obtain ⟨hc, hf⟩ := hleft.slots (fabricKey h)
      have hput : getHandoff (fabricKey h) (setJob y w) = getHandoff (fabricKey h) w := rfl
      rw [hc, hf, hslott, hput, hcommits, hfront, hslotu]
      exact ⟨rfl, rfl⟩
    · have hset' : (getStanding e (setJob y w)).setNo = j.setNo := by
        rw [← hset]
        exact congrArg (fun t => (tget (fun _ => Standing.reset) t e).setNo) hstandw
      have hlast : getStanding e (acceptJob _ _ _) = getStanding e (generationSwapped _ _) :=
        congrArg (fun t => tget (fun _ => Standing.reset) t e) hleft.standing
      rw [hlast]
      exact hgen e hproof he hset'
    · obtain ⟨hfab, -, -, -⟩ := satReg_apart col.isLt
      have hcol := (savingAt_mem hsave).2.2
      have hcount : getReg (Reg.FAB_COLn_SAT col.val) (countSat x r.sat p) =
          countUp (getReg (Reg.FAB_COLn_SAT col.val) p) r.sat := by
        rw [← hcol]
        exact getReg_setReg_same _ _ _
      rw [hleft.regs _ hfab, getReg, hgregs]
      exact ((hflip.regs _ hfab).trans ((hbook.regs _ hfab).trans hcount)).trans (by rw [hsat])

end Sys2Proof.Machine
end

section
/-! The host window: what an access to it does, and the settlement of O29. -/

namespace Sys2Proof.Machine

open Sys2Proof.Config

/-! ### Accesses to the window (R115) -/

/-- The window lies above the registers of every block, in no switched domain (R22). -/
theorem blockUsable_window (n : Nat) (s : State) : blockUsable (0x1000000 + n) s = true := by
  have hdomains : blockDomains (0x1000000 + n) = [] := by
    have habove : (0x1000000 + n) / 2 ^ 20 = 16 + n / 2 ^ 20 := by omega
    unfold blockDomains
    rw [habove]
    split
    any_goals omega
    rfl
  rw [blockUsable, hdomains]
  rfl

/-- Inside a maintenance session the host reaches the window (R22, R466). -/
theorem exec_windowAccess {s : State} (hm : s.sess.maint.isSome = true) (off : BitVec 24) (w : Width) (value : Option Word) :
    exec (.windowAccess off ⟨w, value⟩) s = .next (windowAccess off.toNat w value (usedBy .host s)) := by
  obtain ⟨m, hm⟩ := Option.isSome_iff_exists.mp hm
  change Host.Outcome.next _ = _
  simp only [hm, Option.isNone_some, Bool.and_false, Bool.false_eq_true, if_false, asWriter, blockUsable_window, if_true,
    usedBy, Option.map_some]

/-- What an access that is turned away leaves: a read puts 0 in its result, a write is discarded. -/
def turnedAway (value : Option Word) (s : State) : State := if value.isNone then { s with pcieData := 0 } else s

theorem memKept_pcieData (v : Word) (s : State) : memKept s { s with pcieData := v } := memKept_returnTo .host v s

/-- R3: an access of another width or alignment is turned away. -/
theorem windowAccess_misfit {a : Nat} {w : Width} (h : w ≠ .w32 ∨ a % 4 ≠ 0) (value : Option Word) (s : State) :
    windowAccess a w value s = turnedAway value s := if_pos h

section
variable {a : Nat} (ha : a % 4 = 0) {s : State}
include ha

theorem windowAccess_held (h : winTarget a s = .held) (value : Option Word) :
    windowAccess a .w32 value s = turnedAway value (orReg Reg.MEM_WIN_STAT 2 s) := by
  simp only [windowAccess, ha, h, ne_eq, not_true_eq_false, or_self, if_false, turnedAway]

theorem windowAccess_unmapped (h : winTarget a s = .unmapped) (value : Option Word) :
    windowAccess a .w32 value s = turnedAway value (orReg Reg.MEM_WIN_STAT 1 s) := by
  simp only [windowAccess, ha, h, ne_eq, not_true_eq_false, or_self, if_false, turnedAway]

variable {sp : Space} {k : Nat} (h : winTarget a s = .at_ sp k)
include h

theorem windowAccess_read : windowAccess a .w32 none s =
    { (readMem sp k 4 s).2 with
      pcieData := if (readMem sp k 4 s).1.bad.isSome then 0 else word (leNat (windowBytes sp k s)) } := by
  simp only [windowAccess, ha, h, ne_eq, not_true_eq_false, or_self, if_false]

theorem windowAccess_write (v : Word) :
    windowAccess a .w32 (some v) s = windowStore sp k v (readMem sp (k / 8 * 8) 8 s).2 := by
  simp only [windowAccess, ha, h, ne_eq, not_true_eq_false, or_self, if_false]

end

/-- What the window shows: the staging store on page 0, a bank of the tile that the page names on another. -/
theorem winTarget_at {a : Nat} {sp : Space} {k : Nat} {s : State} (h : winTarget a s = .at_ sp k) :
    (sp = .stage ∧ k = a ∧ a < 2 ^ 23) ∨ (sp = .bank ∧ k < 96 * 2 ^ 21) := by
  unfold winTarget at h
  dsimp only at h
  split at h
  · split at h
    · cases h; exact .inl ⟨rfl, rfl, ‹_›⟩
    · cases h
  · split at h
    · cases h
    · split at h
      · cases h
      · split at h
        · cases h
        · cases h; exact .inr ⟨rfl, by omega⟩

/-- An access to a held column or an unmapped byte: it is turned away, and its bit of MEM_WIN_STAT shows it (R115). -/
theorem turnedAway_shown {s : State} {off : BitVec 24} {m : Word} {i : Nat} (hbit : bit m i = true)
    (h : ∀ value, exec (.windowAccess off ⟨.w32, value⟩) s =
      .next (turnedAway value (orReg Reg.MEM_WIN_STAT m (usedBy .host s)))) :
    ∃ t u, exec (.windowAccess off ⟨.w32, none⟩) s = .next t ∧ t.pcieData = 0 ∧ regBit Reg.MEM_WIN_STAT i t = true ∧
      memKept s t ∧ (∀ v, exec (.windowAccess off ⟨.w32, some v⟩) s = .next u) ∧ regBit Reg.MEM_WIN_STAT i u = true ∧
      onlyRegs [Reg.MEM_WIN_STAT] (usedBy .host s) u := by
  have hset : regBit Reg.MEM_WIN_STAT i (orReg Reg.MEM_WIN_STAT m (usedBy .host s)) = true := by simp [hbit]
  have hkept : memKept s (orReg Reg.MEM_WIN_STAT m (usedBy .host s)) :=
    memKept_trans (memKept_usedBy .host s) (memKept_setReg _ _ _ (by decide))
  exact ⟨_, _, h none, rfl, hset, memKept_trans hkept (memKept_pcieData 0 _), fun v => h (some v), hset,
    onlyRegs_setReg _ _ _⟩

/-! ### Uncorrectable words that a read captures (R106, R109) -/

theorem errSource_lt (sp : Space) {b : Nat} (h : b < 2 ^ 33) : (errSource sp b).1 < 16 ∧ (errSource sp b).2.2 < 2 ^ 12 := by
  cases sp with
  | bank =>
    unfold errSource
    dsimp only
    split <;> dsimp only <;> omega
  | dram | stage | table => simp only [errSource]; omega

/-- MEM_ERR_INFO shows a captured error, with its code unless it holds an earlier one. -/
theorem captureErr_shown {source tile : Nat} (hsource : source < 16) (htile : tile < 2 ^ 12) (addr : Nat) (s : State) :
    let t := captureErr Code.eccUncorr source tile addr s
    regBit Reg.MEM_ERR_INFO 31 t = true ∧
      (regBit Reg.MEM_ERR_INFO 31 s = false → regFld Reg.MEM_ERR_INFO 23 16 t = Code.eccUncorr) := by
  intro t
  unfold t captureErr
  split
  case isTrue held =>
    have hset : regBit Reg.MEM_ERR_INFO 31 s = true := (Bool.and_eq_true_iff.mp held).1
    exact ⟨hset, fun hclear => absurd hset (by simp [hclear])⟩
  case isFalse =>
    have hword : (word (2 ^ 31 + 3 * 2 ^ 16 + source * 2 ^ 12 + tile)).toNat =
        2 ^ 31 + 3 * 2 ^ 16 + source * 2 ^ 12 + tile := by
      rw [word, BitVec.toNat_ofNat]
      omega
    have hcode : Code.eccUncorr = 3 := rfl
    rw [hcode, regBit_setReg_same, regFld_setReg_same, bit, fld, BitVec.getLsbD, hword, Nat.testBit_eq_decide_div_mod_eq]
    exact ⟨decide_eq_true (by omega), fun _ => by omega⟩

/-- A checked read that meets an uncorrectable word reports it, and MEM_ERR_INFO captures it (R106, R109). -/
theorem readMem_uncorrectable {sp : Space} {a n : Nat} {s : State} (hmarks : marksIn sp a n true s ≠ [])
    (ha : memKey sp a + n ≤ 2 ^ 33) :
    (readMem sp a n s).1.bad.isSome = true ∧ regBit Reg.MEM_ERR_INFO 31 (readMem sp a n s).2 = true ∧
      (regBit Reg.MEM_ERR_INFO 31 s = false →
        regFld Reg.MEM_ERR_INFO 23 16 (readMem sp a n s).2 = Code.eccUncorr) := by
  obtain ⟨b, hb⟩ : ∃ b, ((marksIn sp a n true s).map (fun m => 8 * m.word)).min? = some b := by
    rw [← Option.isSome_iff_exists, List.isSome_min?_iff]
    simpa using hmarks
  have hlow : b < 2 ^ 33 := by
    obtain ⟨m, hm, rfl⟩ := List.mem_map.mp (List.min?_mem hb)
    simp only [marksIn, List.mem_filter, Bool.and_eq_true, decide_eq_true_eq] at hm
    omega
  obtain ⟨hsource, htile⟩ := errSource_lt sp hlow
  simp only [readMem, hb, countErrs]
  refine ⟨rfl, ?_⟩
  obtain ⟨hset, hcode⟩ := captureErr_shown hsource htile (errSource sp b).2.1 _
  refine ⟨hset, fun hclear => hcode ?_⟩
  rw [bumpReg_eq, regBit_setReg_other _ _ _ (by decide)]
  split
  · exact hclear
  · rw [bumpReg_eq, regBit_setReg_other _ _ _ (by decide)]
    exact hclear

/-- A checked read that meets no uncorrectable word reports none. -/
theorem readMem_bad_none {sp : Space} {a n : Nat} {s : State} (hmarks : marksIn sp a n true s = []) :
    (readMem sp a n s).1.bad = none := by
  simp only [readMem, hmarks, List.map_nil, List.min?_nil]

/-! ### The bytes that the window reads (R96) -/

/-- Outside the banks, and in a bank of which nothing is noted, a window read gives the bytes that are stored. -/
theorem windowBytes_stored {sp : Space} {s : State} (h : sp ≠ .bank ∨ s.bankLog = []) (k : Nat) :
    windowBytes sp k s = rdBytes sp k 4 s := by
  cases sp with
  | bank =>
    have hlog : s.bankLog = [] := h.resolve_left (fun hne => hne rfl)
    simp only [windowBytes, bankByteAt, bankNote, hlog, tget_nil, rdBytes]
  | dram | stage | table => rfl

/-! ### The bytes that the window writes (R95, R115) -/

/-- What a write of `bs` from `k` of a space leaves: its bytes, and every other byte that has an address as it was. -/
def Stored (sp : Space) (k : Nat) (bs : List Byte) (s t : State) : Prop :=
  ∀ q x, x < 2 ^ 23 ∨ q ≠ .stage →
    rdByte q x t = if q = sp ∧ k ≤ x ∧ x < k + bs.length then bs.getD (x - k) 0 else rdByte q x s

theorem Stored.nil (sp : Space) (k : Nat) (s : State) : Stored sp k [] s s := fun q x _ => (if_neg (by simp)).symm

/-- One byte after another. -/
theorem Stored.cons {sp : Space} {k : Nat} {b : Byte} {bs : List Byte} {s t u : State} (hfirst : Stored sp k [b] s t)
    (hrest : Stored sp (k + 1) bs t u) : Stored sp k (b :: bs) s u := by
  intro q x hx
  rw [hrest q x hx, hfirst q x hx, List.length_singleton, List.length_cons (a := b) (as := bs)]
  by_cases hq : q = sp
  · simp only [hq, true_and]
    rcases Nat.lt_trichotomy x k with hlt | rfl | hgt
    · rw [if_neg (by omega), if_neg (by omega), if_neg (by omega)]
    · rw [if_neg (by omega), if_pos (by omega), if_pos (by omega), Nat.sub_self]
      rfl
    · have hsub : x - k = (x - (k + 1)) + 1 := by omega
      rw [hsub, List.getD_cons_succ, if_neg (c := k ≤ x ∧ x < k + 1) (by omega)]
      exact if_congr (by omega) rfl rfl
  · simp only [hq, false_and, if_false]

theorem Stored.filterMarks {sp : Space} {k : Nat} {bs : List Byte} {s t : State} (h : Stored sp k bs s t)
    (p : EccMark → Bool) : Stored sp k bs s { t with marks := t.marks.filter p } := fun q x hx =>
  (rdByte_filterMarks q x p t).trans (h q x hx)

/-- The bytes that were written read back. -/
theorem Stored.rdBytes {sp : Space} {k : Nat} {bs : List Byte} {s t : State} (h : Stored sp k bs s t)
    (hk : k + bs.length ≤ 2 ^ 23 ∨ sp ≠ .stage) : Machine.rdBytes sp k bs.length t = bs := by
  refine List.ext_getElem (by simp [Machine.rdBytes]) fun i hi hi' => ?_
  simp only [Machine.rdBytes, List.getElem_map, List.getElem_range]
  rw [h sp (k + i) (hk.imp_left (by omega)), if_pos ⟨rfl, by omega, by omega⟩, Nat.add_sub_cancel_left,
    List.getD_eq_getElem _ _ hi']

/-- A write of the staging store that ends within it. -/
theorem stored_wrRaw_stage {k : Nat} {bs : List Byte} (hk : k + bs.length ≤ 2 ^ 23) (s : State) :
    Stored .stage k bs s (wrRaw .stage k bs s) := by
  induction bs generalizing k s with
  | nil => exact .nil _ _ _
  | cons b bs ih =>
    rw [List.length_cons] at hk
    refine .cons (fun q x hx => ?_) (ih (by omega) (wrByte .stage k b s))
    rw [rdByte_wrByte _ _ _ _ _ _ (fun h => by cases h), List.length_singleton]
    by_cases hq : q = .stage
    · have hkey : memKey .stage x = memKey .stage k ↔ k ≤ x ∧ x < k + 1 := by
        have := hx.resolve_right (fun hne => hne hq)
        simp only [memKey]
        omega
      simp only [hq, hkey, true_and]
      refine ite_congr rfl (fun h => ?_) (fun _ => rfl)
      rw [show x - k = 0 by omega]
      rfl
    · simp only [hq, false_and, if_false]

/-- No bank byte is noted as written after fabric cycle `c`, or in it by a port that is served after the window's. -/
def notedBy (c : Nat) (s : State) : Prop := ∀ x n, bankNote x s = some n → n.cycle ≤ c ∧ n.port ≤ Port.window

theorem tget_some_mem {α : Type} {t : Tab (Option α)} {k : Nat} {v : α} (h : tget (fun _ => none) t k = some v) :
    (k, some v) ∈ t := by
  induction t with
  | nil => cases h
  | cons e t ih =>
    simp only [tget] at h
    split at h
    case isTrue hkey => exact (Prod.ext hkey h : e = (k, some v)) ▸ List.mem_cons_self
    case isFalse => exact List.mem_cons_of_mem _ (ih h)

/-- R95: the window's write of a byte stands, and is noted. -/
theorem bankPutByte_window {c : Nat} {s : State} (h : notedBy c s) (k : Nat) (b : Byte) :
    ∃ n : BankNote, n.cycle = c ∧ n.port = Port.window ∧ bankPutByte c Port.window k b s =
      wrByte .bank k b { s with bankLog := tset (fun _ => none) k (some n) s.bankLog } := by
  cases hnote : bankNote k s with
  | none => exact ⟨⟨c, Port.window, rdByte .bank k s⟩, rfl, rfl, by simp only [bankPutByte, hnote]⟩
  | some n =>
    obtain ⟨hcycle, hport⟩ := h k n hnote
    rcases Nat.lt_or_eq_of_le hcycle with hlt | heq
    · exact ⟨⟨c, Port.window, rdByte .bank k s⟩, rfl, rfl, by simp only [bankPutByte, hnote, hlt, if_true]⟩
    · refine ⟨{ n with port := Port.window }, heq, rfl, ?_⟩
      simp only [bankPutByte, hnote, heq, lt_irrefl, if_false, hport, if_true]

/-- The window's own writes leave no later note. -/
theorem notedBy_bankPutByte {c : Nat} {s : State} (h : notedBy c s) (k : Nat) (b : Byte) :
    notedBy c (bankPutByte c Port.window k b s) := by
  obtain ⟨n, hcycle, hport, hput⟩ := bankPutByte_window h k b
  intro x m hm
  rw [hput, bankNote, bankLog_wrByte, tget_tset] at hm
  split at hm
  · cases hm; exact ⟨hcycle.le, hport.le⟩
  · exact h x m hm

theorem stored_bankPutRaw {c : Nat} {s : State} (h : notedBy c s) (k : Nat) (bs : List Byte) :
    Stored .bank k bs s (bankPutRaw c Port.window k bs s) := by
  induction bs generalizing k s with
  | nil => exact .nil _ _ _
  | cons b bs ih =>
    refine .cons (fun q x _ => ?_) (ih (notedBy_bankPutByte h k b) (k + 1))
    obtain ⟨n, -, -, hput⟩ := bankPutByte_window h k b
    rw [hput, rdByte_wrByte_bank, rdByte_bankLog, List.length_singleton]
    refine ite_congr (propext (and_congr_right fun _ => by omega)) (fun hx => ?_) (fun _ => rfl)
    rw [show x - k = 0 by omega]
    rfl

/-- Counting errors leaves the notes and the fabric cycle. -/
theorem notesPast_errsOnly {s t : State} (h : ErrsOnly s t) (hs : notesPast s) : notesPast t := by
  have hlog : t.bankLog = s.bankLog := (congrArg State.bankLog h.rest :)
  have hcycle : fabricCycle (now t) t = fabricCycle (now s) s := by
    rw [fabricCycle, fabricCycle, h.memOnly.now, h.memOnly.fcRoot]
  intro e he n hn
  rw [hcycle]
  exact hs e (hlog ▸ he) n hn

/-- Where no later write is noted, the window's four bytes are written, and no other. -/
theorem stored_windowStore {sp : Space} {k : Nat} (hk : (sp = .stage ∧ k + 4 ≤ 2 ^ 23) ∨ sp = .bank) (v : Word) {s : State}
    (h : notesPast s) : Stored sp k (wordBytes v) s (windowStore sp k v s) := by
  rcases hk with ⟨rfl, hk⟩ | rfl
  · exact (stored_wrRaw_stage (by rwa [wordBytes_length]) s).filterMarks _
  · have hnoted : notedBy (fabricCycle (now s) s) (forgetWrites (fabricCycle (now s) s) s) := fun x n hn =>
      h _ (List.mem_of_mem_filter (tget_some_mem hn)) n rfl
    refine Stored.filterMarks (fun q x hx => ?_) _
    rw [stored_bankPutRaw hnoted k (wordBytes v) q x hx]
    exact if_congr Iff.rfl rfl (rdByte_bankLog q x _ s)

/-! ### Good accesses and uncorrectable ones -/

section
variable {s : State} (hm : s.sess.maint.isSome = true) {off : BitVec 24} (ha : off.toNat % 4 = 0) {sp : Space} {k : Nat}
  (hat : winTarget off.toNat s = .at_ sp k)
include hm ha hat

theorem exec_windowRead_uncorrectable (hmarks : marksIn sp k 4 true s ≠ []) :
    ∃ t, exec (.windowAccess off ⟨.w32, none⟩) s = .next t ∧ t.pcieData = 0 ∧ regBit Reg.MEM_ERR_INFO 31 t = true ∧
      (regBit Reg.MEM_ERR_INFO 31 s = false → regFld Reg.MEM_ERR_INFO 23 16 t = 0x03) ∧ memKept s t := by
  have hkey : memKey sp k + 4 ≤ 2 ^ 33 := by
    rcases winTarget_at hat with ⟨rfl, -, -⟩ | ⟨rfl, hk⟩ <;> simp only [memKey] <;> omega
  obtain ⟨hbad, hset, hcode⟩ := readMem_uncorrectable (s := usedBy .host s) hmarks hkey
  have hkept := memKept_trans (memKept_usedBy .host s) (errsOnly_readMem sp k 4 (usedBy .host s)).memKept
  rw [exec_windowAccess hm, windowAccess_read (s := usedBy .host s) ha hat]
  exact ⟨_, rfl, if_pos hbad, hset, hcode, memKept_trans hkept (memKept_pcieData _ _)⟩

theorem exec_windowRead_good (hmarks : marksIn sp k 4 true s = []) :
    ∃ t, exec (.windowAccess off ⟨.w32, none⟩) s = .next t ∧ memKept s t ∧
      t.pcieData = word (leNat (windowBytes sp k s)) := by
  have hbad : (readMem sp k 4 (usedBy .host s)).1.bad = none := readMem_bad_none hmarks
  have hkept := memKept_trans (memKept_usedBy .host s) (errsOnly_readMem sp k 4 (usedBy .host s)).memKept
  have hbytes : windowBytes sp k (usedBy .host s) = windowBytes sp k s := by cases sp <;> rfl
  rw [exec_windowAccess hm, windowAccess_read (s := usedBy .host s) ha hat, hbytes]
  exact ⟨_, rfl, memKept_trans hkept (memKept_pcieData _ _), if_neg (by simp [hbad])⟩

theorem exec_windowWrite (v : Word) (hnotes : notesPast s) :
    ∃ t, exec (.windowAccess off ⟨.w32, some v⟩) s = .next t ∧ rdBytes sp k 4 t = wordBytes v ∧
      (∀ sp' b, sp' ≠ sp ∨ b < k ∨ k + 4 ≤ b → b < 2 ^ 23 ∨ sp' ≠ .stage → rdByte sp' b t = rdByte sp' b s) := by
  have herrs := errsOnly_readMem sp (k / 8 * 8) 8 (usedBy .host s)
  have hkept := memKept_trans (memKept_usedBy .host s) herrs.memKept
  have hplace : (sp = .stage ∧ k + 4 ≤ 2 ^ 23) ∨ sp = .bank := by
    rcases winTarget_at hat with ⟨hsp, rfl, hlt⟩ | ⟨hsp, -⟩
    · exact .inl ⟨hsp, by omega⟩
    · exact .inr hsp
  have hstored := stored_windowStore hplace v (notesPast_errsOnly herrs hnotes)
  rw [exec_windowAccess hm, windowAccess_write (s := usedBy .host s) ha hat]
  refine ⟨_, rfl, hstored.rdBytes (hplace.imp And.right (by rintro rfl; nofun)), fun q x hx hlow => ?_⟩
  rw [hstored q x hlow, wordBytes_length, if_neg]
  · exact hkept.1 q x
  · rintro ⟨hq, hle, hlt⟩
    have := hx.resolve_left (fun hne => hne hq)
    omega

end

/-- Settles O29: the access reaches the window, and its width, its alignment and what the window shows there decide. -/
theorem hostWindow : Obligations.HostWindow := by
  unfold Obligations.HostWindow
  intro off w s hm a
  have hexec := exec_windowAccess hm off
  refine ⟨fun hfit => ⟨?_, fun v => ?_⟩, fun hw ha => ?_⟩
  · rw [hexec, windowAccess_misfit hfit]; rfl
  · rw [hexec, windowAccess_misfit hfit]; rfl
  · subst hw
    refine ⟨fun hheld => ?_, fun hnone => ?_, fun sp k hat => ⟨exec_windowRead_uncorrectable hm ha hat, fun hmarks => ?_,
      exec_windowWrite hm ha hat⟩⟩
    · refine turnedAway_shown (m := 2) (by decide) fun value => ?_
      rw [hexec, windowAccess_held (s := usedBy .host s) ha hheld]
    · refine turnedAway_shown (m := 1) (by decide) fun value => ?_
      rw [hexec, windowAccess_unmapped (s := usedBy .host s) ha hnone]
    · obtain ⟨t, ht, hkept, hdata⟩ := exec_windowRead_good hm ha hat hmarks
      refine ⟨t, ht, hkept, hdata, fun hquiet => ?_⟩
      rw [hdata, windowBytes_stored hquiet]
      rfl

end Sys2Proof.Machine
end

section
/-! The granules of the channels in the order of their rows, and the settlement of O31. -/

namespace Sys2Proof.Machine

open Sys2Proof.Config

/-! ### Granules in the order of R113 -/

/-- Place `i` of the rows of 24 granules, row by row over the channels: whether channel `i % 24` has a granule in row
`i / 24`. -/
abbrev hasGranule (pop : Word) (i : Nat) : Prop := i / 24 < granules (channelCap (i % 24) pop)

theorem granules_mono {a b : Nat} (h : a ≤ b) : granules a ≤ granules b :=
  Nat.div_le_div_right (Nat.mul_le_mul_right _ h)

/-- Every channel has at least the rows of region A (R113). -/
theorem granules_capMin_le (c : Nat) (pop : Word) : granules (capMin pop) ≤ granules (channelCap c pop) := by
  refine granules_mono ?_
  unfold capMin channelCap
  split
  · omega
  · split <;> omega

theorem hasGranule_iff {c k : Nat} (hc : c < 24) (pop : Word) :
    hasGranule pop (24 * k + c) ↔ k < granules (channelCap c pop) := by
  rw [hasGranule, show (24 * k + c) / 24 = k by omega, show (24 * k + c) % 24 = c by omega]

/-- The granules of row `k` on the channels below `c`. -/
theorem count_row {c : Nat} (hc : c ≤ 24) (k : Nat) (pop : Word) :
    Nat.count (fun d => hasGranule pop (24 * k + d)) c =
      ((List.range c).filter (fun d => decide (k < granules (channelCap d pop)))).length := by
  rw [Nat.count, List.countP_eq_length_filter]
  refine congrArg List.length (List.filter_congr fun d hd => ?_)
  exact decide_eq_decide.mpr (hasGranule_iff ((List.mem_range.mp hd).trans_le hc) pop)

/-- One more row adds one for each member that reaches it. -/
theorem sum_min_succ (n : Nat → Nat) (k : Nat) (l : List Nat) :
    (l.map (fun d => min (k + 1) (n d))).sum =
      (l.map (fun d => min k (n d))).sum + (l.filter (fun d => decide (k < n d))).length := by
  induction l with
  | nil => rfl
  | cons d l ih =>
    simp only [List.map_cons, List.sum_cons, ih, List.filter_cons, decide_eq_true_eq]
    split
    · rw [List.length_cons]; omega
    · omega

/-- The granules of the rows below `k`. -/
theorem count_rows (k : Nat) (pop : Word) : Nat.count (hasGranule pop) (24 * k) =
    ((List.range 24).map (fun d => min k (granules (channelCap d pop)))).sum := by
  induction k with
  | zero => simp
  | succ k ih =>
    rw [Nat.mul_succ, Nat.count_add, ih, count_row le_rfl, sum_min_succ (fun d => granules (channelCap d pop))]

/-- Where all have `a` rows, those rows count apart. -/
theorem sum_min_split {n : Nat → Nat} {a k : Nat} (hn : ∀ d, a ≤ n d) (hk : a ≤ k) (l : List Nat) :
    (l.map (fun d => min k (n d))).sum = l.length * a + (l.map (fun d => min (k - a) (n d - a))).sum := by
  induction l with
  | nil => simp
  | cons d l ih =>
    have := hn d
    simp only [List.map_cons, List.sum_cons, List.length_cons, Nat.succ_mul, ih]
    omega

/-- R113: a granule lies after the granules of all earlier places. -/
theorem granuleAddr_eq {c : Nat} (hc : c < 24) (k : Nat) (pop : Word) :
    granuleAddr c k pop = 512 * Nat.count (hasGranule pop) (24 * k + c) := by
  unfold granuleAddr
  dsimp only
  split
  case isTrue hk =>
    have hall : Nat.count (hasGranule pop) (24 * k + c) = 24 * k + c := Nat.count_iff_forall.mpr fun i hi => by
      have := granules_capMin_le (i % 24) pop
      rw [hasGranule]
      omega
    rw [hall]
    exact Nat.mul_comm _ _
  case isFalse hk =>
    rw [Nat.count_add, count_rows, count_row hc.le, sum_min_split (fun d => granules_capMin_le d pop) (not_lt.mp hk),
      List.length_range, regionA]
    omega

/-- How many rows of granules the largest channels reach. -/
def allRows (pop : Word) : Nat := max (granules (fld pop 3 0)) (max (granules (fld pop 7 4)) (granules (fld pop 11 8)))

theorem granules_le_allRows (c : Nat) (pop : Word) : granules (channelCap c pop) ≤ allRows pop := by
  unfold allRows channelCap
  split
  · omega
  · split <;> omega

/-- Channels 0 to 7, 8 to 15 and 16 to 23 form the three groups of R111. -/
theorem sum_channels (f : Nat → Nat) (pop : Word) : ((List.range 24).map (fun d => f (channelCap d pop))).sum =
    8 * (f (fld pop 3 0) + f (fld pop 7 4) + f (fld pop 11 8)) := by
  have hrange : List.range 24 = List.range 8 ++ (List.range 8).map (8 + ·) ++ (List.range 8).map (16 + ·) := rfl
  have hgroup : ∀ b x, (∀ d < 8, channelCap (b + d) pop = x) →
      ((List.range 8).map (fun d => f (channelCap (b + d) pop))).sum = 8 * f x := fun b x hx => by
    rw [List.map_congr_left fun d hd => congrArg f (hx d (List.mem_range.mp hd)), List.map_const',
      List.sum_replicate, List.length_range, smul_eq_mul]
  have hlow := hgroup 0 (fld pop 3 0) fun d hd => by rw [channelCap, if_pos (by omega)]
  have hmid := hgroup 8 (fld pop 7 4) fun d hd => by rw [channelCap, if_neg (by omega), if_pos (by omega)]
  have hhigh := hgroup 16 (fld pop 11 8) fun d hd => by rw [channelCap, if_neg (by omega), if_neg (by omega)]
  simp only [Nat.zero_add] at hlow
  rw [hrange]
  simp only [List.map_append, List.map_map, List.sum_append, Function.comp_def, hlow, hmid, hhigh]
  omega

/-- R112: the capacity is that of the granules of all channels. -/
theorem dataCapacity_eq (pop : Word) : dataCapacity pop = 512 * Nat.count (hasGranule pop) (24 * allRows pop) := by
  have hall : ∀ d, min (allRows pop) (granules (channelCap d pop)) = granules (channelCap d pop) := fun d =>
    min_eq_right (granules_le_allRows d pop)
  have hgroups : dataCapacity pop =
    8 * (512 * granules (fld pop 3 0) + 512 * granules (fld pop 7 4) + 512 * granules (fld pop 11 8)) := rfl
  rw [count_rows, hgroups]
  simp only [hall, sum_channels granules]
  omega

/-- Settles O31: a granule's address is its place among the granules in the order of their rows, so the granules lie one
after another from 0 up to the capacity. -/
theorem granulesTileTheAddressSpace : Obligations.GranulesTileTheAddressSpace := by
  unfold Obligations.GranulesTileTheAddressSpace
  intro g0 g1 g2 _ _ _ _ _ _ pop
  refine ⟨fun c k hc hk => ?_, fun a ha => ?_, fun c k c' k' hc hc' hk hk' heq => ?_⟩
  · have hlast : Nat.count (hasGranule pop) (24 * k + c) < Nat.count (hasGranule pop) (24 * allRows pop) := by
      have := granules_le_allRows c pop
      exact Nat.count_strict_mono ((hasGranule_iff hc pop).mpr hk) (by omega)
    rw [granuleAddr_eq hc, dataCapacity_eq]
    omega
  · rw [dataCapacity_eq] at ha
    have hm : a / 512 < Nat.count (hasGranule pop) (24 * allRows pop) := by omega
    have hcard := fun hf => hm.trans_le (Nat.count_le_card (p := hasGranule pop) hf _)
    have hmem := Nat.nth_mem _ hcard
    have hcount := Nat.count_nth hcard
    generalize Nat.nth (hasGranule pop) (a / 512) = i at hmem hcount
    have hc : i % 24 < 24 := Nat.mod_lt _ (by omega)
    have haddr := granuleAddr_eq hc (i / 24) pop
    rw [Nat.div_add_mod, hcount] at haddr
    exact ⟨i % 24, i / 24, hc, hmem, by omega, by omega⟩
  · rw [granuleAddr_eq hc, granuleAddr_eq hc'] at heq
    have := Nat.count_injective ((hasGranule_iff hc pop).mpr hk) ((hasGranule_iff hc' pop).mpr hk')
      (Nat.eq_of_mul_eq_mul_left (by omega) heq)
    omega

end Sys2Proof.Machine
end

section
/-! What a report to the safety subsystem leaves alone, and what the updates of one context leave. -/

namespace Sys2Proof.Machine

open Sys2Proof.Config

/-! ### Reports to the safety subsystem (R187, R188, R394) -/

/-- The registers that a report may change: those of the safety block, and the count of lost events. -/
abbrev reportReg (o : Nat) : Prop := (0xA00000 ≤ o ∧ o < 0xB00000) ∨ o = 0xC00028

/-- `t` with everything that a report may change as `s` has it. -/
def reportFrom (s t : State) : State :=
  { t with regs := s.regs, saf := s.saf, cans := s.cans, srv := s.srv, mgt := s.mgt, outbox := s.outbox, freeCtr := s.freeCtr }

/-- Nothing changed but what a report to the safety subsystem may change. -/
structure ReportOnly (s t : State) : Prop where
  rest : reportFrom s t = s
  regs : ∀ o, ¬ reportReg o → getReg o t = getReg o s

namespace ReportOnly

variable {s t u : State}

theorem refl (s : State) : ReportOnly s s := ⟨rfl, fun _ _ => rfl⟩

theorem trans (h1 : ReportOnly s t) (h2 : ReportOnly t u) : ReportOnly s u :=
  ⟨calc reportFrom s u = reportFrom s (reportFrom t u) := rfl
      _ = s := by rw [h2.rest, h1.rest],
    fun o ho => (h2.regs o ho).trans (h1.regs o ho)⟩

theorem foldl {α : Type} {f : State → α → State} {l : List α} (hf : ∀ a ∈ l, ∀ s, ReportOnly s (f s a))
    (s : State) : ReportOnly s (l.foldl f s) := by
  induction l generalizing s with
  | nil => exact refl s
  | cons a l ih => exact (hf a List.mem_cons_self s).trans (ih (fun b hb => hf b (List.mem_cons_of_mem _ hb)) _)

theorem ite {c : Prop} [Decidable c] {a b : State} (ha : ReportOnly s a) (hb : ReportOnly s b) :
    ReportOnly s (if c then a else b) := by
  split
  · exact ha
  · exact hb

theorem setReg {o : Nat} (h : reportReg o) (v : Word) (s : State) : ReportOnly s (setReg o v s) :=
  ⟨rfl, fun _ hp => getReg_setReg_other _ _ (fun e => hp (e ▸ h))⟩

theorem cam (h : ReportOnly s t) : t.cam = s.cam := (congrArg State.cam h.rest :)

end ReportOnly

theorem reportOnly_raise (src : Nat) (ev : Ev) (code : Nat) (d : List (Option Word)) (s : State) :
    ReportOnly s (raise src ev code d s) := by
  have hframe := raise_frame src ev code d s
  exact ⟨(congrArg (reportFrom s) hframe :), fun o ho => getReg_raise o _ _ _ _ s fun e => ho (.inr e)⟩

theorem reportOnly_driveTen (s : State) : ReportOnly s (driveTen s) :=
  ⟨(congrArg (reportFrom s) (driveTen_frame s) :), fun o ho => driveTen_reg o s fun e => ho (by subst e; decide)⟩

theorem reportOnly_driveSafe (s : State) : ReportOnly s (driveSafe s) := .setReg (by decide) _ s

/-- What a latch bit that is set changes beside the events. -/
theorem reportOnly_latchBit (b : Nat) (ten : BitVec 16) (s : State) : ReportOnly s (latchBit b ten s) := by
  have hset (d : Tab (BitVec 16)) : ReportOnly s (modReg Reg.SAF_TEN_ARM (· &&& ~~~(ten.zeroExtend 32))
      (orReg Reg.SAF_LATCH (word (2 ^ b)) { s with saf := { s.saf with dropped := d } })) := by
    refine .trans ?_ (.setReg (o := Reg.SAF_TEN_ARM) (by decide) _ _)
    refine .trans ?_ (.setReg (o := Reg.SAF_LATCH) (by decide) _ _)
    exact ⟨rfl, fun _ _ => rfl⟩
  unfold latchBit
  exact .ite ((hset _).trans (reportOnly_raise _ _ _ _ _)) (hset _)

theorem reportOnly_putLatches (bs : List (Nat × BitVec 16)) (s : State) : ReportOnly s (putLatches bs s) :=
  (ReportOnly.foldl (fun e _ s => reportOnly_latchBit e.1 e.2 s) s).trans
    ((reportOnly_driveTen _).trans (reportOnly_driveSafe _))

theorem offerCan_frame (c : Nat) (s : State) : { offerCan c s with cans := s.cans } = s := by
  unfold offerCan
  dsimp only
  split
  · rfl
  · split <;> rfl

/-- A safety frame that is queued changes the controllers, the instant of the last frame, and SEQ. -/
theorem queueSafety_frame (s : State) :
    { queueSafety s with regs := s.regs, saf := s.saf, cans := s.cans } = s ∧
      regsKept [Reg.SAF_SF_SEQ] s (queueSafety s) := by
  unfold queueSafety
  split
  · extract_lets joins u c x v
    have hu : { u with regs := s.regs } = s ∧ regsKept [Reg.SAF_SF_SEQ] s u := by
      unfold u
      split
      · exact ⟨rfl, fun _ _ => rfl⟩
      · exact ⟨rfl, regsKept_setReg _ _ s⟩
    have hv : { v with cans := u.cans } = u := by
      unfold v
      split
      · rfl
      · have hoffer := offerCan_frame c (setCan c { x with safety := some (safetyFrame u) } u)
        exact congrArg (fun w : State => { w with cans := u.cans }) hoffer
    have hregs : v.regs = u.regs := (congrArg State.regs hv :)
    refine ⟨?_, fun o ho => ?_⟩
    · have hsv := congrArg (fun w : State => { w with regs := s.regs, saf := s.saf, cans := s.cans }) hv
      have hsu := congrArg (fun w : State => { w with saf := s.saf, cans := s.cans }) hu.1
      exact hsv.trans hsu
    · have hseq := hu.2 o ho
      simp only [getReg, hregs] at hseq ⊢
      exact hseq
  · exact ⟨rfl, fun _ _ => rfl⟩

theorem reportOnly_queueSafety (s : State) : ReportOnly s (queueSafety s) := by
  obtain ⟨hrest, hregs⟩ := queueSafety_frame s
  refine ⟨(congrArg (reportFrom s) hrest :), fun o ho => hregs o fun hmem => ho ?_⟩
  rw [List.mem_singleton.mp hmem]
  decide

theorem reportOnly_withFrame {f : State → State} {s : State} (hf : ReportOnly s (f s)) : ReportOnly s (withFrame f s) := by
  unfold withFrame
  exact .ite hf (hf.trans (reportOnly_queueSafety _))

theorem reportOnly_putInvalid (s : State) : ReportOnly s (putInvalid s) := by
  refine .trans (.foldl (fun k hk s => ?_) s) (.setReg (o := Reg.SAF_CMP_STAT) (by decide) _ _)
  have hk16 := List.mem_range.mp hk
  exact .setReg (o := Reg.SAF_CHKk_STAT k) (.inl (by simp only [Reg.SAF_CHKk_STAT]; omega)) _ s

theorem reportOnly_showInvalid (s : State) : ReportOnly s (showInvalid s) := reportOnly_withFrame (reportOnly_putInvalid s)

theorem reportOnly_latchInvalid (b : Nat) (s : State) : ReportOnly s (latchInvalid b s) :=
  reportOnly_withFrame ((reportOnly_putInvalid s).trans (reportOnly_putLatches _ _))

theorem reportOnly_reportCamera (c : Nat) (s : State) : ReportOnly s (reportCamera c s) :=
  .ite (reportOnly_latchInvalid _ s) (reportOnly_showInvalid s)

/-- A latch bit that is set stands (R394). -/
theorem regBit_latchInvalid {b : Nat} (hb : b < 32) (s : State) : regBit Reg.SAF_LATCH b (latchInvalid b s) = true := by
  have hput : ∀ u, regBit Reg.SAF_LATCH b (putLatches [(b, 0)] u) = true := fun u => by
    have hpins : ∀ v, getReg Reg.SAF_LATCH (driveSafe (driveTen v)) = getReg Reg.SAF_LATCH v := fun v =>
      (getReg_setReg_other _ _ (by decide)).trans (driveTen_reg _ v (by decide))
    have hlatch : getReg Reg.SAF_LATCH (latchBit b 0 u) = getReg Reg.SAF_LATCH u ||| word (2 ^ b) := by
      unfold latchBit
      dsimp only
      split
      · rw [getReg_raise _ _ _ _ _ _ (by decide)]
        exact (getReg_setReg_other _ _ (by decide)).trans (getReg_setReg_same _ _ _)
      · exact (getReg_setReg_other _ _ (by decide)).trans (getReg_setReg_same _ _ _)
    have hbit : bit (word (2 ^ b)) b = true := by
      rw [bit, word, BitVec.getLsbD_ofNat, Nat.testBit_two_pow_self, decide_eq_true hb, Bool.and_true]
    show bit (getReg Reg.SAF_LATCH (driveSafe (driveTen (latchBit b 0 u)))) b = true
    rw [hpins, hlatch, bit_or, hbit, Bool.or_true]
  unfold latchInvalid withFrame
  dsimp only
  split
  · exact hput _
  · rw [regBit, (queueSafety_frame _).2 Reg.SAF_LATCH (by decide)]
    exact hput _

/-! ### Updates of contexts and pipelines -/

/-- The state with other contexts and pipelines. -/
def camSet (xs : Tab Ctx) (ps : Tab Pipe) (s : State) : State := { s with cam := { s.cam with ctxs := xs, pipes := ps } }

theorem memKept_camSet (xs : Tab Ctx) (ps : Tab Pipe) (s : State) : memKept s (camSet xs ps s) :=
  ⟨fun sp _ => by cases sp <;> rfl, fun _ => rfl, rfl, rfl⟩

theorem memKept_setCtx (c : Nat) (x : Ctx) (s : State) : memKept s (setCtx c x s) := memKept_camSet _ s.cam.pipes s

theorem memKept_setStream (k : Nat) (x : Stream) (s : State) : memKept s (setStream k x s) :=
  ⟨fun sp _ => by cases sp <;> rfl, fun _ => rfl, rfl, rfl⟩

/-- `t` with everything that an update of contexts with its reports may change as `s` has it. -/
def ctxFrom (s t : State) : State :=
  { reportFrom s t with cam := { t.cam with ctxs := s.cam.ctxs } }

/-- Nothing changed but contexts, the listed registers, and what a report to the safety subsystem may change. -/
structure CtxOnly (rs : List Nat) (s t : State) : Prop where
  rest : ctxFrom s t = s
  regs : ∀ o, o ∉ rs → ¬ reportReg o → getReg o t = getReg o s

theorem ReportOnly.ctxOnly {rs : List Nat} {s t : State} (h : ReportOnly s t) : CtxOnly rs s t :=
  ⟨congrArg (fun u : State => { u with cam := { u.cam with ctxs := s.cam.ctxs } }) h.rest, fun o _ ho => h.regs o ho⟩

namespace CtxOnly

variable {rs : List Nat} {s t u : State}

theorem refl (s : State) : CtxOnly rs s s := ⟨rfl, fun _ _ _ => rfl⟩

theorem trans (h1 : CtxOnly rs s t) (h2 : CtxOnly rs t u) : CtxOnly rs s u :=
  ⟨calc ctxFrom s u = ctxFrom s (ctxFrom t u) := rfl
      _ = s := by rw [h2.rest, h1.rest],
    fun o hr ho => (h2.regs o hr ho).trans (h1.regs o hr ho)⟩

theorem ite {c : Prop} [Decidable c] {a b : State} (ha : CtxOnly rs s a) (hb : CtxOnly rs s b) :
    CtxOnly rs s (if c then a else b) := by
  split
  · exact ha
  · exact hb

theorem setReg {o : Nat} (h : o ∈ rs) (v : Word) (s : State) : CtxOnly rs s (setReg o v s) :=
  ⟨rfl, fun _ hp _ => getReg_setReg_other _ _ (fun e => hp (e ▸ h))⟩

theorem setCtx (c : Nat) (x : Ctx) (s : State) : CtxOnly rs s (setCtx c x s) := ⟨rfl, fun _ _ _ => rfl⟩

theorem clk (h : CtxOnly rs s t) : t.clk = s.clk := (congrArg State.clk h.rest :)
theorem disp (h : CtxOnly rs s t) : t.disp = s.disp := (congrArg State.disp h.rest :)
theorem streams (h : CtxOnly rs s t) : t.cam.streams = s.cam.streams := (congrArg (fun v : State => v.cam.streams) h.rest :)
theorem pipes (h : CtxOnly rs s t) : t.cam.pipes = s.cam.pipes := (congrArg (fun v : State => v.cam.pipes) h.rest :)

theorem mono {rs' : List Nat} (h : CtxOnly rs s t) (hsub : rs ⊆ rs') : CtxOnly rs' s t :=
  ⟨h.rest, fun o hr ho => h.regs o (fun hmem => hr (hsub hmem)) ho⟩

theorem memKept (h : CtxOnly rs s t) (hpop : Reg.MEM_POP ∉ rs) : Machine.memKept s t := by
  have hreg : getReg Reg.MEM_POP t = getReg Reg.MEM_POP s := h.regs _ hpop (by decide)
  have hread : ∀ sp a, rdByte sp a (ctxFrom s t) = rdByte sp a s := fun sp a => congrArg (rdByte sp a) h.rest
  refine ⟨fun sp a => ?_, fun a => (congrArg (hostByte a) h.rest :), (congrArg State.flash h.rest :),
    (congrArg State.fuses h.rest :)⟩
  have hhas : dramHas (memKey sp a) (ctxFrom s t) = dramHas (memKey sp a) t := by
    simp only [dramHas, hreg]
    rfl
  rw [← hread]
  unfold rdByte
  rw [hhas]
  cases sp <;> rfl

end CtxOnly

end Sys2Proof.Machine
end

section
/-! Enables of receivers, streams and contexts, sensor requests and latch points, and the settlement of O41. -/

namespace Sys2Proof.Machine

open Sys2Proof.Config

/-! ### What an enable shows (R171, R189) -/

/-- An enable as the registers show it: `ok` in bit 31 of the control register, and the code of a write of 1. -/
def showEnable (ctl stat : Nat) (v : Word) (ok on : Bool) (code : Nat) (s : State) : State :=
  let u := setReg ctl (setBit v 31 ok) s
  if on then setRegFld stat 23 16 code u else u

theorem showEnable_shows {ctl stat : Nat} (hne : ctl ≠ stat) (v : Word) (ok on : Bool) {code : Nat} (hcode : code < 256)
    (s : State) :
    let t := showEnable ctl stat v ok on code s
    regBit ctl 31 t = ok ∧ (on = true → regFld stat 23 16 t = code) ∧ onlyRegs [ctl, stat] s t ∧
      (ctl ≠ Reg.MEM_POP → stat ≠ Reg.MEM_POP → memKept s t) := by
  let u := setReg ctl (setBit v 31 ok) s
  have hctl : regBit ctl 31 u = ok := by rw [regBit_setReg_same, bit_setBit_same _ _ _ (by decide)]
  have hregs : onlyRegs [ctl] s u := onlyRegs_setReg _ _ s
  have hmem : ctl ≠ Reg.MEM_POP → memKept s u := memKept_setReg _ _ s
  cases on with
  | true =>
    refine ⟨(regBit_setReg_other _ _ u hne).trans hctl, fun _ => ?_, onlyRegs_trans hregs (onlyRegs_setReg _ _ u),
      fun hc hs => memKept_trans (hmem hc) (memKept_setReg _ _ u hs)⟩
    exact (regFld_setRegFld_same _ _ _ _ u (by decide)).trans (Nat.mod_eq_of_lt hcode)
  | false => exact ⟨hctl, nofun, ⟨fun o ho => hregs.1 o (by simp_all), hregs.2⟩, fun hc _ => hmem hc⟩

/-! ### Receivers and streams (R189) -/

theorem receiverEnable_shows (r : Nat) (v : Word) (s : State) :
    let t := receiverEnable r v s
    regBit (Reg.CAM_RXr_CTL r) 31 t = (bit v 31 && decide (fld v 2 0 ∈ [1, 2, 4])) ∧
      (bit v 31 = true → regFld (Reg.CAM_RXr_STAT r) 23 16 t = if fld v 2 0 = 0 then 0x01 else 0x00) ∧
      onlyRegs [Reg.CAM_RXr_CTL r, Reg.CAM_RXr_STAT r] s t := by
  have hne : Reg.CAM_RXr_CTL r ≠ Reg.CAM_RXr_STAT r := by simp only [Reg.CAM_RXr_CTL, Reg.CAM_RXr_STAT]; omega
  have hcode : (if fld v 2 0 = 0 then 0x01 else 0x00) < 256 := by split <;> decide
  have ht : receiverEnable r v s = showEnable (Reg.CAM_RXr_CTL r) (Reg.CAM_RXr_STAT r) (v &&& 0x8000000F)
      (bit v 31 && decide (fld v 2 0 = 1 ∨ fld v 2 0 = 2 ∨ fld v 2 0 = 4)) (bit v 31)
      (if fld v 2 0 = 0 then 0x01 else 0x00) s := rfl
  have hlanes : (fld v 2 0 ∈ [1, 2, 4]) = (fld v 2 0 = 1 ∨ fld v 2 0 = 2 ∨ fld v 2 0 = 4) := by simp
  obtain ⟨hctl, hshown, hregs, -⟩ := showEnable_shows hne (v &&& 0x8000000F)
    (bit v 31 && decide (fld v 2 0 = 1 ∨ fld v 2 0 = 2 ∨ fld v 2 0 = 4)) (bit v 31) hcode s
  simp only [ht, hlanes]
  exact ⟨hctl, hshown, hregs⟩

/-- Changes of contexts and pipelines, one after another. -/
theorem foldl_camSet {α : Type} {f : State → α → State} (hf : ∀ a s, ∃ xs ps, f s a = camSet xs ps s) (l : List α)
    (s : State) : ∃ xs ps, l.foldl f s = camSet xs ps s := by
  induction l generalizing s with
  | nil => exact ⟨s.cam.ctxs, s.cam.pipes, rfl⟩
  | cons a l ih =>
    obtain ⟨xs, ps, h⟩ := hf a s
    obtain ⟨xs', ps', h'⟩ := ih (camSet xs ps s)
    exact ⟨xs', ps', by rw [List.foldl_cons, h, h']; rfl⟩

/-- A stream that numbers its frames anew changes contexts alone. -/
theorem newSchedule_camSet (st : Nat) (s : State) : ∃ xs ps, newSchedule st s = camSet xs ps s := by
  refine foldl_camSet (fun c s => ?_) _ s
  split
  · exact ⟨_, s.cam.pipes, rfl⟩
  · exact ⟨s.cam.ctxs, s.cam.pipes, rfl⟩

theorem streamEnable_shows {k : Nat} (hk : k < 16) (v : Word) (s : State) :
    let t := streamEnable k v s
    let ok := decide (strW k s ≠ 0) && decide (strH k s ≠ 0) && decide (strDepth k s ≠ 0)
    regBit (Reg.CAM_STRs_CTL k) 31 t = (bit v 31 && ok) ∧
      (bit v 31 = true → regFld (Reg.CAM_STRs_ERR k) 23 16 t = if ok then 0x00 else 0x01) ∧
      (regBit (Reg.CAM_STRs_CTL k) 31 s = false ∨ (bit v 31 && ok) = false →
        getStream k t = { Stream.reset with frame := (getStream k s).frame, slots := (getStream k s).slots }) ∧
      regsKept [Reg.CAM_STRs_CTL k, Reg.CAM_STRs_ERR k] s t ∧ memKept s t := by
  intro t ok
  have hne : Reg.CAM_STRs_CTL k ≠ Reg.CAM_STRs_ERR k := by simp only [Reg.CAM_STRs_CTL, Reg.CAM_STRs_ERR]; omega
  have hpop : Reg.CAM_STRs_CTL k ≠ Reg.MEM_POP ∧ Reg.CAM_STRs_ERR k ≠ Reg.MEM_POP := by
    simp only [Reg.CAM_STRs_CTL, Reg.CAM_STRs_ERR, Reg.MEM_POP]; omega
  have hok : (decide (0 < strW k s) && decide (0 < strH k s) && decide (0 < strDepth k s)) = ok := by
    simp only [ok, Nat.pos_iff_ne_zero]
  have hcode : (if ok then 0x00 else 0x01) < 256 := by split <;> decide
  let w := showEnable (Reg.CAM_STRs_CTL k) (Reg.CAM_STRs_ERR k) (v &&& 0x800F0F3F) (bit v 31 && ok) (bit v 31)
    (if ok then 0x00 else 0x01) s
  obtain ⟨hctl, hshown, hregs, hkept⟩ : regBit (Reg.CAM_STRs_CTL k) 31 w = (bit v 31 && ok) ∧
      (bit v 31 = true → regFld (Reg.CAM_STRs_ERR k) 23 16 w = if ok then 0x00 else 0x01) ∧ _ ∧ _ :=
    showEnable_shows hne _ _ _ hcode s
  have hmem : memKept s w := hkept hpop.1 hpop.2
  have hstream : getStream k w = getStream k s := (congrArg (getStream k) hregs.2 :)
  let x : Stream := { Stream.reset with frame := (getStream k w).frame, slots := (getStream k w).slots }
  have ht : t = if bit v 31 && ok && regBit (Reg.CAM_STRs_CTL k) 31 s then w else newSchedule k (setStream k x w) := by
    simp only [t, streamEnable, hok]
    rfl
  rw [ht]
  split
  · next hon =>
    refine ⟨hctl, hshown, fun hnew => ?_, hregs.1, hmem⟩
    simp only [Bool.and_eq_true] at hon
    simp [hon] at hnew
  · obtain ⟨xs, ps, hxs⟩ := newSchedule_camSet k (setStream k x w)
    rw [hxs]
    refine ⟨hctl, hshown, fun _ => ?_, hregs.1, memKept_trans hmem ?_⟩
    rotate_left
    · exact memKept_trans (memKept_setStream _ _ w) (memKept_camSet _ _ _)
    rw [← hstream]
    exact getStream_setStream_same k x w

/-! ### Contexts (R171) -/

/-- Freeing pipelines leaves the contexts and the stripes in service. -/
theorem freePipes_camSet (c : Nat) (s : State) :
    ∃ ps, freePipes c s = camSet s.cam.ctxs ps s ∧ ∀ p, (getPipe p (freePipes c s)).busy = (getPipe p s).busy := by
  unfold freePipes
  generalize List.range 2 = l
  induction l generalizing s with
  | nil => exact ⟨s.cam.pipes, rfl, fun _ => rfl⟩
  | cons a l ih =>
    rw [List.foldl_cons]
    split
    · obtain ⟨ps, h, hbusy⟩ := ih (setPipe a { getPipe a s with locked := none } s)
      refine ⟨ps, h, fun p => (hbusy p).trans ?_⟩
      by_cases hp : p = a
      · rw [hp, getPipe_setPipe_same]
      · rw [getPipe_setPipe_other _ _ hp]
    · exact ih s

/-- Bits that lie outside a field leave it as it was. -/
theorem fld_or_of_zero (w : Word) {m : Word} {hi lo : Nat} (h : fld m hi lo = 0) : fld (w ||| m) hi lo = fld w hi lo := by
  refine Nat.eq_of_testBit_eq fun i => ?_
  have hm := fld_testBit m hi lo i
  rw [h, Nat.zero_testBit] at hm
  rw [fld_testBit, fld_testBit, BitVec.getLsbD_or, Bool.and_or_distrib_left, ← hm, Bool.or_false]

theorem contextEnable_shows {c : Nat} (hc : c < 16) (v : Word) (s : State) :
    let t := contextEnable c v s
    let n := fld v 8 0
    let zero := decide (n = 0) || decide (regFld (Reg.ISP_CTXc_FRZ c) 27 24 s = 0)
    let fits := regBit (Reg.CAM_STRs_CTL (fld v 23 20)) 31 s && decide (2 * n + 4 ≤ strDepth (fld v 23 20) s) &&
      decide (n % 8 = 0) && decide (8 ≤ n) && decide (n ≤ 256)
    regBit (Reg.ISP_CTXc_CTL c) 31 t = (bit v 31 && !zero && fits) ∧
      (bit v 31 = true → regFld (Reg.ISP_CTXc_STAT c) 23 16 t = if zero then 0x01 else 0x00) ∧
      (bit v 31 = true → zero = false → fits = false → regBit (Reg.ISP_CTXc_STAT c) 4 t = true) ∧ memKept s t := by
  intro t n zero fits
  have hne : Reg.ISP_CTXc_CTL c ≠ Reg.ISP_CTXc_STAT c := by simp only [Reg.ISP_CTXc_CTL, Reg.ISP_CTXc_STAT]; omega
  have hrep : ¬ reportReg (Reg.ISP_CTXc_CTL c) ∧ ¬ reportReg (Reg.ISP_CTXc_STAT c) := by
    simp only [reportReg, Reg.ISP_CTXc_CTL, Reg.ISP_CTXc_STAT]; omega
  have hpop : Reg.ISP_CTXc_CTL c ≠ Reg.MEM_POP ∧ Reg.ISP_CTXc_STAT c ≠ Reg.MEM_POP := by
    simp only [Reg.ISP_CTXc_CTL, Reg.ISP_CTXc_STAT, Reg.MEM_POP]; omega
  have hcode : (if zero then 0x01 else 0x00) < 256 := by split <;> decide
  let w := showEnable (Reg.ISP_CTXc_CTL c) (Reg.ISP_CTXc_STAT c) (v &&& 0xE0FC01FF) (bit v 31 && !zero && fits) (bit v 31)
    (if zero then 0x01 else 0x00) s
  let x := if bit v 31 && !zero && !fits then orReg (Reg.ISP_CTXc_STAT c) 0x10 w else w
  have hx : regBit (Reg.ISP_CTXc_CTL c) 31 x = (bit v 31 && !zero && fits) ∧
      (bit v 31 = true → regFld (Reg.ISP_CTXc_STAT c) 23 16 x = if zero then 0x01 else 0x00) ∧
      (bit v 31 = true → zero = false → fits = false → regBit (Reg.ISP_CTXc_STAT c) 4 x = true) ∧ memKept s x := by
    obtain ⟨hctl, hshown, -, hkept⟩ : regBit (Reg.ISP_CTXc_CTL c) 31 w = (bit v 31 && !zero && fits) ∧
        (bit v 31 = true → regFld (Reg.ISP_CTXc_STAT c) 23 16 w = if zero then 0x01 else 0x00) ∧ _ ∧ _ :=
      showEnable_shows hne _ _ _ hcode s
    have hmem : memKept s w := hkept hpop.1 hpop.2
    simp only [x]
    split
    · refine ⟨(regBit_setReg_other _ _ w hne).trans hctl, fun hon => ?_, fun _ _ _ => ?_,
        memKept_trans hmem (memKept_setReg _ _ w hpop.2)⟩
      · rw [← hshown hon, regFld, regFld, orReg_eq, getReg_setReg_same, fld_or_of_zero _ (by decide)]
      · simp [bit]
    · next hoff => exact ⟨hctl, hshown, fun hon hz hf => absurd (by simp [hon, hz, hf]) hoff, hmem⟩
  obtain ⟨hctl, hshown, hcfg, hmem⟩ := hx
  let y := setCtx c { getCtx c x with
      frames := [], lastHash := none, run := 0, frozen := false, absent := false,
      seenAt := now x, lastFrame := none, latches := [], latched := none, early := none } x
  have ht : t = if (bit v 31 && !zero && fits) && ctxOn c s then x else showInvalid (freePipes c y) := rfl
  rw [ht]
  split
  · exact ⟨hctl, hshown, hcfg, hmem⟩
  · obtain ⟨ps, hps, -⟩ := freePipes_camSet c y
    have hshow : ReportOnly (freePipes c y) (showInvalid (freePipes c y)) := reportOnly_showInvalid _
    have hregs : ∀ o, ¬ reportReg o → getReg o (showInvalid (freePipes c y)) = getReg o x := fun o ho => by
      rw [hshow.regs o ho, hps]; rfl
    refine ⟨?_, fun hon => ?_, fun hon hz hf => ?_, ?_⟩
    · rw [regBit, hregs _ hrep.1]; exact hctl
    · rw [regFld, hregs _ hrep.2]; exact hshown hon
    · rw [regBit, hregs _ hrep.2]; exact hcfg hon hz hf
    · have hfree : memKept x (freePipes c y) := by rw [hps]; exact memKept_camSet _ _ x
      exact memKept_trans hmem (memKept_trans hfree ((hshow.ctxOnly (rs := [])).memKept (by simp)))

/-! ### Sensor requests (R182 to R184) -/

/-- A request that its session may issue is served after the command has been entered, with the cameras and the memories as
they were (R182). -/
theorem exec_sensorReq {i : Issue} {q : SensorRequest} {s : State} (hi : mayIssue i Op.sensorReq allowHPM s = true) :
    ∃ u, u.cam = s.cam ∧ memKept s u ∧ exec (.sensorReq i q) s = .next (sensorReq i q u) := by
  have hrest : (beginCmd i Op.sensorReq s).cam = s.cam := (congrArg State.cam (beginCmd_frame i Op.sensorReq s).1 :)
  have hcam : (touchMaint i.via (beginCmd i Op.sensorReq s)).cam = s.cam := by
    unfold touchMaint
    split <;> exact hrest
  exact ⟨_, hcam, (taken_beginCmd i Op.sensorReq s).mem, congrArg Host.Outcome.next (command_runs _ _ _ _ _ hi)⟩

theorem getCtx_congr {s t : State} (h : t.cam = s.cam) (c : Nat) : getCtx c t = getCtx c s := by simp only [getCtx, h]

/-- The state in which bus `b` carries the writes of another request. -/
def setBus (b : Nat) (v : Option (Nat × Nat)) (s : State) : State :=
  { s with cam := { s.cam with buses := tset (fun _ => none) b v s.cam.buses } }

@[simp] theorem busRequest_setBus (b : Nat) (v : Option (Nat × Nat)) (s : State) : busRequest b (setBus b v s) = v :=
  tget_tset_same _ b v _

theorem busRequest_setCtx (b c : Nat) (x : Ctx) (s : State) : busRequest b (setCtx c x s) = busRequest b s := rfl

/-- Which frame a write governs does not rest on the buses. -/
theorem governedBy_setBus (b c : Nat) (v : Option (Nat × Nat)) (s : State) :
    governedBy c (latchFrame c (setBus b v s)) (setBus b v s) = governedBy c (latchFrame c s) s := by
  have hlatch : latchFrame c (setBus b v s) = latchFrame c s := by
    unfold latchFrame
    rfl
  rw [hlatch]
  rfl

/-- Putting things on an interface one after another. -/
theorem foldl_emit {α : Type} (f : α → Out) (l : List α) (s : State) :
    l.foldl (fun s a => emit (f a) s) s = { s with outbox := s.outbox ++ l.map f } := by
  induction l generalizing s with
  | nil => simp
  | cons a l ih => rw [List.foldl_cons, ih, List.map_cons, emit, List.append_assoc, List.singleton_append]

section
variable {b c : Nat} {q : SensorJob} {s : State} (hidle : busRequest b s = none) (hup : sensorClerkUp s = true)
  (hnext : nextRequest b s = some (c, q))
include hidle hup hnext

/-- R182: the latch point has passed, and an idle bus starts the writes of its next request. -/
theorem sensorWrite_starts (hmay : mayWrite c q.req.target s = true) :
    busRequest b (sensorWrite b s) = some (c, q.order) ∧
      (sensorWrite b s).outbox = s.outbox ++ q.req.writes.map (fun w => Out.sensorBus b w) ∧
      (sensorWrite b s).regs = s.regs ∧ memKept s (sensorWrite b s) := by
  simp only [sensorWrite, hidle, hup, hnext, hmay, Option.isSome_none, Bool.not_true, Bool.or_false, Bool.false_eq_true,
    if_false, if_true, foldl_emit]
  exact ⟨busRequest_setBus b _ _, rfl, rfl, fun sp _ => by cases sp <;> rfl, fun _ => rfl, rfl, rfl⟩

theorem sensorWrite_waits (hmay : mayWrite c q.req.target s = false) : sensorWrite b s = s := by
  simp only [sensorWrite, hidle, hup, hnext, hmay, Option.isSome_none, Bool.not_true, Bool.or_false, Bool.false_eq_true,
    if_false]

end

theorem ne_of_below {o p : Nat} (ho : 0x200000 ≤ o) (hp : p < 0x200000) : o ≠ p := (hp.trans_le ho).ne'

/-- A completion that is late in the ring order leaves the cameras, and a context's register that shows LATE. -/
theorem completeLate_keeps (i : Issue) (op code : Nat) (d : Word) (s : State) :
    (completeLate i op code d s).cam = s.cam ∧
      ∀ o, 0x200000 ≤ o → getReg o (completeLate i op code d s) = getReg o s := by
  obtain ⟨hrest, -⟩ := completeCmd_frame i op code d [] s
  have hcmd : ∀ o, 0x200000 ≤ o → getReg o (completeCmd i op code d [] s) = getReg o s := fun o ho =>
    completeCmd_reg o i op code d [] s (ne_of_below ho (by decide)) (ne_of_below ho (by decide))
  unfold completeLate
  dsimp only
  split
  · refine ⟨(congrArg State.cam hrest :), fun o ho => (?_ : getReg o _ = _).trans (hcmd o ho)⟩
    unfold ledgerCompletes showSession
    refine (getReg_setReg_other _ _ (ne_of_below ho (by decide))).trans ?_
    exact getReg_setReg_other _ _ (ne_of_below ho (by decide))
  · exact ⟨(congrArg State.cam hrest :), hcmd⟩

/-- The state in which a request has left the queue of its context, with the fields that its writes have set, before the
request completes. -/
def writesEnded (b c n : Nat) (q : SensorJob) (s : State) : State :=
  setCtx c { getCtx c s with
    requests := (getCtx c s).requests.filter (fun r => r.order ≠ n)
    written := (getCtx c s).written ++ [(q.req.expected, q.req.target, s.clk.tick)] } (setBus b none s)

section
variable {b c n : Nat} {q : SensorJob} {s : State} (hbus : busRequest b s = some (c, n))
  (hq : (getCtx c s).requests.find? (fun q => q.order = n) = some q)
include hbus hq

/-- A request that completes is late when the frame that its writes will govern is past its target. -/
theorem sensorDone_eq : ∃ code, sensorDone b s = completeLate q.issue Op.sensorReq code 0 (useFree
    (if later 32 (governedBy c (latchFrame c s) s).toNat q.req.target.toNat then
      orReg (Reg.ISP_CTXc_STAT c) 1 (writesEnded b c n q s) else writesEnded b c n q s)) := by
  have hq' : (getCtx c (setBus b none s)).requests.find? (fun q => q.order = n) = some q := hq
  have hgoverned := governedBy_setBus b c none s
  simp only [setBus] at hq' hgoverned
  simp only [sensorDone, hbus, hq', hgoverned]
  exact ⟨_, rfl⟩

/-- R183: the writes of a request have ended. It leaves the queue, its fields wait for a latch point, and LATE shows when the
frame that they will govern is past its target. -/
theorem sensorDone_completes :
    let t := sensorDone b s
    busRequest b t = none ∧ (getCtx c t).requests = (getCtx c s).requests.filter (fun r => r.order ≠ n) ∧
      (getCtx c t).written = (getCtx c s).written ++ [(q.req.expected, q.req.target, s.clk.tick)] ∧
      (later 32 (governedBy c (latchFrame c s) s).toNat q.req.target.toNat = true →
        regBit (Reg.ISP_CTXc_STAT c) 0 t = true) := by
  obtain ⟨code, ht⟩ := sensorDone_eq hbus hq
  rw [ht]
  generalize later 32 (governedBy c (latchFrame c s) s).toNat q.req.target.toNat = late
  generalize hv : (if late then orReg (Reg.ISP_CTXc_STAT c) 1 (writesEnded b c n q s) else writesEnded b c n q s) = v
  have hcamv : v.cam = (writesEnded b c n q s).cam := by rw [← hv]; split <;> rfl
  obtain ⟨hcam, hreg⟩ := completeLate_keeps q.issue Op.sensorReq code 0 (useFree v)
  generalize completeLate q.issue Op.sensorReq code 0 (useFree v) = t at hcam hreg
  rw [useFree_cam, hcamv] at hcam
  have hctx : getCtx c t = getCtx c (writesEnded b c n q s) := getCtx_congr hcam c
  have hfree : busRequest b t = busRequest b (writesEnded b c n q s) := by simp only [busRequest, hcam]
  dsimp only
  rw [hctx, hfree, writesEnded, getCtx_setCtx_same, busRequest_setCtx, busRequest_setBus]
  refine ⟨rfl, rfl, rfl, fun hlate => ?_⟩
  rw [regBit, hreg _ (by simp only [Reg.ISP_CTXc_STAT]; omega), getReg_useFree, ← hv, if_pos hlate, orReg_eq,
    getReg_setReg_same, bit_or]
  simp [bit]

end

/-- R181: a latch point that passes takes in the writes that ended in an earlier tick; those of its own tick wait on. -/
theorem latchPoint_takes {c at_ : Nat} {g : Word} {r : List (Word × Nat)} {s : State}
    (hl : (getCtx c s).latches = (g, at_) :: r) :
    let t := latchPoint c s
    now t = max (now s) at_ ∧ (getCtx c t).latches = r ∧ (getCtx c t).latched = some g ∧
      (getCtx c t).written = (getCtx c s).written.filter (fun w => decide (w.2.2 = t.clk.tick)) ∧ memKept s t := by
  obtain ⟨x, hx, hlatches, hlatched, hwritten⟩ : ∃ x : Ctx, latchPoint c s = setCtx c x (runTo at_ s) ∧
      x.latches = r ∧ x.latched = some g ∧
      x.written = (getCtx c s).written.filter (fun w => decide (w.2.2 = (runTo at_ s).clk.tick)) := by
    unfold latchPoint
    simp only [hl]
    refine ⟨_, rfl, ?_⟩
    split_ifs
    · exact ⟨rfl, rfl, rfl⟩
    · exact ⟨rfl, rfl, rfl⟩
  simp only [hx, getCtx_setCtx_same]
  exact ⟨now_runTo _ _, hlatches, hlatched, hwritten, memKept_trans (memKept_runTo _ s) (memKept_setCtx _ _ _)⟩

/-- Settles O41: a write that takes effect now enables a block or shows why it does not; and a request goes through its queue,
its bus and a latch point. -/
theorem cameraSettings : Obligations.CameraSettings := by
  unfold Obligations.CameraSettings
  refine ⟨⟨fun w r v s hw => ?_, fun w k v s hw => ?_, fun w c v s hw => ?_⟩, fun i q s hi => ?_,
    fun b c q s hidle hup hnext => ?_, fun b c n q s hbus hq => ⟨_, rfl, sensorDone_completes hbus hq⟩,
    fun c g at_ r s hl => ⟨_, rfl, latchPoint_takes hl⟩⟩
  · exact ⟨_, congrArg Host.Outcome.next (asWriter_now w _ _ s hw), receiverEnable_shows r v (usedBy w s)⟩
  · intro ok
    have hok : (decide (strW k (usedBy w s) ≠ 0) && decide (strH k (usedBy w s) ≠ 0) &&
        decide (strDepth k (usedBy w s) ≠ 0)) = ok := by
      simp only [strW, strH, strDepth, regFld, getReg_usedBy]
      rfl
    obtain ⟨hctl, hcode, hstream, hregs, hmem⟩ := streamEnable_shows k.isLt v (usedBy w s)
    have hget : getStream k (usedBy w s) = getStream k s := by cases w <;> rfl
    rw [hok] at hctl hcode hstream
    rw [hget, regBit, getReg_usedBy, ← regBit] at hstream
    exact ⟨_, congrArg Host.Outcome.next (asWriter_now w _ _ s hw), hctl, hcode, hstream,
      fun o ho => (hregs o ho).trans (getReg_usedBy _ _ _), memKept_trans (memKept_usedBy w s) hmem⟩
  · intro n zero fits
    have hreg := fun o => getReg_usedBy o w s
    obtain ⟨hctl, hcode, hcfg, hmem⟩ := contextEnable_shows c.isLt v (usedBy w s)
    simp only [regBit, regFld, strDepth, hreg] at hctl hcode hcfg
    exact ⟨_, congrArg Host.Outcome.next (asWriter_now w _ _ s hw), hctl, hcode, hcfg,
      memKept_trans (memKept_usedBy w s) hmem⟩
  · intro x
    obtain ⟨u, hcam, hmem, hexec⟩ := exec_sensorReq (q := q) hi
    have hctx : getCtx q.context u = x := getCtx_congr hcam _
    refine ⟨fun hroom => ⟨_, hexec, ?_⟩, fun hfull => ⟨_, hexec, ?_⟩⟩
    · simp only [sensorReq, hctx, Nat.not_le.mpr hroom, if_false, hcam, getCtx_setCtx_same]
      exact ⟨trivial, memKept_trans hmem (memKept_camSet _ _ _)⟩
    · simp only [sensorReq, hctx, hfull, if_true]
      exact (congrArg State.cam (completeCmd_frame i Op.sensorReq Code.overrun (word 0) [] u).1 :).trans hcam
  · exact ⟨fun hmay => ⟨_, rfl, sensorWrite_starts hidle hup hnext hmay⟩,
      fun hmay => congrArg Host.Outcome.next (sensorWrite_waits hidle hup hnext hmay)⟩

end Sys2Proof.Machine
end

section
/-! The settings of contexts and streams, and what the commits of a context's frames leave alone. -/

namespace Sys2Proof.Machine

open Sys2Proof.Config

/-! ### Settings of contexts and streams -/

/-- The registers that set contexts, receivers and streams; what these report stands in the upper half of each row. -/
abbrev settingReg (o : Nat) : Prop := 0x200100 ≤ o ∧ o < 0x400000 ∧ o % 32 < 16

/-- Contexts and streams are set alike. -/
def SameSettings (s t : State) : Prop := ∀ o, settingReg o → getReg o t = getReg o s

theorem ctxOf_lt {st c : Nat} {s : State} (h : ctxOf st s = some c) : c < 16 :=
  List.mem_range.mp (List.mem_of_find?_eq_some h)

theorem ctxStream_lt (c : Nat) (s : State) : ctxStream c s < 16 := fld_lt _ 23 20

namespace SameSettings

variable {s t : State} (h : SameSettings s t) {c k : Nat}
include h

theorem ctxCtl (hc : c < 16) : getReg (Reg.ISP_CTXc_CTL c) t = getReg (Reg.ISP_CTXc_CTL c) s :=
  h _ (by simp only [settingReg, Reg.ISP_CTXc_CTL]; omega)
theorem strSize (hk : k < 16) : getReg (Reg.CAM_STRs_SIZE k) t = getReg (Reg.CAM_STRs_SIZE k) s :=
  h _ (by simp only [settingReg, Reg.CAM_STRs_SIZE]; omega)
theorem strGeom (hk : k < 16) : getReg (Reg.CAM_STRs_GEOM k) t = getReg (Reg.CAM_STRs_GEOM k) s :=
  h _ (by simp only [settingReg, Reg.CAM_STRs_GEOM]; omega)

theorem strW (hk : k < 16) : Machine.strW k t = Machine.strW k s := by simp only [Machine.strW, regFld, h.strSize hk]
theorem strH (hk : k < 16) : Machine.strH k t = Machine.strH k s := by simp only [Machine.strH, regFld, h.strSize hk]
theorem strDepth (hk : k < 16) : Machine.strDepth k t = Machine.strDepth k s := by
  simp only [Machine.strDepth, regFld, h.strGeom hk]
theorem strPitch (hk : k < 16) : Machine.strPitch k t = Machine.strPitch k s := by
  simp only [Machine.strPitch, regFld, h.strGeom hk]

theorem ctxStream (hc : c < 16) : Machine.ctxStream c t = Machine.ctxStream c s := by
  simp only [Machine.ctxStream, regFld, h.ctxCtl hc]

theorem ctxOf (st : Nat) : Machine.ctxOf st t = Machine.ctxOf st s :=
  List.find?_congr fun c hc => by
    have hc16 := List.mem_range.mp hc
    simp only [ctxOn, regBit, h.ctxCtl hc16, h.ctxStream hc16]

theorem stripeLines (hc : c < 16) (i : Nat) : Machine.stripeLines c i t = Machine.stripeLines c i s := by
  simp only [Machine.stripeLines, h.ctxStream hc, h.strH (ctxStream_lt c s), regFld, h.ctxCtl hc]

theorem stripeCount (hc : c < 16) : Machine.stripeCount c t = Machine.stripeCount c s := by
  simp only [Machine.stripeCount, h.ctxStream hc, h.strH (ctxStream_lt c s), regFld, h.ctxCtl hc]

theorem stripeNeeds (hc : c < 16) (i : Nat) : Machine.stripeNeeds c i t = Machine.stripeNeeds c i s := by
  simp only [Machine.stripeNeeds, h.stripeLines hc, h.ctxStream hc, h.strH (ctxStream_lt c s)]

theorem lineNeeded (hc : c < 16) (f : CtxFrame) (y : Nat) : Machine.lineNeeded c f y t = Machine.lineNeeded c f y s := by
  simp only [Machine.lineNeeded, h.stripeCount hc, h.stripeNeeds hc]

theorem slotNeeded (hcam : t.cam = s.cam) (hk : k < 16) (y : Nat) : Machine.slotNeeded k y t = Machine.slotNeeded k y s := by
  simp only [Machine.slotNeeded, h.ctxOf, h.strDepth hk, getStream, getCtx, hcam]
  cases hc : Machine.ctxOf k s with
  | none => rfl
  | some c =>
    generalize tget (fun _ => none) _ _ = slot
    cases slot with
    | none => rfl
    | some held => simp only [h.lineNeeded (ctxOf_lt hc)]

end SameSettings

/-! ### What commits leave alone -/

/-- The registers of contexts, receivers and streams. -/
abbrev camReg (o : Nat) : Prop := 0x200100 ≤ o ∧ o < 0x400000

/-- What a context reports of its frames. -/
abbrev ctxReports (c : Nat) : List Nat := [Reg.ISP_CTXc_STAT c, Reg.ISP_CTXc_FRAME c, Reg.ISP_CTXc_CORRUPT c]

/-- Time, the streams, the stripes in service, and the registers of contexts and streams but the listed ones are as they
were. -/
structure CamKept (rs : List Nat) (s t : State) : Prop where
  clk : t.clk = s.clk
  streams : t.cam.streams = s.cam.streams
  busy : ∀ p, (getPipe p t).busy = (getPipe p s).busy
  regs : ∀ o, camReg o → o ∉ rs → getReg o t = getReg o s

namespace CamKept

variable {rs : List Nat} {s t u : State}

theorem refl (s : State) : CamKept rs s s := ⟨rfl, rfl, fun _ => rfl, fun _ _ _ => rfl⟩

theorem trans (h1 : CamKept rs s t) (h2 : CamKept rs t u) : CamKept rs s u :=
  ⟨h2.clk.trans h1.clk, h2.streams.trans h1.streams, fun p => (h2.busy p).trans (h1.busy p),
    fun o ho hr => (h2.regs o ho hr).trans (h1.regs o ho hr)⟩

theorem foldl {α : Type} {f : State → α → State} (hf : ∀ s a, CamKept rs s (f s a)) (l : List α) (s : State) :
    CamKept rs s (l.foldl f s) := by
  induction l generalizing s with
  | nil => exact refl s
  | cons a l ih => exact (hf s a).trans (ih _)

theorem ite {c : Prop} [Decidable c] {a b : State} (ha : CamKept rs s a) (hb : CamKept rs s b) :
    CamKept rs s (if c then a else b) := by
  split
  · exact ha
  · exact hb

theorem mono {rs' : List Nat} (h : CamKept rs s t) (hsub : rs ⊆ rs') : CamKept rs' s t :=
  ⟨h.clk, h.streams, h.busy, fun o ho hr => h.regs o ho fun hmem => hr (hsub hmem)⟩

/-- Nothing but registers apart from the kept ones, and no camera, changed. -/
theorem of_cam (hclk : t.clk = s.clk) (hcam : t.cam = s.cam)
    (hregs : ∀ o, camReg o → o ∉ rs → getReg o t = getReg o s) : CamKept rs s t :=
  ⟨hclk, by rw [hcam], fun p => by simp only [getPipe, hcam], hregs⟩

theorem of_regs (hclk : t.clk = s.clk) (hcam : t.cam = s.cam) (hregs : t.regs = s.regs) : CamKept rs s t :=
  of_cam hclk hcam fun _ _ _ => by simp only [getReg, hregs]

theorem setReg {o : Nat} (h : o ∈ rs ∨ ¬ camReg o) (v : Word) (s : State) : CamKept rs s (setReg o v s) :=
  of_cam rfl rfl fun _ hp hr => getReg_setReg_other _ _ fun e => h.elim (fun hm => hr (e ▸ hm)) fun hn => hn (e ▸ hp)

end CamKept

theorem CtxOnly.useFree {rs : List Nat} (s : State) : CtxOnly rs s (useFree s) := ⟨rfl, fun _ _ _ => rfl⟩

theorem CtxOnly.camKept {rs : List Nat} {s t : State} (h : CtxOnly rs s t) : CamKept rs s t :=
  ⟨h.clk, h.streams, fun p => by simp only [getPipe, h.pipes], fun o ho hr => h.regs o hr fun hrep => by
    obtain ⟨hlow, hhigh⟩ := ho
    rcases hrep with hsaf | hlost <;> omega⟩

theorem MemOnly.camKept {rs : List Nat} {s t : State} (h : MemOnly s t) : CamKept rs s t := by
  have herr : ∀ p ∈ errRegs, ¬ camReg p := by decide
  exact .of_cam h.clk (congrArg State.cam h.rest :) fun o ho _ => h.regs o fun hmem => herr o hmem ho

theorem camKept_camSet {rs : List Nat} (xs : Tab Ctx) {ps : Tab Pipe} {s : State}
    (h : ∀ p, (getPipe p (camSet xs ps s)).busy = (getPipe p s).busy) : CamKept rs s (camSet xs ps s) :=
  ⟨rfl, rfl, h, fun _ _ _ => rfl⟩

theorem camKept_setCtx {rs : List Nat} (c : Nat) (x : Ctx) (s : State) : CamKept rs s (setCtx c x s) :=
  camKept_camSet _ (ps := s.cam.pipes) fun _ => rfl

theorem camKept_unlockPipe {rs : List Nat} (c : Nat) (s : State) : CamKept rs s (unlockPipe c s) := by
  unfold unlockPipe
  refine .ite (.refl s) ?_
  obtain ⟨ps, hps, hbusy⟩ := freePipes_camSet c s
  rw [hps] at hbusy ⊢
  exact camKept_camSet _ hbusy

theorem camKept_commitOut {rs : List Nat} (k : Nat) (s : State) : CamKept rs s (commitOut k s) := .of_regs rfl rfl rfl

theorem camKept_setHandoff {rs : List Nat} (k : Nat) (h : Handoff) (s : State) : CamKept rs s (setHandoff k h s) :=
  .of_regs rfl rfl rfl

theorem camKept_commitOutput {rs : List Nat} (c o : Nat) (param : List Byte) (s : State) :
    CamKept rs s (commitOutput c o param s) := (camKept_setHandoff _ _ s).trans (camKept_commitOut _ _)

/-- The commit of an output flips its handoff alone. -/
theorem getHandoff_commitOutput {c o j : Nat} (param : List Byte) (s : State) (h : j ≠ ctxKey c o) :
    getHandoff j (commitOutput c o param s) = getHandoff j s :=
  (getHandoff_setHandoff_other _ _ h).trans (getHandoff_setHandoff_other _ _ h)

/-! ### Commits (R166, R170, R187) -/

theorem setFrozen_cases (c : Nat) (x : Ctx) (s : State) :
    CtxOnly [Reg.ISP_CTXc_STAT c] s (setFrozen c x s) ∧
      ∃ b, (setFrozen c x s).cam = (setCtx c { x with frozen := b } s).cam := by
  unfold setFrozen
  extract_lets frozen u
  have hu : CtxOnly [Reg.ISP_CTXc_STAT c] s u := .setCtx c _ s
  have hstat : CtxOnly [Reg.ISP_CTXc_STAT c] u (orReg (Reg.ISP_CTXc_STAT c) 4 u) := .setReg List.mem_cons_self _ u
  have hreport := reportOnly_reportCamera c (orReg (Reg.ISP_CTXc_STAT c) 4 u)
  have hshow := reportOnly_showInvalid u
  split
  · exact ⟨hu.trans (hstat.trans hreport.ctxOnly), frozen, hreport.cam⟩
  · split
    · exact ⟨hu.trans hshow.ctxOnly, frozen, hshow.cam⟩
    · exact ⟨hu, frozen, rfl⟩

theorem frames_setFrozen (c d : Nat) (x : Ctx) (s : State) :
    (getCtx d (setFrozen c x s)).frames = if d = c then x.frames else (getCtx d s).frames := by
  obtain ⟨-, b, hcam⟩ := setFrozen_cases c x s
  rw [getCtx_congr hcam]
  split
  · next h => rw [h, getCtx_setCtx_same]
  · next h => rw [getCtx_setCtx_other _ _ h]

theorem ctxKey_inj {c o p : Nat} (h : ctxKey c o = ctxKey c p) : o = p := by
  simp only [ctxKey, handoffKey] at h
  omega

/-- A frame commits: first the statistics record, which flips the handoff of the statistics alone, then its number and, when it
is corrupt, the count of such frames; the outputs of a frame that is not corrupt come last. -/
theorem commitFrame_eq (c : Nat) (f : CtxFrame) (s : State) :
    ∃ v, CamKept [Reg.ISP_CTXc_STAT c] s v ∧ (∀ k, k ≠ ctxKey c 7 → getHandoff k v = getHandoff k s) ∧
      commitFrame c f s = if f.corrupt then bumpReg (Reg.ISP_CTXc_CORRUPT c) 1 (setReg (Reg.ISP_CTXc_FRAME c) f.number v)
        else (List.range 7).foldl (fun s o => if outputOn f.param o && f.begun && decide (o ∉ f.skipped) then
          commitOutput c o f.param s else s) (setReg (Reg.ISP_CTXc_FRAME c) f.number v) := by
  unfold commitFrame
  extract_lets x u frozen u' captured w k a v
  refine ⟨v, ?_, ?_, rfl⟩
  all_goals
    have hu : CtxOnly [Reg.ISP_CTXc_STAT c] s u := (setFrozen_cases c _ s).1
    have hw : CtxOnly [Reg.ISP_CTXc_STAT c] s w := by
      exact hu.trans (.trans (t := u') (.ite (.setReg List.mem_cons_self _ u) (.refl u)) (.useFree u'))
  · refine hw.camKept.trans (.ite (.setReg (.inr (by decide)) _ w) ?_)
    exact (writesOnly_wrBytes _ _ _ w).memOnly.camKept.trans (camKept_commitOutput c 7 f.param _)
  · intro j hj
    rw [← getHandoff_congr (congrArg Dispatcher.handoffs hw.disp) j]
    simp only [v]
    split
    · rfl
    · have hdisp := (writesOnly_wrBytes a.1 a.2 (statRecord f captured frozen) w).disp
      rw [← getHandoff_congr (congrArg Dispatcher.handoffs hdisp) j]
      exact getHandoff_commitOutput f.param _ hj

theorem camKept_commitFrame (c : Nat) (f : CtxFrame) (s : State) : CamKept (ctxReports c) s (commitFrame c f s) := by
  obtain ⟨v, hv, -, heq⟩ := commitFrame_eq c f s
  rw [heq]
  have hframe : CamKept (ctxReports c) s (setReg (Reg.ISP_CTXc_FRAME c) f.number v) :=
    (hv.mono (by simp)).trans (.setReg (.inl (by simp)) _ v)
  refine .ite (hframe.trans (.setReg (.inl (by simp)) _ _)) (hframe.trans (.foldl (fun s o => ?_) _ _))
  exact .ite (camKept_commitOutput c o f.param s) (.refl s)

theorem camKept_settleGo (c fuel : Nat) (s : State) : CamKept (ctxReports c) s (settleGo c fuel s) := by
  induction fuel generalizing s with
  | zero => exact .refl s
  | succ fuel ih =>
    unfold settleGo
    split
    · exact .ite ((camKept_commitFrame c _ s).trans (ih _)) (.refl s)
    · exact .refl s

theorem camKept_settleCtx (c : Nat) (s : State) : CamKept (ctxReports c) s (settleCtx c s) :=
  (camKept_setCtx c _ s).trans ((camKept_settleGo c _ _).trans (camKept_unlockPipe c _))

/-- R166: a corrupt frame commits its record and is counted, and none of its outputs flips. -/
theorem commitFrame_corrupt {c : Nat} (hc : c < 16) {f : CtxFrame} (s : State) (hf : f.corrupt = true) :
    let t := commitFrame c f s
    getReg (Reg.ISP_CTXc_FRAME c) t = f.number ∧
      getReg (Reg.ISP_CTXc_CORRUPT c) t = countUp (getReg (Reg.ISP_CTXc_CORRUPT c) s) 1 ∧
      (∀ o < 7, getHandoff (ctxKey c o) t = getHandoff (ctxKey c o) s) := by
  obtain ⟨v, hv, hother, heq⟩ := commitFrame_eq c f s
  have hne : Reg.ISP_CTXc_FRAME c ≠ Reg.ISP_CTXc_CORRUPT c := by simp only [Reg.ISP_CTXc_FRAME, Reg.ISP_CTXc_CORRUPT]; omega
  have hcount : getReg (Reg.ISP_CTXc_CORRUPT c) v = getReg (Reg.ISP_CTXc_CORRUPT c) s :=
    hv.regs _ (by simp only [camReg, Reg.ISP_CTXc_CORRUPT]; omega) (by simp)
  simp only [heq, hf, if_true, bumpReg_eq]
  refine ⟨?_, ?_, fun o ho => ?_⟩
  · rw [getReg_setReg_other _ _ hne, getReg_setReg_same]
  · rw [getReg_setReg_same, getReg_setReg_other _ _ hne.symm, hcount]
  · exact hother _ fun e => ho.ne (ctxKey_inj e)

end Sys2Proof.Machine
end

section
/-! Frames that stay in their contexts, and what the events of a stream leave: frames that turn out corrupt, starts and ends of
frames, lines and embedded lines. -/

namespace Sys2Proof.Machine

open Sys2Proof.Config

/-! ### Frames that stay in their contexts (R166, R170) -/

/-- With `n` stripes to decide, a frame has a stripe that is ready or in a pipeline, or waits for lines that can still land. -/
def FrameStays (n : Nat) (f : CtxFrame) : Prop :=
  f.ready ≠ [] ∨ f.running.isSome = true ∨ (f.decided < n ∧ f.gone = [] ∧ f.ended = false)

/-- The oldest frame stays, so that none commits. -/
def HeadStays (n : Nat) (l : List CtxFrame) : Prop := ∀ f, l.head? = some f → FrameStays n f

theorem HeadStays.map {n : Nat} {l : List CtxFrame} (h : HeadStays n l) {g : CtxFrame → CtxFrame}
    (hg : ∀ f, FrameStays n f → FrameStays n (g f)) : HeadStays n (l.map g) := by
  intro f hf
  rw [List.head?_map] at hf
  obtain ⟨f', hf', rfl⟩ := Option.map_eq_some_iff.mp hf
  exact hg f' (h f' hf')

theorem HeadStays.of_zero {l : List CtxFrame} (h : HeadStays 0 l) (n : Nat) : HeadStays n l := fun f hf =>
  (h f hf).imp_right fun hrest => hrest.imp_right fun hwait => absurd hwait.1 (Nat.not_lt_zero _)

/-- Deciding stripes takes no stripe away that is ready or in a pipeline. -/
theorem decideStripes_busy (c : Nat) (s : State) (fuel : Nat) {f : CtxFrame} (h : f.ready ≠ [] ∨ f.running.isSome = true) :
    (decideStripes c s fuel f).ready ≠ [] ∨ (decideStripes c s fuel f).running.isSome = true := by
  induction fuel generalizing f with
  | zero => exact h
  | succ fuel ih =>
    simp only [decideStripes]
    split_ifs
    · exact h
    · exact ih h
    · exact ih (.inl (by simp))
    · exact h

/-- A frame all of whose lines can still land loses no stripe: its next one becomes ready, or waits on. -/
theorem FrameStays.decideStripes {c : Nat} {s : State} {f : CtxFrame} (h : FrameStays (stripeCount c s) f) (fuel : Nat) :
    FrameStays (stripeCount c s) (decideStripes c s fuel f) := by
  rcases h with hready | hrunning | ⟨hdecided, hgone, hended⟩
  · exact (decideStripes_busy c s fuel (.inl hready)).imp_right .inl
  · exact (decideStripes_busy c s fuel (.inr hrunning)).imp_right .inl
  · have hlands : ∀ need : List Nat,
        need.any (fun y => decide (y ∈ f.gone) || (f.ended && decide (f.lines ≤ y))) = false :=
      fun need => by simp [hgone, hended]
    cases fuel with
    | zero => exact .inr (.inr ⟨hdecided, hgone, hended⟩)
    | succ fuel =>
      simp only [Machine.decideStripes, Nat.not_le.mpr hdecided, hlands, if_false, Bool.false_eq_true]
      split
      · exact (decideStripes_busy c s fuel (.inl (by simp))).imp_right .inl
      · exact .inr (.inr ⟨hdecided, hgone, hended⟩)

theorem FrameStays.stripesDone {c : Nat} {s : State} {f : CtxFrame} (h : FrameStays (stripeCount c s) f) :
    stripesDone c f s = false := by
  rcases h with hready | hrunning | ⟨hdecided, -, -⟩
  · simp [Machine.stripesDone, hready]
  · simp [Machine.stripesDone, hrunning]
  · simp [Machine.stripesDone, hdecided]

/-- While the oldest frame stays, a context is brought up to date without a commit. -/
theorem settleCtx_stays {c : Nat} {s : State} (h : HeadStays (stripeCount c s) (getCtx c s).frames) :
    ∃ xs ps, settleCtx c s = camSet xs ps s := by
  have hgo (fuel : Nat) {u : State} (hu : HeadStays (stripeCount c u) (getCtx c u).frames) : settleGo c fuel u = u := by
    cases fuel with
    | zero => rfl
    | succ fuel =>
      unfold settleGo
      split
      · next f l hl =>
        have hdone := (hu f (by rw [hl]; rfl)).stripesDone
        rw [hdone]
        exact if_neg (by simp)
      · rfl
  unfold settleCtx
  extract_lets x u
  have hu : settleGo c x.frames.length u = u := hgo _ (by
    rw [getCtx_setCtx_same]
    exact h.map fun f hf => hf.decideStripes _)
  rw [hu]
  unfold unlockPipe
  split
  · exact ⟨_, s.cam.pipes, rfl⟩
  · obtain ⟨ps, hps, -⟩ := freePipes_camSet c u
    exact ⟨u.cam.ctxs, ps, hps⟩

theorem settleStream_stays {k : Nat} {s : State}
    (h : ∀ c, ctxOf k s = some c → HeadStays (stripeCount c s) (getCtx c s).frames) :
    ∃ xs ps, settleStream k s = camSet xs ps s := by
  unfold settleStream
  split
  · exact ⟨s.cam.ctxs, s.cam.pipes, rfl⟩
  · next c hc => exact settleCtx_stays (h c hc)

/-! ### What a stream's contexts leave alone -/

/-- Time, the streams, and the registers but those that contexts report in are as they were. -/
structure StreamKept (s t : State) : Prop where
  clk : t.clk = s.clk
  streams : t.cam.streams = s.cam.streams
  regs : ∀ o, camReg o → 0x300000 ≤ o ∨ o % 32 < 16 → getReg o t = getReg o s

namespace StreamKept

variable {s t u : State}

theorem refl (s : State) : StreamKept s s := ⟨rfl, rfl, fun _ _ _ => rfl⟩

theorem trans (h1 : StreamKept s t) (h2 : StreamKept t u) : StreamKept s u :=
  ⟨h2.clk.trans h1.clk, h2.streams.trans h1.streams, fun o ho hr => (h2.regs o ho hr).trans (h1.regs o ho hr)⟩

theorem getStream (h : StreamKept s t) (k : Nat) : Machine.getStream k t = Machine.getStream k s := by
  simp only [Machine.getStream, h.streams]

theorem strErr (h : StreamKept s t) {k : Nat} (hk : k < 16) :
    getReg (Reg.CAM_STRs_ERR k) t = getReg (Reg.CAM_STRs_ERR k) s :=
  h.regs _ (by simp only [camReg, Reg.CAM_STRs_ERR]; omega) (.inl (by simp only [Reg.CAM_STRs_ERR]; omega))

theorem sameSettings (h : StreamKept s t) : SameSettings s t := fun o ⟨hlow, hhigh, hrow⟩ =>
  h.regs o ⟨hlow, hhigh⟩ (.inr hrow)

end StreamKept

theorem CamKept.streamKept {c : Nat} {s t : State} (hc : c < 16) (h : CamKept (ctxReports c) s t) : StreamKept s t :=
  ⟨h.clk, h.streams, fun o ho hr => h.regs o ho fun hmem => by
    simp only [ctxReports, Reg.ISP_CTXc_STAT, Reg.ISP_CTXc_FRAME, Reg.ISP_CTXc_CORRUPT, List.mem_cons, List.not_mem_nil,
      or_false] at hmem
    omega⟩

theorem streamKept_settleStream (k : Nat) (s : State) : StreamKept s (settleStream k s) := by
  unfold settleStream
  split
  · exact .refl s
  · next c hc => exact (camKept_settleCtx c s).streamKept (ctxOf_lt hc)

/-! ### Changes of the frame that a stream receives -/

/-- A change of a frame is one of contexts alone. -/
theorem modFrame_cases (k : Nat) (r : RxFrame) (g : CtxFrame → CtxFrame) (s : State) :
    (∃ xs, modFrame k r g s = camSet xs s.cam.pipes s) ∧
      ∀ n d, (∀ f, FrameStays n f → FrameStays n (g f)) → HeadStays n (getCtx d s).frames →
        HeadStays n (getCtx d (modFrame k r g s)).frames := by
  unfold modFrame
  split
  · exact ⟨⟨s.cam.ctxs, rfl⟩, fun _ _ _ h => h⟩
  · next c hc =>
    refine ⟨⟨_, rfl⟩, fun n d hg h => ?_⟩
    by_cases hd : d = c
    · subst hd
      rw [getCtx_setCtx_same]
      refine h.map fun f hf => ?_
      split
      · exact hg f hf
      · exact hf
    · rwa [getCtx_setCtx_other _ _ hd]

theorem streamKept_modFrame (k : Nat) (r : RxFrame) (g : CtxFrame → CtxFrame) (s : State) :
    StreamKept s (modFrame k r g s) := by
  obtain ⟨⟨xs, h⟩, -⟩ := modFrame_cases k r g s
  rw [h]
  exact ⟨rfl, rfl, fun _ _ _ => rfl⟩

theorem memKept_modFrame (k : Nat) (r : RxFrame) (g : CtxFrame → CtxFrame) (s : State) : memKept s (modFrame k r g s) := by
  obtain ⟨⟨xs, h⟩, -⟩ := modFrame_cases k r g s
  rw [h]
  exact memKept_camSet _ _ s

/-- A frame that turns out corrupt changes its context, the count of corrupt frames and the reports (R164, R187). -/
theorem spoil_cases (k : Nat) (s : State) :
    (spoil k s = s ∨ ∃ c < 16, CtxOnly [Reg.ISP_CTXc_STAT c, Reg.ISP_CTXc_CORRUPT c] s (spoil k s)) ∧
      ∀ n d, HeadStays n (getCtx d s).frames → HeadStays n (getCtx d (spoil k s)).frames := by
  unfold spoil
  split
  · next r c hr hc =>
    extract_lets u
    obtain ⟨⟨xs, hxs⟩, hheads⟩ := modFrame_cases k r (fun f => { f with corrupt := true }) s
    have hu : CtxOnly [Reg.ISP_CTXc_STAT c, Reg.ISP_CTXc_CORRUPT c] s u := by
      simp only [u, hxs]
      exact ⟨rfl, fun _ _ _ => rfl⟩
    have hstays : ∀ n d, HeadStays n (getCtx d s).frames → HeadStays n (getCtx d u).frames := fun n d =>
      hheads n d fun _ hf => hf
    clear_value u
    split
    · split
      · next e he heq =>
        let w := bumpReg (Reg.ISP_CTXc_CORRUPT c) 1 u
        obtain ⟨hfrozen, -⟩ := setFrozen_cases c { getCtx c u with early := none, run := e.run, lastHash := e.lastHash } w
        have hw : CtxOnly [Reg.ISP_CTXc_STAT c, Reg.ISP_CTXc_CORRUPT c] u w := .setReg (by simp) _ u
        refine ⟨.inr ⟨c, ctxOf_lt hc, hu.trans (hw.trans (hfrozen.mono (by simp)))⟩, fun n d h => ?_⟩
        rw [frames_setFrozen]
        split
        · next hd => exact hstays n c (hd ▸ h)
        · exact hstays n d h
      · exact ⟨.inr ⟨c, ctxOf_lt hc, hu⟩, hstays⟩
    · exact ⟨.inr ⟨c, ctxOf_lt hc, hu⟩, hstays⟩
  · exact ⟨.inl rfl, fun _ _ h => h⟩

theorem streamKept_spoil (k : Nat) (s : State) : StreamKept s (spoil k s) := by
  obtain ⟨h | ⟨c, hc, h⟩, -⟩ := spoil_cases k s
  · rw [h]; exact .refl s
  · exact (h.camKept.mono (by simp)).streamKept hc

theorem memKept_spoil (k : Nat) (s : State) : memKept s (spoil k s) := by
  obtain ⟨h | ⟨c, hc, h⟩, -⟩ := spoil_cases k s
  · rw [h]; exact memKept_refl s
  · refine h.memKept fun hmem => ?_
    simp only [Reg.MEM_POP, Reg.ISP_CTXc_STAT, Reg.ISP_CTXc_CORRUPT, List.mem_cons, List.not_mem_nil, or_false] at hmem
    omega

end Sys2Proof.Machine
end

section
/-! Camera frames on a stream: lines that land, embedded lines, frame starts and frame ends, absent frames (R161 to R165,
R188). -/

namespace Sys2Proof.Machine

open Sys2Proof.Config

/-! ### Bytes that the staging store takes -/

theorem rdByte_stage_apart {x a : Nat} (bs : List Byte) (s : State) (h : ∀ i < bs.length, x % 2 ^ 23 ≠ (a + i) % 2 ^ 23) :
    rdByte .stage x (wrRaw .stage a bs s) = rdByte .stage x s := by
  induction bs generalizing a s with
  | nil => rfl
  | cons b bs ih =>
    have hfirst : x % 2 ^ 23 ≠ a % 2 ^ 23 := h 0 (Nat.succ_pos _)
    refine (ih (a := a + 1) (wrByte .stage a b s) fun i hi => ?_).trans ?_
    · rw [Nat.add_assoc, Nat.add_comm 1 i]
      exact h (i + 1) (Nat.succ_lt_succ hi)
    · rw [rdByte_wrByte _ _ _ _ _ _ (fun e => by cases e)]
      exact if_neg fun e => hfirst e.2

/-- Bytes written to the staging store, no more than it holds, read back. -/
theorem rdByte_stage_same {a : Nat} {bs : List Byte} (s : State) (hlen : bs.length ≤ 2 ^ 23) {i : Nat} (hi : i < bs.length) :
    rdByte .stage (a + i) (wrRaw .stage a bs s) = bs[i] := by
  induction bs generalizing a s i with
  | nil => cases hi
  | cons b bs ih =>
    rw [List.length_cons] at hlen hi
    have hstep : wrRaw .stage a (b :: bs) s = wrRaw .stage (a + 1) bs (wrByte .stage a b s) := rfl
    rw [hstep]
    cases i with
    | zero =>
      rw [rdByte_stage_apart _ _ (fun i hi => by omega), rdByte_wrByte _ _ _ _ _ _ (fun e => by cases e)]
      exact if_pos ⟨rfl, rfl⟩
    | succ i =>
      rw [show a + (i + 1) = a + 1 + i by omega]
      exact ih _ (by omega) (by omega)

theorem rdByte_wrRaw_elsewhere {sp q : Space} (hq : q ≠ sp) (hsp : sp ≠ .dram) (x a : Nat) (bs : List Byte) (s : State) :
    rdByte q x (wrRaw sp a bs s) = rdByte q x s := by
  induction bs generalizing a s with
  | nil => rfl
  | cons b bs ih =>
    refine (ih (a + 1) (wrByte sp a b s)).trans ?_
    rw [rdByte_wrByte _ _ _ _ _ _ (fun e => absurd e hsp)]
    exact if_neg fun e => hq e.1

/-- What a line leaves in memory, whose words are `bs` and begin at `a` of the staging store. -/
structure Landed (a : Nat) (bs : List Byte) (s t : State) : Prop where
  line : rdBytes .stage a bs.length t = bs
  stage : ∀ x < 2 ^ 23, (∀ i < bs.length, x ≠ (a + i) % 2 ^ 23) → rdByte .stage x t = rdByte .stage x s
  other : ∀ sp x, sp ≠ .stage → rdByte sp x t = rdByte sp x s

theorem landed_wrBytes {a : Nat} {bs : List Byte} (hlen : bs.length ≤ 2 ^ 23) (s : State) :
    Landed a bs s (wrBytes .stage a bs s) := by
  refine ⟨List.ext_getElem (by simp [rdBytes]) fun i hi hi' => ?_, fun x hx hapart => ?_, fun sp x hsp => ?_⟩
  · simp only [rdBytes, List.getElem_map, List.getElem_range]
    exact (rdByte_filterMarks _ _ _ _).trans (rdByte_stage_same s hlen hi')
  · refine (rdByte_filterMarks _ _ _ _).trans (rdByte_stage_apart bs s fun i hi => ?_)
    rw [Nat.mod_eq_of_lt hx]
    exact hapart i hi
  · exact (rdByte_filterMarks _ _ _ _).trans (rdByte_wrRaw_elsewhere hsp (by decide) x a bs s)

theorem Landed.kept {a : Nat} {bs : List Byte} {s s' t t' : State} (h : Landed a bs s' t) (hs : memKept s s')
    (ht : memKept t t') : Landed a bs s t' :=
  ⟨(rdBytes_congr ht _ _ _).trans h.line, fun x hx hapart => (ht.1 _ _).trans ((h.stage x hx hapart).trans (hs.1 _ _)),
    fun sp x hsp => (ht.1 _ _).trans ((h.other sp x hsp).trans (hs.1 _ _))⟩

/-! ### Lines (R161, R164, R165) -/

theorem memKept_strErr {k : Nat} (hk : k < 16) (v : Word) (s : State) : memKept s (setReg (Reg.CAM_STRs_ERR k) v s) :=
  memKept_setReg _ _ s (by simp only [Reg.CAM_STRs_ERR, Reg.MEM_POP]; omega)

/-- A report of a stream's errors leaves how contexts and streams are set. -/
theorem sameSettings_strErr (k : Nat) (v : Word) (s : State) : SameSettings s (setReg (Reg.CAM_STRs_ERR k) v s) := fun o ho =>
  getReg_setReg_other _ _ fun e => by simp only [settingReg, e, Reg.CAM_STRs_ERR] at ho; omega

/-- The state in which the errors of a line that comes as line `y` are reported. -/
def lineErrors (k y : Nat) (px : List (BitVec 16)) (chk : PacketCheck) (s : State) : State :=
  orReg (Reg.CAM_STRs_ERR k)
    (word (8 * (decide (px.length ≠ strW k s)).toNat + 16 * (slotNeeded k y s).toNat)) (packetErrors k chk s)

theorem lineErrors_reports {k : Nat} (hk : k < 16) (y : Nat) (px : List (BitVec 16)) (chk : PacketCheck) (s : State) :
    let t := lineErrors k y px chk s
    SameSettings s t ∧ t.cam = s.cam ∧ memKept s t ∧
      (slotNeeded k y s = true → regBit (Reg.CAM_STRs_ERR k) 4 t = true) := by
  refine ⟨fun o ho => ?_, rfl, memKept_trans (memKept_strErr hk _ s) (memKept_strErr hk _ _), fun hdrop => ?_⟩
  · exact (sameSettings_strErr k _ (packetErrors k chk s) o ho).trans (sameSettings_strErr k _ s o ho)
  · rw [lineErrors, orReg_eq, regBit_setReg_same, bit_or, hdrop]
    cases decide (px.length ≠ strW k s) <;> simp [bit, word]

/-- Where line `y` of a stream lands in the staging store. -/
def linePlace (k y : Nat) (s : State) : Nat := (getReg (Reg.CAM_STRs_BUF k) s).toNat + y % strDepth k s * strPitch k s

theorem SameSettings.linePlace {s t : State} (h : SameSettings s t) {k : Nat} (hk : k < 16) (y : Nat) :
    Machine.linePlace k y t = Machine.linePlace k y s := by
  have hbuf := h (Reg.CAM_STRs_BUF k) (by simp only [settingReg, Reg.CAM_STRs_BUF]; omega)
  simp only [Machine.linePlace, hbuf, h.strDepth hk, h.strPitch hk]

/-- A frame of a context that counts line `y`, landed as `bs` or dropped. -/
def countLine (y : Nat) (drop : Bool) (bs : List Byte) (f : CtxFrame) : CtxFrame :=
  { f with
    lines := y + 1, gone := if drop then f.gone ++ [y] else f.gone, overrun := f.overrun || drop,
    crc := if drop then f.crc else bs.foldl (crcByte 0x82F63B78) f.crc }

theorem FrameStays.countLine {n : Nat} {f : CtxFrame} (h : FrameStays n f) {drop : Bool} (hdrop : drop = false ∨ n = 0)
    (y : Nat) (bs : List Byte) : FrameStays n (countLine y drop bs f) := by
  rcases h with hready | hrunning | ⟨hdecided, hgone, hended⟩
  · exact .inl hready
  · exact .inr (.inl hrunning)
  · rcases hdrop with rfl | rfl
    · exact .inr (.inr ⟨hdecided, hgone, hended⟩)
    · exact absurd hdecided (Nat.not_lt_zero _)

theorem getCtx_setStream (d k : Nat) (x : Stream) (s : State) : getCtx d (setStream k x s) = getCtx d s := rfl

theorem landedWords_length (b w : Nat) (px : List (BitVec 16)) : (landedWords b w px).length = 2 * min w px.length := by
  simp [landedWords, List.length_flatMap, Nat.mul_comm]

/-- What taking a line leaves, before its context is brought up to date. -/
structure LineTaken (k : Nat) (r : RxFrame) (bs : List Byte) (s u : State) : Prop where
  frame : (getStream k u).frame = some { r with lines := r.lines + 1 }
  settings : SameSettings s u
  dropped : slotNeeded k r.lines s = true → regBit (Reg.CAM_STRs_ERR k) 4 u = true ∧ memKept s u
  landed : slotNeeded k r.lines s = false → bs.length ≤ 2 ^ 23 →
    Landed (linePlace k r.lines s) bs s u
  heads : ∀ n d, slotNeeded k r.lines s = false ∨ n = 0 → HeadStays n (getCtx d s).frames →
    HeadStays n (getCtx d u).frames

section
variable {k : Nat} (hk : k < 16) (px : List (BitVec 16)) {r : RxFrame} {b : Nat} {s : State} (hon : streamOn k s = true)
  (hframe : (getStream k s).frame = some r) (hbits : rawBits (regFld (Reg.CAM_STRs_CTL k) 5 0 s) = some b)
include hk hon hframe hbits

/-- A packet whose header is good is a line: its errors are reported, it lands unless its slot is needed, and the stream and
its context count it. -/
theorem lineLanded_eq {chk : PacketCheck} (hecc : chk.eccBad = false) :
    let e := lineErrors k r.lines px chk s
    let bs := landedWords b (strW k e) px
    let w := if slotNeeded k r.lines s then e else wrBytes .stage (linePlace k r.lines e) bs e
    ∃ x, x.frame = some { r with lines := r.lines + 1 } ∧
      let u := modFrame k r (countLine r.lines (slotNeeded k r.lines s) bs) (setStream k x w)
      lineLanded k px chk s = settleStream k
        (if chk.crcBad || decide (px.length ≠ strW k s) || slotNeeded k r.lines s then spoil k u else u) := by
  have hpacket : SameSettings s (packetErrors k chk s) := sameSettings_strErr k _ s
  have hdrop := hpacket.slotNeeded rfl hk r.lines
  intro e bs w
  refine ⟨{ getStream k w with
    frame := some { r with lines := r.lines + 1 }
    slots := if slotNeeded k r.lines s then (getStream k w).slots
      else tset (fun _ => none) (r.lines % strDepth k w) (some (r.number, r.stamp, r.lines)) (getStream k w).slots },
    rfl, ?_⟩
  simp only [lineLanded, hframe, hbits, hon, hecc, hdrop, hpacket.strW hk, Bool.not_true, Bool.false_eq_true, if_false]
  rfl

/-- A packet whose header is good is a line: it is taken, spoils its frame when something is wrong with it, and its context is
brought up to date. -/
theorem lineLanded_line {chk : PacketCheck} (hecc : chk.eccBad = false) :
    ∃ u, LineTaken k r (landedWords b (strW k s) px) s u ∧ lineLanded k px chk s = settleStream k
      (if chk.crcBad || decide (px.length ≠ strW k s) || slotNeeded k r.lines s then spoil k u else u) := by
  obtain ⟨hsame, hcam, hmem, hoverrun⟩ := lineErrors_reports hk r.lines px chk s
  obtain ⟨x, hx, heq⟩ := lineLanded_eq hk px hon hframe hbits hecc
  rw [hsame.strW hk, hsame.linePlace hk] at heq
  have hcount : ∀ n f, FrameStays n f → slotNeeded k r.lines s = false ∨ n = 0 → FrameStays n
      (countLine r.lines (slotNeeded k r.lines s) (landedWords b (strW k s) px) f) :=
    fun n f hf hdrop => hf.countLine hdrop _ _
  generalize lineErrors k r.lines px chk s = e at hsame hcam hmem hoverrun heq
  generalize countLine r.lines (slotNeeded k r.lines s) (landedWords b (strW k s) px) = g at hcount heq
  generalize hw : (if slotNeeded k r.lines s then e
    else wrBytes .stage (linePlace k r.lines s) (landedWords b (strW k s) px) e) = w at heq
  refine ⟨modFrame k r g (setStream k x w), ?_, heq⟩
  have hwrites : WritesOnly e w := by
    rw [← hw]
    split
    · exact .refl e
    · exact writesOnly_wrBytes _ _ _ e
  obtain ⟨⟨xs, hmod⟩, hheads⟩ := modFrame_cases k r g (setStream k x w)
  have hreg : ∀ o, getReg o (modFrame k r g (setStream k x w)) = getReg o e := fun o => by
    rw [hmod]
    exact hwrites.getReg o
  have hkept : memKept w (modFrame k r g (setStream k x w)) :=
    memKept_trans (memKept_setStream k x w) (memKept_modFrame k r g _)
  refine ⟨?_, fun o ho => (hreg o).trans (hsame o ho), fun hdrop => ?_, fun hland hlen => ?_, fun n d hdrop h => ?_⟩
  · rw [(streamKept_modFrame _ _ _ _).getStream, getStream_setStream_same, hx]
  · rw [if_pos hdrop] at hw
    rw [regBit, hreg, ← regBit]
    exact ⟨hoverrun hdrop, memKept_trans hmem (hw ▸ hkept)⟩
  · rw [if_neg (by simp [hland])] at hw
    exact (hw ▸ landed_wrBytes hlen e).kept hmem hkept
  · refine hheads n d (fun f hf => hcount n f hf hdrop) ?_
    have hwcam : w.cam = s.cam := (congrArg State.cam hwrites.rest :).trans hcam
    rwa [getCtx_setStream, getCtx_congr hwcam d]

/-- R161: a good line lands in its ring slot; where the oldest frame of its context stays, nothing else is written. -/
theorem lineLanded_good (hlen : px.length = strW k s) (hland : slotNeeded k r.lines s = false)
    (hstays : ∀ c, ctxOf k s = some c → HeadStays (stripeCount c s) (getCtx c s).frames) :
    let t := lineLanded k px ⟨false, false, false⟩ s
    (getStream k t).frame = some { r with lines := r.lines + 1 } ∧
      Landed (linePlace k r.lines s) (landedWords b (strW k s) px) s t := by
  obtain ⟨u, hu, heq⟩ := lineLanded_line hk px hon hframe hbits (chk := ⟨false, false, false⟩) rfl
  rw [hland, decide_eq_false (not_not.mpr hlen)] at heq
  obtain ⟨xs, ps, hxs⟩ := settleStream_stays (k := k) (s := u) fun c hc => by
    rw [hu.settings.ctxOf] at hc
    rw [hu.settings.stripeCount (ctxOf_lt hc)]
    exact hu.heads _ c (.inl hland) (hstays c hc)
  have ht : lineLanded k px ⟨false, false, false⟩ s = camSet xs ps u := heq.trans hxs
  have hwidth : strW k s < 2 ^ 16 := fld_lt _ 15 0
  have hbytes : (landedWords b (strW k s) px).length ≤ 2 ^ 23 := by
    rw [landedWords_length, hlen]
    omega
  simp only [ht]
  exact ⟨hu.frame, (hu.landed hland hbytes).kept (memKept_refl s) (memKept_camSet _ _ u)⟩

/-- R165: a line whose slot is still needed is dropped with OVERRUN. -/
theorem lineLanded_overrun (f e : Bool) (hdrop : slotNeeded k r.lines s = true) :
    let t := lineLanded k px ⟨f, false, e⟩ s
    regBit (Reg.CAM_STRs_ERR k) 4 t = true ∧ (getStream k t).frame = some { r with lines := r.lines + 1 } ∧
      ((∀ c, ctxOf k s = some c → HeadStays 0 (getCtx c s).frames) → memKept s t) := by
  obtain ⟨u, hu, heq⟩ := lineLanded_line hk px hon hframe hbits (chk := ⟨f, false, e⟩) rfl
  rw [hdrop, Bool.or_true, if_pos rfl] at heq
  obtain ⟨hbit, hmem⟩ := hu.dropped hdrop
  have hspoil := streamKept_spoil k u
  have hsettle := hspoil.trans (streamKept_settleStream k (spoil k u))
  simp only [heq]
  refine ⟨?_, ?_, fun hstays => ?_⟩
  · rw [regBit, hsettle.strErr hk]
    exact hbit
  · rw [hsettle.getStream]
    exact hu.frame
  · obtain ⟨xs, ps, hxs⟩ := settleStream_stays (k := k) (s := spoil k u) fun c hc => by
      rw [hspoil.sameSettings.ctxOf, hu.settings.ctxOf] at hc
      exact ((spoil_cases k u).2 0 c (hu.heads 0 c (.inr rfl) (hstays c hc))).of_zero _
    rw [hxs]
    exact memKept_trans hmem (memKept_trans (memKept_spoil k u) (memKept_camSet _ _ _))

/-- R164: a packet with a header that cannot be corrected is no line. -/
theorem lineLanded_badHeader (f e : Bool) :
    let t := lineLanded k px ⟨f, true, e⟩ s
    regBit (Reg.CAM_STRs_ERR k) 0 t = true ∧ (getStream k t).frame = some r ∧ memKept s t := by
  have ht : lineLanded k px ⟨f, true, e⟩ s = spoil k (packetErrors k ⟨f, true, e⟩ s) := by
    simp only [lineLanded, hframe, hbits, hon, Bool.not_true, Bool.false_eq_true, if_false, if_true]
  have hspoil := streamKept_spoil k (packetErrors k ⟨f, true, e⟩ s)
  simp only [ht]
  refine ⟨?_, ?_, memKept_trans (memKept_strErr hk _ s) (memKept_spoil k _)⟩
  · rw [regBit, hspoil.strErr hk, packetErrors, orReg_eq, getReg_setReg_same, bit_or]
    cases f <;> simp [bit, word]
  · rw [hspoil.getStream]
    exact hframe

end

/-! ### Embedded lines (R163, R185) -/

section
variable {k : Nat} (hk : k < 16) {r : RxFrame} {s : State} (hon : streamOn k s = true)
  (hframe : (getStream k s).frame = some r)
include hk hon hframe

/-- R163: the first embedded line of a frame is kept, up to 4 KiB. -/
theorem embeddedLine_keeps (bs : List Byte) (f e : Bool) :
    let t := embeddedLine k bs ⟨f, false, e⟩ s
    memKept s t ∧
      (getStream k t).frame = some (if r.embedded.isSome then r else { r with embedded := some (bs.take 4096) }) := by
  let u := packetErrors k ⟨f, false, e⟩ s
  let v := if e then spoil k u else u
  have hu : memKept s u := memKept_strErr hk _ s
  have hv : memKept s v ∧ StreamKept u v := by
    simp only [v]
    split
    · exact ⟨memKept_trans hu (memKept_spoil k u), streamKept_spoil k u⟩
    · exact ⟨hu, .refl u⟩
  obtain ⟨hmem, hstream⟩ := hv
  by_cases hemb : r.embedded.isSome = true
  · have ht : embeddedLine k bs ⟨f, false, e⟩ s = v := by
      simp only [embeddedLine, hframe, hon, hemb, Bool.not_true, Bool.false_or, Bool.false_eq_true, if_false, if_true]
      rfl
    simp only [ht, hemb, if_true]
    refine ⟨hmem, ?_⟩
    rw [hstream.getStream]
    exact hframe
  · obtain ⟨g, ht⟩ : ∃ g, embeddedLine k bs ⟨f, false, e⟩ s = modFrame k r g
        (setStream k { getStream k v with frame := some { r with embedded := some (bs.take 4096) } } (useFree v)) := by
      simp only [embeddedLine, hframe, hon, hemb, Bool.not_true, Bool.or_false, Bool.false_or, Bool.false_eq_true, if_false]
      exact ⟨_, rfl⟩
    simp only [ht, hemb, Bool.false_eq_true, if_false]
    refine ⟨?_, ?_⟩
    · have hfree : memKept v (useFree v) := (CtxOnly.useFree (rs := []) v).memKept (by simp)
      exact memKept_trans (memKept_trans hmem hfree)
        (memKept_trans (memKept_setStream k _ _) (memKept_modFrame k r g _))
    · rw [(streamKept_modFrame _ _ _ _).getStream, getStream_setStream_same]

end

/-! ### Frame ends (R164) -/

/-- What the end of a frame leaves: the stream receives none, and its settings are as they were. -/
structure FrameEnded (k : Nat) (s t : State) : Prop where
  clk : t.clk = s.clk
  stream : getStream k t = { getStream k s with frame := none }
  settings : SameSettings s t

theorem endFrame_some {k : Nat} (hk : k < 16) {r : RxFrame} {s : State} (hframe : (getStream k s).frame = some r)
    (corrupt : Bool) :
    let t := endFrame k corrupt s
    FrameEnded k s t ∧ (r.lines ≠ strH k s → regBit (Reg.CAM_STRs_ERR k) 3 t = true) := by
  let short := decide (r.lines ≠ strH k s)
  let u := if short then orReg (Reg.CAM_STRs_ERR k) 8 s else s
  let v := modFrame k r (fun f => { f with ended := true }) (if corrupt || short then spoil k u else u)
  let w := setStream k { getStream k v with frame := none } v
  have ht : endFrame k corrupt s = settleStream k w := by
    simp only [endFrame, hframe]
    rfl
  have hu : u.clk = s.clk ∧ u.cam = s.cam ∧ SameSettings s u ∧
      (r.lines ≠ strH k s → regBit (Reg.CAM_STRs_ERR k) 3 u = true) := by
    simp only [u]
    split
    · exact ⟨rfl, rfl, sameSettings_strErr k _ s, fun _ => by rw [orReg_eq, regBit_setReg_same, bit_or]; simp [bit]⟩
    · next hfull => exact ⟨rfl, rfl, fun _ _ => rfl, fun hne => absurd (decide_eq_true hne) hfull⟩
  have hv : StreamKept u v := by
    refine .trans ?_ (streamKept_modFrame k r _ _)
    split
    · exact streamKept_spoil k u
    · exact .refl u
  have hw : StreamKept w (settleStream k w) := streamKept_settleStream k w
  obtain ⟨hclk, hcam, hset, hsize⟩ := hu
  simp only [ht]
  refine ⟨⟨hw.clk.trans (hv.clk.trans hclk), ?_, fun o ho => ?_⟩, fun hne => ?_⟩
  · have hstream : getStream k u = getStream k s := by simp only [getStream, hcam]
    rw [hw.getStream, getStream_setStream_same, hv.getStream, hstream]
  · exact (hw.sameSettings o ho).trans ((hv.sameSettings o ho).trans (hset o ho))
  · rw [regBit, hw.strErr hk]
    exact (congrArg (bit · 3) (hv.strErr hk)).trans (hsize hne)

theorem frameEnded_endFrame {k : Nat} (hk : k < 16) (corrupt : Bool) (s : State) : FrameEnded k s (endFrame k corrupt s) := by
  cases hframe : (getStream k s).frame with
  | some r => exact (endFrame_some hk hframe corrupt).1
  | none =>
    have ht : endFrame k corrupt s = s := by simp only [endFrame, hframe]
    rw [ht]
    exact ⟨rfl, by rw [← hframe], fun _ _ => rfl⟩

/-! ### Frame starts (R162, R172) -/

/-- A frame that opens in a context stands in it, without lines. -/
theorem openFrame_opens (c : Nat) (n : Word) (s : State) :
    let t := openFrame c n s
    CamKept [] s t ∧
      ∃ f ∈ (getCtx c t).frames, f.number = n ∧ f.stamp = s.clk.tick ∧ f.lines = 0 ∧ f.ended = false := by
  unfold openFrame
  extract_lets x ptr r u due expected f latch absent v t
  have hu : MemOnly s u := (errsOnly_readAll .stage ptr.toNat 3648 s).memOnly
  have hv : CamKept [] s v := hu.camKept.trans (camKept_setCtx c _ u)
  have hf : f ∈ (getCtx c v).frames := by
    rw [getCtx_setCtx_same]
    exact List.mem_append_right _ List.mem_cons_self
  have hstamp : f.stamp = s.clk.tick := congrArg Clock.tick hu.clk
  have ht : CamKept [] v t ∧ t.cam = v.cam := by
    simp only [t]
    split
    · exact ⟨(reportOnly_showInvalid v).ctxOnly.camKept, (reportOnly_showInvalid v).cam⟩
    · exact ⟨.refl v, rfl⟩
  refine ⟨hv.trans ht.1, f, ?_, rfl, hstamp, rfl, rfl⟩
  rwa [getCtx_congr ht.2]

/-- R162: a frame start numbers its frame and stamps it, and opens it in the context that the stream feeds. -/
theorem frameStart_starts {k : Nat} (hk : k < 16) {s : State} (hon : streamOn k s = true) :
    let t := frameStart k s
    let n : Word := if (getStream k s).started then (getStream k s).counter + 1 else 0
    getReg (Reg.CAM_STRs_FRAME k) t = n ∧ (getStream k t).counter = n ∧
      (getStream k t).frame = some ⟨n, s.clk.tick, 0, none⟩ ∧
      (∀ c, ctxOf k s = some c → ∃ f ∈ (getCtx c t).frames, f.number = n ∧ f.stamp = s.clk.tick ∧ f.lines = 0 ∧
        f.ended = false) := by
  intro t n
  obtain ⟨hclk, hstream, hset⟩ := frameEnded_endFrame hk true s
  let u := endFrame k true s
  let x : Stream := { getStream k s with started := true, counter := n, frame := some ⟨n, s.clk.tick, 0, none⟩ }
  let v := setReg (Reg.CAM_STRs_FRAME k) n (setStream k x u)
  let w := orReg Reg.CLK_EXT_STAT (word (2 ^ (regFld (Reg.CAM_STRs_CTL k) 19 16 v / 3))) v
  have ht : t = match ctxOf k w with
      | none => w
      | some c => openFrame c n w := by
    simp only [t, frameStart, hon, if_true, hstream, hclk]
    rfl
  have hext : ∀ o, camReg o → o ≠ Reg.CLK_EXT_STAT := fun o ho e => by simp [camReg, e, Reg.CLK_EXT_STAT] at ho
  have hframe : camReg (Reg.CAM_STRs_FRAME k) := by simp only [camReg, Reg.CAM_STRs_FRAME]; omega
  have hwset : SameSettings s w := fun o ho => by
    have hne : o ≠ Reg.CAM_STRs_FRAME k := fun e => by simp only [settingReg, e, Reg.CAM_STRs_FRAME] at ho; omega
    obtain ⟨hlow, hhigh, -⟩ := id ho
    refine (getReg_setReg_other _ _ (hext o ⟨hlow, hhigh⟩)).trans ?_
    exact (getReg_setReg_other _ _ hne).trans (hset o ho)
  have hwreg : getReg (Reg.CAM_STRs_FRAME k) w = n :=
    (getReg_setReg_other _ _ (hext _ hframe)).trans (getReg_setReg_same _ _ _)
  have hwstream : getStream k w = x := getStream_setStream_same k x u
  have hwclk : w.clk = s.clk := hclk
  rw [hwset.ctxOf] at ht
  cases hc : ctxOf k s with
  | none =>
    rw [hc] at ht
    rw [ht, hwreg, hwstream]
    exact ⟨rfl, rfl, rfl, nofun⟩
  | some c =>
    rw [hc] at ht
    obtain ⟨hkept, hopen⟩ := openFrame_opens c n w
    have hstreamt : getStream k t = x := by rw [ht, getStream, hkept.streams]; exact hwstream
    rw [hwclk] at hopen
    refine ⟨?_, by rw [hstreamt], by rw [hstreamt], fun d hd => ?_⟩
    · rw [ht]
      exact (hkept.regs _ hframe (by simp)).trans hwreg
    · cases hd
      rw [ht]
      exact hopen

/-! ### Absent frames (R188) -/

/-- R188: without a frame start for ABSENT_MS a context reports absent, and the bindings that depend on it latch CAMERA. -/
theorem absentTimeout_reports {c : Nat} (hc : c < 16) {s : State} (hon : ctxOn c s = true)
    (hms : regFld (Reg.ISP_CTXc_FRZ c) 15 0 s ≠ 0) (habsent : (getCtx c s).absent = false) :
    let t := absentTimeout c s
    now t = max (now s) ((getCtx c s).seenAt + regFld (Reg.ISP_CTXc_FRZ c) 15 0 s * 1000 * usRoot) ∧
      (getCtx c t).absent = true ∧ regBit (Reg.ISP_CTXc_STAT c) 3 t = true ∧
      (∀ b < 16, (getBinding b s).enabled = true → regBit (Reg.SAF_CHKk_CAM b) c s = true →
        regBit Reg.SAF_LATCH Latch.camera t = true) := by
  let u := runTo ((getCtx c s).seenAt + regFld (Reg.ISP_CTXc_FRZ c) 15 0 s * 1000 * usRoot) s
  let v := orReg (Reg.ISP_CTXc_STAT c) 8 (setCtx c { getCtx c u with absent := true } u)
  have ht : absentTimeout c s = reportCamera c v := by
    simp only [absentTimeout, hon, hms, habsent, ne_eq, not_false_eq_true, decide_true, Bool.and_self, Bool.not_false, if_true]
    rfl
  have hreport := reportOnly_reportCamera c v
  have hstat : ¬ reportReg (Reg.ISP_CTXc_STAT c) := by simp only [reportReg, Reg.ISP_CTXc_STAT]; omega
  simp only [ht]
  refine ⟨?_, ?_, ?_, fun b hb hen hcam => ?_⟩
  · have hclk : (reportCamera c v).clk = v.clk := (congrArg State.clk hreport.rest :)
    rw [now, hclk]
    exact now_runTo _ s
  · rw [getCtx_congr hreport.cam]
    exact congrArg Ctx.absent (getCtx_setCtx_same c { getCtx c u with absent := true } u)
  · rw [regBit, hreport.regs _ hstat]
    simp [v, bit]
  · have hne : Reg.SAF_CHKk_CAM b ≠ Reg.ISP_CTXc_STAT c := by simp only [Reg.SAF_CHKk_CAM, Reg.ISP_CTXc_STAT]; omega
    have hmask : regBit (Reg.SAF_CHKk_CAM b) c v = true := by
      rw [← hcam]
      exact regBit_setReg_other _ _ _ hne
    have hany : (List.range 16).any (fun k => (getBinding k v).enabled && regBit (Reg.SAF_CHKk_CAM k) c v) = true :=
      List.any_eq_true.mpr ⟨b, List.mem_range.mpr hb, by rw [hmask, Bool.and_true]; exact hen⟩
    rw [reportCamera, if_pos hany]
    exact regBit_latchInvalid (by decide) v

end Sys2Proof.Machine
end

section
/-! The image pipelines, and the settlement of O42. -/

namespace Sys2Proof.Machine

open Sys2Proof.Config

/-! ### Which stripe is next (R168) -/

/-- Pipeline `p` may serve context `d`. -/
def servable (p d : Nat) (s : State) : Bool :=
  ctxOn d s && decide (regFld (Reg.ISP_CTXc_CTL d) 30 30 s = p) &&
    ((getPipe p s).locked = none || (getPipe p s).locked = some d)

/-- The earlier one of the best stripe so far and that of context `c`; the former in a tie. -/
def earlier (p : Nat) (s : State) (best : Option (Nat × Nat × (Word × Word64) × Nat)) (c : Nat) :
    Option (Nat × Nat × (Word × Word64) × Nat) :=
  if servable p c s then
    match readyStripe c s, best with
    | some (n, i, t), none => some (t, c, n, i)
    | some (n, i, t), some b => if t < b.1 then some (t, c, n, i) else best
    | none, _ => best
  else best

theorem nextCtx_eq (p : Nat) (s : State) : nextCtx p s = ((List.range 16).foldl (earlier p s) none).map (·.2) := rfl

/-- Of the contexts below `m` the stripe became ready earliest, and of the lowest context in a tie; or there is none. -/
def EarliestBelow (p m : Nat) (s : State) : Option (Nat × Nat × (Word × Word64) × Nat) → Prop
  | none => ∀ d < m, servable p d s = true → readyStripe d s = none
  | some (t, c, n, i) => c < m ∧ readyStripe c s = some (n, i, t) ∧
      ∀ d < m, servable p d s = true → ∀ k j u, readyStripe d s = some (k, j, u) → t < u ∨ (t = u ∧ c ≤ d)

theorem earliestBelow_earlier {p m : Nat} {s : State} {best : Option (Nat × Nat × (Word × Word64) × Nat)}
    (h : EarliestBelow p m s best) : EarliestBelow p (m + 1) s (earlier p s best m) := by
  have hlast : ∀ d < m + 1, d < m ∨ d = m := fun d hd => by omega
  -- A context that has nothing to offer changes nothing.
  have hskip (hnone : servable p m s = true → readyStripe m s = none) : EarliestBelow p (m + 1) s best := by
    cases best with
    | none =>
      intro d hd hserve
      rcases hlast d hd with hlow | rfl
      · exact h d hlow hserve
      · exact hnone hserve
    | some b =>
      obtain ⟨hc, hready, hfirst⟩ := h
      refine ⟨by omega, hready, fun d hd hserve k j u hu => ?_⟩
      rcases hlast d hd with hlow | rfl
      · exact hfirst d hlow hserve k j u hu
      · rw [hnone hserve] at hu
        cases hu
  unfold earlier
  split
  · next hserve =>
    cases hready : readyStripe m s with
    | none => exact hskip fun _ => hready
    | some e =>
      obtain ⟨n, i, t⟩ := e
      cases best with
      | none =>
        refine ⟨Nat.lt_succ_self m, hready, fun d hd hd' k j u hu => ?_⟩
        rcases hlast d hd with hlow | rfl
        · rw [h d hlow hd'] at hu
          cases hu
        · rw [hready] at hu
          cases hu
          exact .inr ⟨rfl, le_rfl⟩
      | some b =>
        obtain ⟨tb, cb, nb, ib⟩ := b
        obtain ⟨hc, hreadyb, hfirst⟩ := h
        dsimp only
        split
        · next hlt =>
          refine ⟨Nat.lt_succ_self m, hready, fun d hd hd' k j u hu => ?_⟩
          rcases hlast d hd with hlow | rfl
          · have := hfirst d hlow hd' k j u hu
            omega
          · rw [hready] at hu
            cases hu
            exact .inr ⟨rfl, le_rfl⟩
        · next hge =>
          refine ⟨by omega, hreadyb, fun d hd hd' k j u hu => ?_⟩
          rcases hlast d hd with hlow | rfl
          · exact hfirst d hlow hd' k j u hu
          · rw [hready] at hu
            cases hu
            omega
  · next hserve => exact hskip fun hs => absurd hs hserve

theorem earliestBelow_foldl (p : Nat) (s : State) (m : Nat) :
    EarliestBelow p m s ((List.range m).foldl (earlier p s) none) := by
  induction m with
  | zero => exact fun d hd => absurd hd (Nat.not_lt_zero d)
  | succ m ih =>
    rw [List.range_succ, List.foldl_append]
    exact earliestBelow_earlier ih

/-- R168: the stripe that is next became ready earliest, and is the lowest context's in a tie. -/
theorem nextCtx_earliest {p c i : Nat} {n : Word × Word64} {s : State} (h : nextCtx p s = some (c, n, i)) :
    ∃ at_, readyStripe c s = some (n, i, at_) ∧
      ∀ d m j u, d < 16 → servable p d s = true → readyStripe d s = some (m, j, u) →
        at_ < u ∨ (at_ = u ∧ c ≤ d) := by
  have hbest := earliestBelow_foldl p s 16
  rw [nextCtx_eq] at h
  generalize (List.range 16).foldl (earlier p s) none = best at h hbest
  obtain ⟨⟨t, c', n', i'⟩, rfl, he⟩ := Option.map_eq_some_iff.mp h
  cases he
  obtain ⟨-, hready, hfirst⟩ := hbest
  exact ⟨t, hready, fun d m j u hd hserve hu => hfirst d hd hserve m j u hu⟩

/-! ### A stripe begins (R168, R169) -/

/-- Outputs that are skipped are counted, and nothing else is touched. -/
theorem skips_keep {α : Type} (l : List α) (s : State) :
    let t := l.foldl (fun s _ => skipLocked s) s
    (∀ o, o ≠ Reg.LOCK_SKIP → getReg o t = getReg o s) ∧ now t = now s ∧ memKept s t := by
  induction l generalizing s with
  | nil => exact ⟨fun _ _ => rfl, rfl, memKept_refl s⟩
  | cons a l ih =>
    obtain ⟨hregs, hnow, hmem⟩ := ih (skipLocked s)
    exact ⟨fun o ho => (hregs o ho).trans (getReg_setReg_other _ _ ho), hnow,
      memKept_trans (memKept_setReg _ _ s (by decide)) hmem⟩

/-- R169: a stripe costs a pipeline a cycle per 3 pixels, after 512 cycles when the context is another one. -/
def stripeCycles (p c i : Nat) (s : State) : Nat :=
  (if (getPipe p s).lastCtx.isSome && decide ((getPipe p s).lastCtx ≠ some c) then 512 else 0) +
    divUp (((stripeLines c i s).2 - (stripeLines c i s).1) * strW (ctxStream c s) s) 3

section
variable {p c i : Nat} {n : Word × Word64} {s : State} (hidle : (getPipe p s).busy = none)
  (hnext : nextCtx p s = some (c, n, i))
include hidle hnext

/-- The frame takes its stripe, outputs that its first stripe finds locked are counted, and then the pipeline is busy. -/
theorem stripeStart_eq :
    ∃ v, ((∀ o, o ≠ Reg.LOCK_SKIP → getReg o v = getReg o s) ∧ now v = now s ∧ memKept s v) ∧
      ∃ locked, stripeStart p s =
      let w := if (getPipe p s).lastCtx.isSome && decide ((getPipe p s).lastCtx ≠ some c) then
        bumpReg (Reg.ISP_PIPEp_SWITCH p) 1 v else v
      setReg (Reg.ISP_PIPEp_STAT p) (word (2 ^ 31 + c)) (setPipe p
        ⟨some (c, i, 6 * (divUp (now w) 6 + stripeCycles p c i s)), n, some c, locked⟩ w) := by
  have hskips : ∀ (first : Bool) (l : List Nat) (x : Ctx),
      let v := if first then l.foldl (fun s _ => skipLocked s) (setCtx c x s) else setCtx c x s
      (∀ o, o ≠ Reg.LOCK_SKIP → getReg o v = getReg o s) ∧ now v = now s ∧ memKept s v := fun first l x => by
    obtain ⟨hregs, hnow, hmem⟩ := skips_keep l (setCtx c x s)
    cases first with
    | false => exact ⟨fun _ _ => rfl, rfl, memKept_setCtx c x s⟩
    | true => exact ⟨hregs, hnow, memKept_trans (memKept_setCtx c x s) hmem⟩
  simp only [stripeStart, hidle, hnext, Option.isSome_none, Bool.false_eq_true, if_false]
  exact ⟨_, hskips _ _ _, _, rfl⟩

/-- R168, R169: a stripe that begins makes its pipeline busy for its cycles, and counts the switch to another context. -/
theorem stripeStart_takes (hp : p < 2) :
    let t := stripeStart p s
    (getPipe p t).busy = some (c, i, 6 * (divUp (now s) 6 + stripeCycles p c i s)) ∧
      getReg (Reg.ISP_PIPEp_SWITCH p) t =
        (if (getPipe p s).lastCtx.isSome && decide ((getPipe p s).lastCtx ≠ some c) then
          countUp (getReg (Reg.ISP_PIPEp_SWITCH p) s) 1 else getReg (Reg.ISP_PIPEp_SWITCH p) s) ∧
      getReg (Reg.ISP_PIPEp_STAT p) t = word (2 ^ 31 + c) ∧ memKept s t := by
  obtain ⟨v, ⟨hregs, hnow, hmem⟩, locked, ht⟩ := stripeStart_eq hidle hnext
  have hne : Reg.ISP_PIPEp_SWITCH p ≠ Reg.ISP_PIPEp_STAT p ∧ Reg.ISP_PIPEp_SWITCH p ≠ Reg.LOCK_SKIP := by
    simp only [Reg.ISP_PIPEp_SWITCH, Reg.ISP_PIPEp_STAT, Reg.LOCK_SKIP]; omega
  have hpop : Reg.ISP_PIPEp_SWITCH p ≠ Reg.MEM_POP ∧ Reg.ISP_PIPEp_STAT p ≠ Reg.MEM_POP := by
    simp only [Reg.ISP_PIPEp_SWITCH, Reg.ISP_PIPEp_STAT, Reg.MEM_POP]; omega
  rw [ht]
  generalize ((getPipe p s).lastCtx.isSome && decide ((getPipe p s).lastCtx ≠ some c)) = switch
  generalize hw : (if switch then bumpReg (Reg.ISP_PIPEp_SWITCH p) 1 v else v) = w
  have hshown : now w = now s ∧ memKept s w ∧ getReg (Reg.ISP_PIPEp_SWITCH p) w =
      if switch then countUp (getReg (Reg.ISP_PIPEp_SWITCH p) s) 1 else getReg (Reg.ISP_PIPEp_SWITCH p) s := by
    rw [← hregs _ hne.2, ← hw]
    cases switch with
    | false => exact ⟨hnow, hmem, rfl⟩
    | true => exact ⟨hnow, memKept_trans hmem (memKept_setReg _ _ v hpop.1), getReg_setReg_same _ _ _⟩
  obtain ⟨hnoww, hmemw, hswitch⟩ := hshown
  dsimp only
  rw [hnoww]
  refine ⟨congrArg Pipe.busy (getPipe_setPipe_same p _ w), ?_, getReg_setReg_same _ _ _, ?_⟩
  · rw [getReg_setReg_other _ _ hne.1, getReg_setPipe, hswitch]
  · refine memKept_trans hmemw (memKept_trans ?_ (memKept_setReg _ _ _ hpop.2))
    exact memKept_camSet w.cam.ctxs _ w

end

/-! ### A stripe ends (R164, R169, R170) -/

theorem errsOnly_readLines (g : IspIn) (ys : List Nat) (s : State) : ErrsOnly s (readLines g ys s).2 := by
  unfold readLines
  generalize false = found
  induction ys generalizing found s with
  | nil => exact .refl s
  | cons y ys ih => exact (errsOnly_readAll .stage (landedAddr g 0 y) (2 * g.w) s).trans (ih _ _)

theorem writesOnly_writePieces (a : Space × Nat) (ps : List (Nat × List Byte)) (s : State) :
    WritesOnly s (writePieces a ps s) := .foldl (fun s _ => writesOnly_wrBytes _ _ _ s) ps s

/-- R169: at the end of its stripe a pipeline is free. -/
theorem stripeEnd_frees {p c i e : Nat} {s : State} (hbusy : (getPipe p s).busy = some (c, i, e)) :
    now (stripeEnd p s) = max (now s) e ∧ (getPipe p (stripeEnd p s)).busy = none := by
  let u := setReg (Reg.ISP_PIPEp_STAT p) 0 (setPipe p { getPipe p (runTo e s) with busy := none } (runTo e s))
  have hu : now u = max (now s) e ∧ (getPipe p u).busy = none :=
    ⟨now_runTo e s, congrArg Pipe.busy (getPipe_setPipe_same p { getPipe p (runTo e s) with busy := none } (runTo e s))⟩
  have hkept : CamKept (ctxReports c) u (stripeEnd p s) := by
    unfold stripeEnd
    simp only [hbusy]
    split
    · exact camKept_unlockPipe c u
    · next f hf =>
      refine .trans ?_ (.trans (camKept_setCtx c _ _) (camKept_settleCtx c _))
      refine (errsOnly_readLines _ _ u).memOnly.camKept.trans (WritesOnly.foldl (fun v o => ?_) _ _).memOnly.camKept
      split
      · exact writesOnly_writePieces _ _ v
      · exact .refl v
  exact ⟨(congrArg Clock.root hkept.clk).trans hu.1, (hkept.busy p).trans hu.2⟩

/-- Settles O42: what the events of a stream leave, by the steps that each of them takes; no frame commits while the oldest one
of its context stays. The stripe that is next is the least over all contexts. -/
theorem framesAndStripes : Obligations.FramesAndStripes := by
  unfold Obligations.FramesAndStripes
  refine ⟨⟨fun k s hon => ⟨_, rfl, frameStart_starts k.isLt hon⟩, fun k px r b s hon hframe hbits => ?_,
    fun k bs f e r s hon hframe => ⟨_, rfl, embeddedLine_keeps k.isLt hon hframe bs f e⟩, fun k r s hon hframe => ?_,
    fun c s hon hms habsent => ⟨_, rfl, absentTimeout_reports c.isLt hon hms habsent⟩⟩,
    fun p c i n s hidle hnext => ?_, fun p c i e s hbusy => ⟨_, rfl, stripeEnd_frees hbusy⟩,
    fun c f s hc hf => commitFrame_corrupt hc s hf⟩
  · intro base
    refine ⟨fun hlen hland hstays => ?_, fun f e hdrop => ⟨_, rfl, ?_⟩,
      fun f e => ⟨_, rfl, lineLanded_badHeader k.isLt px hon hframe hbits f e⟩⟩
    · obtain ⟨hcount, hline, hstage, hother⟩ := lineLanded_good k.isLt px hon hframe hbits hlen hland fun c hc f hf =>
        hstays c f hc hf
      have hbytes : (landedWords b (strW k s) px).length = 2 * strW k s := by rw [landedWords_length, hlen, min_self]
      rw [hbytes] at hline hstage
      refine ⟨_, rfl, hcount, hline.trans ?_, hstage, hother⟩
      rw [landedWords, List.take_of_length_le hlen.le]
    · obtain ⟨hbit, hcount, hmem⟩ := lineLanded_overrun k.isLt px hon hframe hbits f e hdrop
      exact ⟨hbit, hcount, fun hstays => hmem fun c hc g hg => (hstays c g hc hg).imp_right .inl⟩
  · obtain ⟨hended, hsize⟩ := endFrame_some k.isLt hframe false
    refine ⟨_, congrArg Host.Outcome.next (if_pos hon), ?_, hsize⟩
    rw [hended.stream]
  · obtain ⟨at_, hready, hfirst⟩ := nextCtx_earliest hnext
    obtain ⟨hbusy, hswitch, hstat, hmem⟩ := stripeStart_takes hidle hnext p.isLt
    refine ⟨_, at_, rfl, hready, fun d m j u hd hon hpipe hlock hu => hfirst d m j u hd ?_ hu, ⟨hbusy, hswitch⟩, hstat,
      hmem⟩
    simp only [servable, hon, hpipe, decide_true, Bool.and_self, Bool.true_and]
    rcases hlock with hfree | hheld
    · simp [hfree]
    · simp [hheld]

end Sys2Proof.Machine
end

section
/-! Enables of Sorter queues and batch streams, and the settlement of O43. -/

namespace Sys2Proof.Machine

/-! ### What a register stores of a write (R3, R8) -/

/-- The word `w` after a write of `v` whose software-writable bits are `m`. -/
def storedWord (m w v : Word) : Word := (w &&& ~~~m) ||| (v &&& m)

theorem bit_storedWord {i : Nat} (hi : i < 32) (m w v : Word) :
    bit (storedWord m w v) i = if bit m i then bit v i else bit w i := by
  rw [storedWord, bit_or, bit_and, bit_and, bit_not _ _ hi]
  cases bit m i <;> simp

/-- A field that software may write reads as it was written. -/
theorem fld_storedWord {m : Word} {hi lo : Nat} (hhi : hi < 32) (hm : ∀ i, lo ≤ i → i ≤ hi → bit m i = true)
    (w v : Word) : fld (storedWord m w v) hi lo = fld v hi lo := by
  refine Nat.eq_of_testBit_eq fun i => ?_
  rw [fld_testBit, fld_testBit]
  by_cases hin : i < hi + 1 - lo
  · have hstored := bit_storedWord (i := lo + i) (by omega) m w v
    rw [hm _ (by omega) (by omega), if_pos rfl] at hstored
    rw [show (storedWord m w v).getLsbD (lo + i) = v.getLsbD (lo + i) from hstored]
  · simp only [hin, decide_false, Bool.false_and]

/-- Setting a writable bit of what is written sets it in what is stored. -/
theorem storedWord_setBit {m : Word} {i : Nat} (hm : bit m i = true) (w v : Word) (b : Bool) :
    storedWord m w (setBit v i b) = setBit (storedWord m w v) i b := by
  refine word_ext _ _ fun j hj => ?_
  rw [bit_storedWord hj]
  by_cases hji : j = i
  · subst hji
    rw [hm, if_pos rfl, bit_setBit_same _ _ _ hj, bit_setBit_same _ _ _ hj]
  · rw [bit_setBit_other _ _ hji, bit_setBit_other _ _ hji, bit_storedWord hj]

theorem rwStore_eq {o : Nat} {m : Word} (hrow : (regRowAt o).map RegRow.rw = some m) (v : Word) (s : State) :
    rwStore o v s = setReg o (storedWord m (getReg o s) v) s := by
  obtain ⟨r, hr, rfl⟩ := Option.map_eq_some_iff.mp hrow
  simp only [rwStore, hr]
  rfl

/-! ### The Sorter's registers -/

theorem rw_queueTail (q : Fin 8) : (regRowAt (Reg.SRT_Qq_TAIL q)).map RegRow.rw = some (BitVec.allOnes 32) := by
  revert q
  decide +kernel

theorem rw_queueCtl (q : Fin 8) : (regRowAt (Reg.SRT_Qq_CTL q)).map RegRow.rw = some 0x8003FFFF := by
  revert q
  decide +kernel

theorem rw_streamCfg (b : Fin 4) : (regRowAt (Reg.SRT_BSb_CFG b)).map RegRow.rw = some 0x8003FFFF := by
  revert b
  decide +kernel

/-- An enable of the Sorter as the registers show it: what software may write of `v` with `ok` in bit 31, and the code of a
write of 1. -/
def storeEnable (ctl stat : Nat) (v : Word) (ok on : Bool) (code : Nat) (s : State) : State :=
  let u := rwStore ctl (setBit v 31 ok) s
  if on then setRegFld stat 23 16 code u else u

theorem storeEnable_shows {ctl stat : Nat} (hne : ctl ≠ stat) (hrow : (regRowAt ctl).map RegRow.rw = some 0x8003FFFF)
    (v : Word) (ok on : Bool) {code : Nat} (hcode : code < 256) (s : State) :
    let t := storeEnable ctl stat v ok on code s
    regBit ctl 31 t = ok ∧ regFld ctl 17 0 t = fld v 17 0 ∧ (on = true → regFld stat 23 16 t = code) ∧
      onlyRegs [ctl, stat] s t ∧ (ctl ≠ Reg.MEM_POP → stat ≠ Reg.MEM_POP → memKept s t) := by
  have hstore : rwStore ctl (setBit v 31 ok) s = setReg ctl (setBit (storedWord 0x8003FFFF (getReg ctl s) v) 31 ok) s := by
    rw [rwStore_eq hrow, storedWord_setBit (by decide)]
  have heq : storeEnable ctl stat v ok on code s =
      showEnable ctl stat (storedWord 0x8003FFFF (getReg ctl s) v) ok on code s := by
    rw [storeEnable, hstore]
    rfl
  have hlow : regFld ctl 17 0 (rwStore ctl (setBit v 31 ok) s) = fld v 17 0 := by
    rw [hstore, regFld_setReg_same, setBit, fld_setFld_other _ _ _ _ _ _ (by decide),
      fld_storedWord (by decide) (fun i _ hi => ?_)]
    have hall : ∀ i ≤ 17, bit (0x8003FFFF : Word) i = true := by decide
    exact hall i hi
  obtain ⟨hctl, hshown, hregs, hmem⟩ := showEnable_shows hne (storedWord 0x8003FFFF (getReg ctl s) v) ok on hcode s
  intro t
  refine ⟨(congrArg (regBit ctl 31) heq).trans hctl, ?_, ?_⟩
  · cases on with
    | true => exact (regFld_setReg_other _ _ _ _ hne).trans hlow
    | false => exact hlow
  · simp only [t, heq]
    exact ⟨hshown, hregs, hmem⟩

/-! ### Queues (R191, R202, R206) -/

theorem queueEnable_shows (q : Fin 8) (v : Word) (s : State) :
    let t := queueEnable q v s
    let ok := decide (regFld (Reg.SRT_Qq_BUDGET q) 31 24 s ≠ 0) && decide (regFld (Reg.SRT_Qq_BUDGET q) 23 0 s ≠ 0)
    regBit (Reg.SRT_Qq_CTL q) 31 t = (bit v 31 && ok) ∧ regFld (Reg.SRT_Qq_CTL q) 17 0 t = fld v 17 0 ∧
      (bit v 31 = true → regFld (Reg.SRT_Qq_STAT q) 23 16 t = if ok then 0x00 else 0x01) ∧
      (bit v 31 = true → ok = true → regBit (Reg.SRT_Qq_CTL q) 31 s = false → getReg (Reg.SRT_Qq_AVG q) t = 0) ∧
      onlyRegs [Reg.SRT_Qq_CTL q, Reg.SRT_Qq_STAT q, Reg.SRT_Qq_AVG q] s t := by
  intro t ok
  have hne : Reg.SRT_Qq_CTL q ≠ Reg.SRT_Qq_STAT q := by simp only [Reg.SRT_Qq_CTL, Reg.SRT_Qq_STAT]; omega
  have havg : Reg.SRT_Qq_CTL q ≠ Reg.SRT_Qq_AVG q ∧ Reg.SRT_Qq_STAT q ≠ Reg.SRT_Qq_AVG q := by
    simp only [Reg.SRT_Qq_CTL, Reg.SRT_Qq_STAT, Reg.SRT_Qq_AVG]; omega
  have hcode : (if ok then 0x00 else 0x01) < 256 := by split <;> decide
  let w := storeEnable (Reg.SRT_Qq_CTL q) (Reg.SRT_Qq_STAT q) v (bit v 31 && ok) (bit v 31) (if ok then 0x00 else 0x01) s
  obtain ⟨hctl, hlow, hshown, hregs, -⟩ : regBit (Reg.SRT_Qq_CTL q) 31 w = (bit v 31 && ok) ∧
      regFld (Reg.SRT_Qq_CTL q) 17 0 w = fld v 17 0 ∧
      (bit v 31 = true → regFld (Reg.SRT_Qq_STAT q) 23 16 w = if ok then 0x00 else 0x01) ∧ _ ∧ _ :=
    storeEnable_shows hne (rw_queueCtl q) v _ _ hcode s
  have ht : t = if bit v 31 && ok && !regBit (Reg.SRT_Qq_CTL q) 31 s then setReg (Reg.SRT_Qq_AVG q) 0 w else w := rfl
  rw [ht]
  split
  · exact ⟨(regBit_setReg_other _ _ w havg.1).trans hctl, (regFld_setReg_other _ _ _ w havg.1).trans hlow,
      fun hon => (regFld_setReg_other _ _ _ w havg.2).trans (hshown hon), fun _ _ _ => getReg_setReg_same _ _ w,
      onlyRegs_trans hregs (onlyRegs_setReg _ _ w)⟩
  · next hold =>
    refine ⟨hctl, hlow, hshown, fun hon hok hwas => absurd ?_ hold, fun o ho => hregs.1 o (by simp_all), hregs.2⟩
    rw [hon, hok, hwas]
    rfl

/-! ### Batch streams (R206) -/

theorem memKept_setBatch (b : Nat) (x : Batch) (s : State) : memKept s (setBatch b x s) :=
  ⟨fun sp _ => by cases sp <;> rfl, fun _ => rfl, rfl, rfl⟩

theorem batchStreamEnable_shows (b : Fin 4) (v : Word) (s : State) :
    let t := batchStreamEnable b v s
    let zero := decide (bsRows b s = 0) || decide (bsLen b s = 0)
    let fits := slotsFit b (fld v 17 16) s
    regBit (Reg.SRT_BSb_CFG b) 31 t = (bit v 31 && !zero && fits) ∧ regFld (Reg.SRT_BSb_CFG b) 17 0 t = fld v 17 0 ∧
      (bit v 31 = true → regFld (Reg.SRT_BSb_STAT b) 23 16 t = if zero then 0x01 else 0x00) ∧
      (bit v 31 = true → zero = false → fits = false → regBit (Reg.SRT_BSb_STAT b) 0 t = true) ∧
      (bit v 31 = true → zero = false → fits = true → regBit (Reg.SRT_BSb_CFG b) 31 s = false →
        (getBatch b t).number = 0 ∧ (getBatch b t).segs = []) ∧
      regsKept [Reg.SRT_BSb_CFG b, Reg.SRT_BSb_STAT b] s t ∧ memKept s t := by
  intro t zero fits
  have hne : Reg.SRT_BSb_CFG b ≠ Reg.SRT_BSb_STAT b := by simp only [Reg.SRT_BSb_CFG, Reg.SRT_BSb_STAT]; omega
  have hpop : Reg.SRT_BSb_CFG b ≠ Reg.MEM_POP ∧ Reg.SRT_BSb_STAT b ≠ Reg.MEM_POP := by
    simp only [Reg.SRT_BSb_CFG, Reg.SRT_BSb_STAT, Reg.MEM_POP]; omega
  have hcode : (if zero then 0x01 else 0x00) < 256 := by split <;> decide
  let w := storeEnable (Reg.SRT_BSb_CFG b) (Reg.SRT_BSb_STAT b) v (bit v 31 && !zero && fits) (bit v 31)
    (if zero then 0x01 else 0x00) s
  obtain ⟨hctl, hlow, hshown, hregs, hmem⟩ : regBit (Reg.SRT_BSb_CFG b) 31 w = (bit v 31 && !zero && fits) ∧
      regFld (Reg.SRT_BSb_CFG b) 17 0 w = fld v 17 0 ∧
      (bit v 31 = true → regFld (Reg.SRT_BSb_STAT b) 23 16 w = if zero then 0x01 else 0x00) ∧ _ ∧ _ :=
    storeEnable_shows hne (rw_streamCfg b) v _ _ hcode s
  let x := if bit v 31 && !zero && !fits then orReg (Reg.SRT_BSb_STAT b) 1 w else w
  have hx : regBit (Reg.SRT_BSb_CFG b) 31 x = (bit v 31 && !zero && fits) ∧ regFld (Reg.SRT_BSb_CFG b) 17 0 x = fld v 17 0 ∧
      (bit v 31 = true → regFld (Reg.SRT_BSb_STAT b) 23 16 x = if zero then 0x01 else 0x00) ∧
      (bit v 31 = true → zero = false → fits = false → regBit (Reg.SRT_BSb_STAT b) 0 x = true) ∧
      regsKept [Reg.SRT_BSb_CFG b, Reg.SRT_BSb_STAT b] s x ∧ memKept s x := by
    simp only [x]
    split
    · refine ⟨(regBit_setReg_other _ _ w hne).trans hctl, (regFld_setReg_other _ _ _ w hne).trans hlow, fun hon => ?_,
        fun _ _ _ => ?_, fun o ho => (getReg_setReg_other _ w (by simp_all)).trans (hregs.1 o ho),
        memKept_trans (hmem hpop.1 hpop.2) (memKept_setReg _ _ w hpop.2)⟩
      · rw [← hshown hon, regFld, regFld, orReg_eq, getReg_setReg_same, fld_or_of_zero _ (by decide)]
      · rw [orReg_eq, regBit_setReg_same, bit_or, Bool.or_eq_true]
        exact .inr (by decide)
    · next hgood =>
      exact ⟨hctl, hlow, hshown, fun hon hz hf => absurd (by rw [hon, hz, hf]; rfl) hgood, hregs.1, hmem hpop.1 hpop.2⟩
  obtain ⟨hctl, hlow, hshown, herr, hregs, hmem⟩ := hx
  let y : Batch := { Batch.reset with
    closedDay := if closeInstant b x ≤ now x then some (getReg Reg.DAY_NUM x).toNat else none }
  have ht : t = if (bit v 31 && !zero && fits) && !regBit (Reg.SRT_BSb_CFG b) 31 s then setBatch b y x else x := rfl
  rw [ht]
  split
  · exact ⟨hctl, hlow, hshown, herr, fun _ _ _ _ => by rw [getBatch_setBatch_same]; exact ⟨rfl, rfl⟩, hregs,
      memKept_trans hmem (memKept_setBatch _ _ x)⟩
  · next hold =>
    exact ⟨hctl, hlow, hshown, herr, fun hon hz hf hwas => absurd (by rw [hon, hz, hf, hwas]; rfl) hold, hregs, hmem⟩

/-- Settles O43: each of the three writes is the effect on the state that its writer has used, and an enable stores what
software may write with bit 31 decided by the settings. -/
theorem sorterEnables : Obligations.SorterEnables := by
  unfold Obligations.SorterEnables
  refine ⟨fun w q v s hw => ⟨_, congrArg Host.Outcome.next (asWriter_now w _ _ s hw), ?_⟩,
    fun w q v s hw => ⟨_, congrArg Host.Outcome.next (asWriter_now w _ _ s hw), ?_⟩,
    fun w b v s hw => ⟨_, congrArg Host.Outcome.next (asWriter_now w _ _ s hw), ?_⟩⟩
  · rw [rwStore_eq (rw_queueTail q)]
    refine ⟨?_, onlyRegs_setReg _ _ _⟩
    rw [getReg_setReg_same, storedWord, BitVec.not_allOnes, BitVec.and_zero, BitVec.zero_or, BitVec.and_allOnes]
  · cases w <;> exact queueEnable_shows q v _
  · obtain ⟨hctl, hlow, hshown, herr, hopen, hregs, hmem⟩ := batchStreamEnable_shows b v (usedBy w s)
    have hkept := memKept_trans (memKept_usedBy w s) hmem
    cases w <;> exact ⟨hctl, hlow, hshown, herr, hopen, hregs, hkept⟩

end Sys2Proof.Machine
end

section
/-! Batches of the Sorter: what packing and closing one leave alone, and what a close writes and commits (R193 to R197). -/

namespace Sys2Proof.Machine

/-! ### What packing leaves alone -/

/-- Time, the engines and every register but LOCK_SKIP are as they were. -/
structure PackKept (s t : State) : Prop where
  clk : t.clk = s.clk
  engines : t.srt.engines = s.srt.engines
  regs : ∀ o, o ≠ Reg.LOCK_SKIP → getReg o t = getReg o s

namespace PackKept

variable {s t u : State}

theorem refl (s : State) : PackKept s s := ⟨rfl, rfl, fun _ _ => rfl⟩

theorem trans (h1 : PackKept s t) (h2 : PackKept t u) : PackKept s u :=
  ⟨h2.clk.trans h1.clk, h2.engines.trans h1.engines, fun o ho => (h2.regs o ho).trans (h1.regs o ho)⟩

theorem getEngine (h : PackKept s t) (e : Nat) : Machine.getEngine e t = Machine.getEngine e s := by
  simp only [Machine.getEngine, h.engines]

theorem of_regs (hclk : t.clk = s.clk) (hsrt : t.srt = s.srt) (hregs : t.regs = s.regs) : PackKept s t :=
  ⟨hclk, by rw [hsrt], fun _ _ => by simp only [getReg, hregs]⟩

end PackKept

theorem packKept_setBatch (b : Nat) (x : Batch) (s : State) : PackKept s (setBatch b x s) := ⟨rfl, rfl, fun _ _ => rfl⟩

theorem packKept_skipLocked (s : State) : PackKept s (skipLocked s) :=
  ⟨rfl, rfl, fun _ ho => getReg_setReg_other _ s ho⟩

theorem packKept_setHandoff (k : Nat) (h : Handoff) (s : State) : PackKept s (setHandoff k h s) := .of_regs rfl rfl rfl

theorem packKept_commitOut (k : Nat) (s : State) : PackKept s (commitOut k s) := .of_regs rfl rfl rfl

theorem WritesOnly.packKept {s t : State} (h : WritesOnly s t) : PackKept s t :=
  .of_regs (congrArg State.clk h.rest :) (congrArg State.srt h.rest :) h.regs

/-! ### The image of a batch (R193, R194) -/

@[simp] theorem segEntry_length (g : Segment) : (segEntry g).length = 32 := by
  simp only [segEntry, List.length_append, leBytes_length]

@[simp] theorem batchHeader_length (x : Batch) : (batchHeader x).length = 64 := by
  simp only [batchHeader, List.length_append, leBytes_length, wordBytes_length]

theorem row_within {r rows : Nat} (hr : r < rows) (n : Nat) : r * n + n ≤ rows * n := by
  rw [← Nat.succ_mul]
  exact Nat.mul_le_mul_right n hr

/-- A batch begins with its header; with no more segments than a slot has entries for, all else lies after it and within the
size of the slot. -/
theorem batchPieces_eq (b : Nat) (x : Batch) (s : State) (hsegs : x.segs.length ≤ 64 * bsRows b s) :
    ∃ ps, batchPieces b x s = (0, batchHeader x) :: ps ∧
      ∀ p ∈ ps, 64 ≤ p.1 ∧ p.1 + p.2.length ≤ batchSize (bsRows b s) (bsLen b s) (bsFmt b s) := by
  refine ⟨_, rfl, fun p hp => ?_⟩
  simp only [List.nil_append, List.append_eq, List.mem_append, List.mem_map, List.mem_range] at hp
  rcases hp with (⟨⟨g, i⟩, hmem, rfl⟩ | ⟨r, hr, rfl⟩) | ⟨r, hr, rfl⟩
  · have hi : i < x.segs.length := (List.mem_zipIdx' hmem).1
    simp only [segEntry_length, batchSize]
    omega
  · have := row_within hr (pad64 (bsLen b s))
    simp only [markRow, slice_length, batchSize]
    omega
  · have := row_within hr (pad64 (bsLen b s * fmtBytes (bsFmt b s)))
    simp only [dataRow, slice_length, batchSize]
    omega

/-- Pieces that a byte of the staging store does not lie in leave it. -/
theorem rdByte_writePieces_apart {a x : Nat} {ps : List (Nat × List Byte)} (s : State)
    (h : ∀ p ∈ ps, ∀ i < p.2.length, x % 2 ^ 23 ≠ (a + p.1 + i) % 2 ^ 23) :
    rdByte .stage x (writePieces (.stage, a) ps s) = rdByte .stage x s := by
  induction ps generalizing s with
  | nil => rfl
  | cons p ps ih =>
    refine (ih (wrBytes .stage (a + p.1) p.2 s) fun q hq => h q (List.mem_cons_of_mem p hq)).trans ?_
    exact (rdByte_filterMarks _ _ _ _).trans (rdByte_stage_apart p.2 s (h p List.mem_cons_self))

/-- Where pieces within the staging store follow a first one, that one reads back. -/
theorem rdBytes_writePieces_head {a n : Nat} {bs : List Byte} {ps : List (Nat × List Byte)} (s : State)
    (hfits : a + n ≤ 2 ^ 23) (hbs : bs.length ≤ n) (hps : ∀ p ∈ ps, bs.length ≤ p.1 ∧ p.1 + p.2.length ≤ n) :
    rdBytes .stage a bs.length (writePieces (.stage, a) ((0, bs) :: ps) s) = bs := by
  have hfirst : rdBytes .stage a bs.length (wrBytes .stage a bs s) = bs := (landed_wrBytes (by omega) s).line
  refine Eq.trans (List.map_congr_left fun i hi => ?_) hfirst
  have hlt := List.mem_range.mp hi
  refine rdByte_writePieces_apart (ps := ps) (wrBytes .stage a bs s) fun p hp j hj => ?_
  obtain ⟨hafter, hin⟩ := hps p hp
  omega

/-! ### Closing a batch (R196, R306) -/

theorem getBatch_closeBatch (b : Nat) (s : State) : getBatch b (closeBatch b s) =
    { Batch.reset with number := (getBatch b s).number + 1, closedDay := (getBatch b s).closedDay } :=
  getBatch_setBatch_same _ _ _

/-- Where a batch of stream `b` that closes now is written: the back slot. -/
def backPlace (b : Nat) (s : State) : Nat :=
  regFld (if (getHandoff (streamKey b) s).front then Reg.SRT_BSb_SLOT0 b else Reg.SRT_BSb_SLOT1 b) 22 0 s

theorem rdByte_stage_setHandoff (a k : Nat) (h : Handoff) (s : State) :
    rdByte .stage a (setHandoff k h s) = rdByte .stage a s := by
  simp only [rdByte, reduceCtorEq, false_and, if_false]
  rfl

theorem rdByte_stage_commitOut (a k : Nat) (s : State) : rdByte .stage a (commitOut k s) = rdByte .stage a s :=
  rdByte_stage_setHandoff a k { getHandoff k s with
    commits := (getHandoff k s).commits + 1, front := !(getHandoff k s).front, commitAt := now s } s

/-- `u`, in which the image is written, once the batch that stream `b` left open has committed and `x` is open. -/
def batchCommitted (b : Nat) (g : Handoff) (x : Batch) (u : State) : State :=
  setBatch b x (commitOut (streamKey b) (setHandoff (streamKey b) g u))

theorem getHandoff_batchCommitted (b : Nat) (g : Handoff) (x : Batch) (u : State) :
    getHandoff (streamKey b) (batchCommitted b g x u) =
      { g with commits := g.commits + 1, front := !g.front, commitAt := now u } := by
  refine (getHandoff_setHandoff_same (streamKey b) _ _).trans ?_
  rw [getHandoff_setHandoff_same]
  rfl

theorem packKept_batchCommitted (b : Nat) (g : Handoff) (x : Batch) (u : State) : PackKept u (batchCommitted b g x u) :=
  (packKept_setHandoff _ g u).trans ((packKept_commitOut _ _).trans (packKept_setBatch b x _))

theorem rdBytes_batchCommitted (a n b : Nat) (g : Handoff) (x : Batch) (u : State) :
    rdBytes .stage a n (batchCommitted b g x u) = rdBytes .stage a n u := by
  refine List.map_congr_left fun i _ => ?_
  rw [batchCommitted, (memKept_setBatch b x _).1, rdByte_stage_commitOut, rdByte_stage_setHandoff]

theorem closeBatch_locked {b : Nat} {s : State} (h : backLocked (getHandoff (streamKey b) s) = true) :
    ∃ x, closeBatch b s = setBatch b x (skipLocked s) := by
  simp only [closeBatch, h, if_true]
  exact ⟨_, rfl⟩

theorem getHandoff_setBatch (k b : Nat) (x : Batch) (s : State) : getHandoff k (setBatch b x s) = getHandoff k s := rfl

/-- A close into a locked slot leaves the handoff and every memory. -/
theorem closeBatch_locked_keeps {b : Nat} {s : State} (h : backLocked (getHandoff (streamKey b) s) = true) :
    getHandoff (streamKey b) (closeBatch b s) = getHandoff (streamKey b) s ∧ memKept s (closeBatch b s) := by
  obtain ⟨x, hx⟩ := closeBatch_locked h
  rw [hx, getHandoff_setBatch]
  exact ⟨rfl, memKept_trans (memKept_setReg _ _ s (by decide)) (memKept_setBatch b x _)⟩

theorem closeBatch_free {b : Nat} {s : State} (h : backLocked (getHandoff (streamKey b) s) = false) :
    ∃ g x, closeBatch b s =
        batchCommitted b g x (writePieces (.stage, backPlace b s) (batchPieces b (getBatch b s) s) s) ∧
      g.commits = (getHandoff (streamKey b) s).commits ∧ g.front = (getHandoff (streamKey b) s).front := by
  have hplace : backPlace b s = regFld (if (!(getHandoff (streamKey b) s).front) = true then Reg.SRT_BSb_SLOT1 b
      else Reg.SRT_BSb_SLOT0 b) 22 0 s := by
    cases hfront : (getHandoff (streamKey b) s).front <;> simp only [backPlace, hfront] <;> rfl
  simp only [closeBatch, h, hplace]
  refine ⟨_, _, rfl, ?_⟩
  split <;> exact ⟨rfl, rfl⟩

theorem packKept_closeBatch (b : Nat) (s : State) : PackKept s (closeBatch b s) := by
  cases h : backLocked (getHandoff (streamKey b) s) with
  | true =>
    obtain ⟨x, hx⟩ := closeBatch_locked h
    exact hx ▸ (packKept_skipLocked s).trans (packKept_setBatch b x _)
  | false =>
    obtain ⟨g, x, hx, -⟩ := closeBatch_free h
    exact hx ▸ (writesOnly_writePieces _ _ s).packKept.trans (packKept_batchCommitted b g x _)

theorem packKept_closeAtInstant (b : Nat) (s : State) : PackKept s (closeAtInstant b s) := by
  unfold closeAtInstant
  split
  · exact (packKept_closeBatch b s).trans (packKept_setBatch _ _ _)
  · exact .refl s

theorem packKept_packSample (b : Nat) (g : Segment) (s : State) : PackKept s (packSample b g s) := by
  unfold packSample
  split
  · refine (packKept_closeAtInstant b s).trans ?_
    dsimp only
    split
    · exact (packKept_closeBatch b _).trans (packKept_setBatch _ _ _)
    · exact packKept_setBatch _ _ _
  · exact .refl s

/-- A close into a free slot whose image fits commits it, and the header reads back from it. -/
theorem closeBatch_commits {b : Nat} {s : State} (h : backLocked (getHandoff (streamKey b) s) = false) :
    let t := closeBatch b s
    (getHandoff (streamKey b) t).commits = (getHandoff (streamKey b) s).commits + 1 ∧
      (getHandoff (streamKey b) t).front = !(getHandoff (streamKey b) s).front ∧
      (slotsFit b (bsFmt b s) s = true → (getBatch b s).segs.length ≤ 64 * bsRows b s →
        rdBytes .stage (backPlace b s) 64 t = batchHeader (getBatch b s)) := by
  obtain ⟨g, x, hx, hcommits, hfront⟩ := closeBatch_free h
  intro t
  refine ⟨?_, ?_, fun hfit hsegs => ?_⟩
  · simp only [t, hx, getHandoff_batchCommitted, hcommits]
  · simp only [t, hx, getHandoff_batchCommitted, hfront]
  · obtain ⟨ps, hps, hin⟩ := batchPieces_eq b (getBatch b s) s hsegs
    have hplace : backPlace b s + batchSize (bsRows b s) (bsLen b s) (bsFmt b s) ≤ 2 ^ 23 := by
      simp only [slotsFit, Bool.and_eq_true, decide_eq_true_eq] at hfit
      obtain ⟨⟨-, hslot0⟩, hslot1⟩ := hfit
      unfold backPlace
      split
      · exact hslot0
      · exact hslot1
    have hread := rdBytes_writePieces_head (bs := batchHeader (getBatch b s)) s hplace
      (by rw [batchHeader_length, batchSize]; omega) (by rw [batchHeader_length]; exact hin)
    rw [batchHeader_length, ← hps] at hread
    rw [← hread]
    exact (congrArg (rdBytes .stage (backPlace b s) 64) hx).trans (rdBytes_batchCommitted _ _ b g x _)

end Sys2Proof.Machine
end

section
/-! Engines of the Sorter: what they take, how decodings end and budgets expire (R191 to R205), the closes of batches, and the
settlement of O44. -/

namespace Sys2Proof.Machine

/-! ### What time and a register's value leave alone -/

/-- The registers of the Sorter are not the population of the memories. -/
theorem ne_memPop_of_sorter {o : Nat} (h : o < 0x500000) : o ≠ Reg.MEM_POP := (h.trans (by decide)).ne

theorem memKept_setEngine (e : Nat) (d : Option Decoding) (s : State) : memKept s (setEngine e d s) :=
  ⟨fun sp _ => by cases sp <;> rfl, fun _ => rfl, rfl, rfl⟩

/-- Without error marks a read that goes through all its words finds nothing and counts nothing. -/
theorem readAll_of_no_marks (sp : Space) (a n : Nat) {s : State} (h : s.marks = []) :
    readAll sp a n s = (⟨rdBytes sp a n s, 0, none⟩, s) := by
  simp only [readAll, marksIn, h, List.filter_nil, List.map_nil, List.length_nil, List.min?_nil, countErrs, if_true]

/-! ### Taking a sample (R201, R205) -/

theorem nextQueue_lt {e q : Nat} {s : State} (h : nextQueue e s = some q) : q < 8 := by
  obtain ⟨i, -, rfl⟩ := List.mem_map.mp (List.mem_of_find?_eq_some h)
  exact Nat.mod_lt _ (by decide)

/-- The state once engine `e` has begun decoding `d` of queue `q`. -/
def serving (e q : Nat) (d : Decoding) (s : State) : State :=
  let t := setEngine e (some d) s
  { t with srt := { t.srt with lastQ := tset (fun _ => 7) e q t.srt.lastQ, orders := t.srt.orders + 1 } }

theorem serving_serves (e q : Nat) (d : Decoding) (s : State) :
    getEngine e (serving e q d s) = some d ∧ lastQueue e (serving e q d s) = q ∧
      (∀ i, i ≠ e → getEngine i (serving e q d s) = getEngine i s ∧ lastQueue i (serving e q d s) = lastQueue i s) ∧
      (∀ o, getReg o (serving e q d s) = getReg o s) ∧ memKept s (serving e q d s) :=
  ⟨getEngine_setEngine_same e (some d) s, tget_tset_same _ e q _,
    fun _ hi => ⟨getEngine_setEngine_other (some d) s hi, tget_tset_other _ q _ hi⟩, fun _ => rfl,
    fun sp _ => by cases sp <;> rfl, fun _ => rfl, rfl, rfl⟩

/-- The budget of a sample that is taken from queue `q` (R201, R202). -/
def sampleBudget (q : Nat) (s : State) : Option Nat :=
  if isReturn q s then none
  else some (max (regFld (Reg.SRT_Qq_BUDGET q) 23 0 s)
    (regFld (Reg.SRT_Qq_BUDGET q) 31 24 s * (getReg (Reg.SRT_Qq_AVG q) s).toNat))

theorem sampleBudget_setHead (q : Nat) (v : Word) (s : State) :
    sampleBudget q (setReg (Reg.SRT_Qq_HEAD q) v s) = sampleBudget q s := by
  have hbudget : Reg.SRT_Qq_BUDGET q ≠ Reg.SRT_Qq_HEAD q := by simp only [Reg.SRT_Qq_BUDGET, Reg.SRT_Qq_HEAD]; omega
  have havg : Reg.SRT_Qq_AVG q ≠ Reg.SRT_Qq_HEAD q := by simp only [Reg.SRT_Qq_AVG, Reg.SRT_Qq_HEAD]; omega
  have hctl : Reg.SRT_HP_CTL ≠ Reg.SRT_Qq_HEAD q := by simp only [Reg.SRT_HP_CTL, Reg.SRT_Qq_HEAD]; omega
  have hreturn : isReturn q (setReg (Reg.SRT_Qq_HEAD q) v s) = isReturn q s := by
    rw [isReturn, regFld_setReg_other _ _ _ _ hctl, isReturn]
  simp only [sampleBudget, hreturn, regFld_setReg_other _ _ _ _ hbudget, getReg_setReg_other _ _ havg]

/-- The sample whose descriptor is the oldest of queue `q` (R191). -/
def oldestSample (q : Nat) (s : State) : Sample :=
  parseSample (rdBytes .dram ((reg64 (Reg.SRT_Qq_BASE_LO q) (Reg.SRT_Qq_BASE_HI q) s).toNat +
    32 * (getReg (Reg.SRT_Qq_HEAD q) s).toNat) 32 s)

theorem engineTake_eq {e q : Nat} {s : State} (hidle : idleEngine s = some e) (hnext : nextQueue e s = some q)
    (hmarks : s.marks = []) : ∃ (d : Decoding) (u : State), engineTake s = serving e q d u ∧ d.queue = q ∧
      d.sample = oldestSample q s ∧ d.budget = sampleBudget q s ∧
      (let v := setReg (Reg.SRT_Qq_HEAD q)
        (word (((getReg (Reg.SRT_Qq_HEAD q) s).toNat + 1) % regFld (Reg.SRT_Qq_CTL q) 15 0 s)) s
       u = v ∨ u = useFree v) := by
  rw [← sampleBudget_setHead]
  simp only [engineTake, hidle, hnext, Option.bind_some, Option.map_some, readAll_of_no_marks _ _ _ hmarks]
  refine ⟨_, _, rfl, rfl, rfl, rfl, ?_⟩
  split
  · exact .inl rfl
  · exact .inr rfl

theorem engineTake_takes {e q : Nat} {s : State} (hidle : idleEngine s = some e) (hnext : nextQueue e s = some q)
    (hmarks : s.marks = []) : ∃ d, getEngine e (engineTake s) = some d ∧ d.queue = q ∧ d.sample = oldestSample q s ∧
      d.budget = sampleBudget q s ∧
      getReg (Reg.SRT_Qq_HEAD q) (engineTake s) =
        word (((getReg (Reg.SRT_Qq_HEAD q) s).toNat + 1) % regFld (Reg.SRT_Qq_CTL q) 15 0 s) ∧
      lastQueue e (engineTake s) = q ∧
      (∀ i, i ≠ e → getEngine i (engineTake s) = getEngine i s ∧ lastQueue i (engineTake s) = lastQueue i s) ∧
      regsKept [Reg.SRT_Qq_HEAD q] s (engineTake s) ∧ memKept s (engineTake s) := by
  have hq := nextQueue_lt hnext
  obtain ⟨d, u, ht, hqueue, hsample, hbudget, hu⟩ := engineTake_eq hidle hnext hmarks
  generalize word (((getReg (Reg.SRT_Qq_HEAD q) s).toNat + 1) % regFld (Reg.SRT_Qq_CTL q) 15 0 s) = w at hu ⊢
  have hpop : Reg.SRT_Qq_HEAD q ≠ Reg.MEM_POP := ne_memPop_of_sorter (by simp only [Reg.SRT_Qq_HEAD]; omega)
  have hhead : (∀ o, getReg o u = getReg o (setReg (Reg.SRT_Qq_HEAD q) w s)) ∧ u.srt = s.srt ∧ memKept s u := by
    have hmem := memKept_setReg (Reg.SRT_Qq_HEAD q) w s hpop
    rcases hu with rfl | rfl
    · exact ⟨fun _ => rfl, rfl, hmem⟩
    · exact ⟨fun _ => rfl, rfl, memKept_trans hmem ⟨fun sp _ => by cases sp <;> rfl, fun _ => rfl, rfl, rfl⟩⟩
  obtain ⟨hregs, hsrt, hmem⟩ := hhead
  obtain ⟨hengine, hlast, hothers, hkept, hserved⟩ := serving_serves e q d u
  rw [ht]
  refine ⟨d, hengine, hqueue, hsample, hbudget, ?_, hlast, fun i hi => ?_, fun o ho => ?_, memKept_trans hmem hserved⟩
  · rw [hkept, hregs, getReg_setReg_same]
  · obtain ⟨hget, hserved⟩ := hothers i hi
    exact ⟨by rw [hget, getEngine, hsrt, getEngine], by rw [hserved, lastQueue, hsrt, lastQueue]⟩
  · rw [hkept, hregs]
    exact regsKept_setReg _ w s o ho

/-! ### The end of a decoding (R195, R198, R202) -/

theorem packSample_at {b : Nat} {g : Segment} {s : State} (hon : regBit (Reg.SRT_BSb_CFG b) 31 s = true)
    (hdue : closeDue b s = false) (hrow : (packAt (getBatch b s) (bsLen b s) g.len).1 < bsRows b s) :
    packSample b g s = setBatch b (putSegment g (packAt (getBatch b s) (bsLen b s) g.len) (getBatch b s)) s := by
  have hopen : closeAtInstant b s = s := by simp only [closeAtInstant, hdue]; rfl
  simp only [packSample, hon, hopen, if_true]
  exact if_neg (not_le.mpr hrow)

/-- What the packing of a sample rests on, where A_q alone has changed. -/
theorem packing_setAvg {b q : Nat} (hq : q < 8) (v : Word) (s : State) :
    regBit (Reg.SRT_BSb_CFG b) 31 (setReg (Reg.SRT_Qq_AVG q) v s) = regBit (Reg.SRT_BSb_CFG b) 31 s ∧
      closeDue b (setReg (Reg.SRT_Qq_AVG q) v s) = closeDue b s ∧ bsLen b (setReg (Reg.SRT_Qq_AVG q) v s) = bsLen b s ∧
      bsRows b (setReg (Reg.SRT_Qq_AVG q) v s) = bsRows b s := by
  have hcfg : Reg.SRT_BSb_CFG b ≠ Reg.SRT_Qq_AVG q := by simp only [Reg.SRT_BSb_CFG, Reg.SRT_Qq_AVG]; omega
  have hgeom : Reg.SRT_BSb_GEOM b ≠ Reg.SRT_Qq_AVG q := by simp only [Reg.SRT_BSb_GEOM, Reg.SRT_Qq_AVG]; omega
  have hclose : Reg.SRT_BSb_CLOSE b ≠ Reg.SRT_Qq_AVG q := by simp only [Reg.SRT_BSb_CLOSE, Reg.SRT_Qq_AVG]; omega
  have hday : Reg.DAY_NUM ≠ Reg.SRT_Qq_AVG q := by simp only [Reg.DAY_NUM, Reg.SRT_Qq_AVG]; omega
  have hop : Reg.FAB_OP_STAT ≠ Reg.SRT_Qq_AVG q := by simp only [Reg.FAB_OP_STAT, Reg.SRT_Qq_AVG]; omega
  have hinstant : closeInstant b (setReg (Reg.SRT_Qq_AVG q) v s) = closeInstant b s := by
    rw [closeInstant, getReg_setReg_other _ _ hclose]
    exact fabricEdge_congr (getReg_setReg_other _ _ hop) _
  refine ⟨regBit_setReg_other _ _ s hcfg, ?_, regFld_setReg_other _ _ _ s hgeom, regFld_setReg_other _ _ _ s hgeom⟩
  simp only [closeDue, regBit_setReg_other _ _ s hcfg, getReg_setReg_other _ _ hday, hinstant]
  rfl

/-- The segment that a sound sample of elements `es` becomes. -/
def soundSegment (d : Decoding) (es : List Word) (s : State) : Segment :=
  ⟨d.sample.id, 2 * (isReturn d.queue s).toNat, 0, 0, d.queue, d.sample.stamp, es, es.length⟩

theorem finishDecoding_sound {d : Decoding} {es : List Word} {s : State} (hbad : d.descBad = false) (hmarks : s.marks = [])
    (hes : sampleElems d.sample (bsLen (queueStream d.queue s) s) (bsFmt (queueStream d.queue s) s)
      (rdBytes .dram d.sample.inAddr.toNat d.sample.inLen s) false = some es) :
    finishDecoding d s = packSample (queueStream d.queue s) (soundSegment d es s) (updateAvg d.queue d.cycles s) := by
  simp only [finishDecoding, readAll_of_no_marks _ _ _ hmarks, hbad, Option.isSome_none, Bool.or_false, hes]
  rfl

/-- A sound sample is packed where it fits in the open batch, and updates A_q. -/
theorem finishDecoding_packs {d : Decoding} {b : Nat} {es : List Word} {s : State} (hq : d.queue < 8)
    (hbad : d.descBad = false) (hmarks : s.marks = []) (hb : queueStream d.queue s = b)
    (hes : sampleElems d.sample (bsLen b s) (bsFmt b s) (rdBytes .dram d.sample.inAddr.toNat d.sample.inLen s) false = some es)
    (hon : regBit (Reg.SRT_BSb_CFG b) 31 s = true) (hdue : closeDue b s = false)
    (hrow : (packAt (getBatch b s) (bsLen b s) es.length).1 < bsRows b s) :
    finishDecoding d s = setBatch b
      (putSegment (soundSegment d es s) (packAt (getBatch b s) (bsLen b s) es.length) (getBatch b s))
      (updateAvg d.queue d.cycles s) := by
  subst hb
  rw [finishDecoding_sound hbad hmarks hes]
  obtain ⟨w, hw⟩ : ∃ w, updateAvg d.queue d.cycles s = setReg (Reg.SRT_Qq_AVG d.queue) w s := ⟨_, rfl⟩
  obtain ⟨hcfg, hclose, hlen, hrows⟩ := packing_setAvg (b := queueStream d.queue s) hq w s
  rw [hw, packSample_at (hcfg.trans hon) (hclose.trans hdue) (by rw [hlen, hrows]; exact hrow), hlen]
  rfl

theorem decodeEnd_alone {e : Nat} {d : Decoding} {at_ : Nat} {s : State} (hd : getEngine e s = some d)
    (hat : decodeEndAt d = some at_) (halone : decodesEnding at_ s = [(e, d)]) :
    decodeEnd e s = finishDecoding d (setEngine e none (runTo at_ s)) := by
  have hrun : decodesEnding at_ (runTo at_ s) = [(e, d)] := halone
  simp only [decodeEnd, hd, Option.bind_some, hat, hrun]
  rfl

/-! ### Budgets that expire (R201, R203) -/

@[simp] theorem sampleBytes_length (x : Sample) : (sampleBytes x).length = 32 := by
  simp only [sampleBytes, List.length_append, leBytes_length, wordBytes_length]

/-- Bytes that DRAM takes below the ledger, within its capacity, read back. -/
theorem rdBytes_wrBytes_dram {a : Nat} {bs : List Byte} {s : State} (hlow : a + bs.length ≤ 0x100000)
    (hhas : ∀ i < bs.length, dramHas (a + i) s = true) : rdBytes .dram a bs.length (wrBytes .dram a bs s) = bs := by
  refine List.ext_getElem (by simp only [rdBytes, List.length_map, List.length_range]) fun i hi hi' => ?_
  have hkey : memKey .dram (a + i) = a + i := Nat.mod_eq_of_lt (by omega)
  have hled : inLedger (a + i) = false := by
    simp only [inLedger, show ¬ 0x100000 ≤ a + i by omega, decide_false, Bool.false_and]
  simp only [rdBytes, List.getElem_map, List.getElem_range]
  refine (rdByte_filterMarks _ _ _ _).trans (rdByte_wrRaw_same (by omega) hi' ?_ ?_)
  · rw [hkey, hhas i hi']
  · rw [hkey, hled]

theorem budgetExpiry_over {e : Nat} {d : Decoding} {b : Nat} {s : State} (hd : getEngine e s = some d)
    (hb : d.budget = some b) (hover : b < d.cycles) :
    budgetExpiry e s =
      let u := setEngine e none (runTo (d.startAt + srtRoot * b) s)
      if regBit Reg.SRT_HP_CTL 31 s && decide (hostPathCount s < 32) then
        postHostPath d.queue d.sample (updateAvg d.queue b u)
      else
        packFiller d.queue d.sample 4
          (setRegFld (Reg.SRT_Qq_STAT d.queue) 23 16 Code.overrun (bumpReg Reg.SRT_HP_DROP 1 u)) := by
  simp only [budgetExpiry, hd, hb, if_neg (not_le.mpr hover)]
  rfl

/-- Where the next sample that the host path takes is written. -/
def hostPathPlace (s : State) : Nat := 4096 * regFld Reg.SRT_HP_CTL 7 0 s + 64 * ((getReg Reg.SRT_HP_TAIL s).toNat % 32)

/-- The host path lies below the ledger. -/
theorem hostPathPlace_low (s : State) : hostPathPlace s + 64 ≤ 0x100000 := by
  have hpath : regFld Reg.SRT_HP_CTL 7 0 s < 256 := fld_lt _ 7 0
  unfold hostPathPlace
  omega

theorem postHostPath_posts {q : Nat} (hq : q < 8) (x : Sample) (s : State) :
    let t := postHostPath q x s
    t.clk = s.clk ∧ t.srt = s.srt ∧ getReg Reg.SRT_HP_TAIL t = getReg Reg.SRT_HP_TAIL s + 1 ∧
      getReg (Reg.SRT_Qq_HOSTED q) t = countUp (getReg (Reg.SRT_Qq_HOSTED q) s) 1 ∧
      ((∀ i < 64, dramHas (hostPathPlace s + i) s = true) →
        rdBytes .dram (hostPathPlace s) 64 t = sampleBytes x ++ leBytes 32 q) := by
  have hne : Reg.SRT_HP_TAIL ≠ Reg.SRT_Qq_HOSTED q := by simp only [Reg.SRT_HP_TAIL, Reg.SRT_Qq_HOSTED]; omega
  have hpop : Reg.SRT_Qq_HOSTED q ≠ Reg.MEM_POP := ne_memPop_of_sorter (by simp only [Reg.SRT_Qq_HOSTED]; omega)
  have hlen : (sampleBytes x ++ leBytes 32 q).length = 64 := by
    rw [List.length_append, sampleBytes_length, leBytes_length]
  obtain ⟨v, hv⟩ : ∃ v, v = wrBytes .dram (hostPathPlace s) (sampleBytes x ++ leBytes 32 q) s := ⟨_, rfl⟩
  have hwrites : WritesOnly s v := hv ▸ writesOnly_wrBytes _ _ _ s
  have ht : postHostPath q x s = emit (.msix 9) (bumpReg (Reg.SRT_Qq_HOSTED q) 1 (incReg Reg.SRT_HP_TAIL v)) := by
    rw [hv]
    rfl
  simp only [ht, bumpReg_eq, incReg_eq]
  refine ⟨(congrArg State.clk hwrites.rest :), (congrArg State.srt hwrites.rest :), ?_, ?_, fun hhas => ?_⟩
  · rw [getReg_emit, getReg_setReg_other _ _ hne, getReg_setReg_same, hwrites.getReg]
  · rw [getReg_emit, getReg_setReg_same, getReg_setReg_other _ _ hne.symm, hwrites.getReg]
  · have hread := rdBytes_wrBytes_dram (bs := sampleBytes x ++ leBytes 32 q) (s := s) (hlen.symm ▸ hostPathPlace_low s)
      (hlen.symm ▸ hhas)
    rw [hlen, ← hv] at hread
    refine (rdBytes_congr (memKept_trans ?_ (memKept_emit _ _)) _ _ _).trans hread
    exact memKept_trans (memKept_setReg _ _ v (by decide)) (memKept_setReg _ _ _ hpop)

/-- A sample over its budget that the host path takes (R203). -/
theorem budgetExpiry_posts {e : Nat} {d : Decoding} {b : Nat} {s : State} (hd : getEngine e s = some d)
    (hb : d.budget = some b) (hover : b < d.cycles) (hq : d.queue < 8) (hon : regBit Reg.SRT_HP_CTL 31 s = true)
    (hroom : hostPathCount s < 32) :
    let t := budgetExpiry e s
    now t = max (now s) (d.startAt + srtRoot * b) ∧ getEngine e t = none ∧
      getReg Reg.SRT_HP_TAIL t = getReg Reg.SRT_HP_TAIL s + 1 ∧
      getReg (Reg.SRT_Qq_HOSTED d.queue) t = countUp (getReg (Reg.SRT_Qq_HOSTED d.queue) s) 1 ∧
      ((∀ i < 64, dramHas (hostPathPlace s + i) s = true) →
        rdBytes .dram (hostPathPlace s) 64 t = sampleBytes d.sample ++ leBytes 32 d.queue) ∧
      t.srt.batches = s.srt.batches := by
  intro t
  let u := setEngine e none (runTo (d.startAt + srtRoot * b) s)
  obtain ⟨w, hw⟩ : ∃ w, updateAvg d.queue b u = setReg (Reg.SRT_Qq_AVG d.queue) w u := ⟨_, rfl⟩
  let v := setReg (Reg.SRT_Qq_AVG d.queue) w u
  have hkept : ∀ o, o ≠ Reg.SRT_Qq_AVG d.queue → getReg o v = getReg o s := fun _ ho => getReg_setReg_other w u ho
  have htail : getReg Reg.SRT_HP_TAIL v = getReg Reg.SRT_HP_TAIL s :=
    hkept _ (by simp only [Reg.SRT_HP_TAIL, Reg.SRT_Qq_AVG]; omega)
  have hhosted : getReg (Reg.SRT_Qq_HOSTED d.queue) v = getReg (Reg.SRT_Qq_HOSTED d.queue) s :=
    hkept _ (by simp only [Reg.SRT_Qq_HOSTED, Reg.SRT_Qq_AVG]; omega)
  have hplace : hostPathPlace v = hostPathPlace s := by
    rw [hostPathPlace, htail, regFld, hkept _ (by simp only [Reg.SRT_HP_CTL, Reg.SRT_Qq_AVG]; omega)]
    rfl
  have hhas : ∀ a, dramHas a v = dramHas a s := fun a => by
    rw [dramHas, hkept _ (ne_memPop_of_sorter (by simp only [Reg.SRT_Qq_AVG]; omega)).symm, dramHas]
  have hopen : (regBit Reg.SRT_HP_CTL 31 s && decide (hostPathCount s < 32)) = true := by
    rw [hon, decide_eq_true hroom, Bool.and_self]
  have ht : t = postHostPath d.queue d.sample v := (budgetExpiry_over hd hb hover).trans ((if_pos hopen).trans (congrArg _ hw))
  obtain ⟨hclk, hsrt, htail', hhosted', hposted⟩ := postHostPath_posts hq d.sample v
  rw [← ht, hplace] at hposted
  rw [← ht] at hclk hsrt htail' hhosted'
  refine ⟨(congrArg Clock.root hclk).trans (now_runTo _ s), ?_, by rw [htail', htail], by rw [hhosted', hhosted],
    fun h => hposted fun i hi => (hhas _).trans (h i hi), (congrArg Sorter.batches hsrt :)⟩
  rw [getEngine, hsrt]
  exact getEngine_setEngine_same e none _

/-- A sample over its budget that the host path does not take (R203). -/
theorem budgetExpiry_drops {e : Nat} {d : Decoding} {b : Nat} {s : State} (hd : getEngine e s = some d)
    (hb : d.budget = some b) (hover : b < d.cycles) (hq : d.queue < 8)
    (hfull : regBit Reg.SRT_HP_CTL 31 s = false ∨ 32 ≤ hostPathCount s) :
    let t := budgetExpiry e s
    getEngine e t = none ∧ getReg Reg.SRT_HP_DROP t = countUp (getReg Reg.SRT_HP_DROP s) 1 ∧
      regFld (Reg.SRT_Qq_STAT d.queue) 23 16 t = 0x0B ∧ getReg Reg.SRT_HP_TAIL t = getReg Reg.SRT_HP_TAIL s := by
  intro t
  have hdrop : Reg.SRT_HP_DROP ≠ Reg.SRT_Qq_STAT d.queue := by simp only [Reg.SRT_HP_DROP, Reg.SRT_Qq_STAT]; omega
  have htail : Reg.SRT_HP_TAIL ≠ Reg.SRT_Qq_STAT d.queue := by simp only [Reg.SRT_HP_TAIL, Reg.SRT_Qq_STAT]; omega
  have hstat : Reg.SRT_Qq_STAT d.queue ≠ Reg.LOCK_SKIP := by simp only [Reg.SRT_Qq_STAT, Reg.LOCK_SKIP]; omega
  have hclosed : ¬ (regBit Reg.SRT_HP_CTL 31 s && decide (hostPathCount s < 32)) = true := by
    simp only [Bool.and_eq_true, decide_eq_true_eq, not_and_or, not_lt, Bool.not_eq_true]
    exact hfull
  let u := setEngine e none (runTo (d.startAt + srtRoot * b) s)
  let v := setRegFld (Reg.SRT_Qq_STAT d.queue) 23 16 Code.overrun (bumpReg Reg.SRT_HP_DROP 1 u)
  have ht : t = packFiller d.queue d.sample 4 v := (budgetExpiry_over hd hb hover).trans (if_neg hclosed)
  have hkept : PackKept v t := ht ▸ packKept_packSample _ _ v
  refine ⟨(hkept.getEngine e).trans (getEngine_setEngine_same e none _), ?_, ?_, ?_⟩
  · rw [hkept.regs _ (by decide)]
    exact (getReg_setReg_other _ _ hdrop).trans (getReg_setReg_same _ _ u)
  · rw [regFld, hkept.regs _ hstat]
    exact regFld_setRegFld_same _ 23 16 Code.overrun _ (by decide)
  · rw [hkept.regs _ (by decide)]
    exact (getReg_setReg_other _ _ htail).trans (getReg_setReg_other _ u (by decide))

/-! ### Close instants (R196, R344) -/

theorem closeDue_runTo {b : Nat} {s : State} (hon : regBit (Reg.SRT_BSb_CFG b) 31 s = true)
    (hday : (getBatch b s).closedDay ≠ some (getReg Reg.DAY_NUM s).toNat) :
    closeDue b (runTo (closeInstant b s) s) = true := by
  have hcfg : regBit (Reg.SRT_BSb_CFG b) 31 (runTo (closeInstant b s) s) = true := hon
  have hopen : (getBatch b (runTo (closeInstant b s) s)).closedDay ≠
      some (getReg Reg.DAY_NUM (runTo (closeInstant b s) s)).toNat := hday
  have hcome : closeInstant b (runTo (closeInstant b s) s) / srtRoot ≤ now (runTo (closeInstant b s) s) / srtRoot := by
    rw [now_runTo]
    exact Nat.div_le_div_right (le_max_right _ _)
  simp only [closeDue, hcfg, hopen, hcome, ne_eq, not_false_eq_true, decide_true, Bool.and_self]

theorem execBatchClose_closes {b : Fin 4} {s : State} (hon : regBit (Reg.SRT_BSb_CFG b) 31 s = true)
    (hday : (getBatch b s).closedDay ≠ some (getReg Reg.DAY_NUM s).toNat) :
    let u := closeBatch b (runTo (closeInstant b s) s)
    execBatchClose b s = .next (setBatch b { getBatch b u with closedDay := some (getReg Reg.DAY_NUM u).toNat } u) := by
  simp only [execBatchClose, hon, if_true, closeAtInstant, closeDue_runTo hon hday]

/-- Settles O44: what an engine takes, how a sample ends, and what closes a batch. -/
theorem samplesAndBatches : Obligations.SamplesAndBatches := by
  unfold Obligations.SamplesAndBatches
  refine ⟨⟨fun e q s hidle hnext hmarks => ?_, fun e d at_ es s hd hat halone hq hbad hmarks => ?_,
    fun e d b s hd hb hover hq => ?_⟩, fun b s hon hday => ?_⟩
  · obtain ⟨d, htaken⟩ := engineTake_takes hidle hnext hmarks
    exact ⟨_, d, rfl, htaken⟩
  · intro b x p hes hon hdue hrow a
    let u := setEngine e none (runTo at_ s)
    have hend : decodeEnd e s = setBatch b (putSegment (soundSegment d es u) p x) (updateAvg d.queue d.cycles u) :=
      (decodeEnd_alone hd hat halone).trans (finishDecoding_packs (s := u) hq hbad hmarks rfl hes hon hdue hrow)
    have havg : Reg.SRT_Qq_AVG d.queue ≠ Reg.MEM_POP := ne_memPop_of_sorter (by simp only [Reg.SRT_Qq_AVG]; omega)
    refine ⟨_, congrArg Host.Outcome.next hend, now_runTo at_ s, getEngine_setEngine_same e none _, ?_⟩
    rw [getBatch_setBatch_same, getReg_setBatch]
    refine ⟨rfl, rfl, rfl, getReg_setReg_same _ _ u, ?_⟩
    exact memKept_trans (memKept_trans (memKept_runTo at_ s) (memKept_setEngine e none _))
      (memKept_trans (memKept_setReg _ _ u havg) (memKept_setBatch b _ _))
  · exact ⟨fun hpath hroom => ⟨_, rfl, budgetExpiry_posts hd hb hover hq hpath hroom⟩,
      fun hfull => ⟨_, rfl, budgetExpiry_drops hd hb hover hq hfull⟩⟩
  · let v := runTo (closeInstant b s) s
    let u := closeBatch b v
    have hkept : PackKept v u := packKept_closeBatch b v
    refine ⟨_, execBatchClose_closes hon hday, ?_⟩
    rw [getBatch_setBatch_same, getBatch_closeBatch]
    refine ⟨(congrArg Clock.root hkept.clk).trans (now_runTo _ s), rfl, rfl, ?_, fun hlocked => ?_, fun hfree => ?_⟩
    · exact congrArg (fun w : Word => some w.toNat) (hkept.regs Reg.DAY_NUM (by decide))
    · obtain ⟨hhandoff, hmem⟩ := closeBatch_locked_keeps (s := v) hlocked
      rw [getHandoff_setBatch]
      exact ⟨hhandoff, memKept_trans (memKept_trans (memKept_runTo _ s) hmem) (memKept_setBatch _ _ u)⟩
    · obtain ⟨hcommits, hfront, hheader⟩ := closeBatch_commits (s := v) hfree
      rw [getHandoff_setBatch]
      exact ⟨hcommits, hfront, fun hfit hsegs => (rdBytes_congr (memKept_setBatch _ _ u) _ _ _).trans (hheader hfit hsegs)⟩

end Sys2Proof.Machine
end

section
/-! The solver's registers: fields that a write sets or passes over, what a read of a counter returns and clears, the solver's
enable and its limits; and the settlements of O12 and O13. -/

namespace Sys2Proof.Machine

open Sys2Proof.Config

/-! ### Fields of registers -/

theorem regBit_setRegFld_inside (o hi lo v i : Nat) (s : State) (h : hi < 32) (h1 : lo ≤ i) (h2 : i ≤ hi) :
    regBit o i (setRegFld o hi lo v s) = v.testBit (i - lo) := by
  rw [setRegFld_eq, regBit_setReg_same, bit_setFld_inside _ _ _ _ _ h h1 h2]

theorem regBit_setRegFld_apart (o hi lo v i : Nat) (s : State) (h : i < lo ∨ hi < i) :
    regBit o i (setRegFld o hi lo v s) = regBit o i s := by
  rw [setRegFld_eq, regBit_setReg_same, bit_setFld_other _ _ _ _ _ h, regBit]

theorem regBit_setRegFld_other {o p : Nat} (hi lo v i : Nat) (s : State) (h : p ≠ o) :
    regBit p i (setRegFld o hi lo v s) = regBit p i s := regBit_setReg_other i _ s h

@[simp] theorem regBit_usedBy (o i : Nat) (w : Writer) (s : State) : regBit o i (usedBy w s) = regBit o i s := by
  simp only [regBit, getReg_usedBy]

@[simp] theorem regFld_usedBy (o hi lo : Nat) (w : Writer) (s : State) : regFld o hi lo (usedBy w s) = regFld o hi lo s := by
  simp only [regFld, getReg_usedBy]

@[simp] theorem slv_usedBy (w : Writer) (s : State) : (usedBy w s).slv = s.slv := by
  cases w <;> rfl

/-! ### One more register among those that may change -/

theorem regsKept_step {l : List Nat} {o : Nat} (ho : o ∈ l) {s t : State} (h : regsKept l s t) (v : Word) :
    regsKept l s (setReg o v t) := fun p hp =>
  (getReg_setReg_other _ _ (ne_of_mem_of_not_mem ho hp).symm).trans (h p hp)

theorem onlyRegs_step {l : List Nat} {o : Nat} (ho : o ∈ l) {s t : State} (h : onlyRegs l s t) (v : Word) :
    onlyRegs l s (setReg o v t) := ⟨regsKept_step ho h.1 v, h.2⟩

theorem memKept_step {o : Nat} (ho : o ≠ Reg.MEM_POP) {s t : State} (h : memKept s t) (v : Word) :
    memKept s (setReg o v t) := memKept_trans h (memKept_setReg _ _ _ ho)

/-- Registers other than MEM_POP are no part of what the memories read as. -/
theorem memKept_of_onlyRegs {l : List Nat} {s t : State} (h : onlyRegs l s t) (hl : Reg.MEM_POP ∉ l) : memKept s t := by
  obtain ⟨hregs, hrest⟩ := h
  refine ⟨fun sp a => ?_, fun a => (congrArg (hostByte a) hrest :), (congrArg State.flash hrest :),
    (congrArg State.fuses hrest :)⟩
  have hread : rdByte sp a { t with regs := s.regs } = rdByte sp a s := congrArg (rdByte sp a) hrest
  have hhas : dramHas (memKey sp a) t = dramHas (memKey sp a) { t with regs := s.regs } := by
    simp only [dramHas, hregs _ hl]
    rfl
  rw [← hread]
  unfold rdByte
  rw [hhas]
  cases sp <;> rfl

/-! ### Counters (R236) -/

/-- A counter holds at its largest value. -/
theorem toNat_countUp (w : Word) (n : Nat) : (countUp w n).toNat = min 0xFFFFFFFF (w.toNat + n) := by
  simp only [countUp, satAdd, word, BitVec.toNat_ofNat]
  omega

/-- A counter that a read has cleared takes the increments of that cycle (R5). -/
theorem rcAfterRead_toNat (inc : BitVec 32) : rcAfterRead inc.toNat = inc := by
  have hlt := inc.isLt
  have hzero : (0 : Word).toNat = 0 := rfl
  apply BitVec.eq_of_toNat_eq
  rw [rcAfterRead, toNat_countUp, hzero]
  omega

/-- A read by the host that is served now. -/
theorem asReader_now (off : Nat) (f : State → Word × State) (s : State) (h : writesNow .host s = true) :
    asReader .host off f s = returnTo .host (f (usedBy .host s)).1 (f (usedBy .host s)).2 := by
  simp only [writesNow, Bool.and_eq_true, Option.isSome_iff_exists] at h
  obtain ⟨hb, m, hm⟩ := h
  have hu := blockUsable_of_blocksUp off s { s with sess := { s.sess with maint := some { m with usedAt := now s } } } hb rfl
  simp only [asReader, usedBy, hm, hu, if_true, Option.map_some]

/-- The map gives every counter of the solver RC access in the block windows. -/
theorem regRowAt_solverCounter {o : Nat} (h : o ∈ solverCounters) : ∃ r, regRowAt o = some r ∧ r.wo = false ∧ r.rc = true := by
  have hall : ∀ o ∈ solverCounters, (regRowAt o).any (fun r => !r.wo && r.rc) = true := by decide +kernel
  simpa [Option.any_eq_true] using hall _ h

/-- The counters are aligned, and lie in the solver's block. -/
theorem solverCounter_range {o : Nat} (h : o ∈ solverCounters) : o % 4 = 0 ∧ 0x500000 ≤ o ∧ o < 0x500048 := by
  have hall : ∀ o ∈ solverCounters, o % 4 = 0 ∧ 0x500000 ≤ o ∧ o < 0x500048 := by decide
  exact hall _ h

/-- A read of a counter returns it, and leaves the increments of the cycle (R5, R236). -/
theorem readBlock_solverCounter {o : Nat} (h : o ∈ solverCounters) (inc : BitVec 32) (s : State) :
    readBlock o inc.toNat s = (getReg o s, setReg o inc s) := by
  obtain ⟨r, hr, hwo, hrc⟩ := regRowAt_solverCounter h
  obtain ⟨-, hlo, hhi⟩ := solverCounter_range h
  have hne : ∀ p, p < 0x500000 ∨ 0x500048 ≤ p → ¬ o = p := fun p hp => by omega
  have hpmon : ¬ (Reg.MGT_PMONp 0 ≤ o ∧ o ≤ Reg.MGT_PMONp 3) := fun e => by
    have : 0x500048 ≤ Reg.MGT_PMONp 0 := by decide
    omega
  have hfuse : ¬ (Reg.MGT_FUSEw 0 ≤ o ∧ o ≤ Reg.MGT_FUSEw 63) := fun e => by
    have : 0x500048 ≤ Reg.MGT_FUSEw 0 := by decide
    omega
  simp only [readBlock, hr, hwo, hrc, hne Reg.TIM_TICK_LO (by decide), hne Reg.SRV_TRC_DATA (by decide),
    hne Reg.PWR_BALLAST (by decide), hne Reg.PWR_BOOT_STAT (by decide), hne Reg.PWR_DOM_STAT0 (by decide),
    hne Reg.PWR_DOM_STAT1 (by decide), hne Reg.CLK_GATE (by decide), hpmon, hfuse, or_self, Bool.false_eq_true, if_false,
    if_true, rcAfterRead_toNat]

/-- A host read of a block register that is served now, with the PCIe domain on. -/
theorem exec_rcRead_block (off : BitVec 26) (inc : BitVec 32) (s : State) (ha : off.toNat % 4 = 0)
    (hb : barRange off.toNat = .block) (hp : pcieUp (deliver (usedBy .host s)) = true)
    (hw : writesNow .host (deliver (usedBy .host s)) = true) :
    exec (.rcRead off ⟨.w32, inc⟩) s =
      .next (let r := readBlock off.toNat inc.toNat (usedBy .host (deliver (usedBy .host s)))
        returnTo .host r.1 r.2) := by
  simp only [exec, execRcRead, touchMaint_maint, hp, Bool.not_true, Bool.false_eq_true, if_false, ha, and_self, if_true,
    hostRead, hb, asReader_now _ _ _ hw]

/-- Settles O12: a counter saturates by `countUp`, and its row of the register map makes a read of it clear it. -/
theorem solverCounterReads : Obligations.SolverCounterReads := by
  unfold Obligations.SolverCounterReads
  refine ⟨fun o _ n s => ?_, ?_⟩
  · rw [bumpReg_eq, getReg_setReg_same, toNat_countUp]
  · intro off inc s hoff u hp hw
    obtain ⟨ha, hlo, hhi⟩ := solverCounter_range hoff
    have hb : barRange off.toNat = .block := barRange_block (by omega) (by omega)
    refine ⟨_, exec_rcRead_block off inc s ha hb hp hw, ?_⟩
    rw [readBlock_solverCounter hoff, getReg_usedBy]
    exact ⟨rfl, getReg_setReg_same _ _ _, onlyRegs_setReg _ _ _⟩

/-! ### Enabling and disabling (R235, R494) -/

theorem exec_solverEnable (w : Writer) (s : State) (hw : writesNow w s = true) :
    exec (.solverEnable w) s = .next (enableSolver (usedBy w s)) :=
  congrArg Host.Outcome.next (asWriter_now w _ _ s hw)

theorem exec_solverDisable (w : Writer) (s : State) (hw : writesNow w s = true) :
    exec (.solverDisable w) s = .next (disableSolver (usedBy w s)) :=
  congrArg Host.Outcome.next (asWriter_now w _ _ s hw)

theorem exec_solverLimitWrite (w : Writer) (m : Bool) (v : Word) (s : State) (hw : writesNow w s = true) :
    exec (.solverLimitWrite w m v) s = .next (writeLimit m v (usedBy w s)) :=
  congrArg Host.Outcome.next (asWriter_now w _ _ s hw)

/-- The registers of a solver that an enable has started: SLV_STAT shows RUNNING and neither code. -/
def running (s : State) : State :=
  setRegFld Reg.SLV_CTL 31 31 1
    (setRegFld Reg.SLV_STAT 30 30 1 (setRegFld Reg.SLV_STAT 4 4 0 (setRegFld Reg.SLV_STAT 23 16 0 s)))

theorem running_shows (s : State) :
    regBit Reg.SLV_CTL 31 (running s) = true ∧ regBit Reg.SLV_STAT 30 (running s) = true ∧
      regBit Reg.SLV_STAT 4 (running s) = false ∧ regFld Reg.SLV_STAT 23 16 (running s) = 0 := by
  refine ⟨?_, ?_, ?_, ?_⟩
  · exact regBit_setRegFld_inside _ _ _ _ _ _ (by decide) le_rfl le_rfl
  · rw [running, regBit_setRegFld_other _ _ _ _ _ (by decide), regBit_setRegFld_inside _ _ _ _ _ _ (by decide) le_rfl le_rfl]
    rfl
  · rw [running, regBit_setRegFld_other _ _ _ _ _ (by decide), regBit_setRegFld_apart _ _ _ _ _ _ (by decide),
      regBit_setRegFld_inside _ _ _ _ _ _ (by decide) le_rfl le_rfl]
    rfl
  · rw [running, setRegFld_eq, regFld_setReg_other _ _ _ _ (by decide), regFld_setRegFld_apart _ _ _ _ _ _ _ (by decide),
      regFld_setRegFld_apart _ _ _ _ _ _ _ (by decide), regFld_setRegFld_same _ _ _ _ _ (by decide)]
    rfl

theorem onlyRegs_running (s : State) : onlyRegs [Reg.SLV_CTL, Reg.SLV_STAT] s (running s) := by
  have hctl : Reg.SLV_CTL ∈ [Reg.SLV_CTL, Reg.SLV_STAT] := by decide
  have hstat : Reg.SLV_STAT ∈ [Reg.SLV_CTL, Reg.SLV_STAT] := by decide
  exact onlyRegs_step hctl (onlyRegs_step hstat (onlyRegs_step hstat (onlyRegs_step hstat (onlyRegs_refl _ s) _) _) _) _

section
variable {s : State} (hoff : regBit Reg.SLV_CTL 31 s = false)
include hoff

/-- An enable with a limit 0. -/
theorem enableSolver_zeroLimit (h : regFld Reg.SLV_DEADLINE 23 0 s = 0 ∨ regFld Reg.SLV_MAX_ITER 9 0 s = 0) :
    enableSolver s = setRegFld Reg.SLV_STAT 4 4 0 (setRegFld Reg.SLV_STAT 23 16 Code.fieldZero s) := by
  simp only [enableSolver, hoff, Bool.false_eq_true, if_false, h, if_true]

variable (hd : regFld Reg.SLV_DEADLINE 23 0 s ≠ 0) (hm : regFld Reg.SLV_MAX_ITER 9 0 s ≠ 0)
include hd hm

/-- An enable without a model. -/
theorem enableSolver_noModel (hc : s.slv.current = none) (hp : s.slv.pending = none) :
    enableSolver s = setRegFld Reg.SLV_STAT 4 4 1 (setRegFld Reg.SLV_STAT 23 16 0 s) := by
  simp only [enableSolver, hoff, Bool.false_eq_true, if_false, hd, hm, or_self, hc, hp, and_self, if_true]

/-- An enable that succeeds: SOLVE restarts. -/
theorem enableSolver_runs (h : s.slv.current ≠ none ∨ s.slv.pending ≠ none) :
    enableSolver s = { running s with slv := { s.slv with nextNum := 0 } } := by
  have hmodel : ¬ (s.slv.current = none ∧ s.slv.pending = none) := by tauto
  simp only [enableSolver, hoff, Bool.false_eq_true, if_false, hd, hm, or_self, hmodel]
  rfl

end

/-- A disable clears ENABLE and, without a solve in progress, RUNNING. -/
theorem disableSolver_shows (s : State) :
    regBit Reg.SLV_CTL 31 (disableSolver s) = false ∧ (disableSolver s).slv = s.slv ∧
      (s.slv.solve = none → regBit Reg.SLV_STAT 30 (disableSolver s) = false) ∧
      (s.slv.solve ≠ none → getReg Reg.SLV_STAT (disableSolver s) = getReg Reg.SLV_STAT s) ∧
      onlyRegs [Reg.SLV_CTL, Reg.SLV_STAT] s (disableSolver s) := by
  have hctl := regBit_setRegFld_inside Reg.SLV_CTL 31 31 0 31 s (by decide) le_rfl le_rfl
  have hkept := onlyRegs_step (l := [Reg.SLV_CTL, Reg.SLV_STAT]) (o := Reg.SLV_CTL) (by decide) (onlyRegs_refl _ s)
    (setFld (getReg Reg.SLV_CTL s) 31 31 0)
  cases hsolve : s.slv.solve with
  | none =>
    have hrun : disableSolver s = setRegFld Reg.SLV_STAT 30 30 0 (setRegFld Reg.SLV_CTL 31 31 0 s) := by
      simp only [disableSolver, setRegFld_eq, setReg_slv, hsolve, Option.isSome_none, Bool.false_eq_true, if_false]
    rw [hrun]
    exact ⟨(regBit_setRegFld_other _ _ _ _ _ (by decide)).trans hctl, rfl,
      fun _ => regBit_setRegFld_inside _ _ _ _ _ _ (by decide) le_rfl le_rfl, fun h => absurd rfl h,
      onlyRegs_step (by decide) hkept _⟩
  | some x =>
    have hrun : disableSolver s = setRegFld Reg.SLV_CTL 31 31 0 s := by
      simp only [disableSolver, setRegFld_eq, setReg_slv, hsolve, Option.isSome_some, if_true]
    rw [hrun]
    exact ⟨hctl, rfl, nofun, fun _ => getReg_setReg_other _ _ (by decide), hkept⟩

/-! ### Limits (R235) -/

/-- The register that a limit write goes to. -/
def limitReg (m : Bool) : Nat := if m then Reg.SLV_MAX_ITER else Reg.SLV_DEADLINE

/-- The top bit of a limit's field. -/
def limitTop (m : Bool) : Nat := if m then 9 else 23

/-- A limit of 0 that an enabled solver discards. -/
theorem writeLimit_discarded {m : Bool} {v : Word} {s : State} (hz : fld v (limitTop m) 0 = 0)
    (hon : regBit Reg.SLV_CTL 31 s = true) : writeLimit m v s = setRegFld Reg.SLV_STAT 23 16 Code.fieldZero s := by
  cases m <;> simp only [limitTop, if_true, Bool.false_eq_true, if_false] at hz <;>
    simp only [writeLimit, hz, hon, decide_true, Bool.and_self, if_true, Bool.false_eq_true, if_false]

/-- A limit that is kept. -/
theorem writeLimit_kept {m : Bool} {v : Word} {s : State} (h : fld v (limitTop m) 0 ≠ 0 ∨ regBit Reg.SLV_CTL 31 s = false) :
    writeLimit m v s = rwStore (limitReg m) v s := by
  unfold writeLimit
  refine if_neg fun hz => ?_
  cases m <;> simp_all [limitTop]

/-- Software may write every bit of a limit's field, and no other of its register. -/
theorem rw_limitReg (m : Bool) : (regRowAt (limitReg m)).map RegRow.rw = some (maskOf (limitTop m) 0) := by
  cases m <;> decide +kernel

/-- A limit that is kept reads as it was written. -/
theorem rwStore_limit (m : Bool) (v : Word) (s : State) :
    regFld (limitReg m) (limitTop m) 0 (rwStore (limitReg m) v s) = fld v (limitTop m) 0 ∧
      onlyRegs [limitReg m] s (rwStore (limitReg m) v s) := by
  have htop : limitTop m < 32 := by cases m <;> decide
  rw [rwStore_eq (rw_limitReg m), regFld_setReg_same]
  refine ⟨fld_storedWord htop (fun i _ hi => ?_) _ _, onlyRegs_setReg _ _ _⟩
  have hi32 : i < 32 := by omega
  simp only [bit, maskOf_getLsbD, hi32, hi, Nat.zero_le, decide_true, Bool.and_self]

/-- Settles O13: by the branches of an enable, and by whether a limit write is discarded. -/
theorem solverEnableAndLimits : Obligations.SolverEnableAndLimits := by
  unfold Obligations.SolverEnableAndLimits
  refine ⟨fun w s hw => ?_, fun w m v s hw => ?_⟩
  · rw [exec_solverEnable w s hw, exec_solverDisable w s hw]
    simp only [← regBit_usedBy _ _ w s, ← regFld_usedBy _ _ _ w s, ← slv_usedBy w s, ← getReg_usedBy Reg.SLV_STAT w s]
    generalize usedBy w s = u
    have hstat (a b : Word) : onlyRegs [Reg.SLV_STAT] u (setReg Reg.SLV_STAT b (setReg Reg.SLV_STAT a u)) :=
      onlyRegs_step List.mem_cons_self (onlyRegs_step List.mem_cons_self (onlyRegs_refl _ u) a) b
    refine ⟨fun hoff hz => ⟨_, rfl, ?_⟩, fun hoff hd hm hc hp => ⟨_, rfl, ?_⟩, fun hoff hd hm h => ⟨_, rfl, ?_⟩,
      ⟨_, rfl, disableSolver_shows u⟩⟩
    · rw [enableSolver_zeroLimit hoff hz]
      refine ⟨?_, ?_, hstat _ _⟩
      · rw [regFld_setRegFld_apart _ _ _ _ _ _ _ (by decide), regFld_setRegFld_same _ _ _ _ _ (by decide)]
        rfl
      · rw [regBit_setRegFld_other _ _ _ _ _ (by decide), regBit_setRegFld_other _ _ _ _ _ (by decide), hoff]
    · rw [enableSolver_noModel hoff hd hm hc hp]
      refine ⟨?_, ?_, hstat _ _⟩
      · rw [regBit_setRegFld_inside _ _ _ _ _ _ (by decide) le_rfl le_rfl]
        rfl
      · rw [regBit_setRegFld_other _ _ _ _ _ (by decide), regBit_setRegFld_other _ _ _ _ _ (by decide), hoff]
    · rw [enableSolver_runs hoff hd hm h]
      obtain ⟨hctl, hrun, herr, hcode⟩ := running_shows u
      obtain ⟨hregs, hrest⟩ := onlyRegs_running u
      refine ⟨hctl, hrun, herr, hcode, rfl, hregs, ?_⟩
      exact congrArg (fun v : State => ({ v with slv := u.slv, clk := u.clk, tim := u.tim } : State)) hrest
  · intro o top
    rw [exec_solverLimitWrite w m v s hw]
    simp only [← regBit_usedBy _ _ w s]
    generalize usedBy w s = u
    refine ⟨fun ⟨hz, hon⟩ => ⟨_, rfl, ?_⟩, fun h => ⟨_, rfl, ?_⟩⟩
    · rw [writeLimit_discarded hz hon, regFld_setRegFld_same _ _ _ _ _ (by decide)]
      exact ⟨rfl, onlyRegs_setReg _ _ _⟩
    · rw [writeLimit_kept h]
      exact rwStore_limit m v u

end Sys2Proof.Machine
end

section
/-! The solver's arithmetic: a computation's value does not depend on the saturation events counted before it, the pivots of a
factorisation and their floor, the range of what narrowing yields, and what an iteration keeps; and the settlement of O17. -/

namespace Sys2Proof.Machine

open Sys2Proof.Config

/-! ### Values and events of counted computations -/

section
variable {α β : Type}

/-- The value of a counted computation does not depend on the events counted before it. -/
def Steady (c : Counted α) : Prop := ∀ n, (c n).1 = valueOf c

/-- Whatever was counted before, the value of a computation has a property. -/
def Yields (P : α → Prop) (c : Counted α) : Prop := ∀ n, P (c n).1

theorem steady_pure (a : α) : Steady (pure a : Counted α) := fun _ => rfl

theorem steady_bind {c : Counted α} {f : α → Counted β} (hc : Steady c) (hf : ∀ a, Steady (f a)) : Steady (c >>= f) := fun n =>
  calc (f (c n).1 (c n).2).1 = (f (valueOf c) (c n).2).1 := by rw [hc n]
    _ = valueOf (f (valueOf c)) := hf _ _
    _ = (f (valueOf c) (c 0).2).1 := (hf _ _).symm

theorem steady_mapM {f : α → Counted β} (hf : ∀ a, Steady (f a)) (l : List α) : Steady (l.mapM f) := by
  induction l with
  | nil => exact List.mapM_nil (m := StateM Nat) (f := f) ▸ steady_pure _
  | cons a l ih =>
    rw [List.mapM_cons]
    exact steady_bind (hf a) fun b => steady_bind ih fun bs => steady_pure _

theorem steady_foldlM {f : β → α → Counted β} (hf : ∀ b a, Steady (f b a)) (l : List α) (b : β) : Steady (l.foldlM f b) := by
  induction l generalizing b with
  | nil => exact steady_pure b
  | cons a l ih =>
    rw [List.foldlM_cons]
    exact steady_bind (hf b a) ih

theorem yields_bind {P : β → Prop} (c : Counted α) {f : α → Counted β} (hf : ∀ a, Yields P (f a)) : Yields P (c >>= f) :=
  fun n => hf (c n).1 (c n).2

theorem yields_mapM {P : β → Prop} {f : α → Counted β} (hf : ∀ a, Yields P (f a)) (l : List α) :
    Yields (fun bs => ∀ b ∈ bs, P b) (l.mapM f) := by
  induction l with
  | nil => exact fun n b hb => by simp [List.mapM_nil, pure, StateT.pure] at hb
  | cons a l ih =>
    rw [List.mapM_cons]
    intro n b hb
    rcases List.mem_cons.mp hb with rfl | hb
    · exact hf a n
    · exact ih _ b hb

end

/-! ### Elementary operations (R208 to R210) -/

theorem steady_sat32 (v : Int) : Steady (sat32 v) := fun _ => rfl

theorem steady_accAdd (a v : Int) : Steady (accAdd a v) := fun n => by
  simp only [accAdd, valueOf]
  split
  · rfl
  · split <;> rfl

theorem steady_accSum (vs : List Int) : Steady (accSum vs) := steady_foldlM steady_accAdd vs 0

theorem steady_narrow (v : Int) (p q : Nat) : Steady (narrow v p q) := steady_sat32 _

theorem steady_mulQ (fa fb fc : Nat) (x y : Int) : Steady (mulQ fa fb fc x y) :=
  steady_bind (steady_accSum _) fun _ => steady_narrow _ _ _

theorem steady_settled (i : SolveInput) (q : Quantity) (l : List Int) (k : Nat) (v : Int) : Steady (settled i q l k v) :=
  steady_sat32 _

/-- Integers that 32 bits hold. -/
def fits32 (v : Int) : Prop := -2 ^ 31 ≤ v ∧ v < 2 ^ 31

theorem yields_sat32 (v : Int) : Yields fits32 (sat32 v) := fun n => by
  simp only [sat32, satTo, fits32]
  split
  · decide
  · split
    · decide
    · norm_num at *
      omega

theorem yields_sumQ (fc : Nat) (ts : List (Int × Nat)) : Yields fits32 (sumQ fc ts) :=
  yields_bind _ fun _ => yields_sat32 _

theorem toInt_wordI {v : Int} (h : fits32 v) : (wordI v).toInt = v := by
  obtain ⟨hlo, hhi⟩ := h
  rw [wordI, BitVec.toInt_ofInt, Int.bmod_def]
  omega

/-- Integers that words hold are unchanged by their way through words. -/
theorem intsOf_wordI {l : List Int} (h : ∀ v ∈ l, fits32 v) : intsOf (l.map wordI) = l := by
  rw [intsOf, List.map_map]
  exact (List.map_congr_left fun v hv => toInt_wordI (h v hv)).trans (List.map_id l)

theorem fits32_toInt (w : Word) : fits32 w.toInt := ⟨BitVec.le_toInt w, BitVec.toInt_lt⟩

theorem fits32_intsOf (ws : List Word) : ∀ v ∈ intsOf ws, fits32 v := fun v hv => by
  obtain ⟨w, -, rfl⟩ := List.mem_map.mp hv
  exact fits32_toInt w

/-! ### Pivots and their floor (R221, R222) -/

theorem steady_rawPivot (i : SolveInput) (f : Nat) (a : List (List Int)) (g : Factor) (j : Nat) :
    Steady (rawPivot i f a g j) :=
  steady_bind (steady_mapM (fun _ => steady_mulQ _ _ _ _ _) _) fun _ =>
    steady_bind (steady_bind (steady_accSum _) fun _ => steady_narrow _ _ _) fun _ => steady_settled _ _ _ _ _

/-- The pivot that a factorisation uses in place of `d`. -/
def flooredPivot (i : SolveInput) (f : Nat) (d : Int) : Int := if d ≤ (floorOf i f).toInt then (floorOf i f).toInt else d

theorem floor_le_flooredPivot (i : SolveInput) (f : Nat) (d : Int) : (floorOf i f).toInt ≤ flooredPivot i f d := by
  unfold flooredPivot
  split <;> omega

/-- One more column adds its pivot, raised to the floor, and is counted when it was raised. -/
theorem ldlColumn_adds (i : SolveInput) (f : Nat) (a : List (List Int)) (g : Factor) (j n : Nat) :
    let d := valueOf (rawPivot i f a g j)
    let h := (ldlColumn i f a g j n).1
    h.diag = g.diag ++ [flooredPivot i f d] ∧
      h.floored = if d ≤ (floorOf i f).toInt then g.floored ++ [j] else g.floored := by
  have hd := steady_rawPivot i f a g j n
  intro d h
  have hdiag : h.diag = g.diag ++ [flooredPivot i f (rawPivot i f a g j n).1] := rfl
  have hfloored : h.floored =
      if (rawPivot i f a g j n).1 ≤ (floorOf i f).toInt then g.floored ++ [j] else g.floored := rfl
  rw [hdiag, hfloored, hd]
  exact ⟨rfl, rfl⟩

/-- A factorisation of one more column, by its last column. -/
theorem ldl_succ (i : SolveInput) (f : Nat) (a : List (List Int)) (n : Nat) :
    valueOf (ldl i f a (n + 1)) = (ldlColumn i f a (valueOf (ldl i f a n)) n (eventsOf (ldl i f a n))).1 := rfl

/-- Settles O17, by induction on the columns. -/
theorem pivotsAtLeastFloor : Obligations.PivotsAtLeastFloor := by
  unfold Obligations.PivotsAtLeastFloor
  intro i f n a
  induction n with
  | zero => exact ⟨nofun, rfl, fun j => by simp [valueOf, ldl, pure, StateT.pure, Factor.empty]⟩
  | succ n ih =>
    obtain ⟨hfloor, hlen, hcounted⟩ := ih
    obtain ⟨hdiag, hfloored⟩ := ldlColumn_adds i f a (valueOf (ldl i f a n)) n (eventsOf (ldl i f a n))
    rw [← ldl_succ] at hdiag hfloored
    refine ⟨fun d hd => ?_, ?_, fun j => ?_⟩
    · rw [hdiag] at hd
      rcases List.mem_append.mp hd with hd | hd
      · exact hfloor d hd
      · exact List.mem_singleton.mp hd ▸ floor_le_flooredPivot i f _
    · rw [hdiag, List.length_append, hlen, List.length_singleton]
    · have hmem : j ∈ (valueOf (ldl i f a (n + 1))).floored ↔ j ∈ (valueOf (ldl i f a n)).floored ∨
          (j = n ∧ valueOf (rawPivot i f a (valueOf (ldl i f a n)) n) ≤ (floorOf i f).toInt) := by
        rw [hfloored]
        split <;> simp [*]
      rw [hmem, hcounted j, Nat.lt_succ_iff_lt_or_eq]
      constructor
      · rintro (⟨hj, hp⟩ | ⟨rfl, hp⟩)
        · exact ⟨.inl hj, hp⟩
        · exact ⟨.inr rfl, hp⟩
      · rintro ⟨hj | rfl, hp⟩
        · exact .inl ⟨hj, hp⟩
        · exact .inr ⟨rfl, hp⟩

/-! ### What an iteration keeps (R224, R225) -/

/-- A step moves to a point whose components words hold. -/
theorem yields_moveBy (i : SolveInput) (x p : List Int) (al : Option Int) :
    Yields (fun y => ∀ v ∈ y, fits32 v) (moveBy i x p al) := by
  refine yields_mapM (fun v => ?_) _
  cases al with
  | none => exact yields_sumQ _ _
  | some a => exact yields_sumQ _ _

/-- What an iteration leaves of a point that words hold: one that words hold, feasible in phase 2 when the old one was, and in
phase 1 with no larger sum of violations. -/
def KeptPoint (i : SolveInput) (a : Assembled) (phase1 : Bool) (x y : List Int) : Prop :=
  (∀ v ∈ y, fits32 v) ∧ (phase1 = false → feasibleAt i a x = true → feasibleAt i a y = true) ∧
    (phase1 = true → violationSum i a y ≤ violationSum i a x)

theorem keptPoint_refl {x : List Int} (hx : ∀ v ∈ x, fits32 v) (i : SolveInput) (a : Assembled) (phase1 : Bool) :
    KeptPoint i a phase1 x x := ⟨hx, fun _ h => h, fun _ => le_rfl⟩

section
variable {i : SolveInput} {x : List Int} (hx : ∀ v ∈ x, fits32 v)
include hx

theorem yields_keepPoint {y : List Int} (hy : ∀ v ∈ y, fits32 v) (a : Assembled) (phase1 : Bool) :
    Yields (KeptPoint i a phase1 x) (keepPoint i a phase1 x y) := by
  refine yields_bind _ fun _ n => ?_
  show KeptPoint i a phase1 x (if phase1 then if violationSum i a y ≤ violationSum i a x then y else x
    else if feasibleAt i a y then y else x)
  cases phase1 with
  | false =>
    by_cases h : feasibleAt i a y = true
    · simpa only [h, if_true, Bool.false_eq_true, if_false] using ⟨hy, fun _ _ => h, nofun⟩
    · simpa only [h, if_false, Bool.false_eq_true] using keptPoint_refl hx i a false
  | true =>
    by_cases h : violationSum i a y ≤ violationSum i a x
    · simpa only [h, if_true] using ⟨hy, nofun, fun _ => h⟩
    · simpa only [h, if_true, if_false] using keptPoint_refl hx i a true

theorem yields_moveAndKeep (a : Assembled) (phase1 c : Bool) (p : List Int) (al : Option Int) (ws : List Nat) :
    Yields (fun r => KeptPoint i a phase1 x r.1)
      (do pure (← keepPoint i a phase1 x (← moveBy i x p al), ws, c) : Counted (List Int × List Nat × Bool)) := fun n =>
  yields_keepPoint hx (yields_moveBy i x p al n) a phase1 (moveBy i x p al n).2

/-- R225: an iteration takes no point that loses feasibility or raises the sum of the violations. -/
theorem iterate_keeps (w : Work) (phase1 : Bool) (ws : List Nat) :
    KeptPoint i w.asm phase1 x (valueOf (iterate i w phase1 x ws)).1 := by
  have hall : Yields (fun r => KeptPoint i w.asm phase1 x r.1) (iterate i w phase1 x ws) := by
    refine yields_bind _ fun s => ?_
    split
    · intro n
      show KeptPoint i w.asm phase1 x
        ((match rowToDrop i ws s.lam with | none => (x, ws, true) | some k => (x, ws.filter (· ≠ k), false)).1)
      cases rowToDrop i ws s.lam <;> exact keptPoint_refl hx i w.asm phase1
    · refine yields_bind _ fun b => ?_
      cases b with
      | none => exact yields_moveAndKeep hx w.asm phase1 false s.p none ws
      | some k => exact yields_moveAndKeep hx w.asm phase1 false s.p (some k.2) (addRow k.1 ws)
  exact hall 0

end

end Sys2Proof.Machine
end

section
/-! The course of a solve: what the end of a phase, of an iteration and a deadline leave of it, and what an uncorrectable error
does to it; and the settlements of O16 and O18. -/

namespace Sys2Proof.Machine

open Sys2Proof.Config

/-! ### The solve in progress -/

theorem memKept_withSlv (v : Solver) (s : State) : memKept s { s with slv := v } :=
  ⟨fun sp _ => by cases sp <;> rfl, fun _ => rfl, rfl, rfl⟩

theorem memKept_setSolve (y : Solve) (s : State) : memKept s (setSolve y s) :=
  memKept_step (by decide) (memKept_withSlv _ s) _

/-! ### What a phase or an iteration counts (R211, R222) -/

/-- Counting what a unit found keeps the solve but for its counts and, at the unit's end, its work. -/
theorem countWork_solve (x : Solve) (c : Nat) (s : State) : ∃ w first pivots sat, (countWork x c s).1 =
    { x with work := w, pivotFirst := first, pivotCount := pivots, satCount := sat } ∧
      (phaseCycles x.input x.phase ≤ c → w = (unitWork x).1) :=
  ⟨_, _, _, _, rfl, fun h => by simp only [h, decide_true, if_true]⟩

/-- Counting what a unit found writes two counters. -/
theorem countWork_state (x : Solve) (c : Nat) (s : State) : ∃ a b,
    (countWork x c s).2 = setReg Reg.SLV_SAT_COUNT a (setReg Reg.SLV_PIVOT_COUNT b s) := ⟨_, _, rfl⟩

/-- What a unit leaves outside the solve: two counters and SLV_STAT. -/
structure UnitLeft (s t : State) : Prop where
  now : Machine.now t = Machine.now s
  mem : memKept s t
  regs : regsKept [Reg.SLV_STAT, Reg.SLV_PIVOT_COUNT, Reg.SLV_SAT_COUNT] s t

theorem unitLeft_setSolve (x y : Solve) (c : Nat) (s : State) : UnitLeft s (setSolve y (countWork x c s).2) := by
  obtain ⟨a, b, hstate⟩ := countWork_state x c s
  rw [hstate]
  refine ⟨rfl, memKept_trans (memKept_step (by decide) (memKept_setReg _ _ s (by decide)) _) (memKept_setSolve _ _), ?_⟩
  have hstat : Reg.SLV_STAT ∈ [Reg.SLV_STAT, Reg.SLV_PIVOT_COUNT, Reg.SLV_SAT_COUNT] := by decide
  have hpivot : Reg.SLV_PIVOT_COUNT ∈ [Reg.SLV_STAT, Reg.SLV_PIVOT_COUNT, Reg.SLV_SAT_COUNT] := by decide
  have hsat : Reg.SLV_SAT_COUNT ∈ [Reg.SLV_STAT, Reg.SLV_PIVOT_COUNT, Reg.SLV_SAT_COUNT] := by decide
  exact regsKept_step hstat (regsKept_step hsat (regsKept_step hpivot (fun _ _ => rfl) _) _) _

/-! ### The phases in order (R220, R227) -/

/-- The warm start rests on q̈₀ alone of what the phases have computed. -/
theorem warmStart_congr (i : SolveInput) {v w : Work} (h : v.acc0 = w.acc0) : warmStart i v = warmStart i w := by
  simp only [warmStart, warmStartQ, h]

/-- What phase 2 begins with: at the iteration limit it has none left (R226). -/
theorem toPhase2_continues (x : Solve) (c : Nat) (s : State) : ∃ y, toPhase2 x c s = setSolve y s ∧ y.cycle = c ∧
    y.phase ∈ [7, 8] ∧ y.input = x.input ∧ y.work = x.work ∧ y.x = x.x ∧ y.iter = x.iter ∧ y.phase1Iter = x.phase1Iter := by
  unfold toPhase2
  dsimp only
  split
  · exact ⟨_, rfl, rfl, by simp, rfl, rfl, rfl, rfl, rfl⟩
  · exact ⟨_, rfl, rfl, by simp, rfl, rfl, rfl, rfl, rfl⟩

/-- The phase after one of phases 1 to 4. -/
def phaseAfter (x : Solve) : Nat := if x.phase = 3 then if taskNik x.input = 0 then 5 else 4 else x.phase + 1

theorem nextPhase_before5 (x : Solve) (c : Nat) (s : State) (h : x.phase ≠ 5) :
    nextPhase x c s = setSolve { x with phase := phaseAfter x, cycle := c } s := by
  unfold nextPhase phaseAfter
  split
  · next h3 => simp only [h3, if_true]
  · next h5 => exact absurd h5 h
  · next h3 _ => rw [if_neg h3]

/-- After QP_SETUP the iterations begin at the warm start, in phase 2 where that is feasible. -/
theorem nextPhase_after5 (x : Solve) (c : Nat) (s : State) (h : x.phase = 5) : ∃ y, nextPhase x c s = setSolve y s ∧
    y.cycle = c ∧ y.phase ∈ [6, 7, 8] ∧ y.input = x.input ∧ y.work = x.work ∧
    y.x = (warmStart x.input x.work).map wordI := by
  simp only [nextPhase, h]
  split
  · obtain ⟨y, hy, hcycle, hphase, hinput, hwork, hx, -, -⟩ := toPhase2_continues
      { x with x := (warmStart x.input x.work).map wordI, working := rowsOfKind x.input 2 } c s
    exact ⟨y, h ▸ hy, hcycle, List.mem_cons_of_mem _ hphase, hinput, hwork, hx⟩
  · exact ⟨_, rfl, rfl, by simp, rfl, rfl, rfl⟩

/-- The result of one of phases 1 to 5. -/
theorem unitWork_phase {x : Solve} (h : x.phase ∈ [1, 2, 3, 4, 5]) :
    (unitWork x).1 = valueOf (phaseWork x.input x.phase x.work) := by
  simp only [List.mem_cons, List.not_mem_nil, or_false] at h
  rcases h with h | h | h | h | h <;> simp only [unitWork, h] <;> rfl

theorem phaseEnd_eq {x : Solve} {s : State} (hs : s.slv.solve = some x) (hend : x.ending = .none)
    (hp : x.phase ∈ [1, 2, 3, 4, 5]) (hd : x.cycle + phaseCycles x.input x.phase ≤ x.deadline) :
    phaseEnd none s =
      (let e := x.cycle + phaseCycles x.input x.phase
       let r := countWork x (phaseCycles x.input x.phase) (runTo (solveInstant x e) s)
       nextPhase r.1 e r.2) := by
  have h6 : x.phase ≠ 6 := fun e => by simp [e] at hp
  have h7 : x.phase ≠ 7 := fun e => by simp [e] at hp
  have h8 : x.phase ≠ 8 := fun e => by simp [e] at hp
  simp only [phaseEnd, hs, atWork, hend, Bool.not_true, Bool.not_false, decide_false, Bool.or_false, Bool.false_eq_true,
    if_false, eccCycle, h6, h7, h8, not_lt.mpr hd, or_self]

/-- R220, R227: what the end of a phase by its deadline leaves. -/
theorem phaseEnd_ends {x : Solve} {s : State} (hs : s.slv.solve = some x) (hend : x.ending = .none)
    (hp : x.phase ∈ [1, 2, 3, 4, 5]) (hd : x.cycle + phaseCycles x.input x.phase ≤ x.deadline) :
    ∃ y, (phaseEnd none s).slv.solve = some y ∧
      UnitLeft (runTo (solveInstant x (x.cycle + phaseCycles x.input x.phase)) s) (phaseEnd none s) ∧
      y.cycle = x.cycle + phaseCycles x.input x.phase ∧ y.input = x.input ∧
      y.work = valueOf (phaseWork x.input x.phase x.work) ∧ (x.phase ≠ 5 → y.phase = phaseAfter x) ∧
      (x.phase = 5 → y.x = (warmStart x.input x.work).map wordI ∧ y.phase ∈ [6, 7, 8]) := by
  rw [phaseEnd_eq hs hend hp hd]
  dsimp only
  generalize hv : runTo (solveInstant x (x.cycle + phaseCycles x.input x.phase)) s = v
  obtain ⟨w, first, pivots, sat, hz, hw⟩ := countWork_solve x (phaseCycles x.input x.phase) v
  have hphase : (countWork x (phaseCycles x.input x.phase) v).1.phase = x.phase := by rw [hz]
  replace hw := (hw le_rfl).trans (unitWork_phase hp)
  have hleft := unitLeft_setSolve x (c := phaseCycles x.input x.phase) (s := v)
  by_cases h5 : x.phase = 5
  · obtain ⟨y, hy, hcycle, hnext, hinput, hywork, hx⟩ := nextPhase_after5 _ (x.cycle + phaseCycles x.input x.phase)
      (countWork x (phaseCycles x.input x.phase) v).2 (hphase.trans h5)
    rw [hy]
    rw [hz] at hinput hywork hx
    refine ⟨y, rfl, hleft y, hcycle, hinput, hywork.trans hw, fun h => absurd h5 h, fun _ => ⟨hx.trans ?_, hnext⟩⟩
    exact congrArg (List.map wordI) (warmStart_congr _ (by rw [hw, h5]; rfl))
  · rw [nextPhase_before5 _ _ _ (by rw [hphase]; exact h5), hz]
    exact ⟨_, rfl, hz ▸ hleft _, rfl, rfl, hw, fun _ => rfl, fun h => absurd h h5⟩

/-! ### Iterations (R224 to R226) -/

/-- What follows an iteration that left `x` at a cycle: the solve goes on, or ends its phases, with its iterate and counts. -/
structure Continues (x : Solve) (c : Nat) (y : Solve) : Prop where
  cycle : y.cycle = c
  point : y.x = x.x
  iter : y.iter = x.iter
  phase1Iter : y.phase1Iter = x.phase1Iter

theorem afterPhase1_continues (x : Solve) (before : Int) (c : Nat) (s : State) :
    ∃ y, afterPhase1 x before c s = setSolve y s ∧ Continues x c y := by
  unfold afterPhase1
  split
  · obtain ⟨y, hy, hcycle, -, -, -, hx, hiter, hone⟩ := toPhase2_continues x c s
    exact ⟨y, hy, hcycle, hx, hiter, hone⟩
  · split
    · exact ⟨_, rfl, rfl, rfl, rfl, rfl⟩
    · exact ⟨_, rfl, rfl, rfl, rfl, rfl⟩

/-- In phase 2 the iterate is the last feasible one. -/
theorem afterPhase2_continues (x : Solve) (converged : Bool) (c : Nat) (s : State) :
    ∃ y, afterPhase2 x converged c s = setSolve y s ∧ Continues x c y ∧ y.feasible = some y.x := by
  unfold afterPhase2
  dsimp only
  split
  · exact ⟨_, rfl, ⟨rfl, rfl, rfl, rfl⟩, rfl⟩
  · split
    · exact ⟨_, rfl, ⟨rfl, rfl, rfl, rfl⟩, rfl⟩
    · exact ⟨_, rfl, ⟨rfl, rfl, rfl, rfl⟩, rfl⟩

/-- The solve after an iteration, before what follows it is decided. -/
def iterated (x : Solve) (y : Solve) : Solve :=
  let it := valueOf (iterate y.input y.work (decide (x.phase = 6)) (intsOf y.x) y.working)
  { y with x := it.1.map wordI, working := it.2.1, iter := y.iter + 1, phase1Iter := y.phase1Iter + (decide (x.phase = 6)).toNat }

theorem iterationEnd_eq {x : Solve} {s : State} (hs : s.slv.solve = some x) (hend : x.ending = .none)
    (hp : x.phase = 6 ∨ x.phase = 7) (hd : x.cycle + phaseCycles x.input x.phase ≤ x.deadline) :
    iterationEnd none s =
      (let e := x.cycle + phaseCycles x.input x.phase
       let r := countWork x (phaseCycles x.input x.phase) (runTo (solveInstant x e) s)
       if x.phase = 6 then afterPhase1 (iterated x r.1) (violationSum r.1.input r.1.work.asm (intsOf r.1.x)) e r.2
       else afterPhase2 (iterated x r.1)
         (valueOf (iterate r.1.input r.1.work (decide (x.phase = 6)) (intsOf r.1.x) r.1.working)).2.2 e r.2) := by
  have hphase : ∀ c u, (countWork x c u).1.phase = x.phase := fun c u => by
    obtain ⟨_, _, _, _, hz, -⟩ := countWork_solve x c u
    rw [hz]
  have hat : (!atWork x || (decide (x.phase ≠ 6) && decide (x.phase ≠ 7))) = false := by
    rcases hp with hp | hp <;> simp [atWork, hend, hp]
  simp only [iterationEnd, hs, hat, eccCycle, not_lt.mpr hd, hphase, Bool.false_eq_true, if_false, iterated,
    decide_eq_true_eq]

/-- An iteration changes nothing of what phases 2 to 5 computed. -/
theorem unitWork_iteration {x : Solve} (hp : x.phase = 6 ∨ x.phase = 7) : (unitWork x).1 = x.work := by
  rcases hp with hp | hp <;> simp only [unitWork, hp]

/-- R224 to R226: what an iteration that ends by the deadline leaves. -/
theorem iterationEnd_ends {x : Solve} {s : State} (hs : s.slv.solve = some x) (hend : x.ending = .none)
    (hp : x.phase = 6 ∨ x.phase = 7) (hd : x.cycle + phaseCycles x.input x.phase ≤ x.deadline) :
    ∃ y, (iterationEnd none s).slv.solve = some y ∧
      UnitLeft (runTo (solveInstant x (x.cycle + phaseCycles x.input x.phase)) s) (iterationEnd none s) ∧
      Continues (iterated x x) (x.cycle + phaseCycles x.input x.phase) y ∧ (x.phase = 7 → y.feasible = some y.x) := by
  rw [iterationEnd_eq hs hend hp hd]
  dsimp only
  generalize hv : runTo (solveInstant x (x.cycle + phaseCycles x.input x.phase)) s = v
  obtain ⟨w, first, pivots, sat, hz, hw⟩ := countWork_solve x (phaseCycles x.input x.phase) v
  rw [hw le_rfl, unitWork_iteration hp] at hz
  have hleft := unitLeft_setSolve x (c := phaseCycles x.input x.phase) (s := v)
  have hcontinues : ∀ {c y}, Continues (iterated x (countWork x (phaseCycles x.input x.phase) v).1) c y →
      Continues (iterated x x) c y := fun {c y} h => by
    rw [hz] at h
    exact ⟨h.cycle, h.point, h.iter, h.phase1Iter⟩
  rcases hp with h6 | h7
  · obtain ⟨y, hy, hc⟩ := afterPhase1_continues (iterated x (countWork x (phaseCycles x.input x.phase) v).1) _
      (x.cycle + phaseCycles x.input x.phase) (countWork x (phaseCycles x.input x.phase) v).2
    rw [if_pos h6, hy]
    exact ⟨y, rfl, hleft y, hcontinues hc, fun h7 => by omega⟩
  · obtain ⟨y, hy, hc, hfeas⟩ := afterPhase2_continues (iterated x (countWork x (phaseCycles x.input x.phase) v).1) _
      (x.cycle + phaseCycles x.input x.phase) (countWork x (phaseCycles x.input x.phase) v).2
    rw [if_neg (by omega), hy]
    exact ⟨y, rfl, hleft y, hcontinues hc, fun _ => hfeas⟩

/-- Settles O16: by the equations of a phase's and an iteration's end, and by what `iterate` keeps of its point. -/
theorem solvePhasesAndIterations : Obligations.SolvePhasesAndIterations := by
  unfold Obligations.SolvePhasesAndIterations
  refine ⟨fun x s hs hend hp hd => ?_, fun x s hs hend hp hd => ?_⟩
  · obtain ⟨y, hsolve, hleft, hcycle, hinput, hwork, hnext, h5⟩ := phaseEnd_ends hs hend hp hd
    refine ⟨_, y, rfl, hsolve, hleft.now.trans (now_runTo _ s), hcycle, hinput, hwork, fun h => ?_, fun h => ?_, fun h => ?_,
      fun h => ?_, h5, memKept_trans (memKept_runTo _ s) hleft.mem⟩ <;>
    · rw [hnext (by rw [h]; decide), phaseAfter, h]
      rfl
  · obtain ⟨y, hsolve, hleft, hc, hfeas⟩ := iterationEnd_ends hs hend hp hd
    have hkept := iterate_keeps (fits32_intsOf x.x) (i := x.input) x.work (decide (x.phase = 6)) x.working
    have hx : intsOf y.x = (valueOf (iterate x.input x.work (decide (x.phase = 6)) (intsOf x.x) x.working)).1 :=
      (congrArg intsOf hc.point).trans (intsOf_wordI hkept.1)
    obtain ⟨-, hfeasible, hsum⟩ := hkept
    rw [← hx] at hfeasible hsum
    refine ⟨_, y, rfl, hsolve, hc.iter, hc.phase1Iter.trans ?_, hc.point, hfeas, fun h => hfeasible ?_, fun h => hsum ?_, hc.cycle,
      memKept_trans (memKept_runTo _ s) hleft.mem⟩
    · by_cases h : x.phase = 6 <;> simp only [iterated, h] <;> rfl
    · simp [h]
    · simp [h]

/-! ### Deadlines (R228, R229) -/

/-- What a deadline inside a phase or an iteration leaves: OUTPUT on the last feasible iterate, or a copy. -/
theorem deadlineFalls_ends {x : Solve} {s : State} (hs : s.slv.solve = some x) (hend : x.ending = .none) (h8 : x.phase ≠ 8)
    (hd : x.deadline < x.cycle + phaseCycles x.input x.phase) :
    ∃ y, (deadlineFalls s).slv.solve = some y ∧ UnitLeft (runTo (solveInstant x x.deadline) s) (deadlineFalls s) ∧
      y.iter = x.iter ∧ y.input = x.input ∧
      (x.phase = 7 → y.x = x.feasible.getD x.x ∧ y.phase = 8 ∧ y.ending = .fresh 2 ∧
        y.commitAt = x.deadline + phaseCycles x.input 8) ∧
      (x.phase ≠ 7 → y.ending = .copied (codeBit Code.stale) 3 ∧ y.commitAt = x.deadline + 120) := by
  generalize hv : runTo (solveInstant x x.deadline) s = v
  have hrun : deadlineFalls s = (let r := countWork x (x.deadline - x.cycle) v
      if r.1.phase = 7 then toOutput { r.1 with x := r.1.feasible.getD r.1.x } r.1.deadline 2 r.2
      else abandon r.1 r.1.deadline (codeBit Code.stale) 3 r.2) := by
    simp only [deadlineFalls, hs, atWork, hend, h8, not_le.mpr hd, Bool.not_true, Bool.not_false, decide_false, Bool.or_false,
      Bool.false_eq_true, if_false, hv]
  obtain ⟨w, first, pivots, sat, hz, -⟩ := countWork_solve x (x.deadline - x.cycle) v
  have hleft := unitLeft_setSolve x (c := x.deadline - x.cycle) (s := v)
  rw [hrun]
  dsimp only
  by_cases h7 : x.phase = 7
  · rw [if_pos (by rw [hz]; exact h7)]
    refine ⟨_, rfl, hleft _, ?_, ?_, fun _ => ⟨?_, rfl, rfl, ?_⟩, fun h => absurd h7 h⟩ <;> rw [hz]
  · rw [if_neg (by rw [hz]; exact h7)]
    refine ⟨_, rfl, hleft _, ?_, ?_, fun h => absurd h h7, fun _ => ⟨rfl, ?_⟩⟩ <;> rw [hz]

/-! ### Uncorrectable errors (R231) -/

/-- The error's command, by the unit that it ends, abandons the solve. -/
theorem exec_solverEcc {x : Solve} {c : Nat} {s : State} (hs : s.slv.solve = some x) (hend : ∀ a b, x.ending ≠ .copied a b)
    (hc : c < phaseCycles x.input x.phase) (hd : x.phase = 8 ∨ x.cycle + c + 1 ≤ x.deadline) :
    exec (if x.phase = 6 ∨ x.phase = 7 then .qpIterationEnd (some c) else .solvePhaseEnd (some c)) s =
      .next (solverEcc x (x.cycle + c + 1) s) := by
  have hwork : atWork x = true := by
    cases h : x.ending with
    | copied a b => exact absurd h (hend a b)
    | _ => simp [atWork, h]
  have hecc : eccCycle x (some c) = some (x.cycle + c + 1) := by
    simp only [eccCycle, hc, hd, and_self, if_true]
  by_cases hp : x.phase = 6 ∨ x.phase = 7
  · have hat : (!atWork x || (decide (x.phase ≠ 6) && decide (x.phase ≠ 7))) = false := by
      rcases hp with hp | hp <;> simp [hwork, hp]
    simp only [hp, if_true, exec, execQpIterationEnd, iterationEnd, hs, hat, hecc, Bool.false_eq_true, if_false]
  · obtain ⟨h6, h7⟩ := not_or.mp hp
    simp only [h6, h7, or_self, if_false, exec, execSolvePhaseEnd, phaseEnd, hs, hwork, hecc, decide_false, Bool.not_true,
      Bool.or_self, Bool.false_eq_true]

/-- What an uncorrectable error leaves: a copy 120 cycles later, and one more error counted. -/
theorem solverEcc_ends (x : Solve) (e : Nat) (s : State) (hn : getReg Reg.SLV_ECC_COUNT s ≠ 0xFFFFFFFF) :
    ∃ y, (solverEcc x e s).slv.solve = some y ∧ y.ending = .copied (codeBit Code.stale ||| codeBit Code.eccUncorr) 6 ∧
      y.commitAt = e + 120 ∧ getReg Reg.SLV_ECC_COUNT (solverEcc x e s) = getReg Reg.SLV_ECC_COUNT s + 1 := by
  refine ⟨_, rfl, rfl, rfl, ?_⟩
  have hleft := unitLeft_setSolve x (c := e - x.cycle) (s := bumpReg Reg.SLV_ECC_COUNT 1 (runTo (solveInstant x e) s))
  calc getReg Reg.SLV_ECC_COUNT (solverEcc x e s)
      = getReg Reg.SLV_ECC_COUNT (bumpReg Reg.SLV_ECC_COUNT 1 (runTo (solveInstant x e) s)) :=
        (hleft _).regs _ (by decide)
    _ = getReg Reg.SLV_ECC_COUNT s + 1 := by
        rw [bumpReg_eq, getReg_setReg_same, getReg_runTo, countUp_one hn]

/-- Settles O18: by what a deadline and an uncorrectable error leave of the solve. -/
theorem solvesCutShort : Obligations.SolvesCutShort := by
  unfold Obligations.SolvesCutShort
  refine ⟨fun x s hs hend h8 hd => ?_, fun x c s hs hend hc hd hn => ?_⟩
  · obtain ⟨y, hsolve, hleft, hiter, -, h7, hcopied⟩ := deadlineFalls_ends hs hend h8 hd
    refine ⟨_, y, rfl, hsolve, hiter, memKept_trans (memKept_runTo _ s) hleft.mem, fun hp z hz => ?_, hcopied⟩
    obtain ⟨hx, hrest⟩ := h7 hp
    exact ⟨by rw [hx, hz]; rfl, hrest⟩
  · obtain ⟨y, hrest⟩ := solverEcc_ends x (x.cycle + c + 1) s hn
    exact ⟨_, y, exec_solverEcc hs hend hc hd, hrest⟩

end Sys2Proof.Machine
end

section
/-! The record that a solve commits: what a commit leaves in the solver and its registers, and what a copied record holds; and
the settlement of O19. -/

namespace Sys2Proof.Machine

open Sys2Proof.Config

/-! ### A commit (R234, R236, R494) -/

/-- What the commit of a record leaves: the record is the newest, no solve is in progress, BUSY is 0 and the registers tell the
solve's number and cycles; RUNNING falls when the solver was disabled. -/
structure Committed (x : Solve) (r : Record) (s t : State) : Prop where
  clk : t.clk = s.clk
  slv : t.slv = { s.slv with records := ((now s, r) :: s.slv.records).take 2, solve := none, prevOk := true }
  number : getReg Reg.SLV_SOLVE t = x.number
  cycles : getReg Reg.SLV_LAST_CYCLES t = word x.commitAt
  busy : regBit Reg.SLV_STAT 31 t = false
  stopped : regBit Reg.SLV_CTL 31 s = false → regBit Reg.SLV_STAT 30 t = false
  runs : regBit Reg.SLV_CTL 31 s = true → regBit Reg.SLV_STAT 30 t = regBit Reg.SLV_STAT 30 s
  mem : memKept s t

/-- The counters of a commit (R236). -/
def commitCounts (x : Solve) (r : Record) (s : State) : State :=
  bumpReg Reg.SLV_INVALID_COUNT (r.flags.getLsbD 4).toNat
    (bumpReg Reg.SLV_STALE_COUNT (r.flags.getLsbD 6).toNat
      (bumpReg Reg.SLV_EARLY_COUNT (r.flags.getLsbD 7).toNat
        (modReg Reg.SLV_MAX_CYCLES (fun w => word (max w.toNat x.commitAt)) s)))

/-- The registers of the counters of a commit. -/
def commitCounters : List Nat :=
  [Reg.SLV_INVALID_COUNT, Reg.SLV_STALE_COUNT, Reg.SLV_EARLY_COUNT, Reg.SLV_MAX_CYCLES]

theorem onlyRegs_commitCounts (x : Solve) (r : Record) (s : State) : onlyRegs commitCounters s (commitCounts x r s) := by
  have h1 : Reg.SLV_INVALID_COUNT ∈ commitCounters := by decide
  have h2 : Reg.SLV_STALE_COUNT ∈ commitCounters := by decide
  have h3 : Reg.SLV_EARLY_COUNT ∈ commitCounters := by decide
  have h4 : Reg.SLV_MAX_CYCLES ∈ commitCounters := by decide
  exact onlyRegs_step h1 (onlyRegs_step h2 (onlyRegs_step h3 (onlyRegs_step h4 (onlyRegs_refl _ s) _) _) _) _

/-- What SLV_STAT shows from a commit on, by whether the solver is enabled (R494). -/
def statIdle (s : State) : State :=
  let t := setRegFld Reg.SLV_STAT 31 31 0 (setRegFld Reg.SLV_STAT 3 0 0 s)
  if regBit Reg.SLV_CTL 31 t then t else setRegFld Reg.SLV_STAT 30 30 0 t

theorem onlyRegs_statIdle (s : State) : onlyRegs [Reg.SLV_STAT] s (statIdle s) := by
  have hmem : Reg.SLV_STAT ∈ [Reg.SLV_STAT] := List.mem_cons_self
  have ht := onlyRegs_step hmem (onlyRegs_step hmem (onlyRegs_refl _ s) (setFld (getReg Reg.SLV_STAT s) 3 0 0))
    (setFld (getReg Reg.SLV_STAT (setRegFld Reg.SLV_STAT 3 0 0 s)) 31 31 0)
  unfold statIdle
  dsimp only
  split
  · exact ht
  · exact onlyRegs_step hmem ht _

theorem statIdle_shows (s : State) : regBit Reg.SLV_STAT 31 (statIdle s) = false ∧
    (regBit Reg.SLV_CTL 31 s = false → regBit Reg.SLV_STAT 30 (statIdle s) = false) ∧
    (regBit Reg.SLV_CTL 31 s = true → regBit Reg.SLV_STAT 30 (statIdle s) = regBit Reg.SLV_STAT 30 s) := by
  let t := setRegFld Reg.SLV_STAT 31 31 0 (setRegFld Reg.SLV_STAT 3 0 0 s)
  have hctl : regBit Reg.SLV_CTL 31 t = regBit Reg.SLV_CTL 31 s :=
    (regBit_setRegFld_other _ _ _ _ _ (by decide)).trans (regBit_setRegFld_other _ _ _ _ _ (by decide))
  have hbusy : regBit Reg.SLV_STAT 31 t = false := regBit_setRegFld_inside _ _ _ _ _ _ (by decide) le_rfl le_rfl
  cases hon : regBit Reg.SLV_CTL 31 s with
  | true =>
    have hrun : statIdle s = t := if_pos (hctl.trans hon)
    rw [hrun]
    exact ⟨hbusy, nofun, fun _ => (regBit_setRegFld_apart _ _ _ _ _ _ (by decide)).trans
      (regBit_setRegFld_apart _ _ _ _ _ _ (by decide))⟩
  | false =>
    have hrun : statIdle s = setRegFld Reg.SLV_STAT 30 30 0 t := if_neg (by rw [hctl, hon]; decide)
    rw [hrun]
    exact ⟨(regBit_setRegFld_apart _ _ _ _ _ _ (by decide)).trans hbusy,
      fun _ => regBit_setRegFld_inside _ _ _ _ _ _ (by decide) le_rfl le_rfl, nofun⟩

theorem committed_commitRecord (x : Solve) (r : Record) (s : State) : Committed x r s (commitRecord x r s) := by
  let s0 : State := { s with slv := { s.slv with
    records := ((now s, r) :: s.slv.records).take 2, solve := none, prevOk := true } }
  let u := setReg Reg.SLV_LAST_CYCLES (word x.commitAt) (setReg Reg.SLV_SOLVE x.number s0)
  let v := commitCounts x r u
  have hrun : commitRecord x r s = statIdle v := rfl
  obtain ⟨hcount, hcountRest⟩ := onlyRegs_commitCounts x r u
  obtain ⟨hstat, hstatRest⟩ := onlyRegs_statIdle v
  obtain ⟨hbusy, hstopped, hruns⟩ := statIdle_shows v
  have hkept : ∀ o, o ∉ commitCounters → o ≠ Reg.SLV_SOLVE → o ≠ Reg.SLV_LAST_CYCLES → getReg o v = getReg o s :=
    fun o hc h1 h2 => (hcount o hc).trans ((getReg_setReg_other _ _ h2).trans (getReg_setReg_other _ _ h1))
  have hctl : regBit Reg.SLV_CTL 31 v = regBit Reg.SLV_CTL 31 s :=
    congrArg (bit · 31) (hkept _ (by decide) (by decide) (by decide))
  rw [hrun]
  refine ⟨?_, ?_, ?_, ?_, hbusy, fun h => hstopped (hctl.trans h), fun h => (hruns (hctl.trans h)).trans ?_, ?_⟩
  · exact (congrArg State.clk hstatRest :).trans (congrArg State.clk hcountRest :)
  · exact (congrArg State.slv hstatRest :).trans (congrArg State.slv hcountRest :)
  · rw [hstat _ (by decide), hcount _ (by decide), getReg_setReg_other _ _ (by decide), getReg_setReg_same]
  · rw [hstat _ (by decide), hcount _ (by decide), getReg_setReg_same]
  · exact congrArg (bit · 30) (hkept _ (by decide) (by decide) (by decide))
  · have hmem : memKept s u := memKept_step (by decide) (memKept_step (by decide) (memKept_withSlv _ s) _) _
    exact memKept_trans hmem (memKept_trans (memKept_of_onlyRegs ⟨hcount, hcountRest⟩ (by decide))
      (memKept_of_onlyRegs ⟨hstat, hstatRest⟩ (by decide)))

/-! ### The two kinds of record (R229 to R234) -/

/-- A copied record is committed as the previous record stands at the commit. -/
theorem commitSolve_copied {x : Solve} {codes : BitVec 16} {status : Nat} {s : State} (hs : s.slv.solve = some x)
    (hend : x.ending = .copied codes status) :
    commitSolve s =
      (let v := runTo (solveInstant x x.commitAt) s
       commitRecord x (copiedRecord x codes status (prevRecord s) v.clk.tick) v) := by
  simp only [commitSolve, hs, hend]
  rfl

/-- A fresh record is committed at the end of OUTPUT. -/
theorem commitSolve_fresh {x : Solve} {status : Nat} {s : State} (hs : s.slv.solve = some x) (hend : x.ending = .fresh status) :
    commitSolve s =
      (let r := countWork x (phaseCycles x.input 8) (runTo (solveInstant x x.commitAt) s)
       commitRecord r.1 (freshRecord r.1 status r.2.clk.tick) r.2) := by
  simp only [commitSolve, hs, hend]

theorem copiedRecord_reports (x : Solve) (codes : BitVec 16) (status : Nat) (prev : Option Record) (tick : Word64) :
    (copiedRecord x codes status prev tick).solve = x.number ∧ (copiedRecord x codes status prev tick).commitStamp = tick := by
  cases prev <;> exact ⟨rfl, rfl⟩

/-- What a solve that has left its phases commits, at its commit instant. -/
theorem commitSolve_commits {x : Solve} {s : State} (hs : s.slv.solve = some x) (hend : x.ending ≠ .none) :
    ∃ z r v, commitSolve s = commitRecord z r v ∧ z.number = x.number ∧ z.commitAt = x.commitAt ∧ r.solve = x.number ∧
      r.commitStamp = v.clk.tick ∧ now v = max (now s) (x.startRoot + 4 * x.commitAt) ∧ memKept s v ∧
      regsKept [Reg.SLV_PIVOT_COUNT, Reg.SLV_SAT_COUNT] s v := by
  let u := runTo (solveInstant x x.commitAt) s
  have hnow : now u = max (now s) (x.startRoot + 4 * x.commitAt) := now_runTo _ s
  have hmem : memKept s u := memKept_runTo _ s
  cases h : x.ending with
  | none => exact absurd h hend
  | copied codes status =>
    obtain ⟨hsolve, htick⟩ := copiedRecord_reports x codes status (prevRecord s) u.clk.tick
    exact ⟨x, _, u, commitSolve_copied hs h, rfl, rfl, hsolve, htick, hnow, hmem, fun _ _ => rfl⟩
  | fresh status =>
    obtain ⟨w, first, pivots, sat, hz, -⟩ := countWork_solve x (phaseCycles x.input 8) u
    obtain ⟨a, b, hv⟩ := countWork_state x (phaseCycles x.input 8) u
    have hpivot : Reg.SLV_PIVOT_COUNT ∈ [Reg.SLV_PIVOT_COUNT, Reg.SLV_SAT_COUNT] := by decide
    have hsat : Reg.SLV_SAT_COUNT ∈ [Reg.SLV_PIVOT_COUNT, Reg.SLV_SAT_COUNT] := by decide
    have hrun := commitSolve_fresh hs h
    dsimp only at hrun
    rw [show runTo (solveInstant x x.commitAt) s = u from rfl, hz, hv] at hrun
    exact ⟨_, _, _, hrun, rfl, rfl, rfl, rfl, hnow, memKept_step (by decide) (memKept_step (by decide) hmem _) _,
      regsKept_step hsat (regsKept_step hpivot (fun _ _ => rfl) _) _⟩

/-- Settles O19: by what the commit of a record leaves, and by the two cases of a copied record. -/
theorem solveRecords : Obligations.SolveRecords := by
  unfold Obligations.SolveRecords
  refine ⟨fun x s hs hend => ?_, fun x p s hs hend => ?_⟩
  · obtain ⟨z, r, v, hrun, hnum, hat, hsolve, htick, hnow, hmem, hregs⟩ := commitSolve_commits hs hend
    have hc := committed_commitRecord z r v
    rw [← hrun] at hc
    have hctl : regBit Reg.SLV_CTL 31 v = regBit Reg.SLV_CTL 31 s := congrArg (bit · 31) (hregs _ (by decide))
    have hstat : regBit Reg.SLV_STAT 30 v = regBit Reg.SLV_STAT 30 s := congrArg (bit · 30) (hregs _ (by decide))
    have hclk : now (commitSolve s) = now v := congrArg Clock.root hc.clk
    refine ⟨_, r, rfl, ?_, hclk.trans hnow, ?_, hsolve, htick.trans (congrArg Clock.tick hc.clk).symm, hc.number.trans hnum,
      hc.cycles.trans (congrArg word hat), hc.busy, fun h => hc.stopped (hctl.trans h),
      fun h => (hc.runs (hctl.trans h)).trans hstat, memKept_trans hmem hc.mem⟩
    · rw [hc.slv]
    · rw [hc.slv, hclk]
      rfl
  · have hc := committed_commitRecord x
      (copiedRecord x 0x0040 3 (prevRecord s) (runTo (solveInstant x x.commitAt) s).clk.tick) (runTo (solveInstant x x.commitAt) s)
    have hrun := commitSolve_copied hs hend
    dsimp only at hrun
    rw [← hrun] at hc
    have hhead : (commitSolve s).slv.records.head? = some (now (commitSolve s),
        copiedRecord x 0x0040 3 (prevRecord s) (runTo (solveInstant x x.commitAt) s).clk.tick) := by
      rw [hc.slv, show now (commitSolve s) = now (runTo (solveInstant x x.commitAt) s) from congrArg Clock.root hc.clk]
      rfl
    refine ⟨fun hok hp => ?_, fun hok => ?_⟩
    · rw [show prevRecord s = some p by rw [prevRecord, if_pos hok, hp]] at hhead
      exact ⟨_, _, rfl, hhead, rfl, rfl, rfl, rfl, rfl, rfl, rfl, rfl, rfl⟩
    · rw [show prevRecord s = none by rw [prevRecord, hok]; rfl] at hhead
      exact ⟨_, _, rfl, hhead, rfl, rfl, rfl, rfl, rfl, rfl⟩

end Sys2Proof.Machine
end

section
/-! Solve starts: the grid of solver periods, what a solve begins with, and the room that its deadline leaves before the next
start; and the settlements of O15 and O20. -/

namespace Sys2Proof.Machine

open Sys2Proof.Config

/-! ### The grid of solver periods (R16, R344) -/

/-- The first instant of the grid that is not before `from_` is not before it. -/
theorem le_dayAt_periodsUpTo (from_ : Nat) {p : Nat} (hp : 0 < p) (s : State) : from_ ≤ dayAt (periodsUpTo from_ p s * p) s := by
  have hf := fcRoot_pos s
  let q := (from_ - 1) / fcRoot s
  have hgrid : ((q * fcRoot s + 1 : Nat) : Int) ≤ s.day.start + periodsUpTo from_ p s * p := by
    have := Int.ediv_mul_le (s.day.start - ((q * fcRoot s + 1 : Nat) : Int)) (b := (p : Int)) (by omega)
    simp only [periodsUpTo, Int.neg_mul]
    change _ ≤ s.day.start + -((s.day.start - ((q * fcRoot s + 1 : Nat) : Int)) / (p : Int) * p)
    omega
  have hn : q * fcRoot s + 1 ≤ (s.day.start + periodsUpTo from_ p s * p).toNat := by omega
  have hedge : (q + 1) * fcRoot s ≤ dayAt (periodsUpTo from_ p s * p) s := by
    refine Nat.mul_le_mul_right _ ((Nat.le_div_iff_mul_le hf).mpr ?_)
    rw [Nat.add_mul, Nat.one_mul]
    omega
  have hlast : from_ - 1 < fcRoot s * (q + 1) := Nat.lt_mul_div_succ _ hf
  rw [Nat.mul_comm] at hlast
  omega

/-- The next solve start is not before the instant that asks for it. -/
theorem le_nextSolveStart (from_ : Nat) (s : State) : from_ ≤ nextSolveStart from_ s :=
  le_dayAt_periodsUpTo from_ (Nat.mul_pos (Nat.lt_of_lt_of_le Nat.one_pos (Nat.le_max_left 1 _)) (by decide)) s

/-- A solve start lies a whole number of solver periods after the day's start. -/
theorem nextSolveStart_onGrid (from_ : Nat) {s : State} (h : 1 ≤ (getReg Reg.SOLVER_US s).toNat) :
    nextSolveStart from_ s =
      dayAt (periodsUpTo from_ ((getReg Reg.SOLVER_US s).toNat * 4800) s * ((getReg Reg.SOLVER_US s).toNat * 4800 : Nat)) s := by
  simp only [nextSolveStart, max_eq_right h]

/-! ### The scaling unit at a solve start (R248) -/

/-- Nothing changed but the servo engine and its count of saturation events. -/
structure ScalingOnly (s t : State) : Prop where
  rest : { t with regs := s.regs, srv := s.srv } = s
  regs : regsKept [Reg.SRV_SAT_COUNT] s t

namespace ScalingOnly

variable {s t u : State}

theorem refl (s : State) : ScalingOnly s s := ⟨rfl, fun _ _ => rfl⟩

theorem trans (h1 : ScalingOnly s t) (h2 : ScalingOnly t u) : ScalingOnly s u :=
  ⟨(congrArg (fun v : State => ({ v with regs := s.regs, srv := s.srv } : State)) h2.rest).trans h1.rest,
    fun o ho => (h2.regs o ho).trans (h1.regs o ho)⟩

theorem memKept (h : ScalingOnly s t) : Machine.memKept s t :=
  memKept_trans (t := { s with srv := t.srv }) ⟨fun sp _ => by cases sp <;> rfl, fun _ => rfl, rfl, rfl⟩
    (memKept_of_onlyRegs (l := [Reg.SRV_SAT_COUNT])
      ⟨h.regs, congrArg (fun v : State => ({ v with srv := t.srv } : State)) h.rest⟩ (by decide))

end ScalingOnly

theorem scalingOnly_setAxis (n : Nat) (a : Axis) (s : State) : ScalingOnly s (setAxis n a s) := ⟨rfl, fun _ _ => rfl⟩

theorem scalingOnly_countSatEvents (n : Nat) (s : State) : ScalingOnly s (countSatEvents n s) := by
  unfold countSatEvents
  split
  · exact .refl s
  · exact ⟨rfl, fun o ho => getReg_setReg_other _ _ (List.ne_of_not_mem_cons ho)⟩

theorem scalingOnly_countScaling (s : State) : ScalingOnly s (countScaling s) := by
  unfold countScaling
  induction List.range 64 generalizing s with
  | nil => exact .refl s
  | cons n l ih =>
    rw [List.foldl_cons]
    refine .trans ?_ (ih _)
    dsimp only
    split
    · exact .refl s
    · exact (scalingOnly_setAxis n _ s).trans (scalingOnly_countSatEvents _ _)

/-! ### A solve begins (R219, R220) -/

/-- The registers that a solve's begin may change. -/
def beginRegs : List Nat := [Reg.SLV_STAT, Reg.SLV_SAT_COUNT, Reg.SLV_TABLE_REFUSED, Reg.SRV_SAT_COUNT]

/-- What a solve begins with, in phase 1, with the next number. -/
structure Begun (m : Model) (x : Solve) (s t : State) : Prop where
  clk : t.clk = s.clk
  slv : ∃ task con, t.slv = { s.slv with task := task, con := con, nextNum := s.slv.nextNum + 1, solve := some x }
  phase : x.phase = 1
  cycle : x.cycle = 0
  number : x.number = s.slv.nextNum
  model : x.input.model = m
  startRoot : x.startRoot = now s
  periodUs : x.input.periodUs = (getReg Reg.SOLVER_US s).toNat
  deadline : x.deadline = effDeadline (regFld Reg.SLV_DEADLINE 23 0 s) x.input.periodUs
  busy : regBit Reg.SLV_STAT 31 t = true
  regs : regsKept beginRegs s t
  mem : memKept s t

/-- What the begin of a solve has counted before the solve stands. -/
structure BeginCounted (s u : State) : Prop where
  clk : u.clk = s.clk
  slv : u.slv = s.slv
  regs : regsKept beginRegs s u
  mem : memKept s u

theorem beginCounted_counts (refused sat : Nat) (s : State) :
    BeginCounted s (bumpReg Reg.SLV_SAT_COUNT sat (countScaling (bumpReg Reg.SLV_TABLE_REFUSED refused s))) := by
  have hscale := scalingOnly_countScaling (bumpReg Reg.SLV_TABLE_REFUSED refused s)
  have hrefused : Reg.SLV_TABLE_REFUSED ∈ beginRegs := by decide
  have hsat : Reg.SLV_SAT_COUNT ∈ beginRegs := by decide
  have hscaled : [Reg.SRV_SAT_COUNT] ⊆ beginRegs := by decide
  have hregs : regsKept beginRegs s (countScaling (bumpReg Reg.SLV_TABLE_REFUSED refused s)) := fun o ho =>
    (hscale.regs o (fun h => ho (hscaled h))).trans (regsKept_step hrefused (fun _ _ => rfl) _ o ho)
  exact ⟨(congrArg State.clk hscale.rest :), (congrArg State.slv hscale.rest :), regsKept_step hsat hregs _,
    memKept_step (by decide) (memKept_trans (memKept_setReg _ _ s (by decide)) hscale.memKept) _⟩

/-- The tables and the number of the solve that begins. -/
def numbered (task : TaskTable) (con : ConTable) (v : Solver) : Solver :=
  { v with task := task, con := con, nextNum := v.nextNum + 1 }

/-- The solve that begins is shown in SLV_STAT, and changes the solver alone. -/
theorem BeginCounted.begun {s u : State} (hu : BeginCounted s u) (m : Model) (x : Solve) (task : TaskTable) (con : ConTable)
    (hphase : x.phase = 1) (hcycle : x.cycle = 0) (hnumber : x.number = u.slv.nextNum) (hmodel : x.input.model = m)
    (hstart : x.startRoot = now u) (hperiod : x.input.periodUs = (getReg Reg.SOLVER_US u).toNat)
    (hdeadline : x.deadline = effDeadline (regFld Reg.SLV_DEADLINE 23 0 u) x.input.periodUs) :
    Begun m x s (setSolve x (setRegFld Reg.SLV_STAT 31 31 1 { u with slv := numbered task con u.slv })) := by
  have hstat : Reg.SLV_STAT ∈ beginRegs := by decide
  have hregs : regsKept beginRegs s { u with slv := numbered task con u.slv } := hu.regs
  refine ⟨hu.clk, ⟨task, con, ?_⟩, hphase, hcycle, hnumber.trans (by rw [hu.slv]), hmodel,
    hstart.trans (congrArg Clock.root hu.clk), hperiod.trans (by rw [hu.regs _ (by decide)]),
    hdeadline.trans (by simp only [regFld, hu.regs Reg.SLV_DEADLINE (by decide)]), ?_,
    regsKept_step hstat (regsKept_step hstat hregs _) _, ?_⟩
  · rw [← hu.slv]
    rfl
  · exact (regBit_setRegFld_apart _ _ _ _ _ _ (by decide)).trans
      (regBit_setRegFld_inside _ _ _ _ _ _ (by decide) le_rfl le_rfl)
  · exact memKept_trans (memKept_step (by decide) (memKept_trans hu.mem (memKept_withSlv _ u)) _) (memKept_setSolve x _)

theorem begun_beginSolve (m : Model) (s : State) : ∃ x, Begun m x s (beginSolve m s) := by
  generalize hrun : beginSolve m s = t
  unfold beginSolve at hrun
  extract_lets task con refused w meas sat u prev i x v at hrun
  have hu : BeginCounted s u := beginCounted_counts refused sat s
  clear_value u meas
  subst hrun
  exact ⟨x, hu.begun m x task.1 con.1 rfl rfl rfl rfl rfl rfl rfl⟩

/-! ### A solve start (R215, R235) -/

/-- The instant of the next solve start, after the last one. -/
def startInstant (s : State) : Nat := nextSolveStart (max (now s) (s.slv.lastStart.elim 0 (· + 1))) s

theorem le_startInstant (s : State) : now s ≤ startInstant s := (le_max_left _ _).trans (le_nextSolveStart _ s)

/-- The state that a solve start finds. -/
def atStart (s : State) : State :=
  { runTo (startInstant s) s with slv := { s.slv with lastStart := some (startInstant s) } }

theorem now_atStart (s : State) : now (atStart s) = startInstant s :=
  (now_runTo _ s).trans (max_eq_right (le_startInstant s))

theorem memKept_atStart (s : State) : memKept s (atStart s) :=
  memKept_trans (memKept_runTo (startInstant s) s) (memKept_withSlv _ _)

theorem startSolve_eq {s : State} (hs : s.slv.solve = none) :
    startSolve s =
      (let u := modelTakesEffect (startInstant s) (atStart s)
       match u.slv.current with
       | none => u
       | some m => if regBit Reg.SLV_CTL 31 u then beginSolve m u else u) := by
  simp only [startSolve, hs, Option.isSome_none, Bool.false_eq_true, if_false]
  rfl

/-- A start of an enabled solver whose model is in effect begins a solve. -/
theorem startSolve_begins {m : Model} {s : State} (hs : s.slv.solve = none) (hm : s.slv.current = some m)
    (hp : s.slv.pending = none) (hon : regBit Reg.SLV_CTL 31 s = true) : startSolve s = beginSolve m (atStart s) := by
  have heffect : modelTakesEffect (startInstant s) (atStart s) = atStart s := by
    simp only [modelTakesEffect, atStart, hp]
  have hcurrent : (atStart s).slv.current = some m := hm
  have hctl : regBit Reg.SLV_CTL 31 (atStart s) = true := hon
  rw [startSolve_eq hs, heffect]
  dsimp only
  rw [hcurrent]
  exact if_pos hctl

/-- The state in which a pending model has taken effect. -/
def modelInEffect (m : Model) (s : State) : State :=
  setRegFld Reg.SLV_MODEL_STAT 30 29 1 { s with slv := { s.slv with current := some m, pending := none, prevOk := false } }

/-- A start after the end of a model's load puts the model in effect, and begins a solve with it when the solver is enabled. -/
theorem startSolve_takesModel {m : Model} {d : Nat} {s : State} (hs : s.slv.solve = none) (hp : s.slv.pending = some (m, d))
    (hd : d < now s) :
    startSolve s = modelInEffect m (atStart s) ∨ startSolve s = beginSolve m (modelInEffect m (atStart s)) := by
  have hlt : d < startInstant s := hd.trans_le (le_startInstant s)
  have heffect : modelTakesEffect (startInstant s) (atStart s) = modelInEffect m (atStart s) := by
    have hpending : (atStart s).slv.pending = some (m, d) := hp
    simp only [modelTakesEffect, hpending, hlt, if_true]
    rfl
  have hcurrent : (modelInEffect m (atStart s)).slv.current = some m := rfl
  rw [startSolve_eq hs, heffect]
  dsimp only
  rw [hcurrent]
  dsimp only
  split
  · exact .inr rfl
  · exact .inl rfl

/-- A model in effect shows in the solver and in SLV_MODEL_STAT. -/
theorem modelInEffect_shows (m : Model) (s : State) :
    let t := modelInEffect m s
    t.slv.current = some m ∧ t.slv.pending = none ∧ t.slv.prevOk = false ∧ regBit Reg.SLV_MODEL_STAT 30 t = false ∧
      regBit Reg.SLV_MODEL_STAT 29 t = true := by
  refine ⟨rfl, rfl, rfl, ?_, ?_⟩
  · exact regBit_setRegFld_inside _ _ _ _ _ _ (by decide) (by decide) le_rfl
  · exact regBit_setRegFld_inside _ _ _ _ _ _ (by decide) le_rfl (by decide)

/-- Settles O15: the start lies on the grid, and a solve or a model takes its state from there. -/
theorem solveStartsWithTheModelInEffect : Obligations.SolveStartsWithTheModelInEffect := by
  unfold Obligations.SolveStartsWithTheModelInEffect
  refine ⟨fun m s hs hm hp hon hus => ?_, fun m d s hs hp hd => ⟨_, rfl, ?_⟩⟩
  · obtain ⟨x, hb⟩ := begun_beginSolve m (atStart s)
    rw [← startSolve_begins hs hm hp hon] at hb
    obtain ⟨task, con, hslv⟩ := hb.slv
    have hnow : now (startSolve s) = now (atStart s) := congrArg Clock.root hb.clk
    refine ⟨_, x, rfl, by rw [hslv], hb.phase, hb.cycle, hb.number, hb.model, hb.startRoot.trans hnow.symm, by rw [hslv]; rfl,
      hb.busy, ⟨periodsUpTo (max (now s) (s.slv.lastStart.elim 0 (· + 1))) ((getReg Reg.SOLVER_US s).toNat * 4800) s, ?_⟩,
      memKept_trans (memKept_atStart s) hb.mem⟩
    rw [hnow, now_atStart, startInstant, nextSolveStart_onGrid _ hus]
  · have hshow := modelInEffect_shows m (atStart s)
    rcases startSolve_takesModel hs hp hd with hrun | hrun
    · rw [hrun]
      exact hshow
    · obtain ⟨x, hb⟩ := begun_beginSolve m (modelInEffect m (atStart s))
      obtain ⟨task, con, hslv⟩ := hb.slv
      have hstat : getReg Reg.SLV_MODEL_STAT (beginSolve m (modelInEffect m (atStart s))) =
          getReg Reg.SLV_MODEL_STAT (modelInEffect m (atStart s)) := hb.regs _ (by decide)
      rw [hrun, hslv]
      simp only [regBit, hstat]
      exact hshow

/-! ### Room before the next start (R219, R233) -/

/-- OUTPUT takes no more than 736 cycles for at most 64 variables. -/
theorem outputCycles_le {i : SolveInput} (h : qpVars i ≤ 64) : phaseCycles i 8 ≤ 736 := by
  have hle : i.model.ndof * qpVars i ≤ 64 * 64 := Nat.mul_le_mul ((Nat.le_add_right _ _).trans h) h
  show divUp (i.model.ndof * qpVars i) 16 + 480 ≤ 736
  simp only [divUp]
  omega

/-- After the effective deadline more than 736 cycles are left before the next start. -/
theorem effDeadline_room (deadline : Nat) {periodUs : Nat} (h : 125 ≤ periodUs) :
    effDeadline deadline periodUs + 736 < 1200 * periodUs := by
  have hle : min deadline (100 * periodUs - 100) ≤ 100 * periodUs - 100 := min_le_right _ _
  show 12 * min deadline (100 * periodUs - 100) + 736 < 1200 * periodUs
  omega

theorem deadline_leavesRoom {i : SolveInput} (deadline : Nat) (hp : 125 ≤ i.periodUs) (hn : qpVars i ≤ 64) :
    effDeadline deadline i.periodUs + phaseCycles i 8 < 1200 * i.periodUs ∧
      effDeadline deadline i.periodUs + 120 < 1200 * i.periodUs := by
  have hroom := effDeadline_room deadline hp
  have hout := outputCycles_le hn
  omega

/-- Settles O20: the room after the effective deadline is enough for OUTPUT and for a copy. -/
theorem solveCommitsBeforeNextStart : Obligations.SolveCommitsBeforeNextStart := by
  unfold Obligations.SolveCommitsBeforeNextStart
  refine ⟨fun i deadline hp hn => deadline_leavesRoom deadline hp hn, fun m s hs hm hp hon hus hn => ?_,
    fun x s hs hend h8 hd hout hcopy => ?_⟩
  · obtain ⟨x, hb⟩ := begun_beginSolve m (atStart s)
    rw [← startSolve_begins hs hm hp hon] at hb
    obtain ⟨task, con, hslv⟩ := hb.slv
    have hperiod : x.input.periodUs = (getReg Reg.SOLVER_US s).toNat := hb.periodUs
    have hvars : qpVars x.input ≤ 64 := by rw [qpVars, hb.model]; exact hn
    refine ⟨_, x, rfl, by rw [hslv], hperiod, ?_⟩
    rw [hb.deadline]
    exact deadline_leavesRoom _ (hperiod ▸ hus) hvars
  · obtain ⟨y, hsolve, -, -, hinput, h7, hcopied⟩ := deadlineFalls_ends hs hend h8 hd
    refine ⟨_, y, rfl, hsolve, hinput, ?_⟩
    rw [hinput]
    by_cases hp : x.phase = 7
    · obtain ⟨-, -, -, hat⟩ := h7 hp
      rw [hat]
      exact hout
    · rw [(hcopied hp).2]
      exact hcopy

end Sys2Proof.Machine
end

section
/-! The load of a robot model: its start by a register write or by LOAD_MODEL. -/

namespace Sys2Proof.Machine

open Sys2Proof.Config

/-! ### The start of a load (R212, R215) -/

/-- When a load that starts now ends: 1 µs and IMAGE_LEN at two bytes a root cycle. -/
def modelLoadEnd (a : Word64) (s : State) : Nat :=
  now s + 4800 + (68 + 128 * leNat (rdBytes .dram (a.toNat + 4) 2 s) + 1) / 2

/-- A load that starts is BUSY and in progress until its end. -/
theorem startModelLoad_starts (a : Word64) (q : Option Issue) (s : State) :
    let t := startModelLoad a q s
    t.slv = { s.slv with loading := some (a, modelLoadEnd a s, q) } ∧ regBit Reg.SLV_MODEL_STAT 31 t = true ∧
      onlyRegs [Reg.SLV_MODEL_STAT] { s with slv := t.slv } t := by
  have hend : now s + usRoot + divUp (modelLen a s) 2 = modelLoadEnd a s := rfl
  refine ⟨?_, ?_, ?_⟩
  · rw [← hend]
    rfl
  · exact regBit_setRegFld_inside _ _ _ _ _ _ (by decide) le_rfl le_rfl
  · exact onlyRegs_setReg _ _ _

theorem modelLoadEnd_congr {s t : State} (hclk : t.clk = s.clk) (hm : memKept s t) (a : Word64) :
    modelLoadEnd a t = modelLoadEnd a s := by
  simp only [modelLoadEnd, now, hclk, rdBytes_congr hm]

/-- A load that is turned away changes nothing of the solver, no memory and no register but MGT_EVT_LOST. -/
theorem modelBusy_keeps (s : State) : (modelBusy s).slv = s.slv ∧ regsKept [Reg.MGT_EVT_LOST] s (modelBusy s) ∧
    memKept s (modelBusy s) :=
  ⟨(congrArg State.slv (raise_frame Src.solver .regOverrun Code.overrun [] s) :),
    fun o ho => getReg_raise o _ _ _ _ s (List.ne_of_not_mem_cons ho), memKept_raise _ _ _ _ s⟩

theorem exec_modelLoad (w : Writer) (v : Word) (s : State) (hw : writesNow w s = true) :
    exec (.modelLoad w v) s = .next (writeModelCmd v (usedBy w s)) :=
  congrArg Host.Outcome.next (asWriter_now w _ _ s hw)

@[simp] theorem reg64_usedBy (l h : Nat) (w : Writer) (s : State) : reg64 l h (usedBy w s) = reg64 l h s := by
  simp only [reg64, getReg_usedBy]

/-! ### LOAD_MODEL (R215, R326) -/

/-- A command that is taken to run leaves the solver, and every register but CMDQ_HEAD. -/
theorem beginCmd_keepsSolver (i : Issue) (op : Nat) (s : State) :
    (touchMaint i.via (beginCmd i op s)).slv = s.slv ∧ regsKept [Reg.CMDQ_HEAD] s (touchMaint i.via (beginCmd i op s)) := by
  have hslv : (beginCmd i op s).slv = s.slv := (congrArg State.slv (beginCmd_frame i op s).1 :)
  have hregs : regsKept [Reg.CMDQ_HEAD] s (beginCmd i op s) := fun o ho =>
    beginCmd_reg o i op s (List.ne_of_not_mem_cons ho)
  unfold touchMaint
  split
  · exact ⟨hslv, hregs⟩
  · exact ⟨hslv, hregs⟩

theorem exec_loadModel {i : Issue} {s : State} (h : mayIssue i Op.loadModel allowHPM s = true) (a : Word64) :
    exec (.loadModel i a) s = .next (loadModel i a (touchMaint i.via (beginCmd i Op.loadModel s))) :=
  congrArg Host.Outcome.next (command_runs i Op.loadModel allowHPM _ s h)

section
variable {i : Issue} {s : State}

/-- LOAD_MODEL with no load in progress writes SLV_MODEL_ADDR and starts the load. -/
theorem loadModel_starts (hl : s.slv.loading = none) (a : Word64) :
    let t := loadModel i a (touchMaint i.via (beginCmd i Op.loadModel s))
    regBit Reg.SLV_MODEL_STAT 31 t = true ∧ reg64 Reg.SLV_MODEL_ADDR_LO Reg.SLV_MODEL_ADDR_HI t = a ∧
      t.slv = { s.slv with loading := some (a, modelLoadEnd a s, some i) } ∧
      regsKept [Reg.SLV_MODEL_STAT, Reg.SLV_MODEL_ADDR_LO, Reg.SLV_MODEL_ADDR_HI, Reg.CMDQ_HEAD] s t ∧ memKept s t := by
  obtain ⟨hslv, hregs⟩ := beginCmd_keepsSolver i Op.loadModel s
  have htaken := taken_beginCmd i Op.loadModel s
  generalize touchMaint i.via (beginCmd i Op.loadModel s) = u at hslv hregs htaken
  let v := setReg64 Reg.SLV_MODEL_ADDR_LO Reg.SLV_MODEL_ADDR_HI a u
  have hrun : loadModel i a u = startModelLoad a (some i) v := by
    simp only [loadModel, hslv, hl, Option.isSome_none, Bool.false_eq_true, if_false]
    rfl
  have hmem : memKept s v := memKept_step (by decide) (memKept_step (by decide) htaken.mem _) _
  obtain ⟨hstart, hbusy, honly⟩ := startModelLoad_starts a (some i) v
  intro t
  have ht : t = startModelLoad a (some i) v := hrun
  rw [ht]
  have hlo : Reg.SLV_MODEL_ADDR_LO ∉ [Reg.SLV_MODEL_STAT] := by decide
  have hhi : Reg.SLV_MODEL_ADDR_HI ∉ [Reg.SLV_MODEL_STAT] := by decide
  refine ⟨hbusy, ?_, ?_, ?_, memKept_trans (memKept_trans hmem (memKept_withSlv _ v)) (memKept_of_onlyRegs honly (by decide))⟩
  · rw [reg64, honly.1 _ hlo, honly.1 _ hhi]
    exact reg64_setReg64 _ _ a u (by decide)
  · rw [hstart, modelLoadEnd_congr (s := s) (t := v) htaken.clk hmem]
    exact congrArg (fun x : Solver => ({ x with loading := some (a, modelLoadEnd a s, some i) } : Solver)) hslv
  · intro o ho
    simp only [List.mem_cons, List.not_mem_nil, or_false, not_or] at ho
    obtain ⟨hstat, hol, hoh, hhead⟩ := ho
    calc getReg o (startModelLoad a (some i) v) = getReg o v := honly.1 o (by simpa using hstat)
      _ = getReg o u := (getReg_setReg_other _ _ hoh).trans (getReg_setReg_other _ _ hol)
      _ = getReg o s := hregs o (by simpa using hhead)

/-- LOAD_MODEL while a load is in progress leaves the solver as it is. -/
theorem loadModel_busy (hl : s.slv.loading ≠ none) (a : Word64) :
    (loadModel i a (touchMaint i.via (beginCmd i Op.loadModel s))).slv = s.slv := by
  obtain ⟨hslv, -⟩ := beginCmd_keepsSolver i Op.loadModel s
  generalize touchMaint i.via (beginCmd i Op.loadModel s) = u at hslv
  have hload : u.slv.loading.isSome = true := by rw [hslv]; exact Option.isSome_iff_ne_none.mpr hl
  have hanswer := (completeCmd_frame i Op.loadModel Code.overrun (word 0) [] (modelBusy u)).1
  rw [loadModel, if_pos hload]
  calc (answer i Op.loadModel Code.overrun 0 (modelBusy u)).slv = (modelBusy u).slv := (congrArg State.slv hanswer :)
    _ = s.slv := (modelBusy_keeps u).1.trans hslv

end

end Sys2Proof.Machine
end

section
/-! The end of a load of a robot model: its verdict, what shows it, and the answer to its command. -/

namespace Sys2Proof.Machine

open Sys2Proof.Config

/-! ### The verdict (R214) -/

/-- A verdict's code and reason fit their fields. -/
theorem modelVerdict_fits (a : Word64) (s : State) :
    ((modelVerdict a s).getD (0, 0)).1 < 256 ∧ ((modelVerdict a s).getD (0, 0)).2 < 256 := by
  have himage : ∀ b, ((modelRefusal b).getD (0, 0)).1 < 256 ∧ ((modelRefusal b).getD (0, 0)).2 < 256 := fun b => by
    unfold modelRefusal
    dsimp only
    repeat' split
    all_goals exact ⟨by decide, by decide⟩
  unfold modelVerdict
  dsimp only
  split
  · exact ⟨by decide, by decide⟩
  · exact himage _

/-- The verdict rests on the bytes of the image and the error marks. -/
theorem modelVerdict_congr {s t : State} (hm : memKept s t) (hk : t.marks = s.marks) (a : Word64) :
    modelVerdict a t = modelVerdict a s := by
  have hlen : modelLen a t = modelLen a s := by simp only [modelLen, rdBytes_congr hm]
  have hmarks : ∀ n, marksIn .dram a.toNat n true t = marksIn .dram a.toNat n true s := fun n => by simp only [marksIn, hk]
  simp only [modelVerdict, hlen, hmarks, rdBytes_congr hm]

/-- The loader's checked read of an image finds what the verdict names. -/
theorem modelVerdict_readMem (a : Word64) (s : State) :
    (let b := (readMem .dram a.toNat (modelLen a s) s).1
     if leAt b.bytes 4 2 ≠ 0 ∧ b.bad.isSome = true then some (Code.eccUncorr, 0) else modelRefusal b.bytes) =
      modelVerdict a s := by
  have hbad : (readMem .dram a.toNat (modelLen a s) s).1.bad.isSome = true ↔
      marksIn .dram a.toNat (modelLen a s) true s ≠ [] := by
    rw [Option.isSome_iff_ne_none]
    simp only [readMem, ne_eq, List.min?_eq_none_iff, List.map_eq_nil_iff]
  simp only [modelVerdict, hbad]
  rfl

/-! ### What shows a load's result (R214) -/

/-- SLV_MODEL_STAT of a load that has ended: whether it was refused, and its CODE and REASON. -/
def resultShown (b : Bool) (c r : Nat) (s : State) : State :=
  setRegFld Reg.SLV_MODEL_STAT 31 31 0 (setRegFld Reg.SLV_MODEL_STAT 28 28 b.toNat
    (setRegFld Reg.SLV_MODEL_STAT 23 16 c (setRegFld Reg.SLV_MODEL_STAT 7 0 r s)))

theorem slv_resultShown (b : Bool) (c r : Nat) (s : State) : (resultShown b c r s).slv = s.slv := rfl

theorem now_resultShown (b : Bool) (c r : Nat) (s : State) : now (resultShown b c r s) = now s := rfl

theorem outbox_resultShown (b : Bool) (c r : Nat) (s : State) : (resultShown b c r s).outbox = s.outbox := rfl

theorem sess_resultShown (b : Bool) (c r : Nat) (s : State) : (resultShown b c r s).sess = s.sess := rfl

theorem onlyRegs_resultShown (b : Bool) (c r : Nat) (s : State) : onlyRegs [Reg.SLV_MODEL_STAT] s (resultShown b c r s) := by
  have h : Reg.SLV_MODEL_STAT ∈ [Reg.SLV_MODEL_STAT] := List.mem_cons_self
  exact onlyRegs_step h (onlyRegs_step h (onlyRegs_step h (onlyRegs_step h (onlyRegs_refl _ s) _) _) _) _

/-- SLV_MODEL_STAT after a load shows BUSY 0 and the result, and PENDING as it was. -/
structure ResultShown (b : Bool) (c r : Nat) (s t : State) : Prop where
  busy : regBit Reg.SLV_MODEL_STAT 31 t = false
  refused : regBit Reg.SLV_MODEL_STAT 28 t = b
  code : regFld Reg.SLV_MODEL_STAT 23 16 t = c
  reason : regFld Reg.SLV_MODEL_STAT 7 0 t = r
  pending : regBit Reg.SLV_MODEL_STAT 30 t = regBit Reg.SLV_MODEL_STAT 30 s

theorem resultShown_shows (b : Bool) {c r : Nat} (hc : c < 256) (hr : r < 256) (s : State) :
    ResultShown b c r s (resultShown b c r s) := by
  have hc' : c % 2 ^ (23 + 1 - 16) = c := by omega
  have hr' : r % 2 ^ (7 + 1 - 0) = r := by omega
  refine ⟨?_, ?_, ?_, ?_, ?_⟩
  · rw [resultShown, regBit_setRegFld_inside _ _ _ _ _ _ (by decide) le_rfl le_rfl, Nat.zero_testBit]
  · rw [resultShown, regBit_setRegFld_apart _ _ _ _ _ _ (by decide),
      regBit_setRegFld_inside _ _ _ _ _ _ (by decide) le_rfl le_rfl]
    cases b <;> rfl
  · rw [resultShown, regFld_setRegFld_apart _ _ _ _ _ _ _ (by decide), regFld_setRegFld_apart _ _ _ _ _ _ _ (by decide),
      regFld_setRegFld_same _ _ _ _ _ (by decide), hc']
  · rw [resultShown, regFld_setRegFld_apart _ _ _ _ _ _ _ (by decide), regFld_setRegFld_apart _ _ _ _ _ _ _ (by decide),
      regFld_setRegFld_apart _ _ _ _ _ _ _ (by decide), regFld_setRegFld_same _ _ _ _ _ (by decide), hr']
  · rw [resultShown, regBit_setRegFld_apart _ _ _ _ _ _ (by decide), regBit_setRegFld_apart _ _ _ _ _ _ (by decide),
      regBit_setRegFld_apart _ _ _ _ _ _ (by decide), regBit_setRegFld_apart _ _ _ _ _ _ (by decide)]

/-- The result as `showModelResult` shows it. -/
abbrev verdictShown (v : Option (Nat × Nat)) (s : State) : State := resultShown v.isSome (v.getD (0, 0)).1 (v.getD (0, 0)).2 s

theorem showModelResult_none (v : Option (Nat × Nat)) (s : State) : showModelResult v none s = verdictShown v s := rfl

theorem showModelResult_some (v : Option (Nat × Nat)) (i : Issue) (s : State) : showModelResult v (some i) s =
    completeLate i Op.loadModel (v.getD (0, 0)).1 (word (v.getD (0, 0)).2) (verdictShown v s) := rfl

/-! ### A completion that comes late (R325) -/

/-- `t` with its registers and all else that a late completion may change as `s` has them. -/
def lateFrom (s t : State) : State := { t with regs := s.regs, hostMem := s.hostMem, outbox := s.outbox, disp := s.disp }

/-- The registers that a late completion may change. -/
def lateRegs : List Nat := [Reg.CMPL_TAIL, Reg.HOST_DISCARD, Reg.DEV_STATUS, Reg.SESSION_STAT]

/-- Nothing changed but host memory, outputs, the Dispatcher, and four registers. -/
structure LateOnly (s t : State) : Prop where
  rest : lateFrom s t = s
  regs : regsKept lateRegs s t

theorem lateOnly_refl (s : State) : LateOnly s s := ⟨rfl, fun _ _ => rfl⟩

theorem LateOnly.slv {s t : State} (h : LateOnly s t) : t.slv = s.slv := (congrArg State.slv h.rest :)

theorem LateOnly.now {s t : State} (h : LateOnly s t) : Machine.now t = Machine.now s := (congrArg Machine.now h.rest :)

theorem LateOnly.setReg {s t : State} (h : LateOnly s t) {o : Nat} (ho : o ∈ lateRegs) (v : Word) :
    LateOnly s (Machine.setReg o v t) := ⟨h.rest, regsKept_step ho h.regs v⟩

theorem LateOnly.withDisp {s t : State} (h : LateOnly s t) (d : Dispatcher) : LateOnly s { t with disp := d } := ⟨h.rest, h.regs⟩

theorem lateOnly_completeCmd (i : Issue) (op code : Nat) (d : Word) (s : State) :
    LateOnly s (completeCmd i op code d [] s) := by
  refine ⟨(completeCmd_frame i op code d [] s).1, fun o ho => ?_⟩
  simp only [lateRegs, List.mem_cons, not_or] at ho
  exact completeCmd_reg o i op code d [] s ho.1 ho.2.1

theorem LateOnly.ledgerCompletes {s t : State} (h : LateOnly s t) : LateOnly s (Machine.ledgerCompletes t) := by
  have hdev : Reg.DEV_STATUS ∈ lateRegs := by decide
  have hsess : Reg.SESSION_STAT ∈ lateRegs := by decide
  exact ((h.withDisp _).setReg hdev _).setReg hsess _

theorem lateOnly_completeLate (i : Issue) (op code : Nat) (d : Word) (s : State) : LateOnly s (completeLate i op code d s) := by
  have h := lateOnly_completeCmd i op code d s
  unfold completeLate
  generalize completeCmd i op code d [] s = t at h
  dsimp only
  split
  · exact h.ledgerCompletes
  · exact h

/-- A late completion changes no byte of the device's memories but the ledger's. -/
theorem LateOnly.rdByte {s t : State} (h : LateOnly s t) {sp : Space} {x : Nat}
    (hx : sp ≠ .dram ∨ inLedger (memKey sp x) = false) : Machine.rdByte sp x t = Machine.rdByte sp x s := by
  have hhas : ∀ a, dramHas a t = dramHas a s := fun a => by simp only [dramHas, h.regs Reg.MEM_POP (by decide)]
  have hled : ¬(sp = .dram ∧ inLedger (memKey sp x) = true) := by
    rintro ⟨hsp, hin⟩
    rcases hx with hx | hx
    · exact hx hsp
    · rw [hin] at hx
      cases hx
  have hmem : memOf sp t = memOf sp s := by
    have := congrArg (memOf sp) h.rest
    cases sp <;> exact this
  have hdef : memDefault sp t = memDefault sp s := by
    have := congrArg (memDefault sp) h.rest
    cases sp <;> exact this
  simp only [Machine.rdByte, hhas, hled, if_false, hmem, hdef]

/-- A command that came as a datagram is answered with one (R465). -/
theorem completeLate_port {i : Issue} {x : SessionInfo} {s : State} (hi : i.via = .port) (hx : s.sess.port = some x)
    (op code : Nat) (d : Word) :
    (completeLate i op code d s).outbox = s.outbox ++ [.mgtDatagram (portCompletion .port x (cmplEntry i op code d []))] := by
  have hcmd : completeCmd i op code d [] s = emit (.mgtDatagram (portCompletion .port x (cmplEntry i op code d []))) s := by
    simp only [completeCmd, hi, onRing, Bool.false_eq_true, if_false, sessionOf, hx]
  have hwaits : ledgerWaits (emit (.mgtDatagram (portCompletion .port x (cmplEntry i op code d []))) s) = ledgerWaits s := rfl
  rw [completeLate, hcmd, hwaits, Bool.and_not_self]
  rfl

/-! ### The end of a load (R214, R215) -/

/-- The state at a load's end, with the loader idle. -/
def loaderIdle (d : Nat) (s : State) : State := runTo d { s with slv := { s.slv with loading := none } }

theorem memKept_loaderIdle (d : Nat) (s : State) : memKept s (loaderIdle d s) :=
  memKept_trans (memKept_withSlv _ s) (memKept_runTo d _)

/-- The loader's read of the image at the load's end. -/
def loadRead (a : Word64) (d : Nat) (s : State) : ReadResult × State :=
  readMem .dram a.toNat (modelLen a (loaderIdle d s)) (loaderIdle d s)

/-- What a verdict does to the solver: an accepted image waits as PENDING. -/
def verdictTaken (v : Option (Nat × Nat)) (m : Model) (d : Nat) (s : State) : State :=
  if v.isSome then s
  else setRegFld Reg.SLV_MODEL_STAT 30 30 1 { s with slv := { s.slv with pending := some (m, d) } }

/-- What the end of a load leaves before its result is shown. -/
structure LoadJudged (v : Option (Nat × Nat)) (m : Model) (d : Nat) (s u : State) : Prop where
  loading : u.slv.loading = none
  current : u.slv.current = s.slv.current
  now : Machine.now u = max (Machine.now s) d
  outbox : u.outbox = s.outbox
  sess : u.sess = s.sess
  mem : memKept s u
  refused : v ≠ none → u.slv.pending = s.slv.pending ∧ regBit Reg.SLV_MODEL_STAT 30 u = regBit Reg.SLV_MODEL_STAT 30 s
  accepted : v = none → u.slv.pending = some (m, d) ∧ regBit Reg.SLV_MODEL_STAT 30 u = true

section
variable (a : Word64) (d : Nat) (s : State)

/-- The read at a load's end sees the image as it stands, and leaves the loader idle at the end's instant. -/
structure LoadRead (w : State) : Prop where
  slv : w.slv = { s.slv with loading := none }
  now : Machine.now w = max (Machine.now s) d
  outbox : w.outbox = s.outbox
  sess : w.sess = s.sess
  mem : memKept s w
  stat : getReg Reg.SLV_MODEL_STAT w = getReg Reg.SLV_MODEL_STAT s

theorem loadRead_keeps : LoadRead d s (loadRead a d s).2 := by
  have hread := errsOnly_readMem .dram a.toNat (modelLen a (loaderIdle d s)) (loaderIdle d s)
  have hnow : now (loaderIdle d s) = max (now s) d := now_runTo d _
  exact ⟨(congrArg State.slv hread.rest :), (congrArg Clock.root hread.clk).trans hnow, (congrArg State.outbox hread.rest :),
    (congrArg State.sess hread.rest :), memKept_trans (memKept_loaderIdle d s) hread.memKept, hread.regs _ (by decide)⟩

theorem loadRead_bytes : (loadRead a d s).1.bytes = rdBytes .dram a.toNat (modelLen a s) s := by
  have hmem := memKept_loaderIdle d s
  have hlen : modelLen a (loaderIdle d s) = modelLen a s := by simp only [modelLen, rdBytes_congr hmem]
  simp only [loadRead, hlen]
  exact rdBytes_congr hmem _ _ _

theorem loadRead_verdict :
    (if leAt (loadRead a d s).1.bytes 4 2 ≠ 0 ∧ (loadRead a d s).1.bad.isSome = true then some (Code.eccUncorr, 0)
      else modelRefusal (loadRead a d s).1.bytes) = modelVerdict a s :=
  (modelVerdict_readMem a (loaderIdle d s)).trans (modelVerdict_congr (memKept_loaderIdle d s) rfl a)

end

/-- What a verdict does to a solver whose read of the image is done. -/
theorem verdictTaken_judges (v : Option (Nat × Nat)) (m : Model) {d : Nat} {s w : State} (h : LoadRead d s w) :
    LoadJudged v m d s (verdictTaken v m d w) := by
  cases v with
  | some p =>
    have hw : verdictTaken (some p) m d w = w := rfl
    rw [hw]
    exact ⟨by rw [h.slv], by rw [h.slv], h.now, h.outbox, h.sess, h.mem,
      fun _ => ⟨by rw [h.slv], congrArg (bit · 30) h.stat⟩, nofun⟩
  | none =>
    have hw : verdictTaken none m d w =
      setRegFld Reg.SLV_MODEL_STAT 30 30 1 { w with slv := { w.slv with pending := some (m, d) } } := rfl
    have hslv : (verdictTaken none m d w).slv = { w.slv with pending := some (m, d) } := rfl
    rw [h.slv] at hslv
    refine ⟨by rw [hslv], by rw [hslv], h.now, h.outbox, h.sess, ?_, fun hn => absurd rfl hn, fun _ => ⟨by rw [hslv], ?_⟩⟩
    · rw [hw]
      exact memKept_step (by decide) (memKept_trans h.mem (memKept_withSlv _ w)) _
    · rw [hw, regBit_setRegFld_inside _ _ _ _ _ _ (by decide) le_rfl le_rfl]
      rfl

/-- The end of a load reads the image, judges it, takes the verdict and shows it. -/
theorem finishModelLoad_eq {a : Word64} {d : Nat} {q : Option Issue} {s : State} (hl : s.slv.loading = some (a, d, q)) :
    finishModelLoad s = showModelResult (modelVerdict a s) q
      (verdictTaken (modelVerdict a s) (parseModel (rdBytes .dram a.toNat (modelLen a s) s)) d (loadRead a d s).2) := by
  rw [← loadRead_verdict a d s, ← loadRead_bytes a d s]
  unfold finishModelLoad
  rw [hl]
  rfl

/-- What the answer to a load that has ended leaves, of the state in which its result is shown. -/
theorem lateOnly_showModelResult (v : Option (Nat × Nat)) (q : Option Issue) (s : State) :
    LateOnly (verdictShown v s) (showModelResult v q s) := by
  cases q with
  | none =>
    rw [showModelResult_none]
    exact lateOnly_refl _
  | some i =>
    rw [showModelResult_some]
    exact lateOnly_completeLate _ _ _ _ _

end Sys2Proof.Machine
end

section
/-! The settlement of O14. -/

namespace Sys2Proof.Machine

open Sys2Proof.Config

/-! ### The three parts of O14 -/

/-- A write of SLV_MODEL_CMD starts a load, is turned away, or does nothing. -/
theorem modelLoad_outcomes (w : Writer) (v : Word) (s : State) (hw : writesNow w s = true) :
    let a := reg64 Reg.SLV_MODEL_ADDR_LO Reg.SLV_MODEL_ADDR_HI s
    (bit v 0 = true → s.slv.loading = none →
      ∃ t, exec (.modelLoad w v) s = .next t ∧ regBit Reg.SLV_MODEL_STAT 31 t = true ∧
        t.slv.loading = some (a, modelLoadEnd a s, none) ∧ t.slv = { s.slv with loading := t.slv.loading } ∧
        onlyRegs [Reg.SLV_MODEL_STAT] { usedBy w s with slv := t.slv } t) ∧
    (bit v 0 = true → s.slv.loading ≠ none →
      ∃ t, exec (.modelLoad w v) s = .next t ∧ t.slv = s.slv ∧ regsKept [Reg.MGT_EVT_LOST] s t ∧ memKept s t) ∧
    (bit v 0 = false → exec (.modelLoad w v) s = .next (usedBy w s)) := by
  intro a
  have hpair : reg64 Reg.SLV_MODEL_ADDR_LO Reg.SLV_MODEL_ADDR_HI (usedBy w s) = a := reg64_usedBy _ _ w s
  have hend : modelLoadEnd a (usedBy w s) = modelLoadEnd a s := by
    simp only [modelLoadEnd, now_usedBy, rdBytes_congr (memKept_usedBy w s)]
  rw [exec_modelLoad w v s hw]
  refine ⟨fun hb hl => ⟨_, rfl, ?_⟩, fun hb hl => ⟨_, rfl, ?_⟩, fun hb => ?_⟩
  · have hrun : writeModelCmd v (usedBy w s) = startModelLoad a none (usedBy w s) := by
      rw [writeModelCmd, if_pos hb, slv_usedBy, hl, if_neg (by decide), hpair]
    obtain ⟨hslv, hbusy, honly⟩ := startModelLoad_starts a none (usedBy w s)
    rw [slv_usedBy, hend] at hslv
    rw [hrun]
    refine ⟨hbusy, ?_, ?_, honly⟩
    · rw [hslv]
    · rw [hslv]
  · have hrun : writeModelCmd v (usedBy w s) = modelBusy (usedBy w s) := by
      rw [writeModelCmd, if_pos hb, slv_usedBy, if_pos (Option.isSome_iff_ne_none.mpr hl)]
    obtain ⟨hslv, hregs, hmem⟩ := modelBusy_keeps (usedBy w s)
    rw [hrun]
    exact ⟨hslv.trans (slv_usedBy w s), fun o ho => (hregs o ho).trans (getReg_usedBy o w s),
      memKept_trans (memKept_usedBy w s) hmem⟩
  · rw [writeModelCmd, hb]
    rfl

/-- What shows after a load that ended, and what its answer leaves. -/
structure LoadShown (v : Option (Nat × Nat)) (q : Option Issue) (u t : State) : Prop where
  shown : ResultShown v.isSome (v.getD (0, 0)).1 (v.getD (0, 0)).2 u t
  slv : t.slv = u.slv
  now : Machine.now t = Machine.now u
  rdByte : ∀ sp x, sp ≠ .dram ∨ inLedger (memKey sp x) = false → Machine.rdByte sp x t = Machine.rdByte sp x u
  alone : q = none → memKept u t ∧ t.outbox = u.outbox
  answered : ∀ i x, q = some i → i.via = .port → u.sess.port = some x → t.outbox = u.outbox ++ [.mgtDatagram
    (portCompletion .port x (cmplEntry i Op.loadModel (v.getD (0, 0)).1 (word (v.getD (0, 0)).2) []))]

/-- A late completion leaves what SLV_MODEL_STAT shows. -/
theorem ResultShown.of_lateOnly {b : Bool} {c r : Nat} {s t t' : State} (h : ResultShown b c r s t) (hlate : LateOnly t t') :
    ResultShown b c r s t' := by
  have hstat : getReg Reg.SLV_MODEL_STAT t' = getReg Reg.SLV_MODEL_STAT t := hlate.regs _ (by decide)
  obtain ⟨hbusy, hrefused, hcode, hreason, hpending⟩ := h
  simp only [regBit, regFld, ← hstat] at hbusy hrefused hcode hreason hpending
  exact ⟨hbusy, hrefused, hcode, hreason, hpending⟩

theorem showModelResult_shows {v : Option (Nat × Nat)} (hv : (v.getD (0, 0)).1 < 256 ∧ (v.getD (0, 0)).2 < 256)
    (q : Option Issue) (u : State) : LoadShown v q u (showModelResult v q u) := by
  have hlate := lateOnly_showModelResult v q u
  have hshown := (resultShown_shows v.isSome hv.1 hv.2 u).of_lateOnly hlate
  have honly := onlyRegs_resultShown v.isSome (v.getD (0, 0)).1 (v.getD (0, 0)).2 u
  have hmem : memKept u (verdictShown v u) := memKept_of_onlyRegs honly (by decide)
  have hout : (verdictShown v u).outbox = u.outbox := outbox_resultShown _ _ _ u
  have hsess : (verdictShown v u).sess = u.sess := sess_resultShown _ _ _ u
  refine ⟨hshown, hlate.slv.trans (slv_resultShown _ _ _ u), hlate.now.trans (now_resultShown _ _ _ u),
    fun sp x hx => (hlate.rdByte hx).trans (hmem.1 sp x), fun hq => ?_, fun i x hq hi hx => ?_⟩
  · rw [hq, showModelResult_none]
    exact ⟨hmem, hout⟩
  · rw [hq, showModelResult_some, completeLate_port hi (hsess.symm ▸ hx), hout]

/-- Settles O14: by the start of a load, and by its judgement, whose result is shown before the command is answered. -/
theorem modelLoads : Obligations.ModelLoads := by
  unfold Obligations.ModelLoads
  refine ⟨modelLoad_outcomes, fun i a s hm => ?command, fun a d q s hl => ?finish⟩
  case command =>
    rw [exec_loadModel hm a]
    exact ⟨fun hl => ⟨_, rfl, loadModel_starts hl a⟩, fun hl => ⟨_, rfl, loadModel_busy hl a⟩⟩
  case finish =>
    have hj := verdictTaken_judges (modelVerdict a s) (parseModel (rdBytes .dram a.toNat (modelLen a s) s)) (loadRead_keeps a d s)
    have hs := showModelResult_shows (modelVerdict_fits a s) q
      (verdictTaken (modelVerdict a s) (parseModel (rdBytes .dram a.toNat (modelLen a s) s)) d (loadRead a d s).2)
    rw [← finishModelLoad_eq hl] at hs
    generalize verdictTaken _ _ _ _ = u at hj hs
    refine ⟨finishModelLoad s, rfl, ?_⟩
    generalize finishModelLoad s = t at hs
    obtain ⟨hbusy, hrefused, hcode, hreason, hpending⟩ := hs.shown
    rw [hs.slv]
    exact ⟨hj.loading, hj.current, hs.now.trans hj.now, hbusy, hrefused, hcode, hreason,
      fun hv => ⟨(hj.refused hv).1, hpending.trans (hj.refused hv).2⟩,
      fun hv => ⟨(hj.accepted hv).1, hpending.trans (hj.accepted hv).2⟩,
      fun sp x hx => (hs.rdByte sp x hx).trans (hj.mem.1 sp x),
      fun hq => ⟨memKept_trans hj.mem (hs.alone hq).1, (hs.alone hq).2.trans hj.outbox⟩,
      fun i x hq hi hx => hj.outbox ▸ hs.answered i x hq hi (hj.sess.symm ▸ hx)⟩

end Sys2Proof.Machine
end

section
/-! The settings of the servo engine, the clearing of a fault and the trace buffer; and the settlement of O45. -/

namespace Sys2Proof.Machine

open Sys2Proof.Config

/-! ### Writes that take effect now -/

section
variable (w : Writer) (n : Fin 64) (v : Word) {s : State} (hw : writesNow w s = true)
include hw

theorem exec_servoEnable : exec (.servoEnable w v) s = .next (rwStore Reg.SRV_CTL v (usedBy w s)) :=
  congrArg Host.Outcome.next (asWriter_now w _ _ s hw)

theorem exec_servoConfigWrite_period : exec (.servoConfigWrite w false v) s = .next (writePeriod v (usedBy w s)) :=
  congrArg Host.Outcome.next (asWriter_now w _ _ s hw)

theorem exec_servoConfigWrite_limits : exec (.servoConfigWrite w true v) s = .next (writeLimits v (usedBy w s)) :=
  congrArg Host.Outcome.next (asWriter_now w _ _ s hw)

theorem exec_axisCommit : exec (.axisCommit w n v) s = .next (axisCommit n v (usedBy w s)) :=
  congrArg Host.Outcome.next (asWriter_now w _ _ s hw)

theorem exec_faultClear : exec (.faultClear w n) s = .next (clearFault n (usedBy w s)) :=
  congrArg Host.Outcome.next (asWriter_now w _ _ s hw)

theorem exec_traceArm : exec (.traceArm w) s = .next (traceArm (usedBy w s)) :=
  congrArg Host.Outcome.next (asWriter_now w _ _ s hw)

theorem exec_traceForce : exec (.traceForce w) s = .next (traceForce (usedBy w s)) :=
  congrArg Host.Outcome.next (asWriter_now w _ _ s hw)

end

@[simp] theorem srv_usedBy (w : Writer) (s : State) : (usedBy w s).srv = s.srv := by cases w <;> rfl
@[simp] theorem day_usedBy (w : Writer) (s : State) : (usedBy w s).day = s.day := by cases w <;> rfl
@[simp] theorem nextDay_usedBy (w : Writer) (s : State) : nextDay (usedBy w s) = nextDay s := by cases w <;> rfl
@[simp] theorem getAxis_usedBy (n : Nat) (w : Writer) (s : State) : getAxis n (usedBy w s) = getAxis n s := by cases w <;> rfl
@[simp] theorem rampEn_usedBy (n : Nat) (w : Writer) (s : State) : rampEn n (usedBy w s) = rampEn n s := by cases w <;> rfl

@[simp] theorem getAxis_setReg (n o : Nat) (v : Word) (s : State) : getAxis n (setReg o v s) = getAxis n s := rfl

@[simp] theorem regBit_setAxis (o i n : Nat) (a : Axis) (s : State) : regBit o i (setAxis n a s) = regBit o i s := rfl

/-- What is kept since its writer has used the state was kept before. -/
theorem regsKept_of_usedBy {l : List Nat} {w : Writer} {s t : State} (h : regsKept l (usedBy w s) t) : regsKept l s t :=
  fun o ho => (h o ho).trans (getReg_usedBy o w s)

theorem memKept_setAxis (n : Nat) (a : Axis) (s : State) : memKept s (setAxis n a s) := (scalingOnly_setAxis n a s).memKept

/-- The servo engine's own state is no memory. -/
theorem memKept_withSrv (v : Servo) (s : State) : memKept s { s with srv := v } :=
  ⟨fun sp _ => by cases sp <;> rfl, fun _ => rfl, rfl, rfl⟩

/-! ### ENABLE, the period and the limits (R254, R258, R267) -/

theorem rw_srvCtl : (regRowAt Reg.SRV_CTL).map RegRow.rw = some 0x80000000 := by decide +kernel

theorem rw_srvLimits : (regRowAt Reg.SRV_LIMITS).map RegRow.rw = some 0xFFFF := by decide +kernel

theorem rw_axisCtl (n : Fin 64) : (regRowAt (Reg.SRV_AXISn_CTL n)).map RegRow.rw = some 0xF7 := by
  revert n
  decide +kernel

theorem regBit_rwStore_srvCtl (v : Word) (s : State) : regBit Reg.SRV_CTL 31 (rwStore Reg.SRV_CTL v s) = bit v 31 := by
  rw [rwStore_eq rw_srvCtl, regBit_setReg_same, bit_storedWord (by decide), if_pos (by decide)]

theorem onlyRegs_rwStore {o : Nat} {m : Word} (hrow : (regRowAt o).map RegRow.rw = some m) (v : Word) (s : State) :
    onlyRegs [o] s (rwStore o v s) := by
  rw [rwStore_eq hrow]
  exact onlyRegs_setReg o _ s

/-- A code that a setting of 0 leaves. -/
theorem fieldZero_shown (s : State) : regFld Reg.SRV_STAT 23 16 (setRegFld Reg.SRV_STAT 23 16 Code.fieldZero s) = 0x01 :=
  regFld_setRegFld_same _ _ _ _ s (by decide)

section
variable {v : Word} (s : State)

theorem writePeriod_zero (h : fld v 6 0 = 0) : writePeriod v s = setRegFld Reg.SRV_STAT 23 16 Code.fieldZero s := by
  simp only [writePeriod, h, if_true]

theorem writePeriod_over (h : 100 < fld v 6 0) : writePeriod v s = orReg Reg.SRV_STAT 1 s := by
  have h0 : fld v 6 0 ≠ 0 := by omega
  simp only [writePeriod, h0, h, if_false, if_true]

variable {s} (h1 : 1 ≤ fld v 6 0) (h100 : fld v 6 0 ≤ 100)
include h1 h100

theorem writePeriod_pending (hday : (nextDay s).solverUs % fld v 6 0 = 0) : writePeriod v s =
    setRegFld Reg.SRV_STAT 29 29 1 (setRegFld Reg.SRV_STAT 23 16 0 (setReg Reg.SRV_PERIOD (word (fld v 6 0)) s)) := by
  have h0 : fld v 6 0 ≠ 0 := by omega
  simp only [writePeriod, h0, not_lt.mpr h100, hday, if_false, if_true]

theorem writePeriod_refused (hday : (nextDay s).solverUs % fld v 6 0 ≠ 0) : writePeriod v s = s := by
  have h0 : fld v 6 0 ≠ 0 := by omega
  simp only [writePeriod, h0, not_lt.mpr h100, hday, if_false]

end

/-- A word that a field's value fits in reads as it. -/
theorem fld_word {x hi : Nat} (hx : x < 2 ^ (hi + 1)) (h : hi < 32) : fld (word x) hi 0 = x := by
  have h32 : 2 ^ (hi + 1) ≤ 2 ^ 32 := Nat.pow_le_pow_right (by decide) (by omega)
  rw [fld, word, BitVec.toNat_ofNat, Nat.mod_eq_of_lt (lt_of_lt_of_le hx h32), Nat.pow_zero, Nat.div_one]
  exact Nat.mod_eq_of_lt hx

/-- A period that keeps R15 is shown, and waits. -/
theorem writePeriod_shows {v : Word} {s : State} (h1 : 1 ≤ fld v 6 0) (h100 : fld v 6 0 ≤ 100)
    (hday : (nextDay s).solverUs % fld v 6 0 = 0) :
    regFld Reg.SRV_PERIOD 6 0 (writePeriod v s) = fld v 6 0 ∧ regBit Reg.SRV_STAT 29 (writePeriod v s) = true ∧
      (writePeriod v s).day = s.day ∧ onlyRegs [Reg.SRV_STAT, Reg.SRV_PERIOD] s (writePeriod v s) := by
  rw [writePeriod_pending h1 h100 hday]
  refine ⟨?_, regBit_setRegFld_inside _ _ _ _ _ _ (by decide) le_rfl le_rfl, rfl, ?_⟩
  · rw [setRegFld_eq, regFld_setReg_other _ _ _ _ (by decide), setRegFld_eq, regFld_setReg_other _ _ _ _ (by decide),
      regFld_setReg_same, fld_word (by omega) (by decide)]
  · have hstat : Reg.SRV_STAT ∈ [Reg.SRV_STAT, Reg.SRV_PERIOD] := by decide
    exact onlyRegs_step hstat (onlyRegs_step hstat (onlyRegs_step (by decide) (onlyRegs_refl _ s) _) _) _

theorem writeLimits_zero {v : Word} (h : fld v 7 0 = 0) (s : State) :
    writeLimits v s = setRegFld Reg.SRV_STAT 23 16 Code.fieldZero s := by
  simp only [writeLimits, h, if_true]

/-- Limits that are kept read as they were written. -/
theorem writeLimits_shows {v : Word} (h : fld v 7 0 ≠ 0) (s : State) :
    regFld Reg.SRV_LIMITS 15 0 (writeLimits v s) = fld v 15 0 ∧
      onlyRegs [Reg.SRV_STAT, Reg.SRV_LIMITS] s (writeLimits v s) := by
  have hmask : ∀ i ≤ 15, bit (0xFFFF : Word) i = true := by decide
  rw [show writeLimits v s = setRegFld Reg.SRV_STAT 23 16 0 (rwStore Reg.SRV_LIMITS v s) from if_neg h, rwStore_eq rw_srvLimits]
  refine ⟨?_, onlyRegs_step (by decide) (onlyRegs_step (by decide) (onlyRegs_refl _ s) _) _⟩
  rw [setRegFld_eq, regFld_setReg_other _ _ _ _ (by decide), regFld_setReg_same,
    fld_storedWord (by decide) (fun i _ hi => hmask i hi)]

theorem servoConfigWrite_outcomes (w : Writer) (v : Word) (s : State) (hw : writesNow w s = true) :
    (fld v 6 0 = 0 → ∃ t, exec (.servoConfigWrite w false v) s = .next t ∧ regFld Reg.SRV_STAT 23 16 t = 0x01 ∧
      onlyRegs [Reg.SRV_STAT] (usedBy w s) t) ∧
    (100 < fld v 6 0 → ∃ t, exec (.servoConfigWrite w false v) s = .next t ∧ regBit Reg.SRV_STAT 0 t = true ∧
      onlyRegs [Reg.SRV_STAT] (usedBy w s) t) ∧
    (1 ≤ fld v 6 0 → fld v 6 0 ≤ 100 → (nextDay s).solverUs % fld v 6 0 = 0 →
      ∃ t, exec (.servoConfigWrite w false v) s = .next t ∧ regFld Reg.SRV_PERIOD 6 0 t = fld v 6 0 ∧
        regBit Reg.SRV_STAT 29 t = true ∧ t.day = s.day ∧ onlyRegs [Reg.SRV_STAT, Reg.SRV_PERIOD] (usedBy w s) t) ∧
    (1 ≤ fld v 6 0 → fld v 6 0 ≤ 100 → (nextDay s).solverUs % fld v 6 0 ≠ 0 →
      exec (.servoConfigWrite w false v) s = .next (usedBy w s)) ∧
    (fld v 7 0 = 0 → ∃ t, exec (.servoConfigWrite w true v) s = .next t ∧ regFld Reg.SRV_STAT 23 16 t = 0x01 ∧
      onlyRegs [Reg.SRV_STAT] (usedBy w s) t) ∧
    (fld v 7 0 ≠ 0 → ∃ t, exec (.servoConfigWrite w true v) s = .next t ∧
      regFld Reg.SRV_LIMITS 15 0 t = fld v 15 0 ∧ onlyRegs [Reg.SRV_STAT, Reg.SRV_LIMITS] (usedBy w s) t) := by
  rw [exec_servoConfigWrite_period w v hw, exec_servoConfigWrite_limits w v hw, ← nextDay_usedBy w s, ← day_usedBy w s]
  generalize usedBy w s = u
  refine ⟨fun h => ⟨_, rfl, ?_⟩, fun h => ⟨_, rfl, ?_⟩, fun h1 h100 hday => ⟨_, rfl, writePeriod_shows h1 h100 hday⟩,
    fun h1 h100 hday => by rw [writePeriod_refused h1 h100 hday], fun h => ⟨_, rfl, ?_⟩,
    fun h => ⟨_, rfl, writeLimits_shows h u⟩⟩
  · rw [writePeriod_zero u h]
    exact ⟨fieldZero_shown u, onlyRegs_setReg _ _ u⟩
  · rw [writePeriod_over u h]
    refine ⟨?_, onlyRegs_setReg _ _ u⟩
    rw [orReg_eq, regBit_setReg_same, bit_or, show bit (1 : Word) 0 = true by decide, Bool.or_true]
  · rw [writeLimits_zero h]
    exact ⟨fieldZero_shown u, onlyRegs_setReg _ _ u⟩

/-! ### COMMIT and FAULT (R243, R255, R265) -/

/-- A commit shows in its register, and only notes when it came. -/
theorem axisCommit_shows (n : Fin 64) (v : Word) (s : State) :
    regBit (Reg.SRV_AXISn_CTL n) 31 (axisCommit n v s) = (regBit (Reg.SRV_AXISn_CTL n) 31 s || bit v 31) ∧
      regFld (Reg.SRV_AXISn_CTL n) 2 0 (axisCommit n v s) = fld v 2 0 ∧ (axisCommit n v s).srv.active = s.srv.active ∧
      regsKept [Reg.SRV_AXISn_CTL n] s (axisCommit n v s) ∧ memKept s (axisCommit n v s) := by
  have hmask : ∀ i ≤ 2, bit (0xF7 : Word) i = true := by decide
  have hpop : Reg.SRV_AXISn_CTL n ≠ Reg.MEM_POP := by have := n.isLt; simp only [Reg.SRV_AXISn_CTL, Reg.MEM_POP]; omega
  unfold axisCommit
  extract_lets c was u
  have hbit : regBit c 31 u = (was || bit v 31) := by
    rw [regBit_setRegFld_inside _ _ _ _ _ _ (by decide) le_rfl le_rfl]
    cases was || bit v 31 <;> rfl
  have hmode : regFld c 2 0 u = fld v 2 0 := by
    rw [regFld_setRegFld_apart _ _ _ _ _ _ _ (by decide), rwStore_eq (rw_axisCtl n), regFld_setReg_same,
      fld_storedWord (by decide) (fun i _ hi => hmask i hi)]
  have honly : onlyRegs [c] s u := onlyRegs_step List.mem_cons_self (onlyRegs_rwStore (rw_axisCtl n) v s) _
  have hactive : u.srv.active = s.srv.active := (congrArg (fun t : State => t.srv.active) honly.2 :)
  have hmem : memKept s u := memKept_of_onlyRegs honly (by simpa using hpop.symm)
  split
  · exact ⟨hbit, hmode, hactive, honly.1, memKept_trans hmem (memKept_setAxis n _ u)⟩
  · exact ⟨hbit, hmode, hactive, honly.1, hmem⟩

/-- What the end of a fault leaves of an axis (R243, R254, R255). -/
def axisCleared (n : Nat) (s : State) : Axis :=
  { quietAxis (getAxis n s) with armed := rampEn n s, ramping := false, rampLast := false }

theorem clearFault_ends {n : Nat} {s : State} (hfault : regBit (Reg.SRV_AXISn_STAT n) 31 s = true)
    (hold : (getAxis n s).faultAt ≠ some (now s / scRoot)) : clearFault n s =
      showRamp n (setAxis n (axisCleared n s) (setRegFld (Reg.SRV_AXISn_STAT n) 31 31 0 s)) := by
  simp only [clearFault, hfault, hold, ne_eq, not_false_eq_true, decide_true, Bool.and_self, if_true, axisCleared]

theorem clearFault_stays {n : Nat} {s : State} (h : regBit (Reg.SRV_AXISn_STAT n) 31 s = false ∨
    (getAxis n s).faultAt = some (now s / scRoot)) : clearFault n s = s := by
  unfold clearFault
  refine if_neg fun hclear => ?_
  simp only [Bool.and_eq_true, decide_eq_true_eq] at hclear
  rcases h with h | h
  · simp [h] at hclear
  · exact hclear.2 h

/-- The cleared fault bit, and the axis with histories 0 and its ramp armed. -/
theorem clearFault_shows {n : Nat} (hn : n < 64) {s : State} (hfault : regBit (Reg.SRV_AXISn_STAT n) 31 s = true)
    (hold : (getAxis n s).faultAt ≠ some (now s / scRoot)) :
    regBit (Reg.SRV_AXISn_STAT n) 31 (clearFault n s) = false ∧ getAxis n (clearFault n s) = axisCleared n s ∧
      regsKept [Reg.SRV_AXISn_STAT n] s (clearFault n s) ∧ memKept s (clearFault n s) := by
  have hpop : Reg.SRV_AXISn_STAT n ≠ Reg.MEM_POP := by simp only [Reg.SRV_AXISn_STAT, Reg.MEM_POP]; omega
  rw [clearFault_ends hfault hold, showRamp]
  refine ⟨?_, ?_, ?_, ?_⟩
  · rw [regBit_setRegFld_apart _ _ _ _ _ _ (by decide), regBit_setAxis]
    exact regBit_setRegFld_inside _ _ _ _ _ s (by decide) le_rfl le_rfl
  · rw [setRegFld_eq, getAxis_setReg, getAxis_setAxis_same]
  · exact regsKept_step List.mem_cons_self (regsKept_setReg _ _ s) _
  · exact memKept_step hpop (memKept_trans (memKept_setReg _ _ s hpop) (memKept_setAxis n _ _)) _

/-! ### ARM, FORCE and the reading of the buffer (R263, R264) -/

theorem traceArm_shows (s : State) :
    regBit Reg.SRV_TRC_STAT 31 (traceArm s) = true ∧ regBit Reg.SRV_TRC_STAT 30 (traceArm s) = false ∧
      regBit Reg.SRV_TRC_STAT 29 (traceArm s) = false ∧ regsKept [Reg.SRV_TRC_STAT] s (traceArm s) ∧
      memKept s (traceArm s) := by
  unfold traceArm
  rw [modReg_eq]
  refine ⟨?_, ?_, ?_, regsKept_step List.mem_cons_self (fun _ _ => rfl) _,
    memKept_step (by decide) (memKept_withSrv _ s) _⟩
  · rw [regBit_setReg_same, bit_setBit_other _ _ (by decide), bit_setBit_other _ _ (by decide), bit_setBit_same _ _ _ (by decide)]
  · rw [regBit_setReg_same, bit_setBit_other _ _ (by decide), bit_setBit_same _ _ _ (by decide)]
  · rw [regBit_setReg_same, bit_setBit_same _ _ _ (by decide)]

theorem traceForce_shows (s : State) :
    (regBit Reg.SRV_TRC_STAT 31 s = true → (traceForce s).srv.trace.forced = true) ∧
      onlyRegs [] { s with srv := (traceForce s).srv } (traceForce s) := by
  unfold traceForce
  split
  · exact ⟨fun _ => rfl, fun _ _ => rfl, rfl⟩
  · next h => exact ⟨fun hrec => absurd hrec h, onlyRegs_refl _ s⟩

theorem exec_traceDataRead {s : State} (hw : writesNow .host s = true) : exec (.traceDataRead .host) s =
    .next (returnTo .host (traceDataRead (usedBy .host s)).1 (traceDataRead (usedBy .host s)).2) :=
  congrArg Host.Outcome.next (asReader_now _ _ s hw)

theorem traceDataRead_recording {s : State} (h : regBit Reg.SRV_TRC_STAT 31 s = true) : traceDataRead s = (0, s) := by
  simp only [traceDataRead, h, if_true]

theorem traceDataRead_stopped {s : State} (h : regBit Reg.SRV_TRC_STAT 31 s = false) : traceDataRead s =
    (tget (fun _ => 0) s.srv.trace.buf (regFld Reg.SRV_TRC_ADDR 12 0 s),
      setReg Reg.SRV_TRC_ADDR (word ((regFld Reg.SRV_TRC_ADDR 12 0 s + 1) % 8192)) s) := by
  simp only [traceDataRead, h, Bool.false_eq_true, if_false]

theorem traceDataRead_outcomes (s : State) (hw : writesNow .host s = true) :
    (regBit Reg.SRV_TRC_STAT 31 s = true →
      exec (.traceDataRead .host) s = .next { usedBy .host s with pcieData := 0 }) ∧
    (regBit Reg.SRV_TRC_STAT 31 s = false → ∃ t, exec (.traceDataRead .host) s = .next t ∧
      t.pcieData = tget (fun _ => 0) s.srv.trace.buf (regFld Reg.SRV_TRC_ADDR 12 0 s) ∧
      regFld Reg.SRV_TRC_ADDR 12 0 t = (regFld Reg.SRV_TRC_ADDR 12 0 s + 1) % 8192 ∧
      regsKept [Reg.SRV_TRC_ADDR] s t ∧ memKept s t) := by
  rw [exec_traceDataRead hw]
  refine ⟨fun h => ?_, fun h => ⟨_, rfl, ?_⟩⟩
  · rw [traceDataRead_recording ((regBit_usedBy _ _ _ s).trans h)]
    rfl
  · rw [traceDataRead_stopped ((regBit_usedBy _ _ _ s).trans h), regFld_usedBy]
    refine ⟨rfl, ?_, regsKept_of_usedBy (regsKept_setReg Reg.SRV_TRC_ADDR _ _), ?_⟩
    · exact (regFld_setReg_same _ _ _ _ _).trans (fld_word (Nat.mod_lt _ (by decide)) (by decide))
    · exact memKept_trans (memKept_step (by decide) (memKept_usedBy .host s) _) (memKept_returnTo .host _ _)

/-! ### One record (R261) -/

/-- Words stored one after the other from `base` on. -/
theorem tget_foldl_tset (d : Nat → Word) (f : Nat → Word) (base n k : Nat) (b : Tab Word) :
    tget d ((List.range n).foldl (fun b j => tset d (base + j) (f j) b) b) k =
      if base ≤ k ∧ k < base + n then f (k - base) else tget d b k := by
  induction n with
  | zero => rw [if_neg (by omega)]; rfl
  | succ n ih =>
    rw [List.range_succ, List.foldl_append, List.foldl_cons, List.foldl_nil, tget_tset, ih]
    by_cases hlast : k = base + n
    · rw [if_pos hlast, if_pos (by omega), hlast, Nat.add_sub_cancel_left]
    · rw [if_neg hlast]
      exact if_congr (by omega) rfl rfl

/-- The place of the next record of N nodes. -/
def recordPlace (s : State) : Nat := s.srv.trace.next % (8192 / traceNodes s)

/-- The buffer with one more record. -/
def recordedBuf (s : State) : Tab Word :=
  (List.range (traceNodes s)).foldl
    (fun b j => tset (fun _ => 0) (recordPlace s * traceNodes s + j) (wordI (traceNode j s)) b) s.srv.trace.buf

/-- The state with one more record, before the trigger. -/
def withRecord (left : Nat) (s : State) : State :=
  clearEvents { s with srv := { s.srv with trace := { s.srv.trace with
    buf := recordedBuf s, next := (recordPlace s + 1) % (8192 / traceNodes s), forced := false, postLeft := left,
    prevNode0 := some (traceNode 0 s) } } }

/-- The registers that show a trace. -/
def traceRegs : List Nat := [Reg.SRV_TRC_STAT, Reg.SRV_TRC_STAMP_LO, Reg.SRV_TRC_STAMP_HI]

/-- The trigger and the end of a trace show in registers alone. -/
theorem traceRecord_records {s : State} (hrun : srvRunning s = true) (hrec : regBit Reg.SRV_TRC_STAT 31 s = true)
    (harm : s.srv.trace.armNext = false) (hn : traceNodes s ≠ 0) :
    ∃ left, onlyRegs traceRegs (withRecord left (runTo (s.srv.start + 464 * scRoot) s)) (traceRecord s) := by
  have hgo : (srvRunning s && regBit Reg.SRV_TRC_STAT 31 s && !s.srv.trace.armNext && decide (traceNodes s ≠ 0)) = true := by
    simp [hrun, hrec, harm, hn]
  unfold traceRecord
  extract_lets n t u d r buf v hit post left ends srv u1 u2 u3
  rw [if_pos hgo]
  have hstat : Reg.SRV_TRC_STAT ∈ traceRegs := by decide
  refine ⟨left, ?_⟩
  change onlyRegs traceRegs u2 _
  clear_value u2
  have hu3 : onlyRegs traceRegs u2 u3 := by
    unfold u3
    split
    · exact onlyRegs_step (by decide) (onlyRegs_step (by decide)
        (onlyRegs_step hstat (onlyRegs_step hstat (onlyRegs_refl _ u2) _) _) _) _
    · exact onlyRegs_refl _ u2
  split
  · exact onlyRegs_step hstat (onlyRegs_step hstat hu3 _) _
  · exact hu3

/-- One record is written and nothing else is stored. -/
theorem traceRecord_shows {s : State} (hrun : srvRunning s = true) (hrec : regBit Reg.SRV_TRC_STAT 31 s = true)
    (harm : s.srv.trace.armNext = false) (hn : traceNodes s ≠ 0) :
    now (traceRecord s) = max (now s) (s.srv.start + 464 * scRoot) ∧
      (traceRecord s).srv.trace.next = (recordPlace s + 1) % (8192 / traceNodes s) ∧
      (traceRecord s).srv.trace.buf = recordedBuf s ∧ memKept s (traceRecord s) := by
  obtain ⟨left, honly⟩ := traceRecord_records hrun hrec harm hn
  have hmem := memKept_of_onlyRegs honly (by decide)
  refine ⟨?_, (congrArg (fun t : State => t.srv.trace.next) honly.2 :), (congrArg (fun t : State => t.srv.trace.buf) honly.2 :),
    memKept_trans (memKept_trans (memKept_runTo _ s) (memKept_withSrv _ _)) hmem⟩
  exact (congrArg now honly.2 :).trans (now_runTo _ s)

/-- Settles O45: by what each write stores, by whether the fault that is cleared is of the present servo cycle, and by the words
that a record adds to the buffer. -/
theorem servoSettingsAndTrace : Obligations.ServoSettingsAndTrace := by
  unfold Obligations.ServoSettingsAndTrace
  refine ⟨⟨fun w v s hw => ?enable, fun w v s hw => servoConfigWrite_outcomes w v s hw, fun w n v s hw => ?commit,
    fun w n s hw => ?clear⟩, fun w s hw => ?arm, fun w s hw => ?force, fun s hw => traceDataRead_outcomes s hw,
    fun s hrun hrec harm hn => ?record⟩
  case enable =>
    exact ⟨_, exec_servoEnable w v hw, regBit_rwStore_srvCtl v _, onlyRegs_rwStore rw_srvCtl v _⟩
  case commit =>
    obtain ⟨hcommit, hmode, hactive, hregs, hmem⟩ := axisCommit_shows n v (usedBy w s)
    exact ⟨_, exec_axisCommit w n v hw, hcommit.trans (by rw [regBit_usedBy]), hmode, hactive.trans (by rw [srv_usedBy]),
      regsKept_of_usedBy hregs, memKept_trans (memKept_usedBy w s) hmem⟩
  case clear =>
    rw [exec_faultClear w n hw, ← regBit_usedBy _ _ w s, ← getAxis_usedBy _ w s, ← now_usedBy w s, ← rampEn_usedBy _ w s]
    refine ⟨fun hfault hold => ⟨_, rfl, ?_⟩, fun h => by rw [clearFault_stays h]⟩
    obtain ⟨hcleared, haxis, hregs, hmem⟩ := clearFault_shows n.isLt hfault hold
    rw [haxis]
    exact ⟨hcleared, rfl, rfl, rfl, regsKept_of_usedBy hregs, memKept_trans (memKept_usedBy w s) hmem⟩
  case arm =>
    obtain ⟨hrec, htrig, hstop, hregs, hmem⟩ := traceArm_shows (usedBy w s)
    exact ⟨_, exec_traceArm w hw, hrec, htrig, hstop, regsKept_of_usedBy hregs, memKept_trans (memKept_usedBy w s) hmem⟩
  case force =>
    rw [← regBit_usedBy _ _ w s]
    exact ⟨_, exec_traceForce w hw, traceForce_shows (usedBy w s)⟩
  case record =>
    obtain ⟨hnow, hnext, hbuf, hmem⟩ := traceRecord_shows hrun hrec harm hn
    refine ⟨_, rfl, hnow, hnext, fun j hj => ?_, fun k hk => ?_, hmem⟩
    · rw [hbuf, recordedBuf, tget_foldl_tset, if_pos ⟨Nat.le_add_right _ _, Nat.add_lt_add_left hj _⟩, recordPlace,
        Nat.add_sub_cancel_left]
    · rw [hbuf, recordedBuf, tget_foldl_tset]
      exact if_neg (by simp only [recordPlace]; omega)

end Sys2Proof.Machine
end

section
/-! What the events of the servo engine leave alone: everything outside the engine and its reports, and in a loop over the axes
every axis but the one whose turn it is; what the safety latches leave of the axes. -/

namespace Sys2Proof.Machine

open Sys2Proof.Config

/-! ### What an event of the engine leaves alone -/

/-- Nothing changed but what a report to the safety subsystem may change, the servo engine without the start of its period, and
the registers of `P`. -/
structure EngineOnly (P : Nat → Prop) (s t : State) : Prop where
  rest : reportFrom s t = s
  start : t.srv.start = s.srv.start
  regs : ∀ o, ¬ P o → getReg o t = getReg o s

namespace EngineOnly

variable {P Q : Nat → Prop} {s t u : State}

theorem refl (s : State) : EngineOnly P s s := ⟨rfl, rfl, fun _ _ => rfl⟩

theorem trans (h1 : EngineOnly P s t) (h2 : EngineOnly P t u) : EngineOnly P s u :=
  ⟨calc reportFrom s u = reportFrom s (reportFrom t u) := rfl
      _ = s := by rw [h2.rest, h1.rest],
    h2.start.trans h1.start, fun o ho => (h2.regs o ho).trans (h1.regs o ho)⟩

theorem mono (h : EngineOnly P s t) (hsub : ∀ o, P o → Q o) : EngineOnly Q s t :=
  ⟨h.rest, h.start, fun o ho => h.regs o (fun hp => ho (hsub o hp))⟩

theorem ite {c : Prop} [Decidable c] {a b : State} (ha : EngineOnly P s a) (hb : EngineOnly P s b) :
    EngineOnly P s (if c then a else b) := by
  split
  · exact ha
  · exact hb

theorem foldl {α : Type} {f : State → α → State} {l : List α} (hf : ∀ a ∈ l, ∀ s, EngineOnly P s (f s a)) (s : State) :
    EngineOnly P s (l.foldl f s) := by
  induction l generalizing s with
  | nil => exact refl s
  | cons a l ih => exact (hf a List.mem_cons_self s).trans (ih (fun b hb => hf b (List.mem_cons_of_mem _ hb)) _)

theorem setReg {o : Nat} (h : P o) (v : Word) (s : State) : EngineOnly P s (setReg o v s) :=
  ⟨rfl, rfl, fun _ hp => getReg_setReg_other _ _ (fun e => hp (e ▸ h))⟩

theorem setAxis (n : Nat) (a : Axis) (s : State) : EngineOnly P s (setAxis n a s) := ⟨rfl, rfl, fun _ _ => rfl⟩

theorem now (h : EngineOnly P s t) : Machine.now t = Machine.now s := (congrArg Machine.now h.rest :)

theorem memKept (h : EngineOnly P s t) (hpop : ¬ P Reg.MEM_POP) : Machine.memKept s t := by
  have hread : ∀ sp a, rdByte sp a (reportFrom s t) = rdByte sp a s := fun sp a => congrArg (rdByte sp a) h.rest
  refine ⟨fun sp a => ?_, fun a => (congrArg (hostByte a) h.rest :), (congrArg State.flash h.rest :),
    (congrArg State.fuses h.rest :)⟩
  have hhas : dramHas (memKey sp a) (reportFrom s t) = dramHas (memKey sp a) t := by
    simp only [dramHas, h.regs _ hpop]
    rfl
  rw [← hread]
  unfold rdByte
  rw [hhas]
  cases sp <;> rfl

end EngineOnly

/-! ### What a turn of one axis leaves alone -/

/-- The counters that the turns of all axes share: saturation, missing measurements, disagreements, lost events, the slots
without an up frame of a lane, and the replaced command frames of a controller. -/
abbrev countReg (o : Nat) : Prop :=
  o ∈ [Reg.SRV_SAT_COUNT, Reg.SRV_MISS_COUNT, Reg.SAF_SRV_DISAGREE_COUNT, Reg.MGT_EVT_LOST] ∨
    (0x608000 ≤ o ∧ o < 0x608400 ∧ o % 0x40 = 0x2C) ∨ (0x700000 ≤ o ∧ o < 0x800000 ∧ o % 0x40000 = 0x30)

/-- The registers that an axis's turn may write. -/
abbrev axisReg (n o : Nat) : Prop := o = Reg.SRV_AXISn_STAT n ∨ o = Reg.SRV_AXISn_CMD n ∨ o = Reg.SAF_AXn_STAT n

/-- The registers that the turns of the axes of `A` may write. -/
def touchedReg (A : Nat → Prop) (o : Nat) : Prop := countReg o ∨ ∃ n, A n ∧ n < 64 ∧ axisReg n o

/-- A register outside the counters and the axes' status registers. -/
abbrev settledReg (o : Nat) : Prop :=
  ¬ countReg o ∧ (o < 0x601000 ∨ 0x605000 ≤ o) ∧ (o < 0xA01000 ∨ 0xA01200 ≤ o)

theorem not_touchedReg_of_settled {A : Nat → Prop} {o : Nat} (h : settledReg o) : ¬ touchedReg A o := by
  obtain ⟨hcount, hsrv, hsaf⟩ := h
  rintro (hc | ⟨n, -, hn, hn'⟩)
  · exact hcount hc
  · simp only [axisReg, Reg.SRV_AXISn_STAT, Reg.SRV_AXISn_CMD, Reg.SAF_AXn_STAT] at hn'
    omega

theorem countReg_range {o : Nat} (h : countReg o) : o < 0x601000 ∨ (0x608000 ≤ o ∧ o < 0x608400 ∧ o % 0x40 = 0x2C) ∨
    (0x700000 ≤ o ∧ o < 0x800000 ∧ o % 0x40000 = 0x30) ∨ (0xA00000 ≤ o ∧ o < 0xA01000) ∨ 0xC00000 ≤ o := by
  simp only [countReg, Reg.SRV_SAT_COUNT, Reg.SRV_MISS_COUNT, Reg.SAF_SRV_DISAGREE_COUNT, Reg.MGT_EVT_LOST, List.mem_cons,
    List.not_mem_nil, or_false] at h
  omega

theorem not_countReg_axis {n o : Nat} (hn : n < 64) (h : axisReg n o ∨ o = Reg.SAF_AXn_TOL n) : ¬ countReg o := fun hc => by
  have hrange := countReg_range hc
  simp only [axisReg, Reg.SRV_AXISn_STAT, Reg.SRV_AXISn_CMD, Reg.SAF_AXn_STAT, Reg.SAF_AXn_TOL] at h
  omega

/-- The turns of other axes write no register of an axis. -/
theorem not_touchedReg_axis {n o : Nat} (hn : n < 64) (h : axisReg n o ∨ o = Reg.SAF_AXn_TOL n) : ¬ touchedReg (· ≠ n) o := by
  rintro (hc | ⟨m, hmn, hm, hm'⟩)
  · exact not_countReg_axis hn h hc
  · simp only [axisReg, Reg.SRV_AXISn_STAT, Reg.SRV_AXISn_CMD, Reg.SAF_AXn_STAT, Reg.SAF_AXn_TOL] at h hm'
    omega

/-- Only the axes of `A` had their turns: their own state and registers, the shared counters, the trigger's events and reports
may have changed. -/
structure Touched (A : Nat → Prop) (s t : State) : Prop extends EngineOnly (touchedReg A) s t where
  active : t.srv.active = s.srv.active
  proofRun : t.srv.proofRun = s.srv.proofRun
  axes : ∀ n, ¬ A n → getAxis n t = getAxis n s
  meas : ∀ c, (getCan c t).meas = (getCan c s).meas

namespace Touched

variable {A B : Nat → Prop} {s t u : State}

theorem refl (s : State) : Touched A s s := ⟨.refl s, rfl, rfl, fun _ _ => rfl, fun _ => rfl⟩

theorem trans (h1 : Touched A s t) (h2 : Touched A t u) : Touched A s u :=
  ⟨h1.toEngineOnly.trans h2.toEngineOnly, h2.active.trans h1.active, h2.proofRun.trans h1.proofRun,
    fun n hn => (h2.axes n hn).trans (h1.axes n hn), fun c => (h2.meas c).trans (h1.meas c)⟩

theorem mono (h : Touched A s t) (hsub : ∀ n, A n → B n) : Touched B s t :=
  ⟨h.toEngineOnly.mono fun _ ho => ho.imp_right fun ⟨n, hA, hn⟩ => ⟨n, hsub n hA, hn⟩, h.active, h.proofRun,
    fun n hn => h.axes n (fun hA => hn (hsub n hA)), h.meas⟩

theorem ite {c : Prop} [Decidable c] {a b : State} (ha : Touched A s a) (hb : Touched A s b) :
    Touched A s (if c then a else b) := by
  split
  · exact ha
  · exact hb

theorem setReg {o : Nat} (h : touchedReg A o) (v : Word) (s : State) : Touched A s (setReg o v s) :=
  ⟨.setReg h v s, rfl, rfl, fun _ _ => rfl, fun _ => rfl⟩

theorem setAxis (n : Nat) (a : Axis) (s : State) : Touched (· = n) s (setAxis n a s) :=
  ⟨.setAxis n a s, rfl, rfl, fun _ hm => getAxis_setAxis_other _ _ hm, fun _ => rfl⟩

/-- The events of the trace trigger and the instant of the last cutoff are no axis's. -/
theorem withSrv {v : Servo} {s : State} (haxes : v.axes = s.srv.axes) (hactive : v.active = s.srv.active)
    (hstart : v.start = s.srv.start) (hproof : v.proofRun = s.srv.proofRun) : Touched A s { s with srv := v } :=
  ⟨⟨rfl, hstart, fun _ _ => rfl⟩, hactive, hproof, fun n _ => by simp only [getAxis, haxes], fun _ => rfl⟩

theorem foldl {f : Nat → State → State} {l : List Nat} (hf : ∀ n ∈ l, ∀ s, Touched A s (f n s)) (s : State) :
    Touched A s (l.foldl (fun s n => f n s) s) := by
  induction l generalizing s with
  | nil => exact refl s
  | cons n l ih => exact (hf n List.mem_cons_self s).trans (ih (fun m hm => hf m (List.mem_cons_of_mem _ hm)) _)

theorem memKept (h : Touched A s t) : Machine.memKept s t :=
  h.toEngineOnly.memKept (not_touchedReg_of_settled (by decide))

theorem settled (h : Touched A s t) {o : Nat} (ho : settledReg o) : getReg o t = getReg o s :=
  h.regs o (not_touchedReg_of_settled ho)

/-- The turns of the other axes leave an axis's registers alone. -/
theorem axisRegs {n o : Nat} (h : Touched (· ≠ n) s t) (hn : n < 64) (ho : axisReg n o ∨ o = Reg.SAF_AXn_TOL n) :
    getReg o t = getReg o s := h.regs o (not_touchedReg_axis hn ho)

theorem axis {n : Nat} (h : Touched (· ≠ n) s t) : getAxis n t = getAxis n s := h.axes n (fun hne => hne rfl)

end Touched

/-- A loop over the axes: the turn of an axis finds it, and leaves it, as if it were the only one. -/
theorem axisLoop {f : Nat → State → State} (hf : ∀ n < 64, ∀ s, Touched (· = n) s (f n s)) (s : State) :
    Touched (· < 64) s ((List.range 64).foldl (fun s n => f n s) s) ∧
      ∀ n < 64, ∃ u, Touched (· ≠ n) s u ∧ Touched (· ≠ n) (f n u) ((List.range 64).foldl (fun s n => f n s) s) := by
  refine ⟨.foldl (fun n hn s => (hf n (List.mem_range.mp hn) s).mono fun m hm => hm ▸ List.mem_range.mp hn) s, fun n hn => ?_⟩
  obtain ⟨before, after, hsplit⟩ := List.append_of_mem (List.mem_range.mpr hn)
  have hdup : (before ++ n :: after).Nodup := hsplit ▸ List.nodup_range
  rw [List.nodup_middle, List.nodup_cons, List.mem_append, not_or] at hdup
  obtain ⟨⟨hbefore, hafter⟩, -⟩ := hdup
  have hother : ∀ l : List Nat, n ∉ l → (∀ m ∈ l, m ∈ List.range 64) → ∀ s, Touched (· ≠ n) s (l.foldl (fun s n => f n s) s) :=
    fun l hl hsub s => .foldl (fun m hm s =>
      (hf m (List.mem_range.mp (hsub m hm)) s).mono fun k hk => hk ▸ ne_of_mem_of_not_mem hm hl) s
  refine ⟨before.foldl (fun s n => f n s) s, hother before hbefore (fun m hm => ?_) s, ?_⟩
  · exact hsplit ▸ List.mem_append_left _ hm
  · rw [hsplit, List.foldl_append, List.foldl_cons]
    exact hother after hafter (fun m hm => hsplit ▸ List.mem_append_right _ (List.mem_cons_of_mem _ hm)) _

/-! ### Parts of a turn -/

section
variable {A : Nat → Prop} {n : Nat}

theorem touchedReg_own {o : Nat} (hn : n < 64) (ho : axisReg n o) : touchedReg (· = n) o := .inr ⟨n, rfl, hn, ho⟩

@[simp] theorem srv_raise (src : Nat) (ev : Ev) (code : Nat) (d : List (Option Word)) (s : State) :
    (raise src ev code d s).srv = s.srv := (congrArg State.srv (raise_frame src ev code d s) :)

@[simp] theorem getAxis_raise (n src : Nat) (ev : Ev) (code : Nat) (d : List (Option Word)) (s : State) :
    getAxis n (raise src ev code d s) = getAxis n s := by
  simp only [getAxis, srv_raise]

theorem touched_raise (src : Nat) (ev : Ev) (code : Nat) (d : List (Option Word)) (s : State) :
    Touched A s (raise src ev code d s) := by
  have hframe := raise_frame src ev code d s
  have hcans : (raise src ev code d s).cans = s.cans := (congrArg State.cans hframe :)
  have hlost : touchedReg A Reg.MGT_EVT_LOST := .inl (by decide)
  refine ⟨⟨(congrArg (reportFrom s) hframe :), by rw [srv_raise], fun o ho => ?_⟩, by rw [srv_raise], by rw [srv_raise],
    fun n _ => getAxis_raise _ _ _ _ _ s, fun c => by simp only [getCan, hcans]⟩
  exact getReg_raise o _ _ _ _ s (fun e => ho (e ▸ hlost))

theorem touched_setStat (hn : n < 64) (hi lo v : Nat) (s : State) :
    Touched (· = n) s (setRegFld (Reg.SRV_AXISn_STAT n) hi lo v s) := .setReg (touchedReg_own hn (.inl rfl)) _ s

theorem touched_showRamp (hn : n < 64) (s : State) : Touched (· = n) s (showRamp n s) := touched_setStat hn _ _ _ s

theorem touched_countSatEvents (k : Nat) (s : State) : Touched A s (countSatEvents k s) := by
  unfold countSatEvents
  refine .ite (.refl s) (.trans ?_ (.setReg (o := Reg.SRV_SAT_COUNT) (.inl (by decide)) _ _))
  exact .withSrv rfl rfl rfl rfl

end

@[simp] theorem getAxis_showRamp (n m : Nat) (s : State) : getAxis n (showRamp m s) = getAxis n s := rfl

@[simp] theorem getAxis_countSatEvents (n k : Nat) (s : State) : getAxis n (countSatEvents k s) = getAxis n s := by
  unfold countSatEvents
  split <;> rfl

@[simp] theorem regBit_countSatEvents {o : Nat} (ho : o ≠ Reg.SRV_SAT_COUNT) (i k : Nat) (s : State) :
    regBit o i (countSatEvents k s) = regBit o i s := by
  unfold countSatEvents
  split
  · rfl
  · exact regBit_setReg_other i _ _ ho

/-! ### What setting safety latches leaves alone (R255, R395 to R400) -/

/-- The registers that a latch may change. -/
def latchRegs : List Nat :=
  [Reg.SAF_LATCH, Reg.SAF_CMP_STAT, Reg.SAF_TEN_ARM, Reg.SAF_TEN_STAT, Reg.SAF_SF_SEQ, Reg.MGT_EVT_LOST]

theorem axisReg_not_latchReg {n o : Nat} (hn : n < 64) (h : axisReg n o) : o ∉ latchRegs := by
  simp only [axisReg, Reg.SRV_AXISn_STAT, Reg.SRV_AXISn_CMD, Reg.SAF_AXn_STAT] at h
  simp only [latchRegs, Reg.SAF_LATCH, Reg.SAF_CMP_STAT, Reg.SAF_TEN_ARM, Reg.SAF_TEN_STAT, Reg.SAF_SF_SEQ, Reg.MGT_EVT_LOST,
    List.mem_cons, List.not_mem_nil, or_false]
  omega

/-- Of the servo engine, setting latches may arm the ramps of axes. -/
structure Latched (s t : State) : Prop extends EngineOnly (· ∈ latchRegs) s t where
  axes : ∀ n, ∃ b, getAxis n t = { getAxis n s with armed := b }

namespace Latched

variable {s t u : State}

theorem refl (s : State) : Latched s s := ⟨.refl s, fun n => ⟨(getAxis n s).armed, rfl⟩⟩

theorem trans (h1 : Latched s t) (h2 : Latched t u) : Latched s u := by
  refine ⟨h1.toEngineOnly.trans h2.toEngineOnly, fun n => ?_⟩
  obtain ⟨a, ha⟩ := h1.axes n
  obtain ⟨b, hb⟩ := h2.axes n
  exact ⟨b, by rw [hb, ha]⟩

/-- What leaves the servo engine alone arms no ramp. -/
theorem of_srv (h : EngineOnly (· ∈ latchRegs) s t) (hsrv : t.srv = s.srv) : Latched s t :=
  ⟨h, fun n => ⟨(getAxis n s).armed, by simp only [getAxis, hsrv]⟩⟩

theorem setReg {o : Nat} (h : o ∈ latchRegs) (v : Word) (s : State) : Latched s (setReg o v s) := .of_srv (.setReg h v s) rfl

end Latched

theorem latched_raise (src : Nat) (ev : Ev) (code : Nat) (d : List (Option Word)) (s : State) :
    Latched s (raise src ev code d s) := by
  refine .of_srv ⟨(congrArg (reportFrom s) (raise_frame src ev code d s) :), by rw [srv_raise], fun o ho => ?_⟩
    (srv_raise _ _ _ _ s)
  exact getReg_raise o _ _ _ _ s (fun e => ho (e ▸ (by decide : Reg.MGT_EVT_LOST ∈ latchRegs)))

theorem latched_arm (n : Nat) (s : State) : Latched s (setAxis n { getAxis n s with armed := true } s) := by
  refine ⟨.setAxis n _ s, fun m => ?_⟩
  by_cases hm : m = n
  · subst hm
    exact ⟨true, getAxis_setAxis_same _ _ _⟩
  · exact ⟨(getAxis m s).armed, getAxis_setAxis_other _ _ hm⟩

theorem latched_armRamps (mask : BitVec 16) (s : State) : Latched s (armRamps mask s) := by
  unfold armRamps
  induction List.range 64 generalizing s with
  | nil => exact .refl s
  | cons n l ih =>
    rw [List.foldl_cons]
    refine .trans ?_ (ih _)
    split
    · exact latched_arm n s
    · exact .refl s

theorem latched_driveTen (s : State) : Latched s (driveTen s) := by
  unfold driveTen
  exact .trans (.setReg (o := Reg.SAF_TEN_STAT) (by decide) _ s) (latched_armRamps _ _)

theorem latched_driveSafe (s : State) : Latched s (driveSafe s) := .setReg (o := Reg.SAF_CMP_STAT) (by decide) _ s

theorem latched_latchBit (b : Nat) (ten : BitVec 16) (s : State) : Latched s (latchBit b ten s) := by
  have hset (d : Tab (BitVec 16)) : Latched s (modReg Reg.SAF_TEN_ARM (· &&& ~~~(ten.zeroExtend 32))
      (orReg Reg.SAF_LATCH (word (2 ^ b)) { s with saf := { s.saf with dropped := d } })) := by
    refine .trans ?_ (.setReg (o := Reg.SAF_TEN_ARM) (by decide) _ _)
    refine .trans ?_ (.setReg (o := Reg.SAF_LATCH) (by decide) _ _)
    exact .of_srv ⟨rfl, rfl, fun _ _ => rfl⟩ rfl
  unfold latchBit
  dsimp only
  split
  · exact (hset _).trans (latched_raise _ _ _ _ _)
  · exact hset _

theorem latched_putLatches (bs : List (Nat × BitVec 16)) (s : State) : Latched s (putLatches bs s) := by
  unfold putLatches
  refine .trans ?_ ((latched_driveTen _).trans (latched_driveSafe _))
  induction bs generalizing s with
  | nil => exact .refl s
  | cons e bs ih => exact (latched_latchBit e.1 e.2 s).trans (ih _)

theorem latched_queueSafety (s : State) : Latched s (queueSafety s) := by
  obtain ⟨hrest, hregs⟩ := queueSafety_frame s
  have hsrv : (queueSafety s).srv = s.srv := (congrArg State.srv hrest :)
  refine .of_srv ⟨(congrArg (reportFrom s) hrest :), by rw [hsrv], fun o ho => hregs o fun hmem => ho ?_⟩ hsrv
  rw [List.mem_singleton.mp hmem]
  decide

theorem latched_setLatches (bs : List (Nat × BitVec 16)) (s : State) : Latched s (setLatches bs s) := by
  unfold setLatches withFrame
  dsimp only
  split
  · exact latched_putLatches bs s
  · exact (latched_putLatches bs s).trans (latched_queueSafety _)

/-- Setting one bit sets it, and clears none (R394). -/
theorem getReg_latchBit (b : Nat) (ten : BitVec 16) (s : State) :
    getReg Reg.SAF_LATCH (latchBit b ten s) = getReg Reg.SAF_LATCH s ||| word (2 ^ b) := by
  unfold latchBit
  dsimp only
  split
  · rw [getReg_raise _ _ _ _ _ _ (by decide)]
    exact (getReg_setReg_other _ _ (by decide)).trans (getReg_setReg_same _ _ _)
  · exact (getReg_setReg_other _ _ (by decide)).trans (getReg_setReg_same _ _ _)

theorem regBit_foldl_latchBit {b : Nat} (hb : b < 32) (bs : List (Nat × BitVec 16)) (s : State)
    (h : regBit Reg.SAF_LATCH b s = true ∨ b ∈ bs.map (·.1)) :
    regBit Reg.SAF_LATCH b (bs.foldl (fun s e => latchBit e.1 e.2 s) s) = true := by
  induction bs generalizing s with
  | nil => simpa using h
  | cons e bs ih =>
    refine ih _ ?_
    rw [regBit, getReg_latchBit, bit_or]
    rcases h with h | h
    · exact .inl (by rw [regBit] at h; rw [h, Bool.true_or])
    · rw [List.map_cons, List.mem_cons] at h
      refine h.imp_left fun he => ?_
      rw [← he, Bool.or_eq_true]
      refine .inr ?_
      rw [bit, word, BitVec.getLsbD_ofNat, Nat.testBit_two_pow_self, decide_eq_true hb, Bool.and_true]

/-- A latch bit that is set stands. -/
theorem regBit_setLatches {b : Nat} (hb : b < 32) {bs : List (Nat × BitVec 16)} (h : b ∈ bs.map (·.1)) (s : State) :
    regBit Reg.SAF_LATCH b (setLatches bs s) = true := by
  have hpins : ∀ v, getReg Reg.SAF_LATCH (driveSafe (driveTen v)) = getReg Reg.SAF_LATCH v := fun v =>
    (getReg_setReg_other _ _ (by decide)).trans (driveTen_reg _ v (by decide))
  have hput : regBit Reg.SAF_LATCH b (putLatches bs s) = true := by
    rw [putLatches, regBit, hpins]
    exact regBit_foldl_latchBit hb bs s (.inr h)
  unfold setLatches withFrame
  dsimp only
  split
  · exact hput
  · rw [regBit, (queueSafety_frame _).2 Reg.SAF_LATCH (by decide)]
    exact hput

end Sys2Proof.Machine
end

section
/-! Measurement cutoffs of the servo engine (R237 to R243): their instants, what a measurement rests on, and what a cutoff leaves
in the latch of an axis. -/

namespace Sys2Proof.Machine

open Sys2Proof.Config

/-! ### The instant of a cutoff (R237) -/

theorem le_slotInstant (from_ off : Nat) (s : State) : from_ ≤ slotInstant from_ off s := Nat.le_add_right _ _

/-- The next cutoff, after the last one. -/
def cutoffInstant (s : State) : Nat := slotInstant (max (now s) (s.srv.cutoffAt + 1)) 25 s

theorem le_cutoffInstant (s : State) : now s ≤ cutoffInstant s ∧ s.srv.cutoffAt < cutoffInstant s := by
  have := le_slotInstant (max (now s) (s.srv.cutoffAt + 1)) 25 s
  rw [cutoffInstant]
  omega

/-! ### What a measurement rests on (R237 to R239) -/

theorem courierMeas_congr {A : Nat → Prop} {s u : State} (h : Touched A s u) (hlanes : u.lanes = s.lanes) {lane : Nat}
    (hlane : lane < 16) (d from_ to_ : Nat) : courierMeas lane d from_ to_ u = courierMeas lane d from_ to_ s := by
  have hreg : ∀ r < 2, getReg (0x608000 + 0x40 * lane + 4 * r) u = getReg (0x608000 + 0x40 * lane + 4 * r) s := fun r hr =>
    h.settled ⟨fun hc => by have := countReg_range hc; omega, by omega, by omega⟩
  have hctl : getReg (Reg.SRV_LANEl_CTL lane) u = getReg (Reg.SRV_LANEl_CTL lane) s := hreg 0 (by decide)
  have hstat : getReg (Reg.SRV_LANEl_STAT lane) u = getReg (Reg.SRV_LANEl_STAT lane) s := by
    rw [show Reg.SRV_LANEl_STAT lane = 0x608000 + 0x40 * lane + 4 * 1 by simp only [Reg.SRV_LANEl_STAT]; omega]
    exact hreg 1 (by decide)
  have hlane : getLane lane u = getLane lane s := by simp only [getLane, hlanes]
  unfold courierMeas regBit regFld
  rw [hctl, hstat, hlane]

theorem canMeas_congr {A : Nat → Prop} {s u : State} (h : Touched A s u) {c k : Nat} (hc : c < 4) (hk : k < 256)
    (from_ to_ : Nat) : canMeas c k from_ to_ u = canMeas c k from_ to_ s := by
  have hctl : getReg (Reg.CAN_Cc_CTL c) u = getReg (Reg.CAN_Cc_CTL c) s := h.settled
    ⟨fun hcount => by have := countReg_range hcount; simp only [Reg.CAN_Cc_CTL] at this; omega,
      by simp only [Reg.CAN_Cc_CTL]; omega, by simp only [Reg.CAN_Cc_CTL]; omega⟩
  have hentry : axisEntry c k 2 u = axisEntry c k 2 s := h.settled
    ⟨fun hcount => by have := countReg_range hcount; simp only [Reg.CAN_Cc_AXIS_TABLE] at this; omega,
      by simp only [Reg.CAN_Cc_AXIS_TABLE]; omega, by simp only [Reg.CAN_Cc_AXIS_TABLE]; omega⟩
  unfold canMeas regBit
  rw [hctl, hentry, h.meas]

theorem srvRunning_congr {A : Nat → Prop} {s u : State} (h : Touched A s u) : srvRunning u = srvRunning s := by
  simp only [srvRunning, regBit, h.settled (o := Reg.SRV_STAT) (by decide)]

/-- The turns of other axes leave an axis's measurement alone. -/
theorem axisMeas_congr {n : Nat} {s u : State} (h : Touched (· ≠ n) s u) (t : Nat) (first : Bool) :
    axisMeas n t first u = axisMeas n t first s := by
  have hlanes : u.lanes = s.lanes := (congrArg State.lanes h.rest :)
  have hbind : activeReg (Reg.SRV_AXISn_BIND n) u = activeReg (Reg.SRV_AXISn_BIND n) s := by simp only [activeReg, h.active]
  simp only [axisMeas, hbind, h.axis, srvRunning_congr h, canMeas_congr h (fld_lt _ 25 24) (fld_lt _ 19 12),
    courierMeas_congr h hlanes (fld_lt _ 27 24)]

/-! ### The latch of an axis (R240) -/

/-- The latch of an axis is another's. -/
def SameLatch (a b : Axis) : Prop :=
  b.latchPos = a.latchPos ∧ b.latchVel = a.latchVel ∧ b.latchCur = a.latchCur ∧ b.stamp = a.stamp ∧ b.missing = a.missing

theorem sameLatch_refl (a : Axis) : SameLatch a a := ⟨rfl, rfl, rfl, rfl, rfl⟩

theorem SameLatch.trans {a b c : Axis} (h1 : SameLatch a b) (h2 : SameLatch b c) : SameLatch a c := by
  obtain ⟨hpos, hvel, hcur, hstamp, hmiss⟩ := h1
  obtain ⟨hpos', hvel', hcur', hstamp', hmiss'⟩ := h2
  exact ⟨hpos'.trans hpos, hvel'.trans hvel, hcur'.trans hcur, hstamp'.trans hstamp, hmiss'.trans hmiss⟩

/-- An axis with a good measurement in its latch. -/
def latchTaken (v : Meas) (a : Axis) : Axis := { a with
  latchPos := v.pos, latchVel := v.vel, latchCur := v.cur, stamp := some v.stamp, missing := false }

/-! ### The turn of one axis (R240 to R243) -/

/-- A missing measurement is an event of the trace trigger (R263). -/
def missNoted (s : State) : State := { s with srv := { s.srv with missNow := true } }

/-- What a good measurement leaves: its latch, and the count of the scaling unit's events. -/
theorem axisCutoff_good {n t : Nat} {first : Bool} {v : Meas} {s : State} (h : axisMeas n t first s = some (some v)) :
    ∃ (a : Axis) (k : Nat) (b : Bool), SameLatch (latchTaken v (getAxis n s)) a ∧
      axisCutoff n t first s = countSatEvents k (setAxis n a
        (if b then setRegFld (Reg.SRV_AXISn_STAT n) 15 8 0 (setRegFld (Reg.SRV_AXISn_STAT n) 28 28 0 s)
          else setRegFld (Reg.SRV_AXISn_STAT n) 28 28 0 s)) := by
  simp only [axisCutoff, h]
  split
  · refine ⟨_, _, _, ?_, rfl⟩
    exact ⟨rfl, rfl, rfl, rfl, rfl⟩
  · refine ⟨_, 0, _, ?_, (if_pos rfl).symm⟩
    exact ⟨rfl, rfl, rfl, rfl, rfl⟩

/-- What a missing measurement leaves: the latch as it was, and where the axis is active one miss counted. -/
theorem axisCutoff_missing {n t : Nat} {first : Bool} {s : State} (h : axisMeas n t first s = some none) :
    ∃ (a : Axis) (b : Bool), SameLatch { getAxis n s with missing := true } a ∧ axisCutoff n t first s =
        if b then countMiss n (!first) (setAxis n a (missNoted (setRegFld (Reg.SRV_AXISn_STAT n) 28 28 1 s)))
        else setAxis n a (missNoted (setRegFld (Reg.SRV_AXISn_STAT n) 28 28 1 s)) := by
  refine ⟨{ getAxis n s with cutAt := t, missing := true, missedPeriod := if first then true else (getAxis n s).missedPeriod },
    srvRunning s && decide ((getAxis n s).mode ≠ 0), ⟨rfl, rfl, rfl, rfl, rfl⟩, ?_⟩
  simp only [axisCutoff, h, Option.isNone_none, Bool.toNat_true]
  rfl

section
variable {n : Nat} (hn : n < 64)
include hn

theorem touched_enterFault (late : Bool) (s : State) : Touched (· = n) s (enterFault n late s) := by
  unfold enterFault
  extract_lets quiet a b u
  refine .trans ?_ (touched_raise _ _ _ _ _)
  refine .trans ?_ (.withSrv rfl rfl rfl rfl)
  exact .trans (touched_setStat hn _ _ _ s) (.trans (.setAxis _ _ _) (touched_showRamp hn _))

theorem touched_countMiss (late : Bool) (s : State) : Touched (· = n) s (countMiss n late s) := by
  unfold countMiss
  extract_lets run u
  have hu : Touched (· = n) s u :=
    .trans (touched_setStat hn _ _ _ s) (.setReg (o := Reg.SRV_MISS_COUNT) (.inl (by decide)) _ _)
  exact .ite (hu.trans (touched_enterFault hn late u)) hu

theorem touched_axisCutoff (t : Nat) (first : Bool) (s : State) : Touched (· = n) s (axisCutoff n t first s) := by
  rcases h : axisMeas n t first s with _ | _ | v
  · simp only [axisCutoff, h]
    exact .refl s
  · obtain ⟨a, b, -, heq⟩ := axisCutoff_missing h
    have hnoted : Touched (· = n) s (missNoted (setRegFld (Reg.SRV_AXISn_STAT n) 28 28 1 s)) :=
      (touched_setStat hn 28 28 1 s).trans (.withSrv rfl rfl rfl rfl)
    have hset := hnoted.trans (.setAxis n a _)
    rw [heq]
    exact .ite (hset.trans (touched_countMiss hn _ _)) hset
  · obtain ⟨a, k, b, -, heq⟩ := axisCutoff_good h
    rw [heq]
    refine .trans ?_ (.trans (.setAxis _ _ _) (touched_countSatEvents _ _))
    have hshown := touched_setStat hn 28 28 0 s
    exact .ite (hshown.trans (touched_setStat hn _ _ _ _)) hshown

end

/-! ### What a cutoff leaves of an axis (R240) -/

/-- The latch of an axis, and its bit 28, are as they were. -/
structure LatchKept (n : Nat) (s t : State) : Prop where
  latch : SameLatch (getAxis n s) (getAxis n t)
  shown : regBit (Reg.SRV_AXISn_STAT n) 28 t = regBit (Reg.SRV_AXISn_STAT n) 28 s

section
variable {n : Nat} {s t u : State}

theorem LatchKept.refl (s : State) : LatchKept n s s := ⟨sameLatch_refl _, rfl⟩

theorem LatchKept.trans (h1 : LatchKept n s t) (h2 : LatchKept n t u) : LatchKept n s u :=
  ⟨h1.latch.trans h2.latch, h2.shown.trans h1.shown⟩

theorem LatchKept.ite {c : Prop} [Decidable c] {a b : State} (ha : LatchKept n s a) (hb : LatchKept n s b) :
    LatchKept n s (if c then a else b) := by
  split
  · exact ha
  · exact hb

theorem LatchKept.setStat (s : State) {hi lo : Nat} (v : Nat) (h : 28 < lo ∨ hi < 28) :
    LatchKept n s (setRegFld (Reg.SRV_AXISn_STAT n) hi lo v s) :=
  ⟨sameLatch_refl _, regBit_setRegFld_apart _ _ _ _ _ s h⟩

theorem LatchKept.setAxis {a : Axis} (h : SameLatch (getAxis n s) a) : LatchKept n s (setAxis n a s) :=
  ⟨by rw [getAxis_setAxis_same]; exact h, rfl⟩

theorem LatchKept.of_touched (hn : n < 64) (h : Touched (· ≠ n) s t) : LatchKept n s t := by
  refine ⟨?_, ?_⟩
  · rw [h.axis]
    exact sameLatch_refl _
  · rw [regBit, h.axisRegs hn (.inl (.inl rfl)), regBit]

/-- Arming ramps is not latching. -/
theorem LatchKept.of_latched (hn : n < 64) (h : Latched s t) : LatchKept n s t := by
  obtain ⟨b, hb⟩ := h.axes n
  refine ⟨?_, ?_⟩
  · rw [hb]
    exact ⟨rfl, rfl, rfl, rfl, rfl⟩
  · rw [regBit, h.regs _ (axisReg_not_latchReg hn (.inl rfl)), regBit]

theorem latchKept_enterFault (hn : n < 64) (late : Bool) (s : State) : LatchKept n s (enterFault n late s) := by
  have hlost : Reg.SRV_AXISn_STAT n ≠ Reg.MGT_EVT_LOST := by simp only [Reg.SRV_AXISn_STAT, Reg.MGT_EVT_LOST]; omega
  unfold enterFault
  extract_lets quiet a b u
  have hb : SameLatch (getAxis n s) b := by
    cases late <;> exact ⟨rfl, rfl, rfl, rfl, rfl⟩
  clear_value b
  have hfault := LatchKept.setStat (n := n) s (hi := 31) (lo := 31) 1 (.inl (by decide))
  have hu : LatchKept n s u :=
    hfault.trans (.trans (.setAxis hb) (.setStat (hi := 30) (lo := 30) _ _ (.inl (by decide))))
  clear_value u
  refine hu.trans ⟨?_, ?_⟩
  · rw [getAxis_raise]
    exact sameLatch_refl _
  · rw [regBit, getReg_raise _ _ _ _ _ _ hlost]
    rfl

theorem latchKept_countMiss (hn : n < 64) (late : Bool) (s : State) : LatchKept n s (countMiss n late s) := by
  have hcount : Reg.SRV_AXISn_STAT n ≠ Reg.SRV_MISS_COUNT := by simp only [Reg.SRV_AXISn_STAT, Reg.SRV_MISS_COUNT]; omega
  unfold countMiss
  extract_lets run u
  have hu : LatchKept n s u :=
    (LatchKept.setStat s _ (.inr (by decide))).trans ⟨sameLatch_refl _, regBit_setReg_other _ _ _ hcount⟩
  exact .ite (hu.trans (latchKept_enterFault hn late u)) hu

end

/-- What a cutoff at which an axis has the measurement `m` leaves of the axis that was `a`: it takes a good one, and keeps its
values at a missing one (R240). -/
structure CutoffLeft (n : Nat) (m : Option Meas) (a : Axis) (t : State) : Prop where
  good : ∀ v, m = some v → SameLatch (latchTaken v a) (getAxis n t) ∧ regBit (Reg.SRV_AXISn_STAT n) 28 t = false
  missing : m = none → SameLatch { a with missing := true } (getAxis n t) ∧ regBit (Reg.SRV_AXISn_STAT n) 28 t = true

theorem CutoffLeft.kept {n : Nat} {m : Option Meas} {a : Axis} {s t : State} (h : CutoffLeft n m a s) (hk : LatchKept n s t) :
    CutoffLeft n m a t :=
  ⟨fun v hv => ⟨(h.good v hv).1.trans hk.latch, hk.shown.trans (h.good v hv).2⟩,
    fun hm => ⟨(h.missing hm).1.trans hk.latch, hk.shown.trans (h.missing hm).2⟩⟩

theorem axisCutoff_left {n : Nat} (hn : n < 64) {t : Nat} {first : Bool} {m : Option Meas} {s : State}
    (h : axisMeas n t first s = some m) : CutoffLeft n m (getAxis n s) (axisCutoff n t first s) := by
  have hshown : ∀ v : Nat, regBit (Reg.SRV_AXISn_STAT n) 28 (setRegFld (Reg.SRV_AXISn_STAT n) 28 28 v s) = v.testBit 0 := fun v =>
    regBit_setRegFld_inside _ _ _ _ _ s (by decide) le_rfl le_rfl
  cases m with
  | some v =>
    obtain ⟨a, k, b, hlatch, heq⟩ := axisCutoff_good h
    refine ⟨fun w hw => ?_, nofun⟩
    obtain rfl := Option.some.inj hw
    have hmiss : LatchKept n (setRegFld (Reg.SRV_AXISn_STAT n) 28 28 0 s)
        (if b then setRegFld (Reg.SRV_AXISn_STAT n) 15 8 0 (setRegFld (Reg.SRV_AXISn_STAT n) 28 28 0 s)
          else setRegFld (Reg.SRV_AXISn_STAT n) 28 28 0 s) := .ite (.setStat _ _ (.inr (by decide))) (.refl _)
    rw [heq]
    refine ⟨?_, ?_⟩
    · rw [getAxis_countSatEvents, getAxis_setAxis_same]
      exact hlatch
    · rw [regBit_countSatEvents (by simp only [Reg.SRV_AXISn_STAT, Reg.SRV_SAT_COUNT]; omega), regBit_setAxis, hmiss.shown, hshown]
      rfl
  | none =>
    obtain ⟨a, b, hlatch, heq⟩ := axisCutoff_missing h
    refine ⟨nofun, fun _ => ?_⟩
    have hkept : LatchKept n (setAxis n a (missNoted (setRegFld (Reg.SRV_AXISn_STAT n) 28 28 1 s))) (axisCutoff n t first s) := by
      rw [heq]
      exact .ite (latchKept_countMiss hn _ _) (.refl _)
    refine ⟨?_, hkept.shown.trans (hshown 1)⟩
    refine .trans ?_ hkept.latch
    rw [getAxis_setAxis_same]
    exact hlatch

/-! ### A cutoff (R237) -/

theorem touched_countNoUp {A : Nat → Prop} (t : Nat) {l : Nat} (hl : l < 16) (s : State) : Touched A s (countNoUp t l s) := by
  unfold countNoUp
  refine .ite (.setReg (o := Reg.SRV_LANEl_NO_UP l) (.inl (.inr (.inl ?_))) _ s) (.refl s)
  simp only [Reg.SRV_LANEl_NO_UP]
  omega

/-- Whether a cutoff at `t` lies in the first slot of the present period. -/
def firstSlot (t : Nat) (s : State) : Bool := decide (s.srv.start ≤ t) && decide (t < s.srv.start + usRoot)

/-- A cutoff counts the lanes without an up frame, then takes each axis's measurement, and reports the axes that enter fault. -/
theorem cutoff_runs (s : State) : ∃ u, Touched (fun _ => False) (runTo (cutoffInstant s) s) u ∧
    Latched ((List.range 64).foldl (fun v n => axisCutoff n (cutoffInstant s) (firstSlot (cutoffInstant s) s) v) u) (cutoff s) := by
  unfold cutoff
  extract_lets t r first was servo u0 u v new
  have hu0 : Touched (fun _ => False) r u0 := .withSrv rfl rfl rfl rfl
  have hu : Touched (fun _ => False) u0 u := .foldl (fun l hl s => touched_countNoUp t (List.mem_range.mp hl) s) u0
  refine ⟨u, hu0.trans hu, ?_⟩
  change Latched v _
  split
  · exact .refl v
  · exact latched_setLatches _ v

theorem memKept_of_latched {s t : State} (h : Latched s t) : memKept s t := h.toEngineOnly.memKept (by decide)

/-- What the next cutoff leaves: its instant, the memories, and each axis's latch. -/
theorem cutoff_leaves (s : State) :
    now (cutoff s) = cutoffInstant s ∧ memKept s (cutoff s) ∧
      ∀ n < 64, ∀ m, axisMeas n (cutoffInstant s) (firstSlot (cutoffInstant s) s) s = some m →
        CutoffLeft n m (getAxis n s) (cutoff s) := by
  obtain ⟨u, hu, hlatch⟩ := cutoff_runs s
  obtain ⟨hloop, hturn⟩ := axisLoop
    (f := fun n v => axisCutoff n (cutoffInstant s) (firstSlot (cutoffInstant s) s) v) (fun n hn v => touched_axisCutoff hn _ _ v) u
  refine ⟨?_, ?_, fun n hn m hm => ?_⟩
  · calc now (cutoff s) = now (runTo (cutoffInstant s) s) := by rw [hlatch.now, hloop.now, hu.now]
      _ = cutoffInstant s := by rw [now_runTo, max_eq_right (le_cutoffInstant s).1]
  · exact memKept_trans (memKept_runTo _ s) (memKept_trans hu.memKept (memKept_trans hloop.memKept (memKept_of_latched hlatch)))
  · obtain ⟨v, hv, hrest⟩ := hturn n hn
    have hfound : Touched (· ≠ n) (runTo (cutoffInstant s) s) v := (hu.mono fun _ => False.elim).trans hv
    have hmeas : axisMeas n (cutoffInstant s) (firstSlot (cutoffInstant s) s) v = some m :=
      (axisMeas_congr hfound _ _).trans hm
    have haxis : getAxis n v = getAxis n s := hfound.axis
    rw [← haxis]
    exact ((axisCutoff_left hn hmeas).kept (.of_touched hn hrest)).kept (.of_latched hn hlatch)

end Sys2Proof.Machine
end

section
/-! The computation of a servo period, the checker's decisions and the release of commands (R242, R243, R247 to R260, R385 to
R387, R393, R401): what each leaves of an axis, whichever axes have had their turns. -/

namespace Sys2Proof.Machine

open Sys2Proof.Config

/-! ### What an axis's step rests on: its active set and whether it is HELD (R247 to R256) -/

section
variable {s u : State} (hactive : u.srv.active = s.srv.active)
include hactive

theorem activeReg_congr (o : Nat) : activeReg o u = activeReg o s := by simp only [activeReg, hactive]

theorem stageCfg_congr (n k : Nat) : stageCfg n k u = stageCfg n k s := by
  simp only [stageCfg, activeReg_congr hactive]

theorem runStage_congr (n wide k : Nat) (e : Int) (c : Cascade) : runStage n wide k e u c = runStage n wide k e s c := by
  simp only [runStage, stageCfg_congr hactive]

theorem cascade_congr (n wide mode : Nat) (refs : List Int) (stages : List Stage) :
    cascade n wide mode refs stages u = cascade n wide mode refs stages s := by
  simp only [cascade, activeReg_congr hactive, runStage_congr hactive]

theorem localSource_congr (n : Nat) : localSource n u = localSource n s := by simp only [localSource, activeReg_congr hactive]

theorem targetsOf_congr (n : Nat) (a : Axis) : targetsOf n a u = targetsOf n a s := by
  simp only [targetsOf, localSource_congr hactive, activeReg_congr hactive]

theorem rampStep_congr (n mode : Nat) (t start : Int) (a : Axis) : rampStep n mode t start a u = rampStep n mode t start a s := by
  simp only [rampStep, activeReg_congr hactive]

theorem stepAxis_congr {n : Nat} (hstat : getReg (Reg.SRV_AXISn_STAT n) u = getReg (Reg.SRV_AXISn_STAT n) s) (a : Axis) :
    stepAxis n a u = stepAxis n a s := by
  have hext : extrapolates n u = extrapolates n s := by
    simp only [extrapolates, regBit, hstat, localSource_congr hactive, activeReg_congr hactive]
  have hpos : nextRPos n a u = nextRPos n a s := by
    simp only [nextRPos, posRef, hext, targetsOf_congr hactive, activeReg_congr hactive]
  simp only [stepAxis, hpos, targetsOf_congr hactive, localSource_congr hactive, rampStep_congr hactive, cascade_congr hactive,
    activeReg_congr hactive]

end

/-! ### The computation of an axis (R242, R243, R257) -/

/-- Whether an axis that runs in this period is kept at command 0 (R243, R250, R257). -/
def HeldQuiet (n : Nat) (s : State) : Prop :=
  (getAxis n s).mode = 0 ∨ regBit (Reg.SRV_AXISn_STAT n) 31 s = true ∨ (getAxis n s).ten = false

/-- The state before the command of an axis is shown. -/
def axisComputed (n : Nat) (s : State) : State :=
  let a := getAxis n s
  if a.mode = 0 || regBit (Reg.SRV_AXISn_STAT n) 31 s then
    let r := if a.ten && canCompute n a s then idleQuantities n (quietAxis a) s else (quietAxis a, 0)
    countSatEvents r.2 (setAxis n r.1 s)
  else if !a.ten then
    showRamp n (setAxis n { quietAxis a with armed := rampEn n s, ramping := false, rampLast := false } s)
  else if canCompute n a s then
    let r := stepAxis n a s
    countSatEvents r.2 (showRamp n (setAxis n r.1 s))
  else s

theorem computeAxis_eq {n : Nat} {s : State} (hrun : (getAxis n s).runsNow = true) : computeAxis n s =
    setReg (Reg.SRV_AXISn_CMD n) (word (BitVec.ofInt 16 (getAxis n (axisComputed n s)).cmd).toNat)
      (setAxis n { getAxis n (axisComputed n s) with runs := (getAxis n (axisComputed n s)).runs + 1 } (axisComputed n s)) := by
  simp only [computeAxis, hrun, Bool.not_true, Bool.false_eq_true, if_false]
  rfl

theorem computeAxis_rests {n : Nat} {s : State} (hrun : (getAxis n s).runsNow = false) : computeAxis n s = s := by
  simp only [computeAxis, hrun, Bool.not_false, if_true]

/-- An axis that is OFF, in fault or without torque enable has command 0 and histories 0. -/
theorem axisComputed_quiet {n : Nat} {s : State} (h : HeldQuiet n s) :
    (getAxis n (axisComputed n s)).cmd = 0 ∧ (getAxis n (axisComputed n s)).stages = Stage.three := by
  unfold axisComputed
  extract_lets a r c
  split
  · rw [getAxis_countSatEvents, getAxis_setAxis_same]
    unfold r
    split <;> exact ⟨rfl, rfl⟩
  · next hon =>
    have hten : a.ten = false := by
      rcases h with h | h | h
      · exact absurd (by simp [a, h]) hon
      · exact absurd (by simp [h]) hon
      · exact h
    rw [if_pos (by simp [hten]), getAxis_showRamp, getAxis_setAxis_same]
    exact ⟨rfl, rfl⟩

section
variable {n : Nat} {s : State} (h : ¬ HeldQuiet n s)
include h

theorem axisComputed_active : axisComputed n s = if canCompute n (getAxis n s) s then
    countSatEvents (stepAxis n (getAxis n s) s).2 (showRamp n (setAxis n (stepAxis n (getAxis n s) s).1 s)) else s := by
  simp only [HeldQuiet, not_or, Bool.not_eq_true, Bool.not_eq_false] at h
  obtain ⟨hmode, hfault, hten⟩ := h
  simp only [axisComputed, hmode, hfault, hten, decide_false, Bool.or_self, Bool.false_eq_true, if_false, Bool.not_true]

/-- An axis without a measurement repeats its command. -/
theorem axisComputed_missed (hm : (getAxis n s).missedPeriod = true) : axisComputed n s = s := by
  simp only [axisComputed_active h, canCompute, hm, Bool.not_true, Bool.false_and, Bool.false_eq_true, if_false]

theorem axisComputed_steps (hm : (getAxis n s).missedPeriod = false) (ht : (getAxis n s).hasTgt = true) :
    getAxis n (axisComputed n s) = (stepAxis n (getAxis n s) s).1 := by
  have hcan : canCompute n (getAxis n s) s = true := by simp only [canCompute, hm, ht, Bool.not_false, Bool.or_true, Bool.and_self]
  rw [axisComputed_active h, if_pos hcan, getAxis_countSatEvents, getAxis_showRamp, getAxis_setAxis_same]

end

theorem touched_axisComputed {n : Nat} (hn : n < 64) (s : State) : Touched (· = n) s (axisComputed n s) := by
  unfold axisComputed
  refine .ite ?_ (.ite ?_ (.ite ?_ (.refl s)))
  · exact .trans (.setAxis _ _ s) (touched_countSatEvents _ _)
  · exact .trans (.setAxis _ _ s) (touched_showRamp hn _)
  · exact .trans (.setAxis _ _ s) (.trans (touched_showRamp hn _) (touched_countSatEvents _ _))

theorem touched_computeAxis {n : Nat} (hn : n < 64) (s : State) : Touched (· = n) s (computeAxis n s) := by
  rcases hrun : (getAxis n s).runsNow with _ | _
  · rw [computeAxis_rests hrun]
    exact .refl s
  · rw [computeAxis_eq hrun]
    exact (touched_axisComputed hn s).trans (.trans (.setAxis _ _ _) (.setReg (touchedReg_own hn (.inr (.inl rfl))) _ _))

/-- What the computation of a period leaves of an axis that runs in it. -/
structure ComputeLeft (n : Nat) (s t : State) : Prop where
  quiet : HeldQuiet n s → (getAxis n t).cmd = 0 ∧ (getAxis n t).stages = Stage.three
  repeats : ¬ HeldQuiet n s → (getAxis n s).missedPeriod = true →
    (getAxis n t).cmd = (getAxis n s).cmd ∧ (getAxis n t).stages = (getAxis n s).stages ∧ (getAxis n t).rPos = (getAxis n s).rPos
  steps : ¬ HeldQuiet n s → (getAxis n s).missedPeriod = false → (getAxis n s).hasTgt = true →
    (getAxis n t).cmd = (stepAxis n (getAxis n s) s).1.cmd ∧ (getAxis n t).stages = (stepAxis n (getAxis n s) s).1.stages
  shown : getReg (Reg.SRV_AXISn_CMD n) t = word (BitVec.ofInt 16 (getAxis n t).cmd).toNat

theorem computeAxis_left {n : Nat} {s : State} (hrun : (getAxis n s).runsNow = true) : ComputeLeft n s (computeAxis n s) := by
  have haxis : getAxis n (computeAxis n s) =
      { getAxis n (axisComputed n s) with runs := (getAxis n (axisComputed n s)).runs + 1 } := by
    rw [computeAxis_eq hrun, getAxis_setReg, getAxis_setAxis_same]
  refine ⟨fun hq => ?_, fun hq hm => ?_, fun hq hm ht => ?_, ?_⟩
  · rw [haxis]
    exact axisComputed_quiet hq
  · rw [haxis, axisComputed_missed hq hm]
    exact ⟨rfl, rfl, rfl⟩
  · rw [haxis, axisComputed_steps hq hm ht]
    exact ⟨rfl, rfl⟩
  · rw [haxis, computeAxis_eq hrun]
    exact getReg_setReg_same _ _ _

/-- The turns of other axes change nothing of it. -/
theorem ComputeLeft.among {n : Nat} (hn : n < 64) {k : Nat} {s u v t : State} (h : ComputeLeft n u v)
    (hu : Touched (· ≠ n) (runTo k s) u) (ht : Touched (· ≠ n) v t) : ComputeLeft n s t := by
  have haxis : getAxis n u = getAxis n s := hu.axis
  have hactive : u.srv.active = s.srv.active := hu.active
  have hstat : getReg (Reg.SRV_AXISn_STAT n) u = getReg (Reg.SRV_AXISn_STAT n) s := hu.axisRegs hn (.inl (.inl rfl))
  have hcmd : getReg (Reg.SRV_AXISn_CMD n) t = getReg (Reg.SRV_AXISn_CMD n) v := ht.axisRegs hn (.inl (.inr (.inl rfl)))
  have hquiet : HeldQuiet n u ↔ HeldQuiet n s := by simp only [HeldQuiet, haxis, regBit, hstat]
  obtain ⟨quiet, repeats, steps, shown⟩ := h
  simp only [hquiet, haxis, stepAxis_congr hactive hstat, ← ht.axis, ← hcmd] at quiet repeats steps shown
  exact ⟨quiet, repeats, steps, shown⟩

/-- What SERVO_COMPUTE leaves in a period of a running engine. -/
theorem servoCompute_leaves {s : State} (hrun : srvRunning s = true) :
    now (servoCompute s) = max (now s) (s.srv.start + 464 * scRoot) ∧ memKept s (servoCompute s) ∧
      ∀ n < 64, (getAxis n s).runsNow = true → ComputeLeft n s (servoCompute s) := by
  obtain ⟨hloop, hturn⟩ := axisLoop (f := computeAxis) (fun n hn s => touched_computeAxis hn s)
    (runTo (s.srv.start + 464 * scRoot) s)
  rw [servoCompute, if_pos hrun]
  refine ⟨hloop.now.trans (now_runTo _ s), memKept_trans (memKept_runTo _ s) hloop.memKept, fun n hn hruns => ?_⟩
  obtain ⟨u, hu, hrest⟩ := hturn n hn
  have hruns' : (getAxis n u).runsNow = true := by rw [hu.axis]; exact hruns
  exact (computeAxis_left hruns').among hn hu hrest

/-! ### The checker's decisions (R385 to R387, R393) -/

theorem checkAxis_congr {s u : State} (hactive : u.srv.active = s.srv.active) {n : Nat}
    (htol : getReg (Reg.SAF_AXn_TOL n) u = getReg (Reg.SAF_AXn_TOL n) s) (a : Axis) : checkAxis n a u = checkAxis n a s := by
  simp only [checkAxis, regFld, htol, cascade_congr hactive]

theorem checkAxis_runsNow (n : Nat) (a : Axis) (s : State) : (checkAxis n a s).runsNow = a.runsNow := by
  unfold checkAxis
  extract_lets
  split <;> rfl

/-- The count of consecutive disagreements of an axis after one more. -/
def disagreeRun (n : Nat) (s : State) : Nat := min 15 (regFld (Reg.SAF_AXn_STAT n) 3 0 s + 1)

theorem axisVerdict_eq {n : Nat} {s : State} (hrun : (getAxis n s).runsNow = true) : axisVerdict n s =
    if (checkAxis n (getAxis n s) s).agree then setReg (Reg.SAF_AXn_STAT n) 0 (setAxis n (checkAxis n (getAxis n s) s) s)
    else bumpReg Reg.SAF_SRV_DISAGREE_COUNT 1
      (setReg (Reg.SAF_AXn_STAT n) (word (2 ^ 31 + disagreeRun n s)) (setAxis n (checkAxis n (getAxis n s) s) s)) := by
  simp only [axisVerdict, hrun, Bool.not_true, Bool.false_eq_true, if_false]
  rfl

theorem axisVerdict_rests {n : Nat} {s : State} (hrun : (getAxis n s).runsNow = false) : axisVerdict n s = s := by
  simp only [axisVerdict, hrun, Bool.not_false, if_true]

theorem touched_axisVerdict {n : Nat} (hn : n < 64) (s : State) : Touched (· = n) s (axisVerdict n s) := by
  rcases hrun : (getAxis n s).runsNow with _ | _
  · rw [axisVerdict_rests hrun]
    exact .refl s
  · rw [axisVerdict_eq hrun]
    have hset := Touched.setAxis n (checkAxis n (getAxis n s) s) s
    have hshown : ∀ v, Touched (· = n) s (setReg (Reg.SAF_AXn_STAT n) v (setAxis n (checkAxis n (getAxis n s) s) s)) := fun v =>
      hset.trans (.setReg (touchedReg_own hn (.inr (.inr rfl))) v _)
    exact .ite (hshown 0) ((hshown _).trans (.setReg (o := Reg.SAF_SRV_DISAGREE_COUNT) (.inl (by decide)) _ _))

/-- What the checker's decision on an axis leaves of it: what it decided, and how it shows. -/
structure VerdictLeft (n : Nat) (s t : State) : Prop where
  agree : (getAxis n t).agree = (checkAxis n (getAxis n s) s).agree
  agrees : (checkAxis n (getAxis n s) s).agree = true → getReg (Reg.SAF_AXn_STAT n) t = 0
  disagrees : (checkAxis n (getAxis n s) s).agree = false → getReg (Reg.SAF_AXn_STAT n) t = word (2 ^ 31 + disagreeRun n s)
  runsNow : (getAxis n t).runsNow = (getAxis n s).runsNow

theorem axisVerdict_left {n : Nat} (hn : n < 64) {s : State} (hrun : (getAxis n s).runsNow = true) :
    VerdictLeft n s (axisVerdict n s) := by
  have hcount : Reg.SAF_AXn_STAT n ≠ Reg.SAF_SRV_DISAGREE_COUNT := by
    simp only [Reg.SAF_AXn_STAT, Reg.SAF_SRV_DISAGREE_COUNT]
    omega
  have haxis : getAxis n (axisVerdict n s) = checkAxis n (getAxis n s) s := by
    rw [axisVerdict_eq hrun]
    split
    · rw [getAxis_setReg, getAxis_setAxis_same]
    · rw [bumpReg_eq, getAxis_setReg, getAxis_setReg, getAxis_setAxis_same]
  refine ⟨by rw [haxis], fun h => ?_, fun h => ?_, by rw [haxis, checkAxis_runsNow]⟩
  · rw [axisVerdict_eq hrun, if_pos h, getReg_setReg_same]
  · rw [axisVerdict_eq hrun, h, if_neg (by decide), bumpReg_eq, getReg_setReg_other _ _ hcount, getReg_setReg_same]

/-- The turns of other axes change nothing of it. -/
theorem VerdictLeft.among {n : Nat} (hn : n < 64) {k : Nat} {s u v t : State} (h : VerdictLeft n u v)
    (hu : Touched (· ≠ n) (runTo k s) u) (ht : Touched (· ≠ n) v t) : VerdictLeft n s t := by
  have haxis : getAxis n u = getAxis n s := hu.axis
  have hactive : u.srv.active = s.srv.active := hu.active
  have htol : getReg (Reg.SAF_AXn_TOL n) u = getReg (Reg.SAF_AXn_TOL n) s := hu.axisRegs hn (.inr rfl)
  have hstat : getReg (Reg.SAF_AXn_STAT n) u = getReg (Reg.SAF_AXn_STAT n) s := hu.axisRegs hn (.inl (.inr (.inr rfl)))
  have hshown : getReg (Reg.SAF_AXn_STAT n) t = getReg (Reg.SAF_AXn_STAT n) v := ht.axisRegs hn (.inl (.inr (.inr rfl)))
  have hcount : disagreeRun n u = disagreeRun n s := by simp only [disagreeRun, regFld, hstat]
  obtain ⟨agree, agrees, disagrees, runsNow⟩ := h
  simp only [haxis, checkAxis_congr hactive htol, hcount, ← ht.axis, ← hshown] at agree agrees disagrees runsNow
  exact ⟨agree, agrees, disagrees, runsNow⟩

/-- Latches leave the decision and what shows it. -/
theorem VerdictLeft.latched {n : Nat} (hn : n < 64) {s v t : State} (h : VerdictLeft n s v) (ht : Latched v t) :
    VerdictLeft n s t := by
  obtain ⟨b, haxis⟩ := ht.axes n
  have hshown : getReg (Reg.SAF_AXn_STAT n) t = getReg (Reg.SAF_AXn_STAT n) v :=
    ht.regs _ (axisReg_not_latchReg hn (.inr (.inr rfl)))
  refine ⟨?_, fun ha => hshown.trans (h.agrees ha), fun ha => hshown.trans (h.disagrees ha), ?_⟩
  · rw [haxis]
    exact h.agree
  · rw [haxis]
    exact h.runsNow

/-- A disagreement shows in bit 31, with the count. -/
theorem disagreeWord_shows (n : Nat) (s : State) :
    bit (word (2 ^ 31 + disagreeRun n s)) 31 = true ∧ fld (word (2 ^ 31 + disagreeRun n s)) 3 0 = disagreeRun n s := by
  have hall : ∀ r < 16, bit (word (2 ^ 31 + r)) 31 = true ∧ fld (word (2 ^ 31 + r)) 3 0 = r := by decide
  exact hall _ (by rw [disagreeRun]; omega)

/-- The latch bits that a check sets, each with the outputs it drops. -/
def checkLatches (run : Nat) (s : State) : List (Nat × BitVec 16) :=
  (if persistent s = [] then [] else [(Latch.servoCmp, tenMask (persistent s) s)]) ++
    (if srvPersist s ≤ run then [(Latch.servoProof, (0xFFFF : BitVec 16))] else [])

/-- The count of consecutive mismatches of the proof axis after a period (R393). -/
def proofRunAfter (pe pc : Bool) (s : State) : Nat := if pe && pc then 0 else s.srv.proofRun + 1

/-- The decisions of a period on every axis. -/
@[irreducible] def verdicts (s : State) : State :=
  (List.range 64).foldl (fun s n => axisVerdict n s) (runTo (s.srv.start + 880 * scRoot) s)

theorem verdicts_eq (s : State) : verdicts s =
    (List.range 64).foldl (fun s n => axisVerdict n s) (runTo (s.srv.start + 880 * scRoot) s) := by unfold verdicts; rfl

theorem verdicts_loop (s : State) : Touched (· < 64) (runTo (s.srv.start + 880 * scRoot) s) (verdicts s) ∧
    ∀ n < 64, ∃ u, Touched (· ≠ n) (runTo (s.srv.start + 880 * scRoot) s) u ∧ Touched (· ≠ n) (axisVerdict n u) (verdicts s) := by
  rw [verdicts_eq]
  exact axisLoop (fun n hn s => touched_axisVerdict hn s) _

/-- The state with the count of the proof axis. -/
def proofNoted (run : Nat) (s : State) : State := { s with srv := { s.srv with proofRun := run } }

/-- A check decides on each axis, counts the proof axis, and sets what has lasted. -/
theorem servoCheck_eq (pe pc : Bool) {s : State} (hrun : srvRunning s = true) :
    let run := proofRunAfter pe pc (verdicts s)
    let v := proofNoted run (verdicts s)
    servoCheck pe pc s = if checkLatches run v = [] then v else setLatches (checkLatches run v) v := by
  intro run v
  rw [servoCheck, if_pos hrun]
  extract_lets r u
  have hu : verdicts s = u := verdicts_eq s
  simp only [v, run, hu]
  clear_value u
  rfl

theorem now_proofNoted (run : Nat) (s : State) : now (proofNoted run s) = now s := rfl

theorem srvPersist_congr {A : Nat → Prop} {s t : State} (h : Touched A s t) : srvPersist t = srvPersist s := by
  simp only [srvPersist, regFld, h.settled (o := Reg.SAF_SRV_CFG) (by decide)]

/-- A bit that a check sets stands. -/
theorem servoCheck_latches (pe pc : Bool) {s : State} (hrun : srvRunning s = true) {b : Nat} (hb : b < 32)
    (hset : let run := proofRunAfter pe pc (verdicts s)
      b ∈ (checkLatches run (proofNoted run (verdicts s))).map (·.1)) :
    regBit Reg.SAF_LATCH b (servoCheck pe pc s) = true := by
  rw [servoCheck_eq pe pc hrun, if_neg (fun hnil => by simp [hnil] at hset)]
  exact regBit_setLatches hb hset _

/-- An axis whose disagreement has lasted is found. -/
theorem mem_persistent {n : Nat} (hn : n < 64) {s v : State} (hv : VerdictLeft n s v) (hruns : (getAxis n s).runsNow = true)
    (hbad : (checkAxis n (getAxis n s) s).agree = false) (hlast : srvPersist v ≤ disagreeRun n s) : n ∈ persistent v := by
  obtain ⟨hbit, hcount⟩ := disagreeWord_shows n s
  rw [← hv.disagrees hbad] at hbit hcount
  simp only [persistent, List.mem_filter, List.mem_range, hn, hv.runsNow, hruns, regBit, hbit, regFld, hcount, hlast,
    decide_true, Bool.and_self, and_self]

/-- What SERVO_CHECK leaves in a period of a running engine. -/
theorem servoCheck_leaves (pe pc : Bool) {s : State} (hrun : srvRunning s = true) :
    now (servoCheck pe pc s) = max (now s) (s.srv.start + 880 * scRoot) ∧ memKept s (servoCheck pe pc s) ∧
      (∀ n < 64, (getAxis n s).runsNow = true → VerdictLeft n s (servoCheck pe pc s) ∧
        ((checkAxis n (getAxis n s) s).agree = false → srvPersist s ≤ disagreeRun n s →
          regBit Reg.SAF_LATCH Latch.servoCmp (servoCheck pe pc s) = true)) ∧
      ((pe && pc) = false → srvPersist s ≤ s.srv.proofRun + 1 →
        regBit Reg.SAF_LATCH Latch.servoProof (servoCheck pe pc s) = true) := by
  obtain ⟨hloop, hturn⟩ := verdicts_loop s
  have hpersist : srvPersist (verdicts s) = srvPersist s := (srvPersist_congr hloop).trans rfl
  have hproof : (verdicts s).srv.proofRun = s.srv.proofRun := hloop.proofRun
  have hlatched : Latched (proofNoted (proofRunAfter pe pc (verdicts s)) (verdicts s)) (servoCheck pe pc s) := by
    rw [servoCheck_eq pe pc hrun]
    split
    · exact .refl _
    · exact latched_setLatches _ _
  refine ⟨?_, ?_, fun n hn hruns => ?_, fun hp hlast => ?_⟩
  · rw [hlatched.now, now_proofNoted, hloop.now, now_runTo]
  · exact memKept_trans (memKept_runTo _ s) (memKept_trans hloop.memKept
      (memKept_trans (memKept_withSrv _ _) (memKept_of_latched hlatched)))
  · obtain ⟨u, hu, hrest⟩ := hturn n hn
    have hruns' : (getAxis n u).runsNow = true := by rw [hu.axis]; exact hruns
    have hleft : VerdictLeft n s (verdicts s) := (axisVerdict_left hn hruns').among hn hu hrest
    have hv : VerdictLeft n s (proofNoted (proofRunAfter pe pc (verdicts s)) (verdicts s)) :=
      ⟨hleft.agree, hleft.agrees, hleft.disagrees, hleft.runsNow⟩
    refine ⟨hv.latched hn hlatched, fun hbad hlast => servoCheck_latches pe pc hrun (by decide) ?_⟩
    have hmem := mem_persistent hn hv hruns hbad (hpersist.trans_le hlast)
    simp only [checkLatches, List.ne_nil_of_mem hmem, if_false, List.map_append, List.map_cons, List.map_nil, List.cons_append,
      List.mem_cons, true_or]
  · refine servoCheck_latches pe pc hrun (by decide) ?_
    have hdue : srvPersist (proofNoted (proofRunAfter pe pc (verdicts s)) (verdicts s)) ≤ proofRunAfter pe pc (verdicts s) := by
      rw [proofRunAfter, hp, if_neg (by decide), hproof]
      exact hpersist.trans_le hlast
    simp only [checkLatches, hdue, if_true, List.map_append, List.map_cons, List.map_nil, List.mem_append, List.mem_cons,
      true_or, or_true]

/-! ### The release of commands (R387, R401) -/

/-- The axis with its command of this period released, or the last one repeated. -/
def releasedAxis (n : Nat) (s : State) : Axis :=
  let a := getAxis n s
  let a := if a.agree && regBit Reg.SAF_CTL 31 s then { a with lastRel := a.cmd } else a
  { a with buf := a.lastRel }

theorem meas_offerCan (c d : Nat) (s : State) : (getCan d (offerCan c s)).meas = (getCan d s).meas := by
  have hset : ∀ x : Can, x.meas = (getCan c s).meas → (getCan d (setCan c x s)).meas = (getCan d s).meas := fun x hx => by
    by_cases hd : d = c
    · subst hd
      rw [getCan_setCan_same, hx]
    · rw [getCan_setCan_other _ _ hd]
  unfold offerCan
  dsimp only
  split
  · rfl
  · split
    · rfl
    all_goals exact hset _ rfl

theorem touched_offerCan {A : Nat → Prop} (c : Nat) (s : State) : Touched A s (offerCan c s) := by
  have hframe := offerCan_frame c s
  have hsrv : (offerCan c s).srv = s.srv := (congrArg State.srv hframe :)
  have hregs : (offerCan c s).regs = s.regs := (congrArg State.regs hframe :)
  exact ⟨⟨(congrArg (reportFrom s) hframe :), by rw [hsrv], fun _ _ => by simp only [getReg, hregs]⟩, by rw [hsrv], by rw [hsrv],
    fun _ _ => by simp only [getAxis, hsrv], fun d => meas_offerCan c d s⟩

/-- The queue of command frames is no measurement. -/
theorem touched_setAxisTx {A : Nat → Prop} (c : Nat) (q : Tab (Option CanFrame)) (s : State) :
    Touched A s (setCan c { getCan c s with axisTx := q } s) := by
  refine ⟨⟨rfl, rfl, fun _ _ => rfl⟩, rfl, rfl, fun _ _ => rfl, fun d => ?_⟩
  by_cases hd : d = c
  · subst hd
    rw [getCan_setCan_same]
  · rw [getCan_setCan_other _ _ hd]

theorem touched_queueCommand {A : Nat → Prop} {c : Nat} (hc : c < 4) (k : Nat) (f : CanFrame) (s : State) :
    Touched A s (queueCommand c k f s) := by
  unfold queueCommand
  refine .ite (.refl s) ?_
  extract_lets x waiting u
  have hu : Touched A s u := by
    refine .ite (.setReg (o := Reg.CAN_Cc_REPLACED c) (.inl (.inr (.inr ?_))) _ s) (.refl s)
    simp only [Reg.CAN_Cc_REPLACED]
    omega
  have hx : getCan c u = x := by
    unfold u
    split <;> rfl
  rw [← hx]
  exact hu.trans (.trans (touched_setAxisTx c _ u) (touched_offerCan c _))

/-- A release gives the axis its command, and a command frame to the controller of a CAN FD axis (R298). -/
theorem releaseAxis_eq {n : Nat} {s : State} (hrun : (getAxis n s).runsNow = true) :
    releaseAxis n s = setAxis n (releasedAxis n s) s ∨
      ∃ c < 4, ∃ k f, releaseAxis n s = queueCommand c k f (setAxis n (releasedAxis n s) s) := by
  unfold releaseAxis
  extract_lets a a' u b en c k
  rw [if_neg (by simp [a, hrun])]
  have hu : u = setAxis n (releasedAxis n s) s := rfl
  split
  · split
    · exact .inr ⟨c, fld_lt b 25 24, k, canCommand c k a' en u, by rw [hu]⟩
    · exact .inl hu
  · exact .inl hu

theorem releaseAxis_rests {n : Nat} {s : State} (hrun : (getAxis n s).runsNow = false) : releaseAxis n s = s := by
  simp only [releaseAxis, hrun, Bool.not_false, if_true]

theorem touched_releaseAxis (n : Nat) (s : State) : Touched (· = n) s (releaseAxis n s) := by
  rcases hrun : (getAxis n s).runsNow with _ | _
  · rw [releaseAxis_rests hrun]
    exact .refl s
  · rcases releaseAxis_eq hrun with h | ⟨c, hc, k, f, h⟩ <;> rw [h]
    · exact .setAxis n _ s
    · exact .trans (.setAxis n _ s) (touched_queueCommand hc k f _)

theorem getAxis_releaseAxis {n : Nat} {s : State} (hrun : (getAxis n s).runsNow = true) :
    getAxis n (releaseAxis n s) = releasedAxis n s := by
  rcases releaseAxis_eq hrun with h | ⟨c, hc, k, f, h⟩ <;> rw [h]
  · rw [getAxis_setAxis_same]
  · rw [(touched_queueCommand (A := fun _ => False) hc k f _).axes n id, getAxis_setAxis_same]

/-- What COMMAND_RELEASE leaves in a period of a running engine. -/
theorem commandRelease_leaves {s : State} (hrun : srvRunning s = true) :
    now (commandRelease s) = max (now s) (s.srv.start + 896 * scRoot) ∧ memKept s (commandRelease s) ∧
      ∀ n < 64, (getAxis n s).runsNow = true → getAxis n (commandRelease s) = releasedAxis n s := by
  obtain ⟨hloop, hturn⟩ := axisLoop (f := releaseAxis) (fun n _ s => touched_releaseAxis n s)
    (runTo (s.srv.start + 896 * scRoot) s)
  rw [commandRelease, if_pos hrun]
  refine ⟨hloop.now.trans (now_runTo _ s), memKept_trans (memKept_runTo _ s) hloop.memKept, fun n hn hruns => ?_⟩
  obtain ⟨u, hu, hrest⟩ := hturn n hn
  have haxis : getAxis n u = getAxis n s := hu.axis
  have hctl : getReg Reg.SAF_CTL u = getReg Reg.SAF_CTL s := hu.settled (by decide)
  rw [hrest.axis, getAxis_releaseAxis (haxis ▸ hruns)]
  unfold releasedAxis regBit
  rw [haxis, hctl]

end Sys2Proof.Machine
end

section
/-! Period starts of the servo engine (R15, R16, R244 to R247, R254, R258, R259, R265, R344): their grid, the sets that take
effect, the engine's start and stop, and the record that is taken; and the settlement of O46. -/

namespace Sys2Proof.Machine

open Sys2Proof.Config

/-! ### The grid (R15, R16, R344) -/

/-- The next period start is not before now, and after the present one. -/
theorem le_nextStart {s : State} (hp : 1 ≤ s.day.periodUs) : now s ≤ nextStart s ∧ s.srv.start < nextStart s := by
  have hpos : 0 < s.day.periodUs * usRoot := Nat.mul_pos hp (by decide)
  have hle : max (now s) (s.srv.start + 1) ≤ nextStart s := le_dayAt_periodsUpTo _ hpos s
  omega

/-! ### What a period start may write -/

/-- The registers of the axes. -/
abbrev axesReg (o : Nat) : Prop := 0x601000 ≤ o ∧ o < 0x605000

theorem axesReg_ctl {n : Nat} (hn : n < 64) : axesReg (Reg.SRV_AXISn_CTL n) := by
  simp only [axesReg, Reg.SRV_AXISn_CTL]
  omega

theorem axesReg_stat {n : Nat} (hn : n < 64) : axesReg (Reg.SRV_AXISn_STAT n) := by
  simp only [axesReg, Reg.SRV_AXISn_STAT]
  omega

theorem engineOnly_withSrv {P : Nat → Prop} {v : Servo} {s : State} (hstart : v.start = s.srv.start) :
    EngineOnly P s { s with srv := v } := ⟨rfl, hstart, fun _ _ => rfl⟩

/-- The engine runs on, or not, where SRV_STAT is left alone. -/
theorem EngineOnly.running {P : Nat → Prop} {s t : State} (h : EngineOnly P s t) (hstat : ¬ P Reg.SRV_STAT) :
    srvRunning t = srvRunning s := congrArg (bit · 31) (h.regs _ hstat)

section
variable {n : Nat} (hn : n < 64)
include hn

theorem engineOnly_setStat (hi lo v : Nat) (s : State) :
    EngineOnly axesReg s (setRegFld (Reg.SRV_AXISn_STAT n) hi lo v s) := .setReg (axesReg_stat hn) _ s

theorem engineOnly_showRamp (a : Axis) (s : State) : EngineOnly axesReg s (showRamp n (setAxis n a s)) :=
  .trans (.setAxis n a s) (engineOnly_setStat hn _ _ _ _)

theorem engineOnly_leaveOff (s : State) : EngineOnly axesReg s (leaveOff n s) := engineOnly_showRamp hn _ s

/-- A set takes effect, or is refused, in the axis's registers and the engine alone. -/
theorem engineOnly_takeSet (s : State) : EngineOnly axesReg s (takeSet n s) := by
  unfold takeSet
  extract_lets u stat old v servo w mode
  have hu : EngineOnly axesReg s u := .setReg (axesReg_ctl hn) _ s
  have hv : EngineOnly axesReg u v := engineOnly_setStat hn _ _ _ u
  refine .ite (hu.trans (engineOnly_setStat hn _ _ _ u)) (.ite (hu.trans (hv.trans (.setReg (axesReg_stat hn) _ v))) ?_)
  have hw : EngineOnly axesReg s w := hu.trans (hv.trans (engineOnly_withSrv rfl))
  refine .ite (hw.trans ((engineOnly_setStat hn _ _ _ w).trans (engineOnly_showRamp hn _ _))) (.ite ?_ hw)
  exact hw.trans (engineOnly_leaveOff hn w)

end

/-! ### Up to the switch of the engine (R259, R265) -/

/-- The state at a period start, before the axes have their turns. -/
def periodBegun (s : State) : State :=
  let u := runTo (nextStart s) s
  let u := if u.srv.trace.armNext then beginTrace u else u
  { u with srv := { u.srv with start := nextStart s, startTick := u.clk.tick } }

/-- An axis begins the period. -/
def axisBegun (n : Nat) (s : State) : State :=
  let a := getAxis n s
  showRamp n (setAxis n { a with
    carry := a.buf, newTgt := false, stepped := false, ramping := a.ramping && !a.rampLast, rampLast := false } s)

/-- The axes begin the period. -/
@[irreducible] def axesBegun (s : State) : State := (List.range 64).foldl (fun s n => axisBegun n s) s

theorem axesBegun_eq (s : State) : axesBegun s = (List.range 64).foldl (fun s n => axisBegun n s) s := by unfold axesBegun; rfl

/-- A committed set takes effect at the period start at `t`. -/
def setTaken (t n : Nat) (s : State) : State :=
  if regBit (Reg.SRV_AXISn_CTL n) 31 s && decide ((getAxis n s).commitAt < t / scRoot) then takeSet n s else s

/-- The committed sets take effect. -/
@[irreducible] def setsTaken (t : Nat) (s : State) : State := (List.range 64).foldl (fun s n => setTaken t n s) s

theorem setsTaken_eq (t : Nat) (s : State) : setsTaken t s = (List.range 64).foldl (fun s n => setTaken t n s) s := by
  unfold setsTaken; rfl

/-- One more period of the running engine. -/
def periodCounted (s : State) : State :=
  incReg Reg.SRV_PERIOD_NUM { s with srv := { s.srv with periods := s.srv.periods + 1 } }

/-- The engine starts, runs on, or stops. -/
def engineSwitched (s : State) : State :=
  if regBit Reg.SRV_CTL 31 s && !srvRunning s then startEngine s
  else if regBit Reg.SRV_CTL 31 s then periodCounted s
  else if srvRunning s then stopEngine s else s

/-- Each axis samples its mode and its torque enable. -/
@[irreducible] def axesSampled (s : State) : State := (List.range 64).foldl (fun s n => sampleAxis n s) s

theorem axesSampled_eq (s : State) : axesSampled s = (List.range 64).foldl (fun s n => sampleAxis n s) s := by
  unfold axesSampled; rfl

/-- The axes and their sets at a period start. -/
def setsInEffect (s : State) : State := setsTaken (nextStart s) (axesBegun (periodBegun s))

theorem periodStart_eq (s : State) : periodStart s =
    if regBit Reg.SRV_CTL 31 (setsInEffect s) then takeRecord (nextStart s) (axesSampled (engineSwitched (setsInEffect s)))
    else axesSampled (engineSwitched (setsInEffect s)) := by
  unfold periodStart
  extract_lets t r u0 servo0 u1 u2 u3 on servo1 u4 u5
  have hbegun : periodBegun s = u1 := rfl
  have haxes : axesBegun (periodBegun s) = u2 := by
    rw [hbegun]
    exact axesBegun_eq u1
  clear_value u2
  have hsets : setsInEffect s = u3 := by
    rw [setsInEffect, haxes]
    exact setsTaken_eq t u2
  clear_value u3
  have hswitch : engineSwitched (setsInEffect s) = u4 := by
    rw [hsets]
    rfl
  clear_value u4
  have hsampled : axesSampled (engineSwitched (setsInEffect s)) = u5 := by
    rw [hswitch]
    exact axesSampled_eq u4
  rw [hsampled, hsets]

theorem engineOnly_axesBegun (s : State) : EngineOnly axesReg s (axesBegun s) := by
  unfold axesBegun
  exact .foldl (fun n hn s => engineOnly_showRamp (List.mem_range.mp hn) _ s) s

theorem engineOnly_setsTaken (t : Nat) (s : State) : EngineOnly axesReg s (setsTaken t s) := by
  unfold setsTaken
  exact .foldl (fun n hn s => .ite (engineOnly_takeSet (List.mem_range.mp hn) s) (.refl s)) s

/-- Sampling writes no register. -/
theorem engineOnly_axesSampled (s : State) : EngineOnly (fun _ => False) s (axesSampled s) := by
  unfold axesSampled
  exact .foldl (fun n _ s => .setAxis n _ s) s

theorem periodBegun_shows {s : State} (hp : 1 ≤ s.day.periodUs) : now (periodBegun s) = nextStart s ∧
    (periodBegun s).srv.start = nextStart s ∧ (∀ o, getReg o (periodBegun s) = getReg o s) ∧ memKept s (periodBegun s) := by
  have hclk : ∀ u : State, now (if u.srv.trace.armNext then beginTrace u else u) = now u ∧
      (∀ o, getReg o (if u.srv.trace.armNext then beginTrace u else u) = getReg o u) ∧
      memKept u (if u.srv.trace.armNext then beginTrace u else u) := fun u => by
    split
    · exact ⟨rfl, fun _ => rfl, memKept_withSrv _ u⟩
    · exact ⟨rfl, fun _ => rfl, memKept_refl u⟩
  obtain ⟨hnow, hregs, hmem⟩ := hclk (runTo (nextStart s) s)
  refine ⟨hnow.trans ?_, rfl, fun o => hregs o, memKept_trans (memKept_runTo _ s) (memKept_trans hmem (memKept_withSrv _ _))⟩
  rw [now_runTo, max_eq_right (le_nextStart hp).1]

theorem setsInEffect_shows {s : State} (hp : 1 ≤ s.day.periodUs) : now (setsInEffect s) = nextStart s ∧
    (setsInEffect s).srv.start = nextStart s ∧ (∀ o, ¬ axesReg o → getReg o (setsInEffect s) = getReg o s) ∧
    memKept s (setsInEffect s) := by
  obtain ⟨hnow, hstart, hregs, hmem⟩ := periodBegun_shows hp
  have hsets : EngineOnly axesReg (periodBegun s) (setsInEffect s) :=
    (engineOnly_axesBegun _).trans (engineOnly_setsTaken _ _)
  exact ⟨hsets.now.trans hnow, hsets.start.trans hstart, fun o ho => (hsets.regs o ho).trans (hregs o),
    memKept_trans hmem (hsets.memKept (by decide))⟩

/-! ### The switch (R240, R254, R258) -/

/-- The registers that the switch of the engine may write. -/
abbrev switchReg (o : Nat) : Prop := axesReg o ∨ o = Reg.SRV_STAT ∨ o = Reg.SRV_PERIOD_NUM

/-- What the switch leaves: the engine runs exactly while ENABLE is set, and counts its periods from there. -/
structure Switched (s t : State) : Prop extends EngineOnly switchReg s t where
  running : srvRunning t = regBit Reg.SRV_CTL 31 s
  counted : regBit Reg.SRV_CTL 31 s = true → getReg Reg.SRV_PERIOD_NUM t =
    if srvRunning s then getReg Reg.SRV_PERIOD_NUM s + 1 else 0
  stopped : regBit Reg.SRV_CTL 31 s = false → srvRunning s = true → ∀ n < 64, regFld (Reg.SRV_AXISn_STAT n) 15 8 t = 0

/-- An axis at the start of the engine (R254, R401). -/
def axisStarted (n : Nat) (s : State) : State :=
  let s := setAxis n { getAxis n s with lastRel := 0, buf := 0, carry := 0, runs := 0 } s
  if activeMode n s = 0 then s else leaveOff n s

theorem engineOnly_axisStarted {n : Nat} (hn : n < 64) (s : State) : EngineOnly axesReg s (axisStarted n s) :=
  .trans (.setAxis n _ s) (.ite (.refl _) (engineOnly_leaveOff hn _))

theorem startEngine_shows (s : State) : EngineOnly switchReg s (startEngine s) ∧ srvRunning (startEngine s) = true ∧
    getReg Reg.SRV_PERIOD_NUM (startEngine s) = 0 := by
  unfold startEngine
  extract_lets u servo v
  have hu : EngineOnly switchReg s u :=
    .trans (.setReg (o := Reg.SRV_STAT) (.inr (.inl rfl)) _ s) (.setReg (o := Reg.SRV_PERIOD_NUM) (.inr (.inr rfl)) _ _)
  have hv : EngineOnly switchReg s v := hu.trans (engineOnly_withSrv rfl)
  have hrun : srvRunning v = true := by
    change srvRunning u = true
    rw [srvRunning, regBit_setReg_other _ _ _ (by decide), regBit_setRegFld_inside _ _ _ _ _ s (by decide) le_rfl le_rfl]
    rfl
  have hnum : getReg Reg.SRV_PERIOD_NUM v = 0 := by
    change getReg Reg.SRV_PERIOD_NUM u = 0
    exact getReg_setReg_same _ _ _
  clear_value v
  have hloop := EngineOnly.foldl (P := axesReg) (fun n hn s => engineOnly_axisStarted (List.mem_range.mp hn) s) v
  exact ⟨hv.trans (hloop.mono fun _ => .inl), (hloop.running (by decide)).trans hrun, (hloop.regs _ (by decide)).trans hnum⟩

theorem stopEngine_shows (s : State) : EngineOnly switchReg s (stopEngine s) ∧ srvRunning (stopEngine s) = false ∧
    ∀ n < 64, regFld (Reg.SRV_AXISn_STAT n) 15 8 (stopEngine s) = 0 := by
  unfold stopEngine
  have hstat : EngineOnly switchReg s (setRegFld Reg.SRV_STAT 31 31 0 s) := .setReg (.inr (.inl rfl)) _ s
  have hrun : srvRunning (setRegFld Reg.SRV_STAT 31 31 0 s) = false :=
    regBit_setRegFld_inside _ _ _ _ _ s (by decide) le_rfl le_rfl
  generalize setRegFld Reg.SRV_STAT 31 31 0 s = v at hstat hrun ⊢
  have hloop : EngineOnly axesReg v ((List.range 64).foldl (fun s n => setRegFld (Reg.SRV_AXISn_STAT n) 15 8 0 s) v) :=
    .foldl (fun n hn s => engineOnly_setStat (List.mem_range.mp hn) 15 8 0 s) v
  obtain ⟨-, hturn⟩ := axisLoop (fun n hn s => touched_setStat hn 15 8 0 s) v
  refine ⟨hstat.trans (hloop.mono fun _ => .inl), (hloop.running (by decide)).trans hrun, fun n hn => ?_⟩
  obtain ⟨u, -, hrest⟩ := hturn n hn
  rw [regFld, hrest.axisRegs hn (.inl (.inl rfl))]
  exact regFld_setRegFld_same _ _ _ _ u (by decide)

theorem periodCounted_shows (s : State) : EngineOnly switchReg s (periodCounted s) ∧
    srvRunning (periodCounted s) = srvRunning s ∧
    getReg Reg.SRV_PERIOD_NUM (periodCounted s) = getReg Reg.SRV_PERIOD_NUM s + 1 := by
  refine ⟨.trans (engineOnly_withSrv (v := { s.srv with periods := s.srv.periods + 1 }) rfl)
    (EngineOnly.setReg (P := switchReg) (.inr (.inr rfl)) _ _), ?_, ?_⟩
  · exact regBit_setReg_other _ _ _ (by decide)
  · exact getReg_setReg_same _ _ _

/-- With ENABLE set, the engine starts or counts one more period. -/
theorem switched_on {s : State} (hon : regBit Reg.SRV_CTL 31 s = true) : Switched s (engineSwitched s) := by
  have hoff : ∀ {p : Prop}, regBit Reg.SRV_CTL 31 s = false → p := fun h => absurd (hon.symm.trans h) (by decide)
  cases hrun : srvRunning s with
  | false =>
    obtain ⟨hkept, hstart, hnum⟩ := startEngine_shows s
    have heq : engineSwitched s = startEngine s := by simp [engineSwitched, hon, hrun]
    refine ⟨heq ▸ hkept, by rw [heq, hstart, hon], fun _ => ?_, hoff⟩
    rw [heq, hnum, hrun, if_neg (by decide)]
  | true =>
    obtain ⟨hkept, hstays, hnum⟩ := periodCounted_shows s
    have heq : engineSwitched s = periodCounted s := by simp [engineSwitched, hon, hrun]
    refine ⟨heq ▸ hkept, by rw [heq, hstays, hon, hrun], fun _ => ?_, hoff⟩
    rw [heq, hnum, if_pos hrun]

/-- With ENABLE clear, the engine stops or rests. -/
theorem switched_off {s : State} (hoff : regBit Reg.SRV_CTL 31 s = false) : Switched s (engineSwitched s) := by
  have hon : ∀ {p : Prop}, regBit Reg.SRV_CTL 31 s = true → p := fun h => absurd (hoff.symm.trans h) (by decide)
  cases hrun : srvRunning s with
  | false =>
    have heq : engineSwitched s = s := by simp [engineSwitched, hoff, hrun]
    exact ⟨by rw [heq]; exact .refl s, by rw [heq, hrun, hoff], hon, fun _ h => absurd (hrun.symm.trans h) (by decide)⟩
  | true =>
    obtain ⟨hkept, hstop, hruns⟩ := stopEngine_shows s
    have heq : engineSwitched s = stopEngine s := by simp [engineSwitched, hoff, hrun]
    exact ⟨heq ▸ hkept, by rw [heq, hstop, hoff], hon, fun _ _ => heq ▸ hruns⟩

theorem switched_engineSwitched (s : State) : Switched s (engineSwitched s) :=
  match h : regBit Reg.SRV_CTL 31 s with
  | true => switched_on h
  | false => switched_off h

/-! ### The record of the solver (R244 to R247) -/

/-- The registers that taking a record may write, but for SRV_STAT. -/
abbrev recordReg (o : Nat) : Prop :=
  axesReg o ∨ o ∈ [Reg.SRV_REC_SOLVE, Reg.SRV_INV_RUN, Reg.SRV_REFUSED_COUNT] ∨ o ∈ latchRegs

/-- What taking a record leaves: the engine runs on, or not, as before. -/
structure RecordTaken (s t : State) : Prop extends EngineOnly (fun o => recordReg o ∨ o = Reg.SRV_STAT) s t where
  running : srvRunning t = srvRunning s

namespace RecordTaken

variable {s t u : State}

theorem of_kept (h : EngineOnly recordReg s t) : RecordTaken s t :=
  ⟨h.mono fun _ => .inl, h.running (by decide)⟩

theorem trans (h1 : RecordTaken s t) (h2 : RecordTaken t u) : RecordTaken s u :=
  ⟨h1.toEngineOnly.trans h2.toEngineOnly, h2.running.trans h1.running⟩

theorem refl (s : State) : RecordTaken s s := .of_kept (.refl s)

end RecordTaken

/-- The axes that take targets from the record show whether they hold them. -/
theorem engineOnly_solverAxes {f : Nat → State → State} (hf : ∀ n < 64, ∀ s, EngineOnly axesReg s (f n s)) (v s : State) :
    EngineOnly recordReg s ((solverAxes v).foldl (fun s n => f n s) s) :=
  (EngineOnly.foldl (fun n hn s => hf n (List.mem_range.mp (List.mem_filter.mp hn).1) s) s).mono fun _ => .inl

/-- SRV_STAT bit 30, which shows the loss of the solver, is not RUNNING. -/
theorem recordTaken_solverLost (s : State) : RecordTaken s (setLatch Latch.solverLost 0 (orReg Reg.SRV_STAT 0x40000000 s)) := by
  have hshown : RecordTaken s (orReg Reg.SRV_STAT 0x40000000 s) := by
    refine ⟨.setReg (o := Reg.SRV_STAT) (.inr rfl) _ s, ?_⟩
    rw [srvRunning, orReg_eq, regBit_setReg_same, bit_or, show bit (0x40000000 : Word) 31 = false by decide, Bool.or_false,
      srvRunning, regBit]
  have hlatch := latched_setLatches [(Latch.solverLost, 0)] (orReg Reg.SRV_STAT 0x40000000 s)
  exact hshown.trans (.of_kept (hlatch.toEngineOnly.mono fun _ h => .inr (.inr h)))

theorem recordTaken_refuseRecord (s : State) : RecordTaken s (refuseRecord s) := by
  unfold refuseRecord
  extract_lets u v servo w
  have hu : EngineOnly recordReg s u := engineOnly_solverAxes (fun n hn s => engineOnly_setStat hn 29 29 1 s) s s
  clear_value u
  have hv : EngineOnly recordReg u v :=
    .trans (.setReg (o := Reg.SRV_REFUSED_COUNT) (.inr (.inl (by decide))) _ u)
      (.setReg (o := Reg.SRV_INV_RUN) (.inr (.inl (by decide))) _ _)
  have hw : RecordTaken s w := .of_kept (hu.trans (hv.trans (engineOnly_withSrv rfl)))
  clear_value w
  split
  · exact hw.trans (recordTaken_solverLost w)
  · exact hw

theorem recordTaken_acceptRecord (r : Record) (s : State) : RecordTaken s (acceptRecord r s) := by
  unfold acceptRecord
  extract_lets u
  have hu : EngineOnly recordReg s u :=
    .trans (.setReg (o := Reg.SRV_REC_SOLVE) (.inr (.inl (by decide))) _ s)
      (.setReg (o := Reg.SRV_INV_RUN) (.inr (.inl (by decide))) _ _)
  clear_value u
  refine .of_kept (hu.trans (engineOnly_solverAxes (fun n hn s => ?_) u u))
  exact .ite (.trans (engineOnly_setStat hn 29 29 0 s) (.setAxis n _ _)) (engineOnly_setStat hn 29 29 1 s)

theorem recordTaken_takeRecord (t : Nat) (s : State) : RecordTaken s (takeRecord t s) := by
  unfold takeRecord
  split
  · exact .refl s
  · next r _ =>
    split
    · exact .refl s
    · have hnoted : RecordTaken s { s with srv := { s.srv with lastSolve := some r.solve } } := .of_kept (engineOnly_withSrv rfl)
      dsimp only
      split
      · exact hnoted.trans (recordTaken_refuseRecord _)
      · exact hnoted.trans (recordTaken_acceptRecord r _)

/-! ### A period start -/

/-- What the next period start leaves: its instant, the engine and its count of periods, and the memories. -/
structure PeriodLeft (s t : State) : Prop where
  now : now t = nextStart s
  start : t.srv.start = nextStart s
  running : srvRunning t = regBit Reg.SRV_CTL 31 s
  counted : regBit Reg.SRV_CTL 31 s = true → getReg Reg.SRV_PERIOD_NUM t =
    if srvRunning s then getReg Reg.SRV_PERIOD_NUM s + 1 else 0
  stopped : regBit Reg.SRV_CTL 31 s = false → srvRunning s = true → ∀ n < 64, regFld (Reg.SRV_AXISn_STAT n) 15 8 t = 0
  memory : memKept s t

/-- The switch of the engine, on the sets in effect. -/
theorem periodLeft_switched {s : State} (hp : 1 ≤ s.day.periodUs) : PeriodLeft s (engineSwitched (setsInEffect s)) := by
  obtain ⟨hnow, hstart, hregs, hmem⟩ := setsInEffect_shows hp
  obtain ⟨hkept, hrun, hnum, hstop⟩ := switched_engineSwitched (setsInEffect s)
  have hon : regBit Reg.SRV_CTL 31 (setsInEffect s) = regBit Reg.SRV_CTL 31 s := congrArg (bit · 31) (hregs _ (by decide))
  have hwas : srvRunning (setsInEffect s) = srvRunning s := congrArg (bit · 31) (hregs _ (by decide))
  have hcount : getReg Reg.SRV_PERIOD_NUM (setsInEffect s) = getReg Reg.SRV_PERIOD_NUM s := hregs _ (by decide)
  exact { now := hkept.now.trans hnow
          start := hkept.start.trans hstart
          running := hrun.trans hon
          counted := fun h => by rw [hnum (hon.trans h), hwas, hcount]
          stopped := fun h hwas' => hstop (hon.trans h) (hwas.trans hwas')
          memory := memKept_trans hmem (hkept.memKept (by decide)) }

namespace PeriodLeft

variable {s t u : State}

/-- What the axes sample changes nothing of this. -/
theorem sampled (h : PeriodLeft s t) : PeriodLeft s (axesSampled t) := by
  have hkept := engineOnly_axesSampled t
  have hregs : ∀ o, getReg o (axesSampled t) = getReg o t := fun o => hkept.regs o id
  exact { now := hkept.now.trans h.now
          start := hkept.start.trans h.start
          running := (hkept.running id).trans h.running
          counted := fun hon => (hregs _).trans (h.counted hon)
          stopped := fun hoff hwas n hn => (congrArg (fld · 15 8) (hregs _)).trans (h.stopped hoff hwas n hn)
          memory := memKept_trans h.memory (hkept.memKept id) }

/-- Nor does the record that a running engine takes. -/
theorem taken (h : PeriodLeft s t) (hon : regBit Reg.SRV_CTL 31 s = true) (hrec : RecordTaken t u) : PeriodLeft s u where
  now := hrec.now.trans h.now
  start := hrec.start.trans h.start
  running := hrec.running.trans h.running
  counted hon := (hrec.regs _ (by decide)).trans (h.counted hon)
  stopped hoff := absurd (hon.symm.trans hoff) (by decide)
  memory := memKept_trans h.memory (hrec.memKept (by decide))

end PeriodLeft

theorem periodStart_leaves {s : State} (hp : 1 ≤ s.day.periodUs) : PeriodLeft s (periodStart s) := by
  have hon : regBit Reg.SRV_CTL 31 (setsInEffect s) = regBit Reg.SRV_CTL 31 s :=
    congrArg (bit · 31) ((setsInEffect_shows hp).2.2.1 _ (by decide))
  have hsampled := (periodLeft_switched hp).sampled
  rw [periodStart_eq, hon]
  split
  · next h => exact hsampled.taken h (recordTaken_takeRecord _ _)
  · exact hsampled

/-! ### O46 -/

/-- Settles O46: each event of the engine leaves what its part above says. -/
theorem servoPeriodsAndCommands : Obligations.ServoPeriodsAndCommands := by
  unfold Obligations.ServoPeriodsAndCommands
  refine ⟨⟨fun s => ?_, fun s hp => ?_⟩, fun s hrun => ⟨?_, fun pe pc => ?_, ?_⟩⟩
  · obtain ⟨hnow, hmem, haxes⟩ := cutoff_leaves s
    obtain ⟨hle, hlater⟩ := le_cutoffInstant s
    refine ⟨cutoff s, rfl, hnow, hle, hlater, hmem, fun n hn m hm => ?_⟩
    obtain ⟨hgood, hmissing⟩ := haxes n hn m hm
    refine ⟨fun v hv => ?_, fun hnone => ?_⟩
    · obtain ⟨⟨hpos, hvel, hcur, hstamp, hmiss⟩, hshown⟩ := hgood v hv
      exact ⟨hpos, hvel, hcur, hstamp, hmiss, hshown⟩
    · obtain ⟨⟨hpos, hvel, hcur, -, hmiss⟩, hshown⟩ := hmissing hnone
      exact ⟨hpos, hvel, hcur, hmiss, hshown⟩
  · obtain ⟨hnow, hstart, hon, hcount, hstop, hmem⟩ := periodStart_leaves hp
    obtain ⟨hle, hlater⟩ := le_nextStart hp
    exact ⟨periodStart s, rfl, hnow, hstart.trans hnow.symm, hnow ▸ hle, hnow ▸ hlater, ⟨_, hnow⟩, hon, hcount,
      fun hoff n hn hwas => hstop hoff hwas n hn, hmem⟩
  · obtain ⟨hnow, hmem, haxes⟩ := servoCompute_leaves hrun
    refine ⟨servoCompute s, rfl, hnow, hmem, fun n hn hruns => ?_⟩
    obtain ⟨hquiet, hrepeats, hsteps, hshown⟩ := haxes n hn hruns
    exact ⟨hquiet, hrepeats, hsteps, hshown⟩
  · obtain ⟨hnow, hmem, haxes, hproof⟩ := servoCheck_leaves pe pc hrun
    refine ⟨servoCheck pe pc s, rfl, hnow, hmem, fun n hn hruns => ?_, hproof⟩
    obtain ⟨⟨hagree, hagrees, hdisagrees, -⟩, hlatch⟩ := haxes n hn hruns
    exact ⟨hagree, hagrees, fun hbad => ⟨hdisagrees hbad, hlatch hbad⟩⟩
  · obtain ⟨hnow, hmem, haxes⟩ := commandRelease_leaves hrun
    refine ⟨commandRelease s, rfl, hnow, hmem, fun n hn hruns => ?_⟩
    rw [haxes n hn hruns, releasedAxis]
    dsimp only
    split <;> exact ⟨rfl, rfl⟩

end Sys2Proof.Machine
end

section
/-! Which frame a CAN FD controller offers for arbitration first (R295), and the settlement of O48. -/

namespace Sys2Proof.Machine

/-! ### The first of the frames of smallest identifier -/

/-- `f` is the first in the list whose identifier no other's is below. -/
def FirstLowest (f : CanSource × CanFrame) (fs : List (CanSource × CanFrame)) : Prop :=
  ∃ before after, fs = before ++ f :: after ∧ (∀ g ∈ before, orderId f.2 < orderId g.2) ∧
    ∀ g ∈ after, orderId f.2 ≤ orderId g.2

namespace FirstLowest

variable {f g : CanSource × CanFrame} {fs : List (CanSource × CanFrame)}

theorem mem (h : FirstLowest f fs) : f ∈ fs := by
  obtain ⟨before, after, rfl, -, -⟩ := h
  exact List.mem_append_right _ List.mem_cons_self

theorem le (h : FirstLowest f fs) (hg : g ∈ fs) : orderId f.2 ≤ orderId g.2 := by
  obtain ⟨before, after, rfl, hbefore, hafter⟩ := h
  rcases List.mem_append.mp hg with hg | hg
  · exact (hbefore g hg).le
  · rcases List.mem_cons.mp hg with rfl | hg
    · exact le_rfl
    · exact hafter g hg

/-- One more frame at the end comes first where its identifier is below all others. -/
theorem append_lower (h : FirstLowest f fs) (hlt : orderId g.2 < orderId f.2) : FirstLowest g (fs ++ [g]) :=
  ⟨fs, [], rfl, fun _ hx => hlt.trans_le (h.le hx), by simp⟩

/-- One more frame at the end changes nothing where its identifier is no lower. -/
theorem append_higher (h : FirstLowest f fs) (hle : orderId f.2 ≤ orderId g.2) : FirstLowest f (fs ++ [g]) := by
  obtain ⟨before, after, rfl, hbefore, hafter⟩ := h
  refine ⟨before, after ++ [g], by simp, hbefore, fun x hx => ?_⟩
  rcases List.mem_append.mp hx with hx | hx
  · exact hafter x hx
  · rwa [List.mem_singleton.mp hx]

end FirstLowest

/-- A frame at the end is taken only for an identifier below all before it. -/
theorem lowestId_append (fs : List (CanSource × CanFrame)) (g : CanSource × CanFrame) : lowestId (fs ++ [g]) =
    some ((lowestId fs).elim g (fun b => if orderId g.2 < orderId b.2 then g else b)) := by
  simp only [lowestId, List.foldl_append, List.foldl_cons, List.foldl_nil]
  split <;> rename_i h <;> rw [h]
  · rfl
  · exact (apply_ite some _ _ _).symm

/-- A list of frames has a first of smallest identifier unless it is empty. -/
theorem lowestId_spec (fs : List (CanSource × CanFrame)) :
    (lowestId fs = none ∧ fs = []) ∨ ∃ f, lowestId fs = some f ∧ FirstLowest f fs := by
  induction fs using List.reverseRecOn with
  | nil => exact .inl ⟨rfl, rfl⟩
  | append_singleton fs g ih =>
    refine .inr ?_
    rw [lowestId_append]
    rcases ih with ⟨hnone, rfl⟩ | ⟨f, hf, hfirst⟩
    · exact ⟨g, by rw [hnone, Option.elim_none], [], [], rfl, by simp, by simp⟩
    · rw [hf, Option.elim_some]
      split
      · next hlt => exact ⟨g, rfl, hfirst.append_lower hlt⟩
      · next hge => exact ⟨f, rfl, hfirst.append_higher (not_lt.mp hge)⟩

theorem firstLowest_of_lowestId {fs : List (CanSource × CanFrame)} {f : CanSource × CanFrame} (h : lowestId fs = some f) :
    FirstLowest f fs := by
  rcases lowestId_spec fs with ⟨hnone, -⟩ | ⟨g, hg, hfirst⟩
  · simp [hnone] at h
  · rw [h, Option.some.injEq] at hg
    exact hg ▸ hfirst

/-! ### What waits at a controller -/

/-- The axis command frames that wait. -/
def axisFrames (c : Nat) (s : State) : List (CanSource × CanFrame) :=
  (getCan c s).axisTx.filterMap (fun e => e.2.map (fun f => (CanSource.axis e.1, f)))

/-- The software buffers that are pending. -/
def pendingBuffers (c : Nat) (s : State) : List Nat := (List.range 32).filter (fun b => regBit (Reg.CAN_Cc_TX_REQ c) b s)

theorem mem_axisFrames {c : Nat} {s : State} {g : CanSource × CanFrame} :
    g ∈ axisFrames c s ↔ ∃ k f, (k, some f) ∈ (getCan c s).axisTx ∧ g = (.axis k, f) := by
  simp only [axisFrames, List.mem_filterMap, Option.map_eq_some_iff, Prod.exists]
  constructor
  · rintro ⟨k, o, hmem, f, rfl, rfl⟩
    exact ⟨k, f, hmem, rfl⟩
  · rintro ⟨k, f, hmem, rfl⟩
    exact ⟨k, some f, hmem, f, rfl, rfl⟩

theorem mem_pendingBuffers {c b : Nat} {s : State} :
    b ∈ pendingBuffers c s ↔ b < 32 ∧ regBit (Reg.CAN_Cc_TX_REQ c) b s = true := by
  simp only [pendingBuffers, List.mem_filter, List.mem_range]

/-- The pending buffers stand in the order of their indices. -/
theorem pairwise_pendingBuffers (c : Nat) (s : State) : (pendingBuffers c s).Pairwise (· < ·) :=
  List.pairwise_lt_range.filter _

/-- The frame of a pending buffer that comes first, and its place among the others. -/
theorem firstLowest_pendingBuffers {c : Nat} {s : State} {p : CanSource × CanFrame}
    (h : FirstLowest p ((pendingBuffers c s).map (fun b => (CanSource.buffer b, bufferFrame c b s)))) :
    ∃ b ∈ pendingBuffers c s, p = (.buffer b, bufferFrame c b s) ∧ ∀ d ∈ pendingBuffers c s,
      orderId p.2 < orderId (bufferFrame c d s) ∨ (orderId p.2 = orderId (bufferFrame c d s) ∧ b ≤ d) := by
  obtain ⟨before, after, hsplit, hbefore, hafter⟩ := h
  obtain ⟨lower, rest, hpending, rfl, hrest⟩ := List.map_eq_append_iff.mp hsplit
  obtain ⟨b, higher, rfl, rfl, rfl⟩ := List.map_eq_cons_iff.mp hrest
  have hsorted := hpending ▸ pairwise_pendingBuffers c s
  rw [hpending]
  refine ⟨b, List.mem_append_right _ List.mem_cons_self, rfl, fun d hd => ?_⟩
  rcases List.mem_append.mp hd with hd | hd
  · exact .inl (hbefore _ (List.mem_map_of_mem hd))
  · rcases List.mem_cons.mp hd with rfl | hd
    · exact .inr ⟨rfl, le_rfl⟩
    · have hbd : b < d := List.rel_of_pairwise_cons (List.pairwise_append.mp hsorted).2.1 hd
      exact (hafter _ (List.mem_map_of_mem hd)).lt_or_eq.imp_right (⟨·, hbd.le⟩)

/-! ### R295 -/

theorem canTop_safety {c : Nat} {s : State} {f : CanFrame} (h : (getCan c s).safety = some f) :
    canTop c s = some (.safety, f) := by
  simp only [canTop, h]

/-- Without a safety frame a controller offers an axis frame where one waits, and a buffer's where none does. -/
theorem canTop_without_safety {c : Nat} {s : State} (h : (getCan c s).safety = none) :
    canTop c s = (lowestId (axisFrames c s)).or
      (lowestId ((pendingBuffers c s).map (fun b => (CanSource.buffer b, bufferFrame c b s)))) := by
  simp only [canTop, h, axisFrames, pendingBuffers]
  split <;> rename_i hlow <;> rw [hlow] <;> rfl

/-- Settles O48: the list of the frames of one kind has a first of smallest identifier, and the kinds are tried in turn. -/
theorem canArbitrationOrder : Obligations.CanArbitrationOrder := by
  unfold Obligations.CanArbitrationOrder
  intro c s
  refine ⟨fun f => canTop_safety, fun hsafe src g htop => ?_⟩
  rw [canTop_without_safety hsafe] at htop
  rcases lowestId_spec (axisFrames c s) with ⟨hnone, hempty⟩ | ⟨p, hp, hfirst⟩
  · have hno : ∀ k f, (k, some f) ∉ (getCan c s).axisTx := fun k f hmem => by
      have haxis := mem_axisFrames.mpr ⟨k, f, hmem, rfl⟩
      simp [hempty] at haxis
    rw [hnone, Option.none_or] at htop
    obtain ⟨b, hb, hp, hleast⟩ := firstLowest_pendingBuffers (firstLowest_of_lowestId htop)
    obtain ⟨hlt, hreq⟩ := mem_pendingBuffers.mp hb
    obtain ⟨rfl, rfl⟩ := Prod.mk.inj hp
    exact ⟨fun k f hmem => absurd hmem (hno k f), fun _ =>
      ⟨b, hlt, rfl, hreq, rfl, fun d hd hdreq => hleast d (mem_pendingBuffers.mpr ⟨hd, hdreq⟩)⟩⟩
  · rw [hp, Option.some_or, Option.some.injEq] at htop
    subst htop
    obtain ⟨k, f, hmem, hpair⟩ := mem_axisFrames.mp hfirst.mem
    obtain ⟨rfl, rfl⟩ := Prod.mk.inj hpair
    exact ⟨fun j f' hmem' => ⟨⟨k, rfl⟩, hfirst.le (mem_axisFrames.mpr ⟨j, f', hmem', rfl⟩)⟩,
      fun hno => absurd hmem (hno k g)⟩

end Sys2Proof.Machine
end

section
/-! What the shared operations of a CAN FD controller show and leave alone: the choice of a frame, the return of one, the error
counters and the FIFOs (R293 to R298, R301). -/

namespace Sys2Proof.Machine

open Sys2Proof.Config

/-! ### What a controller's operations leave alone -/

/-- The registers of the CAN FD controllers. -/
abbrev canReg (o : Nat) : Prop := 0x700000 ≤ o ∧ o < 0x800000

/-- `t` with its registers, its controllers and its count of free values as `s` has them. -/
def cansFrom (s t : State) : State := { t with regs := s.regs, cans := s.cans, freeCtr := s.freeCtr }

/-- Nothing changed but the controllers, the count of free values, and the registers of `P`. -/
structure CansOnly (P : Nat → Prop) (s t : State) : Prop where
  rest : cansFrom s t = s
  regs : ∀ o, ¬ P o → getReg o t = getReg o s

namespace CansOnly

variable {P Q : Nat → Prop} {s t u : State}

theorem refl (s : State) : CansOnly P s s := ⟨rfl, fun _ _ => rfl⟩

theorem trans (h1 : CansOnly P s t) (h2 : CansOnly P t u) : CansOnly P s u :=
  ⟨(congrArg (cansFrom s) h2.rest).trans h1.rest,
    fun o ho => (h2.regs o ho).trans (h1.regs o ho)⟩

theorem mono (h : CansOnly P s t) (hsub : ∀ o, P o → Q o) : CansOnly Q s t := ⟨h.rest, fun o ho => h.regs o (mt (hsub o) ho)⟩

theorem ite {p : Prop} [Decidable p] {a b : State} (ha : CansOnly P s a) (hb : CansOnly P s b) :
    CansOnly P s (if p then a else b) := by
  split
  · exact ha
  · exact hb

theorem setReg {o : Nat} (h : P o) (v : Word) (s : State) : CansOnly P s (setReg o v s) :=
  ⟨rfl, fun _ hp => getReg_setReg_other _ _ (fun e => hp (e ▸ h))⟩

theorem setCan (c : Nat) (x : Can) (s : State) : CansOnly P s (setCan c x s) := ⟨rfl, fun _ _ => rfl⟩

theorem useFree (s : State) : CansOnly P s (useFree s) := ⟨rfl, fun _ _ => rfl⟩

theorem clk (h : CansOnly P s t) : t.clk = s.clk := (congrArg State.clk h.rest :)
theorem srv (h : CansOnly P s t) : t.srv = s.srv := (congrArg State.srv h.rest :)
theorem outbox (h : CansOnly P s t) : t.outbox = s.outbox := (congrArg State.outbox h.rest :)
theorem now (h : CansOnly P s t) : Machine.now t = Machine.now s := (congrArg Machine.now h.rest :)

theorem engineOnly (h : CansOnly P s t) : EngineOnly P s t :=
  ⟨(congrArg (reportFrom s) h.rest :), (congrArg (fun x : State => x.srv.start) h.rest :), h.regs⟩

theorem memKept (h : CansOnly P s t) (hpop : ¬ P Reg.MEM_POP) : Machine.memKept s t := h.engineOnly.memKept hpop

end CansOnly

/-! ### The choice of a frame (R295) -/

theorem cansOnly_offerCan {P : Nat → Prop} (c : Nat) (s : State) : CansOnly P s (offerCan c s) := by
  have hframe := offerCan_frame c s
  have hregs : (offerCan c s).regs = s.regs := (congrArg State.regs hframe :)
  exact ⟨(congrArg (cansFrom s) hframe :), fun _ _ => by simp only [getReg, hregs]⟩

@[simp] theorem getReg_offerCan (o c : Nat) (s : State) : getReg o (offerCan c s) = getReg o s :=
  (cansOnly_offerCan (P := fun _ => False) c s).regs o id

/-- A controller that sends a frame already keeps to it. -/
theorem offerCan_sending {c : Nat} {s : State} (h : (getCan c s).sending.isSome = true) : offerCan c s = s := by
  simp only [offerCan, h, Bool.true_or, if_true]

/-- A free controller on the bus starts the frame that comes first. -/
theorem sending_offerCan {c : Nat} {s : State} (hfree : (getCan c s).sending = none) (hwait : (getCan c s).waiting = false)
    (hon : canOn c s = true) (hlisten : regBit (Reg.CAN_Cc_CTL c) 29 s = false) :
    (getCan c (offerCan c s)).sending = (canTop c s).map (fun p => (p.1, onBus c p.2 s)) := by
  simp only [offerCan, hfree, hwait, hon, hlisten, Option.isSome_none, Bool.not_true, Bool.or_self, Bool.false_eq_true, if_false]
  split <;> rename_i htop <;> simp only [htop, hfree, getCan_setCan_same, Option.map_none, Option.map_some]

/-! ### The return of a frame (R294, R298) -/

/-- What the return of a frame of `src` makes of a controller. -/
structure Returned (src : CanSource) (x y : Can) : Prop where
  sending : y.sending = none
  waiting : y.waiting = x.waiting
  meas : y.meas = x.meas
  rxFull : y.rxFull = x.rxFull
  safety : src = .safety → y.safety.isSome = true
  axis : ∀ k, src = .axis k → (tget (fun _ => none) y.axisTx k).isSome = true

/-- A frame goes back to its place, or finds a newer one there, which is counted. -/
theorem returnFrame_eq (c : Nat) (f : CanSource × CanFrame) (s : State) : ∃ y, Returned f.1 (getCan c s) y ∧
    (returnFrame c f s = setCan c y s ∨ returnFrame c f s = setCan c y (bumpReg (Reg.CAN_Cc_REPLACED c) 1 s)) := by
  obtain ⟨src, g⟩ := f
  cases src with
  | safety =>
    exact ⟨{ getCan c s with sending := none, safety := some ((getCan c s).safety.getD { g with esi := false }) },
      ⟨rfl, rfl, rfl, rfl, fun _ => rfl, by simp⟩, .inl rfl⟩
  | axis k =>
    by_cases hnewer : (tget (fun _ => none) (getCan c s).axisTx k).isSome = true
    · refine ⟨{ getCan c s with sending := none }, ⟨rfl, rfl, rfl, rfl, by simp, ?_⟩, .inr ?_⟩
      · rintro j hj
        obtain rfl := CanSource.axis.inj hj
        exact hnewer
      · simp only [returnFrame, hnewer, if_true]
        rfl
    · refine ⟨{ getCan c s with
          sending := none
          axisTx := tset (fun _ => none) k (some { g with esi := false }) (getCan c s).axisTx },
        ⟨rfl, rfl, rfl, rfl, by simp, ?_⟩, .inl (if_neg hnewer)⟩
      rintro j hj
      obtain rfl := CanSource.axis.inj hj
      simp only [tget_tset_same, Option.isSome_some]
  | buffer b => exact ⟨{ getCan c s with sending := none }, ⟨rfl, rfl, rfl, rfl, by simp, by simp⟩, .inl rfl⟩

section
variable (c : Nat) (f : CanSource × CanFrame) (s : State)

theorem returned_returnFrame : Returned f.1 (getCan c s) (getCan c (returnFrame c f s)) := by
  obtain ⟨y, hy, h | h⟩ := returnFrame_eq c f s <;> rwa [h, getCan_setCan_same]

theorem cansOnly_returnFrame : CansOnly (· = Reg.CAN_Cc_REPLACED c) s (returnFrame c f s) := by
  obtain ⟨y, -, h | h⟩ := returnFrame_eq c f s <;> rw [h]
  · exact .setCan c y s
  · exact .trans (.setReg (P := (· = Reg.CAN_Cc_REPLACED c)) rfl _ s) (.setCan c y _)

/-- What a controller had chosen goes back, and touches no frame that it has received. -/
theorem cansOnly_yieldBus : CansOnly (· = Reg.CAN_Cc_REPLACED c) s (yieldBus c s) := by
  unfold yieldBus
  split
  · exact cansOnly_returnFrame c _ s
  · exact .refl s

theorem received_yieldBus : (getCan c (yieldBus c s)).meas = (getCan c s).meas ∧
    (getCan c (yieldBus c s)).rxFull = (getCan c s).rxFull := by
  unfold yieldBus
  split
  · next f _ => exact ⟨(returned_returnFrame c f s).meas, (returned_returnFrame c f s).rxFull⟩
  · exact ⟨rfl, rfl⟩

end

/-! ### The error counters (R293) -/

theorem cansOnly_setErr (c t r : Nat) (s : State) :
    CansOnly (fun o => o = Reg.CAN_Cc_ERRCNT c ∨ o = Reg.CAN_Cc_STAT c) s (setErr c t r s) :=
  .trans (.setReg (.inl rfl) _ s) (.setReg (.inr rfl) _ _)

/-- TEC and REC in their register. -/
theorem fld_counters {t r : Nat} (ht : t < 512) (hr : r < 256) :
    fld (word (t * 2 ^ 16 + r)) 24 16 = t ∧ fld (word (t * 2 ^ 16 + r)) 7 0 = r := by
  simp only [fld, word, BitVec.toNat_ofNat]
  omega

theorem setErr_shows (c t r : Nat) (s : State) : tec c (setErr c t r s) = min 511 t ∧ rec_ c (setErr c t r s) = min 255 r ∧
    canState c (setErr c t r s) = if 127 < t ∨ 127 < r then 1 else 0 := by
  have hcount : getReg (Reg.CAN_Cc_ERRCNT c) (setErr c t r s) = word (min 511 t * 2 ^ 16 + min 255 r) := by
    rw [setErr, setRegFld_eq, getReg_setReg_other _ _ (by simp), getReg_setReg_same]
  obtain ⟨htec, hrec⟩ := fld_counters (t := min 511 t) (r := min 255 r) (by omega) (by omega)
  refine ⟨by rw [tec, regFld, hcount, htec], by rw [rec_, regFld, hcount, hrec], ?_⟩
  rw [canState, setErr, regFld_setRegFld_same _ _ _ _ _ (by decide)]
  split <;> rfl

/-- The overflow flags stand beside the error state. -/
theorem regBit_stat_setErr {i : Nat} (hi : i < 30) (c t r : Nat) (s : State) :
    regBit (Reg.CAN_Cc_STAT c) i (setErr c t r s) = regBit (Reg.CAN_Cc_STAT c) i s := by
  rw [setErr, regBit_setRegFld_apart _ _ _ _ _ _ (.inl hi), regBit_setReg_other _ _ _ (by simp)]

/-! ### Entries of the FIFOs (R296, R297, R301) -/

theorem cansOnly_storeWords (base : Nat) (ws : List Word) (s : State) :
    CansOnly (fun o => base ≤ o ∧ o < base + 4 * ws.length) s (storeWords base ws s) := by
  induction ws generalizing base s with
  | nil => exact .refl s
  | cons w ws ih =>
    refine .trans (.setReg ⟨le_rfl, by simp⟩ w s) ((ih (base + 4) _).mono fun o ho => ?_)
    rw [List.length_cons]
    omega

/-- Each word of an entry reads back. -/
theorem getReg_storeWords {ws : List Word} {i : Nat} (hi : i < ws.length) (base : Nat) (s : State) :
    getReg (base + 4 * i) (storeWords base ws s) = ws[i] := by
  induction ws generalizing base i s with
  | nil => simp at hi
  | cons w ws ih =>
    rw [storeWords]
    cases i with
    | zero => rw [(cansOnly_storeWords _ _ _).regs _ (by omega), Nat.mul_zero, Nat.add_zero, getReg_setReg_same,
        List.getElem_cons_zero]
    | succ i => rw [show base + 4 * (i + 1) = base + 4 + 4 * i by omega, ih (by simpa using hi), List.getElem_cons_succ]

theorem bit_word_two_pow {b : Nat} (hb : b < 32) : bit (word (2 ^ b)) b = true := by
  rw [bit, word, BitVec.getLsbD_ofNat, Nat.testBit_two_pow_self, decide_eq_true hb, Bool.and_true]

end Sys2Proof.Machine
end

section
/-! The bit timing, the requests and the transmission of CAN FD frames (R292, R294 to R296), and the settlement of O49. -/

namespace Sys2Proof.Machine

open Sys2Proof.Config

/-! ### Writes that take effect now -/

section
variable (w : Writer) (c : Fin 4) (v : Word) {s : State} (hw : writesNow w s = true)
include hw

theorem exec_bitTimingWrite (d : Bool) : exec (.bitTimingWrite w c d v) s =
    .next (if regBit (Reg.CAN_Cc_CTL c) 30 s then
      rwStore (if d then Reg.CAN_Cc_DBT c else Reg.CAN_Cc_NBT c) v (usedBy w s) else usedBy w s) := by
  rw [← regBit_usedBy _ _ w s]
  exact congrArg Host.Outcome.next (asWriter_now w _ _ s hw)

theorem exec_canTxRequest : exec (.canTxRequest w c v) s =
    .next (offerCan c (orReg (Reg.CAN_Cc_TX_REQ c) v (usedBy w s))) :=
  congrArg Host.Outcome.next (asWriter_now w _ _ s hw)

theorem exec_canTxAbort : exec (.canTxAbort w c v) s =
    .next (modReg (Reg.CAN_Cc_TX_REQ c) (· &&& ~~~v) (usedBy w s)) :=
  congrArg Host.Outcome.next (asWriter_now w _ _ s hw)

end

@[simp] theorem getCan_usedBy (c : Nat) (w : Writer) (s : State) : getCan c (usedBy w s) = getCan c s := by cases w <;> rfl

@[simp] theorem getCan_setReg (c o : Nat) (v : Word) (s : State) : getCan c (setReg o v s) = getCan c s := rfl

/-- Whether a controller is on the bus rests on its control register and its error state. -/
theorem canOn_congr {c : Nat} {s t : State} (hctl : getReg (Reg.CAN_Cc_CTL c) t = getReg (Reg.CAN_Cc_CTL c) s)
    (hstat : getReg (Reg.CAN_Cc_STAT c) t = getReg (Reg.CAN_Cc_STAT c) s) : canOn c t = canOn c s := by
  unfold canOn regBit regFld
  rw [hctl, hstat]

/-! ### Bit timing (R292) -/

theorem rw_nominalTiming (c : Fin 4) : (regRowAt (Reg.CAN_Cc_NBT c)).map RegRow.rw = some 0xFFFF7F7F := by
  revert c
  decide +kernel

theorem rw_dataTiming (c : Fin 4) : (regRowAt (Reg.CAN_Cc_DBT c)).map RegRow.rw = some 0x1FBF1F1F := by
  revert c
  decide +kernel

/-- A field that software may write reads as it was written. -/
theorem regFld_rwStore {o hi lo : Nat} {m : Word} (hrow : (regRowAt o).map RegRow.rw = some m) (hhi : hi < 32)
    (hm : ∀ i ≤ hi, lo ≤ i → bit m i = true) (v : Word) (s : State) : regFld o hi lo (rwStore o v s) = fld v hi lo := by
  rw [rwStore_eq hrow, regFld_setReg_same, fld_storedWord hhi fun i hlo hle => hm i hle hlo]

theorem nominalTiming_written (c : Fin 4) (v : Word) (s : State) :
    let t := rwStore (Reg.CAN_Cc_NBT c) v s
    (regFld (Reg.CAN_Cc_NBT c) 31 16 t = fld v 31 16 ∧ regFld (Reg.CAN_Cc_NBT c) 14 8 t = fld v 14 8 ∧
      regFld (Reg.CAN_Cc_NBT c) 6 0 t = fld v 6 0) ∧ onlyRegs [Reg.CAN_Cc_NBT c] s t := by
  have hread {hi lo : Nat} (hhi : hi < 32) (hm : ∀ i ≤ hi, lo ≤ i → bit (0xFFFF7F7F : Word) i = true) :=
    regFld_rwStore (rw_nominalTiming c) hhi hm v s
  exact ⟨⟨hread (by decide) (by decide), hread (by decide) (by decide), hread (by decide) (by decide)⟩,
    onlyRegs_rwStore (rw_nominalTiming c) v s⟩

theorem dataTiming_written (c : Fin 4) (v : Word) (s : State) :
    let t := rwStore (Reg.CAN_Cc_DBT c) v s
    (regFld (Reg.CAN_Cc_DBT c) 28 23 t = fld v 28 23 ∧ regFld (Reg.CAN_Cc_DBT c) 21 16 t = fld v 21 16 ∧
      regFld (Reg.CAN_Cc_DBT c) 12 8 t = fld v 12 8 ∧ regFld (Reg.CAN_Cc_DBT c) 4 0 t = fld v 4 0) ∧
      onlyRegs [Reg.CAN_Cc_DBT c] s t := by
  have hread {hi lo : Nat} (hhi : hi < 32) (hm : ∀ i ≤ hi, lo ≤ i → bit (0x1FBF1F1F : Word) i = true) :=
    regFld_rwStore (rw_dataTiming c) hhi hm v s
  exact ⟨⟨hread (by decide) (by decide), hread (by decide) (by decide), hread (by decide) (by decide),
    hread (by decide) (by decide)⟩, onlyRegs_rwStore (rw_dataTiming c) v s⟩

/-! ### Requests (R295) -/

/-- A request makes its buffers pending, and offers the first of them. -/
theorem canTxRequest_leaves (w : Writer) (c : Fin 4) (v : Word) (s : State) :
    let r := orReg (Reg.CAN_Cc_TX_REQ c) v (usedBy w s)
    let t := offerCan c r
    getReg (Reg.CAN_Cc_TX_REQ c) t = getReg (Reg.CAN_Cc_TX_REQ c) s ||| v ∧ regsKept [Reg.CAN_Cc_TX_REQ c] s t ∧
      ((getCan c s).sending = none → (getCan c s).waiting = false → canOn c s = true →
        regBit (Reg.CAN_Cc_CTL c) 29 s = false →
        (getCan c t).sending = (canTop c r).map (fun p => (p.1, onBus c p.2 s))) ∧ memKept s t := by
  intro r t
  have hreq : ∀ o, o ≠ Reg.CAN_Cc_TX_REQ c → getReg o r = getReg o s := fun o ho =>
    (getReg_setReg_other _ _ ho).trans (getReg_usedBy o w s)
  have hstat := hreq (Reg.CAN_Cc_STAT c) (by simp)
  have hctl := hreq (Reg.CAN_Cc_CTL c) (by simp)
  have hcan : getCan c r = getCan c s := getCan_usedBy c w s
  refine ⟨?_, fun o ho => ?_, fun hfree hwait hon hlisten => ?_, ?_⟩
  · rw [getReg_offerCan, show getReg (Reg.CAN_Cc_TX_REQ c) r = _ from getReg_setReg_same _ _ _, getReg_usedBy]
  · rw [getReg_offerCan, hreq o (by simpa using ho)]
  · have hbus : ∀ f, onBus c f r = onBus c f s := fun f => by
      unfold onBus regFld
      rw [hstat]
    simp only [t, sending_offerCan (hcan ▸ hfree) (hcan ▸ hwait) ((canOn_congr hctl hstat).trans hon)
      ((congrArg (bit · 29) hctl).trans hlisten), hbus]
  · have hpop : Reg.CAN_Cc_TX_REQ c ≠ Reg.MEM_POP := by simp only [Reg.CAN_Cc_TX_REQ, Reg.MEM_POP]; omega
    have hoffer : CansOnly (fun _ => False) r t := cansOnly_offerCan c r
    exact memKept_trans (memKept_step hpop (memKept_usedBy w s) _) (hoffer.memKept id)

/-! ### The end of a transmission (R296) -/

/-- The registers of the transmit event FIFO's entries. -/
abbrev eventEntryReg (c o : Nat) : Prop := 0x705000 + 0x40000 * c ≤ o ∧ o < 0x705200 + 0x40000 * c

/-- An event changes its entry, the tail, and where the FIFO is full its overflow flag. -/
theorem cansOnly_pushEvent (c : Nat) (stamp : Word64) (tag : Word) (s : State) :
    CansOnly (fun o => o = Reg.CAN_Cc_STAT c ∨ o = Reg.CAN_Cc_TXE_TAIL c ∨ eventEntryReg c o) s
      (pushEvent c stamp tag s) := by
  unfold pushEvent
  refine .ite (.setReg (.inl rfl) _ s) ?_
  have htail := fld_lt (getReg (Reg.CAN_Cc_TXE_TAIL c) s) 4 0
  refine .trans ((cansOnly_storeWords _ _ s).mono fun o ho => .inr (.inr ?_))
    (.trans (.setReg (o := Reg.CAN_Cc_TXE_TAIL c) (.inr (.inl rfl)) _ _) (.setCan c _ _))
  simp only [regFld, Reg.CAN_Cc_TXE_FIFO, List.length_cons, List.length_nil] at ho
  omega

theorem pushEvent_full {c : Nat} {s : State} (h : (getCan c s).txeFull = true) (stamp : Word64) (tag : Word) :
    pushEvent c stamp tag s = orReg (Reg.CAN_Cc_STAT c) 0x10000000 s := by
  simp only [pushEvent, h, if_true]

theorem pushEvent_room_eq {c : Nat} {s : State} (h : (getCan c s).txeFull = false) (stamp : Word64) (tag : Word) :
    ∃ x, pushEvent c stamp tag s =
      setCan c x (setReg (Reg.CAN_Cc_TXE_TAIL c) (word ((regFld (Reg.CAN_Cc_TXE_TAIL c) 4 0 s + 1) % 32))
        (storeWords (Reg.CAN_Cc_TXE_FIFO c (4 * regFld (Reg.CAN_Cc_TXE_TAIL c) 4 0 s)) [lo32 stamp, hi32 stamp, tag, 0] s)) :=
  ⟨_, if_neg (by simp [h])⟩

/-- Where the FIFO has room the event stands in the entry at the tail, which moves on. -/
theorem pushEvent_room {c : Nat} {s : State} (h : (getCan c s).txeFull = false) (stamp : Word64) (tag : Word) :
    let n := regFld (Reg.CAN_Cc_TXE_TAIL c) 4 0 s
    let t := pushEvent c stamp tag s
    (∀ i (hi : i < 4), getReg (Reg.CAN_Cc_TXE_FIFO c (4 * n + i)) t = [lo32 stamp, hi32 stamp, tag, 0][i]) ∧
      regFld (Reg.CAN_Cc_TXE_TAIL c) 4 0 t = (n + 1) % 32 := by
  intro n t
  obtain ⟨x, ht⟩ : ∃ x, t = _ := pushEvent_room_eq h stamp tag
  rw [ht]
  refine ⟨fun i hi => ?_, ?_⟩
  · have haddr : Reg.CAN_Cc_TXE_FIFO c (4 * n + i) = Reg.CAN_Cc_TXE_FIFO c (4 * n) + 4 * i := by
      simp only [Reg.CAN_Cc_TXE_FIFO]
      omega
    have htail : Reg.CAN_Cc_TXE_FIFO c (4 * n + i) ≠ Reg.CAN_Cc_TXE_TAIL c := by
      simp only [Reg.CAN_Cc_TXE_FIFO, Reg.CAN_Cc_TXE_TAIL]
      omega
    rw [getReg_setCan, getReg_setReg_other _ _ htail, haddr, getReg_storeWords hi]
  · rw [regFld, getReg_setCan, getReg_setReg_same]
    exact fld_word (hi := 4) (Nat.mod_lt _ (by decide)) (by decide)

/-- A frame has gone out. -/
def frameSent (c : Nat) (f : CanFrame) (s : State) : State :=
  emit (.canFrame c f) (setCan c { getCan c s with sending := none } s)

/-- A buffer whose frame has gone out, with its event. -/
def bufferDone (c age b : Nat) (f : CanFrame) (s : State) : State :=
  orReg (Reg.CAN_Cc_TX_DONE c) (word (2 ^ b)) (setRegFld (Reg.CAN_Cc_TX_REQ c) b b 0
    (pushEvent c (s.clk.tick - BitVec.ofNat 64 age) (word b) (frameSent c f s)))

theorem txDone_buffer {c b : Nat} {f : CanFrame} {s : State} (h : (getCan c s).sending = some (.buffer b, f)) (age : Nat) :
    let u := bufferDone c age b f s
    txDone c age s = offerCan c (setErr c (tec c u - 1) (rec_ c u) u) := by
  have hbusy : (getCan c s).sending.isSome = true := by rw [h, Option.isSome_some]
  simp only [txDone, offerCan_sending hbusy, h, bufferDone]
  rfl

section
variable {c b : Nat} (age : Nat) (f : CanFrame) (s : State)

/-- TX_DONE and TX_REQ of a buffer that has been sent, and every register that neither they nor its event change. -/
theorem bufferDone_shows (hb : b < 32) :
    let p := pushEvent c (s.clk.tick - BitVec.ofNat 64 age) (word b) (frameSent c f s)
    let u := bufferDone c age b f s
    regBit (Reg.CAN_Cc_TX_DONE c) b u = true ∧ regBit (Reg.CAN_Cc_TX_REQ c) b u = false ∧
      ∀ o, o ≠ Reg.CAN_Cc_TX_DONE c → o ≠ Reg.CAN_Cc_TX_REQ c → getReg o u = getReg o p := by
  intro p u
  refine ⟨?_, ?_, fun o hdone hreq => ?_⟩
  · rw [show regBit (Reg.CAN_Cc_TX_DONE c) b u = bit _ b from regBit_setReg_same _ _ _ _, bit_or, bit_word_two_pow hb,
      Bool.or_true]
  · refine (regBit_setReg_other b _ _ (by simp)).trans ?_
    rw [regBit_setRegFld_inside _ _ _ _ _ _ hb le_rfl le_rfl, Nat.zero_testBit]
  · exact (getReg_setReg_other _ _ hdone).trans (getReg_setReg_other _ _ hreq)

/-- The end of a transmission changes registers of the controllers alone. -/
theorem cansOnly_bufferDone (hc : c < 4) : CansOnly canReg (frameSent c f s) (bufferDone c age b f s) := by
  refine .trans ((cansOnly_pushEvent c _ _ _).mono fun o ho => ?_)
    (.trans (.setReg (o := Reg.CAN_Cc_TX_REQ c) ?_ _ _) (.setReg (o := Reg.CAN_Cc_TX_DONE c) ?_ _ _))
  · simp only [Reg.CAN_Cc_STAT, Reg.CAN_Cc_TXE_TAIL, eventEntryReg] at ho
    omega
  · simp only [Reg.CAN_Cc_TX_REQ]
    omega
  · simp only [Reg.CAN_Cc_TX_DONE]
    omega

end

theorem cansOnly_setErr_canReg {c : Nat} (hc : c < 4) (t r : Nat) (s : State) : CansOnly canReg s (setErr c t r s) :=
  (cansOnly_setErr c t r s).mono fun o ho => by
    simp only [Reg.CAN_Cc_ERRCNT, Reg.CAN_Cc_STAT] at ho
    omega

/-- What the end of the transmission of a buffer's frame leaves. -/
theorem txDone_leaves {c b : Nat} (hc : c < 4) (hb : b < 32) {f : CanFrame} {s : State}
    (h : (getCan c s).sending = some (.buffer b, f)) (age : Nat) :
    let t := txDone c age s
    let stamp := s.clk.tick - BitVec.ofNat 64 age
    let n := regFld (Reg.CAN_Cc_TXE_TAIL c) 4 0 s
    t.outbox = s.outbox ++ [Out.canFrame c f] ∧
      regBit (Reg.CAN_Cc_TX_DONE c) b t = true ∧ regBit (Reg.CAN_Cc_TX_REQ c) b t = false ∧
      ((getCan c s).txeFull = false →
        (∀ i (hi : i < 4), getReg (Reg.CAN_Cc_TXE_FIFO c (4 * n + i)) t = [lo32 stamp, hi32 stamp, word b, 0][i]) ∧
          regFld (Reg.CAN_Cc_TXE_TAIL c) 4 0 t = (n + 1) % 32) ∧
      ((getCan c s).txeFull = true → regBit (Reg.CAN_Cc_STAT c) 28 t = true) ∧ memKept s t := by
  intro t stamp n
  obtain ⟨hdone, hreq, hrest⟩ := bufferDone_shows (c := c) age f s hb
  have ht : t = _ := txDone_buffer h age
  have hregs : ∀ o, o ≠ Reg.CAN_Cc_ERRCNT c → o ≠ Reg.CAN_Cc_STAT c → getReg o t = getReg o (bufferDone c age b f s) := by
    intro o herr hstat
    rw [ht, getReg_offerCan, (cansOnly_setErr c _ _ _).regs o (by simp only [herr, hstat, or_self, not_false_eq_true])]
  have hcan : (getCan c (frameSent c f s)).txeFull = (getCan c s).txeFull := by
    rw [show getCan c (frameSent c f s) = { getCan c s with sending := none } from getCan_setCan_same _ _ _]
  have honly : CansOnly canReg (frameSent c f s) t := ht ▸ (cansOnly_bufferDone age f s hc).trans
    ((cansOnly_setErr_canReg hc _ _ _).trans (cansOnly_offerCan c _))
  have hsent : CansOnly (fun _ => False) s (setCan c { getCan c s with sending := none } s) := .setCan c _ s
  refine ⟨honly.outbox, ?_, ?_, fun hroom => ?_, fun hfull => ?_, ?_⟩
  · rw [regBit, hregs _ (by simp) (by simp)]
    exact hdone
  · rw [regBit, hregs _ (by simp) (by simp)]
    exact hreq
  · obtain ⟨hentry, htail⟩ := pushEvent_room (hcan.trans hroom) stamp (word b)
    refine ⟨fun i hi => ?_, ?_⟩
    · have haddr : ∀ o, o < 0x700040 + 0x40000 * c → Reg.CAN_Cc_TXE_FIFO c (4 * n + i) ≠ o := fun o ho => by
        simp only [Reg.CAN_Cc_TXE_FIFO]
        omega
      rw [hregs _ (haddr _ (by simp)) (haddr _ (by simp)), hrest _ (haddr _ (by simp)) (haddr _ (by simp))]
      exact hentry i hi
    · rw [regFld, hregs _ (by simp) (by simp), hrest _ (by simp) (by simp)]
      exact htail
  · rw [ht, regBit, getReg_offerCan, ← regBit, regBit_stat_setErr (by decide), regBit, hrest _ (by simp) (by simp),
      pushEvent_full (hcan.trans hfull), orReg_eq, getReg_setReg_same, bit_or]
    exact Bool.or_true _
  · exact memKept_trans (memKept_trans (hsent.memKept id) (memKept_emit _ _))
      (honly.memKept (by simp only [canReg, Reg.MEM_POP]; omega))

/-! ### A lost arbitration (R294) -/

/-- A frame that has lost arbitration is back at its place, and the controller waits for the bus (log entry 113). -/
theorem arbitrationLost_eq {c : Nat} {f : CanSource × CanFrame} {s : State} (h : (getCan c s).sending = some f) :
    arbitrationLost c s =
      setCan c { getCan c (returnFrame c f s) with waiting := true } (returnFrame c f s) := by
  have hbusy : (getCan c s).sending.isSome = true := by rw [h, Option.isSome_some]
  simp only [arbitrationLost, offerCan_sending hbusy, h]

theorem arbitrationLost_leaves {c : Nat} {src : CanSource} {f : CanFrame} {s : State}
    (h : (getCan c s).sending = some (src, f)) :
    let t := arbitrationLost c s
    (getCan c t).sending = none ∧ (getCan c t).waiting = true ∧ t.outbox = s.outbox ∧
      getReg (Reg.CAN_Cc_TX_REQ c) t = getReg (Reg.CAN_Cc_TX_REQ c) s ∧
      (src = .safety → (getCan c t).safety.isSome = true) ∧
      (∀ k, src = .axis k → (tget (fun _ => none) (getCan c t).axisTx k).isSome = true) := by
  intro t
  have ht : t = _ := arbitrationLost_eq h
  have hback := returned_returnFrame c (src, f) s
  have honly : CansOnly (· = Reg.CAN_Cc_REPLACED c) s t := ht ▸ (cansOnly_returnFrame c _ s).trans (.setCan c _ _)
  rw [ht, getCan_setCan_same, ← ht]
  exact ⟨hback.sending, rfl, honly.outbox, honly.regs _ (by simp), hback.safety, hback.axis⟩

/-! ### O49 -/

/-- Settles O49: each write is a write of its register, a sent buffer leaves its event, and what lost arbitration is back where
it came from. -/
theorem canTransmission : Obligations.CanTransmission := by
  unfold Obligations.CanTransmission
  refine ⟨fun w c d v s hw => ?_, fun w c v s hw => ?_, fun w c v s hw => ?_, fun c age b f s hsend hb => ?_,
    fun c src f s hsend => ⟨_, rfl, arbitrationLost_leaves hsend⟩⟩
  · intro o
    refine ⟨fun hcfg => ⟨_, (exec_bitTimingWrite w c v hw d).trans (by rw [if_pos hcfg]), ?_⟩, fun hcfg => ?_⟩
    · cases d
      · exact nominalTiming_written c v (usedBy w s)
      · exact dataTiming_written c v (usedBy w s)
    · rw [exec_bitTimingWrite w c v hw d, hcfg, if_neg Bool.false_ne_true]
  · exact ⟨_, exec_canTxRequest w c v hw, canTxRequest_leaves w c v s⟩
  · refine ⟨_, exec_canTxAbort w c v hw, ?_, onlyRegs_setReg _ _ _⟩
    rw [modReg_eq, getReg_setReg_same, getReg_usedBy]
  · obtain ⟨hout, hdone, hreq, hroom, hfull, hmem⟩ := txDone_leaves c.isLt hb hsend age
    refine ⟨_, rfl, hout, hdone, hreq, fun h => ?_, hfull, hmem⟩
    obtain ⟨hentry, htail⟩ := hroom h
    exact ⟨hentry 0 (by decide), hentry 1 (by decide), hentry 2 (by decide), htail⟩

end Sys2Proof.Machine
end

section
/-! CAN FD errors, the recovery from bus-off and the reception of frames (R293, R297, R299), and the settlement of O50. -/

namespace Sys2Proof.Machine

open Sys2Proof.Config

/-! ### Bus errors (R293) -/

/-- TEC after an error, before it is cut to its width: 8 more of a transmitter but in the two cases that ISO exempts. -/
def tecAfterError (c : Nat) (tx : Bool) (kind : CanErr) (s : State) : Nat :=
  if tx && kind != .exempt then tec c s + 8 else tec c s

/-- REC after an error, before it is cut to its width: 1 more of a receiver, or 8. -/
def recAfterError (c : Nat) (tx : Bool) (kind : CanErr) (s : State) : Nat :=
  if tx then rec_ c s else rec_ c s + (if kind = .heavy then 8 else 1)

/-- The bus after an error: what was being sent is back at its place, and nothing waits for the bus. -/
def errorYielded (c : Nat) (tx : Bool) (s : State) : State :=
  let u := yieldBus c (if tx then offerCan c s else s)
  setCan c { getCan c u with waiting := false } u

theorem cansOnly_errorYielded (c : Nat) (tx : Bool) (s : State) :
    CansOnly (· = Reg.CAN_Cc_REPLACED c) s (errorYielded c tx s) := by
  unfold errorYielded
  exact .trans (.ite (cansOnly_offerCan c s) (.refl s)) ((cansOnly_yieldBus c _).trans (.setCan c _ _))

theorem busError_eq {c : Nat} {s : State} (hon : canOn c s = true) (tx : Bool) (kind : CanErr) :
    let n := tecAfterError c tx kind s
    let u := setErr c n (recAfterError c tx kind s) (errorYielded c tx s)
    busError c tx kind s = if 255 < n then goBusOff c u else u := by
  intro n u
  have hcount := (cansOnly_errorYielded c tx s).regs (Reg.CAN_Cc_ERRCNT c) (by simp)
  have htec : tecAfterError c tx kind (errorYielded c tx s) = n := by simp only [n, tecAfterError, tec, regFld, hcount]
  have hrec : recAfterError c tx kind (errorYielded c tx s) = recAfterError c tx kind s := by
    simp only [recAfterError, rec_, regFld, hcount]
  unfold busError
  rw [if_neg (by simp [hon])]
  extract_lets x y v p q r
  have hr : r = u := congrArg₂ (setErr c · · v) htec hrec
  rw [show p = n from htec, hr]

theorem cansOnly_goBusOff (c : Nat) (s : State) :
    CansOnly (fun o => o = Reg.CAN_Cc_STAT c ∨ o = Reg.CAN_Cc_BUSOFF_COUNT c) s (goBusOff c s) := by
  unfold goBusOff
  exact .trans (.setReg (o := Reg.CAN_Cc_STAT c) (.inl rfl) _ s)
    (.trans (.setReg (o := Reg.CAN_Cc_BUSOFF_COUNT c) (.inr rfl) _ _) (.setCan c _ _))

/-- Bus-off is counted, drops the axis frames, and with AUTO_RECOVER is left at once. -/
theorem goBusOff_shows (c : Nat) (s : State) :
    canState c (goBusOff c s) = (if regBit (Reg.CAN_Cc_CTL c) 28 s then 3 else 2) ∧
      getReg (Reg.CAN_Cc_BUSOFF_COUNT c) (goBusOff c s) = countUp (getReg (Reg.CAN_Cc_BUSOFF_COUNT c) s) 1 ∧
      (getCan c (goBusOff c s)).axisTx = [] ∧ (getCan c (goBusOff c s)).sending = none := by
  unfold goBusOff
  extract_lets u
  refine ⟨?_, ?_, by rw [getCan_setCan_same], by rw [getCan_setCan_same]⟩
  · rw [canState, regFld, getReg_setCan, bumpReg_eq, getReg_setReg_other _ _ (by simp), ← regFld,
      regFld_setRegFld_same _ _ _ _ _ (by decide)]
    split <;> rfl
  · have hcount : getReg (Reg.CAN_Cc_BUSOFF_COUNT c) u = getReg (Reg.CAN_Cc_BUSOFF_COUNT c) s :=
      getReg_setReg_other _ _ (by simp)
    rw [getReg_setCan, bumpReg_eq, getReg_setReg_same, hcount]

/-- What a bus error leaves of a controller on the bus. -/
theorem busError_leaves {c : Nat} (hc : c < 4) {s : State} (hon : canOn c s = true) (tx : Bool) (kind : CanErr) :
    let n := tecAfterError c tx kind s
    let m := recAfterError c tx kind s
    let t := busError c tx kind s
    tec c t = min 511 n ∧ rec_ c t = min 255 m ∧ memKept s t ∧
      (n ≤ 255 → canState c t = if 127 < n ∨ 127 < m then 1 else 0) ∧
      (255 < n → canState c t = (if regBit (Reg.CAN_Cc_CTL c) 28 s then 3 else 2) ∧
        getReg (Reg.CAN_Cc_BUSOFF_COUNT c) t = countUp (getReg (Reg.CAN_Cc_BUSOFF_COUNT c) s) 1 ∧
        (getCan c t).axisTx = [] ∧ (getCan c t).sending = none) := by
  intro n m t
  have ht : t = _ := busError_eq hon tx kind
  have hyield := cansOnly_errorYielded c tx s
  obtain ⟨htec, hrec, hstate⟩ := setErr_shows c n m (errorYielded c tx s)
  have herr := cansOnly_setErr c n m (errorYielded c tx s)
  have hyielded : CansOnly canReg s (errorYielded c tx s) := hyield.mono fun o ho => by
    simp only [Reg.CAN_Cc_REPLACED] at ho
    omega
  have honly := hyielded.trans (cansOnly_setErr_canReg hc n m _)
  have hpop : ¬ canReg Reg.MEM_POP := by decide
  by_cases hoff : 255 < n
  · rw [ht, if_pos hoff]
    have hbus := cansOnly_goBusOff c (setErr c n m (errorYielded c tx s))
    have hcount := hbus.regs (Reg.CAN_Cc_ERRCNT c) (by simp)
    have hkept : ∀ o, o ≠ Reg.CAN_Cc_ERRCNT c → o ≠ Reg.CAN_Cc_STAT c → o ≠ Reg.CAN_Cc_REPLACED c →
        getReg o (setErr c n m (errorYielded c tx s)) = getReg o s := fun o h1 h2 h3 =>
      (herr.regs o (not_or.mpr ⟨h1, h2⟩)).trans (hyield.regs o h3)
    obtain ⟨hstat, hcounted, haxis, hsending⟩ := goBusOff_shows c (setErr c n m (errorYielded c tx s))
    rw [regBit, hkept _ (by simp) (by simp) (by simp), ← regBit] at hstat
    rw [hkept _ (by simp) (by simp) (by simp)] at hcounted
    refine ⟨?_, ?_, (honly.trans (hbus.mono fun o ho => ?_)).memKept hpop, fun h => absurd hoff (not_lt.mpr h),
      fun _ => ⟨hstat, hcounted, haxis, hsending⟩⟩
    · rw [tec, regFld, hcount, ← htec, tec, regFld]
    · rw [rec_, regFld, hcount, ← hrec, rec_, regFld]
    · simp only [Reg.CAN_Cc_STAT, Reg.CAN_Cc_BUSOFF_COUNT] at ho
      omega
  · rw [ht, if_neg hoff]
    exact ⟨htec, hrec, honly.memKept hpop, fun _ => hstate, fun h => absurd h hoff⟩

/-! ### The recovery from bus-off (R293) -/

theorem exec_canRecover (w : Writer) (c : Fin 4) {s : State} (hw : writesNow w s = true) : exec (.canRecover w c) s =
    .next (if canState c s = 2 then setRegFld (Reg.CAN_Cc_STAT c) 31 30 3 (usedBy w s) else usedBy w s) := by
  rw [canState, ← regFld_usedBy _ _ _ w s]
  exact congrArg Host.Outcome.next (asWriter_now w _ _ s hw)

theorem recoveryComplete_eq {c : Nat} {s : State} (h : canState c s = 3) :
    ∃ x, recoveryComplete c s = offerCan c (setCan c x (setErr c 0 0 s)) := ⟨_, if_pos h⟩

/-- The end of a recovery: error-active with both counters 0. -/
theorem recoveryComplete_leaves {c : Nat} (hc : c < 4) {s : State} (h : canState c s = 3) :
    let t := recoveryComplete c s
    canState c t = 0 ∧ getReg (Reg.CAN_Cc_ERRCNT c) t = 0 ∧ regsKept [Reg.CAN_Cc_STAT c, Reg.CAN_Cc_ERRCNT c] s t ∧
      memKept s t := by
  intro t
  obtain ⟨x, ht⟩ : ∃ x, t = _ := recoveryComplete_eq h
  have hregs : ∀ o, getReg o t = getReg o (setErr c 0 0 s) := fun o => by rw [ht, getReg_offerCan, getReg_setCan]
  refine ⟨?_, ?_, fun o ho => ?_, ?_⟩
  · rw [canState, regFld, hregs, ← regFld]
    exact (setErr_shows c 0 0 s).2.2
  · rw [hregs, setErr, setRegFld_eq, getReg_setReg_other _ _ (by simp), getReg_setReg_same]
    rfl
  · simp only [List.mem_cons, List.not_mem_nil, or_false, not_or] at ho
    rw [hregs, (cansOnly_setErr c 0 0 s).regs o (not_or.mpr ho.symm)]
  · have hset := (cansOnly_setErr_canReg hc 0 0 s).trans (.setCan c x _)
    exact ht ▸ (hset.trans (cansOnly_offerCan c _)).memKept (by decide)

/-! ### The reception of a frame (R297, R299) -/

/-- The state in which a received frame is stored: what was chosen has gone back, and a good reception has eased REC. -/
def rxCounted (c : Nat) (s : State) : State :=
  let u := yieldBus c s
  if 127 < rec_ c u then setErr c (tec c u) (119 + goodRec u.freeCtr % 9) (useFree u)
  else setErr c (tec c u) (rec_ c u - 1) u

/-- The end of a reception: the bus is free. -/
def rxEnd (c : Nat) (s : State) : State := offerCan c (setCan c { getCan c s with waiting := false } s)

theorem cansOnly_rxCounted (c : Nat) (s : State) :
    CansOnly (fun o => o = Reg.CAN_Cc_REPLACED c ∨ o = Reg.CAN_Cc_ERRCNT c ∨ o = Reg.CAN_Cc_STAT c) s (rxCounted c s) := by
  have herr (t r : Nat) (u : State) := (cansOnly_setErr c t r u).mono
    (Q := fun o => o = Reg.CAN_Cc_REPLACED c ∨ o = Reg.CAN_Cc_ERRCNT c ∨ o = Reg.CAN_Cc_STAT c) fun _ ho => .inr ho
  unfold rxCounted
  exact ((cansOnly_yieldBus c s).mono fun _ ho => .inl ho).trans (.ite (.trans (.useFree _) (herr _ _ _)) (herr _ _ _))

theorem getCan_rxCounted (c : Nat) (s : State) : getCan c (rxCounted c s) = getCan c (yieldBus c s) := by
  unfold rxCounted
  dsimp only
  split <;> rfl

theorem cansOnly_rxEnd {P : Nat → Prop} (c : Nat) (s : State) : CansOnly P s (rxEnd c s) :=
  (CansOnly.setCan c _ s).trans (cansOnly_offerCan c _)

theorem getReg_rxEnd (o c : Nat) (s : State) : getReg o (rxEnd c s) = getReg o s :=
  (cansOnly_rxEnd (P := fun _ => False) c s).regs o id

theorem meas_rxEnd (c : Nat) (s : State) : (getCan c (rxEnd c s)).meas = (getCan c s).meas := by
  rw [rxEnd, meas_offerCan, getCan_setCan_same]

section
variable {c : Nat} (f : CanFrame) {s t : State}

/-- Which axis a frame measures rests on the axis table. -/
theorem measEntry_congr (h : ∀ i, getReg (Reg.CAN_Cc_AXIS_TABLE c i) t = getReg (Reg.CAN_Cc_AXIS_TABLE c i) s) :
    measEntry c f t = measEntry c f s := by
  have hentry : ∀ k i, axisEntry c k i t = axisEntry c k i s := fun k i => h _
  unfold measEntry
  split
  · refine List.find?_congr fun k _ => ?_
    rw [hentry, hentry]
  · rfl

/-- Which filter a frame matches rests on the filters. -/
theorem matchFilter_congr (hid : ∀ k, getReg (Reg.CAN_Cc_FILTf_ID c k) t = getReg (Reg.CAN_Cc_FILTf_ID c k) s)
    (hmask : ∀ k, getReg (Reg.CAN_Cc_FILTf_MASK c k) t = getReg (Reg.CAN_Cc_FILTf_MASK c k) s) :
    matchFilter c f t = matchFilter c f s := by
  unfold matchFilter
  refine List.find?_congr fun k _ => ?_
  rw [hid, hmask]

theorem matchFilter_lt {k : Nat} (h : matchFilter c f s = some k) : k < 32 :=
  List.mem_range.mp (List.mem_of_find?_eq_some h)

/-- The count of a reception moves no register beyond the counters. -/
theorem getReg_rxCounted {o : Nat} (ho : o ≠ Reg.CAN_Cc_REPLACED c) (he : o ≠ Reg.CAN_Cc_ERRCNT c)
    (hs : o ≠ Reg.CAN_Cc_STAT c) : getReg o (rxCounted c s) = getReg o s :=
  (cansOnly_rxCounted c s).regs o (by simp only [ho, he, hs, or_self, not_false_eq_true])

/-- Registers past the control window. -/
theorem getReg_rxCounted_past {o : Nat} (h : 0x700100 + 0x40000 * c ≤ o) : getReg o (rxCounted c s) = getReg o s := by
  refine getReg_rxCounted ?_ ?_ ?_ <;> simp only [Reg.CAN_Cc_REPLACED, Reg.CAN_Cc_ERRCNT, Reg.CAN_Cc_STAT] <;> omega

theorem measEntry_rxCounted : measEntry c f (rxCounted c s) = measEntry c f s :=
  measEntry_congr f fun i => getReg_rxCounted_past (by simp only [Reg.CAN_Cc_AXIS_TABLE]; omega)

theorem matchFilter_rxCounted : matchFilter c f (rxCounted c s) = matchFilter c f s :=
  matchFilter_congr f (fun k => getReg_rxCounted_past (by simp only [Reg.CAN_Cc_FILTf_ID]; omega))
    (fun k => getReg_rxCounted_past (by simp only [Reg.CAN_Cc_FILTf_MASK]; omega))

/-- A frame has been heard by the entry that it measures. -/
def measHeard (c k : Nat) (h : Heard) (s : State) : State :=
  setCan c { getCan c s with
    meas := tset (fun _ => []) k (hearFrame s.srv.cutoffAt h (tget (fun _ => []) (getCan c s).meas k)) (getCan c s).meas } s

variable (age : Nat) {k : Nat} (hon : canOn c s = true)
include hon

/-- A good measurement frame is kept for the cutoffs (R299). -/
theorem rxFrame_measured (hmeas : measEntry c f s = some k) (hlen : 12 ≤ f.data.length)
    (hvalid : (byteAt f.data 8).testBit 0 = true) : rxFrame c f age s =
      rxEnd c (measHeard c k ⟨f.data, now s, s.clk.tick - BitVec.ofNat 64 age, false⟩ (rxCounted c s)) := by
  have hentry : measEntry c f (rxCounted c s) = some k := (measEntry_rxCounted f).trans hmeas
  have hyield : (yieldBus c s).clk = s.clk := (cansOnly_yieldBus c s).clk
  have hnow : now (rxCounted c s) = now s := (cansOnly_rxCounted c s).now
  unfold rxFrame
  rw [if_neg (by simp [hon])]
  extract_lets u stamp v x w
  have hw : w = measHeard c k ⟨f.data, now v, stamp, false⟩ v := by
    simp only [w, show v = rxCounted c s from rfl, hentry, hlen, hvalid, and_self, if_true]
    rfl
  rw [← rxEnd, hw, show v = rxCounted c s from rfl, hnow, show stamp = s.clk.tick - BitVec.ofNat 64 age by rw [← hyield]]

/-- A frame that measures no axis goes by its lowest matching filter (R297). -/
theorem rxFrame_filtered (hmeas : measEntry c f s = none) (hfilter : matchFilter c f s = some k) : rxFrame c f age s =
    rxEnd c (storeFrame c k f (s.clk.tick - BitVec.ofNat 64 age) (rxCounted c s)) := by
  have hentry : measEntry c f (rxCounted c s) = none := (measEntry_rxCounted f).trans hmeas
  have hmatch : matchFilter c f (rxCounted c s) = some k := (matchFilter_rxCounted f).trans hfilter
  have hyield : (yieldBus c s).clk = s.clk := (cansOnly_yieldBus c s).clk
  unfold rxFrame
  rw [if_neg (by simp [hon])]
  extract_lets u stamp v x w
  have hw : w = storeFrame c k f stamp v := by
    simp only [w, show v = rxCounted c s from rfl, hentry, hmatch]
  rw [← rxEnd, hw, show v = rxCounted c s from rfl, show stamp = s.clk.tick - BitVec.ofNat 64 age by rw [← hyield]]

end

/-! ### The receive FIFO (R297, R301) -/

/-- The second word of an entry: ESI, RTR, the filter's number and the DLC. -/
def rxEntryInfo (k : Nat) (f : CanFrame) : Word := word (f.esi.toNat * 2 ^ 31 + f.rtr.toNat * 2 ^ 30 + k * 2 ^ 16 + f.dlc.toNat)

/-- The words of an entry. -/
def rxEntryWords (k : Nat) (f : CanFrame) (stamp : Word64) : List Word :=
  [idWord f, rxEntryInfo k f, lo32 stamp, hi32 stamp] ++ (List.range 16).map (fun i => wordAt (slice f.data 0 64) (4 * i))

theorem length_rxEntryWords (k : Nat) (f : CanFrame) (stamp : Word64) : (rxEntryWords k f stamp).length = 20 := by
  simp only [rxEntryWords, List.length_append, List.length_cons, List.length_nil, List.length_map, List.length_range]

/-- The data stand in the words from the fifth on. -/
theorem rxEntryWords_data (k : Nat) (f : CanFrame) (stamp : Word64) {i : Nat} (hi : i < 16) :
    (rxEntryWords k f stamp)[4 + i]'(by rw [length_rxEntryWords]; omega) = wordAt (slice f.data 0 64) (4 * i) := by
  simp only [rxEntryWords]
  rw [List.getElem_append_right (by simp)]
  simp

theorem fld_rxEntryInfo {k : Nat} (hk : k < 32) (f : CanFrame) : fld (rxEntryInfo k f) 20 16 = k := by
  have hesi := f.esi.toNat_lt
  have hrtr := f.rtr.toNat_lt
  have hdlc := f.dlc.isLt
  simp only [rxEntryInfo, fld, word, BitVec.toNat_ofNat]
  omega

section
variable {c : Nat} (k : Nat) (f : CanFrame) (stamp : Word64) {s : State}

theorem storeFrame_room_eq (h : (getCan c s).rxFull = false) : ∃ x, storeFrame c k f stamp s =
    setCan c x (setReg (Reg.CAN_Cc_RX_TAIL c) (word ((regFld (Reg.CAN_Cc_RX_TAIL c) 5 0 s + 1) % 64))
      (storeWords (Reg.CAN_Cc_RX_FIFO c (20 * regFld (Reg.CAN_Cc_RX_TAIL c) 5 0 s)) (rxEntryWords k f stamp) s)) :=
  ⟨_, if_neg (by simp [h])⟩

/-- Where the FIFO has room a frame stands in the entry at the tail, which moves on. -/
theorem storeFrame_room (h : (getCan c s).rxFull = false) :
    let n := regFld (Reg.CAN_Cc_RX_TAIL c) 5 0 s
    let t := storeFrame c k f stamp s
    regFld (Reg.CAN_Cc_RX_TAIL c) 5 0 t = (n + 1) % 64 ∧
      ∀ i (hi : i < (rxEntryWords k f stamp).length),
        getReg (Reg.CAN_Cc_RX_FIFO c (20 * n + i)) t = (rxEntryWords k f stamp)[i] := by
  intro n t
  obtain ⟨x, ht⟩ : ∃ x, t = _ := storeFrame_room_eq k f stamp h
  rw [ht]
  refine ⟨?_, fun i hi => ?_⟩
  · rw [regFld, getReg_setCan, getReg_setReg_same]
    exact fld_word (hi := 5) (Nat.mod_lt _ (by decide)) (by decide)
  · have haddr : Reg.CAN_Cc_RX_FIFO c (20 * n + i) = Reg.CAN_Cc_RX_FIFO c (20 * n) + 4 * i := by
      simp only [Reg.CAN_Cc_RX_FIFO]
      omega
    have htail : Reg.CAN_Cc_RX_FIFO c (20 * n + i) ≠ Reg.CAN_Cc_RX_TAIL c := by
      simp only [Reg.CAN_Cc_RX_FIFO, Reg.CAN_Cc_RX_TAIL]
      omega
    rw [getReg_setCan, getReg_setReg_other _ _ htail, haddr, getReg_storeWords hi]

theorem cansOnly_storeFrame_room (hc : c < 4) (h : (getCan c s).rxFull = false) :
    CansOnly canReg s (storeFrame c k f stamp s) := by
  obtain ⟨x, ht⟩ := storeFrame_room_eq k f stamp h
  have htail := fld_lt (getReg (Reg.CAN_Cc_RX_TAIL c) s) 5 0
  rw [ht]
  refine .trans ((cansOnly_storeWords _ _ s).mono fun o ho => ?_)
    (.trans (.setReg (o := Reg.CAN_Cc_RX_TAIL c) ?_ _ _) (.setCan c x _))
  · rw [length_rxEntryWords] at ho
    simp only [regFld, Reg.CAN_Cc_RX_FIFO] at ho
    omega
  · simp only [Reg.CAN_Cc_RX_TAIL]
    omega

/-- A full FIFO loses a frame: the overflow flag and the count show it, and perhaps an event. -/
theorem storeFrame_full (h : (getCan c s).rxFull = true) :
    let u := bumpReg (Reg.CAN_Cc_RX_LOST c) 1 (orReg (Reg.CAN_Cc_STAT c) 0x20000000 s)
    let t := storeFrame c k f stamp s
    (∀ o, o ≠ Reg.MGT_EVT_LOST → getReg o t = getReg o u) ∧ memKept u t := by
  intro u t
  have ht : t = if !regBit (Reg.CAN_Cc_STAT c) 29 s then raise Src.can .canRxOverflow Code.overrun [] u else u := if_pos h
  rw [ht]
  split
  · exact ⟨fun o ho => getReg_raise o _ _ _ _ u ho, memKept_raise _ _ _ _ u⟩
  · exact ⟨fun _ _ => rfl, memKept_refl u⟩

end

/-! ### What a reception leaves (R297, R299) -/

theorem cansOnly_rxCounted_canReg {c : Nat} (hc : c < 4) (s : State) : CansOnly canReg s (rxCounted c s) :=
  (cansOnly_rxCounted c s).mono fun o ho => by
    simp only [Reg.CAN_Cc_REPLACED, Reg.CAN_Cc_ERRCNT, Reg.CAN_Cc_STAT] at ho
    omega

section
variable {c : Nat} (hc : c < 4) (f : CanFrame) (age : Nat) {k : Nat} {s : State} (hon : canOn c s = true)

include hc hon

theorem rxFrame_measured_leaves (hmeas : measEntry c f s = some k) (hlen : 12 ≤ f.data.length)
    (hvalid : (byteAt f.data 8).testBit 0 = true) :
    let t := rxFrame c f age s
    tget (fun _ => []) (getCan c t).meas k = hearFrame s.srv.cutoffAt
        ⟨f.data, now s, s.clk.tick - BitVec.ofNat 64 age, false⟩ (tget (fun _ => []) (getCan c s).meas k) ∧
      getReg (Reg.CAN_Cc_RX_TAIL c) t = getReg (Reg.CAN_Cc_RX_TAIL c) s ∧ memKept s t := by
  intro t
  have ht : t = _ := rxFrame_measured f age hon hmeas hlen hvalid
  have hcount := cansOnly_rxCounted_canReg hc s
  have hheard : (getCan c (rxCounted c s)).meas = (getCan c s).meas := by
    rw [getCan_rxCounted, (received_yieldBus c s).1]
  refine ⟨?_, ?_, ?_⟩
  · rw [ht, meas_rxEnd, measHeard, getCan_setCan_same, tget_tset_same, hheard, hcount.srv]
  · rw [ht, getReg_rxEnd, measHeard, getReg_setCan, getReg_rxCounted (by simp) (by simp) (by simp)]
  · exact ht ▸ ((hcount.trans (.setCan c _ _)).trans (cansOnly_rxEnd c _)).memKept (by decide)

theorem rxFrame_stored_leaves (hmeas : measEntry c f s = none) (hfilter : matchFilter c f s = some k)
    (hroom : (getCan c s).rxFull = false) :
    let stamp := s.clk.tick - BitVec.ofNat 64 age
    let n := regFld (Reg.CAN_Cc_RX_TAIL c) 5 0 s
    let t := rxFrame c f age s
    regFld (Reg.CAN_Cc_RX_TAIL c) 5 0 t = (n + 1) % 64 ∧
      (∀ i (hi : i < (rxEntryWords k f stamp).length),
        getReg (Reg.CAN_Cc_RX_FIFO c (20 * n + i)) t = (rxEntryWords k f stamp)[i]) ∧ memKept s t := by
  intro stamp n t
  have ht : t = _ := rxFrame_filtered f age hon hmeas hfilter
  have hroom' : (getCan c (rxCounted c s)).rxFull = false := by
    rw [getCan_rxCounted, (received_yieldBus c s).2, hroom]
  have htail : regFld (Reg.CAN_Cc_RX_TAIL c) 5 0 (rxCounted c s) = n := by
    rw [regFld, getReg_rxCounted (by simp) (by simp) (by simp), ← regFld]
  obtain ⟨hmoved, hwords⟩ := storeFrame_room k f stamp hroom'
  rw [htail] at hmoved hwords
  refine ⟨?_, fun i hi => ?_, ?_⟩
  · rw [ht, regFld, getReg_rxEnd, ← regFld, hmoved]
  · rw [ht, getReg_rxEnd, hwords i hi]
  · exact ht ▸ (((cansOnly_rxCounted_canReg hc s).trans (cansOnly_storeFrame_room k f stamp hc hroom')).trans
      (cansOnly_rxEnd c _)).memKept (by decide)

theorem rxFrame_lost_leaves (hmeas : measEntry c f s = none) (hfilter : matchFilter c f s = some k)
    (hfull : (getCan c s).rxFull = true) :
    let t := rxFrame c f age s
    regBit (Reg.CAN_Cc_STAT c) 29 t = true ∧
      getReg (Reg.CAN_Cc_RX_LOST c) t = countUp (getReg (Reg.CAN_Cc_RX_LOST c) s) 1 ∧
      getReg (Reg.CAN_Cc_RX_TAIL c) t = getReg (Reg.CAN_Cc_RX_TAIL c) s ∧ memKept s t := by
  intro t
  have ht : t = _ := rxFrame_filtered f age hon hmeas hfilter
  have hfull' : (getCan c (rxCounted c s)).rxFull = true := by
    rw [getCan_rxCounted, (received_yieldBus c s).2, hfull]
  obtain ⟨hregs, hmem⟩ := storeFrame_full k f (s.clk.tick - BitVec.ofNat 64 age) hfull'
  have hlow : ∀ o, o < 0x800000 → getReg o t = getReg o (bumpReg (Reg.CAN_Cc_RX_LOST c) 1
      (orReg (Reg.CAN_Cc_STAT c) 0x20000000 (rxCounted c s))) := fun o ho => by
    rw [ht, getReg_rxEnd, hregs o (by simp only [Reg.MGT_EVT_LOST]; omega)]
  refine ⟨?_, ?_, ?_, ?_⟩
  · rw [regBit, hlow _ (by simp only [Reg.CAN_Cc_STAT]; omega), bumpReg_eq, getReg_setReg_other _ _ (by simp), orReg_eq,
      getReg_setReg_same, bit_or]
    exact Bool.or_true _
  · rw [hlow _ (by simp only [Reg.CAN_Cc_RX_LOST]; omega), bumpReg_eq, getReg_setReg_same, orReg_eq,
      getReg_setReg_other _ _ (by simp), getReg_rxCounted (by simp) (by simp) (by simp)]
  · rw [hlow _ (by simp only [Reg.CAN_Cc_RX_TAIL]; omega), bumpReg_eq, getReg_setReg_other _ _ (by simp), orReg_eq,
      getReg_setReg_other _ _ (by simp), getReg_rxCounted (by simp) (by simp) (by simp)]
  · have hcount := (cansOnly_rxCounted_canReg hc s).memKept (by decide)
    have hstat : Reg.CAN_Cc_STAT c ≠ Reg.MEM_POP := by simp only [Reg.CAN_Cc_STAT, Reg.MEM_POP]; omega
    have hlost : Reg.CAN_Cc_RX_LOST c ≠ Reg.MEM_POP := by simp only [Reg.CAN_Cc_RX_LOST, Reg.MEM_POP]; omega
    have hend := (cansOnly_rxEnd (P := fun _ => False) c (storeFrame c k f (s.clk.tick - BitVec.ofNat 64 age)
      (rxCounted c s))).memKept id
    exact ht ▸ memKept_trans (memKept_trans (memKept_step hlost (memKept_step hstat hcount _) _) hmem) hend

end

/-! ### O50 -/

/-- Settles O50: an error leaves its counters and the error state that they stand for, and a received frame comes to its axis's
latch, to its entry of the FIFO, or to the count of those lost. -/
theorem canErrorsAndReception : Obligations.CanErrorsAndReception := by
  unfold Obligations.CanErrorsAndReception
  refine ⟨fun c tx kind s hon => ⟨_, rfl, busError_leaves c.isLt hon tx kind⟩, fun w c s hw => ⟨fun h => ?_, fun h => ?_⟩,
    fun c s h => ⟨_, rfl, recoveryComplete_leaves c.isLt h⟩, fun c f age k s hon => ⟨fun hmeas hlen hvalid => ?_,
      fun hmeas hfilter hroom => ?_, fun hmeas hfilter hfull => ?_⟩⟩
  · refine ⟨_, (exec_canRecover w c hw).trans (congrArg _ (if_pos h)), ?_, onlyRegs_setReg _ _ _⟩
    exact regFld_setRegFld_same _ _ _ _ _ (by decide)
  · rw [exec_canRecover w c hw, if_neg h]
  · exact ⟨_, rfl, rxFrame_measured_leaves c.isLt f age hon hmeas hlen hvalid⟩
  · obtain ⟨htail, hwords, hmem⟩ := rxFrame_stored_leaves c.isLt f age hon hmeas hfilter hroom
    have hread := fun i (hi : i < 20) => hwords i (by rwa [length_rxEntryWords])
    refine ⟨_, rfl, htail, hread 0 (by decide), hread 2 (by decide), hread 3 (by decide), ?_, fun i hi => ?_, hmem⟩
    · rw [← fld_rxEntryInfo (matchFilter_lt f hfilter) f]
      exact congrArg (fld · 20 16) (hread 1 (by decide))
    · rw [Nat.add_assoc]
      exact (hread (4 + i) (by omega)).trans (rxEntryWords_data k f _ hi)
  · exact ⟨_, rfl, rxFrame_lost_leaves c.isLt f age hon hmeas hfilter hfull⟩

end Sys2Proof.Machine
end

section
/-! A service request to a lane whose BUSY is 1 (R289), and the refutation of O47. -/

namespace Sys2Proof.Machine

open Sys2Proof.Config

theorem exec_serviceRequest (w : Writer) (l : Fin 16) (v : Word) {s : State} (hw : writesNow w s = true) :
    exec (.serviceRequest w l v) s = .next (serviceRequest l v (usedBy w s)) :=
  congrArg Host.Outcome.next (asWriter_now w _ _ s hw)

/-- R289: a write while BUSY is 1 is discarded and logged, whatever its OP. -/
theorem serviceRequest_busy {l : Nat} {s : State} (h : regBit (Reg.SRV_LANEl_SVC_RES l) 31 s = true) (v : Word) :
    serviceRequest l v s = raise Src.servo .regOverrun Code.overrun [] s := if_pos h

/-- An event that its source has room for uses a free value. -/
theorem freeCtr_raise {src : Nat} (hsrc : src ≠ Src.safety) {s : State}
    (hroom : (s.mgt.events.filter (fun e => e.source = src)).length < 4) (ev : Ev) (code : Nat) (d : List (Option Word)) :
    (raise src ev code d s).freeCtr = s.freeCtr + 1 := by
  unfold raise
  rw [if_neg hsrc, if_neg (not_le.mpr hroom)]
  rfl

/-- A device with every block on, after firmware has asked lane 0 for a READ. -/
def busyLane : State := serviceRequest 0 0x40000000 (setReg Reg.PWR_DOM_STAT0 0xFFFFFFFF State.reset)

/-- Refutes O47: a write of OP none to lane 0 while its BUSY is 1 leaves one event more in the log, as R289 demands of every
write while BUSY is 1, where the statement has it change nothing. -/
theorem not_courierLanes : ¬ Obligations.CourierLanes := by
  unfold Obligations.CourierLanes
  rintro ⟨⟨-, -, hservice, -⟩, -⟩
  have hnow : writesNow .firmware busyLane = true := by decide +kernel
  have hbusy : regBit (Reg.SRV_LANEl_SVC_RES 0) 31 busyLane = true := by decide +kernel
  have hroom : (busyLane.mgt.events.filter (fun e => e.source = Src.servo)).length < 4 := by decide +kernel
  have hop : fld (0 : Word) 31 30 = 0 := by decide
  have hnext := (hservice .firmware 0 0 busyLane hnow).2.2 (.inl hop)
  rw [exec_serviceRequest .firmware 0 0 hnow, Host.Outcome.next.injEq] at hnext
  have hfree : (raise Src.servo .regOverrun Code.overrun [] busyLane).freeCtr = busyLane.freeCtr :=
    congrArg State.freeCtr ((serviceRequest_busy hbusy 0).symm.trans hnext)
  rw [freeCtr_raise (by decide) hroom] at hfree
  omega

end Sys2Proof.Machine
end

section
/-! The dispatch decision in service mode, and the settlement of O23. -/

namespace Sys2Proof.Machine

/-! ### The order of the service (R308, R312) -/

/-- What `before` compares: class, level, ready time, client, and at last the identity. -/
def serviceKey (s : State) (j : Job) : List Nat := [jobClass j s, jobLevel j, j.readyAt.getD 0, j.client, j.uid]

theorem before_iff (a b : Job) (s : State) : before a b s = true ↔ serviceKey s a < serviceKey s b := decide_eq_true_iff

theorem outranks_iff (a b : Job) (s : State) :
    outranks a b s = true ↔ [jobClass a s, jobLevel a] < [jobClass b s, jobLevel b] := decide_eq_true_iff

/-- Fronts of one length decide an order before what follows them does. -/
theorem append_lt_append {a b : List Nat} (h : List.Lex (· < ·) a b) (hlen : a.length = b.length) (x y : List Nat) :
    List.Lex (· < ·) (a ++ x) (b ++ y) := by
  induction h with
  | nil => simp at hlen
  | cons _ ih => exact .cons (ih (Nat.succ.inj hlen))
  | rel hlt => exact .rel hlt

/-- The first four parts of the key, where the whole keys are so ordered. -/
theorem serviceFront_le {s : State} {a b : Job} (h : serviceKey s a ≤ serviceKey s b) :
    [jobClass a s, jobLevel a, a.readyAt.getD 0, a.client] ≤ [jobClass b s, jobLevel b, b.readyAt.getD 0, b.client] :=
  not_lt.mp fun hlt => not_lt.mpr h (append_lt_append hlt rfl [b.uid] [a.uid])

/-! ### The decision -/

/-- The better of the best job so far and the next, in service mode. -/
def bestServed (s : State) (b : Option Job) (j : Job) : Option Job :=
  match b with
  | none => some j
  | some x => if before j x s then some j else some x

theorem chooseJob_service {s : State} (h : s.day.sharesMode = false) :
    chooseJob s = (s.disp.jobs.filter (fun j => mayDispatch j s)).foldl (bestServed s) none := by
  simp only [chooseJob, h, Bool.false_eq_true, if_false]
  rfl

/-- The best of two has the lower key. -/
theorem bestServed_some (s : State) (x j : Job) :
    ∃ b, bestServed s (some x) j = some b ∧ (b = x ∨ b = j) ∧ serviceKey s b ≤ serviceKey s x ∧
      serviceKey s b ≤ serviceKey s j := by
  by_cases h : before j x s = true
  · exact ⟨j, if_pos h, .inr rfl, ((before_iff j x s).mp h).le, le_rfl⟩
  · exact ⟨x, if_neg h, .inl rfl, le_rfl, not_lt.mp fun hlt => h ((before_iff j x s).mpr hlt)⟩

/-- The best of a job and those of a list is one of them, and none of them has a lower key. -/
theorem foldl_bestServed (s : State) (l : List Job) (x : Job) :
    ∃ j ∈ x :: l, l.foldl (bestServed s) (some x) = some j ∧ ∀ y ∈ x :: l, serviceKey s j ≤ serviceKey s y := by
  induction l generalizing x with
  | nil => exact ⟨x, List.mem_cons_self, rfl, fun y hy => by rw [List.mem_singleton.mp hy]⟩
  | cons a l ih =>
    obtain ⟨b, hb, hba, hbx, hbl⟩ := bestServed_some s x a
    obtain ⟨j, hj, hfold, hleast⟩ := ih b
    have hjb := hleast b List.mem_cons_self
    refine ⟨j, ?_, by rw [List.foldl_cons, hb, hfold], fun y hy => ?_⟩
    · simp only [List.mem_cons] at hj ⊢
      rcases hj with rfl | hj
      · exact hba.imp_right .inl
      · exact .inr (.inr hj)
    · simp only [List.mem_cons] at hy
      rcases hy with rfl | rfl | hy
      · exact hjb.trans hbx
      · exact hjb.trans hbl
      · exact hleast y (List.mem_cons_of_mem _ hy)

/-- R308: the job that a decision of service mode dispatches is one of those that it may dispatch, and none of those goes
before it. -/
theorem chooseJob_least {j : Job} {s : State} (hmode : s.day.sharesMode = false) (h : chooseJob s = some j) :
    (j ∈ s.disp.jobs ∧ mayDispatch j s = true) ∧
      ∀ x ∈ s.disp.jobs, mayDispatch x s = true → serviceKey s j ≤ serviceKey s x := by
  rw [chooseJob_service hmode] at h
  cases hl : s.disp.jobs.filter (fun j => mayDispatch j s) with
  | nil => rw [hl] at h; cases h
  | cons a l =>
    obtain ⟨k, hk, hfold, hleast⟩ := foldl_bestServed s l a
    have hkj : k = j := Option.some.inj (hfold.symm.trans (by rw [hl] at h; exact h))
    rw [← hl, hkj] at hk
    exact ⟨List.mem_filter.mp hk, fun x hx hmay => hkj ▸ hleast x (hl ▸ List.mem_filter.mpr ⟨hx, hmay⟩)⟩

/-- What a decision of service mode asks of a job that it may dispatch (R308, R312, R313). -/
theorem mayDispatch_service {j : Job} {s : State} (hmode : s.day.sharesMode = false) (h : mayDispatch j s = true) :
    isCandidate j s = true ∧ (∀ c ∈ jobCols j, colHeld c s = false) ∧ ∀ x ∈ s.disp.jobs, isCandidate x s = true →
      shareCol x j = true → outranks x j s ≠ true := by
  simp only [mayDispatch, colsFree, hmode, Bool.false_or, Bool.and_eq_true, List.all_eq_true, Bool.not_eq_true'] at h
  obtain ⟨⟨hready, hfree⟩, hfirst⟩ := h
  exact ⟨hready, hfree, fun x hx hc hs ho => by simpa [hc, hs, ho] using hfirst x hx⟩

/-- Settles O23: the decision takes the least of the jobs that it may dispatch, and each of those meets its conditions. -/
theorem dispatchFollowsOrder : Obligations.DispatchFollowsOrder := by
  unfold Obligations.DispatchFollowsOrder
  intro j s hmode hj
  obtain ⟨⟨hmem, hmay⟩, hleast⟩ := chooseJob_least hmode hj
  obtain ⟨hready, hfree, hfirst⟩ := mayDispatch_service hmode hmay
  exact ⟨hmem, hready, hfree, fun x hx hc hs hlt => hfirst x hx hc hs ((outranks_iff x j s).mpr hlt),
    fun x hx hmay => serviceFront_le (hleast x hx hmay)⟩

end Sys2Proof.Machine
end

section
/-! How jobs enter the device: doorbells, fetched descriptors, standing releases; and the settlement of O21. -/

namespace Sys2Proof.Machine

/-! ### Doorbells (R307, R324, R328) -/

@[simp] theorem host_usedBy (w : Writer) (s : State) : (usedBy w s).sess.host = s.sess.host := by cases w <;> rfl

theorem maint_isNone_usedBy (w : Writer) (s : State) : (usedBy w s).sess.maint.isNone = s.sess.maint.isNone := by
  cases w
  · exact Option.isNone_map
  · rfl

/-- A doorbell inside a session that may ring it sets the tail. -/
theorem doorbell_taken {q : Nat} {s : State} (hsess : s.sess.host.isSome = true ∨ s.sess.maint.isSome = true)
    (hlost : ¬(s.sess.host.isSome = true ∧ regBit Reg.DEV_STATUS 30 s = true)) (tail : Word) :
    doorbell q tail s = setReg (Reg.JQq_TAIL q) tail (usedBy .host s) := by
  have hclosed : (s.sess.host.isNone && s.sess.maint.isNone) ≠ true := by
    rw [← Option.not_isSome, ← Option.not_isSome]
    rcases hsess with h | h <;> simp [h]
  have hlost' : (s.sess.host.isSome && regBit Reg.DEV_STATUS 30 s) ≠ true := by simpa using hlost
  simp only [doorbell, touchMaint_maint, host_usedBy, maint_isNone_usedBy, regBit_usedBy]
  rw [if_neg hclosed, if_neg hlost']

/-- A doorbell outside every session, or in a host session opened after a host loss, is discarded and logged. -/
theorem doorbell_discarded {q : Nat} {s : State} (h : s.sess.host = none ∧ s.sess.maint = none ∨
    s.sess.host.isSome = true ∧ regBit Reg.DEV_STATUS 30 s = true) (tail : Word) :
    doorbell q tail s = logClosed (Reg.JQq_TAIL q) (usedBy .host s) := by
  simp only [doorbell, touchMaint_maint, host_usedBy, maint_isNone_usedBy, regBit_usedBy]
  rcases h with ⟨hhost, hmaint⟩ | ⟨hhost, hlost⟩
  · rw [hhost, hmaint]
    rfl
  · rw [if_neg (by simp [← Option.not_isSome, hhost]), if_pos (by rw [hhost, hlost]; rfl)]

/-! ### Jobs that are added (R306) -/

theorem descriptorReason_congr {s t : State} (hh : t.disp.handles = s.disp.handles) (hf : t.fuses = s.fuses) (d : JobDesc) :
    descriptorReason d t = descriptorReason d s := by
  have hcols : enabledCols t = enabledCols s := by simp only [enabledCols, fuse, hf]
  simp only [descriptorReason, handleInfo_congr hh, hcols]

/-- A job that has been added: it waits, ready when its inputs are complete now, and the registers and the time are as they
were. -/
structure JobAdded (client : Nat) (queue : Option (Fin 8)) (entry : Option Nat) (d : JobDesc) (gen : Bool) (j : Job)
    (s t : State) : Prop where
  last : t.disp.jobs.getLast? = some j
  uid : j.uid = s.disp.nextUid
  client_eq : j.client = client
  queue_eq : j.queue = queue
  entry_eq : j.entry = entry
  desc : j.desc = d
  gen_eq : j.gen = gen
  setNo : j.setNo = entry.elim 0 (fun e => (getStanding e s).setNo)
  stage : j.stage = .waiting
  ready : j.readyAt = if d.inputs.all (fun i => inputComplete j i s) then some (now s) else none
  rest : { t with disp := s.disp } = s

/-- A job as it is added. -/
def addedJob (client : Nat) (queue : Option (Fin 8)) (entry : Option Nat) (d : JobDesc) (gen : Bool) (s : State) : Job :=
  { newJob s.disp.nextUid client queue entry d gen (handleWidth d.handle s) with
    setNo := entry.elim 0 (fun e => (getStanding e s).setNo) }

theorem jobAdded_addJob (client : Nat) (queue : Option (Fin 8)) (entry : Option Nat) (d : JobDesc) (gen : Bool) (s : State) :
    ∃ j, JobAdded client queue entry d gen j s (addJob client queue entry d gen s) := by
  let j := addedJob client queue entry d gen s
  let u : State := { s with disp := { s.disp with jobs := s.disp.jobs ++ [j], nextUid := s.disp.nextUid + 1 } }
  have hlast : (refreshReady u).disp.jobs.getLast? = some (refreshJob u j) := by
    simp only [refreshReady, u, List.map_append, List.map_cons, List.map_nil, List.getLast?_concat]
  exact ⟨refreshJob u j, hlast, rfl, rfl, rfl, rfl, rfl, rfl, rfl, rfl, rfl, rfl⟩

/-! ### Fetches (R316, R322, R495) -/

section
variable {q : Fin 8} {s : State} (hup : dispatcherUp s = true) (hon : regBit (Reg.JQq_STAT q.val) 31 s = true)
  (hsize : (getRing q.val s).size ≠ 0)
  (hnext : regFld (Reg.JQq_STAT q.val) 15 0 s ≠ (getReg (Reg.JQq_TAIL q.val) s).toNat % (getRing q.val s).size)

/-- The descriptor at the head of a queue's ring. -/
def headDescriptor (q : Nat) (s : State) : JobDesc :=
  parseJob (hostBytes ((getRing q s).ring.toNat + 96 * regFld (Reg.JQq_STAT q) 15 0 s) 96 s)

/-- The queue's head moves on. -/
def headMoved (q : Nat) (s : State) : State :=
  setRegFld (Reg.JQq_STAT q) 15 0 ((regFld (Reg.JQq_STAT q) 15 0 s + 1) % (getRing q s).size) s

/-- The job that a refused descriptor never becomes: it carries the identity of the refusal's completion. -/
def refusedJob (q : Fin 8) (s : State) : Job := newJob s.disp.nextUid q (some q) none (headDescriptor q s) false 0

include hup hon hsize hnext

theorem fetchJob_eq : fetchJob q s = match descriptorReason (headDescriptor q s) s with
    | some n => finishJob (refusedJob q s) 0 Outcome_.refused n
        { headMoved q s with disp := { s.disp with nextUid := s.disp.nextUid + 1 } }
    | none => addJob q (some q) none (headDescriptor q s) false (headMoved q s) := by
  have hmax : max (getRing q.val s).size 1 = (getRing q.val s).size := by omega
  unfold fetchJob
  extract_lets r head d u
  have hgo : (!dispatcherUp s || !regBit (Reg.JQq_STAT q) 31 s || r.size = 0 ||
      head = (getReg (Reg.JQq_TAIL q) s).toNat % max r.size 1) ≠ true := by
    simp only [hup, hon, hmax, r, head, hsize, hnext]
    decide
  rw [if_neg hgo]
  rfl

end

theorem head_headMoved (q : Nat) {s : State} (h1 : (getRing q s).size ≠ 0) (h2 : (getRing q s).size ≤ 65535) :
    regFld (Reg.JQq_STAT q) 15 0 (headMoved q s) = (regFld (Reg.JQq_STAT q) 15 0 s + 1) % (getRing q s).size := by
  have hlt := Nat.mod_lt (regFld (Reg.JQq_STAT q) 15 0 s + 1) (Nat.pos_of_ne_zero h1)
  rw [headMoved, regFld_setRegFld_same _ _ _ _ _ (by decide)]
  exact Nat.mod_eq_of_lt (by omega)

/-- The registers of the queues are none of those that a late completion may change. -/
theorem queueRegs_apart (q : Fin 8) : Reg.JQq_STAT q.val ∉ lateRegs ∧ Reg.JQq_DONE q.val ∉ lateRegs ∧
    Reg.JQq_STAT q.val ≠ Reg.JQq_DONE q.val := by
  revert q
  decide

theorem lateOnly_hostStore (a : Nat) (bs : List Byte) (s : State) : LateOnly s (hostStore a bs s) := by
  have h := hostStore_frame a bs s
  exact ⟨(congrArg (lateFrom s) h :), fun o _ => (congrArg (getReg o) h :)⟩

theorem lateOnly_discardWrite (c : Nat) (s : State) : LateOnly s (discardWrite c s) :=
  ((lateOnly_refl s).withDisp (discardWrite c s).disp).setReg (o := Reg.HOST_DISCARD) (by decide) _

theorem lateOnly_deliverJob (j : Job) {q : Fin 8} (hq : j.queue = some q) (rec : List Byte) (s : State) :
    LateOnly s (deliverJob j rec s) := by
  have hpost : LateOnly s (postJob q rec s) := by
    have hlt : ¬ 8 ≤ q.val := by omega
    unfold postJob
    rw [if_neg hlt]
    dsimp only
    split
    · exact lateOnly_refl s
    · have hstore := lateOnly_hostStore ((getRing q s).cring.toNat + 32 * (getRing q s).ctail) rec s
      exact ⟨hstore.rest, hstore.regs⟩
  unfold deliverJob
  rw [hq]
  dsimp only [Option.elim_some]
  split
  · exact lateOnly_discardWrite _ s
  · split
    · exact hpost
    · exact (lateOnly_refl s).withDisp _

/-- What the end of a job of a host queue leaves: JQq_DONE notes it, and the job has left. -/
theorem finishJob_queue {j : Job} {q : Fin 8} (hq : j.queue = some q) (hproof : j.proof = none) (flags : BitVec 16)
    (outcome reason : Nat) (s : State) :
    let t := finishJob j flags outcome reason s
    t.disp.jobs = s.disp.jobs.filter (fun x => x.uid ≠ j.uid) ∧
      getReg (Reg.JQq_DONE q.val) t = j.desc.jobId.zeroExtend 32 ∧
      getReg (Reg.JQq_STAT q.val) t = getReg (Reg.JQq_STAT q.val) s := by
  have hlate := lateOnly_deliverJob j hq (jobRecord j flags outcome reason) s
  have hbook := bookkept_deliverJob j (jobRecord j flags outcome reason) s
  obtain ⟨hstat, -, hne⟩ := queueRegs_apart q
  simp only [finishJob, hq, hproof, Option.isSome_none, Bool.false_eq_true, if_false]
  generalize deliverJob j (jobRecord j flags outcome reason) s = u at hlate hbook
  refine ⟨?_, getReg_setReg_same _ _ _, ?_⟩
  · rw [← hbook.jobs]
    rfl
  · exact (getReg_setReg_other _ _ hne).trans (hlate.regs _ hstat)

/-! ### Releases of standing entries (R306, R344) -/

/-- An entry at its release, with no job of it on the device, makes a job. -/
theorem releaseStanding_adds {e : Nat} {s : State} (hon : (getStanding e s).enabled = true)
    (hday : (getStanding e s).relDay ≠ some (getReg Reg.DAY_NUM s))
    (hin : (getStanding e s).desc.releaseUs < (getReg Reg.DAY_US s).toNat) (hnone : ∀ j ∈ s.disp.jobs, j.entry ≠ some e) :
    releaseStanding e s = addJob (getStanding e s).client none (some e) (getStanding e s).desc (getStanding e s).gen
      (setStandingEntry e { getStanding e s with relDay := some (getReg Reg.DAY_NUM s) }
        (runTo (dayAt (((getStanding e s).desc.releaseUs * usRoot : Nat) : Int) s) s)) := by
  have hwaits : s.disp.jobs.any (fun j => j.entry = some e && j.stage = .waiting && j.proof.isNone) = false :=
    List.any_eq_false.mpr fun j hj => by simp [hnone j hj]
  unfold releaseStanding
  extract_lets st day u v
  have hgo : (!st.enabled || st.relDay = some day || (getReg Reg.DAY_US s).toNat ≤ st.desc.releaseUs) ≠ true := by
    simp [st, day, hon, hday, hin]
  have hnew : v.disp.jobs.any (fun j => j.entry = some e && j.stage = .waiting && j.proof.isNone) ≠ true := by
    rw [show v.disp.jobs = s.disp.jobs from rfl, hwaits]
    decide
  rw [if_neg hgo, if_neg hnew]

/-- Settles O21: a doorbell meets a session or none, a fetch a reason or none, a release an entry that may make its job. -/
theorem jobsEnterTheDevice : Obligations.JobsEnterTheDevice := by
  unfold Obligations.JobsEnterTheDevice
  refine ⟨fun q tail s => ⟨fun hsess hlost => ?_, fun h => ?_⟩, fun q s => ?fetch, fun e s => ?release⟩
  · exact ⟨_, congrArg Host.Outcome.next (doorbell_taken hsess hlost tail), getReg_setReg_same _ _ _, onlyRegs_setReg _ _ _⟩
  · exact congrArg Host.Outcome.next (doorbell_discarded h tail)
  case fetch =>
    intro r head d hup hon hsize hmax hnext huids
    have hfetch := fetchJob_eq hup hon hsize hnext
    have hmoved := head_headMoved q.val hsize hmax
    refine ⟨fun hd => ?_, fun n hd => ?_⟩
    · obtain ⟨j, hj⟩ := jobAdded_addJob q (some q) none d false (headMoved q s)
      rw [show descriptorReason (headDescriptor q s) s = none from hd] at hfetch
      refine ⟨_, j, congrArg Host.Outcome.next hfetch, hj.last, hj.uid, hj.desc, hj.stage, hj.queue_eq, hj.ready, ?_⟩
      rw [← hmoved]
      exact (congrArg (regFld (Reg.JQq_STAT q.val) 15 0) hj.rest :)
    · rw [show descriptorReason (headDescriptor q s) s = some n from hd] at hfetch
      obtain ⟨hjobs, hdone, hstat⟩ := finishJob_queue (j := refusedJob q s) rfl rfl 0 Outcome_.refused n
        { headMoved q s with disp := { s.disp with nextUid := s.disp.nextUid + 1 } }
      refine ⟨_, congrArg Host.Outcome.next hfetch, hjobs.trans ?_, hdone, ?_⟩
      · exact List.filter_eq_self.mpr fun j hj => decide_eq_true (huids j hj).ne
      · rw [regFld, hstat]
        exact hmoved
  case release =>
    intro st hon hday hin hnone
    let u := setStandingEntry e.val { st with relDay := some (getReg Reg.DAY_NUM s) }
      (runTo (dayAt ((st.desc.releaseUs * usRoot : Nat) : Int) s) s)
    obtain ⟨j, hj⟩ := jobAdded_addJob st.client none (some e.val) st.desc st.gen u
    have hset : (getStanding e.val u).setNo = st.setNo := by rw [getStanding_setStandingEntry_same]
    refine ⟨_, j, congrArg Host.Outcome.next (releaseStanding_adds hon hday hin hnone), ?_, hj.last, hj.desc, hj.client_eq,
      hj.gen_eq, hj.setNo.trans hset, hj.entry_eq, hj.stage⟩
    exact (congrArg now hj.rest : _ = now u).trans (now_runTo _ _)

end Sys2Proof.Machine
end

section
/-! What the Dispatcher's own operations leave alone: every memory but the ledger, and of the ledger all but the accounts. -/

namespace Sys2Proof.Machine

/-! ### What changes of the Dispatcher and of registers leave alone -/

/-- Memories that hold what they held, behind the same channels, read as before but for the ledger. -/
theorem memKeptButLedger_of {s t : State} (hmem : ∀ sp, memOf sp t = memOf sp s) (hlosses : t.losses = s.losses)
    (hpop : getReg Reg.MEM_POP t = getReg Reg.MEM_POP s) (hhost : t.hostMem = s.hostMem) (hflash : t.flash = s.flash)
    (hfuses : t.fuses = s.fuses) : memKeptButLedger s t := by
  refine ⟨fun sp a ha => ?_, fun a => by simp only [hostByte, hhost], hflash, hfuses⟩
  have hled : ¬(sp = .dram ∧ inLedger (memKey sp a) = true) := fun h => by
    rcases ha with hsp | hout
    · exact hsp h.1
    · simp [h.2] at hout
  have hdefault : memDefault sp t = memDefault sp s := by
    funext x
    cases sp <;> simp only [memDefault, hlosses]
  simp only [rdByte, dramHas, hpop, hled, if_false, hmem, hdefault]

theorem memKept.butLedger {s t : State} (h : memKept s t) : memKeptButLedger s t := ⟨fun sp a _ => h.1 sp a, h.2⟩

theorem memKeptButLedger.trans {s t u : State} (h1 : memKeptButLedger s t) (h2 : memKeptButLedger t u) :
    memKeptButLedger s u := by
  obtain ⟨hread, hhost, hflash, hfuses⟩ := h1
  obtain ⟨hread', hhost', hflash', hfuses'⟩ := h2
  exact ⟨fun sp a ha => (hread' sp a ha).trans (hread sp a ha), fun a => (hhost' a).trans (hhost a), hflash'.trans hflash,
    hfuses'.trans hfuses⟩

/-- Nothing changed but the Dispatcher's state and the registers of `P`. -/
structure DispOnly (P : Nat → Prop) (s t : State) : Prop where
  rest : { t with regs := s.regs, disp := s.disp } = s
  regs : ∀ o, ¬ P o → getReg o t = getReg o s

namespace DispOnly

variable {P Q : Nat → Prop} {s t u : State}

theorem refl (s : State) : DispOnly P s s := ⟨rfl, fun _ _ => rfl⟩

theorem trans (h1 : DispOnly P s t) (h2 : DispOnly P t u) : DispOnly P s u :=
  ⟨calc { u with regs := s.regs, disp := s.disp }
      _ = { { u with regs := t.regs, disp := t.disp } with regs := s.regs, disp := s.disp } := rfl
      _ = s := by rw [h2.rest, h1.rest],
    fun o ho => (h2.regs o ho).trans (h1.regs o ho)⟩

theorem mono (h : DispOnly P s t) (hsub : ∀ o, P o → Q o) : DispOnly Q s t :=
  ⟨h.rest, fun o ho => h.regs o (fun hp => ho (hsub o hp))⟩

theorem ite {c : Prop} [Decidable c] {a b : State} (ha : DispOnly P s a) (hb : DispOnly P s b) :
    DispOnly P s (if c then a else b) := by
  split
  · exact ha
  · exact hb

theorem setReg {o : Nat} (h : P o) (v : Word) (s : State) : DispOnly P s (setReg o v s) :=
  ⟨rfl, fun _ hp => getReg_setReg_other _ _ (fun e => hp (e ▸ h))⟩

theorem withDisp (d : Dispatcher) (s : State) : DispOnly P s { s with disp := d } := ⟨rfl, fun _ _ => rfl⟩

theorem clk (h : DispOnly P s t) : t.clk = s.clk := (congrArg State.clk h.rest :)
theorem sess (h : DispOnly P s t) : t.sess = s.sess := (congrArg State.sess h.rest :)
theorem now (h : DispOnly P s t) : Machine.now t = Machine.now s := (congrArg Machine.now h.rest :)

theorem memOf (h : DispOnly P s t) (sp : Space) : Machine.memOf sp t = Machine.memOf sp s := by
  have hrest := congrArg (Machine.memOf sp) h.rest
  cases sp <;> exact hrest

theorem memKeptButLedger (h : DispOnly P s t) (hpop : ¬ P Reg.MEM_POP) : Machine.memKeptButLedger s t :=
  memKeptButLedger_of h.memOf (congrArg State.losses h.rest :)
    (h.regs _ hpop) (congrArg State.hostMem h.rest :) (congrArg State.flash h.rest :) (congrArg State.fuses h.rest :)

end DispOnly

/-! ### What completions leave of the ledger (R320, R331) -/

/-- Of the ledger only accounts changed. -/
def ledgerMarksKept (s t : State) : Prop := { t.disp.ledger with accounts := s.disp.ledger.accounts } = s.disp.ledger

theorem ledgerMarksKept.trans {s t u : State} (h1 : ledgerMarksKept s t) (h2 : ledgerMarksKept t u) : ledgerMarksKept s u := by
  unfold ledgerMarksKept at h1 h2 ⊢
  exact (congrArg (fun l : Ledger => { l with accounts := s.disp.ledger.accounts }) h2 :).trans h1

theorem ledgerMarksKept_postCmpl (e : List Byte) (s : State) : ledgerMarksKept s (postCmpl e s) := by
  unfold postCmpl
  split
  · rfl
  · dsimp only
    split
    · rfl
    · have h := hostStore_frame ((reg64 Reg.CMPL_BASE_LO Reg.CMPL_BASE_HI s).toNat + 32 * (getReg Reg.CMPL_TAIL s).toNat) e s
      exact (congrArg (fun t : State => { t.disp.ledger with accounts := s.disp.ledger.accounts }) h :)

theorem ledgerMarksKept_flushCmds (l : List CmdSlot) (s : State) : ledgerMarksKept s (flushCmds l s) := by
  induction l generalizing s with
  | nil => rfl
  | cons c r ih =>
    simp only [flushCmds]
    split
    · refine ledgerMarksKept.trans ?_ (ih _)
      split
      · rfl
      · exact ledgerMarksKept_postCmpl _ s
    · rfl

theorem ledgerMarksKept_completeCmd (i : Issue) (op code : Nat) (d : Word) (m : List Byte) (s : State) :
    ledgerMarksKept s (completeCmd i op code d m s) := by
  unfold completeCmd
  dsimp only
  split
  · exact ledgerMarksKept_flushCmds _ s
  · split <;> rfl

/-- R331: after a host loss a completion on the ring is discarded, so host memory stays as it is. -/
theorem hostMem_flushCmds_of_discarding (l : List CmdSlot) {s : State} (h : s.disp.discarding = true) :
    (flushCmds l s).hostMem = s.hostMem := by
  induction l generalizing s with
  | nil => rfl
  | cons c r ih =>
    simp only [flushCmds, postCmpl, h, if_true, ite_self]
    split
    · exact (ih (s := discardWrite 15 s) h).trans rfl
    · rfl

theorem hostMem_completeCmd_of_discarding (i : Issue) (op code : Nat) (d : Word) (m : List Byte) {s : State}
    (h : s.disp.discarding = true) : (completeCmd i op code d m s).hostMem = s.hostMem := by
  unfold completeCmd
  dsimp only
  split
  · exact hostMem_flushCmds_of_discarding _ h
  · split <;> rfl

end Sys2Proof.Machine
end

section
/-! The loss of the host, step by step: its queues, its links, its standing entries; and the settlement of O34. -/

namespace Sys2Proof.Machine

/-! ### Steps of a host loss (R330, R331) -/

/-- A step of a host loss: nothing changed but registers of `P`, and of the Dispatcher jobs, handles, standing entries and
accounts. -/
structure LossStep (P : Nat → Prop) (s t : State) : Prop extends DispOnly P s t where
  disp : { t.disp with
    jobs := s.disp.jobs, handles := s.disp.handles, standing := s.disp.standing
    ledger := { t.disp.ledger with accounts := s.disp.ledger.accounts } } = s.disp

namespace LossStep

variable {P Q : Nat → Prop} {s t u : State}

theorem trans (h1 : LossStep P s t) (h2 : LossStep P t u) : LossStep P s u :=
  ⟨h1.toDispOnly.trans h2.toDispOnly, (congrArg (fun d : Dispatcher => { d with
    jobs := s.disp.jobs, handles := s.disp.handles, standing := s.disp.standing
    ledger := { d.ledger with accounts := s.disp.ledger.accounts } }) h2.disp :).trans h1.disp⟩

theorem mono (h : LossStep P s t) (hsub : ∀ o, P o → Q o) : LossStep Q s t := ⟨h.toDispOnly.mono hsub, h.disp⟩

theorem setReg {o : Nat} (h : P o) (v : Word) (s : State) : LossStep P s (setReg o v s) := ⟨.setReg h v s, rfl⟩

theorem ledgerMarks (h : LossStep P s t) : ledgerMarksKept s t := (congrArg Dispatcher.ledger h.disp :)

theorem discarding (h : LossStep P s t) : t.disp.discarding = s.disp.discarding := (congrArg Dispatcher.discarding h.disp :)

end LossStep

/-! ### Queues that are dropped (R330, R331) -/

/-- A register of a job queue. -/
abbrev queueReg (o : Nat) : Prop := 0x100 ≤ o ∧ o < 0x180

/-- The queues of `l` have been dropped: they are disabled, and none of their jobs waits. -/
structure QueuesDropped (l : List (Fin 8)) (s t : State) : Prop extends LossStep queueReg s t where
  standing : t.disp.standing = s.disp.standing
  off : ∀ q : Fin 8, q ∈ l ∨ regBit (Reg.JQq_STAT q.val) 31 s = false → regBit (Reg.JQq_STAT q.val) 31 t = false
  jobs : ∀ j ∈ t.disp.jobs, j ∈ s.disp.jobs ∧ ∀ q ∈ l, j.queue = some q → j.stage ≠ .waiting

theorem QueuesDropped.trans {l m : List (Fin 8)} {s t u : State} (h1 : QueuesDropped l s t) (h2 : QueuesDropped m t u) :
    QueuesDropped (l ++ m) s u := by
  refine ⟨h1.toLossStep.trans h2.toLossStep, h2.standing.trans h1.standing, fun q hq => h2.off q ?_, fun j hj => ?_⟩
  · rw [List.mem_append] at hq
    rcases hq with (hq | hq) | hq
    · exact .inr (h1.off q (.inl hq))
    · exact .inl hq
    · exact .inr (h1.off q (.inr hq))
  · obtain ⟨ht, hm⟩ := h2.jobs j hj
    obtain ⟨hs, hl⟩ := h1.jobs j ht
    exact ⟨hs, fun q hq => (List.mem_append.mp hq).elim (hl q) (hm q)⟩

/-- The state with other jobs and handles. -/
def withJobs (js : List Job) (hs : Tab (Option HandleInfo)) (s : State) : State :=
  { s with disp := { s.disp with jobs := js, handles := hs } }

theorem lossStep_withJobs {P : Nat → Prop} (js : List Job) (hs : Tab (Option HandleInfo)) (s : State) :
    LossStep P s (withJobs js hs s) := ⟨.withDisp _ s, rfl⟩

theorem retireIfIdle_withJobs (h : Nat) (s : State) : ∃ hs, retireIfIdle h s = withJobs s.disp.jobs hs s := by
  rcases retireIfIdle_eq h s with hr | hr <;> rw [hr]
  · exact ⟨s.disp.handles, rfl⟩
  · exact ⟨tset (fun _ => none) h none s.disp.handles, rfl⟩

/-- Of the jobs that a list names none is left, and nothing changes but jobs and handles. -/
theorem foldl_removeJob (l : List Job) (s : State) :
    ∃ js hs, l.foldl (fun s j => retireIfIdle j.desc.handle (removeJob j.uid s)) s = withJobs js hs s ∧
      ∀ x ∈ js, x ∈ s.disp.jobs ∧ ∀ j ∈ l, x.uid ≠ j.uid := by
  induction l generalizing s with
  | nil => exact ⟨s.disp.jobs, s.disp.handles, rfl, fun x hx => ⟨hx, List.forall_mem_nil _⟩⟩
  | cons a l ih =>
    obtain ⟨hs, hone⟩ := retireIfIdle_withJobs a.desc.handle (removeJob a.uid s)
    obtain ⟨js, hs', hrest, hjobs⟩ := ih (withJobs (removeJob a.uid s).disp.jobs hs (removeJob a.uid s))
    refine ⟨js, hs', by rw [List.foldl_cons, hone, hrest]; rfl, fun x hx => ?_⟩
    obtain ⟨hmem, hne⟩ := hjobs x hx
    obtain ⟨hxs, hxa⟩ := List.mem_filter.mp hmem
    exact ⟨hxs, fun j hj => (List.mem_cons.mp hj).elim (fun e => e ▸ of_decide_eq_true hxa) (hne j)⟩

/-- A head of a ring is below the bit that enables it. -/
theorem bit_head (n : Nat) : bit (word (n % 2 ^ 16)) 31 = false := by
  have hlt : n % 2 ^ 16 < 2 ^ 31 := (Nat.mod_lt n (by decide)).trans (by decide)
  rw [bit, word, BitVec.getLsbD_ofNat, Nat.testBit_lt_two_pow hlt, Bool.and_false]

theorem queuesDropped_dropQueue (q : Fin 8) (s : State) : QueuesDropped [q] s (dropQueue q s) := by
  have hregs : queueReg (Reg.JQq_STAT q.val) ∧ queueReg (Reg.JQq_DROP q.val) := by
    revert q
    decide
  have hstat : ∀ p : Fin 8, p ≠ q →
      Reg.JQq_STAT p.val ≠ Reg.JQq_STAT q.val ∧ Reg.JQq_STAT p.val ≠ Reg.JQq_DROP q.val := by
    revert q
    decide
  unfold dropQueue
  extract_lets waiting n dropped counted gone size head
  obtain ⟨js, hs, hfold, hjobs⟩ := foldl_removeJob waiting counted
  have hgone : gone = withJobs js hs counted := hfold
  have hcounted : LossStep queueReg dropped counted := ⟨.withDisp _ _, rfl⟩
  clear_value gone
  subst hgone
  have hleft := (lossStep_withJobs js hs counted).trans (.setReg hregs.1 (word (head % 2 ^ 16)) _)
  refine ⟨(LossStep.setReg hregs.2 _ s).trans (hcounted.trans hleft), rfl, fun p hp => ?_, fun j hj => ?_⟩
  · by_cases hpq : p = q
    · rw [hpq, regBit_setReg_same, bit_head]
    · obtain ⟨h1, h2⟩ := hstat p hpq
      have hkept : regBit (Reg.JQq_STAT p.val) 31 dropped = regBit (Reg.JQq_STAT p.val) 31 s := regBit_setReg_other _ _ _ h2
      rw [regBit_setReg_other _ _ _ h1]
      exact hkept.trans (hp.resolve_left (fun h => hpq (List.mem_singleton.mp h)))
  · obtain ⟨hmem, hne⟩ := hjobs j hj
    refine ⟨hmem, fun p hp hqueue hstage => hne j ?_ rfl⟩
    rw [List.mem_singleton.mp hp] at hqueue
    exact List.mem_filter.mpr ⟨hmem, by simp [hqueue, hstage]⟩

theorem queuesDropped_foldl (l : List (Fin 8)) (s : State) : QueuesDropped l s (l.foldl (fun s q => dropQueue q s) s) := by
  induction l generalizing s with
  | nil => exact ⟨⟨.refl s, rfl⟩, rfl, fun q hq => hq.resolve_left nofun, fun j hj => ⟨hj, List.forall_mem_nil _⟩⟩
  | cons q l ih => exact (queuesDropped_dropQueue q s).trans (ih _)

/-! ### Links and standing entries (R331, R413) -/

/-- A register of a MAC. -/
abbrev macReg (o : Nat) : Prop := 0x801000 ≤ o ∧ o < 0x803000

theorem dispOnly_dropTxRing {m : Nat} (hm : m < 2) (s : State) :
    DispOnly macReg s (dropTxRing m s) ∧ (dropTxRing m s).disp = s.disp := by
  have hregs : macReg (Reg.ETH_Mm_TXR_HEAD m) ∧ macReg (Reg.ETH_Mm_TXR_CTL m) ∧ macReg (Reg.ETH_Mm_TX_DROP m) := by
    interval_cases m <;> decide
  unfold dropTxRing
  extract_lets n t k
  split
  · exact ⟨.refl s, rfl⟩
  · exact ⟨(DispOnly.setReg hregs.2.2 _ s).trans ((DispOnly.setReg hregs.2.1 _ _).trans (.setReg hregs.1 _ _)), rfl⟩

/-- What a host loss makes of a standing entry. -/
def entryLost (st : Standing) : Standing := { st with enabled := st.enabled && st.desc.residentSafe }

/-- The host loss of one entry. -/
def loseEntry (s : State) (e : Nat) : State :=
  let st := getStanding e s
  if st.enabled && !st.desc.residentSafe then
    retireIfIdle st.desc.handle (setStandingEntry e { st with enabled := false } s)
  else s

/-- The entries of `l` have met a host loss; nothing else but handles changed. -/
structure EntriesLost (l : List Nat) (s t : State) : Prop extends LossStep (fun _ => False) s t where
  jobs : t.disp.jobs = s.disp.jobs
  entries : ∀ e, getStanding e t = if e ∈ l then entryLost (getStanding e s) else getStanding e s

theorem entryLost_entryLost (st : Standing) : entryLost (entryLost st) = entryLost st := by
  simp [entryLost]

theorem EntriesLost.trans {l m : List Nat} {s t u : State} (h1 : EntriesLost l s t) (h2 : EntriesLost m t u) :
    EntriesLost (l ++ m) s u := by
  refine ⟨h1.toLossStep.trans h2.toLossStep, h2.jobs.trans h1.jobs, fun e => ?_⟩
  rw [h2.entries, h1.entries]
  by_cases hl : e ∈ l <;> by_cases hm : e ∈ m <;> simp [hl, hm, entryLost_entryLost]

theorem entriesLost_loseEntry (e : Nat) (s : State) : EntriesLost [e] s (loseEntry s e) := by
  unfold loseEntry
  dsimp only
  split
  · next h =>
    obtain ⟨hs, hone⟩ := retireIfIdle_withJobs (getStanding e s).desc.handle
      (setStandingEntry e { getStanding e s with enabled := false } s)
    have hlost : entryLost (getStanding e s) = { getStanding e s with enabled := false } := by
      simp only [Bool.and_eq_true, Bool.not_eq_true'] at h
      simp [entryLost, h.2]
    rw [hone]
    refine ⟨⟨.withDisp _ s, rfl⟩, rfl, fun k => ?_⟩
    by_cases hk : k = e
    · rw [hk, if_pos (List.mem_singleton_self e), hlost]
      exact getStanding_setStandingEntry_same _ _ _
    · rw [if_neg (fun hmem => hk (List.mem_singleton.mp hmem))]
      exact getStanding_setStandingEntry_other _ _ hk
  · next h =>
    have hkept : entryLost (getStanding e s) = getStanding e s := by
      have hstays : ((getStanding e s).enabled && (getStanding e s).desc.residentSafe) = (getStanding e s).enabled := by
        cases hsafe : (getStanding e s).desc.residentSafe <;> simp_all
      rw [entryLost, hstays]
    refine ⟨⟨.refl s, rfl⟩, rfl, fun k => ?_⟩
    by_cases hk : k = e
    · rw [hk, if_pos (List.mem_singleton_self e), hkept]
    · rw [if_neg (fun hmem => hk (List.mem_singleton.mp hmem))]

theorem entriesLost_foldl (l : List Nat) (s : State) : EntriesLost l s (l.foldl loseEntry s) := by
  induction l generalizing s with
  | nil => exact ⟨⟨.refl s, rfl⟩, rfl, fun _ => rfl⟩
  | cons e l ih => exact (entriesLost_loseEntry e s).trans (ih _)

/-! ### The whole loss (R329 to R331) -/

/-- The session closes and the ledger notes it; what commands would write is the lost host's. -/
def lossNoted (closed : Bool) (s : State) : State :=
  { s with
    sess := { s.sess with host := none }
    disp := { s.disp with
      ledger := { s.disp.ledger with lostStamp := s.clk.tick, hostLost := true, closed := closed }
      ledgerRead := false, discarding := true, cmds := s.disp.cmds.map (fun c => { c with lost := true }) } }

/-- What jobs on the device would write is the lost host's. -/
def jobsLost (s : State) : State :=
  { s with disp := { s.disp with jobs := s.disp.jobs.map (fun j => { j with lost := true }) } }

/-- The device after a host loss in state `s`. -/
structure HostGone (closed : Bool) (s t : State) : Prop where
  clk : t.clk = s.clk
  session : t.sess.host = none
  status : regBit Reg.DEV_STATUS 30 t = true
  noted : ledgerMarksKept (lossNoted closed s) t
  discarding : t.disp.discarding = true
  queues : ∀ q < 8, regBit (Reg.JQq_STAT q) 31 t = false
  hostPath : regBit Reg.SRT_HP_CTL 31 t = false
  jobs : ∀ j ∈ t.disp.jobs, j.lost = true ∧ (j.stage = .waiting → j.queue = none)
  entries : ∀ e < 16, getStanding e t = entryLost (getStanding e s)
  mem : memKeptButLedger s t

/-- The registers that the steps of a loss after HOST_LOST change. -/
abbrev lossReg (o : Nat) : Prop := queueReg o ∨ macReg o ∨ o = Reg.SRT_HP_CTL ∨ o = Reg.SESSION_STAT

theorem hostLoss_eq (closed : Bool) {s : State} (h : s.sess.host.isSome = true) :
    hostLoss closed s = showSession (jobsLost ((List.range 16).foldl (fun s e => loseEntry s e)
      (setRegFld Reg.SRT_HP_CTL 31 31 0 (dropTxRing 1 (dropTxRing 0 ((List.finRange 8).foldl (fun s q => dropQueue q s)
        (setRegFld Reg.DEV_STATUS 30 30 1 (lossNoted closed s)))))))) := by
  have hopen : s.sess.host.isNone = false := by rw [← Option.not_isSome, h]; rfl
  simp only [hostLoss, hopen, Bool.false_eq_true, if_false, jobsLost, lossNoted, loseEntry]

/-- The registers of the queues keep what the drop of the queues left in them. -/
theorem queueStat_apart (q : Fin 8) : ¬ macReg (Reg.JQq_STAT q.val) ∧ Reg.JQq_STAT q.val ≠ Reg.SRT_HP_CTL ∧
    Reg.JQq_STAT q.val ≠ Reg.SESSION_STAT := by
  revert q
  decide

theorem hostGone_hostLoss (closed : Bool) {s : State} (h : s.sess.host.isSome = true) :
    HostGone closed s (hostLoss closed s) := by
  rw [hostLoss_eq closed h]
  let b := setRegFld Reg.DEV_STATUS 30 30 1 (lossNoted closed s)
  have hqueues := queuesDropped_foldl (List.finRange 8) b
  generalize (List.finRange 8).foldl (fun s q => dropQueue q s) b = c at hqueues
  obtain ⟨hlink0, hdisp0⟩ := dispOnly_dropTxRing (m := 0) (by decide) c
  obtain ⟨hlink1, hdisp1⟩ := dispOnly_dropTxRing (m := 1) (by decide) (dropTxRing 0 c)
  have hlinks : DispOnly macReg c (dropTxRing 1 (dropTxRing 0 c)) := hlink0.trans hlink1
  have hdisp : (dropTxRing 1 (dropTxRing 0 c)).disp = c.disp := hdisp1.trans hdisp0
  generalize dropTxRing 1 (dropTxRing 0 c) = d at hlinks hdisp
  let e := setRegFld Reg.SRT_HP_CTL 31 31 0 d
  have hentries := entriesLost_foldl (List.range 16) e
  generalize (List.range 16).foldl (fun s e => loseEntry s e) e = f at hentries
  have hlinks' : LossStep lossReg c d := ⟨hlinks.mono fun _ ho => .inr (.inl ho), by rw [hdisp]⟩
  have hlast : LossStep lossReg f (showSession (jobsLost f)) :=
    (⟨.withDisp _ f, rfl⟩ : LossStep lossReg f (jobsLost f)).trans (.setReg (.inr (.inr (.inr rfl))) _ _)
  have hstep : LossStep lossReg b (showSession (jobsLost f)) := by
    have hpath : LossStep lossReg d e := .setReg (.inr (.inr (.inl rfl))) _ d
    have hentries' : LossStep lossReg e f := hentries.toLossStep.mono nofun
    exact (hqueues.toLossStep.mono fun _ ho => .inl ho).trans (hlinks'.trans (hpath.trans (hentries'.trans hlast)))
  have hnoted : memKeptButLedger s (lossNoted closed s) :=
    memKeptButLedger_of (fun sp => by cases sp <;> rfl) rfl rfl rfl rfl rfl
  have hstatus : memKept (lossNoted closed s) b := memKept_setReg _ _ _ (by decide)
  refine ⟨hstep.clk, congrArg Sessions.host hstep.sess, ?_, hstep.ledgerMarks, hstep.discarding, fun q hq => ?_, ?_,
    fun j hj => ?_, fun k hk => ?_, hnoted.trans (hstatus.butLedger.trans (hstep.memKeptButLedger (by decide)))⟩
  · rw [regBit, hstep.regs _ (by decide)]
    exact regBit_setRegFld_inside Reg.DEV_STATUS 30 30 1 30 _ (by decide) le_rfl le_rfl
  · obtain ⟨hmac, hpath, hsess⟩ := queueStat_apart ⟨q, hq⟩
    have hc := hqueues.off ⟨q, hq⟩ (.inl (List.mem_finRange _))
    have hf : getReg (Reg.JQq_STAT q) f = getReg (Reg.JQq_STAT q) c :=
      (hentries.regs _ not_false).trans ((getReg_setReg_other _ _ hpath).trans (hlinks.regs _ hmac))
    exact (regBit_setReg_other 31 _ _ hsess).trans ((congrArg (bit · 31) hf).trans hc)
  · have hf : getReg Reg.SRT_HP_CTL f = getReg Reg.SRT_HP_CTL e := hentries.regs _ not_false
    refine (regBit_setReg_other 31 _ _ (by decide)).trans ((congrArg (bit · 31) hf).trans ?_)
    exact regBit_setRegFld_inside Reg.SRT_HP_CTL 31 31 0 31 d (by decide) le_rfl le_rfl
  · obtain ⟨k, hk, rfl⟩ := List.mem_map.mp hj
    rw [hentries.jobs, show e.disp.jobs = c.disp.jobs from congrArg Dispatcher.jobs hdisp] at hk
    obtain ⟨-, hnone⟩ := hqueues.jobs k hk
    exact ⟨rfl, fun hstage => Option.eq_none_iff_forall_ne_some.mpr fun q hq => hnone q (List.mem_finRange q) hq hstage⟩
  · have hstanding : e.disp.standing = s.disp.standing := (congrArg Dispatcher.standing hdisp).trans hqueues.standing
    have hf := hentries.entries k
    rw [if_pos (List.mem_range.mpr hk), getStanding, getStanding, hstanding] at hf
    exact hf

/-! ### Heartbeats (R324, R329) -/

/-- A Postbox write inside a host session, while the Dispatcher runs. -/
theorem postboxWrite_taken {s : State} (hhost : s.sess.host.isSome = true) (hup : dispatcherUp s = true) (off : Nat)
    (f : State → State) : postboxWrite off f s = f (usedBy .host s) := by
  have hopen : (s.sess.host.isNone && (usedBy .host s).sess.maint.isNone) ≠ true := by simp [← Option.not_isSome, hhost]
  have hup' : dispatcherUp (usedBy .host s) = true := hup
  simp only [postboxWrite, touchMaint_maint, host_usedBy]
  rw [if_neg hopen, if_pos hup']

theorem touchMaint_host {k : Session} (h : k = .host) (s : State) : touchMaint k s = s := by
  rw [h]
  rfl

/-- A command that the host session alone may issue comes from an open host session. -/
theorem via_host_of_mayIssue {i : Issue} {op : Nat} {s : State} (h : mayIssue i op allowH s = true) :
    i.via = .host ∧ s.sess.host.isSome = true := by
  simp only [mayIssue, allowH, Bool.and_eq_true, decide_eq_true_eq, List.mem_singleton] at h
  obtain ⟨⟨hopen, -⟩, hvia⟩ := h
  rw [hvia] at hopen
  exact ⟨hvia, hopen⟩

/-- Settles O34: the loss at the timer's end and at CLOSE is one and the same; after it a completion is discarded. -/
theorem hostLossKeepsTheDevice : Obligations.HostLossKeepsTheDevice := by
  unfold Obligations.HostLossKeepsTheDevice
  refine ⟨fun s hhost hup => ?beat, fun s hhost hup => ?timer, fun i s hmay => ?close⟩
  case beat =>
    have hopen : (usedBy .host s).sess.host.isNone ≠ true := by simp [← Option.not_isSome, hhost]
    refine ⟨_, congrArg Host.Outcome.next ((postboxWrite_taken hhost hup _ _).trans (if_neg hopen)), rfl, rfl, ?_⟩
    exact ⟨fun _ _ => rfl, rfl⟩
  case timer =>
    let u := runTo (s.sess.beatAt + hbMs s * 1000 * usRoot) s
    have hrun : hostTimeout s = hostLoss false u := by
      have hopen : s.sess.host.isNone ≠ true := by simp [← Option.not_isSome, hhost]
      have hup' : dispatcherUp u = true := hup
      unfold hostTimeout
      rw [if_neg hopen]
      exact if_pos hup'
    have hgone : HostGone false u (hostLoss false u) := hostGone_hostLoss false hhost
    refine ⟨_, congrArg Host.Outcome.next hrun, ?_, hgone.session, hgone.status, ?_, ?_, ?_, hgone.queues, hgone.hostPath,
      hgone.jobs, fun e he => ?_, (memKept_runTo _ s).butLedger.trans hgone.mem⟩
    · exact (congrArg Clock.root hgone.clk).trans (now_runTo _ s)
    · exact (congrArg Ledger.hostLost hgone.noted :)
    · exact (congrArg Ledger.closed hgone.noted :)
    · rw [hgone.clk]
      exact (congrArg Ledger.lostStamp hgone.noted :)
    · have hentry : getStanding e (hostLoss false u) = entryLost (getStanding e s) := hgone.entries e he
      rw [hentry, entryLost]
      cases hsafe : (getStanding e s).desc.residentSafe <;> simp
  case close =>
    obtain ⟨hvia, hhost⟩ := via_host_of_mayIssue hmay
    have hrun := command_runs i Op.close allowH (fun s => answer i Op.close 0 0 (hostLoss true s)) s hmay
    have htaken := taken_beginCmd i Op.close s
    rw [touchMaint_host hvia] at hrun htaken
    have hsess : (beginCmd i Op.close s).sess = s.sess := (congrArg State.sess (beginCmd_frame i Op.close s).1 :)
    generalize beginCmd i Op.close s = u at hrun htaken hsess
    have hgone := hostGone_hostLoss true (s := u) (hsess ▸ hhost)
    generalize hostLoss true u = v at hrun hgone
    have hmarks := hgone.noted.trans (ledgerMarksKept_completeCmd i Op.close 0 (word 0) [] v)
    have hregs : ∀ o, o ≠ Reg.CMPL_TAIL → o ≠ Reg.HOST_DISCARD → getReg o (answer i Op.close 0 0 v) = getReg o v :=
      fun o => completeCmd_reg o i Op.close 0 (word 0) [] v
    have hmem : (answer i Op.close 0 0 v).hostMem = v.hostMem :=
      hostMem_completeCmd_of_discarding i Op.close 0 (word 0) [] hgone.discarding
    obtain ⟨hrest, -⟩ := completeCmd_frame i Op.close 0 (word 0) [] v
    refine ⟨_, congrArg Host.Outcome.next hrun, ?_, ?_, (congrArg Ledger.closed hmarks :), ?_, fun q hq => ?_, fun a => ?_⟩
    · exact (congrArg (fun s : State => s.sess.host) hrest :).trans hgone.session
    · rw [regBit, hregs _ (by decide) (by decide)]
      exact hgone.status
    · exact (congrArg Ledger.lostStamp hmarks :).trans (congrArg Clock.tick htaken.clk)
    · have hne : ∀ q : Fin 8, Reg.JQq_STAT q.val ≠ Reg.CMPL_TAIL ∧ Reg.JQq_STAT q.val ≠ Reg.HOST_DISCARD := by decide
      obtain ⟨h1, h2⟩ := hne ⟨q, hq⟩
      rw [regBit, hregs _ h1 h2]
      exact hgone.queues q hq
    · obtain ⟨-, hbyte, -, -⟩ := hgone.mem
      obtain ⟨-, hbyte', -, -⟩ := htaken.mem
      rw [hostByte, hmem]
      exact (hbyte a).trans (hbyte' a)

end Sys2Proof.Machine
end

section
/-! What a command of the Postbox finds when it is taken up, and what its answer leaves. -/

namespace Sys2Proof.Machine

/-! ### Commands that run and are answered (R325, R326) -/

/-- What a command that ran on `u` and was answered in `v` leaves: registers but those of completions, and of the Dispatcher
all but the ring's commands and the ledger's accounts. -/
structure Answered (v t : State) : Prop where
  rest : onlyCompletion v t
  regs : ∀ o, o ≠ Reg.CMPL_TAIL → o ≠ Reg.HOST_DISCARD → getReg o t = getReg o v
  marks : ledgerMarksKept v t

theorem answered_answer (i : Issue) (op code detail : Nat) (v : State) : Answered v (answer i op code detail v) :=
  ⟨completeCmd_frame _ _ _ _ _ v, fun o => completeCmd_reg o _ _ _ _ _ v, ledgerMarksKept_completeCmd _ _ _ _ _ v⟩

namespace Answered

variable {v t : State}

theorem standing (h : Answered v t) (e : Nat) : getStanding e t = getStanding e v :=
  (congrArg (fun d : Dispatcher => tget (fun _ => Standing.reset) d.standing e) h.rest.2 :)

theorem handoff (h : Answered v t) (k : Nat) : getHandoff k t = getHandoff k v :=
  (congrArg (fun d : Dispatcher => tget (fun _ => Handoff.reset) d.handoffs k) h.rest.2 :)

theorem rings (h : Answered v t) : t.disp.rings = v.disp.rings := (congrArg Dispatcher.rings h.rest.2 :)

theorem day (h : Answered v t) : t.day = v.day := (congrArg State.day h.rest.1 :)

theorem seq (h : Answered v t) : t.disp.ledger.seq = v.disp.ledger.seq := (congrArg Ledger.seq h.marks :)

theorem sess (h : Answered v t) : t.sess = v.sess := (congrArg State.sess h.rest.1 :)

end Answered

/-- What a command that has been taken to run finds: the state as it was, but for its place in the ring and the use of its
session. -/
structure TakenUp (i : Issue) (op : Nat) (s u : State) : Prop extends Taken s u where
  regs : ∀ o, o ≠ Reg.CMDQ_HEAD → getReg o u = getReg o s
  rest : { u with regs := s.regs, disp := s.disp, sess := s.sess } = s
  host : u.sess.host = s.sess.host
  ring : i.via = .host → u.disp.cmds = s.disp.cmds ++ [⟨i, op, none, false⟩]

theorem takenUp (i : Issue) (op : Nat) (s : State) : TakenUp i op s (touchMaint i.via (beginCmd i op s)) := by
  obtain ⟨hrest, -⟩ := beginCmd_frame i op s
  have hreg := fun o ho => beginCmd_reg o i op s ho
  have hring : i.via = .host → (beginCmd i op s).disp.cmds = s.disp.cmds ++ [⟨i, op, none, false⟩] := fun hvia => by
    unfold beginCmd
    rw [if_pos (show onRing i.via s = true by rw [hvia]; rfl)]
    dsimp only
    split <;> rfl
  refine ⟨taken_beginCmd i op s, ?_, ?_, ?_, ?_⟩ <;> generalize beginCmd i op s = u at hrest hreg hring <;>
    unfold touchMaint <;> split
  · exact hreg
  · exact hreg
  · exact (congrArg (fun t : State => { t with sess := s.sess }) hrest :)
  · exact (congrArg (fun t : State => { t with sess := s.sess }) hrest :)
  · exact (congrArg (fun t : State => t.sess.host) hrest :)
  · exact (congrArg (fun t : State => t.sess.host) hrest :)
  · exact hring
  · exact hring

/-- A command that may be issued runs on a state in which it has been taken up. -/
theorem command_takenUp {i : Issue} {op : Nat} {allow : List Session} {s : State} (h : mayIssue i op allow s = true)
    (zero : Bool) (run : State → State) : ∃ u, TakenUp i op s u ∧ commandZ i op allow zero run s = run u :=
  ⟨_, takenUp i op s, commandZ_runs i op allow zero run s h⟩

end Sys2Proof.Machine
end

section
/-! What READ_LEDGER writes, and what software reads of the ledger. -/

namespace Sys2Proof.Machine

/-! ### Bytes of host memory -/

/-- A store leaves the bytes of other addresses as they were. -/
theorem hostByte_hostStore_other (a x : Nat) (bs : List Byte) (s : State)
    (h : ∀ i < bs.length, x % 2 ^ 64 ≠ (a + i) % 2 ^ 64) : hostByte x (hostStore a bs s) = hostByte x s := by
  induction bs generalizing a s with
  | nil => rfl
  | cons b r ih =>
    have hfirst : x % 2 ^ 64 ≠ a % 2 ^ 64 := h 0 (Nat.succ_pos _)
    rw [hostStore, ih (a + 1) _ fun i hi => by rw [Nat.add_assoc, Nat.add_comm 1]; exact h (i + 1) (Nat.succ_lt_succ hi),
      hostByte_store_one, if_neg hfirst]

theorem hostBytes_succ (a n : Nat) (s : State) : hostBytes a (n + 1) s = hostByte a s :: hostBytes (a + 1) n s := by
  simp only [hostBytes, List.range_succ_eq_map, List.map_cons, List.map_map, Nat.add_zero, Function.comp_def,
    Nat.succ_eq_add_one, Nat.add_assoc, Nat.add_comm 1]

/-- What has been stored is read back, while it does not run round the address space. -/
theorem hostBytes_hostStore (a : Nat) (bs : List Byte) (s : State) (h : bs.length ≤ 2 ^ 64) :
    hostBytes a bs.length (hostStore a bs s) = bs := by
  induction bs generalizing a s with
  | nil => rfl
  | cons b r ih =>
    rw [List.length_cons] at h ⊢
    rw [hostBytes_succ, hostStore, ih (a + 1) _ (by omega), hostByte_hostStore_other _ _ _ _ fun i hi => by omega,
      hostByte_store_one, if_pos rfl]

/-! ### The ledger (R320, R322) -/

@[simp] theorem ledgerBytes_length (s : State) : (ledgerBytes s).length = 1088 := by
  have hheader : (ledgerHeader s).length = 64 := by rw [ledgerHeader, slice_length]
  have haccount : ∀ c, (accountBytes (account c s)).length = 64 := fun c => by rw [accountBytes, slice_length]
  simp only [ledgerBytes, List.length_append, hheader, List.length_flatMap, haccount, List.map_const', List.length_range,
    List.sum_replicate, smul_eq_mul]

/-- The ledger's bytes are made of the ledger and the mode. -/
theorem ledgerBytes_congr {s t : State} (hl : t.disp.ledger = s.disp.ledger) (hd : t.day = s.day) :
    ledgerBytes t = ledgerBytes s := by
  simp only [ledgerBytes, ledgerHeader, account, hl, hd]

theorem dramHas_mono {a b : Nat} {s : State} (hab : a ≤ b) (h : dramHas b s = true) : dramHas a s = true := by
  simp only [dramHas, Bool.or_eq_true, decide_eq_true_eq] at h ⊢
  exact h.imp_right hab.trans_lt

/-- R322: DRAM from 0x0010_0000 on shows the ledger. -/
theorem rdBytes_ledger {s : State} (h : dramHas (0x100000 + 1087) s = true) :
    rdBytes .dram 0x100000 1088 s = ledgerBytes s := by
  refine List.ext_getElem (by simp [rdBytes]) fun i hi hi' => ?_
  rw [ledgerBytes_length] at hi'
  have hkey : memKey .dram (0x100000 + i) = 0x100000 + i := Nat.mod_eq_of_lt (by omega)
  have hled : inLedger (memKey .dram (0x100000 + i)) = true := by
    rw [hkey]
    simp only [inLedger, Bool.and_eq_true, decide_eq_true_eq]
    omega
  have hhas : dramHas (memKey .dram (0x100000 + i)) s = true := by
    rw [hkey]
    exact dramHas_mono (by omega) h
  simp only [rdBytes, List.getElem_map, List.getElem_range]
  rw [rdByte_ledger _ _ hhas hled, hkey, Nat.add_sub_cancel_left, List.getD_eq_getElem]

end Sys2Proof.Machine
end

section
/-! The commands of the Dispatcher: queues, handoffs, standing entries, the ledger; and the settlement of O33. -/

namespace Sys2Proof.Machine

/-! ### QUEUE_CTL (R328) -/

section
variable {q : QueueCtl} (hq : q.queue.toNat < 8)
include hq

theorem setQueue_on (hen : q.enable ≠ 0) (u : State) : setQueue q u =
    setReg (Reg.JQq_STAT q.queue.toNat) 0x80000000 (setReg (Reg.JQq_TAIL q.queue.toNat) 0
      (setRing q.queue.toNat ⟨q.ring, q.size.toNat, q.cring, 0⟩ u)) := by
  simp only [setQueue, hq.ne, hen, if_false, ne_eq, not_false_eq_true, decide_true, if_true]

theorem setQueue_off (hen : q.enable = 0) (u : State) :
    setQueue q u = setRegFld (Reg.JQq_STAT q.queue.toNat) 31 31 0 u := by
  simp only [setQueue, hq.ne, hen, if_false, ne_eq, not_true_eq_false, decide_false, Bool.false_eq_true]

theorem queueCtl_taken {i : Issue} {u : State}
    (h : ¬(q.enable ≠ 0 ∧ i.via = .host ∧ regBit Reg.DEV_STATUS 30 u = true)) :
    queueCtl i q u = answer i Op.queueCtl 0 0 (setQueue q u) := by
  unfold queueCtl
  rw [if_neg (by omega), if_neg h]

theorem queueCtl_refused {i : Issue} {u : State} (h : q.enable ≠ 0 ∧ i.via = .host ∧ regBit Reg.DEV_STATUS 30 u = true) :
    queueCtl i q u = answer i Op.queueCtl Code.session 0 u := by
  unfold queueCtl
  rw [if_neg (by omega), if_pos h]

/-- The register of a queue's state is none of those of commands. -/
theorem queueStat_ne : Reg.JQq_STAT q.queue.toNat ≠ Reg.CMPL_TAIL ∧ Reg.JQq_STAT q.queue.toNat ≠ Reg.HOST_DISCARD ∧
    Reg.JQq_STAT q.queue.toNat ≠ Reg.CMDQ_HEAD := by
  have h : ∀ n : Fin 8, Reg.JQq_STAT n.val ≠ Reg.CMPL_TAIL ∧ Reg.JQq_STAT n.val ≠ Reg.HOST_DISCARD ∧
    Reg.JQq_STAT n.val ≠ Reg.CMDQ_HEAD := by decide
  exact h ⟨_, hq⟩

end

/-! ### SET_STANDING (R495) -/

section
variable {e : Nat} {u : State} (he : e < 16)
  (hidle : ∀ x, handleInfo (getStanding e u).desc.handle u = some x → x.retiring = false)

/-- The entry of SET_STANDING, disabled while its descriptor is judged. -/
def entryOff (e : Nat) (u : State) : State := setStandingEntry e { getStanding e u with enabled := false } u

include hidle in
/-- A handle that does not wait for its retirement stays when an entry that named it is disabled. -/
theorem retireIfIdle_entryOff : retireIfIdle (getStanding e u).desc.handle (entryOff e u) = entryOff e u := by
  have hinfo : handleInfo (getStanding e u).desc.handle (entryOff e u) = handleInfo (getStanding e u).desc.handle u := rfl
  unfold retireIfIdle
  rw [hinfo]
  cases h : handleInfo (getStanding e u).desc.handle u with
  | none => rfl
  | some x => simp only [hidle x h, Bool.false_and, Bool.false_eq_true, if_false]

include he hidle

theorem setStanding_off (i : Issue) (client addr : Nat) :
    setStanding i e false client addr u = answer i Op.setStanding 0 0 (entryOff e u) := by
  have hok : ¬(16 ≤ e ∨ (false = true ∧ (client < 8 ∨ 14 < client))) := by simp [he]
  unfold setStanding
  rw [if_neg hok]
  dsimp only
  rw [show setStandingEntry e { getStanding e u with enabled := false } u = entryOff e u from rfl, retireIfIdle_entryOff hidle]
  rfl

variable {client : Nat} (hc : 8 ≤ client ∧ client ≤ 14) (hm : u.marks = []) {addr : Nat}
include hc hm

/-- Over memory without error marks the descriptor is read and judged. -/
theorem setStanding_refused (i : Issue) {n : Nat} (hr : descriptorReason (parseJob (rdBytes .dram addr 96 u)) u = some n) :
    setStanding i e true client addr u = answer i Op.setStanding 0 n (entryOff e u) := by
  have hok : ¬(16 ≤ e ∨ (true = true ∧ (client < 8 ∨ 14 < client))) := by omega
  have hread := readMem_of_no_marks .dram addr 96 (s := entryOff e u) hm
  have hreason : descriptorReason (parseJob (rdBytes .dram addr 96 (entryOff e u))) (entryOff e u) = some n := hr
  unfold setStanding
  rw [if_neg hok]
  dsimp only
  rw [show setStandingEntry e { getStanding e u with enabled := false } u = entryOff e u from rfl, retireIfIdle_entryOff hidle,
    hread, hreason]
  rfl

theorem setStanding_accepted (i : Issue) (hr : descriptorReason (parseJob (rdBytes .dram addr 96 u)) u = none) :
    setStanding i e true client addr u = answer i Op.setStanding 0 0 (setStandingEntry e
      ⟨true, client, parseJob (rdBytes .dram addr 96 u), false, none, (getStanding e u).setNo + 1⟩ (entryOff e u)) := by
  have hok : ¬(16 ≤ e ∨ (true = true ∧ (client < 8 ∨ 14 < client))) := by omega
  have hread := readMem_of_no_marks .dram addr 96 (s := entryOff e u) hm
  have hreason : descriptorReason (parseJob (rdBytes .dram addr 96 (entryOff e u))) (entryOff e u) = none := hr
  unfold setStanding
  rw [if_neg hok]
  dsimp only
  rw [show setStandingEntry e { getStanding e u with enabled := false } u = entryOff e u from rfl, retireIfIdle_entryOff hidle,
    hread, hreason]
  rfl

end

/-! ### READ_LEDGER (R325, R328) -/

/-- The ledger with one more read. -/
def ledgerCounted (u : State) : State :=
  { u with disp := { u.disp with ledger := { u.disp.ledger with seq := u.disp.ledger.seq + 1, readStamp := u.clk.tick } } }

/-- What a store to host memory and the message of its vector leave: host memory and the outputs alone changed. -/
structure HostStored (a : Nat) (bs : List Byte) (u v : State) : Prop where
  rest : { v with hostMem := u.hostMem, outbox := u.outbox } = u
  mem : v.hostMem = (hostStore a bs u).hostMem

theorem hostStored_emit (a : Nat) (bs : List Byte) (o : Out) (u : State) : HostStored a bs u (emit o (hostStore a bs u)) :=
  ⟨(congrArg (fun t : State => { t with outbox := u.outbox }) (hostStore_frame a bs u) :), rfl⟩

namespace HostStored

variable {a : Nat} {bs : List Byte} {u v : State} (h : HostStored a bs u v)
include h

theorem disp : v.disp = u.disp := (congrArg State.disp h.rest :)
theorem sess : v.sess = u.sess := (congrArg State.sess h.rest :)
theorem day : v.day = u.day := (congrArg State.day h.rest :)
theorem reg (o : Nat) : getReg o v = getReg o u := (congrArg (getReg o) h.rest :)

end HostStored

/-- The end of READ_LEDGER: it is answered, and in a host session HOST_LOST ends with the completion. -/
def ledgerAnswered (i : Issue) (v : State) : State :=
  let t := answer i Op.readLedger 0 0 v
  if i.via = .host && !ledgerWaits t then ledgerCompletes t else t

/-- While nothing is discarded READ_LEDGER writes the ledger and is answered. -/
theorem readLedger_stores (i : Issue) (a : Nat) {u : State} (h : u.disp.discarding = false) :
    ∃ v, HostStored a (ledgerBytes (ledgerCounted u)) (ledgerCounted u) v ∧ readLedger i a u = ledgerAnswered i v := by
  refine ⟨_, hostStored_emit a _ (.msix 12) (ledgerCounted u), ?_⟩
  simp only [readLedger, ledgerAnswered, ledgerCounted, h, Bool.false_eq_true, if_false]

/-! ### Completions in the order of the ring (R325) -/

/-- An entry goes to the last place of the ring when no command before it is of the same kind. -/
theorem fillSlot_append (i : Issue) (op : Nat) (e : List Byte) {l : List CmdSlot} (h : ∀ c ∈ l, c.op ≠ op) :
    fillSlot i op e (l ++ [⟨i, op, none, false⟩]) = l ++ [⟨i, op, some e, false⟩] := by
  induction l with
  | nil => simp [fillSlot]
  | cons c r ih =>
    obtain ⟨hc, hr⟩ := List.forall_mem_cons.mp h
    rw [List.cons_append, fillSlot, if_neg fun hfill => hc hfill.2.1, ih hr, List.cons_append]

theorem answer_ring {i : Issue} (hvia : i.via = .host) (op : Nat) {v : State} {l : List CmdSlot} (h : ∀ c ∈ l, c.op ≠ op)
    (hring : v.disp.cmds = l ++ [⟨i, op, none, false⟩]) :
    answer i op 0 0 v = flushCmds (l ++ [⟨i, op, some (cmplEntry i op 0 (word 0) []), false⟩]) v := by
  have hon : onRing i.via v = true := by
    rw [hvia]
    rfl
  rw [answer, completeCmd, if_pos hon, hring, fillSlot_append i op _ h]

/-- A command that is alone in the ring is completed at once. -/
theorem answer_ring_alone {i : Issue} (hvia : i.via = .host) (op : Nat) {v : State}
    (hring : v.disp.cmds = [⟨i, op, none, false⟩]) : (answer i op 0 0 v).disp.cmds = [] := by
  rw [answer_ring hvia op (l := []) (List.forall_mem_nil _) hring]
  rfl

/-- A command behind one that has not completed waits with its completion. -/
theorem answer_ring_behind {i : Issue} (hvia : i.via = .host) (op : Nat) {v : State} {c : CmdSlot} {r : List CmdSlot}
    (hc : c.entry = none) (h : ∀ c' ∈ c :: r, c'.op ≠ op) (hring : v.disp.cmds = (c :: r) ++ [⟨i, op, none, false⟩]) :
    answer i op 0 0 v = { v with disp := { v.disp with
      cmds := (c :: r) ++ [⟨i, op, some (cmplEntry i op 0 (word 0) []), false⟩] } } := by
  rw [answer_ring hvia op h hring, List.cons_append, flushCmds, hc]

/-- R328: the completion of a READ_LEDGER of the host session clears HOST_LOST and sets LEDGER_READ. -/
theorem ledgerCompletes_shown {v : State} (h : v.sess.host.isSome = true) :
    regBit Reg.DEV_STATUS 30 (ledgerCompletes v) = false ∧ regBit Reg.SESSION_STAT 27 (ledgerCompletes v) = true := by
  have hshown : ∀ n, n < 2 ^ 16 → bit (word (2 ^ 31 + 1 * 2 ^ 28 + true.toNat * 2 ^ 27 + n)) 27 = true := fun n hn => by
    rw [bit, word, BitVec.getLsbD_ofNat, Nat.testBit_eq_decide_div_mod_eq, Bool.and_eq_true, decide_eq_true_eq,
      decide_eq_true_eq, Bool.toNat_true]
    omega
  have hopen : (setRegFld Reg.DEV_STATUS 30 30 0 { v with disp := { v.disp with ledgerRead := true } }).sess.host.isSome =
    true := h
  unfold ledgerCompletes showSession
  rw [hopen]
  constructor
  · rw [regBit_setReg_other _ _ _ (by decide), regBit_setRegFld_inside _ _ _ _ _ _ (by decide) (by decide) (by decide)]
    rfl
  · rw [regBit_setReg_same]
    exact hshown _ (Nat.mod_lt _ (by decide))

theorem ledgerCompletes_disp (v : State) : (ledgerCompletes v).disp = { v.disp with ledgerRead := true } := by
  simp only [ledgerCompletes, showSession, setRegFld, modReg, setReg_disp]

section
variable {i : Issue} {v : State}

/-- Counting the read and completing the command leave the rest of the ledger's marks as they are. -/
theorem ledgerAnswered_seq : (ledgerAnswered i v).disp.ledger.seq = v.disp.ledger.seq := by
  have hseq := (answered_answer i Op.readLedger 0 0 v).seq
  unfold ledgerAnswered
  generalize answer i Op.readLedger 0 0 v = t at hseq
  dsimp only
  split
  · rw [ledgerCompletes_disp]
    exact hseq
  · exact hseq

theorem ledgerAnswered_alone (hvia : i.via = .host) (hopen : v.sess.host.isSome = true)
    (hring : v.disp.cmds = [⟨i, Op.readLedger, none, false⟩]) :
    regBit Reg.DEV_STATUS 30 (ledgerAnswered i v) = false ∧ regBit Reg.SESSION_STAT 27 (ledgerAnswered i v) = true := by
  have hnone := answer_ring_alone hvia Op.readLedger hring
  have hsess := (answered_answer i Op.readLedger 0 0 v).sess
  unfold ledgerAnswered
  generalize answer i Op.readLedger 0 0 v = t at hnone hsess
  have hwaits : ledgerWaits t = false := by
    rw [ledgerWaits, hnone]
    rfl
  simp only [hvia, hwaits, decide_true, Bool.not_false, Bool.and_true, if_true]
  exact ledgerCompletes_shown (hsess ▸ hopen)

theorem ledgerAnswered_behind (hvia : i.via = .host) {c : CmdSlot} {r : List CmdSlot} (hc : c.entry = none)
    (hops : ∀ c' ∈ c :: r, c'.op ≠ Op.readLedger)
    (hring : v.disp.cmds = (c :: r) ++ [⟨i, Op.readLedger, none, false⟩]) :
    getReg Reg.DEV_STATUS (ledgerAnswered i v) = getReg Reg.DEV_STATUS v ∧
      (ledgerAnswered i v).disp.ledgerRead = v.disp.ledgerRead := by
  have heq := answer_ring_behind hvia Op.readLedger hc hops hring
  have hwaits : ledgerWaits (answer i Op.readLedger 0 0 v) = true := by
    rw [heq, ledgerWaits]
    simp [hvia]
  have hplain : ledgerAnswered i v = answer i Op.readLedger 0 0 v := by
    simp only [ledgerAnswered, hwaits, Bool.not_true, Bool.and_false, Bool.false_eq_true, if_false]
  rw [hplain, heq]
  exact ⟨rfl, rfl⟩

/-- To the port a command is answered with a datagram alone. -/
theorem ledgerAnswered_port (hvia : i.via = .port) :
    (ledgerAnswered i v).disp = v.disp ∧ (ledgerAnswered i v).hostMem = v.hostMem ∧ (ledgerAnswered i v).day = v.day := by
  have hplain : ledgerAnswered i v = answer i Op.readLedger 0 0 v := by simp [ledgerAnswered, hvia]
  rw [hplain, answer, completeCmd, if_neg (by simp [hvia, onRing])]
  split <;> exact ⟨rfl, rfl, rfl⟩

end

section
variable {i : Issue} {a : Nat} {s u : State} (hu : TakenUp i Op.readLedger s u) (hd : s.disp.discarding = false)
include hu hd

theorem discarding_takenUp : u.disp.discarding = false := (congrArg Dispatcher.discarding hu.disp :).trans hd

theorem readLedger_seq : (readLedger i a u).disp.ledger.seq = s.disp.ledger.seq + 1 := by
  obtain ⟨v, hv, hrun⟩ := readLedger_stores i a (discarding_takenUp hu hd)
  rw [hrun, ledgerAnswered_seq, hv.disp]
  exact (congrArg (fun d : Dispatcher => d.ledger.seq + 1) hu.disp :)

theorem readLedger_alone (hvia : i.via = .host) (hopen : s.sess.host.isSome = true) (hcmds : s.disp.cmds = []) :
    regBit Reg.DEV_STATUS 30 (readLedger i a u) = false ∧ regBit Reg.SESSION_STAT 27 (readLedger i a u) = true := by
  obtain ⟨v, hv, hrun⟩ := readLedger_stores i a (discarding_takenUp hu hd)
  rw [hrun]
  refine ledgerAnswered_alone hvia ?_ ?_
  · rw [hv.sess]
    exact (congrArg Option.isSome hu.host :).trans hopen
  · rw [hv.disp]
    exact (hu.ring hvia).trans (by rw [hcmds]; rfl)

theorem readLedger_behind (hvia : i.via = .host) {c : CmdSlot} {r : List CmdSlot} (hcmds : s.disp.cmds = c :: r)
    (hc : c.entry = none) (hops : ∀ c ∈ s.disp.cmds, c.op ≠ Op.readLedger) :
    regBit Reg.DEV_STATUS 30 (readLedger i a u) = regBit Reg.DEV_STATUS 30 s ∧
      (readLedger i a u).disp.ledgerRead = s.disp.ledgerRead := by
  obtain ⟨v, hv, hrun⟩ := readLedger_stores i a (discarding_takenUp hu hd)
  have hring : v.disp.cmds = (c :: r) ++ [⟨i, Op.readLedger, none, false⟩] := by
    rw [hv.disp, ← hcmds]
    exact hu.ring hvia
  obtain ⟨hdev, hread⟩ := ledgerAnswered_behind hvia hc (hcmds ▸ hops) hring
  have hkept : getReg Reg.DEV_STATUS (ledgerCounted u) = getReg Reg.DEV_STATUS s := hu.regs _ (by decide)
  rw [hrun, regBit, hdev, hread, hv.reg, hkept, hv.disp]
  exact ⟨rfl, (congrArg Dispatcher.ledgerRead hu.disp :)⟩

theorem readLedger_port (hvia : i.via = .port) :
    (readLedger i a u).disp.ledger = { s.disp.ledger with seq := s.disp.ledger.seq + 1, readStamp := s.clk.tick } ∧
      hostBytes a 1088 (readLedger i a u) = ledgerBytes (readLedger i a u) := by
  obtain ⟨v, hv, hrun⟩ := readLedger_stores i a (discarding_takenUp hu hd)
  obtain ⟨hdisp, hmem, hday⟩ := ledgerAnswered_port (v := v) hvia
  have hled : u.disp.ledger = s.disp.ledger := (congrArg Dispatcher.ledger hu.disp :)
  have hbytes : ledgerBytes (ledgerAnswered i v) = ledgerBytes (ledgerCounted u) :=
    ledgerBytes_congr (congrArg Dispatcher.ledger (hdisp.trans hv.disp)) (hday.trans hv.day)
  have hlen := ledgerBytes_length (ledgerCounted u)
  rw [hrun]
  constructor
  · rw [hdisp, hv.disp]
    simp only [ledgerCounted, hled, hu.clk]
  · rw [hbytes]
    have hmem' := hmem.trans hv.mem
    generalize ledgerBytes (ledgerCounted u) = bs at hlen hmem'
    have hread := hostBytes_hostStore a bs (ledgerCounted u) (by rw [hlen]; decide)
    rw [hlen] at hread
    rw [← hread]
    simp only [hostBytes, hostByte, hmem']

end

end Sys2Proof.Machine
end

section
/-! The settlement of O33: QUEUE_CTL, HANDOFF, SET_STANDING and READ_LEDGER. -/

namespace Sys2Proof.Machine

/-! ### What a command that is taken up finds of the Dispatcher -/

namespace TakenUp

variable {i : Issue} {op : Nat} {s u : State} (h : TakenUp i op s u)
include h

theorem standing (e : Nat) : getStanding e u = getStanding e s :=
  (congrArg (fun d : Dispatcher => tget (fun _ => Standing.reset) d.standing e) h.disp :)

theorem handoff (k : Nat) : getHandoff k u = getHandoff k s :=
  (congrArg (fun d : Dispatcher => tget (fun _ => Handoff.reset) d.handoffs k) h.disp :)

theorem marks : u.marks = s.marks := (congrArg State.marks h.rest :)

theorem handles : u.disp.handles = s.disp.handles := (congrArg Dispatcher.handles h.disp :)

theorem descriptorReason (d : JobDesc) : Machine.descriptorReason d u = Machine.descriptorReason d s :=
  descriptorReason_congr h.handles (congrArg State.fuses h.rest :) d

theorem notRetiring {e : Nat} (hidle : ∀ x, handleInfo (getStanding e s).desc.handle s = some x → x.retiring = false) :
    ∀ x, handleInfo (getStanding e u).desc.handle u = some x → x.retiring = false := by
  rw [h.standing, handleInfo_congr h.handles]
  exact hidle

end TakenUp

/-! ### The commands (R305, R328, R495) -/

/-- QUEUE_CTL, when it is not refused: its queue's registers and ring are those that it sets. -/
theorem queueCtl_sets {i : Issue} {q : QueueCtl} {u : State} (hq : q.queue.toNat < 8)
    (h : ¬(q.enable ≠ 0 ∧ i.via = .host ∧ regBit Reg.DEV_STATUS 30 u = true)) :
    getReg (Reg.JQq_STAT q.queue.toNat) (queueCtl i q u) = getReg (Reg.JQq_STAT q.queue.toNat) (setQueue q u) ∧
      (queueCtl i q u).disp.rings = (setQueue q u).disp.rings := by
  have hans := answered_answer i Op.queueCtl 0 0 (setQueue q u)
  obtain ⟨htail, hdiscard, -⟩ := queueStat_ne hq
  rw [queueCtl_taken hq h]
  exact ⟨hans.regs _ htail hdiscard, hans.rings⟩

theorem execQueueCtl_enables {i : Issue} {q : QueueCtl} {s : State} (hmay : mayIssue i Op.queueCtl allowHPM s = true)
    (hq : q.queue.toNat < 8) (hen : q.enable ≠ 0) (hlost : ¬(i.via = .host ∧ regBit Reg.DEV_STATUS 30 s = true)) :
    ∃ t, execQueueCtl i q s = .next t ∧ regBit (Reg.JQq_STAT q.queue.toNat) 31 t = true ∧
      regFld (Reg.JQq_STAT q.queue.toNat) 15 0 t = 0 ∧
      getRing q.queue.toNat t = ⟨q.ring, q.size.toNat, q.cring, 0⟩ := by
  obtain ⟨u, hu, hrun⟩ := command_takenUp hmay false (queueCtl i q)
  have hdev : regBit Reg.DEV_STATUS 30 u = regBit Reg.DEV_STATUS 30 s :=
    (congrArg (fun w => bit w 30) (hu.regs Reg.DEV_STATUS (by decide)) :)
  obtain ⟨hstat, hrings⟩ := queueCtl_sets (i := i) (u := u) hq (fun h => hlost (hdev ▸ h.2))
  rw [setQueue_on hq hen] at hstat hrings
  rw [getReg_setReg_same] at hstat
  refine ⟨_, congrArg Host.Outcome.next hrun, ?_, ?_, ?_⟩
  · rw [regBit, hstat]
    decide
  · rw [regFld, hstat]
    decide
  · rw [getRing, hrings]
    exact getRing_setRing_same _ _ u

theorem execQueueCtl_afterLoss {i : Issue} {q : QueueCtl} {s : State} (hmay : mayIssue i Op.queueCtl allowHPM s = true)
    (hq : q.queue.toNat < 8) (hen : q.enable ≠ 0) (hvia : i.via = .host) (hlost : regBit Reg.DEV_STATUS 30 s = true) :
    ∃ t, execQueueCtl i q s = .next t ∧ getReg (Reg.JQq_STAT q.queue.toNat) t = getReg (Reg.JQq_STAT q.queue.toNat) s ∧
      t.disp.rings = s.disp.rings := by
  obtain ⟨u, hu, hrun⟩ := command_takenUp hmay false (queueCtl i q)
  have hdev : regBit Reg.DEV_STATUS 30 u = regBit Reg.DEV_STATUS 30 s :=
    (congrArg (fun w => bit w 30) (hu.regs Reg.DEV_STATUS (by decide)) :)
  have hans := answered_answer i Op.queueCtl Code.session 0 u
  obtain ⟨htail, hdiscard, hhead⟩ := queueStat_ne hq
  rw [queueCtl_refused hq ⟨hen, hvia, hdev.trans hlost⟩] at hrun
  exact ⟨_, congrArg Host.Outcome.next hrun, (hans.regs _ htail hdiscard).trans (hu.regs _ hhead),
    hans.rings.trans (congrArg Dispatcher.rings hu.disp :)⟩

theorem execQueueCtl_disables {i : Issue} {q : QueueCtl} {s : State} (hmay : mayIssue i Op.queueCtl allowHPM s = true)
    (hq : q.queue.toNat < 8) (hen : q.enable = 0) :
    ∃ t, execQueueCtl i q s = .next t ∧ regBit (Reg.JQq_STAT q.queue.toNat) 31 t = false := by
  obtain ⟨u, -, hrun⟩ := command_takenUp hmay false (queueCtl i q)
  obtain ⟨hstat, -⟩ := queueCtl_sets (i := i) (u := u) hq (fun h => h.1 hen)
  rw [setQueue_off hq hen] at hstat
  refine ⟨_, congrArg Host.Outcome.next hrun, ?_⟩
  rw [regBit, hstat]
  exact regBit_setRegFld_inside _ _ _ _ _ _ (by decide) (by decide) (by decide)

theorem execHandoff_sets {i : Issue} {k : BitVec 8} (a b : Word64) {s : State} (hmay : mayIssue i Op.handoff allowPM s = true)
    (hlo : 2 ≤ k.toNat) (hhi : k.toNat ≤ 15) :
    ∃ t, execHandoff i k a b s = .next t ∧
      getHandoff (fabricKey k.toNat) t = { getHandoff (fabricKey k.toNat) s with slot0 := a, slot1 := b } := by
  obtain ⟨u, hu, hrun⟩ := command_takenUp hmay false (setSlots i k.toNat a b)
  have hok : ¬(k.toNat < 2 ∨ 15 < k.toNat) := by omega
  refine ⟨_, congrArg Host.Outcome.next hrun, ?_⟩
  rw [setSlots, if_neg hok, (answered_answer _ _ _ _ _).handoff, getHandoff_setHandoff_same, hu.handoff]

section
variable {i : Issue} {e c : BitVec 8} {a : Word64} {s : State} (hmay : mayIssue i Op.setStanding allowHPM s = true)
  (hmarks : s.marks = [])
  (hidle : ∀ x, handleInfo (getStanding e.toNat s).desc.handle s = some x → x.retiring = false)
  (he : e.toNat < 16) (hc : 8 ≤ c.toNat ∧ c.toNat ≤ 14)
include hmay hmarks hidle he hc

theorem execSetStanding_accepts {en : BitVec 8} (hen : en ≠ 0)
    (hreason : descriptorReason (parseJob (rdBytes .dram a.toNat 96 s)) s = none) :
    ∃ t, execSetStanding i e en c a s = .next t ∧ getStanding e.toNat t =
      ⟨true, c.toNat, parseJob (rdBytes .dram a.toNat 96 s), false, none, (getStanding e.toNat s).setNo + 1⟩ := by
  obtain ⟨u, hu, hrun⟩ := command_takenUp hmay false (setStanding i e.toNat (en ≠ 0) c.toNat a.toNat)
  have hreason' : descriptorReason (parseJob (rdBytes .dram a.toNat 96 u)) u = none := by
    rw [hu.descriptorReason, rdBytes_congr hu.mem, hreason]
  refine ⟨_, congrArg Host.Outcome.next hrun, ?_⟩
  rw [decide_eq_true hen, setStanding_accepted he (hu.notRetiring hidle) hc (hu.marks.trans hmarks) i hreason',
    (answered_answer _ _ _ _ _).standing, getStanding_setStandingEntry_same, rdBytes_congr hu.mem, hu.standing]

theorem execSetStanding_leavesOff {en : BitVec 8}
    (hoff : en = 0 ∨ descriptorReason (parseJob (rdBytes .dram a.toNat 96 s)) s ≠ none) :
    ∃ t, execSetStanding i e en c a s = .next t ∧ (getStanding e.toNat t).enabled = false := by
  obtain ⟨u, hu, hrun⟩ := command_takenUp hmay false (setStanding i e.toNat (en ≠ 0) c.toNat a.toNat)
  have hentry : ∀ n, (getStanding e.toNat (answer i Op.setStanding 0 n (entryOff e.toNat u))).enabled = false := fun n => by
    rw [(answered_answer _ _ _ _ _).standing, entryOff, getStanding_setStandingEntry_same]
  refine ⟨_, congrArg Host.Outcome.next hrun, ?_⟩
  by_cases hen : en = 0
  · rw [decide_eq_false (not_not.mpr hen), setStanding_off he (hu.notRetiring hidle)]
    exact hentry 0
  · obtain ⟨n, hn⟩ := Option.ne_none_iff_exists'.mp (hoff.resolve_left hen)
    have hreason : descriptorReason (parseJob (rdBytes .dram a.toNat 96 u)) u = some n := by
      rw [hu.descriptorReason, rdBytes_congr hu.mem, hn]
    rw [decide_eq_true hen, setStanding_refused he (hu.notRetiring hidle) hc (hu.marks.trans hmarks) i hreason]
    exact hentry n

end

/-- Settles O33: each command is taken up, does its work and is answered; the answer touches neither queues, handoffs nor
entries, and shows HOST_LOST ended only when it is written. -/
theorem dispatcherCommands : Obligations.DispatcherCommands := by
  unfold Obligations.DispatcherCommands
  refine ⟨fun i q s hmay hq => ⟨fun hen hlost => ?enables, fun hen hvia hlost => ?afterLoss, fun hen => ?disables⟩,
    fun i k a b s hmay hlo hhi => ?handoff,
    fun i e en c a s hmay hmarks hidle he hlo hhi => ⟨fun hen hreason => ?accepts, fun hoff => ?leavesOff⟩,
    fun i a s hmay hd => ?ledger, fun s h => rdBytes_ledger h⟩
  case enables => exact execQueueCtl_enables hmay hq hen hlost
  case afterLoss => exact execQueueCtl_afterLoss hmay hq hen hvia hlost
  case disables => exact execQueueCtl_disables hmay hq hen
  case handoff => exact execHandoff_sets a b hmay hlo hhi
  case accepts => exact execSetStanding_accepts hmay hmarks hidle he ⟨hlo, hhi⟩ hen hreason
  case leavesOff => exact execSetStanding_leavesOff hmay hmarks hidle he ⟨hlo, hhi⟩ hoff
  case ledger =>
    obtain ⟨u, hu, hrun⟩ := command_takenUp hmay false (readLedger i a.toNat)
    refine ⟨_, congrArg Host.Outcome.next hrun, ?_, fun hvia hcmds => ?_, fun hvia hbehind hops => ?_, fun hvia => ?_⟩
    · exact readLedger_seq hu hd
    · have hopen : s.sess.host.isSome = true := by
        simp only [mayIssue, hvia, Bool.and_eq_true] at hmay
        exact hmay.1.1
      exact readLedger_alone hu hd hvia hopen hcmds
    · obtain ⟨c, r, hcmds, hc⟩ := hbehind
      exact readLedger_behind hu hd hvia hcmds hc hops
    · exact readLedger_port hu hd hvia

end Sys2Proof.Machine
end

section
/-! The decision to dispatch: what comes before it, which job it chooses, and what it asks of the recorded header. -/

namespace Sys2Proof.Machine

/-! ### What comes before the choice (R63, R321) -/

/-- A pending operating point is taken at the decision's instant, or nothing changes. -/
theorem takePoint_cases (s : State) :
    takePoint s = s ∨
      takePoint s = setReg Reg.FAB_OP_STAT (word (regFld Reg.FAB_OP_CTL 1 0 s)) { s with bankLog := [] } := by
  unfold takePoint
  split
  · exact .inr rfl
  · exact .inl rfl

/-- Nothing changed but the operating point in effect, and the record of accesses to the banks. -/
structure PointOnly (s t : State) : Prop where
  rest : { t with regs := s.regs, bankLog := s.bankLog } = s
  regs : ∀ o, o ≠ Reg.FAB_OP_STAT → getReg o t = getReg o s

theorem pointOnly_takePoint (s : State) : PointOnly s (takePoint s) := by
  rcases takePoint_cases s with h | h <;> rw [h]
  · exact ⟨rfl, fun _ _ => rfl⟩
  · exact ⟨rfl, fun _ ho => getReg_setReg_other _ _ ho⟩

/-- Nothing changed but the ledger. -/
def ledgerOnly (s t : State) : Prop := { t with disp := { t.disp with ledger := s.disp.ledger } } = s

theorem ledgerOnly_trans {s t u : State} (h1 : ledgerOnly s t) (h2 : ledgerOnly t u) : ledgerOnly s u := by
  unfold ledgerOnly at h1 h2 ⊢
  exact (congrArg (fun v : State => { v with disp := { v.disp with ledger := s.disp.ledger } }) h2 :).trans h1

theorem ledgerOnly_foldl {α : Type} {f : State → α → State} (hf : ∀ s a, ledgerOnly s (f s a)) (l : List α) (s : State) :
    ledgerOnly s (l.foldl f s) := by
  induction l generalizing s with
  | nil => rfl
  | cons a l ih => exact ledgerOnly_trans (hf s a) (ih _)

theorem ledgerOnly_countHigher (s : State) : ledgerOnly s (countHigher s) := by
  unfold countHigher
  split
  · rfl
  · refine ledgerOnly_foldl (fun s p => ?_) _ s
    dsimp only
    split <;> rfl

/-! ### The choice (R307, R308, R312) -/

/-- What a choice looks at: the jobs, the day, the time, the held columns, and what inputs and bindings say. -/
theorem chooseJob_congr {s t : State} (hjobs : t.disp.jobs = s.disp.jobs) (hday : t.day = s.day) (hnow : now t = now s)
    (hcols : ∀ c, colHeld c t = colHeld c s) (htaken : t.disp.takenBy = s.disp.takenBy)
    (hhand : t.disp.handoffs = s.disp.handoffs) (hsaf : t.saf = s.saf) : chooseJob t = chooseJob s := by
  have hclass : ∀ j, jobClass j t = jobClass j s := fun j => by unfold jobClass; rw [hsaf]
  have hready : ∀ j, inputsComplete j t = inputsComplete j s := fun j => by
    have hinput : ∀ i, inputComplete j i t = inputComplete j i s := fun i => by
      unfold inputComplete
      rw [getHandoff_congr hhand, htaken]
    simp only [inputsComplete, hinput]
  have hcandidate : ∀ j, isCandidate j t = isCandidate j s := fun j => by
    simp only [isCandidate, replayBefore, hready, hjobs, hday, hclass]
  have hrank : ∀ a b, outranks a b t = outranks a b s := fun a b => by simp only [outranks, hclass]
  have hbefore : ∀ a b, before a b t = before a b s := fun a b => by simp only [before, hclass]
  have hshares : ∀ a b, beforeShares a b t = beforeShares a b s := fun a b => by
    have hused : ∀ c, usedTime c t = usedTime c s := fun c => by simp only [usedTime, hjobs, hday, hnow]
    unfold beforeShares
    simp only [hused, hclass, hday]
  have hmay : ∀ j, mayDispatch j t = mayDispatch j s := fun j => by
    simp only [mayDispatch, colsFree, hcandidate, hcols, hday, hjobs, hrank]
  unfold chooseJob
  simp only [hjobs, hmay, hday, hbefore, hshares]

theorem PointOnly.chooseJob {s t : State} (h : PointOnly s t) : Machine.chooseJob t = Machine.chooseJob s :=
  chooseJob_congr (congrArg (fun v : State => v.disp.jobs) h.rest :) (congrArg State.day h.rest :) (congrArg now h.rest :)
    (fun c => by
      have hne : Reg.FAB_COLn_OWNER c ≠ Reg.FAB_OP_STAT := by
        simp only [Reg.FAB_COLn_OWNER, Reg.FAB_OP_STAT]
        omega
      rw [colHeld, colHeld, regBit, regBit, h.regs _ hne])
    (congrArg (fun v : State => v.disp.takenBy) h.rest :) (congrArg (fun v : State => v.disp.handoffs) h.rest :)
    (congrArg State.saf h.rest :)

theorem chooseJob_ledgerOnly {s t : State} (h : ledgerOnly s t) : chooseJob t = chooseJob s :=
  chooseJob_congr (congrArg (fun v : State => v.disp.jobs) h :) (congrArg State.day h :) (congrArg now h :)
    (fun c => (congrArg (colHeld c) h :)) (congrArg (fun v : State => v.disp.takenBy) h :)
    (congrArg (fun v : State => v.disp.handoffs) h :) (congrArg State.saf h :)

/-- What is picked from a list by keeping the pick or taking the next is in the list, or was the pick before. -/
theorem foldl_pick {α : Type} {f : Option α → α → Option α} (hf : ∀ b a, f b a = some a ∨ f b a = b) (l : List α) (b : Option α)
    {x : α} (h : l.foldl f b = some x) : x ∈ l ∨ b = some x := by
  induction l generalizing b with
  | nil => exact .inr h
  | cons a l ih =>
    rcases ih (f b a) h with hx | hx
    · exact .inl (List.mem_cons_of_mem _ hx)
    · rcases hf b a with hb | hb <;> rw [hb] at hx
      · exact .inl (Option.some.inj hx ▸ List.mem_cons_self)
      · exact .inr hx

/-- A job that is dispatched is one of the jobs. -/
theorem chooseJob_mem {j : Job} {s : State} (h : chooseJob s = some j) : j ∈ s.disp.jobs := by
  unfold chooseJob at h
  have hpick := foldl_pick (fun b a => ?_) _ none h
  · exact (List.mem_filter.mp (hpick.resolve_right nofun)).1
  · cases b with
    | none => exact .inl rfl
    | some x =>
      dsimp only
      generalize (if s.day.sharesMode = true then beforeShares a x s else before a x s) = better
      cases better
      · exact .inr rfl
      · exact .inl rfl

end Sys2Proof.Machine
end

section
/-! The steps of a dispatch: inputs taken, columns held, ports shown, ballast set, counterfoil runs queued. -/

namespace Sys2Proof.Machine

/-! ### Inputs and counts (R17, R306, R321) -/

/-- Nothing changed but the locks, what takers have taken, and the ledger. -/
structure TakingOnly (s t : State) : Prop where
  rest : { t with disp := s.disp } = s
  disp : { t.disp with handoffs := s.disp.handoffs, takenBy := s.disp.takenBy, ledger := s.disp.ledger } = s.disp

namespace TakingOnly

variable {s t u : State}

theorem refl (s : State) : TakingOnly s s := ⟨rfl, rfl⟩

theorem trans (h1 : TakingOnly s t) (h2 : TakingOnly t u) : TakingOnly s u :=
  ⟨(congrArg (fun v : State => { v with disp := s.disp }) h2.rest :).trans h1.rest,
    (congrArg (fun d : Dispatcher =>
      { d with handoffs := s.disp.handoffs, takenBy := s.disp.takenBy, ledger := s.disp.ledger }) h2.disp :).trans h1.disp⟩

theorem dispOnly (h : TakingOnly s t) (P : Nat → Prop) : DispOnly P s t :=
  ⟨(congrArg (fun v : State => { v with regs := s.regs }) h.rest :), fun o _ => (congrArg (getReg o) h.rest :)⟩

theorem jobs (h : TakingOnly s t) : t.disp.jobs = s.disp.jobs := (congrArg Dispatcher.jobs h.disp :)
theorem standing (h : TakingOnly s t) : t.disp.standing = s.disp.standing := (congrArg Dispatcher.standing h.disp :)
theorem handles (h : TakingOnly s t) : t.disp.handles = s.disp.handles := (congrArg Dispatcher.handles h.disp :)
theorem loads (h : TakingOnly s t) : t.disp.loads = s.disp.loads := (congrArg Dispatcher.loads h.disp :)
theorem clk (h : TakingOnly s t) : t.clk = s.clk := (congrArg State.clk h.rest :)
theorem reg (h : TakingOnly s t) (o : Nat) : getReg o t = getReg o s := (congrArg (getReg o) h.rest :)
theorem fuses (h : TakingOnly s t) : t.fuses = s.fuses := (congrArg State.fuses h.rest :)

end TakingOnly

theorem ledgerOnly.takingOnly {s t : State} (h : ledgerOnly s t) : TakingOnly s t :=
  ⟨(congrArg (fun v : State => { v with disp := s.disp }) h :),
    (congrArg (fun v : State => { v.disp with handoffs := s.disp.handoffs, takenBy := s.disp.takenBy }) h :)⟩

/-- The inputs that a job takes at its first dispatch; a later run keeps those of the first. -/
def takenAt (was : Job) (s : State) : List (Nat × Bool) × State :=
  if was.stage = .waiting then takeInputs was s else (was.taken, s)

/-- An input taken and locked. -/
theorem takingOnly_lockSlot (k : Nat) (slot take : Bool) (m : Tab Nat) (s : State) :
    TakingOnly s { lockSlot k slot take s with disp := { (lockSlot k slot take s).disp with takenBy := m } } := ⟨rfl, rfl⟩

theorem takingOnly_takenAt (was : Job) (s : State) : TakingOnly s (takenAt was s).2 := by
  unfold takenAt takeInputs
  split
  · split
    · exact .refl s
    · refine List.foldlRecOn (was.desc.inputs) _ (motive := fun p : List (Nat × Bool) × State => TakingOnly s p.2) (.refl s)
        fun p hp i _ => hp.trans ?_
      exact takingOnly_lockSlot _ _ _ _ p.2
  · exact .refl s

theorem takingOnly_countDispatch (was : Job) (s : State) : TakingOnly s (countDispatch was s) := ⟨rfl, rfl⟩

/-! ### Columns, ports, ballast and runs (R31, R359, R373, R426) -/

/-- The registers that show what a job holds on the fabric. -/
def holdReg (o : Nat) : Bool :=
  o = Reg.DEV_STATUS || o = Reg.FAB_HELD || o = Reg.RNG_PORT_OWNER ||
    decide (Reg.FAB_COLn_OWNER 0 ≤ o ∧ o < Reg.FAB_COLn_OWNER 12)

/-- Nothing changed but the power and safety blocks and the registers that show what is held. -/
structure HoldOnly (s t : State) : Prop where
  rest : { t with regs := s.regs, pwr := s.pwr, saf := s.saf } = s
  regs : ∀ o, holdReg o = false → getReg o t = getReg o s

namespace HoldOnly

variable {s t u : State}

theorem trans (h1 : HoldOnly s t) (h2 : HoldOnly t u) : HoldOnly s u :=
  ⟨(congrArg (fun v : State => { v with regs := s.regs, pwr := s.pwr, saf := s.saf }) h2.rest :).trans h1.rest,
    fun o ho => (h2.regs o ho).trans (h1.regs o ho)⟩

theorem disp (h : HoldOnly s t) : t.disp = s.disp := (congrArg State.disp h.rest :)
theorem clk (h : HoldOnly s t) : t.clk = s.clk := (congrArg State.clk h.rest :)
theorem fuses (h : HoldOnly s t) : t.fuses = s.fuses := (congrArg State.fuses h.rest :)

theorem mem (h : HoldOnly s t) : memKeptButLedger s t := by
  refine memKeptButLedger_of (fun sp => ?_) (congrArg State.losses h.rest :) (h.regs _ (by decide))
    (congrArg State.hostMem h.rest :) (congrArg State.flash h.rest :) h.fuses
  have hrest := congrArg (memOf sp) h.rest
  cases sp <;> exact hrest

end HoldOnly

theorem holdOnly_withPwr (p : Power) (s : State) : HoldOnly s { s with pwr := p } := ⟨rfl, fun _ _ => rfl⟩

theorem holdOnly_withSaf (f : Safety) (s : State) : HoldOnly s { s with saf := f } := ⟨rfl, fun _ _ => rfl⟩

theorem holdOnly_setReg {o : Nat} (h : holdReg o = true) (v : Word) (s : State) : HoldOnly s (setReg o v s) :=
  ⟨rfl, fun p hp => getReg_setReg_other _ _ (fun e => by rw [e, h] at hp; cases hp)⟩

theorem holdReg_owner {c : Nat} (hc : c < 12) : holdReg (Reg.FAB_COLn_OWNER c) = true := by
  have h : ∀ c : Fin 12, holdReg (Reg.FAB_COLn_OWNER c) = true := by decide
  exact h ⟨c, hc⟩

theorem jobCols_lt {j : Job} {c : Nat} (h : c ∈ jobCols j) : c < 12 := by simpa using (List.mem_filter.mp h).2

/-- What the owner register of a column of a job shows. -/
def ownerWord (j : Job) : Word := word (2 ^ 31 + j.desc.handle * 2 ^ 22 + j.desc.jobId.toNat)

/-- The columns of a job held for it, its ring ports shown, and its ballast set. -/
def columnsTaken (j : Job) (s : State) : State :=
  ballastSet j (showPorts (holdCols (jobCols j) j.desc.handle j.desc.jobId s))

/-- What a dispatch notes in the safety block: its counterfoil runs, and a proof frame that is on its way. -/
def runsNoted (j : Job) (s : State) : State :=
  noteProof j { s with saf := { s.saf with runs := s.saf.runs ++ cfRunsOf j s } }

theorem holdOnly_holdCols (j : Job) (s : State) : HoldOnly s (holdCols (jobCols j) j.desc.handle j.desc.jobId s) := by
  have hcols : ∀ l : List Nat, (∀ c ∈ l, c < 12) → ∀ s, HoldOnly s (l.foldl (fun s c =>
      setReg (Reg.FAB_COLn_OWNER c) (ownerWord j) s) s) := fun l hl s => by
    refine ⟨?_, fun o ho => getReg_foldl_setReg_other (fun _ _ => ownerWord j) (fun c hc he => ?_) s⟩
    · have h := foldl_setReg_frame Reg.FAB_COLn_OWNER (fun _ _ => ownerWord j) l s
      exact (congrArg (fun v : State => { v with pwr := s.pwr, saf := s.saf }) h :)
    · rw [he, holdReg_owner (hl c hc)] at ho
      cases ho
  refine (hcols (jobCols j) (fun _ => jobCols_lt) s).trans ?_
  exact (holdOnly_setReg (o := Reg.FAB_HELD) (by decide) _ _).trans (holdOnly_setReg (o := Reg.DEV_STATUS) (by decide) _ _)

theorem holdOnly_columnsTaken (j : Job) (s : State) : HoldOnly s (columnsTaken j s) := by
  have hports : HoldOnly s (showPorts (holdCols (jobCols j) j.desc.handle j.desc.jobId s)) :=
    (holdOnly_holdCols j s).trans (holdOnly_setReg (o := Reg.RNG_PORT_OWNER) (by decide) _ _)
  unfold columnsTaken ballastSet
  split
  · exact hports
  · exact hports.trans (holdOnly_withPwr _ _)

theorem holdOnly_runsNoted (j : Job) (s : State) : HoldOnly s (runsNoted j s) := by
  unfold runsNoted noteProof
  split
  · exact (holdOnly_withSaf _ s).trans (holdOnly_withSaf _ _)
  · exact holdOnly_withSaf _ s

theorem regs_runsNoted (j : Job) (s : State) : (runsNoted j s).regs = s.regs := by
  unfold runsNoted noteProof
  split <;> rfl

theorem regs_ballastSet (j : Job) (s : State) : (ballastSet j s).regs = s.regs := by
  unfold ballastSet
  split <;> rfl

/-- The register of a column is none of those that show all that is held. -/
theorem owner_ne (c : Nat) : Reg.FAB_COLn_OWNER c ≠ Reg.DEV_STATUS ∧ Reg.FAB_COLn_OWNER c ≠ Reg.FAB_HELD ∧
    (c < 12 → Reg.FAB_COLn_OWNER c ≠ Reg.RNG_PORT_OWNER) := by
  simp only [Reg.FAB_COLn_OWNER, Reg.DEV_STATUS, Reg.FAB_HELD, Reg.RNG_PORT_OWNER]
  omega

/-- The columns of the job show it as their owner, and the others show what they showed. -/
theorem owner_columnsTaken (j : Job) (s : State) {c : Nat} (hc : c < 12) :
    getReg (Reg.FAB_COLn_OWNER c) (columnsTaken j s) =
      if c ∈ jobCols j then ownerWord j else getReg (Reg.FAB_COLn_OWNER c) s := by
  obtain ⟨hdev, hheld, hports⟩ := owner_ne c
  have hregs := regs_ballastSet j (showPorts (holdCols (jobCols j) j.desc.handle j.desc.jobId s))
  unfold columnsTaken
  rw [getReg, hregs]
  change getReg _ (showPorts _) = _
  rw [showPorts, getReg_setReg_other _ _ (hports hc), holdCols, getReg_showHeld hdev hheld]
  split
  next hmem => exact getReg_foldl_setReg_const _ ⟨c, hmem, rfl⟩ s
  next hout =>
    refine getReg_foldl_setReg_other (fun _ _ => ownerWord j) (fun b hb he => hout ?_) s
    have : c = b := by simp only [Reg.FAB_COLn_OWNER] at he; omega
    exact this ▸ hb

end Sys2Proof.Machine
end

section
/-! A dispatch from the decision to the check of the recorded header; and the settlement of O22. -/

namespace Sys2Proof.Machine

/-! ### The state in which a dispatch is made (R63, R307) -/

/-- The state in which a chosen job is dispatched: the point has been taken, who waits has been counted, and the dispatch's
instant has come. -/
def decisionState (j : Job) (s : State) : State := runTo (dispatchInstant j s) (countHigher (takePoint s))

/-- What a decision leaves as it was before it dispatches. -/
structure Decided (s w : State) : Prop where
  jobs : w.disp.jobs = s.disp.jobs
  standing : w.disp.standing = s.disp.standing
  handles : w.disp.handles = s.disp.handles
  loads : w.disp.loads = s.disp.loads
  regs : ∀ o, o ≠ Reg.FAB_OP_STAT → getReg o w = getReg o s
  point : getReg Reg.FAB_OP_STAT w = getReg Reg.FAB_OP_STAT (takePoint s)
  mem : memKeptButLedger s w

theorem PointOnly.mem {s t : State} (h : PointOnly s t) : memKeptButLedger s t := by
  refine memKeptButLedger_of (fun sp => ?_) (congrArg State.losses h.rest :) (h.regs _ (by decide))
    (congrArg State.hostMem h.rest :) (congrArg State.flash h.rest :) (congrArg State.fuses h.rest :)
  have hrest := congrArg (memOf sp) h.rest
  cases sp <;> exact hrest

theorem decided_decisionState (j : Job) (s : State) : Decided s (decisionState j s) := by
  have hpoint := pointOnly_takePoint s
  have hcount := (ledgerOnly_countHigher (takePoint s)).takingOnly
  unfold decisionState
  generalize countHigher (takePoint s) = v at hcount
  have hdisp : (takePoint s).disp = s.disp := (congrArg State.disp hpoint.rest :)
  refine ⟨hcount.jobs.trans (congrArg Dispatcher.jobs hdisp), hcount.standing.trans (congrArg Dispatcher.standing hdisp),
    hcount.handles.trans (congrArg Dispatcher.handles hdisp), hcount.loads.trans (congrArg Dispatcher.loads hdisp),
    fun o ho => (hcount.reg o).trans (hpoint.regs o ho), hcount.reg Reg.FAB_OP_STAT, ?_⟩
  exact hpoint.mem.trans (((hcount.dispOnly (fun _ => False)).memKeptButLedger id).trans (memKept_runTo _ v).butLedger)

theorem dispatchInstant_congr {s t : State} (hhand : t.disp.handoffs = s.disp.handoffs) (hnow : now t = now s) (j : Job) :
    dispatchInstant j t = dispatchInstant j s := by
  unfold dispatchInstant
  rw [hnow]
  simp only [getHandoff_congr hhand]

/-- A dispatch falls at the decision or one root cycle after it. -/
theorem now_le_dispatchInstant (j : Job) (s : State) : now s ≤ dispatchInstant j s := by
  unfold dispatchInstant
  split
  · exact Nat.le_succ _
  · exact le_rfl

theorem now_countHigher_takePoint (s : State) : now (countHigher (takePoint s)) = now s := by
  have hpoint := pointOnly_takePoint s
  have hcount := ledgerOnly_countHigher (takePoint s)
  generalize takePoint s = u at hpoint hcount
  generalize countHigher u = v at hcount
  exact (congrArg now hcount :).trans (congrArg now hpoint.rest :)

theorem now_decisionState (j : Job) (s : State) : now (decisionState j s) = dispatchInstant j s := by
  rw [decisionState, now_runTo, now_countHigher_takePoint]
  exact max_eq_right (now_le_dispatchInstant j s)

/-- While the Dispatcher runs and memory has trained, a decision dispatches the chosen job. -/
theorem decideDispatch_eq {j : Job} {s : State} (hup : dispatcherUp s = true) (hpop : regBit Reg.MEM_POP 31 s = true)
    (hj : chooseJob s = some j) : decideDispatch s = dispatchJob j (decisionState j s) := by
  have hpoint := pointOnly_takePoint s
  have hcount := ledgerOnly_countHigher (takePoint s)
  unfold decideDispatch decisionState
  generalize takePoint s = u at hpoint hcount
  have hup' : dispatcherUp u = true := by
    rw [← hup, dispatcherUp, dispatcherUp, coreUp, coreUp, regFld, regFld, regBit, regBit, hpoint.regs _ (by decide),
      hpoint.regs _ (by decide)]
  have hpop' : regBit Reg.MEM_POP 31 u = true := by
    rw [regBit, hpoint.regs _ (by decide)]
    exact hpop
  have hchoice : chooseJob (countHigher u) = some j := (chooseJob_ledgerOnly hcount).trans (hpoint.chooseJob.trans hj)
  have hinstant : dispatchInstant j (countHigher u) = dispatchInstant j s := by
    refine (dispatchInstant_congr (congrArg (fun v : State => v.disp.handoffs) hcount :) (congrArg now hcount :) j).trans ?_
    exact dispatchInstant_congr (congrArg (fun v : State => v.disp.handoffs) hpoint.rest :) (congrArg now hpoint.rest :) j
  simp only [hup', hpop', Bool.and_self, if_true, hchoice, hinstant]

/-! ### What the check of the header is made on (R58, R59) -/

/-- The job as its dispatch makes it. -/
def madeJob (was : Job) (w : State) : Job := dispatchedJob was (takenAt was w).1 (takenAt was w).2

/-- The state in which the job holds its columns and ports and its runs are queued. -/
def jobHolds (was : Job) (w : State) : State :=
  runsNoted (madeJob was w) (columnsTaken (madeJob was w) (setJob (madeJob was w) (countDispatch was (takenAt was w).2)))

/-- The state in which the header's checks are made. -/
def beforeCheck (was : Job) (w : State) : State := refreshReady (jobHolds was w)

/-- The end of a dispatch: a job that the check refuses ends with the fabric cycle, another one's load is issued. -/
def dispatchChecked (x : Job) (v : State) : State :=
  match (handleInfo x.desc.handle v).bind (fun i => dispatchCheck x i v) with
  | some c => refuseLoad x c (toCycleEnd v)
  | none => { v with disp := { v.disp with loads := v.disp.loads ++ [.load x.uid] } }

theorem dispatchJob_eq (was : Job) (w : State) : dispatchJob was w = dispatchChecked (madeJob was w) (beforeCheck was w) := rfl

theorem dispatchChecked_refused {x : Job} {v : State} {c : Cause}
    (h : (handleInfo x.desc.handle v).bind (fun i => dispatchCheck x i v) = some c) :
    dispatchChecked x v = refuseLoad x c (toCycleEnd v) := by
  unfold dispatchChecked
  rw [h]

theorem dispatchChecked_issued {x : Job} {v : State}
    (h : (handleInfo x.desc.handle v).bind (fun i => dispatchCheck x i v) = none) :
    dispatchChecked x v = { v with disp := { v.disp with loads := v.disp.loads ++ [.load x.uid] } } := by
  unfold dispatchChecked
  rw [h]

/-- What the dispatch leaves until the check: of the Dispatcher all but its jobs, locks and ledger, registers but those that
show what is held, memory, and the time. -/
structure ReadyToCheck (was : Job) (w v : State) : Prop where
  jobs : ∃ m, v.disp.jobs = w.disp.jobs.map (fun y => refreshJob m (if y.uid = was.uid then madeJob was w else y))
  handles : v.disp.handles = w.disp.handles
  loads : v.disp.loads = w.disp.loads
  regs : ∀ o, holdReg o = false → getReg o v = getReg o w
  owners : ∀ c < 12, getReg (Reg.FAB_COLn_OWNER c) v =
    if c ∈ jobCols was then ownerWord was else getReg (Reg.FAB_COLn_OWNER c) w
  clk : v.clk = w.clk
  mem : memKeptButLedger w v

theorem readyToCheck (was : Job) (w : State) : ReadyToCheck was w (beforeCheck was w) := by
  have htaken : TakingOnly w (countDispatch was (takenAt was w).2) :=
    (takingOnly_takenAt was w).trans (takingOnly_countDispatch was _)
  have hjob : (madeJob was w).uid = was.uid := rfl
  have hcols : jobCols (madeJob was w) = jobCols was := rfl
  have howner : ownerWord (madeJob was w) = ownerWord was := rfl
  unfold beforeCheck jobHolds
  generalize hx : madeJob was w = x at *
  generalize countDispatch was (takenAt was w).2 = t at htaken
  have hcolumns := holdOnly_columnsTaken x (setJob x t)
  have hhold := hcolumns.trans (holdOnly_runsNoted x _)
  have hregs := regs_runsNoted x (columnsTaken x (setJob x t))
  have hown : ∀ c < 12, getReg (Reg.FAB_COLn_OWNER c) (columnsTaken x (setJob x t)) =
      if c ∈ jobCols x then ownerWord x else getReg (Reg.FAB_COLn_OWNER c) (setJob x t) := fun c hc =>
    owner_columnsTaken x (setJob x t) hc
  generalize columnsTaken x (setJob x t) = a at hcolumns hhold hregs hown
  generalize runsNoted x a = b at hhold hregs
  refine ⟨⟨b, ?_⟩, ?_, ?_, fun o ho => ?_, fun c hc => ?_, ?_, ?_⟩
  · have hmarked : b.disp.jobs = w.disp.jobs.map (fun y => if y.uid = was.uid then x else y) := by
      rw [hhold.disp, setJob, htaken.jobs, hjob]
    simp only [refreshReady, hmarked, List.map_map, hx, Function.comp_def]
  · exact (congrArg Dispatcher.handles hhold.disp :).trans htaken.handles
  · exact (congrArg Dispatcher.loads hhold.disp :).trans htaken.loads
  · exact (hhold.regs o ho).trans (htaken.reg o)
  · have hsame : getReg (Reg.FAB_COLn_OWNER c) b = getReg (Reg.FAB_COLn_OWNER c) a := by simp only [getReg, hregs]
    change getReg (Reg.FAB_COLn_OWNER c) b = _
    rw [hsame, hown c hc, hcols, howner]
    split
    · rfl
    · exact htaken.reg _
  · exact hhold.clk.trans htaken.clk
  · have htake := (htaken.dispOnly (fun _ => False)).memKeptButLedger id
    have hset := (DispOnly.withDisp (P := fun _ => False) (setJob x t).disp t).memKeptButLedger id
    have hrefresh := (DispOnly.withDisp (P := fun _ => False) (refreshReady b).disp b).memKeptButLedger id
    exact htake.trans (hset.trans (hhold.mem.trans hrefresh))

/-! ### The check (R58, R59) -/

/-- The check refuses for a reason of its own, without a code. -/
theorem dispatchCheck_cause {j : Job} {i : HandleInfo} {s : State} {c : Cause} (h : dispatchCheck j i s = some c) :
    c.reason < 32 ∧ c.code < 256 := by
  have hmem := firstCause_mem h
  simp only [List.mem_append] at hmem
  rcases hmem with (((h | h) | h) | h) | h <;> rw [mem_need h] <;> decide

/-- Jobs are clear of a job when those that hold have none of its columns and ports. -/
def clashes (j : Job) (s : State) : Bool := columnClash j s || portClash j s

/-- What the check is made on. -/
theorem dispatchCheck_congr {j k : Job} {s t : State} (hdesc : j.desc = k.desc) (hfuses : t.fuses = s.fuses)
    (hpoint : getReg Reg.FAB_OP_STAT t = getReg Reg.FAB_OP_STAT s) (hctl : getReg Reg.RNG_CTL t = getReg Reg.RNG_CTL s)
    (hstat : getReg Reg.RNG_STAT t = getReg Reg.RNG_STAT s) (hclash : clashes j t = clashes k s) (i : HandleInfo) :
    dispatchCheck j i t = dispatchCheck k i s := by
  have hcols : enabledCols t = enabledCols s := by simp only [enabledCols, fuse, hfuses]
  have hring : ringUp t = ringUp s := by
    rw [ringUp, ringUp, regBit, regBit, regFld, regFld, hctl, hstat]
  have hshape : ringShape t = ringShape s := by
    unfold ringShape
    rw [hring, regFld, regFld, regFld, regFld, hstat]
  have hop : regFld Reg.FAB_OP_STAT 1 0 t = regFld Reg.FAB_OP_STAT 1 0 s := by rw [regFld, regFld, hpoint]
  unfold clashes at hclash
  unfold dispatchCheck
  simp only [hdesc, hcols, hshape, hop, hclash]

/-- A job itself, and the readiness of the others, do not count among those that hold what it needs. -/
theorem clashes_refreshed {j k : Job} {s t m : State} {x : Job} (huid : j.uid = k.uid) (hcols : jobCols j = jobCols k)
    (hports : j.ports = k.ports) (hx : x.uid = k.uid)
    (hjobs : t.disp.jobs = s.disp.jobs.map (fun y => refreshJob m (if y.uid = k.uid then x else y))) :
    clashes j t = clashes k s := by
  have hrefresh : ∀ y, (refreshJob m y).uid = y.uid ∧ (refreshJob m y).held = y.held ∧ (refreshJob m y).ports = y.ports ∧
      jobCols (refreshJob m y) = jobCols y := fun y => by
    unfold refreshJob
    split <;> exact ⟨rfl, rfl, rfl, rfl⟩
  have hany : ∀ P : Job → Bool, (∀ y, y.uid = k.uid → P y = false) → (∀ y, P (refreshJob m y) = P y) →
      t.disp.jobs.any P = s.disp.jobs.any P := fun P hself hready => by
    rw [hjobs, List.any_map]
    refine List.any_congr rfl fun y => ?_
    rw [Function.comp_apply, hready]
    split
    next hy => rw [hself x hx, hself y hy]
    next => rfl
  have hcolumn : columnClash j t = columnClash k s := by
    unfold columnClash
    rw [hany _ (fun y hy => by simp [hy, huid]) (fun y => by
      obtain ⟨hu, hh, -, hc⟩ := hrefresh y
      simp only [shareCol, hu, hh, hc])]
    simp only [shareCol, huid, hcols]
  have hport : portClash j t = portClash k s := by
    unfold portClash
    rw [hany _ (fun y hy => by simp [hy, huid]) (fun y => by
      obtain ⟨hu, hh, hp, -⟩ := hrefresh y
      simp only [hu, hh, hp])]
    simp only [huid, hports]
  rw [clashes, clashes, hcolumn, hport]

end Sys2Proof.Machine
end

section
/-! The settlement of O22: a chosen job holds its columns, and its load is queued or refused. -/

namespace Sys2Proof.Machine

/-- The ring ports that a job takes are those that the state before the decision names. -/
theorem madeJob_ports {j : Job} {s w : State} (hw : Decided s w) : (madeJob j w).ports = (dispatchedJob j [] s).ports := by
  have htaken := takingOnly_takenAt j w
  unfold madeJob
  generalize takenAt j w = p at htaken
  have hring : ringUp p.2 = ringUp s := by
    rw [ringUp, ringUp, regBit, regBit, regFld, regFld, htaken.reg, htaken.reg, hw.regs _ (by decide), hw.regs _ (by decide)]
  have hinfo : handleInfo j.desc.handle p.2 = handleInfo j.desc.handle s :=
    handleInfo_congr (htaken.handles.trans hw.handles) _
  simp only [dispatchedJob, hring, hinfo]

/-- R302: the first run of an entry that has not been set anew takes the entry's present generation. -/
theorem madeJob_gen {j : Job} {s w : State} {e : Nat} (hw : Decided s w) (hstage : j.stage = .waiting) (hproof : j.proof = none)
    (hentry : j.entry = some e) (hset : (getStanding e s).setNo = j.setNo) : (madeJob j w).gen = (getStanding e s).gen := by
  have htaken := takingOnly_takenAt j w
  unfold madeJob
  generalize takenAt j w = p at htaken
  have hstanding : getStanding e p.2 = getStanding e s := by
    rw [getStanding, getStanding, htaken.standing, hw.standing]
  simp only [dispatchedJob, hstage, hproof, hentry, Option.getD_some, hstanding, hset, decide_true, Option.isNone_none,
    Option.isSome_some, Bool.and_self, if_true]

theorem madeJob_dispatchAt (j : Job) (w : State) : (madeJob j w).dispatchAt = now w := by
  have htaken := takingOnly_takenAt j w
  unfold madeJob
  generalize takenAt j w = p at htaken
  exact congrArg Clock.root htaken.clk

/-- The check that a dispatch makes is that of the statement: on the state before the decision, after the point is taken. -/
theorem check_eq {j : Job} {s w v : State} (hw : Decided s w) (hv : ReadyToCheck j w v) :
    (handleInfo j.desc.handle v).bind (fun i => dispatchCheck (madeJob j w) i v) =
      (handleInfo j.desc.handle s).bind (fun i => dispatchCheck (dispatchedJob j [] s) i (takePoint s)) := by
  have hpoint := pointOnly_takePoint s
  have hstat := hw.point
  generalize takePoint s = u at hpoint hstat
  obtain ⟨-, -, -, hfuses⟩ := hw.mem
  obtain ⟨-, -, -, hfuses'⟩ := hv.mem
  obtain ⟨m, hjobs⟩ := hv.jobs
  have hujobs : u.disp.jobs = s.disp.jobs := (congrArg (fun t : State => t.disp.jobs) hpoint.rest :)
  have hreg : ∀ o, holdReg o = false → o ≠ Reg.FAB_OP_STAT → getReg o v = getReg o u := fun o hhold hne =>
    (hv.regs o hhold).trans ((hw.regs o hne).trans (hpoint.regs o hne).symm)
  have hclash : clashes (madeJob j w) v = clashes (dispatchedJob j [] s) u :=
    clashes_refreshed (x := madeJob j w) (m := m) rfl rfl (madeJob_ports hw) rfl (by rw [hjobs, hw.jobs, hujobs]; rfl)
  have hcheck := dispatchCheck_congr (j := madeJob j w) (k := dispatchedJob j [] s) (s := u) (t := v) rfl
    (hfuses'.trans (hfuses.trans (congrArg State.fuses hpoint.rest :).symm)) ((hv.regs _ (by decide)).trans hstat)
    (hreg _ (by decide) (by decide)) (hreg _ (by decide) (by decide)) hclash
  rw [handleInfo_congr (hv.handles.trans hw.handles)]
  simp only [hcheck]

/-- R31: an owner register shows HELD, the handle and JOB_ID. -/
theorem ownerWord_fields {j : Job} (h : j.desc.handle < 64) :
    bit (ownerWord j) 31 = true ∧ fld (ownerWord j) 27 22 = j.desc.handle ∧ fld (ownerWord j) 15 0 = j.desc.jobId.toNat := by
  have hid := j.desc.jobId.isLt
  have hword : (ownerWord j).toNat = 2 ^ 31 + j.desc.handle * 2 ^ 22 + j.desc.jobId.toNat :=
    (BitVec.toNat_ofNat _ _).trans (Nat.mod_eq_of_lt (by omega))
  refine ⟨?_, ?_, ?_⟩
  · rw [bit, BitVec.getLsbD, hword, Nat.testBit_eq_decide_div_mod_eq, decide_eq_true_eq]
    omega
  · rw [fld, hword]
    omega
  · rw [fld, hword]
    omega

/-- The dispatched job stands among the jobs in the place of the one that was chosen. -/
theorem madeJob_mem {j : Job} {w v : State} (hj : j ∈ w.disp.jobs) (hv : ReadyToCheck j w v) : madeJob j w ∈ v.disp.jobs := by
  obtain ⟨m, hjobs⟩ := hv.jobs
  have hloading : refreshJob m (madeJob j w) = madeJob j w := if_neg nofun
  rw [hjobs]
  exact List.mem_map.mpr ⟨j, hj, (congrArg (refreshJob m) (if_pos rfl)).trans hloading⟩

/-- Settles O22: the decision makes the dispatch at its instant, the columns show the job, and the check of the header decides
between the load's queue and the refusal at the end of the cycle. -/
theorem dispatchHoldsColumns : Obligations.DispatchHoldsColumns := by
  unfold Obligations.DispatchHoldsColumns
  intro j s hup hpop hj u check
  have hw := decided_decisionState j s
  have hnow := now_decisionState j s
  have hrun : decideDispatch s = dispatchChecked (madeJob j (decisionState j s)) (beforeCheck j (decisionState j s)) :=
    (decideDispatch_eq hup hpop hj).trans (dispatchJob_eq j _)
  generalize decisionState j s = w at hw hnow hrun
  have hv := readyToCheck j w
  generalize beforeCheck j w = v at hv hrun
  have hcheck := check_eq hw hv
  have hmem : madeJob j w ∈ v.disp.jobs := madeJob_mem (hw.jobs ▸ chooseJob_mem hj) hv
  refine ⟨fun hnone hhandle => ?issued, fun c hc => ?refused⟩
  case issued =>
    obtain ⟨hheld, hshown, hid⟩ := ownerWord_fields hhandle
    have howner : ∀ c ∈ jobCols j, getReg (Reg.FAB_COLn_OWNER c) v = ownerWord j := fun c hc =>
      (hv.owners c (jobCols_lt hc)).trans (if_pos hc)
    have hissued := hrun.trans (dispatchChecked_issued (x := madeJob j w) (hcheck.trans hnone))
    refine ⟨_, madeJob j w, congrArg Host.Outcome.next hissued, hmem, rfl, rfl, rfl, (madeJob_dispatchAt j w).trans hnow, rfl,
      ?_, fun e hstage hproof hentry hset => madeJob_gen hw hstage hproof hentry hset, fun c hc => ⟨?_, ?_, ?_⟩,
      fun c hc hout => ?_, ?_⟩
    · exact congrArg (· ++ [.load j.uid]) (hv.loads.trans hw.loads)
    · exact (congrArg (fun w => bit w 31) (howner c hc)).trans hheld
    · exact (congrArg (fun w => fld w 27 22) (howner c hc)).trans hshown
    · exact (congrArg (fun w => fld w 15 0) (howner c hc)).trans hid
    · have hne : Reg.FAB_COLn_OWNER c ≠ Reg.FAB_OP_STAT := by
        simp only [Reg.FAB_COLn_OWNER, Reg.FAB_OP_STAT]
        omega
      exact ((hv.owners c hc).trans (if_neg hout)).trans (hw.regs _ hne)
    · exact hw.mem.trans (hv.mem.trans ((DispOnly.withDisp (P := fun _ => False) _ v).memKeptButLedger id))
  case refused =>
    obtain ⟨i, -, hi⟩ := Option.bind_eq_some_iff.mp (hcheck.trans hc)
    obtain ⟨hreason, hcode⟩ := dispatchCheck_cause hi
    obtain ⟨hend, hgone, hfree, hphase, hshown⟩ := refuseLoad_frame (madeJob j w) (toCycleEnd v) hreason hcode
    have hrefused := hrun.trans (dispatchChecked_refused (x := madeJob j w) (hcheck.trans hc))
    refine ⟨_, congrArg Host.Outcome.next hrefused, hgone, hfree rfl, hphase, hshown, ?_⟩
    have hclk : now v = dispatchInstant j s := (congrArg Clock.root hv.clk :).trans hnow
    have hpoint : getReg Reg.FAB_OP_STAT v = getReg Reg.FAB_OP_STAT u := (hv.regs _ (by decide)).trans hw.point
    have hlater := (fabricEdge_bounds (dispatchInstant j s + 1) u).1
    rw [hend, toCycleEnd, now_runTo, fabricEdge_congr hpoint, hclk]
    omega

end Sys2Proof.Machine
end

section
/-! SET_DAY, SET_MODE and operating points: what waits for the next day boundary. -/

namespace Sys2Proof.Machine

/-! ### What a message to the ring leaves alone (R351) -/

/-- Nothing changed but the ring's state and the outputs. -/
def sentOnly (s t : State) : Prop := { t with ring := s.ring, outbox := s.outbox } = s

namespace sentOnly

variable {s t u : State}

theorem trans (h1 : sentOnly s t) (h2 : sentOnly t u) : sentOnly s u := by
  unfold sentOnly at h1 h2 ⊢
  exact (congrArg (fun v : State => { v with ring := s.ring, outbox := s.outbox }) h2 :).trans h1

theorem day (h : sentOnly s t) : t.day = s.day := (congrArg State.day h :)

theorem reg (h : sentOnly s t) (o : Nat) : getReg o t = getReg o s := (congrArg (getReg o) h :)

end sentOnly

theorem sentOnly_emit (o : Out) (s : State) : sentOnly s (emit o s) := rfl

theorem sentOnly_setPort (p : Nat) (v : RingPort) (s : State) : sentOnly s (setPort p v s) := rfl

theorem sentOnly_pump (p n : Nat) (s : State) : sentOnly s (pump p n s) := by
  induction n generalizing s with
  | zero => rfl
  | succ n ih =>
    unfold pump
    dsimp only
    split
    · rfl
    · split
      · rfl
      · exact ((sentOnly_setPort _ _ s).trans (sentOnly_emit _ _)).trans (ih _)

theorem sentOnly_sendEast (m : RingMsg) (s : State) : sentOnly s (sendEast m s) :=
  (sentOnly_emit _ s).trans ((sentOnly_setPort _ _ _).trans (sentOnly_pump _ _ _))

theorem sentOnly_bcastIfMaster (kind : Nat) (v : List Byte) (s : State) : sentOnly s (bcastIfMaster kind v s) := by
  unfold bcastIfMaster
  split
  · exact sentOnly_sendEast _ s
  · rfl

/-! ### What a command that is taken up finds of the day and the ring -/

namespace TakenUp

variable {i : Issue} {op : Nat} {s u : State} (h : TakenUp i op s u)
include h

theorem day : u.day = s.day := (congrArg State.day h.rest :)

theorem notMaster : Machine.notMaster u = Machine.notMaster s := by
  rw [Machine.notMaster, Machine.notMaster, ringUp, ringUp, regBit, regBit, regBit, regBit, regFld, regFld,
    h.regs _ (by decide), h.regs _ (by decide)]

theorem nextPeriod : Machine.nextPeriod u = Machine.nextPeriod s := by
  rw [Machine.nextPeriod, Machine.nextPeriod, regBit, regBit, regFld, regFld, h.regs _ (by decide), h.regs _ (by decide), h.day]

end TakenUp

/-! ### SET_DAY (R311) -/

/-- The settings that a SET_DAY asks for. -/
def askedDay (d l v : Word) : DaySettings := ⟨d.toNat, l.toNat, v.toNat⟩

section
variable {i : Issue} {d l v : Word} {s : State} (hmay : mayIssue i Op.setDay allowPM s = true) (hmaster : notMaster s = false)
include hmay hmaster

theorem execSetDay_accepted (hl : l ≠ 0) (hok : dayOk d.toNat v.toNat (nextPeriod s) = true) (hslot : l.toNat ≤ d.toNat / 2) :
    ∃ t, execSetDay i d l v s = .next t ∧ t.day = { s.day with pending := some (askedDay d l v) } ∧
      ∀ o, o ≠ Reg.CMPL_TAIL → o ≠ Reg.HOST_DISCARD → o ≠ Reg.CMDQ_HEAD → getReg o t = getReg o s := by
  obtain ⟨u, hu, hrun⟩ := command_takenUp hmay (decide (l = 0)) (setDay i (askedDay d l v))
  have hslot' : l.toNat ≠ 0 := fun h => hl (BitVec.eq_of_toNat_eq h)
  have htaken : setDay i (askedDay d l v) u = answer i Op.setDay 0 0 (bcastIfMaster 1
      (leBytes 4 d.toNat ++ leBytes 4 l.toNat ++ leBytes 4 v.toNat)
      { u with day := { u.day with pending := some (askedDay d l v) } }) := by
    simp only [setDay, askedDay, hslot', if_false, hu.notMaster, hmaster, Bool.false_eq_true, hu.nextPeriod, hok, hslot,
      decide_true, Bool.and_self, if_true]
  have hsent := sentOnly_bcastIfMaster 1 (leBytes 4 d.toNat ++ leBytes 4 l.toNat ++ leBytes 4 v.toNat)
    { u with day := { u.day with pending := some (askedDay d l v) } }
  rw [htaken] at hrun
  generalize bcastIfMaster 1 _ _ = w at hsent hrun
  have hans := answered_answer i Op.setDay 0 0 w
  refine ⟨_, congrArg Host.Outcome.next hrun, ?_, fun o htail hdiscard hhead => ?_⟩
  · rw [hans.day, hsent.day, hu.day]
  · exact (hans.regs o htail hdiscard).trans ((hsent.reg o).trans (hu.regs o hhead))

theorem execSetDay_refused (h : l = 0 ∨ dayOk d.toNat v.toNat (nextPeriod s) = false ∨ d.toNat / 2 < l.toNat) :
    ∃ t, execSetDay i d l v s = .next t ∧ t.day = s.day := by
  obtain ⟨u, hu, hrun⟩ := command_takenUp hmay (decide (l = 0)) (setDay i (askedDay d l v))
  refine ⟨_, congrArg Host.Outcome.next hrun, ?_⟩
  by_cases hl : l = 0
  · have hzero : setDay i (askedDay d l v) u = answer i Op.setDay Code.fieldZero 0 u :=
      if_pos (show l.toNat = 0 by rw [hl]; rfl)
    rw [hzero, (answered_answer _ _ _ _ u).day, hu.day]
  · have hslot : l.toNat ≠ 0 := fun h => hl (BitVec.eq_of_toNat_eq h)
    have hbad : ¬(dayOk d.toNat v.toNat (nextPeriod u) && decide (l.toNat ≤ d.toNat / 2)) = true := by
      rw [hu.nextPeriod, Bool.and_eq_true, decide_eq_true_eq]
      rintro ⟨hok, hshort⟩
      rcases h.resolve_left hl with hno | hlong
      · rw [hok] at hno
        cases hno
      · exact absurd hshort (not_le.mpr hlong)
    have hrefused : setDay i (askedDay d l v) u = refuseUnstated i Op.setDay u := by
      unfold setDay
      rw [if_neg (show ¬(askedDay d l v).slotUs = 0 from hslot), hu.notMaster, hmaster, if_neg Bool.false_ne_true]
      exact if_neg hbad
    rw [hrefused, refuseUnstated, (answered_answer _ _ _ _ _).day]
    exact hu.day

end

/-! ### SET_MODE (R310, R332) -/

theorem slice_of_length {bs : List Byte} {n : Nat} (h : bs.length = n) : slice bs 0 n = bs := by
  subst h
  refine List.ext_getElem (slice_length _ _ _) fun k hk hk' => ?_
  simp [slice]

section
variable {i : Issue} {m : BitVec 8} {sh : List Byte} {s : State} (hmay : mayIssue i Op.setMode allowPM s = true)
  (hlen : sh.length = 16)
include hmay hlen

theorem execSetMode_accepted (hm : m.toNat ≤ 1) (hsh : ∀ b ∈ sh, b ≠ 0) :
    ∃ t, execSetMode i m sh s = .next t ∧ t.day = { s.day with pendMode := some (decide (m.toNat = 1), sh) } := by
  obtain ⟨u, hu, hrun⟩ := command_takenUp hmay (zeroShare sh) (setMode i m.toNat sh)
  have hzero : zeroShare sh = false := by
    simp only [zeroShare, slice_of_length hlen, List.any_eq_false, decide_eq_true_eq]
    exact hsh
  have htaken : setMode i m.toNat sh u =
      answer i Op.setMode 0 0 { u with day := { u.day with pendMode := some (decide (m.toNat = 1), sh) } } := by
    simp only [setMode, hzero, Bool.false_eq_true, if_false, not_lt.mpr hm, slice_of_length hlen]
  refine ⟨_, congrArg Host.Outcome.next hrun, ?_⟩
  rw [htaken, (answered_answer _ _ _ _ _).day, hu.day]

theorem execSetMode_refused (hsh : ∃ b ∈ sh, b = 0) : ∃ t, execSetMode i m sh s = .next t ∧ t.day = s.day := by
  obtain ⟨u, hu, hrun⟩ := command_takenUp hmay (zeroShare sh) (setMode i m.toNat sh)
  have hzero : zeroShare sh = true := by
    simp only [zeroShare, slice_of_length hlen, List.any_eq_true, decide_eq_true_eq]
    exact hsh
  have htaken : setMode i m.toNat sh u = answer i Op.setMode Code.fieldZero 0 u := by simp only [setMode, hzero, if_true]
  refine ⟨_, congrArg Host.Outcome.next hrun, ?_⟩
  rw [htaken, (answered_answer _ _ _ _ u).day, hu.day]

end

/-! ### Operating points (R14, R63, R366) -/

/-- A request of a point shows it, and PENDING when it is not the one in effect. -/
structure PointAsked (p : Nat) (s t : State) : Prop where
  asked : regFld Reg.FAB_OP_CTL 1 0 t = p
  kept : regFld Reg.FAB_OP_STAT 1 0 t = regFld Reg.FAB_OP_STAT 1 0 s
  pending : regBit Reg.FAB_OP_STAT 2 t = decide (regFld Reg.FAB_OP_STAT 1 0 s ≠ p)
  only : onlyRegs [Reg.FAB_OP_CTL, Reg.FAB_OP_STAT] s t

theorem pointAsked {p : Nat} (hp : p ≤ 2) (s : State) : PointAsked p s (requestPoint p s) := by
  have hstat : regFld Reg.FAB_OP_STAT 1 0 (setRegFld Reg.FAB_OP_CTL 1 0 p s) = regFld Reg.FAB_OP_STAT 1 0 s := by
    rw [setRegFld_eq, regFld_setReg_other _ _ _ _ (by decide)]
  unfold requestPoint
  rw [if_neg (not_lt.mpr hp)]
  dsimp only
  rw [hstat]
  refine ⟨?_, ?_, ?_, ?_⟩
  · rw [setRegFld_eq, regFld_setReg_other _ _ _ _ (by decide), regFld_setRegFld_same _ _ _ _ _ (by decide)]
    omega
  · rw [regFld_setRegFld_apart _ _ _ _ _ _ _ (by decide), hstat]
  · rw [regBit_setRegFld_inside _ _ _ _ _ _ (by decide) (by decide) (by decide)]
    by_cases h : regFld Reg.FAB_OP_STAT 1 0 s = p <;> simp [h]
  · have hctl : Reg.FAB_OP_CTL ∈ [Reg.FAB_OP_CTL, Reg.FAB_OP_STAT] := by decide
    have hst : Reg.FAB_OP_STAT ∈ [Reg.FAB_OP_CTL, Reg.FAB_OP_STAT] := by decide
    exact onlyRegs_step hst (onlyRegs_step hctl (onlyRegs_refl _ s) _) _

theorem execOpPointRequest_asks {w : Writer} {v : Word} {s : State} (hnow : writesNow w s = true) (hv : fld v 1 0 ≤ 2) :
    ∃ t, execOpPointRequest w v s = .next t ∧ PointAsked (fld v 1 0) (usedBy w s) t :=
  ⟨_, congrArg Host.Outcome.next (asWriter_now w _ _ s hnow), pointAsked hv _⟩

theorem execOpPointRequest_ignored {w : Writer} {v : Word} {s : State} (hnow : writesNow w s = true) (hv : fld v 1 0 = 3) :
    execOpPointRequest w v s = .next (usedBy w s) := by
  have hignored : requestPoint (fld v 1 0) (usedBy w s) = usedBy w s := by
    rw [hv]
    rfl
  exact congrArg Host.Outcome.next ((asWriter_now w _ _ s hnow).trans hignored)

theorem execSetOpPoint_asks {i : Issue} {p : BitVec 8} {s : State} (hmay : mayIssue i Op.setOpPoint allowPM s = true)
    (hmaster : notMaster s = false) (hp : p.toNat ≤ 2) :
    ∃ t, execSetOpPoint i p s = .next t ∧ regFld Reg.FAB_OP_CTL 1 0 t = p.toNat ∧
      regFld Reg.FAB_OP_STAT 1 0 t = regFld Reg.FAB_OP_STAT 1 0 s ∧
      regBit Reg.FAB_OP_STAT 2 t = decide (regFld Reg.FAB_OP_STAT 1 0 s ≠ p.toNat) := by
  obtain ⟨u, hu, hrun⟩ := command_takenUp hmay false (setOpPoint i p.toNat)
  have hask := pointAsked hp u
  have hsent := sentOnly_bcastIfMaster 2 (leBytes 1 p.toNat) (requestPoint p.toNat u)
  have htaken : setOpPoint i p.toNat u =
      answer i Op.setOpPoint 0 0 (bcastIfMaster 2 (leBytes 1 p.toNat) (requestPoint p.toNat u)) := by
    simp only [setOpPoint, hu.notMaster, hmaster, Bool.false_eq_true, if_false]
  rw [htaken] at hrun
  generalize requestPoint p.toNat u = v at hask hsent hrun
  generalize bcastIfMaster 2 _ v = w at hsent hrun
  have hans := answered_answer i Op.setOpPoint 0 0 w
  have hctl : getReg Reg.FAB_OP_CTL (answer i Op.setOpPoint 0 0 w) = getReg Reg.FAB_OP_CTL v :=
    (hans.regs _ (by decide) (by decide)).trans (hsent.reg _)
  have hstat : getReg Reg.FAB_OP_STAT (answer i Op.setOpPoint 0 0 w) = getReg Reg.FAB_OP_STAT v :=
    (hans.regs _ (by decide) (by decide)).trans (hsent.reg _)
  have hbefore : regFld Reg.FAB_OP_STAT 1 0 u = regFld Reg.FAB_OP_STAT 1 0 s := by
    rw [regFld, regFld, hu.regs _ (by decide)]
  have hpending := hask.pending
  have hkept := hask.kept
  rw [hbefore] at hpending hkept
  refine ⟨_, congrArg Host.Outcome.next hrun, ?_, ?_, ?_⟩
  · rw [regFld, hctl]
    exact hask.asked
  · rw [regFld, hstat]
    exact hkept
  · rw [regBit, hstat]
    exact hpending

/-- R63: at a day boundary at which no job holds a partition here or elsewhere a pending point takes effect. -/
theorem takePoint_taken {s : State} (hpend : regBit Reg.FAB_OP_STAT 2 s = true) (hday : now s = dayAt 0 s)
    (hfree : ∀ j ∈ s.disp.jobs, j.held = false) (hothers : othersMeet 1 s = true) :
    takePoint s = setReg Reg.FAB_OP_STAT (word (regFld Reg.FAB_OP_CTL 1 0 s)) { s with bankLog := [] } := by
  have hjobs : s.disp.jobs.all (fun j => !j.held) = true := List.all_eq_true.mpr fun j hj => by rw [hfree j hj]; rfl
  unfold takePoint
  rw [hpend, decide_eq_true hday, hjobs, hothers]
  rfl

theorem takePoint_waits {s : State} (h : (∃ j ∈ s.disp.jobs, j.held = true) ∨ othersMeet 1 s = false) : takePoint s = s := by
  refine if_neg fun htake => ?_
  simp only [Bool.and_eq_true, List.all_eq_true, Bool.not_eq_true'] at htake
  obtain ⟨⟨-, hfree⟩, hothers⟩ := htake
  rcases h with ⟨j, hj, hheld⟩ | hno
  · rw [hfree j hj] at hheld
    cases hheld
  · rw [hothers] at hno
    cases hno

/-- What the register of the point in effect shows after it has been taken. -/
theorem takenPoint_shown (s : State) :
    let t := setReg Reg.FAB_OP_STAT (word (regFld Reg.FAB_OP_CTL 1 0 s)) { s with bankLog := [] }
    regFld Reg.FAB_OP_STAT 1 0 t = regFld Reg.FAB_OP_CTL 1 0 s ∧ regBit Reg.FAB_OP_STAT 2 t = false := by
  have hlt : regFld Reg.FAB_OP_CTL 1 0 s < 2 ^ 2 := Nat.mod_lt _ (by decide)
  intro t
  constructor
  · exact (regFld_setReg_same _ _ _ _ _).trans (fld_word hlt (by decide))
  · refine (regBit_setReg_same _ _ _ _).trans ?_
    rw [bit, word, BitVec.getLsbD_ofNat, Nat.testBit_lt_two_pow hlt, Bool.and_false]

end Sys2Proof.Machine
end

section
/-! The day boundary: what takes effect at it, and what the switch of tile groups and the proof frames leave alone. -/

namespace Sys2Proof.Machine

/-! ### What the end of the boundary leaves alone (R388 to R390, R432) -/

/-- The registers of the day and of the servo period. -/
abbrev dayRegs : List Nat := [Reg.DAY_NUM, Reg.DAY_US, Reg.SLOT_US, Reg.SOLVER_US, Reg.SRV_STAT]

/-- The day, the time, the day's registers, and of DEV_STATUS what does not show held columns, are as they were. -/
structure DayKept (s t : State) : Prop where
  day : t.day = s.day
  clk : t.clk = s.clk
  regs : ∀ o ∈ dayRegs, getReg o t = getReg o s
  status : ∀ b, 12 ≤ b → regBit Reg.DEV_STATUS b t = regBit Reg.DEV_STATUS b s

namespace DayKept

variable {s t u : State}

theorem refl (s : State) : DayKept s s := ⟨rfl, rfl, fun _ _ => rfl, fun _ _ => rfl⟩

theorem trans (h1 : DayKept s t) (h2 : DayKept t u) : DayKept s u :=
  ⟨h2.day.trans h1.day, h2.clk.trans h1.clk, fun o ho => (h2.regs o ho).trans (h1.regs o ho),
    fun b hb => (h2.status b hb).trans (h1.status b hb)⟩

/-- What keeps the registers of the day and DEV_STATUS whole. -/
theorem of_regs (hday : t.day = s.day) (hclk : t.clk = s.clk)
    (hregs : ∀ o ∈ Reg.DEV_STATUS :: dayRegs, getReg o t = getReg o s) :
    DayKept s t :=
  ⟨hday, hclk, fun o ho => hregs o (List.mem_cons_of_mem _ ho), fun b _ => by
    rw [regBit, regBit, hregs _ List.mem_cons_self]⟩

theorem foldl {α : Type} {f : State → α → State} {l : List α} (hf : ∀ a ∈ l, ∀ s, DayKept s (f s a)) (s : State) :
    DayKept s (l.foldl f s) := by
  induction l generalizing s with
  | nil => exact refl s
  | cons a l ih => exact (hf a List.mem_cons_self s).trans (ih (fun b hb => hf b (List.mem_cons_of_mem _ hb)) _)

theorem setReg {o : Nat} (ho : ∀ p ∈ Reg.DEV_STATUS :: dayRegs, p ≠ o) (v : Word) (s : State) : DayKept s (setReg o v s) :=
  .of_regs rfl rfl fun p hp => getReg_setReg_other _ _ (ho p hp)

end DayKept

theorem ReportOnly.dayKept {s t : State} (h : ReportOnly s t) : DayKept s t := by
  have hregs : ∀ o ∈ Reg.DEV_STATUS :: dayRegs, ¬ reportReg o := by decide
  exact .of_regs (congrArg State.day h.rest :) (congrArg State.clk h.rest :) fun o ho => h.regs o (hregs o ho)

theorem dayKept_makeProof (k : Fin 16) (s : State) : DayKept s (makeProof k s) := by
  unfold makeProof
  dsimp only
  split
  · exact .refl s
  · exact ⟨rfl, rfl, fun _ _ => rfl, fun _ _ => rfl⟩

theorem dayKept_setBinding (k : Nat) (b : Binding) (s : State) : DayKept s (setBinding k b s) :=
  ⟨rfl, rfl, fun _ _ => rfl, fun _ _ => rfl⟩

theorem dayKept_withPwr (p : Power) (s : State) : DayKept s { s with pwr := p } :=
  ⟨rfl, rfl, fun _ _ => rfl, fun _ _ => rfl⟩

theorem checkStat_report (k : Fin 16) : reportReg (Reg.SAF_CHKk_STAT k) := by
  revert k
  decide

theorem reportOnly_setLatch (b : Nat) (ten : BitVec 16) (s : State) : ReportOnly s (setLatch b ten s) :=
  reportOnly_withFrame (reportOnly_putLatches _ s)

/-- R388, R390: what a binding counts, makes due or warns of at a boundary is no setting of the day. -/
theorem dayKept_bindingDay (k : Fin 16) (s : State) : DayKept s (bindingDay k s) := by
  have hcount : ∀ v s, DayKept s (setReg (Reg.SAF_CHKk_STAT k) v s) := fun v s =>
    (ReportOnly.setReg (checkStat_report k) v s).dayKept
  have hwarn : ∀ v s, DayKept s (setReg Reg.SAF_WARN_COUNT v s) := fun v s => (ReportOnly.setReg (by decide) v s).dayKept
  have hproof : ∀ b s, DayKept s (makeProof k (setBinding k b s)) := fun b s =>
    (dayKept_setBinding k b s).trans (dayKept_makeProof k _)
  unfold bindingDay
  dsimp only
  split
  · exact .refl s
  · rw [setRegFld_eq]
    split
    · exact hcount _ s
    · split
      · exact (hcount _ s).trans ((hproof _ _).trans ((hwarn _ _).trans (reportOnly_setLatch _ _ _).dayKept))
      · exact (hcount _ s).trans (hproof _ _)

/-- What shows the held columns in DEV_STATUS shows nothing else. -/
theorem dayKept_setHeld (m : Nat) (s : State) : DayKept s (setRegFld Reg.DEV_STATUS 11 0 m s) := by
  have hne : ∀ o ∈ dayRegs, o ≠ Reg.DEV_STATUS := by decide
  exact ⟨rfl, rfl, fun o ho => getReg_setReg_other _ _ (hne o ho), fun b hb => regBit_setRegFld_apart _ _ _ _ _ _ (.inr hb)⟩

theorem dayKept_holdCols {cols : List Nat} (hcols : ∀ c ∈ cols, c < 12) (handle : Nat) (jobId : BitVec 16) (s : State) :
    DayKept s (holdCols cols handle jobId s) := by
  have hout : ∀ o ∈ Reg.DEV_STATUS :: dayRegs, ∀ c : Fin 12, o ≠ Reg.FAB_COLn_OWNER c := by decide
  have howners : DayKept s (cols.foldl (fun s c =>
      setReg (Reg.FAB_COLn_OWNER c) (word (2 ^ 31 + handle * 2 ^ 22 + jobId.toNat)) s) s) :=
    .foldl (fun c hc => .setReg (fun o ho => hout o ho ⟨c, hcols c hc⟩) _) s
  unfold holdCols showHeld
  generalize cols.foldl _ s = t at howners
  exact howners.trans (.trans (.setReg (by decide) _ t) (dayKept_setHeld _ _))

/-- R432: a switch of tile groups is no setting of the day. -/
theorem dayKept_startGroups (s : State) : DayKept s (startGroups s) := by
  have hcols : enabledCols s ≤ 12 := by
    unfold enabledCols
    split <;> decide
  unfold startGroups
  split
  · exact .refl s
  · refine (dayKept_withPwr _ s).trans (dayKept_holdCols (fun c hc => ?_) _ _ _)
    have hrange := List.mem_range.mp (List.mem_filter.mp hc).1
    omega

/-! ### What takes effect (R15, R258, R310, R311) -/

/-- The conditions under which pending settings take effect. -/
def settingsFit (d : DaySettings) (s : State) : Bool :=
  dayOk d.dayUs d.solverUs (nextPeriod s) && decide (d.slotUs ≤ d.dayUs / 2) && othersMeet 0 s

/-- The settings of the day in effect. -/
def settingsTaken (d : DaySettings) (s : State) : State :=
  setReg Reg.DAY_US (word d.dayUs) (setReg Reg.SLOT_US (word d.slotUs) (setReg Reg.SOLVER_US (word d.solverUs)
    { s with day := { s.day with pending := none } }))

theorem applySettings_cases (s : State) :
    applySettings s = s ∨ ∃ d, s.day.pending = some d ∧ applySettings s = settingsTaken d s := by
  unfold applySettings
  split
  · exact .inl rfl
  next d h =>
    split
    · exact .inr ⟨d, h, rfl⟩
    · exact .inl rfl

theorem applySettings_none {s : State} (h : s.day.pending = none) : applySettings s = s := by
  unfold applySettings
  rw [h]

theorem applySettings_taken {d : DaySettings} {s : State} (h : s.day.pending = some d) (hfit : settingsFit d s = true) :
    applySettings s = settingsTaken d s := by
  unfold applySettings
  rw [h]
  exact if_pos hfit

theorem settingsTaken_shown (d : DaySettings) (s : State) :
    getReg Reg.DAY_US (settingsTaken d s) = word d.dayUs ∧ getReg Reg.SLOT_US (settingsTaken d s) = word d.slotUs ∧
      getReg Reg.SOLVER_US (settingsTaken d s) = word d.solverUs := by
  unfold settingsTaken
  refine ⟨getReg_setReg_same _ _ _, ?_, ?_⟩
  · rw [getReg_setReg_other _ _ (by decide), getReg_setReg_same]
  · rw [getReg_setReg_other _ _ (by decide), getReg_setReg_other _ _ (by decide), getReg_setReg_same]

/-- What pending settings leave as it is: of the day all but themselves, the time, and registers but those of the settings. -/
structure SettingsOnly (s t : State) : Prop where
  day : { t.day with pending := s.day.pending } = s.day
  clk : t.clk = s.clk
  regs : ∀ o, o ∉ [Reg.DAY_US, Reg.SLOT_US, Reg.SOLVER_US] → getReg o t = getReg o s

theorem settingsOnly_applySettings (s : State) : SettingsOnly s (applySettings s) := by
  rcases applySettings_cases s with h | ⟨d, -, h⟩ <;> rw [h]
  · exact ⟨rfl, rfl, fun _ _ => rfl⟩
  · refine ⟨rfl, rfl, fun o ho => ?_⟩
    simp only [List.mem_cons, List.not_mem_nil, or_false, not_or] at ho
    obtain ⟨hday, hslot, hsolver⟩ := ho
    unfold settingsTaken
    rw [getReg_setReg_other _ _ hday, getReg_setReg_other _ _ hslot, getReg_setReg_other _ _ hsolver]
    rfl

/-- What a pending mode leaves as it is. -/
structure ModeOnly (s t : State) : Prop where
  day : t.day.start = s.day.start ∧ t.day.inSlot = s.day.inSlot ∧ t.day.pending = s.day.pending ∧
    t.day.periodUs = s.day.periodUs
  taken : t.day.pendMode = none
  clk : t.clk = s.clk
  regs : ∀ o, o ≠ Reg.DEV_STATUS → getReg o t = getReg o s
  status : ∀ b, b ≠ 29 → regBit Reg.DEV_STATUS b t = regBit Reg.DEV_STATUS b s
  shown : ∀ m sh, s.day.pendMode = some (m, sh) →
    t.day.sharesMode = m ∧ t.day.shares = sh ∧ regBit Reg.DEV_STATUS 29 t = m

theorem modeOnly_applyMode (s : State) : ModeOnly s (applyMode s) := by
  unfold applyMode
  split
  next h => exact ⟨⟨rfl, rfl, rfl, rfl⟩, h, rfl, fun _ _ => rfl, fun _ _ => rfl, fun m sh hm => by rw [h] at hm; cases hm⟩
  next shares sh h =>
    dsimp only
    refine ⟨⟨rfl, rfl, rfl, rfl⟩, rfl, rfl, fun o ho => getReg_setReg_other _ _ ho, fun b hb => ?_, fun m sh' hm => ?_⟩
    · rw [regBit_setRegFld_apart _ _ _ _ _ _ (by omega)]
      rfl
    · rw [h] at hm
      obtain ⟨rfl, rfl⟩ := Prod.mk.inj (Option.some.inj hm)
      refine ⟨rfl, rfl, ?_⟩
      rw [regBit_setRegFld_inside _ _ _ _ _ _ (by decide) (by decide) (by decide)]
      cases shares <;> rfl

/-- What a pending servo period leaves as it is. -/
structure PeriodOnly (s t : State) : Prop where
  day : { t.day with periodUs := s.day.periodUs } = s.day
  clk : t.clk = s.clk
  regs : ∀ o, o ≠ Reg.SRV_STAT → getReg o t = getReg o s
  shown : regBit Reg.SRV_STAT 29 s = true → (getReg Reg.SOLVER_US s).toNat % regFld Reg.SRV_PERIOD 6 0 s = 0 →
    t.day.periodUs = regFld Reg.SRV_PERIOD 6 0 s ∧ regBit Reg.SRV_STAT 29 t = false

theorem periodOnly_applyPeriod (s : State) : PeriodOnly s (applyPeriod s) := by
  unfold applyPeriod
  split
  · refine ⟨rfl, rfl, fun o ho => getReg_setReg_other _ _ ho, fun _ _ => ⟨rfl, ?_⟩⟩
    exact regBit_setRegFld_inside _ _ _ _ _ _ (by decide) (by decide) (by decide)
  next h =>
    refine ⟨rfl, rfl, fun _ _ => rfl, fun hpend hfit => absurd ?_ h⟩
    rw [hpend, decide_eq_true hfit]
    rfl

end Sys2Proof.Machine
end

section
/-! The settlement of O32: settings, modes, slots and operating points at their boundaries. -/

namespace Sys2Proof.Machine

/-! ### The day boundary (R15, R344) -/

/-- The state in which a day begins: its number and start count on, outside the slot. -/
def dayBegun (s : State) : State :=
  let d : Int := ((getReg Reg.DAY_US s).toNat * usRoot : Nat)
  let u := runTo (dayAt d s) s
  setRegFld Reg.DEV_STATUS 28 28 0 (incReg Reg.DAY_NUM { u with
    day := { u.day with start := u.day.start + d, inSlot := false } })

/-- The settings, the mode and the period of the day that begins, one after the other. -/
theorem dayBoundary_eq (s : State) : dayBoundary s = (List.finRange 16).foldl (fun s k => bindingDay k s)
    (startGroups (applyPeriod (applyMode (applySettings (dayBegun s))))) := rfl

theorem dayKept_boundaryEnd (s : State) :
    DayKept s ((List.finRange 16).foldl (fun s k => bindingDay k s) (startGroups s)) :=
  (dayKept_startGroups s).trans (.foldl (fun k _ s => dayKept_bindingDay k s) _)

/-- What a day begins with. -/
structure DayBegun (s u : State) : Prop where
  day : u.day = { s.day with start := s.day.start + ((getReg Reg.DAY_US s).toNat * usRoot : Nat), inSlot := false }
  now : now u = max (Machine.now s) (dayAt ((getReg Reg.DAY_US s).toNat * usRoot : Nat) s)
  number : getReg Reg.DAY_NUM u = getReg Reg.DAY_NUM s + 1
  slot : regBit Reg.DEV_STATUS 28 u = false
  regs : ∀ o, o ≠ Reg.DEV_STATUS → o ≠ Reg.DAY_NUM → getReg o u = getReg o s

theorem dayBegun_begins (s : State) : DayBegun s (dayBegun s) := by
  refine ⟨rfl, now_runTo _ s, ?_, ?_, fun o hdev hnum => ?_⟩
  · exact (getReg_setReg_other _ _ (by decide)).trans (getReg_setReg_same _ _ _)
  · exact regBit_setRegFld_inside _ _ _ _ _ _ (by decide) (by decide) (by decide)
  · exact (getReg_setReg_other _ _ hdev).trans (getReg_setReg_other _ _ hnum)

/-- What stands at the end of a day boundary. -/
structure DayTurned (s t : State) : Prop where
  number : getReg Reg.DAY_NUM t = getReg Reg.DAY_NUM s + 1
  start : t.day.start = s.day.start + ((getReg Reg.DAY_US s).toNat * usRoot : Nat)
  now : now t = max (Machine.now s) (dayAt ((getReg Reg.DAY_US s).toNat * usRoot : Nat) s)
  inSlot : t.day.inSlot = false
  slot : regBit Reg.DEV_STATUS 28 t = false
  noMode : t.day.pendMode = none
  settings : ∀ d, s.day.pending = some d → dayOk d.dayUs d.solverUs (nextPeriod s) = true → d.slotUs ≤ d.dayUs / 2 →
    othersMeet 0 { s with day := { s.day with start := t.day.start } } = true →
    t.day.pending = none ∧ getReg Reg.DAY_US t = word d.dayUs ∧ getReg Reg.SLOT_US t = word d.slotUs ∧
      getReg Reg.SOLVER_US t = word d.solverUs
  kept : s.day.pending = none → getReg Reg.DAY_US t = getReg Reg.DAY_US s
  mode : ∀ m sh, s.day.pendMode = some (m, sh) → t.day.sharesMode = m ∧ t.day.shares = sh ∧ regBit Reg.DEV_STATUS 29 t = m
  period : regBit Reg.SRV_STAT 29 s = true → (getReg Reg.SOLVER_US t).toNat % regFld Reg.SRV_PERIOD 6 0 s = 0 →
    t.day.periodUs = regFld Reg.SRV_PERIOD 6 0 s ∧ regBit Reg.SRV_STAT 29 t = false

/-- Pending settings fit the day that begins when they fit it as the statement says it. -/
theorem settingsFit_dayBegun {s u : State} (hu : DayBegun s u) {d : DaySettings} {start : Int} (hstart : u.day.start = start)
    (hok : dayOk d.dayUs d.solverUs (nextPeriod s) = true) (hslot : d.slotUs ≤ d.dayUs / 2)
    (hothers : othersMeet 0 { s with day := { s.day with start := start } } = true) : settingsFit d u = true := by
  have hperiod : nextPeriod u = nextPeriod s := by
    rw [nextPeriod, nextPeriod, regBit, regBit, regFld, regFld, hu.regs _ (by decide) (by decide),
      hu.regs _ (by decide) (by decide), hu.day]
  have hmeet : othersMeet 0 u = othersMeet 0 { s with day := { s.day with start := start } } := by
    rw [othersMeet, othersMeet, hstart, regBit, regFld, hu.regs _ (by decide) (by decide), hu.regs _ (by decide) (by decide)]
    rfl
  rw [settingsFit, hperiod, hok, decide_eq_true hslot, hmeet, hothers]
  rfl

/-- The course of a boundary from the day's begin `u`: settings, mode and period take effect in `a`, `b` and `c`, and `t` is
its end. -/
structure Turning (u a b c t : State) : Prop where
  settings : SettingsOnly u a
  mode : ModeOnly a b
  period : PeriodOnly b c
  rest : DayKept c t

namespace Turning

variable {u a b c t : State} (h : Turning u a b c t)
include h

theorem start : t.day.start = u.day.start := by
  obtain ⟨hstart, -, -, -⟩ := h.mode.day
  rw [h.rest.day]
  exact (congrArg Day.start h.period.day :).trans (hstart.trans (congrArg Day.start h.settings.day :))

theorem inSlot : t.day.inSlot = u.day.inSlot := by
  obtain ⟨-, hslot, -, -⟩ := h.mode.day
  rw [h.rest.day]
  exact (congrArg Day.inSlot h.period.day :).trans (hslot.trans (congrArg Day.inSlot h.settings.day :))

theorem clk : t.clk = u.clk := h.rest.clk.trans (h.period.clk.trans (h.mode.clk.trans h.settings.clk))

theorem pending : t.day.pending = a.day.pending := by
  obtain ⟨-, -, hpend, -⟩ := h.mode.day
  rw [h.rest.day]
  exact (congrArg Day.pending h.period.day :).trans hpend

theorem noMode : t.day.pendMode = none := by
  rw [h.rest.day]
  exact (congrArg Day.pendMode h.period.day :).trans h.mode.taken

/-- After the settings only the mode and the period change a register of the day or of the period. -/
theorem reg {o : Nat} (ho : o ∈ dayRegs) (hsrv : o ≠ Reg.SRV_STAT) (hdev : o ≠ Reg.DEV_STATUS) : getReg o t = getReg o a :=
  (h.rest.regs o ho).trans ((h.period.regs o hsrv).trans (h.mode.regs o hdev))

theorem regBefore {o : Nat} (hdev : o ≠ Reg.DEV_STATUS) (hset : o ∉ [Reg.DAY_US, Reg.SLOT_US, Reg.SOLVER_US]) :
    getReg o b = getReg o u := (h.mode.regs o hdev).trans (h.settings.regs o hset)

theorem status {k : Nat} (hk : 12 ≤ k) : regBit Reg.DEV_STATUS k t = regBit Reg.DEV_STATUS k b := by
  rw [h.rest.status k hk, regBit, regBit, h.period.regs _ (by decide)]

theorem slot : regBit Reg.DEV_STATUS 28 t = regBit Reg.DEV_STATUS 28 u := by
  rw [h.status (by decide), h.mode.status 28 (by decide), regBit, regBit, h.settings.regs _ (by decide)]

/-- Settings that were taken stand at the end of the boundary. -/
theorem shown {d : DaySettings} (ha : a = settingsTaken d u) : t.day.pending = none ∧ getReg Reg.DAY_US t = word d.dayUs ∧
    getReg Reg.SLOT_US t = word d.slotUs ∧ getReg Reg.SOLVER_US t = word d.solverUs := by
  obtain ⟨hday, hslot, hsolver⟩ := settingsTaken_shown d u
  rw [h.pending, h.reg (by decide) (by decide) (by decide), h.reg (by decide) (by decide) (by decide),
    h.reg (by decide) (by decide) (by decide), ha]
  exact ⟨rfl, hday, hslot, hsolver⟩

theorem modeShown {m : Bool} {sh : List Byte} (hm : u.day.pendMode = some (m, sh)) :
    t.day.sharesMode = m ∧ t.day.shares = sh ∧ regBit Reg.DEV_STATUS 29 t = m := by
  obtain ⟨hmode, hshares, hstatus⟩ := h.mode.shown m sh ((congrArg Day.pendMode h.settings.day :).trans hm)
  rw [h.status (by decide), h.rest.day]
  exact ⟨(congrArg Day.sharesMode h.period.day :).trans hmode, (congrArg Day.shares h.period.day :).trans hshares, hstatus⟩

theorem periodShown (hpend : regBit Reg.SRV_STAT 29 u = true)
    (hfit : (getReg Reg.SOLVER_US t).toNat % regFld Reg.SRV_PERIOD 6 0 u = 0) :
    t.day.periodUs = regFld Reg.SRV_PERIOD 6 0 u ∧ regBit Reg.SRV_STAT 29 t = false := by
  have hstat : regBit Reg.SRV_STAT 29 b = true := by
    rw [regBit, h.regBefore (by decide) (by decide)]
    exact hpend
  have hwritten : regFld Reg.SRV_PERIOD 6 0 b = regFld Reg.SRV_PERIOD 6 0 u := by
    rw [regFld, regFld, h.regBefore (by decide) (by decide)]
  rw [h.reg (by decide) (by decide) (by decide), ← h.mode.regs _ (by decide), ← hwritten] at hfit
  obtain ⟨hperiod, hclear⟩ := h.period.shown hstat hfit
  rw [h.rest.day, regBit, h.rest.regs _ (by decide), hperiod, hwritten]
  exact ⟨rfl, hclear⟩

end Turning

theorem dayTurned_dayBoundary (s : State) : DayTurned s (dayBoundary s) := by
  have hu := dayBegun_begins s
  rw [dayBoundary_eq]
  generalize dayBegun s = u at hu
  obtain ⟨t, ht⟩ : ∃ t, t = (List.finRange 16).foldl (fun s k => bindingDay k s)
    (startGroups (applyPeriod (applyMode (applySettings u)))) := ⟨_, rfl⟩
  have hturn : Turning u (applySettings u) (applyMode (applySettings u)) (applyPeriod (applyMode (applySettings u))) t :=
    ⟨settingsOnly_applySettings u, modeOnly_applyMode _, periodOnly_applyPeriod _, ht ▸ dayKept_boundaryEnd _⟩
  rw [← ht]
  have hstat : regBit Reg.SRV_STAT 29 u = regBit Reg.SRV_STAT 29 s := by
    rw [regBit, regBit, hu.regs _ (by decide) (by decide)]
  have hwritten : regFld Reg.SRV_PERIOD 6 0 u = regFld Reg.SRV_PERIOD 6 0 s := by
    rw [regFld, regFld, hu.regs _ (by decide) (by decide)]
  refine ⟨?number, hturn.start.trans (congrArg Day.start hu.day :), (congrArg Clock.root hturn.clk :).trans hu.now,
    hturn.inSlot.trans (congrArg Day.inSlot hu.day :), hturn.slot.trans hu.slot, hturn.noMode,
    fun d hd hok hslot hothers => ?settings, fun hnone => ?kept,
    fun m sh hm => hturn.modeShown ((congrArg Day.pendMode hu.day :).trans hm), fun hpend hfit => ?period⟩
  case number =>
    exact (hturn.reg (by decide) (by decide) (by decide)).trans ((hturn.settings.regs _ (by decide)).trans hu.number)
  case settings =>
    have hpend : u.day.pending = some d := (congrArg Day.pending hu.day :).trans hd
    exact hturn.shown (applySettings_taken hpend (settingsFit_dayBegun hu hturn.start.symm hok hslot hothers))
  case kept =>
    rw [hturn.reg (by decide) (by decide) (by decide), applySettings_none ((congrArg Day.pending hu.day :).trans hnone)]
    exact hu.regs _ (by decide) (by decide)
  case period => exact hwritten ▸ hturn.periodShown (hstat.trans hpend) (hwritten ▸ hfit)

/-! ### The slot (R312) -/

/-- A job that has met a slot start when it was ready or waited for its replay. -/
def metSlot (j : Job) : Job := if j.readyAt.isSome ∨ j.stage = .replay then { j with beforeSlot := true } else j

/-- The state in which the slot stands. -/
def slotBegun (s : State) : State :=
  setRegFld Reg.DEV_STATUS 28 28 1 { s with
    day := { s.day with inSlot := true }, disp := { s.disp with jobs := s.disp.jobs.map metSlot } }

theorem slotStart_eq {s : State} (h : s.day.inSlot = false) : slotStart s =
    slotBegun (runTo (dayAt (((getReg Reg.DAY_US s).toNat - (getReg Reg.SLOT_US s).toNat) * usRoot : Nat) s) s) := by
  unfold slotStart
  rw [h]
  rfl

theorem memKept_slotBegun (s : State) : memKept s (slotBegun s) := by
  have hslot : memKept s { s with
      day := { s.day with inSlot := true }, disp := { s.disp with jobs := s.disp.jobs.map metSlot } } :=
    ⟨fun sp _ => by cases sp <;> rfl, fun _ => rfl, rfl, rfl⟩
  exact memKept_step (by decide) hslot _

theorem metSlot_beforeSlot {j : Job} (h : (metSlot j).readyAt.isSome = true) : (metSlot j).beforeSlot = true := by
  unfold metSlot at h ⊢
  split
  next => rfl
  next hno =>
    rw [if_neg hno] at h
    exact absurd (.inl h) hno

/-- Settles O32: a command leaves its settings pending, the boundary takes what fits, and a point waits for a free fabric. -/
theorem daySettingsAndOperatingPoint : Obligations.DaySettingsAndOperatingPoint := by
  unfold Obligations.DaySettingsAndOperatingPoint
  refine ⟨⟨fun i d l v s hmay hmaster => ⟨fun hl hok hslot => ?accepted, fun h => ?refused⟩,
    fun i m sh s hmay hm hlen => ⟨fun hsh => ?mode, fun hsh => ?noMode⟩, fun s hreset => ?boundary,
    fun s hreset hout => ?slot⟩, fun w v s hnow => ⟨fun hv => ?asked, fun hv => ?ignored⟩,
    fun i p s hmay hmaster hp => ?setPoint, fun s hpend hday => ⟨fun hfree hothers => ?taken, fun h => ?waits⟩⟩
  case accepted =>
    obtain ⟨t, hrun, hday, hregs⟩ := execSetDay_accepted (v := v) hmay hmaster hl hok hslot
    exact ⟨t, hrun, hday, hregs _ (by decide) (by decide) (by decide), hregs _ (by decide) (by decide) (by decide),
      hregs _ (by decide) (by decide) (by decide)⟩
  case refused => exact execSetDay_refused hmay hmaster h
  case mode => exact execSetMode_accepted hmay hlen hm hsh
  case noMode => exact execSetMode_refused hmay hlen hsh
  case boundary =>
    have hturn := dayTurned_dayBoundary s
    have hrun : execDayBoundary s = .next (dayBoundary s) := congrArg Host.Outcome.next (if_neg (by rw [hreset]; decide))
    exact ⟨_, hrun, hturn.number, hturn.start, hturn.now, hturn.inSlot, hturn.slot, hturn.noMode, hturn.settings, hturn.kept,
      hturn.mode, hturn.period⟩
  case slot =>
    let u := runTo (dayAt (((getReg Reg.DAY_US s).toNat - (getReg Reg.SLOT_US s).toNat) * usRoot : Nat) s) s
    have hrun : execIntercalarySlotStart s = .next (slotBegun u) :=
      congrArg Host.Outcome.next ((if_neg (by rw [hreset]; decide)).trans (slotStart_eq hout))
    refine ⟨_, hrun, rfl, ?_, now_runTo _ s, fun j hj hready => ?_, memKept_trans (memKept_runTo _ s) (memKept_slotBegun u)⟩
    · exact regBit_setRegFld_inside _ _ _ _ _ _ (by decide) (by decide) (by decide)
    · obtain ⟨x, -, rfl⟩ := List.mem_map.mp hj
      exact metSlot_beforeSlot hready
  case asked =>
    obtain ⟨t, hrun, hask⟩ := execOpPointRequest_asks hnow hv
    have hstat : regFld Reg.FAB_OP_STAT 1 0 (usedBy w s) = regFld Reg.FAB_OP_STAT 1 0 s := by
      rw [regFld, regFld, getReg_usedBy]
    exact ⟨t, hrun, hask.asked, hask.kept.trans hstat, hstat ▸ hask.pending, hask.only⟩
  case ignored => exact execOpPointRequest_ignored hnow hv
  case setPoint => exact execSetOpPoint_asks hmay hmaster hp
  case taken =>
    obtain ⟨hpoint, hshown⟩ := takenPoint_shown s
    exact ⟨_, congrArg Host.Outcome.next (takePoint_taken hpend hday hfree hothers), hpoint, hshown, onlyRegs_setReg _ _ _⟩
  case waits => exact congrArg Host.Outcome.next (takePoint_waits h)

end Sys2Proof.Machine
end
